-- ==== Sys2Proof/Word.lean ====
section
/-!
DEFINITION. The word types of the T4 (R9, R250), the operand fields of its instruction formats (R251), and the plain
records by which the device's parties name threads, crews and messages.
-/
namespace Sys2Proof

/-- A 32-bit register or instruction word (R30, R250). -/
abbrev Word := BitVec 32
/-- A register pair or virtual address (R8, R103). -/
abbrev DWord := BitVec 64
/-- One byte of memory. -/
abbrev Byte := BitVec 8
/-- A register field of an instruction word (R251). -/
abbrev Reg6 := BitVec 6
/-- A guard or predicate field (R251). -/
abbrev Pred3 := BitVec 3

/-! ## Operand fields of the formats (R251); `sw` is the switch marker of R52. -/

/-- G3 with three registers. -/
structure R3 where
  sw : Bool
  d : Reg6
  a : Reg6
  b : Reg6
  g : Pred3
  deriving DecidableEq, Repr, Inhabited
/-- G3 with three registers and the signedness bit of R276. -/
structure R3u where
  sw : Bool
  d : Reg6
  a : Reg6
  b : Reg6
  g : Pred3
  u : Bool
  deriving DecidableEq, Repr, Inhabited
/-- G3 with destination and one source; b = 0. -/
structure R2 where
  sw : Bool
  d : Reg6
  a : Reg6
  g : Pred3
  deriving DecidableEq, Repr, Inhabited
/-- G3 with one source; dst = b = 0. -/
structure R1 where
  sw : Bool
  a : Reg6
  g : Pred3
  deriving DecidableEq, Repr, Inhabited
/-- G3 with no register. -/
structure R0 where
  sw : Bool
  g : Pred3
  deriving DecidableEq, Repr, Inhabited
/-- G3 with a destination only. -/
structure Rd where
  sw : Bool
  d : Reg6
  g : Pred3
  deriving DecidableEq, Repr, Inhabited
/-- G3 with two sources; dst = 0. -/
structure Rab where
  sw : Bool
  a : Reg6
  b : Reg6
  g : Pred3
  deriving DecidableEq, Repr, Inhabited
/-- Only the switch marker. -/
structure Rs where
  sw : Bool
  deriving DecidableEq, Repr, Inhabited
/-- `SOLVE`: the control block register. -/
structure Rsa where
  sw : Bool
  a : Reg6
  deriving DecidableEq, Repr, Inhabited
/-- The predicate-destination variant of G3. -/
structure PQ where
  sw : Bool
  p : Pred3
  q : Pred3
  a : Reg6
  b : Reg6
  g : Pred3
  deriving DecidableEq, Repr, Inhabited
/-- The integer compares of major 0x04: `m` is the minor, 0 to 9. -/
structure PQm where
  sw : Bool
  p : Pred3
  q : Pred3
  a : Reg6
  b : Reg6
  g : Pred3
  m : BitVec 4
  deriving DecidableEq, Repr, Inhabited
/-- The floating-point compares: `t` is the format bit, `r` the relation (R254). -/
structure PQf where
  sw : Bool
  p : Pred3
  q : Pred3
  a : Reg6
  b : Reg6
  g : Pred3
  t : Bool
  r : BitVec 2
  deriving DecidableEq, Repr, Inhabited
/-- GI with predicate destinations. -/
structure PQi where
  sw : Bool
  p : Pred3
  q : Pred3
  a : Reg6
  i : BitVec 10
  g : Pred3
  deriving DecidableEq, Repr, Inhabited
/-- `CVT`: target type `t`, source type `y` (R255). -/
structure Cv where
  sw : Bool
  d : Reg6
  a : Reg6
  t : BitVec 4
  g : Pred3
  y : BitVec 4
  deriving DecidableEq, Repr, Inhabited
/-- The immediate format. -/
structure GI where
  sw : Bool
  d : Reg6
  a : Reg6
  i : BitVec 10
  g : Pred3
  deriving DecidableEq, Repr, Inhabited
/-- The constant-bank format: bank `k`, word offset `w`. -/
structure GC where
  sw : Bool
  d : Reg6
  a : Reg6
  k : BitVec 3
  w : BitVec 7
  g : Pred3
  deriving DecidableEq, Repr, Inhabited
/-- `MOV` from a bank word. -/
structure GCd where
  sw : Bool
  d : Reg6
  k : BitVec 3
  w : BitVec 7
  g : Pred3
  deriving DecidableEq, Repr, Inhabited
/-- The four-register format. -/
structure G4 where
  sw : Bool
  d : Reg6
  a : Reg6
  b : Reg6
  c : Reg6
  n : Bool
  deriving DecidableEq, Repr, Inhabited
/-- The twenty-bit move format. -/
structure MV20 where
  sw : Bool
  d : Reg6
  i : BitVec 20
  deriving DecidableEq, Repr, Inhabited
/-- The branch format. -/
structure Br where
  sw : Bool
  g : Pred3
  o : BitVec 22
  deriving DecidableEq, Repr, Inhabited
/-- The memory format of loads and stores: width `z`, order `r`. -/
structure MemF where
  sw : Bool
  d : Reg6
  a : Reg6
  g : Pred3
  z : BitVec 3
  r : Bool
  i : BitVec 5
  deriving DecidableEq, Repr, Inhabited
/-- `PREF`: target `t`. -/
structure PrefF where
  sw : Bool
  t : Reg6
  a : Reg6
  g : Pred3
  z : BitVec 3
  i : BitVec 5
  deriving DecidableEq, Repr, Inhabited
/-- A global atomic: order `o`, operation `p`. -/
structure AtF where
  sw : Bool
  d : Reg6
  a : Reg6
  b : Reg6
  o : BitVec 2
  p : BitVec 4
  deriving DecidableEq, Repr, Inhabited
/-- A global atomic that returns nothing. -/
structure RedF where
  sw : Bool
  a : Reg6
  b : Reg6
  o : BitVec 2
  p : BitVec 4
  deriving DecidableEq, Repr, Inhabited
/-- An explicit-level atomic. -/
structure AtX where
  sw : Bool
  d : Reg6
  a : Reg6
  b : Reg6
  p : BitVec 4
  deriving DecidableEq, Repr, Inhabited
/-- An explicit-level atomic that returns nothing. -/
structure RedX where
  sw : Bool
  a : Reg6
  b : Reg6
  p : BitVec 4
  deriving DecidableEq, Repr, Inhabited
/-- `XLIT`. -/
structure HX where
  sw : Bool
  p : BitVec 25
  deriving DecidableEq, Repr, Inhabited
/-- `XMOD`, field by field (R259). -/
structure HM where
  sw : Bool
  r : Bool
  o : BitVec 2
  t : Bool
  c : Bool
  l : BitVec 2
  e : Bool
  g : Pred3
  deriving DecidableEq, Repr, Inhabited
/-- `DICT`: `n` holds the run length minus 1. -/
structure HD where
  sw : Bool
  n : BitVec 4
  deriving DecidableEq, Repr, Inhabited
/-- `SCHED`. -/
structure HS where
  sw : Bool
  l : BitVec 2
  deriving DecidableEq, Repr, Inhabited
/-- A 16-bit dictionary code (R261). -/
structure CodeF where
  sw : Bool
  o : BitVec 5
  x : BitVec 10
  deriving DecidableEq, Repr, Inhabited
/-- `BAR`: predicate `p`, barrier number `n`. -/
structure BarF where
  sw : Bool
  p : Pred3
  n : BitVec 4
  deriving DecidableEq, Repr, Inhabited
/-- `TRAP`: the number. -/
structure TrapF where
  sw : Bool
  n : BitVec 12
  g : Pred3
  deriving DecidableEq, Repr, Inhabited
/-- `CRR` and `CRW`: register `r`, index `x`. -/
structure CrF where
  sw : Bool
  r : Reg6
  x : BitVec 12
  g : Pred3
  deriving DecidableEq, Repr, Inhabited

/-! ## Names the device's parties use for one another. -/

/-- One thread: its team (the model's serial number of the team), logical crew index and lane (R30, R33). -/
structure TRef where
  team : Nat
  crew : Nat
  lane : Nat
  deriving DecidableEq, Repr, Inhabited

/-- One crew: its team and logical crew index (R33); handler crews follow the launch's crews (R187). -/
structure CRef where
  team : Nat
  crew : Nat
  deriving DecidableEq, Repr, Inhabited

def TRef.cref (r : TRef) : CRef := ⟨r.team, r.crew⟩

/-- The attempt envelope of a fabric message (R186). -/
structure Envelope where
  attemptTime : DWord
  sequence : Word
  modNum : BitVec 16
  iface : Nat
  attempt : Nat
  deriving DecidableEq, Repr, Inhabited

/-- A fabric message: the header of R184 and its payload words. The class codes are those of R183. -/
structure Msg where
  cls : Nat
  job : BitVec 16
  dest : Word
  sender : Word
  selector : BitVec 8
  length : Nat
  address : DWord
  timestamp : DWord
  payload : List Word
  deriving DecidableEq, Repr, Inhabited

/-- The three sums of a pass or a verdict, each modulo 2^64 (R192). -/
structure Sums where
  i : DWord
  c : DWord
  l : DWord
  deriving DecidableEq, Repr, Inhabited

/-- A time beacon: the time it carries and the fabric hops it has come (R26). -/
structure Beacon where
  stamp : Nat
  hops : Nat
  deriving DecidableEq, Repr, Inhabited

/-- One 32-byte entry of a route table (R181). -/
structure RouteEntry where
  first : Word
  last : Word
  modNum : BitVec 16
  ports : BitVec 96
  deriving DecidableEq, Repr, Inhabited

end Sys2Proof
end

