-- ==== Sys2Proof/Config.lean ====
section
/-!
DEFINITION. What is fixed for the device, and the values the spec leaves open: opaque functions of a counter or of the
operands, of which nothing can be proved.
-/
namespace Sys2Proof.Config

/-! ## Fixed by the spec -/

/-- Cores of the device (R2), dies (R11). -/
def cores : Nat := 256
def dies : Nat := 4
/-- Populated offsets of a die's tiers (R105). -/
def gddrBytes : Nat := 48 * 2 ^ 30
def lpddrBytes : Nat := 192 * 2 ^ 30
/-- Physical addresses that only Muaro writes: die 0's GDDR7 offsets below this (R248). -/
def muaroBytes : Nat := 0x110000
/-- The arithmetic clock in MHz when it is not lowered (R24); the timestamp counts nanoseconds. -/
def clockMHz : Nat := 2700
/-- Cycles between two issues of one thread (R46). -/
def issueInterval : Nat := 8
/-- Entries of a core's task queue (R228). -/
def taskQueue : Nat := 256
/-- Entries of the matrix queue (R155). -/
def matrixQueue : Nat := 16
/-- Copies of a team on transaction barriers (R120). -/
def barrierCopies : Nat := 64
/-- Messages an incoming queue holds before the ring takes the rest (R189). -/
def incomingQueue : Nat := 64
/-- Job slots of a module (R178). -/
def jobSlots : Nat := 64

/-- Ways of an L1 data set, of 64-byte lines in 512 sets: 320 KiB (R109). -/
def l1Ways : Nat := 10
/-- Lines of an L1 instruction cache, of 256 bytes: 64 KiB (R21, R112). -/
def icacheLines : Nat := 256
/-- Entries of a set and sets of a core's, a cluster's and a die's TLB: 64 fully associative, 2,048 and 16,384 8-way (R107). -/
def tlbWays (level : Nat) : Nat := if level = 0 then 64 else 8
def tlbSets (level : Nat) : Nat := match level with | 0 => 1 | 1 => 256 | _ => 2048

/-! ## Left open by the spec (assumptions 2, 3, 13) -/

/-- A byte the spec does not architect: the next of an unconstrained sequence. -/
opaque freeByte : Nat → Byte
/-- A 32-bit value the spec leaves open. -/
opaque freeWord : Nat → Word
/-- A 64-bit value the spec leaves open. -/
opaque freeDWord : Nat → DWord
/-- The fixed function of a special-function operation on operands whose result R291 bounds only (R89): the code of the
operation (its minor) and the operand. -/
opaque sfuRaw : Nat → Word → Word
/-- A byte of a part of an image, by the part, its contents and the place in it: the layout inside the parts is not architected
(R233, R234). -/
opaque partByte : Nat → List Nat → Nat → Byte
/-- The set of an L1 data cache in which a line of memory stands, and the set of a cluster's (1) or die's (2) TLB in which a
page of a context stands (R107, R109; assumption 75). -/
opaque l1Set : Nat → BitVec 9
opaque tlbSet : Nat → Nat → Nat → Nat
/-- The set of an L2 slice in which a line stands (R110; assumption 75). -/
opaque l2Set : Nat → BitVec 9
/-- The set of a scale cache in which a line of a tensor stands (R150). -/
opaque scaleSet : Nat → Nat → BitVec 6
/-- Code of the write-back fault of a word whose home is in a die reset (R476). -/
opaque shutCode : BitVec 8
/-- The kind byte of a control flit of the fabric (R186), by the kind of what it says. -/
opaque flitKind : Nat → Byte
/-- The format number of the capability table, and the version of a firmware image (R246, R400). -/
opaque capFormat : BitVec 16
opaque firmwareVersion : List Byte → Word
/-- The errata records offered at the n-th reset: how many, and of each its number, stepping, workaround mask and text, and
whether its signature verifies (R247). -/
opaque errataCount : Nat → Nat
opaque errataNumber : Nat → Nat → Word
opaque errataStepping : Nat → Nat → BitVec 16
opaque errataMask : Nat → Nat → BitVec 16
opaque errataText : Nat → Nat → List Byte
opaque errataVerifies : Nat → Nat → Bool
/-- What the fuses of a die say in its defect map: lot, wafer, x and y of the identity, the voltage bin, of a spare core the
position it fills, of a row entry its core and row (R18, R393). -/
opaque mapIdentity : Nat → BitVec 56
opaque mapVoltage : Nat → Byte
opaque mapSpare : Nat → Nat → Word
opaque mapRow : Nat → Nat → Word
/-- A byte of Densar's signature over bytes, and of the module's own (R246, R398). -/
opaque signatureByte : List Byte → Nat → Byte
opaque ownSignatureByte : List Byte → Nat → Byte
/-- Predicted hours of operation of a die at the n-th reading (R395). -/
opaque ageHours : Nat → Nat → Word
/-- Rail voltage in mV read at a die and rail (R391). -/
opaque railMillivolts : Nat → Nat → Nat → BitVec 16
/-- What a self-test finds: failing units and the first of them, by die, test, target and run (R390). -/
opaque bistFailing : Nat → Nat → Nat → Nat → Word
opaque bistFirst : Nat → Nat → Nat → Nat → DWord
/-- The error count of one point of an eye scan (R392). -/
opaque eyeCount : Nat → Nat → Word
/-- Whether a signature over a change of state, or over a firmware image, verifies (R396, R397). -/
opaque authorisationVerifies : List Byte → Nat → Bool
opaque firmwareVerifies : List Byte → Bool

end Sys2Proof.Config
end

