-- ==== Sys2Proof/Syntax.lean ====
section
/-!
DEFINITION. The instructions and device operations of the T4: one constructor for each row of the opcode table, in its
order. Rows 0 to 201 are the instruction words of R253 and R254 and the dictionary code of R261; the others are
operations and events of the device (spec file 95), each indivisible.
-/
namespace Sys2Proof

/-- Every instruction and operation; the docstring of each names its rule. -/
inductive Instr where
  /-- IADD, R276. -/
  | iadd (f : R3u)
  /-- ISUB, R276. -/
  | isub (f : R3u)
  /-- IMUL, R276. -/
  | imul (f : R3u)
  /-- IMULH, R276. -/
  | imulh (f : R3u)
  /-- IMIN, R276. -/
  | imin (f : R3u)
  /-- IMAX, R276. -/
  | imax (f : R3u)
  /-- DIV, R276. -/
  | div (f : R3u)
  /-- REM, R276. -/
  | rem (f : R3u)
  /-- IADD_64, R276. -/
  | iadd64 (f : R3u)
  /-- ISUB_64, R276. -/
  | isub64 (f : R3u)
  /-- IMUL_64, R276. -/
  | imul64 (f : R3u)
  /-- IMULH_64, R276. -/
  | imulh64 (f : R3u)
  /-- IMIN_64, R276. -/
  | imin64 (f : R3u)
  /-- IMAX_64, R276. -/
  | imax64 (f : R3u)
  /-- DIV_64, R276. -/
  | div64 (f : R3u)
  /-- REM_64, R276. -/
  | rem64 (f : R3u)
  /-- AND, R279. -/
  | andR (f : R3)
  /-- OR, R279. -/
  | orR (f : R3)
  /-- XOR, R279. -/
  | xorR (f : R3)
  /-- ANDN, R279. -/
  | andn (f : R3)
  /-- SHL, R279. -/
  | shl (f : R3)
  /-- SHR, R279. -/
  | shr (f : R3)
  /-- SAR, R279. -/
  | sar (f : R3)
  /-- ROL, R279. -/
  | rol (f : R3)
  /-- POPC, R279. -/
  | popc (f : R2)
  /-- CLZ, R279. -/
  | clz (f : R2)
  /-- BREV, R279. -/
  | brev (f : R2)
  /-- SHL_W64, R279. -/
  | shlW64 (f : R3)
  /-- SHR_W64, R279. -/
  | shrW64 (f : R3)
  /-- SAR_I64, R279. -/
  | sarI64 (f : R3)
  /-- IADD_IMM, R277. -/
  | iaddImm (f : GI)
  /-- IMUL_IMM, R277. -/
  | imulImm (f : GI)
  /-- AND_IMM, R279. -/
  | andImm (f : GI)
  /-- OR_IMM, R279. -/
  | orImm (f : GI)
  /-- XOR_IMM, R279. -/
  | xorImm (f : GI)
  /-- SHL_IMM, R279. -/
  | shlImm (f : GI)
  /-- SHR_IMM, R279. -/
  | shrImm (f : GI)
  /-- SAR_IMM, R279. -/
  | sarImm (f : GI)
  /-- ICMP, R280. -/
  | icmp (f : PQm)
  /-- TEST_W32, R280. -/
  | testW32 (f : PQ)
  /-- ICMP_EQ_IMM, R280. -/
  | icmpEqImm (f : PQi)
  /-- ICMP_LT_IMM, R280. -/
  | icmpLtImm (f : PQi)
  /-- FADD, R282. -/
  | fadd (f : R3)
  /-- FSUB, R282. -/
  | fsub (f : R3)
  /-- FMUL, R282. -/
  | fmul (f : R3)
  /-- FDIV, R282. -/
  | fdiv (f : R3)
  /-- FSQRT, R282. -/
  | fsqrt (f : R2)
  /-- FMIN, R282. -/
  | fmin (f : R3)
  /-- FMAX, R282. -/
  | fmax (f : R3)
  /-- FABS, R282. -/
  | fabs (f : R2)
  /-- FNEG, R282. -/
  | fneg (f : R2)
  /-- FCPYS, R282. -/
  | fcpys (f : R3)
  /-- FRND, R282. -/
  | frnd (f : R2)
  /-- FCLASS, R283. -/
  | fclass (f : R2)
  /-- FADD_F64, R282. -/
  | faddF64 (f : R3)
  /-- FSUB_F64, R282. -/
  | fsubF64 (f : R3)
  /-- FMUL_F64, R282. -/
  | fmulF64 (f : R3)
  /-- FDIV_F64, R282. -/
  | fdivF64 (f : R3)
  /-- FSQRT_F64, R282. -/
  | fsqrtF64 (f : R2)
  /-- FMIN_F64, R282. -/
  | fminF64 (f : R3)
  /-- FMAX_F64, R282. -/
  | fmaxF64 (f : R3)
  /-- FABS_F64, R282. -/
  | fabsF64 (f : R2)
  /-- FNEG_F64, R282. -/
  | fnegF64 (f : R2)
  /-- FCPYS_F64, R282. -/
  | fcpysF64 (f : R3)
  /-- FRND_F64, R282. -/
  | frndF64 (f : R2)
  /-- FCLASS_F64, R283. -/
  | fclassF64 (f : R2)
  /-- HADD_F16, R286. -/
  | haddF16 (f : R3)
  /-- HSUB_F16, R286. -/
  | hsubF16 (f : R3)
  /-- HMUL_F16, R286. -/
  | hmulF16 (f : R3)
  /-- HMIN_F16, R286. -/
  | hminF16 (f : R3)
  /-- HMAX_F16, R286. -/
  | hmaxF16 (f : R3)
  /-- HADD_BF16, R286. -/
  | haddBf16 (f : R3)
  /-- HSUB_BF16, R286. -/
  | hsubBf16 (f : R3)
  /-- HMUL_BF16, R286. -/
  | hmulBf16 (f : R3)
  /-- HMIN_BF16, R286. -/
  | hminBf16 (f : R3)
  /-- HMAX_BF16, R286. -/
  | hmaxBf16 (f : R3)
  /-- FCMP, R287. -/
  | fcmp (f : PQf)
  /-- CVT, R288. -/
  | cvt (f : Cv)
  /-- RECIP_F32, R291. -/
  | recipF32 (f : R2)
  /-- RROOT_F32, R291. -/
  | rrootF32 (f : R2)
  /-- EXP2, R291. -/
  | exp2 (f : R2)
  /-- LOG2, R291. -/
  | log2 (f : R2)
  /-- SIN, R291. -/
  | sin (f : R2)
  /-- COS, R291. -/
  | cos (f : R2)
  /-- TANH, R291. -/
  | tanh (f : R2)
  /-- RECIP_F64, R291. -/
  | recipF64 (f : R2)
  /-- RROOT_F64, R291. -/
  | rrootF64 (f : R2)
  /-- MOV, R292. -/
  | mov (f : R2)
  /-- MOV_D, R292. -/
  | movD (f : R2)
  /-- MOV_FROM_K, R292. -/
  | movFromK (f : R2)
  /-- MOV_TO_K, R292. -/
  | movToK (f : R2)
  /-- SREAD, R294. -/
  | sread (f : R2)
  /-- SHFL_PICK, R295. -/
  | shflPick (f : R3)
  /-- SHFL_ROT, R295. -/
  | shflRot (f : R3)
  /-- SHFL_SEG, R295. -/
  | shflSeg (f : R3)
  /-- SHFL_FLIP, R295. -/
  | shflFlip (f : R3)
  /-- VOTE_EVERY, R296. -/
  | voteEvery (f : R2)
  /-- VOTE_SOME, R296. -/
  | voteSome (f : R2)
  /-- VOTE_MAP, R296. -/
  | voteMap (f : R2)
  /-- VOTE_FSUM, R296. -/
  | voteFsum (f : R2)
  /-- VOTE_ISUM, R296. -/
  | voteIsum (f : R2)
  /-- FFMA_F32, R285. -/
  | ffmaF32 (f : G4)
  /-- FFMA_F64, R285. -/
  | ffmaF64 (f : G4)
  /-- HFMA_F16, R286. -/
  | hfmaF16 (f : G4)
  /-- HFMA_BF16, R286. -/
  | hfmaBf16 (f : G4)
  /-- IMAD_I32, R278. -/
  | imadI32 (f : G4)
  /-- IMAD_W32, R278. -/
  | imadW32 (f : G4)
  /-- FADD_BANK, R284. -/
  | faddBank (f : GC)
  /-- FMUL_BANK, R284. -/
  | fmulBank (f : GC)
  /-- FFMAC, R284. -/
  | ffmac (f : GC)
  /-- IADD_BANK, R277. -/
  | iaddBank (f : GC)
  /-- MOV_BANK, R292. -/
  | movBank (f : GCd)
  /-- MOVF20, R293. -/
  | movf20 (f : MV20)
  /-- MOVI20, R293. -/
  | movi20 (f : MV20)
  /-- BRA, R299. -/
  | bra (f : Br)
  /-- CALL, R299. -/
  | call (f : Br)
  /-- BRX, R300. -/
  | brx (f : R1)
  /-- CALLX, R300. -/
  | callx (f : R2)
  /-- RET, R300. -/
  | ret (f : R1)
  /-- EXIT, R301. -/
  | exit (f : R0)
  /-- YIELD, R302. -/
  | yield (f : R0)
  /-- NOP, R303. -/
  | nop (f : R0)
  /-- XLIT, R258. -/
  | xlit (f : HX)
  /-- XMOD, R259. -/
  | xmod (f : HM)
  /-- DICT, R261. -/
  | dict (f : HD)
  /-- SCHED, R260. -/
  | sched (f : HS)
  /-- DICT_CODE, R261. -/
  | dictCode (f : CodeF)
  /-- JOIN, R53. -/
  | join (f : R1)
  /-- LEAVE, R53. -/
  | leave (f : R1)
  /-- WAITM, R53. -/
  | waitm (f : R1)
  /-- WAITMT, R318. -/
  | waitmt (f : R3)
  /-- MAND, R319. -/
  | mand (f : R3)
  /-- MOR, R319. -/
  | mor (f : R3)
  /-- MXOR, R319. -/
  | mxor (f : R3)
  /-- MANDN, R319. -/
  | mandn (f : R3)
  /-- MMOV, R319. -/
  | mmov (f : R2)
  /-- MSET, R319. -/
  | mset (f : R2)
  /-- MGET, R320. -/
  | mget (f : R3)
  /-- BAR, R321. -/
  | bar (f : BarF)
  /-- TBINIT, R322. -/
  | tbinit (f : Rab)
  /-- TBARRIVE, R323. -/
  | tbarrive (f : R2)
  /-- TBWAIT, R324. -/
  | tbwait (f : Rab)
  /-- FENCE_REL, R313. -/
  | fenceRel (f : R0)
  /-- FENCE_ACQ, R313. -/
  | fenceAcq (f : R0)
  /-- FENCE_AR, R313. -/
  | fenceAr (f : R0)
  /-- TAGWANY, R331. -/
  | tagwany (f : R2)
  /-- TAGWALL, R331. -/
  | tagwall (f : R1)
  /-- TAGFIRST, R331. -/
  | tagfirst (f : R2)
  /-- PREF, R312. -/
  | pref (f : PrefF)
  /-- LD, R309. -/
  | ld (f : MemF)
  /-- ST, R309. -/
  | st (f : MemF)
  /-- LDL, R309. -/
  | ldl (f : MemF)
  /-- STL, R309. -/
  | stl (f : MemF)
  /-- LDS, R309. -/
  | lds (f : MemF)
  /-- STS, R309. -/
  | sts (f : MemF)
  /-- LDC, R309. -/
  | ldc (f : MemF)
  /-- STC, R309. -/
  | stc (f : MemF)
  /-- LDX, R309. -/
  | ldx (f : MemF)
  /-- STX, R309. -/
  | stx (f : MemF)
  /-- ATOM, R315. -/
  | atom (f : AtF)
  /-- RED, R315. -/
  | red (f : RedF)
  /-- ATOMS, R315. -/
  | atoms (f : AtX)
  /-- ATOMC, R315. -/
  | atomc (f : AtX)
  /-- ATOMX, R315. -/
  | atomx (f : AtX)
  /-- REDS, R315. -/
  | reds (f : RedX)
  /-- REDC, R315. -/
  | redc (f : RedX)
  /-- REDX, R315. -/
  | redx (f : RedX)
  /-- CPY, R329. -/
  | cpy (f : R3)
  /-- CPYG, R330. -/
  | cpyg (f : R3)
  /-- CPYS, R330. -/
  | cpys (f : R3)
  /-- TCFG, R336. -/
  | tcfg (f : R1)
  /-- WLD, R337. -/
  | wld (f : Rab)
  /-- WSWAP, R338. -/
  | wswap (f : R0)
  /-- MMS, R339. -/
  | mms (f : R3)
  /-- AST, R340. -/
  | ast (f : R3)
  /-- ALD, R340. -/
  | ald (f : R2)
  /-- AZERO, R340. -/
  | azero (f : Rd)
  /-- SCLD, R341. -/
  | scld (f : R3)
  /-- BATON_PASS, R342. -/
  | batonPass (f : Rs)
  /-- BATON_WAIT, R342. -/
  | batonWait (f : Rs)
  /-- SOLVE, R343. -/
  | solve (f : Rsa)
  /-- SOLEND, R343. -/
  | solend (f : Rs)
  /-- MSEND, R346. -/
  | msend (f : Rab)
  /-- RPUT, R346. -/
  | rput (f : Rab)
  /-- RGET, R347. -/
  | rget (f : R2)
  /-- RATOM, R346. -/
  | ratom (f : R3)
  /-- WAITQ, R349. -/
  | waitq (f : Rd)
  /-- TSPAWN, R350. -/
  | tspawn (f : R1)
  /-- TDONE, R351. -/
  | tdone (f : R0)
  /-- LAUNCH, R352. -/
  | launch (f : R2)
  /-- PUBLISH, R353. -/
  | publish (f : R1)
  /-- PROG, R354. -/
  | prog (f : R1)
  /-- SUBPOL, R355. -/
  | subpol (f : R1)
  /-- SUBQ, R356. -/
  | subq (f : R2)
  /-- TRAP, R357. -/
  | trap (f : TrapF)
  /-- ERET, R358. -/
  | eret (f : R0)
  /-- CRR, R359. -/
  | crr (f : CrF)
  /-- CRW, R359. -/
  | crw (f : CrF)
  /-- ICINV, R361. -/
  | icinv (f : Rab)
  /-- TLBINV, R362. -/
  | tlbinv (f : Rab)
  /-- BIST, R363. -/
  | bist (f : R2)
  /-- HALT, R364. -/
  | halt (f : R0)
  /-- HOST_FETCH_START, R242. -/
  | hostFetchStart (ctx : Nat) (r : TRef)
  /-- HOST_FETCH_ABANDON, R435. -/
  | hostFetchAbandon (ctx : Nat)
  /-- PREEMPT_TEAM, R232. -/
  | preemptTeam (ctx writer team : Nat)
  /-- PREEMPT_LAUNCH, R232. -/
  | preemptLaunch (ctx writer : Nat)
  /-- ABORT_REQUEST, R411. -/
  | abortRequest (ctx writer team : Nat)
  /-- SET_FABRIC_PERIOD, R360. -/
  | setFabricPeriod (job : BitVec 16) (period : Word)
  /-- RAIL_OFFSET_WRITE, R391. -/
  | railOffsetWrite (die rail : Nat) (step : BitVec 8)
  /-- EYE_SCAN_START, R392. -/
  | eyeScanStart (die ctx : Nat)
  /-- EYE_SCAN_COMPLETE, R392. -/
  | eyeScanComplete (die : Nat)
  /-- BIST_COMPLETE, R390. -/
  | bistComplete (die : Nat)
  /-- LAUNCH_PACKET, R221. -/
  | launchPacket (bytes : List Byte) (host : Bool)
  /-- TEAM_ADMISSION, R223. -/
  | teamAdmission
  /-- TEAM_RESTORE, R236. -/
  | teamRestore
  /-- TEAM_RETIREMENT, R71. -/
  | teamRetirement (team : Nat)
  /-- LAUNCH_COMPLETION, R227. -/
  | launchCompletion (launch : Nat)
  /-- TASK_ADMISSION, R229. -/
  | taskAdmission (core : Nat)
  /-- SPILL_RETURN, R228. -/
  | spillReturn (core : Nat)
  /-- TASK_RETIREMENT, R351. -/
  | taskRetirement (team : Nat)
  /-- TEAM_IMAGE_SAVE, R232. -/
  | teamImageSave (team : Nat)
  /-- RESULT_RETURN, R51. -/
  | resultReturn (r : TRef) (n : Nat)
  /-- L1_WRITE_BACK, R131. -/
  | l1WriteBack (core pa start : Nat)
  /-- RELEASE_COMPLETION, R133. -/
  | releaseCompletion (c : CRef)
  /-- PAGE_WALK, R107. -/
  | pageWalk (die ctx : Nat) (va : DWord)
  /-- SUPERVISOR_TRAP_ENTRY, R405. -/
  | supervisorTrapEntry (r : TRef)
  /-- WAITMT_TIMEOUT, R56. -/
  | waitmtTimeout (r : TRef)
  /-- DETERMINISTIC_IDLE_STEP, R56. -/
  | deterministicIdleStep (core : Nat)
  /-- DETERMINISTIC_YIELD, R65. -/
  | deterministicYield (core : Nat)
  /-- SPIN_DEMOTION, R62. -/
  | spinDemotion (r : TRef)
  /-- COPY_DEFERRED_START, R120. -/
  | copyDeferredStart (r : TRef)
  /-- COPY_CHUNK, R122. -/
  | copyChunk (cluster : Nat)
  /-- MATRIX_INSTRUCTION_START, R155. -/
  | matrixInstructionStart (team id : Nat)
  /-- MATRIX_INSTRUCTION_COMPLETE, R155. -/
  | matrixInstructionComplete (team id : Nat)
  /-- SCALE_CACHE_FILL, R150. -/
  | scaleCacheFill (team id : Nat)
  /-- SOLVE_STEP, R170. -/
  | solveStep (team : Nat)
  /-- SOLEND_STEP, R171. -/
  | solendStep (team : Nat)
  /-- MESSAGE_INJECTION, R190. -/
  | messageInjection (id : Nat)
  /-- ACTIVE_MESSAGE_ARRIVAL, R189. -/
  | activeMessageArrival (m : Msg) (e : Envelope) (dest : Nat) (bad : Bool)
  /-- REMOTE_PUT_ARRIVAL, R183. -/
  | remotePutArrival (m : Msg) (e : Envelope) (dest : Nat) (bad : Bool)
  /-- REMOTE_GET_ARRIVAL, R183. -/
  | remoteGetArrival (m : Msg) (e : Envelope) (dest : Nat) (bad : Bool)
  /-- REMOTE_ATOMIC_ARRIVAL, R346. -/
  | remoteAtomicArrival (m : Msg) (e : Envelope) (dest : Nat) (bad ret : Bool)
  /-- REPLY_ARRIVAL, R347. -/
  | replyArrival (m : Msg) (e : Envelope) (dest : Nat) (bad : Bool)
  /-- HANDLER_START, R188. -/
  | handlerStart (team crew : Nat)
  /-- HANDLER_RETIREMENT, R188. -/
  | handlerRetirement (team crew : Nat)
  /-- ACKNOWLEDGEMENT, R453. -/
  | acknowledgement (iface : Nat) (seq : Word)
  /-- ATTEMPT_TIMEOUT, R453. -/
  | attemptTimeout (id : Nat)
  /-- LOSS_QUERY, R454. -/
  | lossQuery (id : Nat)
  /-- LOSS_QUERY_ARRIVAL, R454. -/
  | lossQueryArrival (m : Msg) (e : Envelope) (dest : Nat)
  /-- LOSS_QUERY_ANSWER, R454. -/
  | lossQueryAnswer (iface : Nat) (seq : Word) (received : Bool)
  /-- QUERY_TIMEOUT, R454. -/
  | queryTimeout (id : Nat)
  /-- LOSS_NOTICE, R455. -/
  | lossNotice (iface : Nat) (seq : Word) (code : Nat)
  /-- FAILURE_NOTICE, R481. -/
  | failureNotice (iface : Nat) (seq : Word) (cls code detail : Nat)
  /-- WAVE_START, R195. -/
  | waveStart (job : BitVec 16)
  /-- PASS_REQUEST, R192. -/
  | passRequest (job : BitVec 16) (number pass iface : Nat)
  /-- PASS_COMPLETE, R192. -/
  | passComplete (job : BitVec 16)
  /-- VERDICT, R196. -/
  | verdict (job : BitVec 16) (number kind : Nat) (sums : Sums) (die : Nat)
  /-- WAVE_INCOMPLETE, R457. -/
  | waveIncomplete (job : BitVec 16)
  /-- TIMING_BEACON, R26. -/
  | timingBeacon (beacon : Beacon)
  /-- BEACON_SEND, R26. -/
  | beaconSend
  /-- D2D_FLIT, R13. -/
  | d2dFlit (source target : Nat) (good : Bool)
  /-- WEEVIL_WINDOW_SELECT, R199. -/
  | weevilWindowSelect (core : Nat)
  /-- CANDIDATE_INSTALL, R203. -/
  | candidateInstall (core : Nat) (words : List Word) (exact : Bool) (id : Nat)
  /-- WINDOW_BARREN, R203. -/
  | windowBarren (core : Nat)
  /-- WINDOW_EXECUTION, R208. -/
  | windowExecution (entry : Nat)
  /-- DUAL_RUN_COMPARISON, R207. -/
  | dualRunComparison (core : Nat)
  /-- ENTRY_REPLICATION, R208. -/
  | entryReplication (source target cand : Nat)
  /-- CANDIDATE_WITHDRAWAL, R459. -/
  | candidateWithdrawal (cand : Nat)
  /-- TEAM_STOP, R375. -/
  | teamStop (team : Nat)
  /-- TRACE_RECOVERY, R382. -/
  | traceRecovery (core : Nat)
  /-- SAMPLE_TICK, R384. -/
  | sampleTick (core : Nat)
  /-- HISTOGRAM_FLUSH, R384. -/
  | histogramFlush (launch : Nat)
  /-- CAUSAL_TRIAL_END, R383. -/
  | causalTrialEnd (launch : Nat)
  /-- HOST_READ_DATA, R242. -/
  | hostReadData (ctx : Nat) (bytes : List Byte) (error : Bool)
  /-- HOST_FETCH_TIMEOUT, R434. -/
  | hostFetchTimeout (ctx : Nat)
  /-- PUBLICATION_WRITE, R244. -/
  | publicationWrite (ctx window : Nat)
  /-- PUBLICATION_TIMEOUT, R434. -/
  | publicationTimeout (ctx window : Nat)
  /-- READ_CAPABILITY_TABLE, R386. -/
  | readCapabilityTable (seq offset length : Nat)
  /-- STOP, R374. -/
  | stop (seq ctx : Nat) (tag : DWord) (team : Option Nat) (dump : DWord) (memory : Bool)
  /-- RESUME, R376. -/
  | resume (seq ctx : Nat) (tag : DWord) (team : Option Nat)
  /-- TRACE_ON, R378. -/
  | traceOn (seq ctx : Nat) (tag : DWord) (team : Option Nat) (base : DWord) (size : Nat)
  /-- TRACE_OFF, R378. -/
  | traceOff (seq ctx : Nat) (tag : DWord) (team : Option Nat)
  /-- CAUSAL_TRIAL, R383. -/
  | causalTrial (seq ctx : Nat) (tag : DWord) (lo hi delay duration : Nat) (result : DWord)
  /-- SAMPLING, R384. -/
  | sampling (seq ctx : Nat) (tag : DWord) (period lo g : Nat) (result : DWord)
  /-- CORE_RESUME, R364. -/
  | coreResume (seq core : Nat)
  /-- READ_DEFECT_MAP, R393. -/
  | readDefectMap (seq die : Nat)
  /-- SET_RAIL_OFFSET, R391. -/
  | setRailOffset (seq die rail : Nat) (step : BitVec 8)
  /-- EYE_SCAN, R392. -/
  | eyeScan (seq die kind port lane : Nat) (result : DWord)
  /-- READ_AGEING, R395. -/
  | readAgeing (seq die : Nat)
  /-- ATTEST, R398. -/
  | attest (seq : Nat) (nonce : List Byte)
  /-- CHANGE_LIFECYCLE_STATE, R396. -/
  | changeLifecycleState (seq new : Nat) (authorisation : List Byte)
  /-- INSTALL_FIRMWARE, R397. -/
  | installFirmware (seq address length : Nat)
  /-- CREATE_LAUNCH_CONTEXT, R388. -/
  | createLaunchContext (seq ctx : Nat) (ptroot saveaddr taskspill : DWord)
  /-- DESTROY_LAUNCH_CONTEXT, R388. -/
  | destroyLaunchContext (seq ctx : Nat)
  /-- WRITE_PHYSICAL_MEMORY, R386. -/
  | writePhysicalMemory (seq die tier offset : Nat) (data : List Byte)
  /-- READ_PHYSICAL_MEMORY, R386. -/
  | readPhysicalMemory (seq die tier offset length : Nat)
  /-- SET_FABRIC_IDENTITY, R26. -/
  | setFabricIdentity (seq number : Nat) (source : Option Nat)
  /-- OPEN_JOB_SLOT, R180. -/
  | openJobSlot (seq job : Nat)
  /-- CLOSE_JOB_SLOT, R180. -/
  | closeJobSlot (seq job : Nat)
  /-- LOAD_ROUTE_TABLE, R181. -/
  | loadRouteTable (seq job : Nat) (entries : List RouteEntry)
  /-- SET_WAVE_TREE, R182. -/
  | setWaveTree (seq job : Nat) (root : Bool) (parent : Nat) (children : BitVec 96)
  /-- UNKNOWN_COMMAND, R386. -/
  | unknownCommand (seq command : Nat)
  /-- DIE_RESET, R474. -/
  | dieReset (die : Nat)
  /-- DIE_READMISSION, R474. -/
  | dieReadmission (die : Nat)
  /-- TIER_REOPEN, R477. -/
  | tierReopen (die : Nat)
  /-- MODULE_RESET, R399. -/
  | moduleReset
  /-- SCRUB, R478. -/
  | scrub (pa : Nat) (corrected uncorrectable : Bool)
  /-- HOURLY_ERROR_LOG, R479. -/
  | hourlyErrorLog (met : List (Nat × Nat × Nat))
  /-- AGEING_UPDATE, R395. -/
  | ageingUpdate
  /-- CLOCK_THROTTLE, R29. -/
  | clockThrottle (mhz : Nat)
  /-- RESERVED_ENCODING, R415. -/
  | reservedEncoding (w : Word)
  /-- INSTRUCTION_LINE_FILL, R264. -/
  | instructionLineFill (core ctx : Nat) (va : DWord) (sup : Bool)
  /-- CONSTANT_CACHE_FILL, R269. -/
  | constantCacheFill (core launch bank word : Nat)
  /-- CHILD_PORT_SUM, R182. -/
  | childPortSum (job : BitVec 16) (number pass port : Nat) (q : Sums)
  /-- FABRIC_FLIT, R453. -/
  | fabricFlit (port : Nat)
  /-- SET_BREAKPOINT, R374. -/
  | setBreakpoint (launch number : Nat) (offset : Option Nat) (dump : DWord)
  deriving DecidableEq, Repr

end Sys2Proof
end

