-- ==== Sys2Proof/Machine/State.lean ====
section
/-!
DEFINITION. The state of the machine as plain data, part by part as the spec gives it to threads, crews, teams, launches,
launch contexts, cores, clusters, dies and the module; the state after reset; the reasons a step can stop. A table is a list
of keys and values. A memory is a list of cells in canonical form (rising addresses, no zero byte); an unlisted address
reads as zero (R101, R399).
-/
namespace Sys2Proof.Machine

/-- A finite table. -/
abbrev Tbl (κ β : Type) := List (κ × β)
/-- A sparse memory: cells at strictly rising addresses, none of them zero. -/
abbrev Mem := List Host.Cell

/-! ## Threads (R30, R31) -/

/-- A variable-latency result a thread has outstanding (R51): the registers it will write, the values once they are known,
and the serial number by which its producer finds it. A register that a later instruction wrote is no longer named; a result with no
register only holds back a switch marker. -/
structure Out where
  id : Nat
  regs : List (Option Reg6)
  vals : Option (List Word)
  deriving DecidableEq, Repr, Inhabited

/-- An entry of an escape log before it is registered (R212). -/
structure Escape where
  inst : Word
  value : Word
  addr : DWord
  pc : Word
  lane : Nat
  kind : Nat
  cand : Nat
  time : Nat
  deriving DecidableEq, Repr, Inhabited

/-- The wait a thread is in (R46) after the instruction that began it has issued. A thread at a transaction-barrier or tag wait
whose condition does not hold has not issued it (R436): it waits by where it stands, as in a rendezvous, and is in none of
these. -/
inductive Wait where
  | none
  /-- `WAITM` on a mask register (R53). -/
  | mask (n : Nat)
  /-- `WAITMT`: mask register, status register, deadline in nanoseconds or count of coroutine steps (R56). -/
  | maskTimed (n : Nat) (d : Reg6) (deadline : Nat)
  /-- `BAR`: barrier number and destination predicate (R321). -/
  | bar (n : Nat) (p : Pred3)
  /-- `BATON.WAIT` (R342). -/
  | baton
  /-- The region barrier of `SOLVE` or `SOLEND`, with the register that names the control block, the instruction's
  address, the first word of its hint chain, and the escape-log entry that the step appends (R169, R211). -/
  | region (isEnd : Bool) (k : Reg6) (pc start : DWord) (log : Option Escape)
  /-- `WAITQ`: status register; the wave number and lost count recorded when it armed (R196, R458). -/
  | quiet (d : Reg6) (armed : Option (Nat × DWord))
  /-- Halted by a fault in supervisor privilege or a failing entry (R405). -/
  | halted
  deriving DecidableEq, Repr, Inhabited

/-- The cause of a trap with what its record holds (R401, R406). -/
structure Cause where
  cls : Nat
  code : Nat
  num : Nat := 0
  detail : Nat := 0
  addr : DWord := 0
  deferred : Bool := false
  /-- PC of the answerable instruction, and of the originating one with its time. -/
  pc : DWord := 0
  originPc : DWord := 0
  originTime : Nat := 0
  detected : Nat := 0
  lanes : DWord := 0
  /-- Core-wide crew number for the record; none names the faulting thread's own crew; 255 names no crew. -/
  crew : Option Nat := Option.none
  revived : Bool := false
  /-- A fault of the matrix array (R445). -/
  array : Bool := false
  /-- The record has the task bit whatever the team is (R423). -/
  task : Bool := false
  /-- The resume address when it is not the faulting instruction (R407). -/
  resume : Option DWord := Option.none
  /-- Bytes of the page on which a translation fault lies (R428). -/
  page : Nat := 4096
  deriving DecidableEq, Repr, Inhabited

/-- A loop of a thread (R61): its backward branch, the empty iterations in succession, and whether the current iteration did
something. -/
structure SpinLoop where
  branch : DWord
  empty : Nat
  active : Bool
  deriving DecidableEq, Repr, Inhabited

/-- The spin detector's view of a thread (R61, R62): its loops, whether the thread is demoted, and the backward branch it took
last. -/
structure Spin where
  loops : List SpinLoop
  demoted : Bool
  home : Option DWord
  deriving DecidableEq, Repr, Inhabited

def Spin.none : Spin := ⟨[], false, .none⟩
/-- The most empty iterations in succession of a loop. -/
def Spin.empty (x : Spin) : Nat := x.loops.foldl (fun n l => max n l.empty) 0

structure Thread where
  pc : DWord
  g : Vector Word 64
  /-- `p0` to `p7`; bit 0 is `p0`, which reads true and ignores writes. -/
  p : BitVec 8
  sup : Bool
  epc : DWord
  estat : Word
  ecause : Word
  /-- Payloads of a hint chain under way and the address of its first word (R257). -/
  xlit : Option (BitVec 25)
  xmod : Option HM
  chain : DWord
  sched : Option (BitVec 2)
  out : List Out
  wait : Wait
  exited : Bool
  lastIssue : Nat
  /-- The cycle from which the thread may issue (R46), and the ready time by which key 4 of R237 ranks it (R302). -/
  readyAt : Nat
  rankAt : Nat
  /-- The cycle after the last return of a result, before which a switch marker still holds the thread (R52). -/
  backAt : Nat
  /-- The first word and the length of the window whose issue slots are not over (R213). -/
  window : Option (DWord × Nat)
  spin : Spin
  taintG : BitVec 64
  taintP : BitVec 8
  taintC : Bool
  /-- Candidate id and novel live-in word of the last log-policy execution (R212). -/
  instCand : Nat
  instWord : Word
  lane : Mem
  fpAtoms : Nat
  /-- A trap waiting for room in the fault ring, or carried by an image (R405, R441); a shared record's address (R428). -/
  trap : Option Cause
  /-- Resumed at a breakpoint: its next issue passes it (R374). -/
  pass : Bool
  /-- A load that met an uncorrectable error traps at the next issue (R443). -/
  late : Option Cause
  deriving DecidableEq, Repr, Inhabited

/-! ## Crews (R33 to R35) -/

structure MaskReg where
  m : DWord
  a : DWord
  phase : Bool
  deriving DecidableEq, Repr, Inhabited

/-- The service of page faults in a crew of a deterministic launch: the lanes that have still to issue the instruction at `pc`
again, and whether `retired` counts that instruction already (R69). -/
structure Service where
  lanes : DWord
  pc : DWord
  counted : Bool
  deriving DecidableEq, Repr, Inhabited

structure Crew where
  slot : Nat
  threads : Vector Thread 64
  k : Vector Word 64
  taintK : BitVec 64
  mask : Vector MaskReg 12
  /-- The mask registers as they were at the start of a cycle in which one has changed (R320). -/
  maskWas : Option (Nat × Vector MaskReg 12)
  retired : DWord
  /-- Instructions in succession without an effect of R61, for the deterministic yield (R65). -/
  quietCount : Nat
  /-- Of results with no value yet, what the count was since their instructions: these are effects if the value changes a
  register. -/
  quietMarks : List (Nat × Nat)
  /-- Reached a switch point of R64 at which control has not yet passed. -/
  switchPoint : Bool
  /-- The message a handler crew is handling; none for a free handler crew or a crew of the team (R188). -/
  handling : Option Msg
  /-- Sending interface of the message handled, for its consumption count. -/
  handlingIface : Nat
  /-- Sends of the crew not yet counted in I (R188, R196). -/
  unsent : Nat
  /-- A `FENCE.REL` whose write-back has not completed: its PC and lanes (R133). -/
  fence : Option (DWord × DWord)
  service : Option Service
  deriving DecidableEq, Repr, Inhabited

/-! ## Copies (R116 to R122, R326 to R330) -/

/-- A place a byte can stand in: physical memory, a team's scratchpad, a launch's allocation in a cluster or on a die. -/
inductive Place where
  | phys
  | scratch (team : Nat)
  | cluster (launch cluster : Nat)
  | chip (launch die : Nat)
  /-- The cluster-shared memory of a team's launch as its uncommitted task shows it through its buffer (R44). -/
  | task (team : Nat)
  deriving DecidableEq, Repr, Inhabited

/-- A tensor layout record (R113). -/
structure Layout where
  scaleBase : DWord
  scaleStride : Nat
  fill : Word
  pitch : Nat
  fillMode : Nat
  rank : Nat
  space : Nat
  format : Nat
  dims : List (Nat × Nat × Nat)
  base : DWord
  reservedZero : Bool
  deriving DecidableEq, Repr, Inhabited

inductive CopyKind where
  | cpy | cpyg | cpys
  deriving DecidableEq, Repr, Inhabited

structure Copy where
  id : Nat
  kind : CopyKind
  team : Nat
  issuer : TRef
  sup : Bool
  pc : DWord
  time : Nat
  /-- Cycle of the issue and issuing core, which rank copies (R122, R432). -/
  cycle : Nat
  core : Nat
  layout : Layout
  origin : List Int
  /-- true: from the dense side to the tensor. -/
  toTensor : Bool
  /-- Level of the dense side (R327) and offset in it. -/
  dense : Nat
  denseOff : Nat
  /-- Teams whose scratchpads receive the dense bytes, for a multicast. -/
  targets : List Nat
  multicast : Bool
  /-- The index list of a gather or scatter (R118). -/
  indices : List Nat
  /-- Completion: a tag of the team, or the transaction barrier at an offset. -/
  tag : Option Nat
  barrier : Nat
  span : Nat
  chunk : Nat
  /-- What the copy has still to write: for each unit (R135: a word of physical memory, a 64-byte sector of a level) the
  last chunk that writes to it, its place and its number. -/
  marks : List (Nat × Place × Nat)
  deriving DecidableEq, Repr, Inhabited

/-- The copy engine of a cluster: four class queues, their deficits, the class the round is at, and whether that class has
had its quantum (R122). -/
structure Cluster where
  queues : List (List Copy)
  deficit : List Nat
  visit : Nat
  entered : Bool
  deriving DecidableEq, Repr, Inhabited

/-! ## The matrix array (R143 to R162) -/

structure Plane where
  /-- Element codes, column n at [128 n, 128 n + 127]; unlisted elements are +0. -/
  w : List (Nat × Nat)
  format : Nat
  modeB : Bool
  exps : List (Nat × Nat)
  tensor : Nat
  base : Word
  deriving DecidableEq, Repr, Inhabited

inductive MatOp where
  | tcfg (block : DWord)
  | wld (off : Nat) (ctl base : Word)
  | wswap
  | mms (tile off : Nat) (ctl base : Word)
  | ast (tile off fmt : Nat) (mode : BitVec 2) (sat : Bool)
  | ald (tile off : Nat)
  | azero (tile : Nat)
  | scld (t : Nat) (count : Word) (addr : DWord)
  deriving DecidableEq, Repr, Inhabited

/-- A line of block exponents a pass has read: tensor identifier, line number, bytes (R150). -/
structure ScaleHeld where
  tensor : Nat
  line : Nat
  bytes : List Byte
  deriving DecidableEq, Repr, Inhabited

structure MatInstr where
  id : Nat
  op : MatOp
  crew : Nat
  /-- Lowest lane whose guard was true. -/
  lane : Nat
  sup : Bool
  pc : DWord
  time : Nat
  cycle : Nat
  /-- The configuration under which it executes (R448). -/
  cfg : DWord
  started : Bool
  /-- Waits for a line of the scale cache. -/
  stalled : Bool
  /-- Passes that have overtaken this one (R151). -/
  overtaken : Nat
  /-- Weights a started pass works on (R338), and the exponent lines it has read. -/
  plane : Plane
  lines : List ScaleHeld
  deriving DecidableEq, Repr, Inhabited

structure Matrix where
  config : DWord
  /-- Configuration of the last issued `TCFG` (R448). -/
  issued : DWord
  tiles : List (List (Nat × Word))
  act : Plane
  shd : Plane
  bindings : List (DWord × Word)
  queue : List MatInstr
  discard : Bool
  deriving DecidableEq, Repr, Inhabited

/-! ## Solve regions (R163 to R177) -/

structure Solve where
  active : Bool
  startPc : DWord
  endPc : DWord
  block : Nat
  thresh : DWord
  lambda : DWord
  beta : DWord
  ceil : Nat
  depth : Nat
  history : Nat
  tiles : List Word
  k : Nat
  /-- Phase count of the region barrier (R169). -/
  phase : BitVec 16
  deriving DecidableEq, Repr, Inhabited

/-! ## Teams, tasks and launches -/

/-- A buffered store: the bytes of its entry that it wrote last, its privilege, the address of its sector, the size of the page,
and whether a `TLBINV` has marked it (R437, R480). -/
structure BufStore where
  offs : List Nat
  va : DWord
  sup : Bool
  marked : Bool
  page : Nat
  deriving DecidableEq, Repr, Inhabited

/-- An entry of a task write buffer: place and sector, bytes, and the stores they come from (R231, R437, R480). -/
structure BufEntry where
  place : Place
  sector : Nat
  data : List (Nat × Byte)
  stores : List BufStore
  deriving DecidableEq, Repr, Inhabited

/-- Where a later fault comes from: what its record names of a team that may have retired (R406, R423). -/
structure Origin where
  ctx : Nat
  core : Nat
  index : Nat
  slot : Nat
  lane : Nat
  sup : Bool
  task : Bool
  early : Bool
  deriving DecidableEq, Repr, Inhabited

/-- A queued task: record address, class, time of the append, spawning team (R228, R229). -/
structure QTask where
  record : DWord
  cls : Nat
  time : Nat
  ctx : Nat
  launch : Nat
  spawner : Nat
  origin : Origin
  /-- The `TSPAWN` or `TDONE` that appended it. -/
  pc : DWord
  deriving DecidableEq, Repr, Inhabited

/-- A task's record and what it holds until it commits (R42 to R45). -/
structure Task where
  record : DWord
  entry : DWord
  arg : DWord
  tile : Word × Word × Word
  flags : Word
  successor : DWord
  /-- Its queue entry, which an abort puts back (R411). -/
  queued : QTask
  buffer : List BufEntry
  capacity : Nat
  committed : Bool
  early : Bool
  progress : List DWord
  escapes : List Escape
  /-- Stage of retirement: 0 commit, 1 successor decrement, 2 append of the successor, 3 done (R437 to R439). -/
  stage : Nat
  deriving DecidableEq, Repr, Inhabited

/-- A message an interface holds for a team: the interface through which it arrived, and its envelope. -/
structure InMsg where
  msg : Msg
  iface : Nat
  env : Envelope
  deriving DecidableEq, Repr, Inhabited

structure Team where
  launch : Nat
  index : Nat
  x : Word
  y : Word
  z : Word
  stage : Nat
  rank : Nat
  core : Nat
  crews : Nat
  handlers : Nat
  task : Option Task
  scratch : Mem
  scratchSize : Nat
  laneSize : Nat
  barPhase : Vector (BitVec 16) 16
  /-- Arrivals at each barrier in order, last last (R60). -/
  barOrder : List (Nat × Nat)
  tagCount : Nat
  tags : DWord
  baton : Nat
  array : Option Matrix
  solve : Solve
  deferred : List Cause
  incoming : List InMsg
  ring : List InMsg
  usedIds : List Nat
  usedAll : Bool
  /-- Stopped; a stop request with its dump address and whether it asks for the Memory part; the breakpoint that threads
  reached (R374 to R376). -/
  stopped : Bool
  stopWanted : Option (Option DWord × Bool)
  breakHit : Option Nat
  /-- Named for pre-emption, and the cycle of the request; it came after a stop and waits for the resume (R377); named for an
  abort (R411). -/
  preempt : Bool
  preemptAt : Nat
  preemptLate : Bool
  abort : Bool
  /-- Thread whose `EXIT` or `TDONE` issued last, with its cycle and PC (R410). -/
  lastEnd : Option (Nat × TRef × DWord)
  escapeFault : Bool
  deriving DecidableEq, Repr, Inhabited

/-- A buffered FP atomic with its place in the key order of R98. -/
structure BufAtom where
  team : Nat
  crew : Nat
  lane : Nat
  number : Nat
  addr : DWord
  op : Nat
  operand : DWord
  deriving DecidableEq, Repr, Inhabited

/-- A host fetch from its start to its end (R242, R435): what is written so far, whether the host has been asked, when it was
asked or last answered, and the thread that started it. -/
structure Fetch where
  id : Nat
  src : DWord
  dst : DWord
  length : Nat
  written : Nat
  requested : Bool
  since : Nat
  failed : Bool
  team : Nat
  origin : Origin
  pc : DWord
  time : Nat
  cycle : Nat
  core : Nat
  /-- Words of memory it has still to write (R135). -/
  marks : List Nat
  deriving DecidableEq, Repr, Inhabited

structure Launch where
  ctx : Nat
  tag : DWord
  entry : DWord
  code : DWord
  c0 : DWord
  counter : DWord
  aux : DWord
  ringAddr : DWord
  ringCap : Nat
  auxCap : Nat
  rankBase : Nat
  job : BitVec 16
  x : Nat
  y : Nat
  z : Nat
  stages : Nat
  crews : Nat
  handlers : Nat
  tags : Nat
  scratch : Nat
  lanePriv : Nat
  shared : Nat
  chip : Nat
  cls : Nat
  notify : Bool
  det : Bool
  array : Bool
  coop : Bool
  cores : BitVec 256
  policy : Word
  accepted : Nat
  order : Nat
  next : Nat
  retired : Nat
  /-- Team indices taken by pre-emption and waiting for readmission (R236). -/
  out : List Nat
  /-- Breakpoints by number: code offset, and the dump address of the request that set it (R374). -/
  breakpoints : Tbl Nat (Nat × DWord)
  /-- Messages for teams not yet admitted, by team index (R189). -/
  early : Tbl Nat (List InMsg)
  /-- The atomic buffer of a deterministic launch, and whether another agent has accessed its region (R141). -/
  atoms : List BufAtom
  atomsRaced : Bool
  /-- Entries appended to and dropped from the escape log; whether the novel policy acts as dual run (R212, R464). -/
  escapeCount : Nat
  dropCount : Nat
  dropped : Bool
  fromHost : Bool
  done : Bool
  deriving DecidableEq, Repr, Inhabited

/-- An allocation of a launch in a cluster or on a die: base and contents (R100, R101). -/
structure Alloc where
  base : Nat
  size : Nat
  mem : Mem
  deriving DecidableEq, Repr, Inhabited

/-- The per-context control registers (R360, R242, R243). -/
structure Ctx where
  ptroot : DWord
  taskspill : DWord
  saveaddr : DWord
  preemptl : DWord
  fqperiod : DWord
  prog : Vector DWord 8
  hfsrc : DWord
  hfdst : DWord
  hflen : Word
  hfdone : DWord
  pubtab : DWord
  pubcnt : Word
  /-- Fetches started and not ended, in start order. -/
  fetches : List Fetch
  withdrawn : List Nat
  deriving DecidableEq, Repr, Inhabited

/-- A saved image (R233): what the slot holds, logically. -/
structure Image where
  id : Nat
  ctx : Nat
  slot : Nat
  team : Nat
  data : Team
  crews : Tbl CRef Crew
  copies : List Copy
  /-- The team's crew that was running on its core under deterministic mode (R468). -/
  running : Option CRef
  cluster : Option Alloc
  deriving DecidableEq, Repr, Inhabited

/-! ## Caches -/

structure L1Word where
  core : Nat
  pa : Nat
  val : Word
  valid : BitVec 4
  dirty : BitVec 4
  owned : Bool
  /-- Brought in under the policy that evicts it first (R109). -/
  soon : Bool
  /-- Crews whose stores into the word are not yet registered, and the last writer (R133). -/
  writers : List CRef
  crew : CRef
  lane : Nat
  sup : Bool
  marked : Bool
  va : DWord
  ctx : Nat
  pc : DWord
  time : Nat
  /-- Size of the page through which the word was filled or stored (R430). -/
  page : Nat
  deriving DecidableEq, Repr, Inhabited

/-- A line of an L1 instruction cache with the translation it was filled through: whether it admits user accesses, and the
page (R112, R264, R362). -/
structure ILine where
  core : Nat
  ctx : Nat
  va : DWord
  user : Bool
  page : Nat
  size : Nat
  words : List Word
  deriving DecidableEq, Repr, Inhabited

/-- The TLBs of R107: of a core, of a cluster, of a die. -/
inductive TlbAt where
  | core (n : Nat)
  | cluster (n : Nat)
  | die (n : Nat)
  deriving DecidableEq, Repr, Inhabited

structure TlbEntry where
  at_ : TlbAt
  ctx : Nat
  va : DWord
  size : Nat
  pa : Nat
  user : Bool
  writable : Bool
  exec : Bool
  level : Nat
  deriving DecidableEq, Repr, Inhabited

/-- A line of a die's L2 (R110): its number (address / 512), the sectors present, and those to be written back. -/
structure L2Line where
  line : Nat
  present : BitVec 8
  dirty : BitVec 8
  deriving DecidableEq, Repr, Inhabited

/-- A part of on-core storage or of an L2 whose data cannot be corrected (R443): a general, predicate, `k` or mask register, a
64-byte sector of a lane-private slice or of an explicit level, an accumulator tile, a sector that the L2 holds
(address / 64), the copy of a message that an interface retains, a message in a team's queue (R455). -/
inductive Flaw where
  | reg (r : TRef) (d : Reg6)
  | pred (r : TRef) (p : Pred3)
  | k (c : CRef) (d : Reg6)
  | mask (c : CRef) (n : Nat)
  | l2 (sector : Nat)
  | lane (r : TRef) (sector : Nat)
  | place (p : Place) (sector : Nat)
  | tile (team tile : Nat)
  | sent (id : Nat)
  | queued (modNum : BitVec 16) (iface : Nat) (seq : Word)
  deriving DecidableEq, Repr, Inhabited

/-- A constant-bank word held for a launch on a core (R269). -/
structure ConstWord where
  core : Nat
  launch : Nat
  bank : Nat
  word : Nat
  val : Word
  deriving DecidableEq, Repr, Inhabited

/-- A line of a scale cache (R150). -/
structure ScaleLine where
  core : Nat
  tensor : Nat
  line : Nat
  bytes : List Byte
  use : Nat
  deriving DecidableEq, Repr, Inhabited

/-- An entry of the contention predictor (R123). -/
structure PredEntry where
  slice : Nat
  line : Nat
  counter : Nat
  core : Nat
  use : Nat
  deriving DecidableEq, Repr, Inhabited

/-! ## Weevil (R198 to R215) -/

/-- An entry of a substitution store. -/
structure SubEntry where
  cand : Nat
  ctx : Nat
  code : DWord
  policy : Word
  window : DWord
  orig : List Word
  words : List Word
  promoted : Bool
  exact : Bool
  count : Nat
  equal : Nat
  seen : List (BitVec 13)
  use : Nat
  deriving DecidableEq, Repr, Inhabited

/-- The operands of a window execution: general words by register, `k` words, bank words and predicates that the window
reads, with the former values of the registers and predicates it writes. -/
structure LiveIns where
  g : List (Nat × Word)
  k : List (Nat × Word)
  c : List (Nat × Nat × Word)
  p : List (Nat × Bool)
  deriving DecidableEq, Repr, Inhabited

/-- A pending comparison of a dual run: the entry as it was executed, its operands, and what the original left. -/
structure Pending where
  entry : SubEntry
  /-- The team that executed the window. -/
  team : Nat
  live : LiveIns
  results : List (Nat × Word)
  preds : List (Nat × Bool)
  deriving DecidableEq, Repr, Inhabited

/-- A window under study, with the policy word its candidate is for. -/
structure Study where
  ctx : Nat
  code : DWord
  policy : Word
  window : DWord
  words : List Word
  deriving DecidableEq, Repr, Inhabited

/-- Weevil on a core: the store by entry number; the PC-hash counts by launch and PC, and the cycle at which they were last
read; the window under study, the executions that entered it, its samples, oldest first, and the idle slots its search has had;
pending comparisons; windows marked barren, by context and address (R199 to R208). -/
structure Weevil where
  store : List (Nat × SubEntry)
  counts : List ((Nat × DWord) × Nat)
  lastRead : Nat
  study : Option Study
  entered : Nat
  samples : List LiveIns
  idle : Nat
  pending : List Pending
  barren : List (Nat × DWord)
  deriving DecidableEq, Repr, Inhabited

/-- A withdrawal under way: candidate, code object, window, and the time of the mismatch (R459). -/
structure Withdrawal where
  cand : Nat
  ctx : Nat
  code : DWord
  window : DWord
  time : Nat
  deriving DecidableEq, Repr, Inhabited

/-! ## Cores and dies -/

structure Core where
  halted : Bool
  /-- A `HALT` has issued and the instructions issued before it have not all completed (R364). -/
  halting : Bool
  /-- The running crew of deterministic mode and its coroutine steps (R56, R64). -/
  running : Option CRef
  /-- Team index and crew index of the crew that ran last, from which the order goes on when its team has retired (R468). -/
  turn : Nat × Nat
  steps : Nat
  tasks : List QTask
  spilled : List QTask
  weevil : Weevil
  /-- Trace records in flight (R382). -/
  tracePending : Nat
  /-- The cycle in which the core last used a port, and the pipes it used in it (R22). -/
  portCycle : Nat
  pipes : List Nat
  /-- Teams whose steps the mixing engine has still to serve, in the order in which they became ready (R177). -/
  mixing : List Nat
  deriving DecidableEq, Repr, Inhabited

/-- A scan under way: what it scans, where its result goes, its rank among engines, and the words it has to write (R135, R392). -/
structure EyeScan where
  sel : Word
  addr : DWord
  ctx : Nat
  id : Nat
  cycle : Nat
  core : Nat
  marks : List Nat
  deriving DecidableEq, Repr, Inhabited

structure Die where
  clockBase : Nat
  bistres : DWord
  bistfail : DWord
  rails : Vector (BitVec 8) 7
  eyesel : Word
  eyeaddr : DWord
  scan : Option EyeScan
  age : DWord
  /-- When the ageing prediction was last recomputed (R395). -/
  ageAt : Nat
  /-- Self-tests in the order in which they reached the controller: thread, result, test word (R390). -/
  bists : List (TRef × Nat × Word)
  /-- Warm reset in progress (R474); a cause that waits for another die's reset to end (R473); cores admit only launches accepted
  at or after this order number; tiers closed. -/
  inReset : Bool
  resetDue : Bool
  admitFrom : Nat
  closed : Bool
  /-- Corrected errors not yet logged, by place (R443, R479). -/
  corrected : List Nat
  deriving DecidableEq, Repr, Inhabited

/-! ## Fabric (R178 to R197, R453 to R458) -/

structure Counters where
  i : DWord
  c : DWord
  l : DWord
  deriving DecidableEq, Repr, Inhabited

/-- A wave in progress at the root, or a pass in progress at this module (R182, R192): the interfaces that have taken
their snapshot, the child ports still to answer, the sums so far; at the root those of pass 1 and the verdict still to be
sent. A broken wave can only end incomplete (R476). -/
structure Wave where
  number : Nat
  pass : Nat
  requested : Nat
  taken : BitVec 96
  children : List Nat
  acc : Sums
  first : Option Sums
  broken : Bool
  finished : Bool
  result : Option (Nat × Sums)
  deriving DecidableEq, Repr, Inhabited

structure Job where
  number : BitVec 16
  counters : Vector Counters 96
  routes : List RouteEntry
  treeSet : Bool
  root : Bool
  parent : Nat
  childPorts : BitVec 96
  period : Word
  wave : Option Wave
  lastWave : Nat
  lastStart : Nat
  lastPass1 : Nat
  /-- Number, kind and sums of the last verdict the module received, and the dies it has reached: kind 0 quiet, 1 neither, 2
  incomplete, 3 both passes equal with more consumed and lost than injected (R193, R457, R458). -/
  lastVerdict : Nat
  lastKind : Nat
  lastSums : Sums
  reached : BitVec 4
  repaired : Bool
  deriving DecidableEq, Repr, Inhabited

/-- A message handed to an interface and not settled: retained until acknowledged (R453). -/
structure Sent where
  id : Nat
  msg : Msg
  iface : Nat
  destMod : BitVec 16
  team : Nat
  sender : Option TRef
  out : Option Nat
  pc : DWord
  origin : Origin
  /-- The interface that counts the get or atomic answered as consumed when this reply is counted in I (R190). -/
  consumes : Option Nat
  injected : Bool
  sequence : Word
  attempts : Nat
  lastAttempt : Nat
  queries : Nat
  acked : Bool
  /-- Its loss has been reported. -/
  settled : Bool
  deriving DecidableEq, Repr, Inhabited

structure Fabric where
  jobs : List Job
  sent : List Sent
  /-- Next sequence number of each interface. -/
  seqs : Vector Word 96
  /-- Messages accepted, and messages recorded lost with the code: module, interface, sequence (R454, R455). -/
  accepted : List (BitVec 16 × Nat × Word)
  lost : List ((BitVec 16 × Nat × Word) × Nat)
  /-- Remote accesses of this module's messages that failed here: class, code and detail for the failure notice (R481). -/
  failed : List ((BitVec 16 × Nat × Word) × Nat × Nat × Nat)
  /-- Flits, acknowledgements, requests, sums and verdicts that left the module, in order: kind, job, and values. -/
  egress : List (Nat × List DWord)
  deriving DecidableEq, Repr, Inhabited

/-! ## Debug, management and the host link -/

structure Trace where
  launch : Nat
  team : Option Nat
  base : DWord
  size : Nat
  /-- Bytes and records written and dropped by each core. -/
  written : Tbl Nat Nat
  records : Tbl Nat Nat
  dropped : Tbl Nat Nat
  /-- Records dropped by each core since its last record of type 0x0008. -/
  lost : Tbl Nat Nat
  deriving DecidableEq, Repr, Inhabited

structure Trial where
  launch : Nat
  lo : Nat
  hi : Nat
  delay : Nat
  start : Nat
  duration : Nat
  result : DWord
  prog : List DWord
  inside : Nat
  outside : Nat
  deriving DecidableEq, Repr, Inhabited

structure Sampling where
  launch : Nat
  shift : Nat
  lo : Nat
  g : Nat
  result : DWord
  /-- Counters of each die: die, bucket, reason, count. -/
  counts : List ((Nat × Nat × Nat) × Nat)
  lastTick : Tbl Nat Nat
  /-- Place of each core in its rotation. -/
  places : Tbl Nat Nat
  deriving DecidableEq, Repr, Inhabited

/-- A publication under way (R244): context, window, issuing thread and its outstanding result, privilege, when and where it
was issued; once its data has gone to the host, when, to what address, where its counter stands there, and the next version. -/
structure Publication where
  ctx : Nat
  window : Nat
  thread : TRef
  origin : Origin
  out : Nat
  sup : Bool
  pc : DWord
  time : Nat
  cycle : Nat
  sent : Option (Nat × DWord × DWord × Nat)
  deriving DecidableEq, Repr, Inhabited

/-- What the device sends over the Cerset link (R240). -/
inductive HostMsg where
  | launchStatus (tag : DWord) (status : Nat)
  | completion (tag : DWord)
  | write (addr : DWord) (bytes : List Byte)
  | readRequest (addr : DWord) (length : Nat)
  | reply (command sequence status : Nat) (data : List Byte)
  | notice (code : Nat) (data : List DWord)
  deriving DecidableEq, Repr, Inhabited

structure Module where
  /-- A command has given the module its number (R26). -/
  identified : Bool
  number : BitVec 16
  timeSource : Option Nat
  locked : Bool
  lifecycle : Nat
  firmware : List Byte
  /-- `cr.age` of each die when the capability table was last copied (R400). -/
  tableAges : List DWord
  /-- The capability table has been copied, and a refused errata record has still to be reported (R247). -/
  errataDue : Bool
  nextFirmware : Option (List Byte)
  /-- Arithmetic clock in MHz (R29) and the part of a nanosecond already elapsed. -/
  clock : Nat
  frac : Nat
  /-- Nanoseconds by which the timestamp is ahead of the module's time source, and for which it stands still (R26). -/
  ahead : Nat
  deriving DecidableEq, Repr, Inhabited

/-! ## The whole machine -/

/-- The threads of one issue group still to be served, those already served with a PC of their own, and the traps raised
(R46, R407). -/
structure Group where
  core : Nat
  pc : DWord
  lanes : List (CRef × BitVec 64)
  done : List (CRef × BitVec 64)
  traps : List (TRef × Cause)
  /-- The group executes a code of a dictionary run: its expanded word, once known (R261). -/
  code : Option (Option Word)
  /-- The instruction had an effect of R61 that no register shows. -/
  effect : Bool
  deriving DecidableEq, Repr, Inhabited

def Group.none : Group := ⟨0, 0, [], [], [], .none, false⟩

/-- What happens next, where the spec leaves it to timing or to the outside: an event, the issue of a core, the passing of
cycles, or an uncorrectable error that comes about in on-core storage (assumption 1). -/
inductive Sched where
  | event (i : Instr)
  | issue (core : Nat)
  | tick (cycles : Nat)
  | upset (f : Flaw)
  /-- A management request as bytes on the link (R387); the die of a scan, and whether a dump is to have its Memory part, which its
  fields do not say (assumption 72). -/
  | request (die : Nat) (memory : Bool) (bytes : List Byte)
  deriving DecidableEq, Repr

/-- An arrival of `TBARRIVE` in the current cycle: the lane, its result, the barrier, the core that ranks it, and where the
thread traps if the arrival is refused (R323). -/
structure Arrival where
  thread : TRef
  out : Nat
  place : Place
  off : Nat
  core : Nat
  /-- Lanes of the crew in its group. -/
  lanes : DWord
  pc : DWord
  resume : DWord
  /-- The escape-log entry of a tainted arrival (R211). -/
  log : Option Escape
  deriving DecidableEq, Repr, Inhabited

/-- What the end of the current cycle has to test: mask registers and team barriers by number, transaction barriers, and the
arrivals at them, and the rails written in it (R54, R60, R121, R323, R391). -/
structure Due where
  masks : List (CRef × Nat)
  bars : List (Nat × Nat)
  tbars : List (Place × Nat)
  arrivals : List Arrival
  /-- Writes of rail registers: die, rail, the writing core or 256 for the management, step (R391). -/
  rails : List (Nat × Nat × Nat × BitVec 8)
  deriving DecidableEq, Repr, Inhabited

def Due.none : Due := ⟨[], [], [], [], []⟩

structure State where
  crews : Tbl CRef Crew
  teams : Tbl Nat Team
  launches : Tbl Nat Launch
  ctxs : Tbl Nat Ctx
  cores : Tbl Nat Core
  clusters : Tbl Nat Cluster
  dies : Tbl Nat Die
  mem : Mem
  /-- Sectors of memory (address / 64) whose data cannot be corrected (R443). -/
  poison : List Nat
  flaws : List Flaw
  /-- Module resets so far, which names the capability table as last copied (R246). -/
  resets : Nat
  clu : Tbl (Nat × Nat) Alloc
  chip : Tbl (Nat × Nat) Alloc
  l1 : List L1Word
  l2 : List L2Line
  icache : List ILine
  tlb : List TlbEntry
  consts : List ConstWord
  scales : List ScaleLine
  predictor : List PredEntry
  images : List Image
  /-- The memory controllers that scrub: die, tier and pair, with the passes a controller has made and the offset it reads next
  (R106, R478). -/
  scrubs : Tbl (Nat × Nat × Nat) (Nat × Nat)
  /-- Packets `LAUNCH` and the host sent and the coordinator has not taken: bytes, host sequence or the waiting thread. -/
  packets : List (List Byte × Option (TRef × Nat))
  fabric : Fabric
  /-- Deferred faults of retired teams that wait for room in the fault ring (R423). -/
  orphans : List (Origin × Cause)
  /-- Withdrawn candidates whose ids the coordinator has still to remove (R459). -/
  withdrawals : List Withdrawal
  publications : List Publication
  traces : List Trace
  trials : List Trial
  samplings : List Sampling
  host : List HostMsg
  modl : Module
  cycle : Nat
  time : Nat
  /-- Serial numbers given to launches, teams, results, copies and messages. -/
  serial : Nat
  due : Due
  cur : Group
  agenda : List Sched
  /-- Position in the sequence of free values (assumption 2). -/
  fresh : Nat
  deriving DecidableEq, Repr

/-! ## Values at reset and at creation -/

def Weevil.reset : Weevil := ⟨[], [], 0, .none, 0, [], 0, [], []⟩
def Core.reset : Core := ⟨false, false, .none, (0, 0), 0, [], [], Weevil.reset, 0, 0, [], []⟩
def Cluster.reset : Cluster := ⟨[[], [], [], []], [0, 0, 0, 0], 3, false⟩
def Die.reset : Die := ⟨0, 0, 0, Vector.replicate 7 0, 0, 0, .none, 0, 0, [], false, false, 0, false, [0, 0, 0, 0]⟩
def Ctx.reset : Ctx := ⟨0, 0, 0, 0, 0, Vector.replicate 8 0, 0, 0, 0, 0, 0, 0, [], []⟩
def Fabric.reset : Fabric := ⟨[], [], Vector.replicate 96 0, [], [], [], []⟩
def Module.reset : Module := ⟨false, 0, .none, false, 1, [], [0, 0, 0, 0], true, .none, Config.clockMHz, 0, 0⟩

/-- A thread as it starts (R31). The age of an issue that has not taken place is the model's: `lastIssue` is 0, so of threads at
one PC in one lane a thread that has not issued since its start comes first (R47, assumption 74). -/
def Thread.start (entry : DWord) (cycle : Nat) : Thread :=
  { pc := entry, g := Vector.replicate 64 0, p := 1, sup := false, epc := 0, estat := 0, ecause := 0, xlit := .none,
    xmod := .none, chain := 0, sched := .none, out := [], wait := .none, exited := false, lastIssue := 0, readyAt := cycle, rankAt := cycle,
    backAt := 0, window := .none, spin := Spin.none, taintG := 0, taintP := 0, taintC := false, instCand := 0, instWord := 0, lane := [], fpAtoms := 0,
    trap := .none, pass := false, late := .none }

def MaskReg.zero : MaskReg := ⟨0, 0, false⟩

/-- A crew as it starts (R33, R35). -/
def Crew.start (slot : Nat) (entry : DWord) (cycle : Nat) : Crew :=
  { slot := slot, threads := Vector.replicate 64 (Thread.start entry cycle), k := Vector.replicate 64 0, taintK := 0,
    mask := Vector.replicate 12 MaskReg.zero, maskWas := .none, retired := 0, quietCount := 0, quietMarks := [], switchPoint := false, handling := .none,
    handlingIface := 0, unsent := 0, fence := .none, service := .none }

/-- The planes and the array of a team as it starts (R153, R157, R341). -/
def Plane.start : Plane := ⟨[], 6, false, [], 0, 0⟩
def Matrix.start : Matrix :=
  ⟨0x007F7F7F, 0x007F7F7F, [[], [], [], []], Plane.start, Plane.start, List.replicate 64 (0, 0), [], false⟩
def Solve.start : Solve := ⟨false, 0, 0, 0, 0, 0, 0, 0, 0, 0, [], 0, 0⟩

/-- The machine right after a module reset: every memory, cache and store empty or zero (R399), no launch, context or job.
What the spec gives no value for is named in assumptions 4 to 6. -/
def State.reset : State :=
  { crews := [], teams := [], launches := [], ctxs := [], cores := [], clusters := [], dies := [], mem := [], poison := [], flaws := [],
    resets := 0, clu := [], chip := [], l1 := [], l2 := [], icache := [], tlb := [], consts := [], scales := [],
    predictor := [], images := [], scrubs := [], packets := [], fabric := Fabric.reset, orphans := [], withdrawals := [], publications := [], traces := [], trials := [],
    samplings := [], host := [], modl := Module.reset, cycle := 0, time := 0, serial := 1, due := Due.none, cur := Group.none,
    agenda := [], fresh := 0 }

/-- Reasons for which a step stops with a fault. -/
inductive Fault where
  /-- Raised by no meaning of this model: every fault of the spec is a trap, a status or a notice, and the machine goes
  on. Safe. -/
  | stopped
  deriving DecidableEq, Repr

/-- Reasons for which a step has no meaning. -/
inductive Refusal where
  /-- Raised by an arm of `exec` whose instruction has no meaning yet. Safe. -/
  | notModelled (mnemonic : String)
  deriving DecidableEq, Repr

end Sys2Proof.Machine
end

