-- ==== Sys2Proof/Machine/Mem.lean ====
section
/-!
DEFINITION. Tables and sparse memories: lookup, update, and reads and writes of several bytes, little-endian (R309).
-/
namespace Sys2Proof.Machine

/-! ## Tables -/

section
variable {κ β : Type} [DecidableEq κ]

/-- The value at a key. -/
def Tbl.at? : Tbl κ β → κ → Option β
  | [], _ => none
  | (k', v) :: t, k => if k' = k then some v else Tbl.at? t k

def Tbl.atD (t : Tbl κ β) (k : κ) (d : β) : β := (Tbl.at? t k).getD d

/-- Sets the value at a key: in place, or at the end for a new key. -/
def Tbl.put : Tbl κ β → κ → β → Tbl κ β
  | [], k, v => [(k, v)]
  | (k', v') :: t, k, v => if k' = k then (k, v) :: t else (k', v') :: Tbl.put t k v

def Tbl.del : Tbl κ β → κ → Tbl κ β
  | [], _ => []
  | (k', v) :: t, k => if k' = k then t else (k', v) :: Tbl.del t k

/-- Changes the value at a key, where there is one. -/
def Tbl.upd (t : Tbl κ β) (k : κ) (f : β → β) : Tbl κ β :=
  match Tbl.at? t k with
  | some v => Tbl.put t k (f v)
  | none => t

end

/-! ## Memories -/

/-- The byte at an address; an unlisted address reads as zero. -/
def Mem.read : Mem → Nat → Byte
  | [], _ => 0
  | (k, v) :: t, a => if k = a then v else Mem.read t a

/-- Writes a byte and keeps the canonical form: a zero byte is unlisted. -/
def Mem.write : Mem → Nat → Byte → Mem
  | [], a, b => if b = 0 then [] else [(a, b)]
  | (k, v) :: t, a, b =>
    if a < k then (if b = 0 then (k, v) :: t else (a, b) :: (k, v) :: t)
    else if a = k then (if b = 0 then t else (a, b) :: t)
    else (k, v) :: Mem.write t a b

/-- Addresses above a bound rise strictly and no cell is zero. -/
def Mem.wfFrom : Option Nat → Mem → Bool
  | _, [] => true
  | lo, (k, v) :: t => (match lo with | none => true | some l => l < k) && v != 0 && Mem.wfFrom (some k) t

/-- The canonical form of a memory. -/
def Mem.wf (m : Mem) : Bool := Mem.wfFrom none m

/-- `n` bytes from an address, lowest first. -/
def Mem.bytes (m : Mem) (a : Nat) : Nat → List Byte
  | 0 => []
  | n + 1 => Mem.read m a :: Mem.bytes m (a + 1) n

def Mem.writeBytes (m : Mem) (a : Nat) : List Byte → Mem
  | [] => m
  | b :: t => Mem.writeBytes (Mem.write m a b) (a + 1) t

/-- The value of bytes, lowest first. -/
def leNat : List Byte → Nat
  | [] => 0
  | b :: t => b.toNat + 256 * leNat t

/-- `n` bytes of a value, lowest first. -/
def leBytes : Nat → Nat → List Byte
  | 0, _ => []
  | n + 1, v => BitVec.ofNat 8 v :: leBytes n (v / 256)

def Mem.readN (m : Mem) (a n : Nat) : Nat := leNat (Mem.bytes m a n)
def Mem.writeN (m : Mem) (a n v : Nat) : Mem := Mem.writeBytes m a (leBytes n v)

/-- Keeps the part of a memory that a predicate on addresses admits. -/
def Mem.keep (m : Mem) (p : Nat → Bool) : Mem := m.filter fun c => p c.1

/-- Bits [hi : lo] of a number. -/
def bits (v hi lo : Nat) : Nat := v / 2 ^ lo % 2 ^ (hi + 1 - lo)
/-- Whether bit `i` of a number is set. -/
def bit (v i : Nat) : Bool := v / 2 ^ i % 2 == 1

/-- The words of bytes, lowest first. -/
def wordsOf : List Byte → List Word
  | a :: b :: c :: d :: t => BitVec.ofNat 32 (leNat [a, b, c, d]) :: wordsOf t
  | _ => []

def bytesOf (ws : List Word) : List Byte := ws.flatMap fun w => leBytes 4 w.toNat

/-- The numbers below `n` in ascending order. -/
def upto (n : Nat) : List Nat := List.range n

end Sys2Proof.Machine
end

