-- ==== Sys2Proof/Machine/Rom.lean ====
section
/-!
DEFINITION. What Muaro holds and writes at a reset: the defect maps (R18, R393), the capability table with its errata records
(R246, R247, R400), and the digests and signatures of the device.
-/
namespace Sys2Proof.Machine

/-! ## Defect maps (R18, R393) -/

/-- CRC-16-CCITT with initial value 0xFFFF over bits, the first one first. -/
def crc16 (bs : List Bool) : BitVec 16 :=
  bs.foldl (fun c b => if c.getLsbD 15 != b then (c <<< 1) ^^^ 0x1021#16 else c <<< 1) 0xFFFF#16

/-- The field of a spare core of a die: used, the upper cluster of its pair, the position it fills. Which position, if any, the
fuses say (assumption 91). -/
def spareField (die s : Nat) : Nat := bits (Config.mapSpare die s).toNat 4 0
/-- The physical core whose position a used spare fills (R18). -/
def spareFills (die s : Nat) : Option Nat :=
  let f := spareField die s
  if bit f 4 then some (8 * (2 * s + bits f 3 3) + bits f 2 0) else none

/-- Whether a physical core of a die is disabled: a spare fills its position, or it is a spare left unused that the fuses
disable. -/
def coreDisabled (die core : Nat) : Bool :=
  if core < 64 then (upto 4).any fun s => spareFills die s == some core
  else !bit (spareField die (core - 64)) 4 && bit (Config.mapSpare die (core - 64)).toNat 5

/-- The sixteen row entries: at most 4 rows of a core, none twice; 0x7FFF is empty (R143, R393). -/
def rowEntries (die : Nat) : List Nat :=
  (upto 16).foldl (fun es i =>
    let w := (Config.mapRow die i).toNat
    let core := bits w 15 8 % 68
    let e := core * 256 + bits w 7 0 % 132
    let full := 4 ≤ (es.filter fun x => x != 0x7FFF && x / 256 == core).length
    es ++ [if bit w 31 && !full && !es.contains e then e else 0x7FFF]) []

/-- Bits [495:0] of a die's defect map. -/
def defectBody (die : Nat) : Nat :=
  let cores := (upto 68).foldl (fun n b => if coreDisabled die b then n + 2 ^ b else n) 0
  let spares := (upto 4).foldl (fun n s => n + spareField die s * 2 ^ (68 + 5 * s)) 0
  let rows := (rowEntries die).zipIdx.foldl (fun n x => n + x.1 * 2 ^ (88 + 15 * x.2)) 0
  let id := Config.mapIdentity die
  cores + spares + rows + (Config.mapVoltage die).toNat * 2 ^ 408 + (die * 64 + id.toNat * 256) * 2 ^ 416 + 2 ^ 480

/-- A byte of a die's defect map, bits [7:0] first. -/
def defectMapByte (die i : Nat) : Byte :=
  let n := defectBody die
  let check := (crc16 ((upto 496).map fun k => bit n (495 - k))).toNat
  BitVec.ofNat 8 ((n + check * 2 ^ 496) / 256 ^ i)

/-! ## The capability table (R246, R400) -/

/-- A record: length, type, value, and the bytes up to the next multiple of 4, which are zero (assumption 105). -/
def capRecord (type : Nat) (v : List Byte) : List Byte :=
  leBytes 2 v.length ++ leBytes 2 type ++ v ++ List.replicate ((4 - v.length % 4) % 4) 0

/-- The signature record over the bytes before it. -/
def signed (table : List Byte) : List Byte := table ++ capRecord 2 ((upto 2820).map (Config.signatureByte table))

/-- The capability records, in ascending type (assumption 105). The widths of counts and rates that R400 does not give are 32 bits, and of byte
counts 64 (assumption 92). -/
def capRecords (lifecycle : Nat) (ages : List DWord) (firmware : List Byte) : List Byte :=
  capRecord 0x0100 ((upto 4).flatMap fun _ => leBytes 2 64) ++
    capRecord 0x0101 (leBytes 4 (1000 * Config.clockMHz) ++ leBytes 4 1000000) ++
    capRecord 0x0102 (leBytes 8 Config.gddrBytes ++ leBytes 8 Config.lpddrBytes) ++
    capRecord 0x0103 (leBytes 4 24 ++ leBytes 4 48) ++
    capRecord 0x0104 ((upto 4).flatMap fun d => (upto 64).map (defectMapByte d)) ++
    capRecord 0x0105 (leBytes 1 lifecycle) ++
    capRecord 0x0106 ((upto 4).flatMap fun d => leBytes 8 (ages.getD d 0).toNat) ++
    capRecord 0x0107 (leBytes 4 (Config.firmwareVersion firmware).toNat)

/-- The ROM part of the table: the header with the total length in 32 bits (assumption 104), the capability records, the
signature. -/
def romTable (lifecycle : Nat) (ages : List DWord) (firmware : List Byte) : List Byte :=
  let body := capRecords lifecycle ages firmware
  let header := fun (n : Nat) =>
    capRecord 1 ([0x54, 0x46, 0x4B, 0x34] ++ leBytes 2 Config.capFormat.toNat ++ leBytes 4 n)
  signed (header ((header 0).length + body.length + 2824) ++ body)

/-! ## Errata records (R247) -/

/-- The i-th errata record offered at a reset; a record holds at most 65,532 bytes. -/
def errataRecord (reset i : Nat) : List Byte :=
  capRecord 0x0E00 (leBytes 4 (Config.errataNumber reset i).toNat ++ leBytes 2 (Config.errataStepping reset i).toNat ++
    leBytes 2 (Config.errataMask reset i).toNat ++ (Config.errataText reset i).take 65524)

/-- Appends the records from one number on, each with its signature, as long as they verify; the offset of the first that does
not. -/
def appendErrata (reset : Nat) : Nat → Nat → List Byte → List Byte × Option Nat
  | 0, _, t => (t, none)
  | n + 1, i, t =>
    if Config.errataVerifies reset i then appendErrata reset n (i + 1) (signed (t ++ errataRecord reset i))
    else (t, some t.length)

/-- The table as it stands after a reset, and the offset of an errata record that was refused. -/
def capTable (reset lifecycle : Nat) (ages : List DWord) (firmware : List Byte) : List Byte × Option Nat :=
  appendErrata reset (Config.errataCount reset) 0 (romTable lifecycle ages firmware)

end Sys2Proof.Machine
end

