-- ==== Sys2Proof/Machine/Access.lean ====
section
/-!
DEFINITION. Accessors of the machine's tables, free values, time, and the way of an access to memory: translation (R103 to
R107, R426, R427), physical memory with its holes and the range of R248, the L1 data cache with ownership and write-back
(R131 to R134), and the explicit levels.
-/
namespace Sys2Proof.Machine

/-! ## Accessors -/

def State.crew? (s : State) (c : CRef) : Option Crew := Tbl.at? s.crews c
def State.team? (s : State) (t : Nat) : Option Team := Tbl.at? s.teams t
def State.launch? (s : State) (l : Nat) : Option Launch := Tbl.at? s.launches l
def State.ctx? (s : State) (c : Nat) : Option Ctx := Tbl.at? s.ctxs c
def State.core (s : State) (c : Nat) : Core := Tbl.atD s.cores c Core.reset
def State.cluster (s : State) (c : Nat) : Cluster := Tbl.atD s.clusters c Cluster.reset
def State.die (s : State) (d : Nat) : Die := Tbl.atD s.dies d Die.reset

def State.setCrew (s : State) (c : CRef) (f : Crew → Crew) : State := { s with crews := Tbl.upd s.crews c f }
def State.setTeam (s : State) (t : Nat) (f : Team → Team) : State := { s with teams := Tbl.upd s.teams t f }
def State.setLaunch (s : State) (l : Nat) (f : Launch → Launch) : State :=
  { s with launches := Tbl.upd s.launches l f }
def State.setCtx (s : State) (c : Nat) (f : Ctx → Ctx) : State := { s with ctxs := Tbl.upd s.ctxs c f }
def State.setCore (s : State) (c : Nat) (f : Core → Core) : State :=
  { s with cores := Tbl.put s.cores c (f (s.core c)) }
def State.setCluster (s : State) (c : Nat) (f : Cluster → Cluster) : State :=
  { s with clusters := Tbl.put s.clusters c (f (s.cluster c)) }
def State.setDie (s : State) (d : Nat) (f : Die → Die) : State :=
  { s with dies := Tbl.put s.dies d (f (s.die d)) }

def Crew.thread (c : Crew) (lane : Nat) : Thread := c.threads.getD lane (Thread.start 0 0)
/-- Whether some, or each, of a crew's threads meets a condition. -/
def Crew.anyThread (c : Crew) (p : Thread → Bool) : Bool := (upto 64).any fun l => p (c.thread l)
def Crew.allThread (c : Crew) (p : Thread → Bool) : Bool := (upto 64).all fun l => p (c.thread l)
def Crew.setThread (c : Crew) (lane : Nat) (f : Thread → Thread) : Crew :=
  { c with threads := c.threads.mapIdx fun i t => if i = lane then f t else t }

def State.thread? (s : State) (r : TRef) : Option Thread := (s.crew? r.cref).map (·.thread r.lane)
def State.thread (s : State) (r : TRef) : Thread := (s.thread? r).getD (Thread.start 0 0)
def State.setThread (s : State) (r : TRef) (f : Thread → Thread) : State :=
  s.setCrew r.cref (·.setThread r.lane f)

/-- The launch of a team, and its context. -/
def State.teamLaunch? (s : State) (t : Nat) : Option (Nat × Launch) :=
  match s.team? t with
  | none => none
  | some tm => (s.launch? tm.launch).map fun l => (tm.launch, l)
def State.teamCtx (s : State) (t : Nat) : Nat := match s.teamLaunch? t with | some (_, l) => l.ctx | none => 0
def State.teamCore (s : State) (t : Nat) : Nat := match s.team? t with | some tm => tm.core | none => 0
def State.isDet (s : State) (t : Nat) : Bool := match s.teamLaunch? t with | some (_, l) => l.det | none => false

def dieOf (core : Nat) : Nat := core / 64
def clusterOf (core : Nat) : Nat := core / 8
def positionOf (core : Nat) : Nat := core % 8
/-- The core position whose slice holds an offset of a cluster's shared memory (R20). -/
def clusterSlice (off : Nat) : Nat := bits off 17 15
/-- The die of a TLB. -/
def TlbAt.dieNo : TlbAt → Nat
  | .core n => dieOf n
  | .cluster n => n / 8
  | .die n => n

/-- The next free word, and the state that has taken it (assumption 2). -/
def State.takeFree (s : State) : Word × State := (Config.freeWord s.fresh, { s with fresh := s.fresh + 1 })
/-- The next serial number. -/
def State.takeSerial (s : State) : Nat × State := (s.serial, { s with serial := s.serial + 1 })

/-- Sends a message to the host (R240, R241). -/
def State.tell (s : State) (m : HostMsg) : State := { s with host := s.host ++ [m] }

/-! ## General registers -/

def Thread.reg (t : Thread) (r : Reg6) : Word := t.g.getD r.toNat 0
/-- The pair of an even register (R8). -/
def Thread.pair (t : Thread) (r : Reg6) : DWord :=
  BitVec.ofNat 64 ((t.reg r).toNat + 2 ^ 32 * (t.reg (r + 1)).toNat)
/-- A result outstanding for a register no longer applies to it (R51). -/
def Thread.forget (t : Thread) (r : Reg6) : Thread :=
  { t with out := t.out.map fun o => { o with regs := o.regs.map fun x => if x = some r then none else x } }
/-- Writes a register; a result outstanding for it is discarded for that register (R51). -/
def Thread.setReg (t : Thread) (r : Reg6) (v : Word) : Thread :=
  { t.forget r with g := t.g.set! r.toNat v }
/-- Writes the pair of an even register. -/
def Thread.setPair (t : Thread) (r : Reg6) (v : DWord) : Thread :=
  (t.setReg r (v.setWidth 32)).setReg (r + 1) ((v >>> 32).setWidth 32)
/-- Writes registers in ascending order from one register. -/
def Thread.setRegs (t : Thread) (r : Reg6) : List Word → Thread
  | [] => t
  | w :: ws => (t.setReg r w).setRegs (r + 1) ws
/-- Makes registers outstanding, in ascending order from one register (R51). -/
def Thread.addOut (t : Thread) (id : Nat) (r : Reg6) (n : Nat) (vals : Option (List Word)) : Thread :=
  let rs := (upto n).map fun i => r + BitVec.ofNat 6 i
  let t' := rs.foldl Thread.forget t
  { t' with out := t'.out ++ [⟨id, rs.map some, vals⟩] }
/-- Writes a returned result to the registers it still names. -/
def Thread.writeOut (t : Thread) : List (Option Reg6) → List Word → Thread
  | some r :: rs, v :: vs => ({ t with g := t.g.set! r.toNat v }).writeOut rs vs
  | none :: rs, _ :: vs => t.writeOut rs vs
  | _, _ => t
/-- Whether an outstanding result will change a register. -/
def Thread.changes (t : Thread) (o : Out) : Bool :=
  match o.vals with
  | none => false
  | some vs => (o.regs.zip vs).any fun x => match x.1 with | some r => t.g.getD r.toNat 0 != x.2 | none => false
/-- Every loop of a thread has had an effect of R61 in its current iteration. -/
def Spin.stir (x : Spin) : Spin := { x with loops := x.loops.map fun l => { l with active := true } }
/-- A thread whose iteration has had an effect of R61. -/
def Thread.stirred (t : Thread) : Thread := { t with spin := t.spin.stir }
/-- A result whose values were not known is decided: if they change a register its instruction had an effect, and the crew's
count of effectless instructions is that since it (R65). -/
def Crew.unmark (c : Crew) (id : Nat) (changed : Bool) : Crew :=
  match c.quietMarks.find? (·.1 == id) with
  | none => c
  | some m =>
    { c with quietMarks := c.quietMarks.filter (·.1 != id)
             quietCount := if changed then min c.quietCount m.2 else c.quietCount }
/-- The values of an outstanding result become known. What they change counts as an effect of R61 then (assumption 77). -/
def Thread.giveOut (t : Thread) (id : Nat) (ws : List Word) : Thread :=
  let t1 : Thread := { t with out := t.out.map fun o => if o.id = id then { o with vals := some ws } else o }
  if t1.out.any (fun (o : Out) => o.id == id && t1.changes o) then t1.stirred else t1
/-- The values of an outstanding result of a crew's thread become known. -/
def Crew.giveOut (c : Crew) (l id : Nat) (ws : List Word) : Crew :=
  let t := c.thread l
  (c.setThread l (·.giveOut id ws)).unmark id (t.out.any fun o => o.id == id && t.changes { o with vals := some ws })
/-- Outstanding results that have returned are gone; the cycle of the last is noted (R51, R52). -/
def Thread.dropOut (t : Thread) (cycle : Nat) (p : Out → Bool) : Thread :=
  if t.out.any p then { t with out := t.out.filter (fun o => !p o), backAt := cycle + 1 } else t
/-- A waiting thread is ready again from a cycle (R46, R237). -/
def Thread.wakeAt (t : Thread) (n : Nat) : Thread :=
  { t with wait := .none, readyAt := max n t.readyAt, rankAt := max n t.readyAt }
def Thread.pred (t : Thread) (p : Pred3) : Bool := p == 0 || t.p.getLsbD p.toNat
/-- Writes a predicate; a write of `p0` is discarded (R30). -/
def Thread.setPred (t : Thread) (p : Pred3) (v : Bool) : Thread :=
  if p = 0 then t
  else
    { t with p := if v then t.p ||| (1#8 <<< p.toNat) else t.p &&& ~~~(1#8 <<< p.toNat) }

/-! ## Time -/

/-- Cycles of the arithmetic clock pass: the timestamp follows at 1 GHz whatever the clock (R24, R29), and stands still while it
is ahead of the module's time source (R26, assumption 85). The module keeps one time, which all four dies read: the skew that
R25 allows between dies, 0 or 1, is 0 here (assumption 76). -/
def State.passCycles (s : State) (n : Nat) : State :=
  let f := s.modl.frac + 1000 * n
  let ns := f / s.modl.clock
  { s with cycle := s.cycle + n, time := s.time + (ns - s.modl.ahead),
           modl := { s.modl with frac := f % s.modl.clock, ahead := s.modl.ahead - ns } }

/-! ## Physical memory (R14, R105, R248) -/

def homeDie (pa : Nat) : Nat := bits pa 41 40
/-- The tier code of R443 of a physical address. -/
def tierOf (pa : Nat) : Nat := bits pa 39 39
/-- An address in a hole of R105, or beyond 42 bits. -/
def inHole (pa : Nat) : Bool :=
  2 ^ 42 ≤ pa || (if bit pa 39 then Config.lpddrBytes ≤ bits pa 38 0 else Config.gddrBytes ≤ bits pa 38 0)
/-- The range only Muaro writes: die 0's GDDR7 offsets up to 0x10FFFF. -/
def muaroOnly (pa : Nat) : Bool := pa < Config.muaroBytes

/-- A byte of the first 1 MiB of die 0's GDDR7 tier: the capability table as last copied, and zeros after it (R246, R399). -/
def State.tableByte (s : State) (pa : Nat) : Byte :=
  (capTable s.resets s.modl.lifecycle s.modl.tableAges s.modl.firmware).1.getD pa 0
/-- A byte at its home: of the capability table, else of the tiers. -/
def State.homeByte (s : State) (pa : Nat) : Byte :=
  if pa < 0x100000 then s.tableByte pa else Mem.read s.mem pa
def State.homeBytes (s : State) (pa n : Nat) : List Byte := (upto n).map fun i => s.homeByte (pa + i)
def State.homeN (s : State) (pa n : Nat) : Nat := leNat (s.homeBytes pa n)
def State.writeHome (s : State) (pa : Nat) (bs : List Byte) : State := { s with mem := Mem.writeBytes s.mem pa bs }

/-- Memory of a die in warm reset, or whose tiers are not yet open (R476, R477). -/
def State.shut (s : State) (pa : Nat) : Bool :=
  let d := s.die (homeDie pa)
  d.inReset || d.closed
/-- A sector that cannot be corrected where the L2 holds it (R443). -/
def State.l2Spoilt (s : State) (pa : Nat) : Bool := s.flaws.contains (.l2 (pa / 64))
/-- An L2 holds the sector of an address (R110). -/
def State.l2Has (s : State) (pa : Nat) : Bool := s.l2.any fun l => l.line == pa / 512 && l.present.getLsbD (pa / 64 % 8)
/-- Memory whose read is answered with an uncorrectable error: shut, or a sector that cannot be corrected (R443). A sector that
the L2 holds is not read from its tier. -/
def State.dead (s : State) (pa : Nat) : Bool :=
  s.shut pa || s.l2Spoilt pa || (s.poison.contains (pa / 64) && !s.l2Has pa)
/-- The detail of class 0x0C for an address: its tier, or the L2 (R443, R476). -/
def State.errorDetail (s : State) (pa : Nat) : Nat :=
  if s.shut pa then tierOf pa + 4 else if s.l2Spoilt pa then 2 else tierOf pa
def State.deadRange (s : State) (pa n : Nat) : Bool :=
  (upto ((pa % 64 + n + 63) / 64)).any fun i => s.dead ((pa / 64 + i) * 64)

/-! ## The reliability log (R479) -/

/-- Physical address of the log. -/
def logBase : Nat := 0x100000
/-- Appends an entry: kind, die, place, count, address. -/
def logEntry (s : State) (kind die place count addr : Nat) : State :=
  let n := s.homeN logBase 8
  let entry := leBytes 5 0 ++ leBytes 1 kind ++ leBytes 1 place ++ leBytes 1 die ++ leBytes 8 count ++ leBytes 8 addr
    ++ leBytes 8 s.time
  (s.writeHome (logBase + 64 + 32 * (n % 2046)) entry).writeHome logBase (leBytes 8 (n + 1))

/-! ## The L2 caches (R106, R110, R111) -/

/-- The L2 slice of a line, over the whole device (R106). -/
def sliceOf (pa : Nat) : Nat := 32 * homeDie pa + Nat.xor (bits pa 13 9) (bits pa 18 14)
/-- The slice and the set of it in which a line stands (assumption 75). -/
def l2Slot (line : Nat) : Nat × BitVec 9 := (sliceOf (512 * line), Config.l2Set line)
/-- A sector that is stored in 32 bytes: every word differs from the first by -2,048 to 2,047; sixteen equal words differ by 0
(R111). -/
def compressible (ws : List Word) : Bool :=
  match ws with
  | [] => true
  | w :: _ => ws.all fun x => -2048 ≤ (x - w).toInt && (x - w).toInt ≤ 2047
/-- A line that takes half a frame (R111). -/
def State.halfFrame (s : State) (l : L2Line) : Bool :=
  l.present == 255 && (upto 8).all fun i => compressible (wordsOf (s.homeBytes (512 * l.line + 64 * i) 64))
/-- Lines of one set need more than its 12 data frames. Its 24 tags are then enough: a frame holds at most two lines. -/
def State.l2Over (s : State) (ls : List L2Line) : Bool :=
  let h := (ls.filter s.halfFrame).length
  12 < ls.length - h + (h + 1) / 2

/-- One sector leaves the L2 with its line: one written since goes home, which mends its poison, or stays in poison where the L2
cannot correct it, which is logged (R443, R479). -/
def l2DropSector (v : L2Line) (s : State) (i : Nat) : State :=
  let n := 8 * v.line + i
  let bad := s.flaws.contains (.l2 n)
  let s1 := if bad then { s with flaws := s.flaws.filter (· != .l2 n) } else s
  if !v.dirty.getLsbD i then s1
  else if !bad then { s1 with poison := s1.poison.filter (· != n) }
  else
    logEntry { s1 with poison := if s1.poison.contains n then s1.poison else s1.poison ++ [n] } 2 (homeDie (64 * n)) 2 0 (64 * n)
/-- A line leaves the L2. -/
def l2Drop (s : State) (v : L2Line) : State :=
  (upto 8).foldl (l2DropSector v) { s with l2 := s.l2.filter (·.line != v.line) }

/-- Lines leave the set of a line, freely chosen, until the set fits (assumption 75). -/
def l2Fit (line : Nat) : Nat → State → State
  | 0, s => s
  | fuel + 1, s =>
    let same := s.l2.filter fun l => l2Slot l.line == l2Slot line
    if !s.l2Over same then s
    else
      let x := s.takeFree
      let out := same.filter (·.line != line)
      match out[x.1.toNat % out.length]? with
      | some v => l2Fit line fuel (l2Drop x.2 v)
      | none => s

/-- The L2 of its home holds a sector, dirty where it has been written. A sector that its tier cannot correct is brought in only
by a write of the whole of it, which mends it where the L2 holds it (R110, R443). -/
def l2Touch (s : State) (pa : Nat) (dirty whole : Bool) : State :=
  if s.shut pa || inHole pa || (s.dead pa && !whole) then s
  else
    let b : BitVec 8 := 1#8 <<< (pa / 64 % 8)
    let d : BitVec 8 := if dirty then b else 0
    let s1 : State := if whole then { s with flaws := s.flaws.filter (· != .l2 (pa / 64)) } else s
    let s2 : State :=
      if s1.l2.any (·.line == pa / 512) then
        { s1 with l2 := s1.l2.map fun l =>
            if l.line == pa / 512 then { l with present := l.present ||| b, dirty := l.dirty ||| d } else l }
      else { s1 with l2 := s1.l2 ++ [⟨pa / 512, b, d⟩] }
    if s2.l2.length ≤ 12 then s2 else l2Fit (pa / 512) 24 s2
/-- The sectors of a range of memory are read through the L2. -/
def l2Read (s : State) (pa n : Nat) : State :=
  (upto ((pa % 64 + n + 63) / 64)).foldl (fun s i => l2Touch s ((pa / 64 + i) * 64) false false) s
/-- The sectors of a range of memory have been written through the L2. -/
def l2Write (s : State) (pa n : Nat) : State :=
  (upto ((pa % 64 + n + 63) / 64)).foldl (fun s i =>
    let a := (pa / 64 + i) * 64
    l2Touch s a true (pa ≤ a && a + 64 ≤ pa + n)) s

/-- An access that allocates nothing in the L2 leaves a sector out that was not there before (R109). -/
def l2Bypass (s0 s : State) (pa : Nat) : State :=
  if s0.l2Has pa then s
  else
    let b : BitVec 8 := 1#8 <<< (pa / 64 % 8)
    { s with l2 := (s.l2.map fun l =>
        if l.line == pa / 512 then { l with present := l.present &&& ~~~b, dirty := l.dirty &&& ~~~b } else l).filter fun l =>
          l.present != 0 }

/-! ## Translation (R103, R104, R107, R426) -/

inductive AccKind where
  | read | write | fetch
  deriving DecidableEq, Repr

/-- A failed access of virtual memory: code of R426, level of the entry and size of its page; or the detail of an uncorrectable
error that the memory behind a valid translation answers with (R443, R476). -/
structure TFault where
  code : Nat
  level : Nat
  page : Nat
  mem : Option Nat
  deriving DecidableEq, Repr

/-- A walk that ends at an entry without a page. -/
def TFault.at (code level : Nat) : TFault := ⟨code, level, 4096, none⟩
/-- A page that does not admit an access. -/
def TFault.of (code level page : Nat) : TFault := ⟨code, level, page, none⟩
/-- Memory that answers with an error (R443). -/
def TFault.memory (detail : Nat) : TFault := ⟨0, 0, 4096, some detail⟩
/-- Class and code of a failed access that the device makes for itself. -/
def TFault.cls (f : TFault) : Nat := if f.mem.isSome then 12 else 6
def TFault.kind (f : TFault) : Nat := if f.mem.isSome then 5 else f.code
/-- Detail of class 0x06: level and access (R426). -/
def TFault.detail (f : TFault) (k : AccKind) : Nat :=
  f.level + (if k = .fetch then 4 else 0) + (if k = .write then 8 else 0)

/-- Index bits of a level. -/
def levelIndex (va level : Nat) : Nat :=
  match level with
  | 0 => bits va 51 39 | 1 => bits va 38 30 | 2 => bits va 29 21 | _ => bits va 20 12

/-- Bytes a leaf maps. -/
def leafSize (level : Nat) (size64 : Bool) : Nat :=
  match level with
  | 1 => 2 ^ 30 | 2 => 2 ^ 21 | _ => if size64 then 65536 else 4096

/-- Physical address an entry names. -/
def entryFrame (e : Nat) : Nat := bits e 41 12 * 4096

/-- A malformed entry: reserved bits, a leaf at level 0, no leaf at level 3, size64 above level 3, a misaligned frame, or
level-3 entries of a 64 KiB page that differ. -/
def malformed (s : State) (table level index e : Nat) : Bool :=
  let leaf := bit e 8
  bits e 63 42 != 0 || bits e 11 9 != 0 || bits e 5 3 != 0 ||
  (leaf && level == 0) || (!leaf && level == 3) || (leaf && bit e 6 && level != 3) ||
  (leaf && entryFrame e % leafSize level (bit e 6) != 0) ||
  (leaf && level == 3 && bit e 6 &&
    (upto 16).any fun i => s.homeN (table + 8 * (index / 16 * 16 + i)) 8 != e)

/-- The levels of a walk still to be read, from a table. -/
def walkFrom (s : State) (ctx va : Nat) : Nat → Nat → Nat → Except TFault TlbEntry
  | 0, _, level => .error (.at 5 level)
  | fuel + 1, table, level =>
    let ix := levelIndex va level
    let e := s.homeN (table + 8 * ix) 8
    if !bit e 0 then .error (.at 1 level)
    else if malformed s table level ix e then .error (.at 5 level)
    else if inHole (entryFrame e) then .error (.at 6 level)
    else if bit e 8 then
      let n := leafSize level (bit e 6)
      .ok ⟨.die 0, ctx, BitVec.ofNat 64 (va / n * n), n, entryFrame e, bit e 2, bit e 1, bit e 7, level⟩
    else walkFrom s ctx va fuel (entryFrame e) (level + 1)

/-- A walk from the root of a context (R426). It takes no time here, so the 64 walks that a die runs at once are never
exceeded (R15, R107, R427). -/
def walk (s : State) (ctx va : Nat) : Except TFault TlbEntry :=
  let root := match s.ctx? ctx with | some c => c.ptroot.toNat | none => 0
  if root % 65536 != 0 || 2 ^ 42 ≤ root then .error (.at 5 0)
  else if inHole root then .error (.at 6 0)
  else walkFrom s ctx va 4 root 0

/-- The level of a TLB, and the TLBs in which an agent looks, in order (R107). -/
def TlbAt.level : TlbAt → Nat
  | .core _ => 0 | .cluster _ => 1 | .die _ => 2
def TlbAt.path : TlbAt → List TlbAt
  | .core n => [.core n, .cluster (clusterOf n), .die (dieOf n)]
  | .cluster n => [.cluster n, .die (n / 8)]
  | .die n => [.die n]

def TlbEntry.covers (e : TlbEntry) (a : TlbAt) (ctx va : Nat) : Bool :=
  e.at_ == a && e.ctx == ctx && e.va.toNat ≤ va && va < e.va.toNat + e.size
/-- The set of its TLB in which an entry stands. -/
def TlbEntry.set (e : TlbEntry) : Nat :=
  match e.at_ with
  | .core _ => 0
  | a => Config.tlbSet a.level e.ctx (e.va.toNat / 4096) % Config.tlbSets a.level

/-- An entry is cached in a TLB; a full set loses one of its entries, freely chosen (assumption 75). -/
def tlbInsert (s : State) (e : TlbEntry) : State :=
  let same := s.tlb.filter fun x => x.at_ == e.at_ && x.set == e.set
  if same.length < Config.tlbWays e.at_.level then { s with tlb := s.tlb ++ [e] }
  else
    let x := s.takeFree
    { x.2 with tlb := (s.tlb.erase (same.getD (x.1.toNat % same.length) e)) ++ [e] }

/-- The translation of a page: from the first of some TLBs that holds it, else by a walk; every TLB that missed caches it
(R107, R427). -/
def lookupFrom (s : State) (ctx va : Nat) : List TlbAt → State × Except TFault TlbEntry
  | [] => (s, walk s ctx va)
  | a :: rest =>
    match s.tlb.find? (·.covers a ctx va) with
    | some e => (s, .ok e)
    | none =>
      match lookupFrom s ctx va rest with
      | (s1, .ok e) => (tlbInsert s1 { e with at_ := a }, .ok e)
      | (s1, .error f) => (s1, .error f)
def lookup (s : State) (a : TlbAt) (ctx va : Nat) : State × Except TFault TlbEntry := lookupFrom s ctx va a.path

/-- The size of the page of an address, by the translation that a TLB holds. -/
def State.pageSize (s : State) (a : TlbAt) (ctx : Nat) (va : DWord) : Nat :=
  match s.tlb.find? (·.covers a ctx va.toNat) with | some e => e.size | none => 4096

/-- The checks of an access against its translation: the lowest code (R426). -/
def permit (e : TlbEntry) (va : Nat) (sup : Bool) (k : AccKind) : Except TFault Nat :=
  let pa := e.pa + (va - e.va.toNat)
  if !sup && !e.user then .error (.of 2 e.level e.size)
  else if k = .write && (!e.writable || muaroOnly pa) then .error (.of 3 e.level e.size)
  else if k = .fetch && !e.exec then .error (.of 4 e.level e.size)
  else .ok pa

/-- Translates one address of a context for an agent; an address beyond 52 bits has no valid entry (assumption 40). -/
def translate (s : State) (a : TlbAt) (ctx : Nat) (va : DWord) (sup : Bool) (k : AccKind) : State × Except TFault Nat :=
  if 2 ^ 52 ≤ va.toNat then (s, .error (.at 1 0))
  else match lookup s a ctx va.toNat with
  | (s', .error f) => (s', .error f)
  | (s', .ok e) => (s', permit e va.toNat sup k)

/-- Translates every 4 KiB page that a range of bytes touches, in ascending order; the physical addresses by page. -/
def translateRange (s : State) (a : TlbAt) (ctx : Nat) (sup : Bool) (k : AccKind) : Nat → Nat → Nat →
    State × Except (TFault × Nat) (List (Nat × Nat))
  | 0, _, _ => (s, .ok [])
  | fuel + 1, va, n =>
    if n = 0 then (s, .ok [])
    else
      match translate s a ctx (BitVec.ofNat 64 va) sup k with
      | (s', .error f) => (s', .error (f, va))
      | (s', .ok pa) =>
        let m := min n (4096 - va % 4096)
        match translateRange s' a ctx sup k fuel (va + m) (n - m) with
        | (s'', .error f) => (s'', .error f)
        | (s'', .ok rest) => (s'', .ok ((pa, m) :: rest))

/-! ## What engines have still to write (R135) -/

/-- The size of the unit in which engines claim a place: words of memory, sectors of a level (R135). -/
def Place.unit (p : Place) : Nat := match p with | .phys => 4 | _ => 64
/-- The units that bytes of a place stand in. -/
def Place.units (p : Place) (a n : Nat) : List Nat :=
  if n = 0 then [] else (upto ((a + n - 1) / p.unit + 1 - a / p.unit)).map fun i => a / p.unit + i

/-- Bytes of a stored tile: rows, and for a BFP format the exponent bytes after them (R157). -/
def astExtent (rows cols fmt : Nat) : Nat :=
  let elem := match fmt with | 0 => 2 | 1 => 4 | 2 => 8 | 3 => 8 | 4 => 8 | 5 => 16 | 6 => 16 | _ => 32
  rows * cols * elem / 8 + (if fmt ≤ 2 then rows * ((cols + 31) / 32) else 0)

/-- Work of an engine by the order of its issue: cycle, core, serial number (R432). -/
structure EngineRank where
  cycle : Nat
  core : Nat
  id : Nat
  deriving DecidableEq, Repr
def EngineRank.before (a b : EngineRank) : Bool :=
  a.cycle < b.cycle || (a.cycle == b.cycle && (a.core < b.core || (a.core == b.core && a.id < b.id)))
def Copy.rank (c : Copy) : EngineRank := ⟨c.cycle, c.core, c.id⟩
/-- The claims of a copy that stand while its team is out: all but those on the team's own scratchpad. -/
def Copy.held (c : Copy) (p : Place) : Bool := match p with | .scratch t => t != c.team | _ => true

/-- Units that engines have not yet written, with the rank of the engine's work: copies, those that wait in an image among them,
accumulator stores, host fetches and eye scans (R135, R156, R233, R242, R392). Of a copy in an image the claims on global memory
stand; its team's own places are in the image, or come back with it. -/
def State.engineUnits (s : State) : List (EngineRank × Place × Nat) :=
  (s.clusters.flatMap fun c => c.2.queues.flatMap fun q => q.flatMap fun x => x.marks.map fun m => (x.rank, m.2))
    ++ (s.images.flatMap fun i => i.copies.flatMap fun x =>
      (x.marks.filter fun m => x.held m.2.1).map fun m => (x.rank, m.2))
    ++ (s.teams.flatMap fun t =>
      match t.2.array with
      | none => []
      | some m => m.queue.flatMap fun i =>
        match i.op with
        | .ast _ off fmt _ _ =>
          (astSectors i.cfg off fmt).map fun n => (⟨i.cycle, t.2.core, i.id⟩, Place.scratch t.1, n)
        | _ => [])
    ++ (s.ctxs.flatMap fun c => c.2.fetches.flatMap fun f => f.marks.map fun n => (⟨f.cycle, f.core, f.id⟩, Place.phys, n))
    ++ s.dies.flatMap fun d =>
      match d.2.scan with
      | some x => x.marks.map fun n => (⟨x.cycle, x.core, x.id⟩, Place.phys, n)
      | none => []
where
  /-- The sectors an accumulator store will write (R157). -/
  astSectors (cfg : DWord) (off fmt : Nat) : List Nat :=
    (Place.scratch 0).units off (astExtent (bits cfg.toNat 6 0 + 1) (bits cfg.toNat 14 8 + 1) fmt)

/-- An access to a unit that an engine has yet to write waits (R135). -/
def State.isBusy (s : State) (p : Place) (a n : Nat) : Bool :=
  s.engineUnits.any fun b => b.2.1 == p && a / p.unit ≤ b.2.2 && b.2.2 ≤ (a + n - 1) / p.unit

/-! ## The L1 data cache (R109, R131 to R134) -/

def State.l1Word? (s : State) (core pa : Nat) : Option L1Word := s.l1.find? fun w => w.core == core && w.pa == pa

/-- Bytes of one word chosen by a mask. -/
def mergeWord (mask : BitVec 4) (new old : Word) : Word :=
  BitVec.ofNat 32 (leNat ((upto 4).map fun i =>
    if mask.getLsbD i then BitVec.ofNat 8 (new.toNat / 256 ^ i) else BitVec.ofNat 8 (old.toNat / 256 ^ i)))

def State.homeWord (s : State) (pa : Nat) : Word := BitVec.ofNat 32 (s.homeN pa 4)

/-- The word a core sees: its valid bytes, else the home's. -/
def State.seenWord (s : State) (core pa : Nat) : Word :=
  match s.l1Word? core pa with
  | some w => mergeWord w.valid w.val (s.homeWord pa)
  | none => s.homeWord pa
def State.seenByte (s : State) (core pa : Nat) : Byte :=
  BitVec.ofNat 8 ((s.seenWord core (pa / 4 * 4)).toNat / 256 ^ (pa % 4))

/-- Fills one word of a sector from its home, keeping the bytes the core holds. -/
def fillFree (s : State) (core ctx : Nat) (va : DWord) (pa : Nat) : State :=
  match s.l1Word? core pa with
  | some w =>
    { s with l1 := s.l1.map fun x =>
        if x.core == core && x.pa == pa then { x with val := mergeWord w.valid w.val (s.homeWord pa), valid := 15 }
        else x }
  | none =>
    { s with l1 := s.l1 ++ [⟨core, pa, s.homeWord pa, 15, 0, false, false, [], ⟨0, 0⟩, 0, false, false, va, ctx, 0, 0,
                          s.pageSize (.core core) ctx va⟩] }
/-- A word that an engine has still to write is not brought in (R135). -/
def fillWord (s : State) (core ctx : Nat) (va : DWord) (pa : Nat) : State :=
  if s.isBusy .phys pa 4 then s else fillFree s core ctx va pa

/-- Fetches the 64-byte sector of an address into a core's L1 (R132). -/
def fillSector (s : State) (core ctx : Nat) (va : DWord) (pa : Nat) : State :=
  (upto 16).foldl (fun s i => fillWord s core ctx (va - BitVec.ofNat 64 (pa % 64) + BitVec.ofNat 64 (4 * i))
    (pa / 64 * 64 + 4 * i)) (l2Touch s pa false false)

/-- The bytes of an access as a mask over one of its words. -/
def wordMask (pa n word : Nat) : BitVec 4 :=
  BitVec.ofNat 4 ((upto 4).foldl (fun m i => if pa ≤ word + i && word + i < pa + n then m + 2 ^ i else m) 0)

/-- The aligned words an access touches. -/
def wordsTouched (pa n : Nat) : List Nat :=
  (upto ((pa % 4 + n + 3) / 4)).map fun i => pa / 4 * 4 + 4 * i

/-- Whether a core holds every byte of an access. -/
def State.l1Hit (s : State) (core pa n : Nat) : Bool :=
  (wordsTouched pa n).all fun w =>
    match s.l1Word? core w with
    | some x => (wordMask pa n w &&& ~~~x.valid) == 0
    | none => false

/-- A load through the L1: the bytes, and the state after a fill where the policy allocates (R109, R132). -/
def l1Load (s : State) (core ctx : Nat) (va : DWord) (pa n : Nat) (alloc : Bool) : List Byte × State :=
  let s' := if alloc && !s.l1Hit core pa n then fillSector s core ctx va pa else s
  ((upto n).map fun i => s.seenByte core (pa + i), s')

/-- Who stored, for the record of a later write-back (R133, R408). -/
structure Writer where
  core : Nat
  ctx : Nat
  crew : CRef
  lane : Nat
  sup : Bool
  pc : DWord
  time : Nat
  deriving DecidableEq, Repr

/-- Marks bytes of one word dirty in a core's L1 (R131). -/
def l1StoreWord (s : State) (w : Writer) (va : DWord) (word : Nat) (mask : BitVec 4) (v : Word) : State :=
  match s.l1Word? w.core word with
  | some x =>
    { s with l1 := s.l1.map fun y =>
        if y.core == w.core && y.pa == word then
          { y with val := mergeWord mask v x.val, valid := x.valid ||| mask, dirty := x.dirty ||| mask,
                   writers := if x.writers.contains w.crew then x.writers else x.writers ++ [w.crew], crew := w.crew, lane := w.lane, sup := w.sup,
                   va := va, ctx := w.ctx, pc := w.pc, time := w.time, page := s.pageSize (.core w.core) w.ctx va }
        else y }
  | none =>
    { s with l1 := s.l1 ++ [⟨w.core, word, v, mask, mask, false, false, [w.crew], w.crew, w.lane, w.sup, false, va, w.ctx, w.pc,
                          w.time, s.pageSize (.core w.core) w.ctx va⟩] }

/-- The word of an access's bytes that stands at an aligned address. -/
def spread (pa : Nat) (bs : List Byte) (word : Nat) : Word :=
  BitVec.ofNat 32 (leNat ((upto 4).map fun i => if pa ≤ word + i then bs.getD (word + i - pa) 0 else 0))

def l1Store (s : State) (w : Writer) (va : DWord) (pa : Nat) (bs : List Byte) : State :=
  (wordsTouched pa bs.length).foldl
    (fun s x => l1StoreWord s w (va - BitVec.ofNat 64 (pa % 4) + BitVec.ofNat 64 (x - pa / 4 * 4)) x
      (wordMask pa bs.length x) (spread pa bs x)) s

/-- The line of an address goes first when its set needs room (R109). -/
def l1Soon (s : State) (core pa : Nat) : State :=
  { s with l1 := s.l1.map fun w => if w.core == core && w.pa / 64 == pa / 64 then { w with soon := true } else w }

/-- Removes what an L1 no longer holds of a word: nothing valid is left. -/
def L1Word.live (w : L1Word) : Bool := w.valid != 0

/-- Registers dirty bytes at their home: the home merges them, the core becomes the owner of the merged word, and the previous
owner's copy is invalid (R131). Of a sector that cannot be corrected the core keeps only what it wrote (R443). -/
def registerWord (s : State) (w : L1Word) (pa : Nat) : State :=
  let v := mergeWord w.dirty w.val (s.homeWord pa)
  let valid := if s.dead pa then w.dirty else 15
  let l1 := s.l1.map fun x =>
    if x.core == w.core && x.pa == w.pa then
      { x with val := v, valid := valid, dirty := 0, owned := true, writers := [], marked := false }
    else if x.pa == pa && x.owned then { x with owned := false, valid := x.dirty }
    else x
  l2Write { s with mem := Mem.writeBytes s.mem pa (leBytes 4 v.toNat), l1 := l1.filter L1Word.live } pa 4

/-- The page through which a word was stored, of its context. -/
def L1Word.pageKey (w : L1Word) : Nat × Nat := (w.ctx, w.va.toNat / w.page * w.page)

/-- Discards a word from an L1. -/
def dropWord (s : State) (w : L1Word) : State :=
  { s with l1 := s.l1.filter fun x => !(x.core == w.core && x.pa == w.pa) }

/-- Writes back one dirty word; a marked word is translated again (R408, R430), and a word whose home answers with an error
fails (R476). The failing code, if any. -/
def writeBackWord (s : State) (w : L1Word) : State × Option Nat :=
  if w.marked then
    match translate s (.core w.core) w.ctx w.va w.sup .write with
    | (s', .error f) => (dropWord s' w, some f.code)
    | (s', .ok pa) =>
      if s'.shut pa then (dropWord s' w, some Config.shutCode.toNat)
      else
        let s'' := registerWord s' w pa
        (if pa = w.pa then s'' else dropWord s'' w, none)
  else if s.shut w.pa then (dropWord s w, some Config.shutCode.toNat)
  else (registerWord s w w.pa, none)

/-- An acquire on a core: the words it does not own are invalid, dirty bytes apart (R132). -/
def acquireCore (s : State) (core : Nat) : State :=
  let l1 := s.l1.map fun x => if x.core == core && !x.owned then { x with valid := x.dirty } else x
  { s with l1 := l1.filter L1Word.live }

/-- Words written by an engine at their home: it owns them, and no L1 does (R135). -/
def engineWrite (s : State) (pa : Nat) (bs : List Byte) : State :=
  let s' := s.writeHome pa bs
  let l1 := s'.l1.map fun x =>
    if x.owned && (wordsTouched pa bs.length).contains x.pa then { x with owned := false, valid := x.dirty } else x
  l2Write { s' with l1 := l1.filter L1Word.live } pa bs.length

/-! ## The explicit levels (R99, R100) -/

/-- The cluster-shared memory of a team where it stands. -/
def State.sharedOf (s : State) (tm : Team) : Mem :=
  match Tbl.at? s.clu (tm.launch, clusterOf tm.core) with | some a => a.mem | none => []
def Team.sharedPlace (tm : Team) : Place := .cluster tm.launch (clusterOf tm.core)
/-- That memory with the bytes that the team's uncommitted task has buffered over it (R44). -/
def Team.taskView (tm : Team) (m : Mem) : Mem :=
  match tm.task with
  | some k =>
    if k.committed then m
    else (k.buffer.filter fun e => e.place == tm.sharedPlace).foldl (fun m e =>
      e.data.foldl (fun m x => Mem.write m (64 * e.sector + x.1) x.2) m) m
  | none => m
/-- An entry takes the bytes of its sector that differ between two memories, as a part of its first store. -/
def BufEntry.take (e : BufEntry) (old new : Mem) : BufEntry :=
  let offs := (upto 64).filter fun i => Mem.read old (64 * e.sector + i) != Mem.read new (64 * e.sector + i)
  let fresh := offs.filter fun i => !(e.stores.any fun x => x.offs.contains i)
  { e with data := offs.foldl (fun d i => Tbl.put d i (Mem.read new (64 * e.sector + i))) e.data
           stores := match e.stores with | x :: xs => { x with offs := x.offs ++ fresh } :: xs | [] => [] }

def State.placeMem (s : State) (p : Place) : Mem :=
  match p with
  | .phys => s.mem
  | .scratch t => match s.team? t with | some tm => tm.scratch | none => []
  | .cluster l c => match Tbl.at? s.clu (l, c) with | some a => a.mem | none => []
  | .chip l d => match Tbl.at? s.chip (l, d) with | some a => a.mem | none => []
  | .task t => match s.team? t with | some tm => tm.taskView (s.sharedOf tm) | none => []

def State.placeSize (s : State) (p : Place) : Nat :=
  match p with
  | .phys => 2 ^ 42
  | .scratch t => match s.team? t with | some tm => tm.scratchSize | none => 0
  | .cluster l c => match Tbl.at? s.clu (l, c) with | some a => a.size | none => 0
  | .chip l d => match Tbl.at? s.chip (l, d) with | some a => a.size | none => 0
  | .task t =>
    match s.team? t with
    | some tm => (match Tbl.at? s.clu (tm.launch, clusterOf tm.core) with | some a => a.size | none => 0)
    | none => 0

def State.setPlace (s : State) (p : Place) (f : Mem → Mem) : State :=
  match p with
  | .phys => { s with mem := f s.mem }
  | .scratch t => s.setTeam t fun tm => { tm with scratch := f tm.scratch }
  | .cluster l c => { s with clu := Tbl.upd s.clu (l, c) fun a => { a with mem := f a.mem } }
  | .chip l d => { s with chip := Tbl.upd s.chip (l, d) fun a => { a with mem := f a.mem } }
  | .task t =>
    match s.team? t with
    | none => s
    | some tm =>
      let m := s.sharedOf tm
      let buffered := match tm.task with | some k => !k.committed | none => false
      if buffered then
        let old := tm.taskView m
        s.setTeam t fun tm => { tm with task := tm.task.map fun k =>
          { k with buffer := k.buffer.map fun e => if e.place == tm.sharedPlace then e.take old (f old) else e } }
      else { s with clu := Tbl.upd s.clu (tm.launch, clusterOf tm.core) fun a => { a with mem := f a.mem } }

def State.placeBytes (s : State) (p : Place) (a n : Nat) : List Byte :=
  match p with
  | .phys => s.homeBytes a n
  | _ => Mem.bytes (s.placeMem p) a n
def State.placeN (s : State) (p : Place) (a n : Nat) : Nat := leNat (s.placeBytes p a n)
/-- On-core storage written anew holds no error (R443). -/
def State.mend (s : State) (hit : Flaw → Bool) : State :=
  if s.flaws.isEmpty then s else { s with flaws := s.flaws.filter fun x => !hit x }
/-- The sectors of a place that a write covers whole. -/
def Flaw.covered (p : Place) (a n : Nat) : Flaw → Bool
  | .place q u => p = q && a ≤ 64 * u && 64 * u + 64 ≤ a + n
  | _ => false
def State.writePlace (s : State) (p : Place) (a : Nat) (bs : List Byte) : State :=
  match p with
  | .phys => engineWrite s a bs
  | _ => (s.setPlace p fun m => Mem.writeBytes m a bs).mend (Flaw.covered p a bs.length)

/-! ## The region of an atomic buffer (R141) -/

/-- Another agent's access to the region of a launch's atomic buffer: the buffered atomics then leave unpredictable values
(R141). -/
def noteForeign (s : State) (pa n : Nat) : State :=
  if s.launches.any fun l => l.2.det && l.2.auxCap != 0 && !l.2.done then
    { s with launches := s.launches.map fun l =>
        if l.2.det && l.2.auxCap != 0 && !l.2.done && meets l.2 then (l.1, { l.2 with atomsRaced := true }) else l }
  else s
where
  /-- The access meets a page piece of the region, as the tables now map it. -/
  meets (l : Launch) : Bool :=
    (pieces (16 * l.auxCap / 4096 + 2) l.aux.toNat (16 * l.auxCap)).any fun x =>
      match walk s l.ctx x.1 with
      | .ok e => let a := e.pa + (x.1 - e.va.toNat); a < pa + n && pa < a + x.2
      | .error _ => false
  /-- A range of virtual memory by 4 KiB pages. -/
  pieces : Nat → Nat → Nat → List (Nat × Nat)
    | 0, _, _ => []
    | k + 1, va, n =>
      if n = 0 then [] else let m := min n (4096 - va % 4096); (va, m) :: pieces k (va + m) (n - m)

end Sys2Proof.Machine
end

