-- ==== Sys2Proof/Machine/Float.lean ====
section
/-!
DEFINITION. Number formats and arithmetic (spec file 03): values as exact numbers, one rounding into a format, the
operations of the vector units, conversions, block floating point, exact sums, and the bounds of the special functions.
-/
namespace Sys2Proof.Machine

/-- A format: exponent bits, fraction bits, bias; `inf` is false for E4M3, which has no infinity (R73). -/
structure Fmt where
  ew : Nat
  fw : Nat
  bias : Nat
  inf : Bool
  deriving DecidableEq, Repr

def Fmt.f64 : Fmt := ⟨11, 52, 1023, true⟩
def Fmt.f32 : Fmt := ⟨8, 23, 127, true⟩
def Fmt.f16 : Fmt := ⟨5, 10, 15, true⟩
def Fmt.bf16 : Fmt := ⟨8, 7, 127, true⟩
def Fmt.e5m2 : Fmt := ⟨5, 2, 15, true⟩
def Fmt.e4m3 : Fmt := ⟨4, 3, 7, false⟩

def Fmt.width (f : Fmt) : Nat := 1 + f.ew + f.fw
def Fmt.sign (f : Fmt) : Nat := 2 ^ (f.ew + f.fw)
/-- Encoding of +infinity. -/
def Fmt.infCode (f : Fmt) : Nat := (2 ^ f.ew - 1) * 2 ^ f.fw
/-- The canonical NaN (R75). -/
def Fmt.nan (f : Fmt) : Nat := if f.inf then f.infCode + 2 ^ (f.fw - 1) else 0x7F
/-- The largest finite encoding (R73). -/
def Fmt.maxFin (f : Fmt) : Nat := if f.inf then f.infCode - 1 else 0x7E

/-- A value: NaN, an infinity, or (−1)^neg × m × 2^e. -/
inductive FVal where
  | nan
  | inf (neg : Bool)
  | fin (neg : Bool) (m : Nat) (e : Int)
  deriving DecidableEq, Repr, Inhabited

/-- The value of an encoding (R73); subnormals are kept (R74). -/
def Fmt.val (f : Fmt) (n : Nat) : FVal :=
  let neg := n / f.sign % 2 == 1
  let e := n / 2 ^ f.fw % 2 ^ f.ew
  let m := n % 2 ^ f.fw
  if f.inf && e = 2 ^ f.ew - 1 then (if m = 0 then .inf neg else .nan)
  else if !f.inf && n % 128 = 0x7F then .nan
  else if e = 0 then .fin neg m (1 - (f.bias : Int) - f.fw)
  else .fin neg (m + 2 ^ f.fw) ((e : Int) - f.bias - f.fw)

def Fmt.signed (f : Fmt) (neg : Bool) (n : Nat) : Nat := if neg then f.sign + n else n

/-- The result of an overflow (R82, R83, R88). -/
def Fmt.overflow (f : Fmt) (mode : BitVec 2) (sat neg : Bool) : Nat :=
  if !f.inf || sat || mode = 1 || (mode = 2 && neg) || (mode = 3 && !neg) then f.signed neg f.maxFin
  else f.signed neg f.infCode

/-- Whether a magnitude `q` with a remainder moves away from zero (R81): `half` compares the remainder with one half. -/
def roundUp (mode : BitVec 2) (neg odd : Bool) (exact : Bool) (half : Ordering) : Bool :=
  if exact then false
  else
    match mode with
    | 0 => half == .gt || (half == .eq && odd)
    | 1 => false
    | 2 => !neg
    | _ => neg

/-- `m / 2^s` rounded to an integer; `sticky` says that more, less than one unit of `m`, was cut off below it. -/
def roundShift (mode : BitVec 2) (neg : Bool) (m s : Nat) (sticky : Bool) : Nat :=
  let q := m / 2 ^ s
  let rem := 2 * (m % 2 ^ s)
  let half := if rem < 2 ^ s then Ordering.lt else if rem = 2 ^ s then (if sticky then .gt else .eq) else .gt
  if roundUp mode neg (q % 2 == 1) (rem = 0 && !sticky) half then q + 1 else q

/-- `rnd`: the exact value (−1)^neg × (m + ε) × 2^e rounded once, where 0 ≤ ε < 1 and ε ≠ 0 exactly when `sticky`
(R81, R82, R83). A sticky value has more bits than the format keeps. -/
def Fmt.round (f : Fmt) (mode : BitVec 2) (sat neg : Bool) (m : Nat) (e : Int) (sticky : Bool) : Nat :=
  if m = 0 then f.signed neg 0
  else
    let qmin : Int := 1 - (f.bias : Int) - f.fw
    let top : Int := e + Nat.log2 m
    let q := max (top - f.fw) qmin
    let r := if q ≤ e then m * 2 ^ (e - q).toNat else roundShift mode neg m (q - e).toNat sticky
    let code := (q - qmin).toNat * 2 ^ f.fw + r
    if f.maxFin < code then f.overflow mode sat neg else f.signed neg code

/-- A value rounded into a format; NaN becomes canonical, and an infinity stays one where the format has it (R75, R83). -/
def Fmt.emit (f : Fmt) (mode : BitVec 2) (sat : Bool) (v : FVal) : Nat :=
  match v with
  | .nan => f.nan
  | .inf neg => if f.inf then f.signed neg f.infCode else f.signed neg f.maxFin
  | .fin neg m e => f.round mode sat neg m e false

/-! ## Arithmetic -/

def FVal.negate : FVal → FVal
  | .nan => .nan
  | .inf n => .inf !n
  | .fin n m e => .fin (!n) m e

/-- The exact product (R90). -/
def FVal.mul (x y : FVal) : FVal :=
  match x, y with
  | .nan, _ | _, .nan => .nan
  | .inf a, .inf b => .inf (a != b)
  | .inf a, .fin b m _ | .fin b m _, .inf a => if m = 0 then .nan else .inf (a != b)
  | .fin a m e, .fin b k d => .fin (a != b) (m * k) (e + d)

/-- A signed multiple of a power of two. -/
def signedAt (neg : Bool) (m : Nat) (e floor : Int) : Int :=
  let v : Int := m * 2 ^ (e - floor).toNat
  if neg then -v else v

/-- The exact sum; the sign of a zero sum depends on the mode (R282). -/
def FVal.add (mode : BitVec 2) (x y : FVal) : FVal :=
  match x, y with
  | .nan, _ | _, .nan => .nan
  | .inf a, .inf b => if a = b then .inf a else .nan
  | .inf a, _ | _, .inf a => .inf a
  | .fin a m e, .fin b k d =>
    let lo := min e d
    let t := signedAt a m e lo + signedAt b k d lo
    if t = 0 then
      if m = 0 && k = 0 && a = b then .fin a 0 0 else .fin (mode = 3) 0 0
    else .fin (t < 0) t.natAbs lo

def Fmt.add (f : Fmt) (mode : BitVec 2) (sat : Bool) (x y : Nat) : Nat :=
  f.emit mode sat ((f.val x).add mode (f.val y))
def Fmt.sub (f : Fmt) (mode : BitVec 2) (sat : Bool) (x y : Nat) : Nat :=
  f.emit mode sat ((f.val x).add mode (f.val y).negate)
def Fmt.mul (f : Fmt) (mode : BitVec 2) (sat : Bool) (x y : Nat) : Nat :=
  f.emit mode sat ((f.val x).mul (f.val y))
/-- The fused form: the product is exact and negated for n = 1 (R285). -/
def Fmt.fma (f : Fmt) (mode : BitVec 2) (sat n : Bool) (x y z : Nat) : Nat :=
  let p := (f.val x).mul (f.val y)
  f.emit mode sat ((if n then p.negate else p).add mode (f.val z))

/-- Division (R282). -/
def Fmt.div (f : Fmt) (mode : BitVec 2) (sat : Bool) (x y : Nat) : Nat :=
  match f.val x, f.val y with
  | .nan, _ | _, .nan => f.nan
  | .inf _, .inf _ => f.nan
  | .inf a, .fin b _ _ => f.emit mode sat (.inf (a != b))
  | .fin a _ _, .inf b => f.signed (a != b) 0
  | .fin a m e, .fin b k d =>
    if k = 0 then (if m = 0 then f.nan else f.emit mode sat (.inf (a != b)))
    else if m = 0 then f.signed (a != b) 0
    else
      let n := m * 2 ^ (2 * f.fw + 8)
      f.round mode sat (a != b) (n / k) (e - d - (2 * f.fw + 8 : Nat)) (n % k != 0)

/-- The largest root bit by bit: `r` such that r² ≤ n, from bit `i` down. -/
def sqrtFrom (n : Nat) : Nat → Nat → Nat
  | 0, r => if (r + 1) * (r + 1) ≤ n then r + 1 else r
  | i + 1, r => sqrtFrom n i (if (r + 2 ^ (i + 1)) * (r + 2 ^ (i + 1)) ≤ n then r + 2 ^ (i + 1) else r)
/-- The integer square root. -/
def isqrt (n : Nat) : Nat := sqrtFrom n (Nat.log2 n / 2 + 1) 0

/-- Square root (R282). -/
def Fmt.sqrt (f : Fmt) (mode : BitVec 2) (x : Nat) : Nat :=
  match f.val x with
  | .nan => f.nan
  | .inf neg => if neg then f.nan else f.infCode
  | .fin neg m e =>
    if m = 0 then f.signed neg 0
    else if neg then f.nan
    else
      let odd : Int := e % 2
      let n := m * 2 ^ (odd.toNat + 2 * (f.fw + 4))
      let r := isqrt n
      f.round mode false false r ((e - odd) / 2 - (f.fw + 4 : Nat)) (r * r != n)

/-- `RECIP` (R291). -/
def Fmt.recip (f : Fmt) (mode : BitVec 2) (sat : Bool) (x : Nat) : Nat :=
  match f.val x with
  | .nan => f.nan
  | .inf neg => f.signed neg 0
  | .fin neg m e =>
    if m = 0 then f.signed neg f.infCode
    else
      let k := 2 * f.fw + 8
      f.round mode sat neg (2 ^ k / m) (-e - (k : Nat)) (2 ^ k % m != 0)

/-- `RROOT` (R291): the root of the quotient 2^(2k) / m is exact to its floor. -/
def Fmt.rroot (f : Fmt) (mode : BitVec 2) (sat : Bool) (x : Nat) : Nat :=
  match f.val x with
  | .nan => f.nan
  | .inf neg => if neg then f.nan else 0
  | .fin neg m e =>
    if m = 0 then f.signed neg f.infCode
    else if neg then f.nan
    else
      let odd : Int := e % 2
      let m' := m * 2 ^ odd.toNat
      let k := 2 * f.fw + 8
      let r := isqrt (2 ^ (2 * k) / m')
      f.round mode sat false r (-((e - odd) / 2) - (k : Nat)) (r * r * m' != 2 ^ (2 * k))

/-! ## Comparison, minimum, maximum, classes (R84, R283, R287) -/

/-- The order of two values; none when either is NaN. −0 equals +0. -/
def FVal.cmp (x y : FVal) : Option Ordering :=
  match x, y with
  | .nan, _ | _, .nan => none
  | .inf a, .inf b => some (if a = b then .eq else if a then .lt else .gt)
  | .inf a, _ => some (if a then .lt else .gt)
  | _, .inf b => some (if b then .gt else .lt)
  | .fin a m e, .fin b k d =>
    let lo := min e d
    some (compare (signedAt a m e lo) (signedAt b k d lo))

def FVal.isNeg : FVal → Bool
  | .nan => false
  | .inf n => n
  | .fin n _ _ => n

/-- minimumNumber or maximumNumber; −0 orders below +0 (R84). -/
def Fmt.minMax (f : Fmt) (wantMax : Bool) (x y : Nat) : Nat :=
  match f.val x, f.val y with
  | .nan, .nan => f.nan
  | .nan, _ => y
  | _, .nan => x
  | u, v =>
    let less := match u.cmp v with
      | some .lt => true
      | some .eq => u.isNeg && !v.isNeg
      | _ => false
    if less = wantMax then y else x

/-- The relation of `FCMP` (R287): 0 `EQ`, 1 `LT`, 2 `LE`, 3 `UN`. -/
def Fmt.rel (f : Fmt) (r : BitVec 2) (x y : Nat) : Bool :=
  match (f.val x).cmp (f.val y), r with
  | none, 3 => true
  | none, _ => false
  | some o, 0 => o == .eq
  | some o, 1 => o == .lt
  | some o, 2 => o != .gt
  | some _, _ => false

/-- The class mask of `FCLASS` (R283). -/
def Fmt.classOf (f : Fmt) (x : Nat) : Word :=
  match f.val x with
  | .nan => 256
  | .inf neg => if neg then 1 else 128
  | .fin neg m _ =>
    if m = 0 then (if neg then 8 else 16)
    else if m < 2 ^ f.fw then (if neg then 4 else 32)
    else (if neg then 2 else 64)

/-- `FRND` (R282). -/
def Fmt.rint (f : Fmt) (mode : BitVec 2) (x : Nat) : Nat :=
  match f.val x with
  | .nan => f.nan
  | .inf _ => x
  | .fin neg m e => if 0 ≤ e then x else f.round mode false neg (roundShift mode neg m (-e).toNat false) 0 false

/-! ## Conversions (R88) -/

/-- A clamped integer. -/
def clampInt (v lo hi : Int) : Int := if v < lo then lo else if hi < v then hi else v

/-- A value as an integer in a mode, clamped; NaN gives 0. -/
def FVal.toInt (mode : BitVec 2) (lo hi : Int) : FVal → Int
  | .nan => 0
  | .inf neg => if neg then lo else hi
  | .fin neg m e =>
    let q : Int := if 0 ≤ e then m * 2 ^ e.toNat else roundShift mode neg m (-e).toNat false
    clampInt (if neg then -q else q) lo hi

/-- An integer as a value: 0 is +0. -/
def FVal.ofInt (v : Int) : FVal := .fin (v < 0) v.natAbs 0

/-- The types of `CVT` by code (R255): an integer type with its signedness and width, or a format. -/
inductive NumTy where
  | int (signed : Bool) (w : Nat)
  | flt (f : Fmt)
  deriving DecidableEq, Repr

def numTy (c : BitVec 4) : NumTy :=
  match c.toNat with
  | 0 => .int true 8 | 1 => .int true 16 | 2 => .int true 32 | 3 => .int true 64
  | 4 => .int false 8 | 5 => .int false 16 | 6 => .int false 32 | 7 => .int false 64
  | 8 => .flt .f16 | 9 => .flt .bf16 | 10 => .flt .f32 | 11 => .flt .f64
  | 12 => .flt .e4m3 | _ => .flt .e5m2

def intLo (signed : Bool) (w : Nat) : Int := if signed then -(2 ^ (w - 1) : Nat) else 0
def intHi (signed : Bool) (w : Nat) : Int := if signed then (2 ^ (w - 1) : Nat) - 1 else (2 ^ w : Nat) - 1

/-- The integer a bit pattern denotes. -/
def readInt (signed : Bool) (w n : Nat) : Int :=
  let v := n % 2 ^ w
  if signed && 2 ^ (w - 1) ≤ v then (v : Int) - (2 ^ w : Nat) else v

/-- The low bits of an integer. -/
def wrapInt (w : Nat) (v : Int) : Nat := (v % (2 ^ w : Nat)).toNat

/-- `CVT`: the result as the destination register or pair holds it (R88, R288, R289). -/
def convert (target source : BitVec 4) (given : Option (BitVec 2)) (sat : Bool) (x : Nat) : Nat :=
  match numTy source, numTy target with
  | .int s w, .int s' w' => place s' w' (clampInt (readInt s w x) (intLo s' w') (intHi s' w'))
  | .int s w, .flt f => f.emit (given.getD 0) sat (FVal.ofInt (readInt s w x))
  | .flt f, .int s' w' => place s' w' ((f.val (x % 2 ^ f.width)).toInt (given.getD 1) (intLo s' w') (intHi s' w'))
  | .flt f, .flt f' => f'.emit (given.getD 0) sat (f.val (x % 2 ^ f.width))
where
  /-- Signed narrow targets are sign-extended, others zero-extended (R289). -/
  place (signed : Bool) (w : Nat) (v : Int) : Nat :=
    if w = 64 then wrapInt 64 v else wrapInt 32 (if signed then v else (wrapInt w v : Nat))

/-! ## Block floating point (R78 to R80) -/

/-- The value of one element of a block. -/
def bfpVal (w E : Nat) (m : Int) : FVal :=
  if E = 255 then .nan else .fin (m < 0) m.natAbs ((E : Int) - 127 - (w - 1 : Nat))

/-- The exponent and the mantissas of a converted block of binary32 encodings (R80). -/
def bfpBlock (w : Nat) (xs : List Nat) : Nat × List Int :=
  let vs := xs.map Fmt.f32.val
  let bad := vs.any fun v => match v with | .fin _ _ _ => false | _ => true
  if bad then (255, xs.map fun _ => 0)
  else
    let top := vs.foldl (fun t v => match v with
      | .fin _ m e => if m = 0 then t else max t (some (e + Nat.log2 m))
      | _ => t) (none : Option Int)
    match top with
    | none => (0, xs.map fun _ => 0)
    | some t =>
      let E : Int := clampInt (t + 128) 0 254
      let q : Int := E - 127 - (w - 1 : Nat)
      (E.toNat, vs.map fun v =>
        match v with
        | .fin neg m e =>
          let r : Nat := if q ≤ e then m * 2 ^ (e - q).toNat else roundShift 0 neg m (q - e).toNat false
          clampInt (if neg then -(r : Int) else r) (-(2 ^ (w - 1) : Nat)) ((2 ^ (w - 1) : Nat) - 1)
        | _ => 0)

/-! ## Exact sums (R91, R94, R95) -/

/-- An exact dyadic number: v × 2^e. -/
structure Dy where
  v : Int
  e : Int
  deriving DecidableEq, Repr

def Dy.zero : Dy := ⟨0, 0⟩
def Dy.add (x y : Dy) : Dy :=
  let lo := min x.e y.e
  ⟨x.v * 2 ^ (x.e - lo).toNat + y.v * 2 ^ (y.e - lo).toNat, lo⟩
def FVal.dy : FVal → Dy
  | .fin neg m e => ⟨if neg then -(m : Int) else m, e⟩
  | _ => Dy.zero
/-- As a value; an exact zero is +0 (R91). -/
def Dy.val (d : Dy) : FVal := .fin (d.v < 0) d.v.natAbs d.e

/-- One chunk added to an accumulator in binary32 (R91). -/
def chunkAdd (acc : Word) (ps : List FVal) : Word :=
  let a := Fmt.f32.val acc.toNat
  let nan := ps.any fun p => p == .nan
  let pos := ps.any fun p => p == .inf false
  let neg := ps.any fun p => p == .inf true
  let r :=
    if nan || (pos && neg) then FVal.nan
    else if pos || neg then a.add 0 (.inf neg)
    else a.add 0 (ps.foldl (fun d p => d.add p.dy) Dy.zero).val
  BitVec.ofNat 32 (Fmt.f32.emit 0 false r)

/-- One level of the pairwise tree (R94). -/
def pairLevel (add : Nat → Nat → Nat) : List Nat → List Nat
  | a :: b :: t => add a b :: pairLevel add t
  | l => l
/-- The pairwise tree over 64 values (R94). -/
def pairTree (add : Nat → Nat → Nat) (xs : List Nat) : Nat :=
  ((upto 6).foldl (fun l _ => pairLevel add l) xs).getD 0 0

/-- The sum of squares or products in the order of R95: 64 partial sums, then the tree, in binary64. -/
def orderedDot (ps : List (Nat × Nat)) : Nat :=
  let f := Fmt.f64
  let sums := ps.foldl (fun (acc : List Nat × Nat) p =>
    (acc.1.set acc.2 (f.add 0 false (acc.1.getD acc.2 0) (f.mul 0 false p.1 p.2)), (acc.2 + 1) % 64))
    (List.replicate 64 0, 0)
  pairTree (f.add 0 false) sums.1

/-! ## Special functions within their bounds (R89 to R291) -/

/-- 2π and ln 2 with 340 bits below the point. -/
def twoPiFix : Nat := 
  0x6487ed5110b4611a62633145c06e0e68948127044533e63a0105df531d89cd9128a5043cc71a026ef7ca8c
def ln2Fix : Nat := 
  0xb17217f7d1cf79abc9e3b39803f2f6af40f343267298b62d8a0d175b8baafa2be7b876206debac9855955

/-- Σ termₙ with termₙ₊₁ = termₙ × x / n, every `stride`-th n, in fixed point with 340 bits: the exponential series. -/
def seriesFix (x : Nat) : Nat → Nat → Nat → Nat → Nat
  | 0, _, _, acc => acc
  | fuel + 1, n, term, acc => seriesFix x fuel (n + 1) (term * x / 2 ^ 340 / n) (acc + term)

/-- Σ over every second term of the exponential series from term `n`, with the given sign change. -/
def halfSeries (x : Nat) (alt : Bool) : Nat → Nat → Int → Int → Int
  | 0, _, _, acc => acc
  | fuel + 1, n, term, acc =>
    let t := term * (x : Int) / 2 ^ 340 / (n : Int) * (x : Int) / 2 ^ 340 / ((n + 1 : Nat) : Int)
    halfSeries x alt fuel (n + 2) (if alt then -t else t) (acc + term)

/-- Σ z^(2k+1) / (2k+1): the series of the inverse hyperbolic tangent. -/
def atanhFix (z2 : Nat) : Nat → Nat → Nat → Nat → Nat
  | 0, _, _, acc => acc
  | fuel + 1, n, p, acc => atanhFix z2 fuel (n + 2) (p * z2 / 2 ^ 340) (acc + p / n)

def fixOf (m : Nat) (e : Int) : Nat := if -340 ≤ e then m * 2 ^ (e + 340).toNat else m / 2 ^ (-340 - e).toNat

/-- A close rational value of a special function at a finite operand of suitable range, 340 bits below the point: its
distance from the function is far below the bounds of R291. -/
def sfuNear (op : Nat) (neg : Bool) (m : Nat) (e : Int) : Int :=
  let x := fixOf m e
  match op with
  | 2 =>
    -- 2^x for |x| at most 200
    let k : Nat := x / 2 ^ 340
    let f : Nat := x % 2 ^ 340
    let k' : Int := if neg then -(k : Int) - (if f = 0 then 0 else 1) else k
    let f' : Nat := if neg && f != 0 then 2 ^ 340 - f else f
    let r : Nat := seriesFix (f' * ln2Fix / 2 ^ 340) 90 1 (2 ^ 340) 0
    ((if 0 ≤ k' then r * 2 ^ k'.toNat else r / 2 ^ (-k').toNat : Nat) : Int)
  | 3 =>
    let k := Nat.log2 m
    let y : Nat := m * 2 ^ 340 / 2 ^ k
    let z : Nat := (y - 2 ^ 340) * 2 ^ 340 / (y + 2 ^ 340)
    let l : Nat := 2 * atanhFix (z * z / 2 ^ 340) 110 1 z 0 * 2 ^ 340 / ln2Fix
    (e + (k : Int)) * ((2 ^ 340 : Nat) : Int) + (l : Int)
  | 4 =>
    let r := x % twoPiFix
    let v := halfSeries (r : Nat) true 70 2 (r : Int) 0
    if neg then -v else v
  | 5 => halfSeries (x % twoPiFix) true 70 1 ((2 ^ 340 : Nat) : Int) 0
  | _ =>
    let sh := halfSeries x false 120 2 x 0
    let ch := halfSeries x false 120 1 (2 ^ 340 : Nat) 0
    let v := sh * (2 ^ 340 : Nat) / ch
    if neg then -v else v

/-- An encoding of binary32 as a fixed-point number; none for NaN and infinities. -/
def f32Fix (n : Nat) : Option Int :=
  match Fmt.f32.val n with
  | .fin neg m e => some (if neg then -(fixOf m e : Int) else fixOf m e)
  | _ => none

/-- One unit in the last place of a fixed-point value in binary32, 340 bits below the point (R291). -/
def ulpFix (a : Int) : Int :=
  let n := a.natAbs
  if n < 2 ^ (340 - 126) then (2 ^ (340 - 149) : Nat) else (2 ^ (Nat.log2 n - 23) : Nat)

/-- The bound of R291 at a close value of the function, with the distance of that value for slack. -/
def sfuBound (op : Nat) (m : Nat) (e : Int) (a : Int) : Int :=
  let x := fixOf m e
  if op = 4 || op = 5 then (2 ^ 318 + 2 ^ 150 : Nat)
  else if op = 3 && 2 ^ 339 ≤ x && x ≤ 2 ^ 341 then (2 ^ 318 + 2 ^ 40 : Nat)
  else 2 * ulpFix a + (a.natAbs / 2 ^ 300 + 2 ^ 40 : Nat)

/-- Whether an encoding is a result R291 allows near a value of the function. -/
def sfuAllows (op m : Nat) (e a : Int) (r : Nat) : Bool :=
  match f32Fix r with
  | some v => (v - a).natAbs ≤ (sfuBound op m e a).natAbs &&
      (op = 2 || op = 3 || v.natAbs ≤ 2 ^ 340) && !(op = 2 && r / 2 ^ 31 % 2 = 1)
  | none => op = 2 && r = 0x7F800000 && (2 ^ 468 : Int) - a ≤ 2 * ulpFix a

/-- The fixed function of R89: the free function where R291 allows its value, else the nearest value. -/
def sfuPick (op : Nat) (x : Word) (m : Nat) (e a : Int) : Nat :=
  let r := (Config.sfuRaw op x).toNat
  if sfuAllows op m e a r then r
  else Fmt.f32.round 0 false (a < 0) a.natAbs (-340) false

/-- `EXP2`, `LOG2`, `SIN`, `COS` and `TANH` by minor 2 to 6 (R290, R291). -/
def sfu32 (op : Nat) (sat : Bool) (x : Word) : Nat :=
  let f := Fmt.f32
  match op, f.val x.toNat with
  | _, .nan => f.nan
  | 2, .inf neg => if neg then 0 else f.infCode
  | 2, .fin neg m e =>
    let xi := fixOf m e
    let big := (if sat then f.maxFin else f.infCode)
    if m = 0 then 0x3F800000
    else if !neg && 128 * 2 ^ 340 ≤ xi then big
    else if xi % 2 ^ 340 = 0 && xi ≤ 149 * 2 ^ 340 then
      f.round 0 sat false 1 (if neg then -((xi / 2 ^ 340 : Nat) : Int) else (xi / 2 ^ 340 : Nat)) false
    else
      let r := if 200 * 2 ^ 340 < xi then sfuPick 2 x m e 0 else sfuPick 2 x m e (sfuNear 2 neg m e)
      if r = f.infCode then big else r
  | 3, .inf neg => if neg then f.nan else f.infCode
  | 3, .fin neg m e =>
    if m = 0 then f.signed true f.infCode
    else if neg then f.nan
    else if m = 2 ^ Nat.log2 m then f.emit 0 false (FVal.ofInt (e + Nat.log2 m))
    else sfuPick 3 x m e (sfuNear 3 false m e)
  | 4, .inf _ => f.nan
  | 4, .fin neg m e => if m = 0 then f.signed neg 0 else sfuPick 4 x m e (sfuNear 4 neg m e)
  | 5, .inf _ => f.nan
  | 5, .fin neg m e => if m = 0 then 0x3F800000 else sfuPick 5 x m e (sfuNear 5 neg m e)
  | _, .inf neg => f.signed neg 0x3F800000
  | _, .fin neg m e =>
    if m = 0 then f.signed neg 0
    else if 10 * 2 ^ 340 ≤ fixOf m e then f.signed neg 0x3F800000
    else sfuPick 6 x m e (sfuNear 6 neg m e)

end Sys2Proof.Machine
end

