-- ==== Sys2Proof/Machine/Flags.lean ====
section
/-!
DEFINITION. The machine's flags are its predicates: the relations of the compares (R280, R287), and how a compare writes its
two predicates. Exact integer results, wrapped or clamped (R83, R85).
-/
namespace Sys2Proof.Machine

/-- An operand read as signed or, with `u`, as unsigned. -/
def rdInt {n : Nat} (u : Bool) (x : BitVec n) : Int := if u then (x.toNat : Int) else x.toInt

/-- An exact integer result in n bits: wrapped, or clamped to the range of the type (R83, R85). -/
def intResult (n : Nat) (u sat : Bool) (v : Int) : BitVec n :=
  BitVec.ofInt n (if sat then clampInt v (intLo (!u) n) (intHi (!u) n) else v)

/-- The relations of the integer compares by minor: 0 to 4 on registers, 5 to 9 on pairs (R254, R280). -/
def icmpRel (m : Nat) (x y : Word) (xd yd : DWord) : Bool :=
  match m with
  | 0 => x == y
  | 1 => x.slt y
  | 2 => x.sle y
  | 3 => x.ult y
  | 4 => x.ule y
  | 5 => xd == yd
  | 6 => xd.slt yd
  | 7 => xd.sle yd
  | 8 => xd.ult yd
  | _ => xd.ule yd

/-- A compare writes its relation to P, then its complement to Q (R280). -/
def Thread.compare (t : Thread) (p q : Pred3) (c : Bool) : Thread := (t.setPred p c).setPred q (!c)

end Sys2Proof.Machine
end

