-- ==== Sys2Proof/WellFormed.lean ====
section
/-!
DEFINITION. Well-formed instructions: the reserved field values and the register parities that a word by itself shows
(R415 codes 0x04 and 0x05). Causes that depend on a register, on a pending hint or on the place of a word are checked by
the meanings.
-/
namespace Sys2Proof

/-- The field's low bit, when the register number is odd (R8). -/
def oddAt (r : Reg6) (lo : Nat) : List Nat := if r.toNat % 2 = 0 then [] else [lo]
/-- The field's low bit, when the register number is no multiple of 4. -/
def quadAt (r : Reg6) (lo : Nat) : List Nat := if r.toNat % 4 = 0 then [] else [lo]
/-- The field's low bit, when the value is at or above the bound. -/
def geAt (v bound lo : Nat) : List Nat := if v < bound then [] else [lo]

/-- The groups of an atomic's operand and destination by its operation (R314): 0 one register, 1 a pair, 2 four. -/
def atomGroupB (p : BitVec 4) : Nat :=
  match p.toNat with
  | 1 => 1 | 3 => 1 | 14 => 1 | 15 => 2 | _ => 0
def atomGroupD (p : BitVec 4) : Nat :=
  match p.toNat with
  | 1 => 1 | 3 => 1 | 15 => 1 | _ => 0
/-- A group field of the wrong parity. -/
def groupAt (k : Nat) (r : Reg6) (lo : Nat) : List Nat :=
  match k with
  | 0 => [] | 1 => oddAt r lo | _ => quadAt r lo
/-- The data register of a load or store by its width code (R252). -/
def widthAt (z : BitVec 3) (r : Reg6) : List Nat :=
  match z.toNat with
  | 3 => oddAt r 19 | 4 => quadAt r 19 | _ => []

/-- Whether a type code of R255 is 64 bits wide. -/
def wideType (t : BitVec 4) : Bool := t == 3#4 || t == 7#4 || t == 11#4

/-- The low bits of the fields that hold a reserved value (R415 code 0x04), lowest first. -/
def Instr.badValues : Instr → List Nat
  | .icmp f => geAt f.m.toNat 10 0
  | .cvt f => geAt f.y.toNat 14 0 ++ geAt f.t.toNat 14 9
  | .sread f => geAt f.a.toNat 12 13
  | .join f => geAt f.a.toNat 12 13
  | .leave f => geAt f.a.toNat 12 13
  | .waitm f => geAt f.a.toNat 12 13
  | .waitmt f => geAt f.a.toNat 12 13
  | .mand f => geAt f.b.toNat 12 7 ++ geAt f.a.toNat 12 13 ++ geAt f.d.toNat 12 19
  | .mor f => geAt f.b.toNat 12 7 ++ geAt f.a.toNat 12 13 ++ geAt f.d.toNat 12 19
  | .mxor f => geAt f.b.toNat 12 7 ++ geAt f.a.toNat 12 13 ++ geAt f.d.toNat 12 19
  | .mandn f => geAt f.b.toNat 12 7 ++ geAt f.a.toNat 12 13 ++ geAt f.d.toNat 12 19
  | .mmov f => geAt f.a.toNat 12 13 ++ geAt f.d.toNat 12 19
  | .mset f => geAt f.d.toNat 12 19
  | .mget f => geAt f.b.toNat 3 7 ++ geAt f.a.toNat 12 13
  | .pref f => geAt f.z.toNat 7 7 ++ geAt f.t.toNat 2 19
  | .ld f => geAt f.z.toNat 7 7
  | .ldl f => geAt f.z.toNat 7 7
  | .lds f => geAt f.z.toNat 7 7
  | .ldc f => geAt f.z.toNat 7 7
  | .ldx f => geAt f.z.toNat 7 7
  | .st f => geAt f.z.toNat 5 7
  | .stl f => geAt f.z.toNat 5 7
  | .sts f => geAt f.z.toNat 5 7
  | .stc f => geAt f.z.toNat 5 7
  | .stx f => geAt f.z.toNat 5 7
  | .red f => geAt f.p.toNat 13 0
  | .reds f => geAt f.p.toNat 13 0
  | .redc f => geAt f.p.toNat 13 0
  | .redx f => geAt f.p.toNat 13 0
  | .mms f => geAt f.d.toNat 4 19
  | .ast f => geAt f.b.toNat 8 7 ++ geAt f.d.toNat 4 19
  | .ald f => geAt f.d.toNat 4 19
  | .azero f => geAt f.d.toNat 4 19
  | .prog f => geAt f.a.toNat 8 13
  | _ => []

/-- The low bits of the register fields of the wrong parity (R415 code 0x05), lowest first. -/
def Instr.oddFields : Instr → List Nat
  | .iadd64 f => oddAt f.b 7 ++ oddAt f.a 13 ++ oddAt f.d 19
  | .isub64 f => oddAt f.b 7 ++ oddAt f.a 13 ++ oddAt f.d 19
  | .imul64 f => oddAt f.b 7 ++ oddAt f.a 13 ++ oddAt f.d 19
  | .imulh64 f => oddAt f.b 7 ++ oddAt f.a 13 ++ oddAt f.d 19
  | .imin64 f => oddAt f.b 7 ++ oddAt f.a 13 ++ oddAt f.d 19
  | .imax64 f => oddAt f.b 7 ++ oddAt f.a 13 ++ oddAt f.d 19
  | .div64 f => oddAt f.b 7 ++ oddAt f.a 13 ++ oddAt f.d 19
  | .rem64 f => oddAt f.b 7 ++ oddAt f.a 13 ++ oddAt f.d 19
  | .shlW64 f => oddAt f.a 13 ++ oddAt f.d 19
  | .shrW64 f => oddAt f.a 13 ++ oddAt f.d 19
  | .sarI64 f => oddAt f.a 13 ++ oddAt f.d 19
  | .icmp f => if 5 ≤ f.m.toNat ∧ f.m.toNat ≤ 9 then oddAt f.b 7 ++ oddAt f.a 13 else []
  | .faddF64 f => oddAt f.b 7 ++ oddAt f.a 13 ++ oddAt f.d 19
  | .fsubF64 f => oddAt f.b 7 ++ oddAt f.a 13 ++ oddAt f.d 19
  | .fmulF64 f => oddAt f.b 7 ++ oddAt f.a 13 ++ oddAt f.d 19
  | .fdivF64 f => oddAt f.b 7 ++ oddAt f.a 13 ++ oddAt f.d 19
  | .fsqrtF64 f => oddAt f.a 13 ++ oddAt f.d 19
  | .fminF64 f => oddAt f.b 7 ++ oddAt f.a 13 ++ oddAt f.d 19
  | .fmaxF64 f => oddAt f.b 7 ++ oddAt f.a 13 ++ oddAt f.d 19
  | .fabsF64 f => oddAt f.a 13 ++ oddAt f.d 19
  | .fnegF64 f => oddAt f.a 13 ++ oddAt f.d 19
  | .fcpysF64 f => oddAt f.b 7 ++ oddAt f.a 13 ++ oddAt f.d 19
  | .frndF64 f => oddAt f.a 13 ++ oddAt f.d 19
  | .fclassF64 f => oddAt f.a 13
  | .fcmp f => if f.t then oddAt f.b 7 ++ oddAt f.a 13 else []
  | .cvt f => (if wideType f.y then oddAt f.a 13 else []) ++ (if wideType f.t then oddAt f.d 19 else [])
  | .recipF64 f => oddAt f.a 13 ++ oddAt f.d 19
  | .rrootF64 f => oddAt f.a 13 ++ oddAt f.d 19
  | .movD f => oddAt f.a 13 ++ oddAt f.d 19
  | .sread f => if f.a = 7#6 ∨ f.a = 8#6 ∨ f.a = 9#6 then oddAt f.d 19 else []
  | .voteMap f => oddAt f.d 19
  | .ffmaF64 f => oddAt f.c 1 ++ oddAt f.b 7 ++ oddAt f.a 13 ++ oddAt f.d 19
  | .brx f => oddAt f.a 13
  | .callx f => oddAt f.a 13 ++ oddAt f.d 19
  | .ret f => oddAt f.a 13
  | .mset f => oddAt f.a 13
  | .mget f => oddAt f.d 19
  | .tagwany f => oddAt f.a 13 ++ oddAt f.d 19
  | .tagwall f => oddAt f.a 13
  | .tagfirst f => oddAt f.a 13
  | .pref f => oddAt f.a 13
  | .ld f => oddAt f.a 13 ++ widthAt f.z f.d
  | .st f => oddAt f.a 13 ++ widthAt f.z f.d
  | .ldl f => widthAt f.z f.d
  | .stl f => widthAt f.z f.d
  | .lds f => widthAt f.z f.d
  | .sts f => widthAt f.z f.d
  | .ldc f => widthAt f.z f.d
  | .stc f => widthAt f.z f.d
  | .ldx f => widthAt f.z f.d
  | .stx f => widthAt f.z f.d
  | .atom f => groupAt (atomGroupB f.p) f.b 7 ++ oddAt f.a 13 ++ groupAt (atomGroupD f.p) f.d 19
  | .red f => groupAt (atomGroupB f.p) f.b 7 ++ oddAt f.a 13
  | .atoms f => groupAt (atomGroupB f.p) f.b 7 ++ groupAt (atomGroupD f.p) f.d 19
  | .atomc f => groupAt (atomGroupB f.p) f.b 7 ++ groupAt (atomGroupD f.p) f.d 19
  | .atomx f => groupAt (atomGroupB f.p) f.b 7 ++ groupAt (atomGroupD f.p) f.d 19
  | .reds f => groupAt (atomGroupB f.p) f.b 7
  | .redc f => groupAt (atomGroupB f.p) f.b 7
  | .redx f => groupAt (atomGroupB f.p) f.b 7
  | .cpy f => quadAt f.b 7 ++ quadAt f.a 13
  | .cpyg f => quadAt f.b 7 ++ quadAt f.a 13 ++ quadAt f.d 19
  | .cpys f => quadAt f.b 7 ++ quadAt f.a 13 ++ quadAt f.d 19
  | .tcfg f => oddAt f.a 13
  | .wld f => oddAt f.b 7
  | .mms f => oddAt f.b 7
  | .scld f => oddAt f.b 7
  | .msend f => oddAt f.a 13
  | .rput f => quadAt f.a 13
  | .rget f => quadAt f.a 13
  | .ratom f => quadAt f.a 13
  | .tspawn f => oddAt f.a 13
  | .launch f => oddAt f.a 13
  | .subq f => oddAt f.d 19
  | .icinv f => oddAt f.a 13
  | .tlbinv f => oddAt f.a 13
  | _ => []

/-- No field of the instruction holds a reserved value or a register of the wrong parity. -/
def Instr.wf (i : Instr) : Bool := i.badValues.isEmpty && i.oddFields.isEmpty

end Sys2Proof
end

