-- ==== Sys2Proof/Decode.lean ====
section
/-!
DEFINITION. Decoding of instruction words and dictionary codes, total on every word, and after it the encoder, from the
formats of R251 and the opcode map of R253 to R256. A word that no row of the map admits is rejected with the code and bit
of its class 0x02 trap (R413, R415).
-/
namespace Sys2Proof

/-- A class 0x02 rejection: its code in R415 and the lowest bit of the field that raises it (R413). -/
structure EncFault where
  code : Nat
  bit : Nat
  deriving DecidableEq, Repr, Inhabited

/-! ## Fields of a word -/

/-- Bits [lo + n − 1 : lo] of a word. -/
def bitsAt (w : Word) (lo n : Nat) : BitVec n := BitVec.ofNat n (w.toNat / 2 ^ lo)
/-- One bit of a word. -/
def bitAt (w : Word) (lo : Nat) : Bool := w.toNat / 2 ^ lo % 2 == 1
def majorOf (w : Word) : Nat := (bitsAt w 25 6).toNat
def minorOf (w : Word) : Nat := (bitsAt w 0 4).toNat
/-- A bit as a multiple of a power of two, for the minors that hold one. -/
def bitNat (b : Bool) (v : Nat) : BitVec 4 := BitVec.ofNat 4 (b.toNat * v)

def readR3 (w : Word) : R3 := ⟨bitAt w 31, bitsAt w 19 6, bitsAt w 13 6, bitsAt w 7 6, bitsAt w 4 3⟩
def readR3u (u : Nat) (w : Word) : R3u :=
  ⟨bitAt w 31, bitsAt w 19 6, bitsAt w 13 6, bitsAt w 7 6, bitsAt w 4 3, bitAt w u⟩
def readR2 (w : Word) : R2 := ⟨bitAt w 31, bitsAt w 19 6, bitsAt w 13 6, bitsAt w 4 3⟩
def readR1 (w : Word) : R1 := ⟨bitAt w 31, bitsAt w 13 6, bitsAt w 4 3⟩
def readR0 (w : Word) : R0 := ⟨bitAt w 31, bitsAt w 4 3⟩
def readRd (w : Word) : Rd := ⟨bitAt w 31, bitsAt w 19 6, bitsAt w 4 3⟩
def readRab (w : Word) : Rab := ⟨bitAt w 31, bitsAt w 13 6, bitsAt w 7 6, bitsAt w 4 3⟩
def readRs (w : Word) : Rs := ⟨bitAt w 31⟩
def readRsa (w : Word) : Rsa := ⟨bitAt w 31, bitsAt w 13 6⟩
def readPQ (w : Word) : PQ :=
  ⟨bitAt w 31, bitsAt w 22 3, bitsAt w 19 3, bitsAt w 13 6, bitsAt w 7 6, bitsAt w 4 3⟩
def readPQm (w : Word) : PQm :=
  ⟨bitAt w 31, bitsAt w 22 3, bitsAt w 19 3, bitsAt w 13 6, bitsAt w 7 6, bitsAt w 4 3, bitsAt w 0 4⟩
def readPQf (w : Word) : PQf :=
  ⟨bitAt w 31, bitsAt w 22 3, bitsAt w 19 3, bitsAt w 13 6, bitsAt w 7 6, bitsAt w 4 3, bitAt w 2, bitsAt w 0 2⟩
def readPQi (w : Word) : PQi :=
  ⟨bitAt w 31, bitsAt w 22 3, bitsAt w 19 3, bitsAt w 13 6, bitsAt w 3 10, bitsAt w 0 3⟩
def readCv (w : Word) : Cv :=
  ⟨bitAt w 31, bitsAt w 19 6, bitsAt w 13 6, bitsAt w 9 4, bitsAt w 4 3, bitsAt w 0 4⟩
def readGI (w : Word) : GI := ⟨bitAt w 31, bitsAt w 19 6, bitsAt w 13 6, bitsAt w 3 10, bitsAt w 0 3⟩
def readGC (w : Word) : GC :=
  ⟨bitAt w 31, bitsAt w 19 6, bitsAt w 13 6, bitsAt w 10 3, bitsAt w 3 7, bitsAt w 0 3⟩
def readGCd (w : Word) : GCd := ⟨bitAt w 31, bitsAt w 19 6, bitsAt w 10 3, bitsAt w 3 7, bitsAt w 0 3⟩
def readG4 (w : Word) : G4 :=
  ⟨bitAt w 31, bitsAt w 19 6, bitsAt w 13 6, bitsAt w 7 6, bitsAt w 1 6, bitAt w 0⟩
def readMV20 (w : Word) : MV20 :=
  ⟨bitAt w 31, bitsAt w 19 6, BitVec.ofNat 20 ((bitAt w 25).toNat * 524288 + w.toNat % 524288)⟩
def readBr (w : Word) : Br := ⟨bitAt w 31, bitsAt w 22 3, bitsAt w 0 22⟩
def readMemF (w : Word) : MemF :=
  ⟨bitAt w 31, bitsAt w 19 6, bitsAt w 13 6, bitsAt w 10 3, bitsAt w 7 3, bitAt w 6, bitsAt w 0 5⟩
def readPrefF (w : Word) : PrefF :=
  ⟨bitAt w 31, bitsAt w 19 6, bitsAt w 13 6, bitsAt w 10 3, bitsAt w 7 3, bitsAt w 0 5⟩
def readAtF (w : Word) : AtF :=
  ⟨bitAt w 31, bitsAt w 19 6, bitsAt w 13 6, bitsAt w 7 6, bitsAt w 5 2, bitsAt w 0 4⟩
def readRedF (w : Word) : RedF := ⟨bitAt w 31, bitsAt w 13 6, bitsAt w 7 6, bitsAt w 5 2, bitsAt w 0 4⟩
def readAtX (w : Word) : AtX := ⟨bitAt w 31, bitsAt w 19 6, bitsAt w 13 6, bitsAt w 7 6, bitsAt w 0 4⟩
def readRedX (w : Word) : RedX := ⟨bitAt w 31, bitsAt w 13 6, bitsAt w 7 6, bitsAt w 0 4⟩
def readHX (w : Word) : HX := ⟨bitAt w 31, bitsAt w 0 25⟩
def readHM (w : Word) : HM :=
  ⟨bitAt w 31, bitAt w 24, bitsAt w 22 2, bitAt w 21, bitAt w 20, bitsAt w 18 2, bitAt w 17, bitsAt w 14 3⟩
def readHD (w : Word) : HD := ⟨bitAt w 31, bitsAt w 0 4⟩
def readHS (w : Word) : HS := ⟨bitAt w 31, bitsAt w 0 2⟩
def readBarF (w : Word) : BarF := ⟨bitAt w 31, bitsAt w 22 3, bitsAt w 13 4⟩
def readTrapF (w : Word) : TrapF := ⟨bitAt w 31, bitsAt w 7 12, bitsAt w 4 3⟩
def readCrF (w : Word) : CrF := ⟨bitAt w 31, bitsAt w 19 6, bitsAt w 7 12, bitsAt w 4 3⟩

/-! ## Packing of the formats -/

def packG3 (sw : Bool) (mj : BitVec 6) (d a b : Reg6) (g : Pred3) (mn : BitVec 4) : Word :=
  BitVec.ofNat 32 (sw.toNat * 2147483648 + mj.toNat * 33554432 + d.toNat * 524288 + a.toNat * 8192 + b.toNat * 128 +
    g.toNat * 16 + mn.toNat)
def packPQ (sw : Bool) (mj : BitVec 6) (p q : Pred3) (a b : Reg6) (g : Pred3) (mn : BitVec 4) : Word :=
  BitVec.ofNat 32 (sw.toNat * 2147483648 + mj.toNat * 33554432 + p.toNat * 4194304 + q.toNat * 524288 +
    a.toNat * 8192 + b.toNat * 128 + g.toNat * 16 + mn.toNat)
def packPI (sw : Bool) (mj : BitVec 6) (p q : Pred3) (a : Reg6) (i : BitVec 10) (g : Pred3) : Word :=
  BitVec.ofNat 32 (sw.toNat * 2147483648 + mj.toNat * 33554432 + p.toNat * 4194304 + q.toNat * 524288 +
    a.toNat * 8192 + i.toNat * 8 + g.toNat)
def packCv (sw : Bool) (mj : BitVec 6) (d a : Reg6) (t : BitVec 4) (g : Pred3) (y : BitVec 4) : Word :=
  BitVec.ofNat 32 (sw.toNat * 2147483648 + mj.toNat * 33554432 + d.toNat * 524288 + a.toNat * 8192 + t.toNat * 512 +
    g.toNat * 16 + y.toNat)
def packCr (sw : Bool) (mj : BitVec 6) (r : Reg6) (x : BitVec 12) (g : Pred3) (mn : BitVec 4) : Word :=
  BitVec.ofNat 32 (sw.toNat * 2147483648 + mj.toNat * 33554432 + r.toNat * 524288 + x.toNat * 128 + g.toNat * 16 +
    mn.toNat)
def packGI (sw : Bool) (mj : BitVec 6) (d a : Reg6) (i : BitVec 10) (g : Pred3) : Word :=
  BitVec.ofNat 32 (sw.toNat * 2147483648 + mj.toNat * 33554432 + d.toNat * 524288 + a.toNat * 8192 + i.toNat * 8 +
    g.toNat)
def packGC (sw : Bool) (mj : BitVec 6) (d a : Reg6) (k : BitVec 3) (w : BitVec 7) (g : Pred3) : Word :=
  BitVec.ofNat 32 (sw.toNat * 2147483648 + mj.toNat * 33554432 + d.toNat * 524288 + a.toNat * 8192 + k.toNat * 1024 +
    w.toNat * 8 + g.toNat)
def packG4 (sw : Bool) (mj : BitVec 6) (d a b c : Reg6) (n : Bool) : Word :=
  BitVec.ofNat 32 (sw.toNat * 2147483648 + mj.toNat * 33554432 + d.toNat * 524288 + a.toNat * 8192 + b.toNat * 128 +
    c.toNat * 2 + n.toNat)
/-- `mj` holds the major's bits [5:1]; its bit 0 is bit 19 of the immediate. -/
def packMV (sw : Bool) (mj : BitVec 5) (d : Reg6) (i : BitVec 20) : Word :=
  BitVec.ofNat 32 (sw.toNat * 2147483648 + mj.toNat * 67108864 + i.toNat / 524288 * 33554432 + d.toNat * 524288 +
    i.toNat % 524288)
def packB (sw : Bool) (mj : BitVec 6) (g : Pred3) (o : BitVec 22) : Word :=
  BitVec.ofNat 32 (sw.toNat * 2147483648 + mj.toNat * 33554432 + g.toNat * 4194304 + o.toNat)
def packM (sw : Bool) (mj : BitVec 6) (d a : Reg6) (g z : BitVec 3) (r : Bool) (i : BitVec 5) : Word :=
  BitVec.ofNat 32 (sw.toNat * 2147483648 + mj.toNat * 33554432 + d.toNat * 524288 + a.toNat * 8192 + g.toNat * 1024 +
    z.toNat * 128 + r.toNat * 64 + i.toNat)
def packAT (sw : Bool) (mj : BitVec 6) (d a b : Reg6) (o : BitVec 2) (r : Bool) (p : BitVec 4) : Word :=
  BitVec.ofNat 32 (sw.toNat * 2147483648 + mj.toNat * 33554432 + d.toNat * 524288 + a.toNat * 8192 + b.toNat * 128 +
    o.toNat * 32 + r.toNat * 16 + p.toNat)
def packH (sw : Bool) (mj : BitVec 6) (p : BitVec 25) : Word :=
  BitVec.ofNat 32 (sw.toNat * 2147483648 + mj.toNat * 33554432 + p.toNat)
def packXM (sw : Bool) (mj : BitVec 6) (r : Bool) (o : BitVec 2) (t c : Bool) (l : BitVec 2) (e : Bool) (g : Pred3) :
    Word :=
  BitVec.ofNat 32 (sw.toNat * 2147483648 + mj.toNat * 33554432 + r.toNat * 16777216 + o.toNat * 4194304 +
    t.toNat * 2097152 + c.toNat * 1048576 + l.toNat * 262144 + e.toNat * 131072 + g.toNat * 16384)
def packBar (sw : Bool) (p : Pred3) (n : BitVec 4) : Word :=
  BitVec.ofNat 32 (sw.toNat * 2147483648 + 46 * 33554432 + p.toNat * 4194304 + n.toNat * 8192)
/-- The minor of a floating-point compare (R254): format in bit 2, relation below it. -/
def fcmpMinor (t : Bool) (r : BitVec 2) : BitVec 4 := BitVec.ofNat 4 (t.toNat * 4 + r.toNat)

/-! ## The opcode map -/

/-- The zero fields of the G3 forms, lowest first. -/
def zB : List (Nat × Nat) := [(7, 6)]
def zD : List (Nat × Nat) := [(19, 6)]
def zBD : List (Nat × Nat) := [(7, 6), (19, 6)]
def zBA : List (Nat × Nat) := [(7, 6), (13, 6)]
def zBAD : List (Nat × Nat) := [(7, 6), (13, 6), (19, 6)]
def zGBAD : List (Nat × Nat) := [(4, 3), (7, 6), (13, 6), (19, 6)]
def zGBD : List (Nat × Nat) := [(4, 3), (7, 6), (19, 6)]

/-- The minors of the integer compare. -/
def decodeIcmp (n : Nat) (w : Word) : Except EncFault Instr :=
  if n < 10 then .ok (.icmp (readPQm w))
  else if n = 10 then .ok (.testW32 (readPQ w))
  else .error ⟨2, 0⟩

/-- The explicit-level atomics by level and ret; level 0 is a reserved value, and the lowest cause of the word is
raised (R413). -/
def decodeAtX (level : Nat) (ret : Bool) (w : Word) : Except EncFault Instr :=
  match level with
  | 1 => .ok (if ret then .atoms (readAtX w) else .reds (readRedX w))
  | 2 => .ok (if ret then .atomc (readAtX w) else .redc (readRedX w))
  | 3 => .ok (if ret then .atomx (readAtX w) else .redx (readRedX w))
  | _ =>
    if !ret && (bitsAt w 19 6).toNat != 0 then .error ⟨3, 19⟩
    else if !ret && 13 ≤ (bitsAt w 0 4).toNat then .error ⟨4, 0⟩
    else .error ⟨4, 5⟩


/-- The word of an instruction, from the encoding tables of R251 to R256; operations of the device and dictionary codes
have none. -/
def encode : Instr → Option Word
  | .iadd f => some (packG3 f.sw 1#6 f.d f.a f.b f.g (0#4 + bitNat f.u 1))
  | .isub f => some (packG3 f.sw 1#6 f.d f.a f.b f.g (2#4 + bitNat f.u 1))
  | .imul f => some (packG3 f.sw 1#6 f.d f.a f.b f.g (4#4 + bitNat f.u 1))
  | .imulh f => some (packG3 f.sw 1#6 f.d f.a f.b f.g (6#4 + bitNat f.u 1))
  | .imin f => some (packG3 f.sw 1#6 f.d f.a f.b f.g (8#4 + bitNat f.u 2))
  | .imax f => some (packG3 f.sw 1#6 f.d f.a f.b f.g (9#4 + bitNat f.u 2))
  | .div f => some (packG3 f.sw 1#6 f.d f.a f.b f.g (12#4 + bitNat f.u 1))
  | .rem f => some (packG3 f.sw 1#6 f.d f.a f.b f.g (14#4 + bitNat f.u 1))
  | .iadd64 f => some (packG3 f.sw 2#6 f.d f.a f.b f.g (0#4 + bitNat f.u 1))
  | .isub64 f => some (packG3 f.sw 2#6 f.d f.a f.b f.g (2#4 + bitNat f.u 1))
  | .imul64 f => some (packG3 f.sw 2#6 f.d f.a f.b f.g (4#4 + bitNat f.u 1))
  | .imulh64 f => some (packG3 f.sw 2#6 f.d f.a f.b f.g (6#4 + bitNat f.u 1))
  | .imin64 f => some (packG3 f.sw 2#6 f.d f.a f.b f.g (8#4 + bitNat f.u 2))
  | .imax64 f => some (packG3 f.sw 2#6 f.d f.a f.b f.g (9#4 + bitNat f.u 2))
  | .div64 f => some (packG3 f.sw 2#6 f.d f.a f.b f.g (12#4 + bitNat f.u 1))
  | .rem64 f => some (packG3 f.sw 2#6 f.d f.a f.b f.g (14#4 + bitNat f.u 1))
  | .andR f => some (packG3 f.sw 3#6 f.d f.a f.b f.g 0#4)
  | .orR f => some (packG3 f.sw 3#6 f.d f.a f.b f.g 1#4)
  | .xorR f => some (packG3 f.sw 3#6 f.d f.a f.b f.g 2#4)
  | .andn f => some (packG3 f.sw 3#6 f.d f.a f.b f.g 3#4)
  | .shl f => some (packG3 f.sw 3#6 f.d f.a f.b f.g 4#4)
  | .shr f => some (packG3 f.sw 3#6 f.d f.a f.b f.g 5#4)
  | .sar f => some (packG3 f.sw 3#6 f.d f.a f.b f.g 6#4)
  | .rol f => some (packG3 f.sw 3#6 f.d f.a f.b f.g 7#4)
  | .popc f => some (packG3 f.sw 3#6 f.d f.a 0#6 f.g 8#4)
  | .clz f => some (packG3 f.sw 3#6 f.d f.a 0#6 f.g 9#4)
  | .brev f => some (packG3 f.sw 3#6 f.d f.a 0#6 f.g 10#4)
  | .shlW64 f => some (packG3 f.sw 3#6 f.d f.a f.b f.g 11#4)
  | .shrW64 f => some (packG3 f.sw 3#6 f.d f.a f.b f.g 12#4)
  | .sarI64 f => some (packG3 f.sw 3#6 f.d f.a f.b f.g 13#4)
  | .iaddImm f => some (packGI f.sw 24#6 f.d f.a f.i f.g)
  | .imulImm f => some (packGI f.sw 25#6 f.d f.a f.i f.g)
  | .andImm f => some (packGI f.sw 26#6 f.d f.a f.i f.g)
  | .orImm f => some (packGI f.sw 27#6 f.d f.a f.i f.g)
  | .xorImm f => some (packGI f.sw 28#6 f.d f.a f.i f.g)
  | .shlImm f => some (packGI f.sw 29#6 f.d f.a f.i f.g)
  | .shrImm f => some (packGI f.sw 30#6 f.d f.a f.i f.g)
  | .sarImm f => some (packGI f.sw 31#6 f.d f.a f.i f.g)
  | .icmp f => some (packPQ f.sw 4#6 f.p f.q f.a f.b f.g f.m)
  | .testW32 f => some (packPQ f.sw 4#6 f.p f.q f.a f.b f.g 10#4)
  | .icmpEqImm f => some (packPI f.sw 32#6 f.p f.q f.a f.i f.g)
  | .icmpLtImm f => some (packPI f.sw 33#6 f.p f.q f.a f.i f.g)
  | .fadd f => some (packG3 f.sw 5#6 f.d f.a f.b f.g 0#4)
  | .fsub f => some (packG3 f.sw 5#6 f.d f.a f.b f.g 1#4)
  | .fmul f => some (packG3 f.sw 5#6 f.d f.a f.b f.g 2#4)
  | .fdiv f => some (packG3 f.sw 5#6 f.d f.a f.b f.g 3#4)
  | .fsqrt f => some (packG3 f.sw 5#6 f.d f.a 0#6 f.g 4#4)
  | .fmin f => some (packG3 f.sw 5#6 f.d f.a f.b f.g 5#4)
  | .fmax f => some (packG3 f.sw 5#6 f.d f.a f.b f.g 6#4)
  | .fabs f => some (packG3 f.sw 5#6 f.d f.a 0#6 f.g 7#4)
  | .fneg f => some (packG3 f.sw 5#6 f.d f.a 0#6 f.g 8#4)
  | .fcpys f => some (packG3 f.sw 5#6 f.d f.a f.b f.g 9#4)
  | .frnd f => some (packG3 f.sw 5#6 f.d f.a 0#6 f.g 10#4)
  | .fclass f => some (packG3 f.sw 5#6 f.d f.a 0#6 f.g 11#4)
  | .faddF64 f => some (packG3 f.sw 6#6 f.d f.a f.b f.g 0#4)
  | .fsubF64 f => some (packG3 f.sw 6#6 f.d f.a f.b f.g 1#4)
  | .fmulF64 f => some (packG3 f.sw 6#6 f.d f.a f.b f.g 2#4)
  | .fdivF64 f => some (packG3 f.sw 6#6 f.d f.a f.b f.g 3#4)
  | .fsqrtF64 f => some (packG3 f.sw 6#6 f.d f.a 0#6 f.g 4#4)
  | .fminF64 f => some (packG3 f.sw 6#6 f.d f.a f.b f.g 5#4)
  | .fmaxF64 f => some (packG3 f.sw 6#6 f.d f.a f.b f.g 6#4)
  | .fabsF64 f => some (packG3 f.sw 6#6 f.d f.a 0#6 f.g 7#4)
  | .fnegF64 f => some (packG3 f.sw 6#6 f.d f.a 0#6 f.g 8#4)
  | .fcpysF64 f => some (packG3 f.sw 6#6 f.d f.a f.b f.g 9#4)
  | .frndF64 f => some (packG3 f.sw 6#6 f.d f.a 0#6 f.g 10#4)
  | .fclassF64 f => some (packG3 f.sw 6#6 f.d f.a 0#6 f.g 11#4)
  | .haddF16 f => some (packG3 f.sw 7#6 f.d f.a f.b f.g 0#4)
  | .hsubF16 f => some (packG3 f.sw 7#6 f.d f.a f.b f.g 1#4)
  | .hmulF16 f => some (packG3 f.sw 7#6 f.d f.a f.b f.g 2#4)
  | .hminF16 f => some (packG3 f.sw 7#6 f.d f.a f.b f.g 3#4)
  | .hmaxF16 f => some (packG3 f.sw 7#6 f.d f.a f.b f.g 4#4)
  | .haddBf16 f => some (packG3 f.sw 7#6 f.d f.a f.b f.g 5#4)
  | .hsubBf16 f => some (packG3 f.sw 7#6 f.d f.a f.b f.g 6#4)
  | .hmulBf16 f => some (packG3 f.sw 7#6 f.d f.a f.b f.g 7#4)
  | .hminBf16 f => some (packG3 f.sw 7#6 f.d f.a f.b f.g 8#4)
  | .hmaxBf16 f => some (packG3 f.sw 7#6 f.d f.a f.b f.g 9#4)
  | .fcmp f => some (packPQ f.sw 8#6 f.p f.q f.a f.b f.g (fcmpMinor f.t f.r))
  | .cvt f => some (packCv f.sw 9#6 f.d f.a f.t f.g f.y)
  | .recipF32 f => some (packG3 f.sw 10#6 f.d f.a 0#6 f.g 0#4)
  | .rrootF32 f => some (packG3 f.sw 10#6 f.d f.a 0#6 f.g 1#4)
  | .exp2 f => some (packG3 f.sw 10#6 f.d f.a 0#6 f.g 2#4)
  | .log2 f => some (packG3 f.sw 10#6 f.d f.a 0#6 f.g 3#4)
  | .sin f => some (packG3 f.sw 10#6 f.d f.a 0#6 f.g 4#4)
  | .cos f => some (packG3 f.sw 10#6 f.d f.a 0#6 f.g 5#4)
  | .tanh f => some (packG3 f.sw 10#6 f.d f.a 0#6 f.g 6#4)
  | .recipF64 f => some (packG3 f.sw 10#6 f.d f.a 0#6 f.g 7#4)
  | .rrootF64 f => some (packG3 f.sw 10#6 f.d f.a 0#6 f.g 8#4)
  | .mov f => some (packG3 f.sw 11#6 f.d f.a 0#6 f.g 0#4)
  | .movD f => some (packG3 f.sw 11#6 f.d f.a 0#6 f.g 1#4)
  | .movFromK f => some (packG3 f.sw 11#6 f.d f.a 0#6 f.g 2#4)
  | .movToK f => some (packG3 f.sw 11#6 f.d f.a 0#6 f.g 3#4)
  | .sread f => some (packG3 f.sw 11#6 f.d f.a 0#6 f.g 4#4)
  | .shflPick f => some (packG3 f.sw 11#6 f.d f.a f.b f.g 5#4)
  | .shflRot f => some (packG3 f.sw 11#6 f.d f.a f.b f.g 6#4)
  | .shflSeg f => some (packG3 f.sw 11#6 f.d f.a f.b f.g 7#4)
  | .shflFlip f => some (packG3 f.sw 11#6 f.d f.a f.b f.g 8#4)
  | .voteEvery f => some (packG3 f.sw 11#6 f.d f.a 0#6 f.g 9#4)
  | .voteSome f => some (packG3 f.sw 11#6 f.d f.a 0#6 f.g 10#4)
  | .voteMap f => some (packG3 f.sw 11#6 f.d f.a 0#6 f.g 11#4)
  | .voteFsum f => some (packG3 f.sw 11#6 f.d f.a 0#6 f.g 12#4)
  | .voteIsum f => some (packG3 f.sw 11#6 f.d f.a 0#6 f.g 13#4)
  | .ffmaF32 f => some (packG4 f.sw 12#6 f.d f.a f.b f.c f.n)
  | .ffmaF64 f => some (packG4 f.sw 13#6 f.d f.a f.b f.c f.n)
  | .hfmaF16 f => some (packG4 f.sw 14#6 f.d f.a f.b f.c f.n)
  | .hfmaBf16 f => some (packG4 f.sw 15#6 f.d f.a f.b f.c f.n)
  | .imadI32 f => some (packG4 f.sw 16#6 f.d f.a f.b f.c f.n)
  | .imadW32 f => some (packG4 f.sw 17#6 f.d f.a f.b f.c f.n)
  | .faddBank f => some (packGC f.sw 18#6 f.d f.a f.k f.w f.g)
  | .fmulBank f => some (packGC f.sw 19#6 f.d f.a f.k f.w f.g)
  | .ffmac f => some (packGC f.sw 20#6 f.d f.a f.k f.w f.g)
  | .iaddBank f => some (packGC f.sw 21#6 f.d f.a f.k f.w f.g)
  | .movBank f => some (packGC f.sw 22#6 f.d 0#6 f.k f.w f.g)
  | .movf20 f => some (packMV f.sw 17#5 f.d f.i)
  | .movi20 f => some (packMV f.sw 18#5 f.d f.i)
  | .bra f => some (packB f.sw 38#6 f.g f.o)
  | .call f => some (packB f.sw 39#6 f.g f.o)
  | .brx f => some (packG3 f.sw 40#6 0#6 f.a 0#6 f.g 0#4)
  | .callx f => some (packG3 f.sw 40#6 f.d f.a 0#6 f.g 1#4)
  | .ret f => some (packG3 f.sw 40#6 0#6 f.a 0#6 f.g 2#4)
  | .exit f => some (packG3 f.sw 40#6 0#6 0#6 0#6 f.g 3#4)
  | .yield f => some (packG3 f.sw 40#6 0#6 0#6 0#6 f.g 4#4)
  | .nop f => some (packG3 f.sw 40#6 0#6 0#6 0#6 f.g 5#4)
  | .xlit f => some (packH f.sw 41#6 f.p)
  | .xmod f => some (packXM f.sw 42#6 f.r f.o f.t f.c f.l f.e f.g)
  | .dict f => some (packH f.sw 43#6 (f.n.setWidth 25))
  | .sched f => some (packH f.sw 44#6 (f.l.setWidth 25))
  | .join f => some (packG3 f.sw 45#6 0#6 f.a 0#6 f.g 0#4)
  | .leave f => some (packG3 f.sw 45#6 0#6 f.a 0#6 f.g 1#4)
  | .waitm f => some (packG3 f.sw 45#6 0#6 f.a 0#6 f.g 2#4)
  | .waitmt f => some (packG3 f.sw 45#6 f.d f.a f.b f.g 3#4)
  | .mand f => some (packG3 f.sw 45#6 f.d f.a f.b f.g 4#4)
  | .mor f => some (packG3 f.sw 45#6 f.d f.a f.b f.g 5#4)
  | .mxor f => some (packG3 f.sw 45#6 f.d f.a f.b f.g 6#4)
  | .mandn f => some (packG3 f.sw 45#6 f.d f.a f.b f.g 7#4)
  | .mmov f => some (packG3 f.sw 45#6 f.d f.a 0#6 f.g 8#4)
  | .mset f => some (packG3 f.sw 45#6 f.d f.a 0#6 f.g 9#4)
  | .mget f => some (packG3 f.sw 45#6 f.d f.a f.b f.g 10#4)
  | .bar f => some (packBar f.sw f.p f.n)
  | .tbinit f => some (packG3 f.sw 46#6 0#6 f.a f.b f.g 1#4)
  | .tbarrive f => some (packG3 f.sw 46#6 f.d f.a 0#6 f.g 2#4)
  | .tbwait f => some (packG3 f.sw 46#6 0#6 f.a f.b f.g 3#4)
  | .fenceRel f => some (packG3 f.sw 46#6 0#6 0#6 0#6 f.g 4#4)
  | .fenceAcq f => some (packG3 f.sw 46#6 0#6 0#6 0#6 f.g 5#4)
  | .fenceAr f => some (packG3 f.sw 46#6 0#6 0#6 0#6 f.g 6#4)
  | .tagwany f => some (packG3 f.sw 46#6 f.d f.a 0#6 f.g 7#4)
  | .tagwall f => some (packG3 f.sw 46#6 0#6 f.a 0#6 f.g 8#4)
  | .tagfirst f => some (packG3 f.sw 46#6 f.d f.a 0#6 f.g 9#4)
  | .pref f => some (packM f.sw 47#6 f.t f.a f.g f.z false f.i)
  | .ld f => some (packM f.sw 48#6 f.d f.a f.g f.z f.r f.i)
  | .st f => some (packM f.sw 49#6 f.d f.a f.g f.z f.r f.i)
  | .ldl f => some (packM f.sw 50#6 f.d f.a f.g f.z f.r f.i)
  | .stl f => some (packM f.sw 51#6 f.d f.a f.g f.z f.r f.i)
  | .lds f => some (packM f.sw 52#6 f.d f.a f.g f.z f.r f.i)
  | .sts f => some (packM f.sw 53#6 f.d f.a f.g f.z f.r f.i)
  | .ldc f => some (packM f.sw 54#6 f.d f.a f.g f.z f.r f.i)
  | .stc f => some (packM f.sw 55#6 f.d f.a f.g f.z f.r f.i)
  | .ldx f => some (packM f.sw 56#6 f.d f.a f.g f.z f.r f.i)
  | .stx f => some (packM f.sw 57#6 f.d f.a f.g f.z f.r f.i)
  | .atom f => some (packAT f.sw 58#6 f.d f.a f.b f.o true f.p)
  | .red f => some (packAT f.sw 58#6 0#6 f.a f.b f.o false f.p)
  | .atoms f => some (packAT f.sw 59#6 f.d f.a f.b 1#2 true f.p)
  | .atomc f => some (packAT f.sw 59#6 f.d f.a f.b 2#2 true f.p)
  | .atomx f => some (packAT f.sw 59#6 f.d f.a f.b 3#2 true f.p)
  | .reds f => some (packAT f.sw 59#6 0#6 f.a f.b 1#2 false f.p)
  | .redc f => some (packAT f.sw 59#6 0#6 f.a f.b 2#2 false f.p)
  | .redx f => some (packAT f.sw 59#6 0#6 f.a f.b 3#2 false f.p)
  | .cpy f => some (packG3 f.sw 60#6 f.d f.a f.b f.g 0#4)
  | .cpyg f => some (packG3 f.sw 60#6 f.d f.a f.b f.g 1#4)
  | .cpys f => some (packG3 f.sw 60#6 f.d f.a f.b f.g 2#4)
  | .tcfg f => some (packG3 f.sw 61#6 0#6 f.a 0#6 f.g 0#4)
  | .wld f => some (packG3 f.sw 61#6 0#6 f.a f.b f.g 1#4)
  | .wswap f => some (packG3 f.sw 61#6 0#6 0#6 0#6 f.g 2#4)
  | .mms f => some (packG3 f.sw 61#6 f.d f.a f.b f.g 3#4)
  | .ast f => some (packG3 f.sw 61#6 f.d f.a f.b f.g 4#4)
  | .ald f => some (packG3 f.sw 61#6 f.d f.a 0#6 f.g 5#4)
  | .azero f => some (packG3 f.sw 61#6 f.d 0#6 0#6 f.g 6#4)
  | .scld f => some (packG3 f.sw 61#6 f.d f.a f.b f.g 7#4)
  | .batonPass f => some (packG3 f.sw 61#6 0#6 0#6 0#6 0#3 8#4)
  | .batonWait f => some (packG3 f.sw 61#6 0#6 0#6 0#6 0#3 9#4)
  | .solve f => some (packG3 f.sw 62#6 0#6 f.a 0#6 0#3 0#4)
  | .solend f => some (packG3 f.sw 62#6 0#6 0#6 0#6 0#3 1#4)
  | .msend f => some (packG3 f.sw 62#6 0#6 f.a f.b f.g 2#4)
  | .rput f => some (packG3 f.sw 62#6 0#6 f.a f.b f.g 3#4)
  | .rget f => some (packG3 f.sw 62#6 f.d f.a 0#6 f.g 4#4)
  | .ratom f => some (packG3 f.sw 62#6 f.d f.a f.b f.g 5#4)
  | .waitq f => some (packG3 f.sw 62#6 f.d 0#6 0#6 f.g 6#4)
  | .tspawn f => some (packG3 f.sw 62#6 0#6 f.a 0#6 f.g 7#4)
  | .tdone f => some (packG3 f.sw 62#6 0#6 0#6 0#6 f.g 8#4)
  | .launch f => some (packG3 f.sw 62#6 f.d f.a 0#6 f.g 9#4)
  | .publish f => some (packG3 f.sw 62#6 0#6 f.a 0#6 f.g 10#4)
  | .prog f => some (packG3 f.sw 62#6 0#6 f.a 0#6 f.g 11#4)
  | .subpol f => some (packG3 f.sw 62#6 0#6 f.a 0#6 f.g 12#4)
  | .subq f => some (packG3 f.sw 62#6 f.d f.a 0#6 f.g 13#4)
  | .trap f => some (packCr f.sw 63#6 0#6 f.n f.g 0#4)
  | .eret f => some (packG3 f.sw 63#6 0#6 0#6 0#6 f.g 1#4)
  | .crr f => some (packCr f.sw 63#6 f.r f.x f.g 2#4)
  | .crw f => some (packCr f.sw 63#6 f.r f.x f.g 3#4)
  | .icinv f => some (packG3 f.sw 63#6 0#6 f.a f.b f.g 4#4)
  | .tlbinv f => some (packG3 f.sw 63#6 0#6 f.a f.b f.g 5#4)
  | .bist f => some (packG3 f.sw 63#6 f.d f.a 0#6 f.g 6#4)
  | .halt f => some (packG3 f.sw 63#6 0#6 0#6 0#6 f.g 7#4)
  | _ => none

/-- The fields (low bit, width) that the word of an instruction leaves zero (R251, R415 code 0x03), lowest first. -/
def zeroFields : Instr → List (Nat × Nat)
  | .popc _ => zB
  | .clz _ => zB
  | .brev _ => zB
  | .fsqrt _ => zB
  | .fabs _ => zB
  | .fneg _ => zB
  | .frnd _ => zB
  | .fclass _ => zB
  | .fsqrtF64 _ => zB
  | .fabsF64 _ => zB
  | .fnegF64 _ => zB
  | .frndF64 _ => zB
  | .fclassF64 _ => zB
  | .cvt _ => [(7, 2)]
  | .recipF32 _ => zB
  | .rrootF32 _ => zB
  | .exp2 _ => zB
  | .log2 _ => zB
  | .sin _ => zB
  | .cos _ => zB
  | .tanh _ => zB
  | .recipF64 _ => zB
  | .rrootF64 _ => zB
  | .mov _ => zB
  | .movD _ => zB
  | .movFromK _ => zB
  | .movToK _ => zB
  | .sread _ => zB
  | .voteEvery _ => zB
  | .voteSome _ => zB
  | .voteMap _ => zB
  | .voteFsum _ => zB
  | .voteIsum _ => zB
  | .movBank _ => [(13, 6)]
  | .brx _ => zBD
  | .callx _ => zB
  | .ret _ => zBD
  | .exit _ => zBAD
  | .yield _ => zBAD
  | .nop _ => zBAD
  | .xmod _ => [(0, 14)]
  | .dict _ => [(4, 21)]
  | .sched _ => [(2, 23)]
  | .join _ => zBD
  | .leave _ => zBD
  | .waitm _ => zBD
  | .mmov _ => zB
  | .mset _ => zB
  | .bar _ => [(4, 3), (7, 6), (17, 2), (19, 3)]
  | .tbinit _ => zD
  | .tbarrive _ => zB
  | .tbwait _ => zD
  | .fenceRel _ => zBAD
  | .fenceAcq _ => zBAD
  | .fenceAr _ => zBAD
  | .tagwany _ => zB
  | .tagwall _ => zBD
  | .tagfirst _ => zB
  | .pref _ => [(5, 1)]
  | .ld _ => [(5, 1)]
  | .st _ => [(5, 1)]
  | .ldl _ => [(5, 1)]
  | .stl _ => [(5, 1)]
  | .lds _ => [(5, 1)]
  | .sts _ => [(5, 1)]
  | .ldc _ => [(5, 1)]
  | .stc _ => [(5, 1)]
  | .ldx _ => [(5, 1)]
  | .stx _ => [(5, 1)]
  | .red _ => zD
  | .reds _ => zD
  | .redc _ => zD
  | .redx _ => zD
  | .tcfg _ => zBD
  | .wld _ => zD
  | .wswap _ => zBAD
  | .ald _ => zB
  | .azero _ => zBA
  | .batonPass _ => zGBAD
  | .batonWait _ => zGBAD
  | .solve _ => zGBD
  | .solend _ => zGBAD
  | .msend _ => zD
  | .rput _ => zD
  | .rget _ => zB
  | .waitq _ => zBA
  | .tspawn _ => zBD
  | .tdone _ => zBAD
  | .launch _ => zB
  | .publish _ => zBD
  | .prog _ => zBD
  | .subpol _ => zBD
  | .subq _ => zB
  | .trap _ => zD
  | .eret _ => zBAD
  | .icinv _ => zD
  | .tlbinv _ => zD
  | .bist _ => zB
  | .halt _ => zBAD
  | _ => []

/-- The minors of major 1 (R254). -/
def decodeMajor1 (n : Nat) (w : Word) : Except EncFault Instr :=
  match n with
  | 0 => .ok (.iadd (readR3u 0 w))
  | 1 => .ok (.iadd (readR3u 0 w))
  | 2 => .ok (.isub (readR3u 0 w))
  | 3 => .ok (.isub (readR3u 0 w))
  | 4 => .ok (.imul (readR3u 0 w))
  | 5 => .ok (.imul (readR3u 0 w))
  | 6 => .ok (.imulh (readR3u 0 w))
  | 7 => .ok (.imulh (readR3u 0 w))
  | 8 => .ok (.imin (readR3u 1 w))
  | 9 => .ok (.imax (readR3u 1 w))
  | 10 => .ok (.imin (readR3u 1 w))
  | 11 => .ok (.imax (readR3u 1 w))
  | 12 => .ok (.div (readR3u 0 w))
  | 13 => .ok (.div (readR3u 0 w))
  | 14 => .ok (.rem (readR3u 0 w))
  | _ => .ok (.rem (readR3u 0 w))

/-- The minors of major 2 (R254). -/
def decodeMajor2 (n : Nat) (w : Word) : Except EncFault Instr :=
  match n with
  | 0 => .ok (.iadd64 (readR3u 0 w))
  | 1 => .ok (.iadd64 (readR3u 0 w))
  | 2 => .ok (.isub64 (readR3u 0 w))
  | 3 => .ok (.isub64 (readR3u 0 w))
  | 4 => .ok (.imul64 (readR3u 0 w))
  | 5 => .ok (.imul64 (readR3u 0 w))
  | 6 => .ok (.imulh64 (readR3u 0 w))
  | 7 => .ok (.imulh64 (readR3u 0 w))
  | 8 => .ok (.imin64 (readR3u 1 w))
  | 9 => .ok (.imax64 (readR3u 1 w))
  | 10 => .ok (.imin64 (readR3u 1 w))
  | 11 => .ok (.imax64 (readR3u 1 w))
  | 12 => .ok (.div64 (readR3u 0 w))
  | 13 => .ok (.div64 (readR3u 0 w))
  | 14 => .ok (.rem64 (readR3u 0 w))
  | _ => .ok (.rem64 (readR3u 0 w))

/-- The minors of major 3 (R254). -/
def decodeMajor3 (n : Nat) (w : Word) : Except EncFault Instr :=
  match n with
  | 0 => .ok (.andR (readR3 w))
  | 1 => .ok (.orR (readR3 w))
  | 2 => .ok (.xorR (readR3 w))
  | 3 => .ok (.andn (readR3 w))
  | 4 => .ok (.shl (readR3 w))
  | 5 => .ok (.shr (readR3 w))
  | 6 => .ok (.sar (readR3 w))
  | 7 => .ok (.rol (readR3 w))
  | 8 => .ok (.popc (readR2 w))
  | 9 => .ok (.clz (readR2 w))
  | 10 => .ok (.brev (readR2 w))
  | 11 => .ok (.shlW64 (readR3 w))
  | 12 => .ok (.shrW64 (readR3 w))
  | 13 => .ok (.sarI64 (readR3 w))
  | _ => .error ⟨2, 0⟩

/-- The minors of major 5 (R254). -/
def decodeMajor5 (n : Nat) (w : Word) : Except EncFault Instr :=
  match n with
  | 0 => .ok (.fadd (readR3 w))
  | 1 => .ok (.fsub (readR3 w))
  | 2 => .ok (.fmul (readR3 w))
  | 3 => .ok (.fdiv (readR3 w))
  | 4 => .ok (.fsqrt (readR2 w))
  | 5 => .ok (.fmin (readR3 w))
  | 6 => .ok (.fmax (readR3 w))
  | 7 => .ok (.fabs (readR2 w))
  | 8 => .ok (.fneg (readR2 w))
  | 9 => .ok (.fcpys (readR3 w))
  | 10 => .ok (.frnd (readR2 w))
  | 11 => .ok (.fclass (readR2 w))
  | _ => .error ⟨2, 0⟩

/-- The minors of major 6 (R254). -/
def decodeMajor6 (n : Nat) (w : Word) : Except EncFault Instr :=
  match n with
  | 0 => .ok (.faddF64 (readR3 w))
  | 1 => .ok (.fsubF64 (readR3 w))
  | 2 => .ok (.fmulF64 (readR3 w))
  | 3 => .ok (.fdivF64 (readR3 w))
  | 4 => .ok (.fsqrtF64 (readR2 w))
  | 5 => .ok (.fminF64 (readR3 w))
  | 6 => .ok (.fmaxF64 (readR3 w))
  | 7 => .ok (.fabsF64 (readR2 w))
  | 8 => .ok (.fnegF64 (readR2 w))
  | 9 => .ok (.fcpysF64 (readR3 w))
  | 10 => .ok (.frndF64 (readR2 w))
  | 11 => .ok (.fclassF64 (readR2 w))
  | _ => .error ⟨2, 0⟩

/-- The minors of major 7 (R254). -/
def decodeMajor7 (n : Nat) (w : Word) : Except EncFault Instr :=
  match n with
  | 0 => .ok (.haddF16 (readR3 w))
  | 1 => .ok (.hsubF16 (readR3 w))
  | 2 => .ok (.hmulF16 (readR3 w))
  | 3 => .ok (.hminF16 (readR3 w))
  | 4 => .ok (.hmaxF16 (readR3 w))
  | 5 => .ok (.haddBf16 (readR3 w))
  | 6 => .ok (.hsubBf16 (readR3 w))
  | 7 => .ok (.hmulBf16 (readR3 w))
  | 8 => .ok (.hminBf16 (readR3 w))
  | 9 => .ok (.hmaxBf16 (readR3 w))
  | _ => .error ⟨2, 0⟩

/-- The minors of major 10 (R254). -/
def decodeMajor10 (n : Nat) (w : Word) : Except EncFault Instr :=
  match n with
  | 0 => .ok (.recipF32 (readR2 w))
  | 1 => .ok (.rrootF32 (readR2 w))
  | 2 => .ok (.exp2 (readR2 w))
  | 3 => .ok (.log2 (readR2 w))
  | 4 => .ok (.sin (readR2 w))
  | 5 => .ok (.cos (readR2 w))
  | 6 => .ok (.tanh (readR2 w))
  | 7 => .ok (.recipF64 (readR2 w))
  | 8 => .ok (.rrootF64 (readR2 w))
  | _ => .error ⟨2, 0⟩

/-- The minors of major 11 (R254). -/
def decodeMajor11 (n : Nat) (w : Word) : Except EncFault Instr :=
  match n with
  | 0 => .ok (.mov (readR2 w))
  | 1 => .ok (.movD (readR2 w))
  | 2 => .ok (.movFromK (readR2 w))
  | 3 => .ok (.movToK (readR2 w))
  | 4 => .ok (.sread (readR2 w))
  | 5 => .ok (.shflPick (readR3 w))
  | 6 => .ok (.shflRot (readR3 w))
  | 7 => .ok (.shflSeg (readR3 w))
  | 8 => .ok (.shflFlip (readR3 w))
  | 9 => .ok (.voteEvery (readR2 w))
  | 10 => .ok (.voteSome (readR2 w))
  | 11 => .ok (.voteMap (readR2 w))
  | 12 => .ok (.voteFsum (readR2 w))
  | 13 => .ok (.voteIsum (readR2 w))
  | _ => .error ⟨2, 0⟩

/-- The minors of major 40 (R254). -/
def decodeMajor40 (n : Nat) (w : Word) : Except EncFault Instr :=
  match n with
  | 0 => .ok (.brx (readR1 w))
  | 1 => .ok (.callx (readR2 w))
  | 2 => .ok (.ret (readR1 w))
  | 3 => .ok (.exit (readR0 w))
  | 4 => .ok (.yield (readR0 w))
  | 5 => .ok (.nop (readR0 w))
  | _ => .error ⟨2, 0⟩

/-- The minors of major 45 (R254). -/
def decodeMajor45 (n : Nat) (w : Word) : Except EncFault Instr :=
  match n with
  | 0 => .ok (.join (readR1 w))
  | 1 => .ok (.leave (readR1 w))
  | 2 => .ok (.waitm (readR1 w))
  | 3 => .ok (.waitmt (readR3 w))
  | 4 => .ok (.mand (readR3 w))
  | 5 => .ok (.mor (readR3 w))
  | 6 => .ok (.mxor (readR3 w))
  | 7 => .ok (.mandn (readR3 w))
  | 8 => .ok (.mmov (readR2 w))
  | 9 => .ok (.mset (readR2 w))
  | 10 => .ok (.mget (readR3 w))
  | _ => .error ⟨2, 0⟩

/-- The minors of major 46 (R254). -/
def decodeMajor46 (n : Nat) (w : Word) : Except EncFault Instr :=
  match n with
  | 0 => .ok (.bar (readBarF w))
  | 1 => .ok (.tbinit (readRab w))
  | 2 => .ok (.tbarrive (readR2 w))
  | 3 => .ok (.tbwait (readRab w))
  | 4 => .ok (.fenceRel (readR0 w))
  | 5 => .ok (.fenceAcq (readR0 w))
  | 6 => .ok (.fenceAr (readR0 w))
  | 7 => .ok (.tagwany (readR2 w))
  | 8 => .ok (.tagwall (readR1 w))
  | 9 => .ok (.tagfirst (readR2 w))
  | _ => .error ⟨2, 0⟩

/-- The minors of major 60 (R254). -/
def decodeMajor60 (n : Nat) (w : Word) : Except EncFault Instr :=
  match n with
  | 0 => .ok (.cpy (readR3 w))
  | 1 => .ok (.cpyg (readR3 w))
  | 2 => .ok (.cpys (readR3 w))
  | _ => .error ⟨2, 0⟩

/-- The minors of major 61 (R254). -/
def decodeMajor61 (n : Nat) (w : Word) : Except EncFault Instr :=
  match n with
  | 0 => .ok (.tcfg (readR1 w))
  | 1 => .ok (.wld (readRab w))
  | 2 => .ok (.wswap (readR0 w))
  | 3 => .ok (.mms (readR3 w))
  | 4 => .ok (.ast (readR3 w))
  | 5 => .ok (.ald (readR2 w))
  | 6 => .ok (.azero (readRd w))
  | 7 => .ok (.scld (readR3 w))
  | 8 => .ok (.batonPass (readRs w))
  | 9 => .ok (.batonWait (readRs w))
  | _ => .error ⟨2, 0⟩

/-- The minors of major 62 (R254). -/
def decodeMajor62 (n : Nat) (w : Word) : Except EncFault Instr :=
  match n with
  | 0 => .ok (.solve (readRsa w))
  | 1 => .ok (.solend (readRs w))
  | 2 => .ok (.msend (readRab w))
  | 3 => .ok (.rput (readRab w))
  | 4 => .ok (.rget (readR2 w))
  | 5 => .ok (.ratom (readR3 w))
  | 6 => .ok (.waitq (readRd w))
  | 7 => .ok (.tspawn (readR1 w))
  | 8 => .ok (.tdone (readR0 w))
  | 9 => .ok (.launch (readR2 w))
  | 10 => .ok (.publish (readR1 w))
  | 11 => .ok (.prog (readR1 w))
  | 12 => .ok (.subpol (readR1 w))
  | 13 => .ok (.subq (readR2 w))
  | _ => .error ⟨2, 0⟩

/-- The minors of major 63 (R254). -/
def decodeMajor63 (n : Nat) (w : Word) : Except EncFault Instr :=
  match n with
  | 0 => .ok (.trap (readTrapF w))
  | 1 => .ok (.eret (readR0 w))
  | 2 => .ok (.crr (readCrF w))
  | 3 => .ok (.crw (readCrF w))
  | 4 => .ok (.icinv (readRab w))
  | 5 => .ok (.tlbinv (readRab w))
  | 6 => .ok (.bist (readR2 w))
  | 7 => .ok (.halt (readR0 w))
  | _ => .error ⟨2, 0⟩

/-- The instruction a word names by its major, minor, order, level and ret fields, before its other fields are
checked (R253, R254). -/
def decodeShape (m : Nat) (w : Word) : Except EncFault Instr :=
  match m with
  | 1 => decodeMajor1 (minorOf w) w
  | 2 => decodeMajor2 (minorOf w) w
  | 3 => decodeMajor3 (minorOf w) w
  | 4 => decodeIcmp (minorOf w) w
  | 5 => decodeMajor5 (minorOf w) w
  | 6 => decodeMajor6 (minorOf w) w
  | 7 => decodeMajor7 (minorOf w) w
  | 8 => if minorOf w < 8 then .ok (.fcmp (readPQf w)) else .error ⟨2, 0⟩
  | 9 => .ok (.cvt (readCv w))
  | 10 => decodeMajor10 (minorOf w) w
  | 11 => decodeMajor11 (minorOf w) w
  | 12 => .ok (.ffmaF32 (readG4 w))
  | 13 => .ok (.ffmaF64 (readG4 w))
  | 14 => .ok (.hfmaF16 (readG4 w))
  | 15 => .ok (.hfmaBf16 (readG4 w))
  | 16 => .ok (.imadI32 (readG4 w))
  | 17 => .ok (.imadW32 (readG4 w))
  | 18 => .ok (.faddBank (readGC w))
  | 19 => .ok (.fmulBank (readGC w))
  | 20 => .ok (.ffmac (readGC w))
  | 21 => .ok (.iaddBank (readGC w))
  | 22 => .ok (.movBank (readGCd w))
  | 24 => .ok (.iaddImm (readGI w))
  | 25 => .ok (.imulImm (readGI w))
  | 26 => .ok (.andImm (readGI w))
  | 27 => .ok (.orImm (readGI w))
  | 28 => .ok (.xorImm (readGI w))
  | 29 => .ok (.shlImm (readGI w))
  | 30 => .ok (.shrImm (readGI w))
  | 31 => .ok (.sarImm (readGI w))
  | 32 => .ok (.icmpEqImm (readPQi w))
  | 33 => .ok (.icmpLtImm (readPQi w))
  | 34 => .ok (.movf20 (readMV20 w))
  | 35 => .ok (.movf20 (readMV20 w))
  | 36 => .ok (.movi20 (readMV20 w))
  | 37 => .ok (.movi20 (readMV20 w))
  | 38 => .ok (.bra (readBr w))
  | 39 => .ok (.call (readBr w))
  | 40 => decodeMajor40 (minorOf w) w
  | 41 => .ok (.xlit (readHX w))
  | 42 => .ok (.xmod (readHM w))
  | 43 => .ok (.dict (readHD w))
  | 44 => .ok (.sched (readHS w))
  | 45 => decodeMajor45 (minorOf w) w
  | 46 => decodeMajor46 (minorOf w) w
  | 47 => .ok (.pref (readPrefF w))
  | 48 => .ok (.ld (readMemF w))
  | 49 => .ok (.st (readMemF w))
  | 50 => .ok (.ldl (readMemF w))
  | 51 => .ok (.stl (readMemF w))
  | 52 => .ok (.lds (readMemF w))
  | 53 => .ok (.sts (readMemF w))
  | 54 => .ok (.ldc (readMemF w))
  | 55 => .ok (.stc (readMemF w))
  | 56 => .ok (.ldx (readMemF w))
  | 57 => .ok (.stx (readMemF w))
  | 58 => .ok (if bitAt w 4 then .atom (readAtF w) else .red (readRedF w))
  | 59 => decodeAtX (bitsAt w 5 2).toNat (bitAt w 4) w
  | 60 => decodeMajor60 (minorOf w) w
  | 61 => decodeMajor61 (minorOf w) w
  | 62 => decodeMajor62 (minorOf w) w
  | 63 => decodeMajor63 (minorOf w) w
  | _ => .error ⟨1, 25⟩

/-- Whether a field of the word is nonzero. -/
def nonzeroField (w : Word) (f : Nat × Nat) : Bool := w.toNat / 2 ^ f.1 % 2 ^ f.2 != 0

/-- The order bit of a `PREF` is a reserved value (R415), and it stands below the other fields that can hold one. -/
def prefOrder (i : Instr) (w : Word) : List Nat :=
  match i with
  | .pref _ => if bitAt w 6 then [6] else []
  | _ => []

/-- The checks of the fields of a word: the lowest code first, then the lowest field (R413). -/
def checkFields (i : Instr) (w : Word) : Except EncFault Instr :=
  match (zeroFields i).filter (nonzeroField w) with
  | f :: _ => .error ⟨3, f.1⟩
  | [] =>
    match prefOrder i w ++ i.badValues with
    | b :: _ => .error ⟨4, b⟩
    | [] =>
      match i.oddFields with
      | b :: _ => .error ⟨5, b⟩
      | [] => .ok i

/-- The instruction of a word, or its class 0x02 cause. -/
def decodeWord (w : Word) : Except EncFault Instr :=
  match decodeShape (majorOf w) w with
  | .error e => .error e
  | .ok i => checkFields i w

/-- A 16-bit dictionary code (R261). -/
def decodeCode (c : BitVec 16) : CodeF :=
  ⟨c.toNat / 32768 % 2 == 1, BitVec.ofNat 5 (c.toNat / 1024), BitVec.ofNat 10 c.toNat⟩
def encodeCode (f : CodeF) : BitVec 16 := BitVec.ofNat 16 (f.sw.toNat * 32768 + f.o.toNat * 1024 + f.x.toNat)

/-! ## The dictionary (R261, R262) -/

/-- An entry that no code may use: empty, a hint, a B-format word, or a branch or return of major 0x28. -/
def forbiddenEntry (w : Word) : Bool :=
  let m := majorOf w
  m == 0 || m == 0x26 || m == 0x27 || (0x29 ≤ m && m ≤ 0x2C) || (m == 0x28 && minorOf w ≤ 2)

/-- The low bits of the fields of a word that name general registers, by its major and minor. -/
def gprFields (w : Word) : List Nat :=
  let n := minorOf w
  match majorOf w with
  | 0x04 => [13, 7]
  | 0x08 => [13, 7]
  | 0x09 => [19, 13]
  | 0x0B =>
    match n with
    | 2 => [19]
    | 3 => [13]
    | 4 => [19]
    | _ => if 5 ≤ n && n ≤ 8 then [19, 13, 7] else [19, 13]
  | 0x16 => [19]
  | 0x20 => [13]
  | 0x21 => [13]
  | 0x22 => [19]
  | 0x23 => [19]
  | 0x24 => [19]
  | 0x25 => [19]
  | 0x28 => []
  | 0x2D => match n with
    | 3 => [19, 7]
    | 10 => [19]
    | _ => []
  | 0x2E => match n with
    | 1 => [13, 7]
    | 2 => [19, 13]
    | 3 => [13, 7]
    | _ => []
  | 0x2F => [13]
  | 0x3A => if bitAt w 4 then [19, 13, 7] else [13, 7]
  | 0x3B => if bitAt w 4 then [19, 13, 7] else [13, 7]
  | 0x3C => [19, 13, 7]
  | 0x3D => []
  | 0x3E =>
    match n with
    | 2 => [13, 7]
    | 3 => [13, 7]
    | 4 => [19, 13]
    | 5 => [19, 13, 7]
    | 6 => [19]
    | 7 => [13]
    | 9 => [19, 13]
    | 10 => [13]
    | 12 => [13]
    | 13 => [19, 13]
    | _ => []
  | 0x3F =>
    match n with
    | 2 => [19]
    | 3 => [19]
    | 4 => [13, 7]
    | 5 => [13, 7]
    | 6 => [19, 13]
    | _ => []
  | m =>
    if 0x0C ≤ m && m ≤ 0x11 then [19, 13, 7, 1]
    else if (0x12 ≤ m && m ≤ 0x15) || (0x18 ≤ m && m ≤ 0x1F) || (0x30 ≤ m && m ≤ 0x39) then [19, 13]
    else if unaryWord m n then [19, 13]
    else [19, 13, 7]
where
  /-- The words of majors 0x03 to 0x0A whose b field must be zero and names no register (R254). -/
  unaryWord (m n : Nat) : Bool :=
    m == 0x0A || (m == 0x03 && 8 ≤ n && n ≤ 10) ||
      ((m == 0x05 || m == 0x06) && (n == 4 || n == 7 || n == 8 || n == 10 || n == 11))

/-- Adds the register offset modulo 64 to one field. -/
def offsetField (o : Nat) (w : Word) (lo : Nat) : Word :=
  let r := (bitsAt w lo 6).toNat
  BitVec.ofNat 32 (w.toNat - r * 2 ^ lo + (r + o) % 64 * 2 ^ lo)

/-- The word a dictionary code executes as: the entry with its switch marker replaced and its register fields offset;
index 1,023 is the pad code, `NOP` (R261, R262). -/
def expandCode (entry : Word) (f : CodeF) : Word :=
  if f.x = 1023#10 then BitVec.ofNat 32 (f.sw.toNat * 2147483648 + 0x50000005)
  else
    let v := (gprFields entry).foldl (offsetField f.o.toNat) entry
    BitVec.ofNat 32 (f.sw.toNat * 2147483648 + v.toNat % 2147483648)

/-- The instruction read from a word as the opcode table numbers its bits; a 16-bit one is a code of a dictionary run. One word
is the longest instruction. -/
def decodeTableWord (nbits w : Nat) : Option Instr :=
  if nbits = 16 then some (.dictCode (decodeCode (BitVec.ofNat 16 w)))
  else (decodeWord (BitVec.ofNat 32 w)).toOption

end Sys2Proof
end

