-- ==== Sys2Proof/Machine/Operands.lean ====
section
/-!
DEFINITION. The operand forms of the instructions: their guard, switch marker, the registers they read and write, the hints
they take (R257 to R259), and the sets of instructions that the rules name together: crew-wide ones (R48), privileged ones
(R254), delivery points (R409).
-/
namespace Sys2Proof

/-- The two registers of a pair (R8). -/
def pairRegs (r : Reg6) : List Reg6 := [r, r + 1]
/-- The registers of a group: one, a pair, or four. -/
def groupRegs (k : Nat) (r : Reg6) : List Reg6 :=
  match k with
  | 0 => [r] | 1 => [r, r + 1] | _ => [r, r + 1, r + 2, r + 3]
/-- The data registers of a load or store by its width code (R252). -/
def widthRegs (z : BitVec 3) (r : Reg6) : List Reg6 :=
  match z.toNat with
  | 3 => [r, r + 1] | 4 => [r, r + 1, r + 2, r + 3] | _ => [r]
/-- The access size in bytes of a width code (R252, R308). -/
def widthBytes (z : BitVec 3) : Nat :=
  match z.toNat with
  | 0 => 1 | 1 => 2 | 2 => 4 | 3 => 8 | 4 => 16 | 5 => 1 | 6 => 2 | _ => 1


/-- The switch marker of the word (R52). -/
def Instr.switch : Instr → Bool
  | .iadd f => f.sw
  | .isub f => f.sw
  | .imul f => f.sw
  | .imulh f => f.sw
  | .imin f => f.sw
  | .imax f => f.sw
  | .div f => f.sw
  | .rem f => f.sw
  | .iadd64 f => f.sw
  | .isub64 f => f.sw
  | .imul64 f => f.sw
  | .imulh64 f => f.sw
  | .imin64 f => f.sw
  | .imax64 f => f.sw
  | .div64 f => f.sw
  | .rem64 f => f.sw
  | .andR f => f.sw
  | .orR f => f.sw
  | .xorR f => f.sw
  | .andn f => f.sw
  | .shl f => f.sw
  | .shr f => f.sw
  | .sar f => f.sw
  | .rol f => f.sw
  | .popc f => f.sw
  | .clz f => f.sw
  | .brev f => f.sw
  | .shlW64 f => f.sw
  | .shrW64 f => f.sw
  | .sarI64 f => f.sw
  | .iaddImm f => f.sw
  | .imulImm f => f.sw
  | .andImm f => f.sw
  | .orImm f => f.sw
  | .xorImm f => f.sw
  | .shlImm f => f.sw
  | .shrImm f => f.sw
  | .sarImm f => f.sw
  | .icmp f => f.sw
  | .testW32 f => f.sw
  | .icmpEqImm f => f.sw
  | .icmpLtImm f => f.sw
  | .fadd f => f.sw
  | .fsub f => f.sw
  | .fmul f => f.sw
  | .fdiv f => f.sw
  | .fsqrt f => f.sw
  | .fmin f => f.sw
  | .fmax f => f.sw
  | .fabs f => f.sw
  | .fneg f => f.sw
  | .fcpys f => f.sw
  | .frnd f => f.sw
  | .fclass f => f.sw
  | .faddF64 f => f.sw
  | .fsubF64 f => f.sw
  | .fmulF64 f => f.sw
  | .fdivF64 f => f.sw
  | .fsqrtF64 f => f.sw
  | .fminF64 f => f.sw
  | .fmaxF64 f => f.sw
  | .fabsF64 f => f.sw
  | .fnegF64 f => f.sw
  | .fcpysF64 f => f.sw
  | .frndF64 f => f.sw
  | .fclassF64 f => f.sw
  | .haddF16 f => f.sw
  | .hsubF16 f => f.sw
  | .hmulF16 f => f.sw
  | .hminF16 f => f.sw
  | .hmaxF16 f => f.sw
  | .haddBf16 f => f.sw
  | .hsubBf16 f => f.sw
  | .hmulBf16 f => f.sw
  | .hminBf16 f => f.sw
  | .hmaxBf16 f => f.sw
  | .fcmp f => f.sw
  | .cvt f => f.sw
  | .recipF32 f => f.sw
  | .rrootF32 f => f.sw
  | .exp2 f => f.sw
  | .log2 f => f.sw
  | .sin f => f.sw
  | .cos f => f.sw
  | .tanh f => f.sw
  | .recipF64 f => f.sw
  | .rrootF64 f => f.sw
  | .mov f => f.sw
  | .movD f => f.sw
  | .movFromK f => f.sw
  | .movToK f => f.sw
  | .sread f => f.sw
  | .shflPick f => f.sw
  | .shflRot f => f.sw
  | .shflSeg f => f.sw
  | .shflFlip f => f.sw
  | .voteEvery f => f.sw
  | .voteSome f => f.sw
  | .voteMap f => f.sw
  | .voteFsum f => f.sw
  | .voteIsum f => f.sw
  | .ffmaF32 f => f.sw
  | .ffmaF64 f => f.sw
  | .hfmaF16 f => f.sw
  | .hfmaBf16 f => f.sw
  | .imadI32 f => f.sw
  | .imadW32 f => f.sw
  | .faddBank f => f.sw
  | .fmulBank f => f.sw
  | .ffmac f => f.sw
  | .iaddBank f => f.sw
  | .movBank f => f.sw
  | .movf20 f => f.sw
  | .movi20 f => f.sw
  | .bra f => f.sw
  | .call f => f.sw
  | .brx f => f.sw
  | .callx f => f.sw
  | .ret f => f.sw
  | .exit f => f.sw
  | .yield f => f.sw
  | .nop f => f.sw
  | .xlit f => f.sw
  | .xmod f => f.sw
  | .dict f => f.sw
  | .sched f => f.sw
  | .dictCode f => f.sw
  | .join f => f.sw
  | .leave f => f.sw
  | .waitm f => f.sw
  | .waitmt f => f.sw
  | .mand f => f.sw
  | .mor f => f.sw
  | .mxor f => f.sw
  | .mandn f => f.sw
  | .mmov f => f.sw
  | .mset f => f.sw
  | .mget f => f.sw
  | .bar f => f.sw
  | .tbinit f => f.sw
  | .tbarrive f => f.sw
  | .tbwait f => f.sw
  | .fenceRel f => f.sw
  | .fenceAcq f => f.sw
  | .fenceAr f => f.sw
  | .tagwany f => f.sw
  | .tagwall f => f.sw
  | .tagfirst f => f.sw
  | .pref f => f.sw
  | .ld f => f.sw
  | .st f => f.sw
  | .ldl f => f.sw
  | .stl f => f.sw
  | .lds f => f.sw
  | .sts f => f.sw
  | .ldc f => f.sw
  | .stc f => f.sw
  | .ldx f => f.sw
  | .stx f => f.sw
  | .atom f => f.sw
  | .red f => f.sw
  | .atoms f => f.sw
  | .atomc f => f.sw
  | .atomx f => f.sw
  | .reds f => f.sw
  | .redc f => f.sw
  | .redx f => f.sw
  | .cpy f => f.sw
  | .cpyg f => f.sw
  | .cpys f => f.sw
  | .tcfg f => f.sw
  | .wld f => f.sw
  | .wswap f => f.sw
  | .mms f => f.sw
  | .ast f => f.sw
  | .ald f => f.sw
  | .azero f => f.sw
  | .scld f => f.sw
  | .batonPass f => f.sw
  | .batonWait f => f.sw
  | .solve f => f.sw
  | .solend f => f.sw
  | .msend f => f.sw
  | .rput f => f.sw
  | .rget f => f.sw
  | .ratom f => f.sw
  | .waitq f => f.sw
  | .tspawn f => f.sw
  | .tdone f => f.sw
  | .launch f => f.sw
  | .publish f => f.sw
  | .prog f => f.sw
  | .subpol f => f.sw
  | .subq f => f.sw
  | .trap f => f.sw
  | .eret f => f.sw
  | .crr f => f.sw
  | .crw f => f.sw
  | .icinv f => f.sw
  | .tlbinv f => f.sw
  | .bist f => f.sw
  | .halt f => f.sw
  | _ => false

/-- The guard field of the word, for the formats that have one (R251). -/
def Instr.guardField : Instr → Option Pred3
  | .iadd f => some f.g
  | .isub f => some f.g
  | .imul f => some f.g
  | .imulh f => some f.g
  | .imin f => some f.g
  | .imax f => some f.g
  | .div f => some f.g
  | .rem f => some f.g
  | .iadd64 f => some f.g
  | .isub64 f => some f.g
  | .imul64 f => some f.g
  | .imulh64 f => some f.g
  | .imin64 f => some f.g
  | .imax64 f => some f.g
  | .div64 f => some f.g
  | .rem64 f => some f.g
  | .andR f => some f.g
  | .orR f => some f.g
  | .xorR f => some f.g
  | .andn f => some f.g
  | .shl f => some f.g
  | .shr f => some f.g
  | .sar f => some f.g
  | .rol f => some f.g
  | .popc f => some f.g
  | .clz f => some f.g
  | .brev f => some f.g
  | .shlW64 f => some f.g
  | .shrW64 f => some f.g
  | .sarI64 f => some f.g
  | .iaddImm f => some f.g
  | .imulImm f => some f.g
  | .andImm f => some f.g
  | .orImm f => some f.g
  | .xorImm f => some f.g
  | .shlImm f => some f.g
  | .shrImm f => some f.g
  | .sarImm f => some f.g
  | .icmp f => some f.g
  | .testW32 f => some f.g
  | .icmpEqImm f => some f.g
  | .icmpLtImm f => some f.g
  | .fadd f => some f.g
  | .fsub f => some f.g
  | .fmul f => some f.g
  | .fdiv f => some f.g
  | .fsqrt f => some f.g
  | .fmin f => some f.g
  | .fmax f => some f.g
  | .fabs f => some f.g
  | .fneg f => some f.g
  | .fcpys f => some f.g
  | .frnd f => some f.g
  | .fclass f => some f.g
  | .faddF64 f => some f.g
  | .fsubF64 f => some f.g
  | .fmulF64 f => some f.g
  | .fdivF64 f => some f.g
  | .fsqrtF64 f => some f.g
  | .fminF64 f => some f.g
  | .fmaxF64 f => some f.g
  | .fabsF64 f => some f.g
  | .fnegF64 f => some f.g
  | .fcpysF64 f => some f.g
  | .frndF64 f => some f.g
  | .fclassF64 f => some f.g
  | .haddF16 f => some f.g
  | .hsubF16 f => some f.g
  | .hmulF16 f => some f.g
  | .hminF16 f => some f.g
  | .hmaxF16 f => some f.g
  | .haddBf16 f => some f.g
  | .hsubBf16 f => some f.g
  | .hmulBf16 f => some f.g
  | .hminBf16 f => some f.g
  | .hmaxBf16 f => some f.g
  | .fcmp f => some f.g
  | .cvt f => some f.g
  | .recipF32 f => some f.g
  | .rrootF32 f => some f.g
  | .exp2 f => some f.g
  | .log2 f => some f.g
  | .sin f => some f.g
  | .cos f => some f.g
  | .tanh f => some f.g
  | .recipF64 f => some f.g
  | .rrootF64 f => some f.g
  | .mov f => some f.g
  | .movD f => some f.g
  | .movFromK f => some f.g
  | .movToK f => some f.g
  | .sread f => some f.g
  | .shflPick f => some f.g
  | .shflRot f => some f.g
  | .shflSeg f => some f.g
  | .shflFlip f => some f.g
  | .voteEvery f => some f.g
  | .voteSome f => some f.g
  | .voteMap f => some f.g
  | .voteFsum f => some f.g
  | .voteIsum f => some f.g
  | .faddBank f => some f.g
  | .fmulBank f => some f.g
  | .ffmac f => some f.g
  | .iaddBank f => some f.g
  | .movBank f => some f.g
  | .bra f => some f.g
  | .call f => some f.g
  | .brx f => some f.g
  | .callx f => some f.g
  | .ret f => some f.g
  | .exit f => some f.g
  | .yield f => some f.g
  | .nop f => some f.g
  | .join f => some f.g
  | .leave f => some f.g
  | .waitm f => some f.g
  | .waitmt f => some f.g
  | .mand f => some f.g
  | .mor f => some f.g
  | .mxor f => some f.g
  | .mandn f => some f.g
  | .mmov f => some f.g
  | .mset f => some f.g
  | .mget f => some f.g
  | .tbinit f => some f.g
  | .tbarrive f => some f.g
  | .tbwait f => some f.g
  | .fenceRel f => some f.g
  | .fenceAcq f => some f.g
  | .fenceAr f => some f.g
  | .tagwany f => some f.g
  | .tagwall f => some f.g
  | .tagfirst f => some f.g
  | .pref f => some f.g
  | .ld f => some f.g
  | .st f => some f.g
  | .ldl f => some f.g
  | .stl f => some f.g
  | .lds f => some f.g
  | .sts f => some f.g
  | .ldc f => some f.g
  | .stc f => some f.g
  | .ldx f => some f.g
  | .stx f => some f.g
  | .cpy f => some f.g
  | .cpyg f => some f.g
  | .cpys f => some f.g
  | .tcfg f => some f.g
  | .wld f => some f.g
  | .wswap f => some f.g
  | .mms f => some f.g
  | .ast f => some f.g
  | .ald f => some f.g
  | .azero f => some f.g
  | .scld f => some f.g
  | .msend f => some f.g
  | .rput f => some f.g
  | .rget f => some f.g
  | .ratom f => some f.g
  | .waitq f => some f.g
  | .tspawn f => some f.g
  | .tdone f => some f.g
  | .launch f => some f.g
  | .publish f => some f.g
  | .prog f => some f.g
  | .subpol f => some f.g
  | .subq f => some f.g
  | .trap f => some f.g
  | .eret f => some f.g
  | .crr f => some f.g
  | .crw f => some f.g
  | .icinv f => some f.g
  | .tlbinv f => some f.g
  | .bist f => some f.g
  | .halt f => some f.g
  | _ => none

/-- The general registers the instruction reads whatever they hold; `readsOf` adds those that depend on a control word. -/
def Instr.gReads : Instr → List Reg6
  | .iadd f => [f.a, f.b]
  | .isub f => [f.a, f.b]
  | .imul f => [f.a, f.b]
  | .imulh f => [f.a, f.b]
  | .imin f => [f.a, f.b]
  | .imax f => [f.a, f.b]
  | .div f => [f.a, f.b]
  | .rem f => [f.a, f.b]
  | .iadd64 f => pairRegs f.a ++ pairRegs f.b
  | .isub64 f => pairRegs f.a ++ pairRegs f.b
  | .imul64 f => pairRegs f.a ++ pairRegs f.b
  | .imulh64 f => pairRegs f.a ++ pairRegs f.b
  | .imin64 f => pairRegs f.a ++ pairRegs f.b
  | .imax64 f => pairRegs f.a ++ pairRegs f.b
  | .div64 f => pairRegs f.a ++ pairRegs f.b
  | .rem64 f => pairRegs f.a ++ pairRegs f.b
  | .andR f => [f.a, f.b]
  | .orR f => [f.a, f.b]
  | .xorR f => [f.a, f.b]
  | .andn f => [f.a, f.b]
  | .shl f => [f.a, f.b]
  | .shr f => [f.a, f.b]
  | .sar f => [f.a, f.b]
  | .rol f => [f.a, f.b]
  | .popc f => [f.a]
  | .clz f => [f.a]
  | .brev f => [f.a]
  | .shlW64 f => pairRegs f.a ++ [f.b]
  | .shrW64 f => pairRegs f.a ++ [f.b]
  | .sarI64 f => pairRegs f.a ++ [f.b]
  | .iaddImm f => [f.a]
  | .imulImm f => [f.a]
  | .andImm f => [f.a]
  | .orImm f => [f.a]
  | .xorImm f => [f.a]
  | .shlImm f => [f.a]
  | .shrImm f => [f.a]
  | .sarImm f => [f.a]
  | .icmp f => if 5 ≤ f.m.toNat then pairRegs f.a ++ pairRegs f.b else [f.a, f.b]
  | .testW32 f => [f.a, f.b]
  | .icmpEqImm f => [f.a]
  | .icmpLtImm f => [f.a]
  | .fadd f => [f.a, f.b]
  | .fsub f => [f.a, f.b]
  | .fmul f => [f.a, f.b]
  | .fdiv f => [f.a, f.b]
  | .fsqrt f => [f.a]
  | .fmin f => [f.a, f.b]
  | .fmax f => [f.a, f.b]
  | .fabs f => [f.a]
  | .fneg f => [f.a]
  | .fcpys f => [f.a, f.b]
  | .frnd f => [f.a]
  | .fclass f => [f.a]
  | .faddF64 f => pairRegs f.a ++ pairRegs f.b
  | .fsubF64 f => pairRegs f.a ++ pairRegs f.b
  | .fmulF64 f => pairRegs f.a ++ pairRegs f.b
  | .fdivF64 f => pairRegs f.a ++ pairRegs f.b
  | .fsqrtF64 f => pairRegs f.a
  | .fminF64 f => pairRegs f.a ++ pairRegs f.b
  | .fmaxF64 f => pairRegs f.a ++ pairRegs f.b
  | .fabsF64 f => pairRegs f.a
  | .fnegF64 f => pairRegs f.a
  | .fcpysF64 f => pairRegs f.a ++ pairRegs f.b
  | .frndF64 f => pairRegs f.a
  | .fclassF64 f => pairRegs f.a
  | .haddF16 f => [f.a, f.b]
  | .hsubF16 f => [f.a, f.b]
  | .hmulF16 f => [f.a, f.b]
  | .hminF16 f => [f.a, f.b]
  | .hmaxF16 f => [f.a, f.b]
  | .haddBf16 f => [f.a, f.b]
  | .hsubBf16 f => [f.a, f.b]
  | .hmulBf16 f => [f.a, f.b]
  | .hminBf16 f => [f.a, f.b]
  | .hmaxBf16 f => [f.a, f.b]
  | .fcmp f => if f.t then pairRegs f.a ++ pairRegs f.b else [f.a, f.b]
  | .cvt f => if wideType f.y then pairRegs f.a else [f.a]
  | .recipF32 f => [f.a]
  | .rrootF32 f => [f.a]
  | .exp2 f => [f.a]
  | .log2 f => [f.a]
  | .sin f => [f.a]
  | .cos f => [f.a]
  | .tanh f => [f.a]
  | .recipF64 f => pairRegs f.a
  | .rrootF64 f => pairRegs f.a
  | .mov f => [f.a]
  | .movD f => pairRegs f.a
  | .movToK f => [f.a]
  | .shflPick f => [f.a, f.b]
  | .shflRot f => [f.a, f.b]
  | .shflSeg f => [f.a, f.b]
  | .shflFlip f => [f.a, f.b]
  | .voteEvery f => [f.a]
  | .voteSome f => [f.a]
  | .voteMap f => [f.a]
  | .voteFsum f => [f.a]
  | .voteIsum f => [f.a]
  | .ffmaF32 f => [f.a, f.b, f.c]
  | .ffmaF64 f => pairRegs f.a ++ pairRegs f.b ++ pairRegs f.c
  | .hfmaF16 f => [f.a, f.b, f.c]
  | .hfmaBf16 f => [f.a, f.b, f.c]
  | .imadI32 f => [f.a, f.b, f.c]
  | .imadW32 f => [f.a, f.b, f.c]
  | .faddBank f => [f.a]
  | .fmulBank f => [f.a]
  | .ffmac f => [f.a, f.d]
  | .iaddBank f => [f.a]
  | .brx f => pairRegs f.a
  | .callx f => pairRegs f.a
  | .ret f => pairRegs f.a
  | .waitmt f => [f.b]
  | .tbinit f => [f.a, f.b]
  | .tbarrive f => [f.a]
  | .tbwait f => [f.a, f.b]
  | .pref f => pairRegs f.a
  | .ld f => pairRegs f.a
  | .st f => pairRegs f.a ++ widthRegs f.z f.d
  | .ldl f => [f.a]
  | .stl f => f.a :: widthRegs f.z f.d
  | .lds f => [f.a]
  | .sts f => f.a :: widthRegs f.z f.d
  | .ldc f => [f.a]
  | .stc f => f.a :: widthRegs f.z f.d
  | .ldx f => [f.a]
  | .stx f => f.a :: widthRegs f.z f.d
  | .atom f => pairRegs f.a ++ groupRegs (atomGroupB f.p) f.b
  | .red f => pairRegs f.a ++ groupRegs (atomGroupB f.p) f.b
  | .atoms f => f.a :: groupRegs (atomGroupB f.p) f.b
  | .atomc f => f.a :: groupRegs (atomGroupB f.p) f.b
  | .atomx f => f.a :: groupRegs (atomGroupB f.p) f.b
  | .reds f => f.a :: groupRegs (atomGroupB f.p) f.b
  | .redc f => f.a :: groupRegs (atomGroupB f.p) f.b
  | .redx f => f.a :: groupRegs (atomGroupB f.p) f.b
  | .cpy f => [f.d, f.a] ++ groupRegs 2 f.b
  | .cpyg f => [f.d, f.d + 1, f.d + 2, f.a, f.b, f.b + 2, f.b + 3]
  | .cpys f => [f.d, f.d + 1, f.d + 2, f.a, f.b, f.b + 2, f.b + 3]
  | .msend f => pairRegs f.a ++ [f.b]
  | .rput f => groupRegs 2 f.a ++ [f.b]
  | .rget f => groupRegs 2 f.a
  | .ratom f => groupRegs 2 f.a
  | .tspawn f => pairRegs f.a
  | .launch f => pairRegs f.a
  | .publish f => [f.a]
  | .subpol f => [f.a]
  | .subq f => [f.a]
  | .crw f => [f.r]
  | .icinv f => pairRegs f.a ++ [f.b]
  | .tlbinv f => pairRegs f.a ++ [f.b]
  | .bist f => [f.a]
  | _ => []

/-- The general registers the instruction writes whatever it reads; `writesOf` adds those that depend on a control word. -/
def Instr.gWrites : Instr → List Reg6
  | .iadd f => [f.d]
  | .isub f => [f.d]
  | .imul f => [f.d]
  | .imulh f => [f.d]
  | .imin f => [f.d]
  | .imax f => [f.d]
  | .div f => [f.d]
  | .rem f => [f.d]
  | .iadd64 f => pairRegs f.d
  | .isub64 f => pairRegs f.d
  | .imul64 f => pairRegs f.d
  | .imulh64 f => pairRegs f.d
  | .imin64 f => pairRegs f.d
  | .imax64 f => pairRegs f.d
  | .div64 f => pairRegs f.d
  | .rem64 f => pairRegs f.d
  | .andR f => [f.d]
  | .orR f => [f.d]
  | .xorR f => [f.d]
  | .andn f => [f.d]
  | .shl f => [f.d]
  | .shr f => [f.d]
  | .sar f => [f.d]
  | .rol f => [f.d]
  | .popc f => [f.d]
  | .clz f => [f.d]
  | .brev f => [f.d]
  | .shlW64 f => pairRegs f.d
  | .shrW64 f => pairRegs f.d
  | .sarI64 f => pairRegs f.d
  | .iaddImm f => [f.d]
  | .imulImm f => [f.d]
  | .andImm f => [f.d]
  | .orImm f => [f.d]
  | .xorImm f => [f.d]
  | .shlImm f => [f.d]
  | .shrImm f => [f.d]
  | .sarImm f => [f.d]
  | .fadd f => [f.d]
  | .fsub f => [f.d]
  | .fmul f => [f.d]
  | .fdiv f => [f.d]
  | .fsqrt f => [f.d]
  | .fmin f => [f.d]
  | .fmax f => [f.d]
  | .fabs f => [f.d]
  | .fneg f => [f.d]
  | .fcpys f => [f.d]
  | .frnd f => [f.d]
  | .fclass f => [f.d]
  | .faddF64 f => pairRegs f.d
  | .fsubF64 f => pairRegs f.d
  | .fmulF64 f => pairRegs f.d
  | .fdivF64 f => pairRegs f.d
  | .fsqrtF64 f => pairRegs f.d
  | .fminF64 f => pairRegs f.d
  | .fmaxF64 f => pairRegs f.d
  | .fabsF64 f => pairRegs f.d
  | .fnegF64 f => pairRegs f.d
  | .fcpysF64 f => pairRegs f.d
  | .frndF64 f => pairRegs f.d
  | .fclassF64 f => [f.d]
  | .haddF16 f => [f.d]
  | .hsubF16 f => [f.d]
  | .hmulF16 f => [f.d]
  | .hminF16 f => [f.d]
  | .hmaxF16 f => [f.d]
  | .haddBf16 f => [f.d]
  | .hsubBf16 f => [f.d]
  | .hmulBf16 f => [f.d]
  | .hminBf16 f => [f.d]
  | .hmaxBf16 f => [f.d]
  | .cvt f => if wideType f.t then pairRegs f.d else [f.d]
  | .recipF32 f => [f.d]
  | .rrootF32 f => [f.d]
  | .exp2 f => [f.d]
  | .log2 f => [f.d]
  | .sin f => [f.d]
  | .cos f => [f.d]
  | .tanh f => [f.d]
  | .recipF64 f => pairRegs f.d
  | .rrootF64 f => pairRegs f.d
  | .mov f => [f.d]
  | .movD f => pairRegs f.d
  | .movFromK f => [f.d]
  | .sread f => if f.a = 7#6 ∨ f.a = 8#6 ∨ f.a = 9#6 then pairRegs f.d else [f.d]
  | .shflPick f => [f.d]
  | .shflRot f => [f.d]
  | .shflSeg f => [f.d]
  | .shflFlip f => [f.d]
  | .voteEvery f => [f.d]
  | .voteSome f => [f.d]
  | .voteMap f => pairRegs f.d
  | .voteFsum f => [f.d]
  | .voteIsum f => [f.d]
  | .ffmaF32 f => [f.d]
  | .ffmaF64 f => pairRegs f.d
  | .hfmaF16 f => [f.d]
  | .hfmaBf16 f => [f.d]
  | .imadI32 f => [f.d]
  | .imadW32 f => [f.d]
  | .faddBank f => [f.d]
  | .fmulBank f => [f.d]
  | .ffmac f => [f.d]
  | .iaddBank f => [f.d]
  | .movBank f => [f.d]
  | .movf20 f => [f.d]
  | .movi20 f => [f.d]
  | .call f => [62#6, 63#6]
  | .callx f => pairRegs f.d
  | .waitmt f => [f.d]
  | .mget f => pairRegs f.d
  | .tbarrive f => [f.d]
  | .ld f => widthRegs f.z f.d
  | .ldl f => widthRegs f.z f.d
  | .lds f => widthRegs f.z f.d
  | .ldc f => widthRegs f.z f.d
  | .ldx f => widthRegs f.z f.d
  | .atom f => groupRegs (atomGroupD f.p) f.d
  | .atoms f => groupRegs (atomGroupD f.p) f.d
  | .atomc f => groupRegs (atomGroupD f.p) f.d
  | .atomx f => groupRegs (atomGroupD f.p) f.d
  | .waitq f => [f.d]
  | .launch f => [f.d]
  | .subq f => pairRegs f.d
  | .crr f => [f.r]
  | .bist f => [f.d]
  | .trap f => if f.n.toNat < 2048 then [61, 62, 63] else []
  | _ => []

/-- The predicates the instruction writes. -/
def Instr.pWrites : Instr → List Pred3
  | .icmp f => [f.p, f.q]
  | .testW32 f => [f.p, f.q]
  | .icmpEqImm f => [f.p, f.q]
  | .icmpLtImm f => [f.p, f.q]
  | .fcmp f => [f.p, f.q]
  | .bar f => [f.p]
  | _ => []

/-- The `k` registers the instruction reads and writes (R34). -/
def Instr.kReads : Instr → List Reg6
  | .movFromK f => [f.a]
  | .mset f => pairRegs f.a
  | .tagwall f => pairRegs f.a
  | .tagwany f => pairRegs f.a
  | .tagfirst f => pairRegs f.a
  | .tcfg f => pairRegs f.a
  | .wld f => f.a :: pairRegs f.b
  | .mms f => f.a :: pairRegs f.b
  | .ast f => [f.a]
  | .ald f => [f.a]
  | .scld f => f.a :: pairRegs f.b
  | _ => []
def Instr.kWrites : Instr → List Reg6
  | .movToK f => [f.d]
  | .tagwany f => pairRegs f.d
  | .tagfirst f => [f.d]
  | _ => []
/-- The mask registers the instruction reads, and the one it writes whole (R319, R320). -/
def Instr.maskReads : Instr → List Nat
  | .join f | .leave f | .waitm f => [f.a.toNat]
  | .waitmt f => [f.a.toNat]
  | .mand f | .mor f | .mxor f | .mandn f => [f.a.toNat, f.b.toNat]
  | .mmov f => [f.a.toNat]
  | .mget f => [f.a.toNat]
  | _ => []
def Instr.maskWritten : Instr → Option Nat
  | .mand f | .mor f | .mxor f | .mandn f => some f.d.toNat
  | .mmov f | .mset f => some f.d.toNat
  | _ => none

/-- The crew-wide instructions (R48). -/
def Instr.crewWide : Instr → Bool
  | .tcfg _ | .wld _ | .wswap _ | .mms _ | .ast _ | .ald _ | .azero _ | .scld _ | .batonPass _ | .batonWait _ => true
  | .tagwany _ | .tagwall _ | .tagfirst _ => true
  | .shflPick _ | .shflRot _ | .shflSeg _ | .shflFlip _ => true
  | .voteEvery _ | .voteSome _ | .voteMap _ | .voteFsum _ | .voteIsum _ => true
  | .mand _ | .mor _ | .mxor _ | .mandn _ | .mmov _ | .mset _ => true
  | .movToK _ => true
  | .solve _ | .solend _ => true
  | _ => false

/-- The matrix instructions of major 0x3D, minors 0 to 7 (R158). -/
def Instr.matrix : Instr → Bool
  | .tcfg _ | .wld _ | .wswap _ | .mms _ | .ast _ | .ald _ | .azero _ | .scld _ => true
  | _ => false

/-- The supervisor instructions (§ in R254). -/
def Instr.privileged : Instr → Bool
  | .eret _ | .crr _ | .crw _ | .icinv _ | .tlbinv _ | .bist _ | .halt _ => true
  | _ => false

/-- The formats an `XMOD` may guard (R259). -/
def Instr.xmodGuard : Instr → Bool
  | .ffmaF32 _ | .ffmaF64 _ | .hfmaF16 _ | .hfmaBf16 _ | .imadI32 _ | .imadW32 _ => true
  | .atom _ | .red _ | .atoms _ | .atomc _ | .atomx _ | .reds _ | .redc _ | .redx _ => true
  | _ => false

/-- Payload bits an `XLIT` may use with this consumer; none when it serves no `XLIT` (R258). -/
def Instr.xlitBits : Instr → Option Nat
  | .movf20 _ | .movi20 _ => some 12
  | .iaddImm _ | .imulImm _ | .andImm _ | .orImm _ | .xorImm _ | .shlImm _ | .shrImm _ | .sarImm _ => some 22
  | .icmpEqImm _ | .icmpLtImm _ => some 22
  | .faddBank _ | .fmulBank _ | .ffmac _ | .iaddBank _ | .movBank _ => some 7
  | .pref _ | .ld _ | .st _ | .ldl _ | .stl _ | .lds _ | .sts _ | .ldc _ | .stc _ | .ldx _ | .stx _ => some 22
  | .crr _ | .crw _ => some 4
  | _ => none

/-- Hints (R257). -/
def Instr.isHint : Instr → Bool
  | .xlit _ | .xmod _ | .dict _ | .sched _ => true
  | _ => false

/-- Majors 0x3D, 0x3E and 0x3F, which take no guard from an `XMOD` (R365, R415). -/
def Instr.engineMajor (i : Instr) : Bool :=
  match encode i with
  | some w => 0x3D ≤ majorOf w
  | none => false

/-- An instruction with a release or acquire role, a wait, or the end of a thread: a deferred fault is delivered before it
(R125, R409). -/
def Instr.delivery : Instr → Bool
  | .bar _ | .tbwait _ | .tagwall _ | .tagwany _ | .tagfirst _ | .waitq _ | .exit _ | .tdone _ => true
  | .ld f | .ldl f | .lds f | .ldc f | .ldx f | .st f | .stl f | .sts f | .stc f | .stx f => f.r
  | .fenceRel _ | .fenceAcq _ | .fenceAr _ => true
  | .atom f => f.o != 0
  | .red f => f.o != 0
  | .waitm _ | .waitmt _ | .tbarrive _ => true
  | .cpy _ | .cpyg _ | .cpys _ | .msend _ | .rput _ | .ratom _ | .launch _ | .publish _ => true
  | .solve _ | .solend _ | .batonPass _ | .batonWait _ => true
  | _ => false

/-- Stores and atomics count as effects of an iteration (R61). -/
def Instr.storing : Instr → Bool
  | .st _ | .stl _ | .sts _ | .stc _ | .stx _ | .tbinit _ => true
  | _ => false

end Sys2Proof

namespace Sys2Proof.Machine

/-- The guard of one thread at an instruction: its guard field, the guard an `XMOD` supplies, or true (R49, R259). -/
def guardOf (i : Instr) (t : Thread) : Bool :=
  match i.guardField with
  | some p => t.pred p
  | none =>
    match t.xmod with
    | some h => if i.xmodGuard && h.e then t.pred h.g else true
    | none => true

/-- The predicates the guard reads. -/
def guardPreds (i : Instr) (t : Thread) : List Pred3 :=
  match i.guardField with
  | some p => [p]
  | none =>
    match t.xmod with
    | some h => if i.xmodGuard && h.e then [h.g] else []
    | none => []

/-- The control registers of 64 bits by their index (R360). -/
def wideIndex (x : Nat) : Bool :=
  !([0x0011, 0x0012, 0x0202, 0x0203, 0x0211, 0x0420, 0x0421].contains x || (0x0410 ≤ x && x ≤ 0x0416))

/-- The control register index of `CRR` and `CRW` (R258). -/
def Thread.crIndex (t : Thread) (x : BitVec 12) : Nat :=
  match t.xlit with
  | some p => p.toNat % 16 * 4096 + x.toNat
  | none => x.toNat

/-- The general registers an instruction reads in a thread: what a control word names is read only then (R326, R344). Of a
copy into a tensor only its record shows whether it completes on a barrier. -/
def readsOf (i : Instr) (t : Thread) : List Reg6 :=
  let copied := fun (d a : Reg6) (barrier : Bool) =>
    (if (t.reg d).getLsbD 31 then [a + 2, a + 3] else []) ++ if barrier then [a + 1] else []
  let list := fun (d : Reg6) => if (t.reg (d + 1)).getLsbD 9 then [] else [d + 3]
  let dense := fun (d : Reg6) => bits (t.reg d).toNat 7 6 == 2
  i.gReads ++ match i with
    | .cpy f => copied f.d f.a ((t.reg f.d).getLsbD 15 || (!(t.reg f.d).getLsbD 16 && dense f.d))
    | .cpyg f => copied f.d f.a (dense f.d) ++ list f.d
    | .cpys f => copied f.d f.a false ++ list f.d
    | .msend f => if (t.reg (f.a + 1)).getLsbD 16 then [f.b + 1] else []
    | .rput f => if (t.reg (f.a + 1)).getLsbD 16 then [f.b + 1] else []
    | .ratom f => groupRegs (atomGroupB (BitVec.ofNat 4 (t.reg (f.a + 1)).toNat)) f.b
    | .crw f => if wideIndex (t.crIndex f.x) then [f.r + 1] else []
    | _ => []
/-- The general registers an instruction writes in a thread, once its results have returned. -/
def writesOf (i : Instr) (t : Thread) : List Reg6 :=
  i.gWrites ++ match i with
    | .rget f => (upto (bits (t.reg (f.a + 1)).toNat 14 8)).map fun k => f.d + BitVec.ofNat 6 k
    | .ratom f =>
      if (t.reg (f.a + 1)).getLsbD 4 then groupRegs (atomGroupD (BitVec.ofNat 4 (t.reg (f.a + 1)).toNat)) f.d else []
    | .crr f => if wideIndex (t.crIndex f.x) then [f.r + 1] else []
    | _ => []

/-- Rounding mode in force (R81, R82): an `XMOD` code, else nearest even. -/
def Thread.mode (t : Thread) : BitVec 2 :=
  match t.xmod with
  | some h => if h.r then h.o else 0
  | none => 0
/-- The rounding code an `XMOD` names, if it does. -/
def Thread.modeGiven (t : Thread) : Option (BitVec 2) :=
  match t.xmod with
  | some h => if h.r then some h.o else none
  | none => none
/-- Saturation in force (R83). -/
def Thread.satur (t : Thread) : Bool :=
  match t.xmod with
  | some h => h.t
  | none => false
/-- The cache policy of a global access (R109). -/
def Thread.policy (t : Thread) : Nat :=
  match t.xmod with
  | some h => if h.c then h.l.toNat else 0
  | none => 0

/-- The immediate of a GI form (R258): sign- or zero-extended, or completed by an `XLIT`. -/
def Thread.imm (t : Thread) (i : BitVec 10) (signed : Bool) : Word :=
  match t.xlit with
  | some p => BitVec.ofNat 32 (p.toNat % 2 ^ 22 * 1024 + i.toNat)
  | none => if signed then i.signExtend 32 else i.setWidth 32

/-- The word offset of a GC form (R258). -/
def Thread.bankWord (t : Thread) (w : BitVec 7) : Nat :=
  match t.xlit with
  | some p => p.toNat % 128 * 128 + w.toNat
  | none => w.toNat

/-- The byte offset of an M form (R258, R308). -/
def Thread.memOffset (t : Thread) (i : BitVec 5) (z : Nat) : Int :=
  match t.xlit with
  | some p => (BitVec.ofNat 27 (p.toNat % 2 ^ 22 * 32 + i.toNat)).toInt * z
  | none => i.toInt * z

end Sys2Proof.Machine
end

