-- ==== Sys2Proof/Machine/Virt.lean ====
section
/-!
DEFINITION. The accesses the device makes to virtual memory for itself, with a privilege (R480): reads at the homes, writes as
an engine (R135), and regions whose layout is not architected.
-/
namespace Sys2Proof.Machine

/-- The error that memory answers an access of pages with, a read or a write, and its address (R443, R476): a read meets what
cannot be corrected, a write only what is shut. -/
def State.memoryError (s : State) (k : AccKind) : Nat → List (Nat × Nat) → Option (TFault × Nat)
  | _, [] => none
  | va, (pa, m) :: rest =>
    if m != 0 && (if k = .write then s.shut pa else s.deadRange pa m) then some (.memory (s.errorDetail pa), va)
    else s.memoryError k (va + m) rest

/-- Reads bytes of a context's memory with a privilege: the bytes at their homes, or the failing address. The device's own
accesses look up from the TLB of a die (assumption 75). -/
def readVirt (s : State) (die ctx : Nat) (sup : Bool) (va n : Nat) : State × Except (TFault × Nat) (List Byte) :=
  match translateRange s (.die die) ctx sup .read (n / 4096 + 2) va n with
  | (s', .error e) => (s', .error e)
  | (s', .ok ps) =>
    match s'.memoryError .read va ps with
    | some e => (s', .error e)
    | none => (s', .ok (ps.flatMap fun p => s'.homeBytes p.1 p.2))

/-- Bytes of a context's memory stand in words that an engine has still to write (R135). -/
def virtBusy (s : State) (die ctx : Nat) (sup : Bool) (k : AccKind) (va n : Nat) : Bool :=
  match (translateRange s (.die die) ctx sup k (n / 4096 + 2) va n).2 with
  | .ok ps => n != 0 && ps.any fun p => s.isBusy .phys p.1 p.2
  | .error _ => false

/-- Writes bytes of a context's memory as an engine; nothing is written when a page fails or its memory is shut. -/
def writeVirt (s : State) (die ctx : Nat) (sup : Bool) (va : Nat) (bs : List Byte) :
    State × Except (TFault × Nat) Unit :=
  match translateRange s (.die die) ctx sup .write (bs.length / 4096 + 2) va bs.length with
  | (s', .error e) => (s', .error e)
  | (s', .ok ps) =>
    match s'.memoryError .write va ps with
    | some e => (s', .error e)
    | none => (putPages s' ps bs, .ok ())
where
  putPages (s : State) : List (Nat × Nat) → List Byte → State
    | [], _ => s
    | (pa, m) :: rest, bs => putPages (engineWrite s pa (bs.take m)) rest (bs.drop m)

/-- Fills a region of a context's memory whose layout is not architected with free bytes, where it can be written
(assumption 43). -/
def scramble (s : State) (die ctx : Nat) (sup : Bool) (va n : Nat) : State :=
  let x := writeVirt s die ctx sup va ((upto n).map fun i => Config.freeByte (s.fresh + i))
  { x.1 with fresh := s.fresh + n }

end Sys2Proof.Machine
end

