-- ==== Sys2Proof/Machine/Trace.lean ====
section
/-!
DEFINITION. Trace streams (R378 to R382): event and synchronisation records, the rings of the cores, dropped records, and the
groups of synchronisation records; the counting of causal trials (R383).
-/
namespace Sys2Proof.Machine

/-! ## Records (R379, R380) -/

/-- Byte offset of an address from the code object's base. -/
def codeOffset (l : Launch) (pc : DWord) : Nat := (pc - l.code).toNat % 2 ^ 32

/-- An event record, 32 bytes. -/
def eventBytes (type crew flags pc time value : Nat) (lanes : BitVec 64) : List Byte :=
  leBytes 2 type ++ leBytes 1 crew ++ leBytes 1 flags ++ leBytes 4 pc ++ leBytes 8 time ++ leBytes 8 value ++
    leBytes 8 lanes.toNat

/-- A synchronisation record, 96 bytes. -/
def syncBytes (s : State) (l : Launch) (tm : Team) (c : Crew) (forced : Bool) (sequence : Nat) (pc : DWord)
    (lanes : BitVec 64) : List Byte :=
  leBytes 2 1 ++ leBytes 1 c.slot ++ leBytes 1 forced.toNat ++ leBytes 4 sequence ++ leBytes 8 s.time ++
    leBytes 8 l.code.toNat ++ leBytes 8 pc.toNat ++ leBytes 8 lanes.toNat ++ leBytes 8 c.retired.toNat ++
    leBytes 1 tm.stage ++ leBytes 3 0 ++ leBytes 4 tm.x.toNat ++ leBytes 4 tm.y.toNat ++ leBytes 4 tm.z.toNat ++
    tm.barPhase.toList.flatMap fun p => leBytes 2 p.toNat

/-- The distinct PCs of the threads of a crew that a mask chooses, each with its lanes, by lowest lane. -/
def pcGroups (c : Crew) (m : BitVec 64) : List (DWord × BitVec 64) :=
  (upto 64).foldl (fun gs l =>
    if m.getLsbD l then
      let pc := (c.thread l).pc
      Tbl.put gs pc (Tbl.atD gs pc 0 ||| (1#64 <<< l))
    else gs) []

/-- The lanes of a crew whose threads have not ended. -/
def Crew.liveLanes (c : Crew) : BitVec 64 :=
  (upto 64).foldl (fun m l => if (c.thread l).exited then m else m ||| (1#64 <<< l)) 0

/-! ## Streams (R378, R382) -/

/-- A trace follows a team. -/
def Trace.follows (t : Trace) (tm : Team) : Bool :=
  t.launch == tm.launch && (match t.team with | some n => n == tm.index && tm.task.isNone | none => true)

def State.trace? (s : State) (launch : Nat) (team : Option Nat) : Option Trace :=
  s.traces.find? fun t => t.launch == launch && t.team == team
def State.setTrace (s : State) (t : Trace) : State :=
  { s with traces := s.traces.map fun x => if x.launch == t.launch && x.team == t.team then t else x }

/-- Writes a record in pieces of 32 bytes into the ring of a core, and the ring's header. -/
def writeStream (s : State) (t : Trace) (ctx core at_ : Nat) (b : List Byte) : State × Bool :=
  let ring := t.base.toNat + core * t.size
  let put := fun (s : State) (va : Nat) (bs : List Byte) => writeVirt s (dieOf core) ctx true va bs
  let x := (upto (b.length / 32)).foldl (fun (x : State × Bool) k =>
    if x.2 then
      match put x.1 (ring + 64 + (at_ + 32 * k) % (t.size - 64)) ((b.drop (32 * k)).take 32) with
      | (s1, .ok _) => (s1, true)
      | (s1, .error _) => (s1, false)
    else x) (s, true)
  let w := if x.2 then at_ + b.length else at_
  let d := Tbl.atD t.dropped core 0 + (if x.2 && !b.isEmpty then 0 else 1)
  ((put x.1 ring (leBytes 8 w ++ leBytes 8 d ++ List.replicate 48 0)).1, x.2)

/-- Adds a record to the stream of a core, or drops it while 64 are in flight or its place cannot be written. -/
def putRecord (s : State) (launch : Nat) (team : Option Nat) (core : Nat) (b : List Byte) : State :=
  match s.trace? launch team with
  | none => s
  | some t =>
    let ctx := match s.launch? launch with | some l => l.ctx | none => 0
    let at_ := Tbl.atD t.written core 0
    let dropIt := fun (s : State) =>
      s.setTrace { t with dropped := Tbl.put t.dropped core (Tbl.atD t.dropped core 0 + 1)
                          lost := Tbl.put t.lost core (Tbl.atD t.lost core 0 + 1) }
    if 64 ≤ (s.core core).tracePending then dropIt (writeStream s t ctx core at_ []).1
    else
      match writeStream s t ctx core at_ b with
      | (s1, false) => dropIt s1
      | (s1, true) =>
        let s2 := s1.setTrace { t with written := Tbl.put t.written core (at_ + b.length)
                                       records := Tbl.put t.records core (Tbl.atD t.records core 0 + 1) }
        s2.setCore core fun c => { c with tracePending := c.tracePending + 1 }

/-- Records of a core's stream so far. -/
def State.recordCount (s : State) (launch : Nat) (team : Option Nat) (core : Nat) : Nat :=
  match s.trace? launch team with | some t => Tbl.atD t.records core 0 | none => 0

/-- The records of a sync group: one for each distinct PC among the live threads of each traced crew of the core (R381). -/
def writeGroup (s : State) (t : Trace) (core : Nat) (forced : Bool) : State :=
  match s.launch? t.launch with
  | none => s
  | some l =>
    let crews := (upto 16).flatMap fun slot => s.crews.filter fun c => c.2.slot == slot && s.teamCore c.1.team == core
    crews.foldl (fun s c =>
      match s.team? c.1.team with
      | none => s
      | some tm =>
        if t.follows tm then
          (pcGroups c.2 c.2.liveLanes).foldl (fun s g =>
            putRecord s t.launch t.team core
              (syncBytes s l tm c.2 forced (s.recordCount t.launch t.team core) g.1 g.2)) s
        else s) s

/-- A sync group follows when a stream that held `n` records has passed a multiple of 4,096, whatever its last record was
(R381). -/
def groupDue (s : State) (t : Trace) (core n : Nat) : State :=
  if s.recordCount t.launch t.team core / 4096 = n / 4096 then s else writeGroup s t core false
def syncGroup (s : State) (t : Trace) (core : Nat) (forced : Bool) : State :=
  groupDue (writeGroup s t core forced) t core (s.recordCount t.launch t.team core)

/-- An event of a crew: a record in every trace that follows its team. -/
def traceEvent (s : State) (c : CRef) (type flags : Nat) (pc : DWord) (value : Nat) (lanes : BitVec 64) : State :=
  if s.traces.isEmpty || lanes == 0 then s
  else
    match s.team? c.team, s.crew? c, s.teamLaunch? c.team with
    | some tm, some w, some (_, l) =>
      (s.traces.filter fun t => t.follows tm).foldl (fun s t =>
        groupDue (putRecord s t.launch t.team tm.core
            (eventBytes type w.slot flags (codeOffset l pc) s.time value lanes))
          t tm.core (s.recordCount t.launch t.team tm.core)) s
    | _, _, _ => s

/-- An event of a whole team: a record for each crew with live threads, at its lowest live lane's PC. -/
def traceTeam (s : State) (team type value : Nat) : State :=
  if s.traces.isEmpty then s
  else
    (s.crews.filter fun c => c.1.team == team).foldl (fun s c =>
      match pcGroups c.2 c.2.liveLanes with
      | g :: _ => traceEvent s c.1 type 0 g.1 value c.2.liveLanes
      | [] => s) s

/-- The threads of a deterministic crew that issue are in the handler of a page fault (R69). -/
def Crew.handles (c : Crew) (issued : BitVec 64) : Bool :=
  c.service.isSome && (upto 64).all fun l => !issued.getLsbD l || (c.thread l).sup

/-- The events of one issue that stand in the registers of its threads: taken branches by target, `ERET`, entries of the user
handler, and ends of threads. The branches of a page fault's handler have none under deterministic mode: a fault that one run has
and another has not changes no sequence of R385. -/
def traceCrew (i : Instr) (done : BitVec 64) (c0 : Crew) (s : State) (x : CRef × Crew) : State :=
  let at_ := fun (l : BitVec 64) => match pcGroups c0 l with | g :: _ => g.1 | [] => 0
  match i with
  | .bra _ | .call _ | .brx _ | .callx _ | .ret _ =>
    if c0.handles done then s else
    let code := match s.teamLaunch? x.1.team with | some (_, l) => l.code | none => 0
    (pcGroups x.2 done).foldl (fun s g => traceEvent s x.1 2 0 (at_ g.2) ((g.1 - code).toNat % 2 ^ 32) g.2) s
  | .trap _ =>
    let cause := match (upto 64).find? fun l => done.getLsbD l with | some l => (x.2.thread l).ecause.toNat | none => 0
    traceEvent s x.1 3 0 (at_ done) cause done
  | .eret _ => traceEvent s x.1 4 0 (at_ done) 0 done
  | .exit _ | .tdone _ =>
    let ended := c0.liveLanes &&& ~~~x.2.liveLanes
    traceEvent s x.1 9 0 (at_ ended) 0 ended
  | _ => s

/-- A barrier has completed (16 is the region barrier): a record for each PC at which threads of a crew go on. -/
def traceBarrier (s : State) (team n phase : Nat) : State :=
  if s.traces.isEmpty then s
  else
    match s.team? team with
    | none => s
    | some tm =>
      (s.crews.filter fun c => c.1.team == team && c.1.crew < tm.crews).foldl (fun s c =>
        (pcGroups c.2 c.2.liveLanes).foldl (fun s g => traceEvent s c.1 5 0 g.1 (n + phase % 2 ^ 16 * 2 ^ 16) g.2) s) s

/-- The team barriers that completed in an issue. -/
def traceBarriers (s0 s : State) : State :=
  s.teams.foldl (fun s t =>
    match s0.team? t.1 with
    | none => s
    | some t0 =>
      (upto 16).foldl (fun s n =>
        if t0.barPhase.getD n 0 = t.2.barPhase.getD n 0 then s
        else traceBarrier s t.1 n (t.2.barPhase.getD n 0).toNat) s) s

/-! ## Causal trials (R383) -/

/-- A trial counts the threads that have issued, and holds back those outside its range. -/
def trialCrew (t : Trial) (l : Launch) (issued : BitVec 64) (c0 c : Crew) : Trial × Crew :=
  let inside := fun n => t.lo ≤ codeOffset l (c0.thread n).pc && codeOffset l (c0.thread n).pc < t.hi
  let lanes := (upto 64).filter fun n => issued.getLsbD n
  ({ t with inside := t.inside + (lanes.filter fun n => inside n).length
            outside := t.outside + (lanes.filter fun n => !inside n).length },
   { c with threads := c.threads.mapIdx fun n x =>
       if issued.getLsbD n && !inside n then
         let r := max x.readyAt (x.lastIssue + Config.issueInterval + t.delay)
         { x with readyAt := r, rankAt := r }
       else x })

/-- The trials that watch a crew's launch see an issue of it. -/
def countTrials (s : State) (c : CRef) (issued : BitVec 64) (c0 : Crew) : State :=
  if s.trials.isEmpty || issued == 0 then s
  else
    match s.teamLaunch? c.team with
    | none => s
    | some (id, l) =>
      s.trials.zipIdx.foldl (fun s t =>
        if t.1.launch = id then
          match s.crew? c with
          | none => s
          | some w =>
            let x := trialCrew t.1 l issued c0 w
            { s.setCrew c fun _ => x.2 with trials := s.trials.set t.2 x.1 }
        else s) s

end Sys2Proof.Machine
end

