-- ==== Sys2Proof/Machine/Ops.lean ====
section
/-!
DEFINITION. The operations the meanings share: the issue group and what happens to its lanes (R46, R49), releases and
acquires (R131 to R133), deferred faults (R408, R409), taking an exception and returning from one (R404 to R407, R358), and
the issue of one instruction with its checks in order (R412).
-/
namespace Sys2Proof.Machine

/-! ## Issue groups -/

/-- Whether a group holds a lane of a crew. -/
def maskFor (l : List (CRef × BitVec 64)) (c : CRef) : BitVec 64 := (Tbl.at? l c).getD 0

/-- The threads still to be served, in ascending lane order. -/
def Group.refs (g : Group) : List TRef :=
  (upto 64).filterMap fun l =>
    (g.lanes.find? fun x => x.2.getLsbD l).map fun x => ⟨x.1.team, x.1.crew, l⟩

def laneBit (l : Nat) : BitVec 64 := 1#64 <<< l

/-- Removes a thread from the lanes still to be served. -/
def Group.drop (g : Group) (r : TRef) : Group :=
  let ls := g.lanes.map fun x => if x.1 = r.cref then (x.1, x.2 &&& ~~~laneBit r.lane) else x
  { g with lanes := ls.filter fun x => x.2 != 0 }
/-- Adds a thread to a list of lanes. -/
def addLane (l : List (CRef × BitVec 64)) (r : TRef) : List (CRef × BitVec 64) :=
  Tbl.put l r.cref (maskFor l r.cref ||| laneBit r.lane)
/-- A thread has executed and set its own PC. -/
def Group.finished (g : Group) (r : TRef) : Group := { g.drop r with done := addLane g.done r }
/-- A thread traps: it leaves the group and its cause is kept for the end of the issue. -/
def Group.fault (g : Group) (r : TRef) (c : Cause) : Group := { g.drop r with traps := g.traps ++ [(r, c)] }

/-- What became of an instruction in one lane. -/
inductive LaneRes where
  /-- It executed; the PC advances. -/
  | ok (s : State)
  /-- It executed and set the PC itself. -/
  | jump (s : State)
  /-- It did not issue in this lane and is tried again; only caches changed. -/
  | stall (s : State)
  /-- It traps without any effect (R407); only caches changed. -/
  | trap (s : State) (c : Cause)

/-- Acts on each lane whose guard is true, in ascending lane order; the others only advance (R49). The ascending order is the
model's where the spec promises none: of atomics of one group on one word, R97 and R316 allow any (assumption 79). -/
def State.eachLane (s : State) (i : Instr) (f : TRef → State → LaneRes) : State :=
  s.cur.refs.foldl (fun s r =>
    if guardOf i (s.thread r) then
      match f r s with
      | .ok s' => s'
      | .jump s' => { s' with cur := s'.cur.finished r }
      | .stall s' => { s' with cur := s'.cur.drop r }
      | .trap s' c => { s' with cur := s'.cur.fault r c }
    else s) s

/-- Acts on each lane whose guard is true in ascending order; once one has to wait, those above it wait too, so that what they queue
keeps the order of the lanes (R120, R334). -/
def State.eachLaneOrdered (s : State) (i : Instr) (f : TRef → State → LaneRes) : State :=
  (s.cur.refs.foldl (fun (acc : State × Bool) r =>
    if guardOf i (acc.1.thread r) then
      if acc.2 then ({ acc.1 with cur := acc.1.cur.drop r }, true)
      else
        match f r acc.1 with
        | .ok s' => (s', false)
        | .jump s' => ({ s' with cur := s'.cur.finished r }, false)
        | .stall s' => ({ s' with cur := s'.cur.drop r }, true)
        | .trap s' c => ({ s' with cur := s'.cur.fault r c }, false)
    else acc) (s, false)).1

/-- Acts on the threads of a crew that a mask chooses and whose guard is true. -/
def mapCrew (i : Instr) (m : BitVec 64) (f : Nat → Thread → Thread) (c : Crew) : Crew :=
  { c with threads := c.threads.mapIdx fun l t => if m.getLsbD l && guardOf i t then f l t else t }

/-- Acts on the threads of the group whose guard is true, each by itself (R49). -/
def State.mapLanes (s : State) (i : Instr) (f : Crew → Nat → Thread → Thread) : State :=
  { s with crews := s.crews.map fun x => (x.1, mapCrew i (maskFor s.cur.lanes x.1) (f x.2) x.2) }

/-- The crew of a crew-wide group (R48). -/
def State.curCrew (s : State) : CRef := match s.cur.lanes with | x :: _ => x.1 | [] => ⟨0, 0⟩

/-- The lowest lane of a crew whose guard is true (R34). -/
def State.leadLane (s : State) (i : Instr) : Option Nat :=
  match s.crew? s.curCrew with
  | none => none
  | some c => (upto 64).find? fun l => (maskFor s.cur.lanes s.curCrew).getLsbD l && guardOf i (c.thread l)

/-- A crew-wide instruction is refused: it traps in all its lanes together (R407). -/
def State.trapAll (s : State) (c : Cause) : State :=
  s.cur.refs.foldl (fun s r => { s with cur := s.cur.fault r c }) s

/-- Everything of the group waits: nothing issues. -/
def State.stallAll (s : State) : State := { s with cur := { s.cur with lanes := [] } }

/-- The threads of the group have executed and set their own PC or wait. -/
def State.finishAll (s : State) : State :=
  let done := s.cur.lanes.foldl (fun d x => Tbl.put d x.1 (maskFor d x.1 ||| x.2)) s.cur.done
  { s with cur := { s.cur with lanes := [], done := done } }

/-- Length of the executing instruction: a word, or a code of a run (R261). -/
def Group.len (g : Group) : DWord := if g.code.isSome then 2 else 4

/-! ## Deferred faults (R409) -/

/-- A team where it is: on a core, or in its image (R233). -/
def State.teamAny? (s : State) (t : Nat) : Option Team :=
  match s.team? t with
  | some tm => some tm
  | none => (s.images.find? fun i => i.team == t).map (·.data)
/-- Changes a team where it is. -/
def State.setTeamAny (s : State) (t : Nat) (f : Team → Team) : State :=
  let s1 := s.setTeam t f
  { s1 with images := s1.images.map fun i => if i.team = t then { i with data := f i.data } else i }
/-- Changes a crew where it is. -/
def State.setCrewAny (s : State) (c : CRef) (f : Crew → Crew) : State :=
  let s1 := s.setCrew c f
  { s1 with images := s1.images.map fun i => { i with crews := Tbl.upd i.crews c f } }

/-- The lowest lane a cause names. -/
def Cause.lowLane (c : Cause) : Nat := ((upto 64).find? fun l => c.lanes.getLsbD l).getD 64
/-- The order of pending faults: detection time, then lane; the faults of a team are of its one core (R409). -/
def Cause.notAfter (a b : Cause) : Bool :=
  a.detected < b.detected || (a.detected == b.detected && a.lowLane ≤ b.lowLane)
/-- Leaves a deferred fault pending on a team, in the order of R409; a pre-empted team carries it in its image. -/
def State.defer (s : State) (team : Nat) (c : Cause) : State :=
  s.setTeamAny team fun tm =>
    { tm with deferred :=
        tm.deferred.takeWhile (·.notAfter c) ++ { c with deferred := true } :: tm.deferred.dropWhile (·.notAfter c) }

/-! ## Releases and acquires (R131 to R133, R408) -/

/-- The core-wide crew number of a crew (R38). -/
def State.slotOf (s : State) (c : CRef) : Nat := match s.crew? c with | some w => w.slot | none => 0

/-- Reports failed write-backs: one deferred fault for each page (R408, R431). `start` is what started the
write-back; a release answers with its instruction and lane, any other start with the store itself. -/
def reportWriteBacks (s : State) (start : Nat) (answer : Option (CRef × DWord)) (lanes : DWord) :
    List (L1Word × Nat) → List (Nat × Nat) → State
  | [], _ => s
  | (w, k) :: ws, seen =>
    if seen.contains w.pageKey then reportWriteBacks s start answer lanes ws seen
    else
      let n := 1 + (ws.filter fun x => x.1.pageKey == w.pageKey).length
      let crew := match answer with | some a => a.1 | none => w.crew
      let pc := match answer with | some a => a.2 | none => w.pc
      let c : Cause := { cls := 7, code := k, detail := start + 256 * min n 255, addr := w.va, pc := pc,
                         originPc := w.pc, originTime := w.time, detected := s.time, lanes := if answer.isSome then lanes else laneBit w.lane,
                         crew := some (s.slotOf crew) }
      reportWriteBacks (s.defer crew.team c) start answer lanes ws (w.pageKey :: seen)

/-- Writes back words, in the order of the list; the failing ones with their codes. -/
def writeBackList (s : State) : List L1Word → State × List (L1Word × Nat)
  | [] => (s, [])
  | w :: ws =>
    match writeBackWord s w with
    | (s', none) => writeBackList s' ws
    | (s', some k) => let x := writeBackList s' ws; (x.1, (w, k) :: x.2)

/-- Dirty words of other cores that own words of a list: an atomic in an L1 leaves such words (R123). -/
def State.owedWords (s : State) (ws : List L1Word) : List L1Word :=
  s.l1.filter fun x => x.owned && x.dirty != 0 && ws.any fun w => w.pa == x.pa && w.core != x.core

/-- Words on their way home meet sectors that no tier can correct: no access does, and the log says so (R443, R479). -/
def logUnmet (s : State) (ws : List L1Word) : State :=
  ((ws.filter fun w => s.dead w.pa && !s.shut w.pa).map fun w => w.pa / 64).eraseDups.foldl
    (fun s n => logEntry s 2 (homeDie (64 * n)) (s.errorDetail (64 * n)) 0 (64 * n)) s

/-- Writes back words: the homes first recall what another core owns of them and has changed (R123, R131, R431). The failing
words with their codes. -/
def writeBackAll (s : State) (ws : List L1Word) : State × List (L1Word × Nat) :=
  let x := writeBackList s (s.owedWords ws)
  writeBackList (reportWriteBacks (logUnmet x.1 ws) 3 none 0 x.2 []) (ws.filter fun w => !(s.owedWords ws).contains w)

/-- The words of its core's L1 that a crew's threads have dirtied. -/
def State.dirtied (s : State) (c : CRef) : List L1Word :=
  let core := s.teamCore c.team
  s.l1.filter fun w => w.core == core && w.dirty != 0 && w.writers.contains c

/-- The effect of a release of a crew: every word its threads dirtied is registered at its home (R133). `lanes` issued it. -/
def releaseNow (s : State) (c : CRef) (pc : DWord) (lanes : DWord) : State :=
  let x := writeBackAll s (s.dirtied c)
  let s' := reportWriteBacks x.1 0 (some (c, pc)) lanes x.2 []
  s'.setCrew c fun w => { w with fence := none }

/-- The crews with a `FENCE.REL` still pending among the writers of words, or of what their write-back recalls. -/
def State.fenced (s : State) (ws : List L1Word) : List CRef :=
  (((ws ++ s.owedWords ws).flatMap (·.writers)).eraseDups).filter fun c => ((s.crew? c).bind (·.fence)).isSome

/-- The crews whose pending `FENCE.REL` has to complete before words are written back: a store after it may not be seen before
the stores ahead of it, and these may be words that another crew has written after its own (R133, R313). -/
def State.ties (s : State) : Nat → List CRef → List L1Word → List CRef
  | 0, cs, _ => cs
  | fuel + 1, cs, ws =>
    match (s.fenced ws).filter fun c => !cs.contains c with
    | [] => cs
    | new => s.ties fuel (cs ++ new) (new.flatMap s.dirtied)
/-- The pending releases that words wait for. -/
def State.tied (s : State) (ws : List L1Word) : List CRef := s.ties s.crews.length [] ws

/-- Engines have still to write some of the words, or of what goes home with them (R135). -/
def State.heldWords (s : State) (ws : List L1Word) : Bool := ws.any fun w => s.isBusy .phys w.pa 4
def State.tieBlocked (s : State) (ws : List L1Word) : Bool := s.heldWords ((s.tied ws).flatMap s.dirtied)

/-- The pending releases that words wait for complete. -/
def settle (s : State) (ws : List L1Word) : State :=
  (s.tied ws).foldl (fun s c =>
    match (s.crew? c).bind (·.fence) with
    | some (pc, lanes) => releaseNow s c pc lanes
    | none => s) s

/-- A release of a crew, after the pending releases of others that its words wait for. -/
def release (s : State) (c : CRef) (pc : DWord) (lanes : DWord) : State :=
  releaseNow (((s.tied (s.dirtied c)).filter (· != c)).foldl (fun s d =>
    match (s.crew? d).bind (·.fence) with
    | some (pc, lanes) => releaseNow s d pc lanes
    | none => s) s) c pc lanes

/-- A word that a release of the crew registers stands in a sector that an engine has yet to write: it waits (R135). -/
def State.relBlocked (s : State) (c : CRef) : Bool :=
  s.heldWords (s.dirtied c) || s.tieBlocked (s.dirtied c)

/-- An effect of a lane that waits for the completion of a release of its crew (R133). -/
def afterRelease (s : State) (r : TRef) (f : State → LaneRes) : LaneRes :=
  if s.relBlocked r.cref then .stall s else f (release s r.cref (s.thread r).pc (laneBit r.lane))

/-- A store waits for the completion of an earlier `FENCE.REL` of its crew (R133). -/
def afterFence (s : State) (r : TRef) (f : State → LaneRes) : LaneRes :=
  match s.crew? r.cref with
  | some c =>
    match c.fence with
    | some (pc, lanes) => if s.relBlocked r.cref then .stall s else f (release s r.cref pc lanes)
    | none => f s
  | none => f s

/-- Write-backs that no release starts: the pending releases they wait for come first, and a word that an engine has still
to write waits (R131, R133, R135). `start` is the cause of R431; false when they have to wait. -/
def writeBackNow (s : State) (start : Nat) (lanes : DWord) (p : L1Word → Bool) : State × Bool :=
  let ws := s.l1.filter fun w => w.dirty != 0 && p w
  if s.tieBlocked ws then (s, false)
  else
    let s1 := settle s ws
    let left := s1.l1.filter fun w => w.dirty != 0 && p w
    if s1.heldWords left then (s1, false)
    else
      let x := writeBackAll s1 left
      (reportWriteBacks x.1 start none lanes x.2 [], true)

/-! ## Room in the L1 (R109) -/

/-- The lines of a core in the set of a line, by line number. -/
def State.l1SetLines (s : State) (core line : Nat) : List Nat :=
  ((s.l1.filter fun w => w.core == core && Config.l1Set (w.pa / 64) == Config.l1Set line).map fun w => w.pa / 64).eraseDups

/-- A line leaves a core's L1, its dirty words written back (R131). -/
def evictLine (s : State) (core line : Nat) : State × Bool :=
  match writeBackNow s 1 0 fun w => w.core == core && w.pa / 64 == line with
  | (s1, false) => (s1, false)
  | (s1, true) => ({ s1 with l1 := s1.l1.filter fun w => !(w.core == core && w.pa / 64 == line) }, true)

/-- Evicts the first of some lines that can leave. -/
def evictFirst (s : State) (core : Nat) : List Nat → State × Bool
  | [] => (s, false)
  | n :: ns =>
    match evictLine s core n with
    | (s1, true) => (s1, true)
    | (s1, false) => evictFirst s1 core ns

/-- Room for the line of an address in a core's L1: a full set loses a line, freely chosen among those that can leave, those
brought in under the policy that evicts first ahead of the others (R109, assumption 75); false when none can. -/
def makeRoom (s : State) (core pa : Nat) : State × Bool :=
  let lines := s.l1SetLines core (pa / 64)
  if lines.contains (pa / 64) || lines.length < Config.l1Ways then (s, true)
  else
    let x := s.takeFree
    let n := x.1.toNat % lines.length
    let turned := lines.drop n ++ lines.take n
    let soon := turned.filter fun k => s.l1.any fun w => w.core == core && w.pa / 64 == k && w.soon
    evictFirst x.2 core (soon ++ turned.filter (!soon.contains ·))

/-- The dirty words that an access by one core, or by an engine, brings home: those of owners, and that core's own bytes. -/
def State.recalled (s : State) (units : List Nat) (core : Option Nat) : List L1Word :=
  s.l1.filter fun w => w.dirty != 0 && units.contains (w.pa / 4) && (w.owned || some w.core = core)
/-- A recall has to wait for a pending release that cannot complete (R133, R135). -/
def State.recallBlocked (s : State) (units : List Nat) (core : Option Nat) : Bool := s.tieBlocked (s.recalled units core)

/-- The homes recall words from the cores that own them, and one core's own dirty bytes: what is dirty is written back first,
after the pending releases it waits for (R123, R133, R135, R431). -/
def recallWords (s : State) (units : List Nat) (core : Option Nat) (lane : Nat) : State :=
  let s0 := settle s (s.recalled units core)
  let x := writeBackAll s0 (s0.recalled units core)
  let s1 := reportWriteBacks x.1 3 none (laneBit lane) x.2 []
  let l1 := s1.l1.map fun w => if w.owned && units.contains (w.pa / 4) then { w with owned := false, valid := w.dirty } else w
  { s1 with l1 := l1.filter L1Word.live }

/-- An acquire by a thread's core (R132). -/
def acquire (s : State) (c : CRef) : State := acquireCore s (s.teamCore c.team)

/-! ## Taking an exception (R401 to R407) -/

/-- The context block of R403. -/
structure CtxBlock where
  entry : DWord
  ring : Nat
  entries : Nat
  written : Nat
  consumed : Nat
  frames : Nat
  slotSize : Nat
  slots : Nat

def CtxBlock.ofBytes (b : List Byte) : CtxBlock :=
  let f := fun a n => leNat ((b.drop a).take n)
  ⟨BitVec.ofNat 64 (f 0 8), f 8 8, f 16 4, f 24 8, f 32 8, f 40 8, f 48 4, f 52 4⟩

/-- `cr.ecause` of a cause (R401). -/
def Cause.word (c : Cause) : Word :=
  BitVec.ofNat 32 (c.cls * 2 ^ 24 + c.code * 2 ^ 16 + c.num * 16 + c.deferred.toNat)

/-- What a record names of a thread and its team. -/
def State.originOf (s : State) (r : TRef) : Origin :=
  let tm := s.team? r.team
  { ctx := s.teamCtx r.team, core := s.teamCore r.team, index := match tm with | some t => t.index | none => 0,
    slot := s.slotOf r.cref, lane := r.lane, sup := (s.thread r).sup,
    task := match tm with | some t => t.task.isSome | none => false,
    early := match tm with | some t => (match t.task with | some k => k.early | none => false) | none => false }

/-- The 64 bytes of a fault record (R406). -/
def recordOf (o : Origin) (c : Cause) (lanes : DWord) : List Byte :=
  let flags := c.deferred.toNat + 2 * (o.task || c.task).toNat + 4 * o.early.toNat + 8 * o.sup.toNat + 16 * c.revived.toNat
  leBytes 2 c.num ++ leBytes 1 c.cls ++ leBytes 1 c.code ++ leBytes 2 c.detail ++ leBytes 1 flags ++
  leBytes 1 (c.crew.getD o.slot) ++ leBytes 2 o.core ++ leBytes 2 o.ctx ++ leBytes 4 o.index ++ leBytes 8 c.detected ++
  leBytes 8 c.pc.toNat ++ leBytes 8 lanes.toNat ++ leBytes 8 c.addr.toNat ++
  leBytes 8 (if c.deferred then c.originPc.toNat else c.pc.toNat) ++
  leBytes 8 (if c.deferred then c.originTime else c.detected)

def recordBytes (s : State) (r : TRef) (c : Cause) (sup : Bool) (lanes : DWord) : List Byte :=
  recordOf { s.originOf r with sup := sup } c lanes

/-- The frame of a thread (R405). -/
def frameBytes (t : Thread) : List Byte :=
  bytesOf ((upto 8).map fun i => t.reg (BitVec.ofNat 6 (56 + i))) ++ leBytes 1 (t.p.toNat / 2 * 2) ++
    List.replicate 31 0

/-- Address of the trap frame of a thread (R405). -/
def frameAddr (s : State) (b : CtxBlock) (r : TRef) : Nat :=
  b.frames + 64 * (1024 * s.teamCore r.team + 64 * s.slotOf r.cref + r.lane)

/-- The trap of a step of the mixing engine, which has completed: it resumes at the word after the instruction (R450, R452). -/
def Cause.afterStep (c : Cause) : Bool :=
  !c.deferred && ((c.cls == 9 && 16 ≤ c.code) ||
    (c.cls == 12 && c.code == 4 && (match c.resume with | some a => c.pc.toNat < a.toNat | none => false)))

/-- Threads that share a fault record: one crew, one issue, one page, one code; the live threads of a crew that can no longer
gather; or one solve step (R418, R428, R450). -/
def shares (a b : Cause) : Bool :=
  a.cls == b.cls && a.code == b.code && a.detected == b.detected && a.pc == b.pc &&
    (if a.cls == 6 then a.page == b.page && a.addr.toNat / a.page == b.addr.toNat / b.page
     else (a.cls == 5 && a.code == 5) || (a.afterStep && b.afterStep))

/-- Every result the thread waits for at entry returns: those whose values are known are written now; one that its engine
has still to give keeps the thread waiting (R405). -/
def Thread.drained (t : Thread) : Option Thread :=
  if t.out.all fun o => o.vals.isSome then
    some (t.out.foldl (fun t o => match o.vals with | some vs => t.writeOut o.regs vs | none => t) { t with out := [] })
  else none

/-- The thread halts: its team stops, and Muaro reports the halt (R405, R387). -/
def haltThread (s : State) (r : TRef) (data : List DWord) : State :=
  let s1 := s.setThread r fun t => { t with wait := .halted, trap := none, xlit := none, xmod := none }
  let s2 := s1.setTeam r.team fun tm =>
    if tm.stopped then tm else { tm with stopWanted := some (tm.stopWanted.getD (none, false)) }
  s2.tell (.notice 0x8001 ([BitVec.ofNat 64 (s.teamCore r.team), BitVec.ofNat 64 (s.teamCtx r.team)] ++ data))

/-- The entry registers and the supervisor's code (R405 steps 4 and 5). -/
def enterThread (s : State) (r : TRef) (c : Cause) (b : CtxBlock) (record : Nat) : State :=
  s.setThread r fun t =>
    let frame := BitVec.ofNat 64 (frameAddr s b r)
    let t1 := { t with epc := c.resume.getD t.pc, estat := (t.estat &&& ~~~1) ||| (if t.sup then 1 else 0), ecause := c.word }
    let t2 := (t1.setPair 56 frame).setPair 58 (BitVec.ofNat 64 record)
    { t2 with sup := true, window := none, pc := b.entry, xlit := none, xmod := none, trap := none, late := none, exited := false,
              wait := .none, lastIssue := s.cycle }

/-- Writes the frames of threads, in order; fails at the first that does not translate. -/
def writeFrames (s : State) (die ctx : Nat) (b : CtxBlock) : List TRef → State × Except (TFault × Nat) Unit
  | [] => (s, .ok ())
  | r :: rs =>
    match writeVirt s die ctx true (frameAddr s b r) (frameBytes (s.thread r)) with
    | (s', .error e) => (s', .error e)
    | (s', .ok _) => writeFrames s' die ctx b rs

/-- Whether bytes of a context's memory can be written in supervisor privilege. -/
def writable (s : State) (die ctx va n : Nat) : State × Except (TFault × Nat) Unit :=
  match translateRange s (.die die) ctx true .write 2 va n with
  | (s', .error e) => (s', .error e)
  | (s', .ok ps) => (s', match s'.memoryError .write va ps with | some e => .error e | none => .ok ())

/-- Checks that the frames of threads can be written (R405). -/
def checkFrames (s : State) (die ctx : Nat) (b : CtxBlock) : List TRef → State × Except (TFault × Nat) Unit
  | [] => (s, .ok ())
  | r :: rs =>
    match writable s die ctx (frameAddr s b r) 64 with
    | (s', .error e) => (s', .error e)
    | (s', .ok _) => checkFrames s' die ctx b rs

/-- Halts threads whose entry fails; the notice carries the context, the address and the code of the failure. -/
def failEntry (s : State) (f : TFault × Nat) : List TRef → State
  | [] => s
  | r :: rs => failEntry (haltThread s r [BitVec.ofNat 64 f.2, BitVec.ofNat 64 (256 * f.1.cls + f.1.kind)]) f rs

/-- The fields of the context block, the record's place and the frames, all checked before anything is written. -/
def entryPlan (s : State) (r : TRef) (rs : List TRef) : State × Except (TFault × Nat) CtxBlock :=
  let ctx := s.teamCtx r.team
  let die := dieOf (s.teamCore r.team)
  let save := match s.ctx? ctx with | some c => c.saveaddr.toNat | none => 0
  match readVirt s die ctx true save 256 with
  | (s1, .error e) => (s1, .error e)
  | (s1, .ok bs) =>
    let b := CtxBlock.ofBytes bs
    match writable s1 die ctx (b.ring + 64 * (b.written % max 1 b.entries)) 64 with
    | (s2, .error e) => (s2, .error e)
    | (s2, .ok _) =>
      match writable s2 die ctx (save + 24) 8 with
      | (s3, .error e) => (s3, .error e)
      | (s3, .ok _) =>
        match checkFrames s3 die ctx b rs with
        | (s4, .error e) => (s4, .error e)
        | (s4, .ok _) => (s4, .ok b)

/-- Writes a record at the next place of the ring and advances the written count; the record's address (R406). -/
def writeRecord (s : State) (ctx die : Nat) (b : CtxBlock) (bytes : List Byte) : State × Nat :=
  let save := match s.ctx? ctx with | some c => c.saveaddr.toNat | none => 0
  let at_ := b.ring + 64 * (b.written % max 1 b.entries)
  let s1 := (writeVirt s die ctx true at_ bytes).1
  ((writeVirt s1 die ctx true (save + 24) (leBytes 8 (b.written + 1))).1, at_)

/-- Writes the record of a deferred fault of a retired team, for which no thread enters; false while the ring is full or
cannot be written (R423). -/
def orphanRecord (s : State) (o : Origin) (c : Cause) : State × Bool :=
  let die := dieOf o.core
  let save := match s.ctx? o.ctx with | some c => c.saveaddr.toNat | none => 0
  match readVirt s die o.ctx true save 256 with
  | (s1, .error _) => (s1, false)
  | (s1, .ok bs) =>
    let b := CtxBlock.ofBytes bs
    if b.entries ≤ b.written - b.consumed then (s1, false)
    else ((writeRecord s1 o.ctx die b (recordOf o c c.lanes)).1, true)

/-- Writes the waiting records of retired teams, oldest first, as far as there is room. -/
def flushOrphans : List (Origin × Cause) → State → State
  | [], s => { s with orphans := [] }
  | x :: xs, s =>
    match orphanRecord s x.1 x.2 with
    | (s1, true) => flushOrphans xs s1
    | (s1, false) => { s1 with orphans := x :: xs }

/-- A fault for a team that may have retired: it pends on the team, else its record goes to the ring (R423, R456, R481). -/
def State.deferFor (s : State) (team : Nat) (o : Origin) (c : Cause) : State :=
  if (s.teamAny? team).isSome then s.defer team c
  else flushOrphans (s.orphans ++ [(o, { c with deferred := true })]) s

/-- TAKING AN EXCEPTION: supervisor trap entry of the thread that has a trap, and of the threads that share its record
(R405 to R407, R428). The thread waits while a result is outstanding or the ring is full. In supervisor privilege it halts, but
for the thread that a deferred fault revives (R410). -/
def supervisorEntry (s : State) (r : TRef) : State :=
  match (s.thread r).trap with
  | none => s
  | some c =>
    let rs := (upto 64).filterMap fun l =>
      let q : TRef := ⟨r.team, r.crew, l⟩
      match (s.thread q).trap with
      | some c' => if l = r.lane || shares c c' then some q else none
      | none => none
    if rs.all fun q => (s.thread q).drained.isSome then
      let s0 := rs.foldl (fun s q => s.setThread q fun t => (t.drained).getD t) s
      let halts := (s0.thread r).sup && !c.revived
      match entryPlan s0 r (if halts then [] else rs) with
      | (s1, .error e) => failEntry s1 e rs
      | (s1, .ok b) =>
        if b.entries ≤ b.written - b.consumed then s1
        else
          let ctx := s1.teamCtx r.team
          let die := dieOf (s1.teamCore r.team)
          let lanes := if c.crew = some 255 then 0 else if c.lanes = 0 || 1 < rs.length then rs.foldl (fun m q => m ||| laneBit q.lane) 0 else c.lanes
          let (s2, rec) := writeRecord s1 ctx die b (recordBytes s1 r c halts lanes)
          if halts then rs.foldl (fun s q => haltThread s q [BitVec.ofNat 64 rec]) s2
          else
            let s3 := (writeFrames s2 die ctx b rs).1
            let s4 := rs.foldl (fun s q => enterThread s q (((s.thread q).trap).getD c) b rec) s3
            traceEvent s4 r.cref 3 0 (s3.thread r).pc c.word.toNat (rs.foldl (fun m q => m ||| laneBit q.lane) 0)
    else s

/-- The first word of a chain is where a fault in it resumes. -/
def Thread.chainStart (t : Thread) : DWord := if t.xlit.isSome || t.xmod.isSome then t.chain else t.pc

/-- A precise cause at the PC of the group, completed for one thread (R406, R407). -/
def preciseAt (s : State) (t : Thread) (c : Cause) : Cause :=
  { c with pc := if c.pc = 0 then t.pc else c.pc
           detected := s.time
           resume := match c.resume with
             | some a => some a
             | none => some t.chainStart }

/-- The trap of one thread: it is recorded in the thread, and entered when all threads of the issue have theirs. -/
def raise (s : State) (r : TRef) (c : Cause) : State :=
  s.setThread r fun t => { t with trap := some (if c.deferred then { c with resume := c.resume.or (some t.chainStart) }
                                               else preciseAt s t c) }

/-- The user handler of a `TRAP` (R404). -/
def userTrap (t : Thread) (entry : DWord) (n : Nat) (len : DWord) : Thread :=
  let t1 := (t.setPair 62 (t.pc + len)).setReg 61 (BitVec.ofNat 32 n)
  { t1 with epc := t.pc + len, ecause := BitVec.ofNat 32 (2 ^ 24 + n * 16), pc := entry }

/-- RETURNING FROM AN EXCEPTION: `ERET` in one thread (R358). -/
def eretThread (t : Thread) : Thread :=
  { t with pc := t.epc, sup := t.estat.getLsbD 0, xlit := none, xmod := none }

/-- Enters the traps of an issue: in ascending crew number, then lane (R428). -/
def enterTraps (s : State) (ts : List (TRef × Cause)) : State :=
  let s1 := ts.foldl (fun s x => raise s x.1 x.2) s
  let order := (upto 16).flatMap fun slot => (upto 64).flatMap fun l =>
    ts.filterMap fun x => if s.slotOf x.1.cref = slot && x.1.lane == l then some x.1 else none
  order.foldl supervisorEntry s1

/-! ## The end of an issue -/

/-- Taint after an instruction that has executed in a thread (R210). -/
def Thread.taintAfter (t0 t : Thread) (i : Instr) (kTaint : Bool) : Thread :=
  let dirty := kTaint || ((readsOf i t0).any fun r => t0.taintG.getLsbD r.toNat) ||
    ((guardPreds i t0).any fun p => t0.taintP.getLsbD p.toNat)
  let gm := (writesOf i t0).foldl (fun m r => m ||| laneBit r.toNat) 0
  let pm := i.pWrites.foldl (fun (m : BitVec 8) (p : Pred3) => if p = 0 then m else m ||| (1#8 <<< p.toNat)) 0
  { t with taintG := if dirty then t.taintG ||| gm else t.taintG &&& ~~~gm
           taintP := if dirty then t.taintP ||| pm else t.taintP &&& ~~~pm }

/-- Whether an instruction had an effect of R61 in a thread: it changed a register or predicate, its result will, or it
stored. -/
def effectOf (i : Instr) (t0 t : Thread) : Bool :=
  t0.g != t.g || t0.p != t.p || (i.storing && guardOf i t0) ||
    t.out.any fun o => !(t0.out.any fun x => x.id == o.id) && t.changes o

/-- The hints of a thread after an instruction: consumed, but for a hint, which set them itself. -/
def Thread.endIssue (t : Thread) (i : Instr) (cycle : Nat) : Thread :=
  let t1 := if i.isHint then t else { t with xlit := none, xmod := none }
  { t1 with lastIssue := cycle, readyAt := cycle + Config.issueInterval, rankAt := cycle + Config.issueInterval, pass := false,
            window := none }

/-- The source lane of a lane exchange: form 0 `PICK`, 1 `ROT`, 2 `SEG`, 3 `FLIP` (R295). -/
def shflSource (form l d : Nat) : Nat :=
  match form with
  | 0 => d % 64
  | 1 => (l + d % 64) % 64
  | 2 =>
    let z := 2 ^ min (d / 64 % 8) 6
    l - l % z + (l + d % 64) % z
  | _ => Nat.xor l (d % 64)

/-- One thread after it has executed an instruction: PC, hints, taint, spin activity (its own effects, or one on its crew's
registers), and the ready time a `YIELD` takes outside deterministic mode (R46, R49, R61, R210, R302). -/
def finishThread (i : Instr) (cycle : Nat) (det crewEffect : Bool) (adv : Option DWord) (t0 t : Thread) (k : Bool) : Thread :=
  let t1 := match adv with | some n => { t with pc := t.pc + n } | none => t
  let t2 := if guardOf i t0 then t0.taintAfter t1 i k else t1
  let t3 := if (crewEffect && guardOf i t0) || effectOf i t0 t then t2.stirred else t2
  let t4 := t3.endIssue i cycle
  match i with
  | .yield _ => if guardOf i t0 && !det then { t4 with rankAt := cycle + 1 } else t4
  | _ => t4

/-- A tainted source that stands outside the thread: a `k` register, or a register of another lane (R210). -/
def crossTaint (i : Instr) (c : Crew) (m : BitVec 64) (l : Nat) : Bool :=
  let lane := fun (a : Reg6) n => (c.thread n).taintG.getLsbD a.toNat
  let vote := fun (a : Reg6) => (upto 64).any fun n =>
    m.getLsbD n && guardOf i (c.thread n) && (lane a n || (guardPreds i (c.thread n)).any fun p => (c.thread n).taintP.getLsbD p.toNat)
  match i with
  | .movFromK f => c.taintK.getLsbD f.a.toNat
  | .shflPick f => lane f.a (shflSource 0 l ((c.thread l).reg f.b).toNat)
  | .shflRot f => lane f.a (shflSource 1 l ((c.thread l).reg f.b).toNat)
  | .shflSeg f => lane f.a (shflSource 2 l ((c.thread l).reg f.b).toNat)
  | .shflFlip f => lane f.a (shflSource 3 l ((c.thread l).reg f.b).toNat)
  | .voteEvery f | .voteSome f | .voteMap f | .voteFsum f | .voteIsum f => vote f.a
  | _ => false

/-- What `retired` counts of an issue of a deterministic crew, the service after it, and whether the issue is the handler's own:
neither the instructions of a page fault's handler nor, after the fault, an instruction counted before it count (R69). -/
def Crew.serve (i : Instr) (ex : BitVec 64) (c0 : Crew) : Bool × Option Service × Bool :=
  match c0.service with
  | none => (true, none, false)
  | some v =>
    match (upto 64).find? fun l => ex.getLsbD l && !(c0.thread l).sup with
    | none => (false, some v, true)
    | some l =>
      let again := (c0.thread l).pc == v.pc
      if !again && i.isHint then (false, some v, false)
      else
        let left := v.lanes &&& ~~~ex
        (!(again && v.counted), if left = 0 then none else some { v with lanes := left, counted := v.counted || again }, false)

/-- The service of a deterministic crew once some lanes of an issue have met a page fault. -/
def Crew.beginService (c : Crew) (lanes : DWord) (counted : Bool) : Crew :=
  match (upto 64).find? fun l => lanes.getLsbD l with
  | none => c
  | some l =>
    let old : Service := c.service.getD ⟨0, (c.thread l).pc, false⟩
    { c with service := some ⟨old.lanes ||| lanes, (c.thread l).pc, old.counted || counted⟩ }

/-- The lanes of a crew whose traps are those of pages or of memory: no inputs of a deterministic launch (R69). -/
def pageLanes (ts : List (TRef × Cause)) (c : CRef) : DWord :=
  ts.foldl (fun m x => if x.1.cref = c && (x.2.cls == 6 || x.2.cls == 7 || x.2.cls == 8 || x.2.cls == 12)
    then m ||| laneBit x.1.lane else m) 0

/-- A crew of which some lanes have met a page fault: under deterministic mode they are to issue again (R69). -/
def Crew.served (c : Crew) (det : Bool) (lanes : DWord) (counted : Bool) : Crew :=
  if lanes != 0 && det then c.beginService lanes counted else c

/-- Results that some lanes have begun to wait for and whose values are not known: what they will change, nobody knows yet. -/
def newMarks (ex : BitVec 64) (c0 c : Crew) : List (Nat × Nat) :=
  (((upto 64).filter fun l => ex.getLsbD l).flatMap fun l =>
    (c.thread l).out.filterMap fun o =>
      if o.vals.isNone && o.regs.any (·.isSome) && !((c0.thread l).out.any (·.id == o.id)) then some (o.id, 0)
      else none).eraseDups

/-- The crew's masks as a cycle began: what `MGET` reads (R320). -/
def Crew.masksAt (c : Crew) (cycle : Nat) : Vector MaskReg 12 :=
  match c.maskWas with
  | some (n, m) => if n = cycle then m else c.mask
  | none => c.mask

/-- The instructions in succession without an effect (R65): `own` marks those of a page fault's handler, which leave it as it is
(R69). Where a result without a value is under way in a deterministic crew, the count since its instruction is kept. -/
def Crew.countQuiet (det eff counts own : Bool) (ex : BitVec 64) (c0 c : Crew) : Crew :=
  if own then c
  else
    let n := if counts then 1 else 0
    { c with quietCount := if eff then 0 else c.quietCount + n
             quietMarks := if det then c.quietMarks.map (fun m => (m.1, m.2 + n)) ++ newMarks ex c0 c else c.quietMarks }

/-- A crew after an issue: its threads, its count of instructions, and the effectless ones in succession (R32, R65). -/
def finishCrew (i : Instr) (cycle : Nat) (len : DWord) (effect det : Bool) (adv done : BitVec 64) (c0 c : Crew) : Crew :=
  if adv ||| done = 0 then c
  else
    let crewEff := c0.k != c.k || (i.crewWide && c0.mask != c.mask)
    let ts := c.threads.mapIdx fun l t =>
      if adv.getLsbD l then finishThread i cycle det crewEff (some len) (c0.thread l) t (crossTaint i c0 (adv ||| done) l)
      else if done.getLsbD l then finishThread i cycle det crewEff none (c0.thread l) t (crossTaint i c0 (adv ||| done) l)
      else t
    let eff := effect || crewEff || c0.mask != c.mask ||
      (upto 64).any fun l => (adv ||| done).getLsbD l && effectOf i (c0.thread l) (c.thread l)
    let v := c0.serve i (adv ||| done)
    Crew.countQuiet det eff v.1 v.2.2 (adv ||| done) c0
      { c with threads := ts, service := v.2.1, retired := if v.1 then c.retired + 1 else c.retired
               maskWas := if c0.mask != c.mask then some (cycle, c0.masksAt cycle) else c.maskWas }

/-- What trace and causal trials see of an issue (R379, R383); without either the state is unchanged. -/
def watchIssue (i : Instr) (g : Group) (s0 s : State) : State :=
  if s.traces.isEmpty && s.trials.isEmpty then s
  else
    traceBarriers s0 (s.crews.foldl (fun s1 x =>
      let c0 := (s0.crew? x.1).getD x.2
      let done := maskFor g.done x.1
      countTrials (traceCrew i done c0 s1 x) x.1 (maskFor g.lanes x.1 ||| done) c0) s)

/-- The end of an issue: the lanes that executed go on, the traps are entered, and the group is gone. -/
def finish (i : Instr) (s0 s : State) : State :=
  let g := s.cur
  let s1 := { s with
    crews := s.crews.map fun x =>
      let c := finishCrew i s.cycle g.len g.effect (s.isDet x.1.team) (maskFor g.lanes x.1) (maskFor g.done x.1)
        ((s0.crew? x.1).getD x.2) x.2
      (x.1, c.served (s.isDet x.1.team) (pageLanes g.traps x.1) (maskFor g.lanes x.1 ||| maskFor g.done x.1 != 0))
    cur := Group.none }
  enterTraps (watchIssue i g s0 s1) g.traps

/-- The end of an issue in which every lane traps. -/
def finishTraps (s : State) : State :=
  let ts := s.cur.traps
  enterTraps { s with crews := s.crews.map fun x => (x.1, x.2.served (s.isDet x.1.team) (pageLanes ts x.1) false)
                      cur := Group.none } ts

/-! ## The issue of one instruction (R412) -/

/-- Class 0x02 code 0x06: a pending hint whose next word is not a consumer it serves (R257 to R259, R415). -/
def brokenChain (i : Instr) (t : Thread) : Bool :=
  match t.xlit, t.xmod with
  | none, none => false
  | some _, none => (match i with | .xmod _ => false | _ => i.xlitBits.isNone)
  | xl, some h =>
    let own := i.guardField.isSome || i.engineMajor || match i with | .bar _ => true | _ => false
    i.isHint || (h.e && own) || (xl.isSome && i.xlitBits.isNone)

/-- A fault of the matrix array (R445, R446). -/
def Cause.ofArray (c : Cause) : Bool := c.array

/-- The deferred fault that an instruction of a team delivers, with the faults that stay: the first at a delivery point of
R409, the array's at a matrix instruction (R447). -/
def duePending (i : Instr) (tm : Team) : Option (Cause × List Cause) :=
  match tm.deferred with
  | [] => none
  | c :: cs =>
    if i.delivery then some (c, cs)
    else if i.matrix then
      match tm.deferred.find? Cause.ofArray with
      | some a => some (a, tm.deferred.erase a)
      | none => none
    else none

/-- Delivers deferred faults to the user threads of the group, handler crews excepted: by crew number, then lane, one for
each pending fault (R409, R447). -/
def deliver (i : Instr) (s : State) : State :=
  let order := (upto 16).flatMap fun slot => s.cur.refs.filter fun r => s.slotOf r.cref = slot
  order.foldl (fun s r =>
    match s.team? r.team with
    | none => s
    | some tm =>
      match duePending i tm with
      | none => s
      | some (c, cs) =>
        if !(s.thread r).sup && r.crew < tm.crews then
          let s1 := s.setTeam r.team fun tm =>
            { tm with deferred := cs
                      array := if c.ofArray then tm.array.map fun a => { a with discard := false } else tm.array }
          { s1 with cur := s1.cur.fault r c }
        else s) s

/-- A late trap of a load that met an uncorrectable error, entered at the next issue (R443). -/
def lateTraps (s : State) : State :=
  s.cur.refs.foldl (fun s r =>
    match (s.thread r).late with
    | some c => { s.setThread r (fun t => { t with late := none }) with cur := s.cur.fault r c }
    | none => s) s

/-- The lowest cause of one class that the lanes of a group show: by code, then by the bit of its field (R412, R413). -/
def lowestCause (cs : List Cause) : Option Cause :=
  cs.foldl (fun m c =>
    match m with
    | some b => if c.code < b.code || (c.code == b.code && c.detail < b.detail) then some c else some b
    | none => some c) none

/-- A privileged instruction in user privilege (R416); self-test 0x20 is permitted in lifecycle state 0 (R396). -/
def State.unprivileged (s : State) (i : Instr) (r : TRef) : Bool :=
  i.privileged && !(s.thread r).sup &&
    match i with
    | .bist f => !(s.modl.lifecycle = 0 && ((s.thread r).reg f.a).toNat % 256 = 0x20)
    | _ => true

/-- The checks of classes 0x02 and 0x03 (R412): the values an instruction finds reserved in its lanes' registers or payload
(`extra`), a broken hint chain, the privilege, the status that `ERET` restores. A word that one lane shows to be without meaning
traps in every lane of the group, whatever its guard; the privilege is each lane's own (assumption 94). -/
def staticChecks (i : Instr) (extra : State → TRef → Option Cause) (s : State) : State :=
  let rs := s.cur.refs
  let broken := fun r => if brokenChain i (s.thread r) then [{ cls := 2, code := 6 }] else []
  match lowestCause (rs.flatMap fun r => (extra s r).toList ++ broken r) with
  | some c => s.trapAll c
  | none =>
    let s1 := rs.foldl (fun s r => if s.unprivileged i r then { s with cur := s.cur.fault r { cls := 3, code := 1 } } else s) s
    match i with
    | .eret _ => if s1.cur.refs.any fun r => (s1.thread r).estat.toNat / 2 != 0 then s1.trapAll { cls := 3, code := 2 } else s1
    | _ => s1

/-- The flaws that an instruction meets in what a thread reads on its own core: its registers, the predicates of its guard,
the crew's `k` and mask registers (R443). -/
def meetsFlaw (i : Instr) (r : TRef) (t : Thread) : Flaw → Bool
  | .reg q d => q = r && (readsOf i t).contains d
  | .pred q p => q = r && (guardPreds i t).contains p
  | .k c d => c = r.cref && i.kReads.contains d
  | .mask c n => c = r.cref && i.maskReads.contains n
  | _ => false

/-- An uncorrectable error in a register that an instruction reads: precise, in the lanes whose guard is true, and in the lanes
whose guard it spoils (R443). -/
def flawChecks (i : Instr) (s : State) : State :=
  if s.flaws.isEmpty then s
  else
    let bad := fun (s : State) (r : TRef) =>
      let t := s.thread r
      s.flaws.any fun x => meetsFlaw i r t x && (guardOf i t || match x with | .pred _ _ => true | _ => false)
    let c : Cause := { cls := 12, code := 4, detail := 3 }
    if i.crewWide then (if s.cur.refs.any (bad s) then s.trapAll c else s)
    else s.cur.refs.foldl (fun s r => if bad s r then { s with cur := s.cur.fault r c } else s) s

/-- A register written anew holds no error. -/
def mendRegs (i : Instr) (s0 s : State) : State :=
  let ex := fun (c : CRef) => maskFor s.cur.lanes c ||| maskFor s.cur.done c
  let did := fun (r : TRef) => (ex r.cref).getLsbD r.lane && guardOf i (s0.thread r)
  s.mend fun x =>
    match x with
    | .reg r d => did r && (writesOf i (s0.thread r)).contains d
    | .pred r p => did r && i.pWrites.contains p
    | .k c d => i.kWrites.contains d && (upto 64).any fun l => did ⟨c.team, c.crew, l⟩
    | .mask c n => i.maskWritten = some n && (upto 64).any fun l => did ⟨c.team, c.crew, l⟩
    | _ => false

/-- Some thread of the crew of a crew-wide group has exited. -/
def crewGone (s : State) : Bool :=
  match s.crew? s.curCrew with
  | some c => (upto 64).any fun l => (c.thread l).exited
  | none => false

/-- A crew-wide instruction at which the live threads of a crew stand that can no longer gather: class 0x05 code 0x05, the live
threads named; `tried` is the machine with the instruction's own checks made, of which a lower code comes first (R412,
R418). -/
def refuseCrew (s tried : State) : State :=
  let refused := s.trapAll { cls := 5, code := 5, lanes := maskFor s.cur.lanes s.curCrew }
  match tried.cur.traps with
  | (_, c) :: _ => if c.cls < 5 || (c.cls == 5 && c.code < 5) then tried else refused
  | [] => refused

/-- Issues an instruction in the current group: deferred faults first (R414), then the checks of R412, then its effect, then
the end of the issue. A crew-wide instruction issues only with its whole crew (R48), and a crew that can no longer gather is
refused (R418 code 0x05). `extra` holds the class 0x02 checks that look at a thread's registers. -/
def issueWith (i : Instr) (extra : State → TRef → Option Cause) (s : State) (body : State → State) :
    Host.Outcome State Fault Refusal :=
  let s1 := lateTraps (deliver i s)
  let s2 := if i.crewWide && !s1.cur.traps.isEmpty then s1.stallAll else staticChecks i extra s1
  let s3 :=
    if s2.cur.lanes.isEmpty then s2
    else if i.crewWide && crewGone s2 then refuseCrew s2 (body s2)
    else
      let s3 := flawChecks i s2
      if s3.cur.lanes.isEmpty then s3 else body s3
  .next (finish i s (mendRegs i s s3))

def issue (i : Instr) (s : State) (body : State → State) : Host.Outcome State Fault Refusal :=
  issueWith i (fun _ _ => none) s body

end Sys2Proof.Machine
end

