-- ==== Sys2Proof/Machine/Integer.lean ====
section
/-!
DEFINITION. Integer arithmetic, logic, shifts and compares (R276 to R280). Each instruction has a result in one thread and a
meaning that applies it to the lanes of the group.
-/
namespace Sys2Proof.Machine

/-! ## Operand shapes -/

/-- Writes the result of an operation on two registers. -/
def Thread.bin (t : Thread) (d a b : Reg6) (op : Word → Word → Word) : Thread := t.setReg d (op (t.reg a) (t.reg b))
/-- Writes the result of an operation on two pairs. -/
def Thread.bin64 (t : Thread) (d a b : Reg6) (op : DWord → DWord → DWord) : Thread :=
  t.setPair d (op (t.pair a) (t.pair b))
/-- Writes the result of an operation on one register. -/
def Thread.un (t : Thread) (d a : Reg6) (op : Word → Word) : Thread := t.setReg d (op (t.reg a))

/-- An instruction whose whole effect is on the registers and predicates of each guarded thread by itself. -/
def execPure (i : Instr) (s : State) (f : Thread → Thread) : Host.Outcome State Fault Refusal :=
  issue i s fun s => s.mapLanes i fun _ _ t => f t

/-! ## Results -/

def addInt (n : Nat) (u sat : Bool) (x y : BitVec n) : BitVec n := intResult n u sat (rdInt u x + rdInt u y)
def subInt (n : Nat) (u sat : Bool) (x y : BitVec n) : BitVec n := intResult n u sat (rdInt u x - rdInt u y)
def mulInt (n : Nat) (u sat : Bool) (x y : BitVec n) : BitVec n := intResult n u sat (rdInt u x * rdInt u y)
/-- Bits [2n−1:n] of the exact product (R85). -/
def mulHigh (n : Nat) (u : Bool) (x y : BitVec n) : BitVec n := BitVec.ofInt n (rdInt u x * rdInt u y / (2 ^ n : Nat))
def minInt (n : Nat) (u : Bool) (x y : BitVec n) : BitVec n := if rdInt u y < rdInt u x then y else x
def maxInt (n : Nat) (u : Bool) (x y : BitVec n) : BitVec n := if rdInt u x < rdInt u y then y else x
/-- The quotient truncated toward zero, 0 for a divisor of 0 (R86). -/
def divInt (n : Nat) (u : Bool) (x y : BitVec n) : BitVec n := BitVec.ofInt n ((rdInt u x).tdiv (rdInt u y))
/-- The remainder with the sign of the dividend, x for a divisor of 0 (R86). -/
def remInt (n : Nat) (u : Bool) (x y : BitVec n) : BitVec n := BitVec.ofInt n ((rdInt u x).tmod (rdInt u y))

/-- Shifts by a whole unmasked count (R87). -/
def shlBy {n : Nat} (x : BitVec n) (y : Word) : BitVec n := if n ≤ y.toNat then 0 else x <<< y.toNat
def shrBy {n : Nat} (x : BitVec n) (y : Word) : BitVec n := if n ≤ y.toNat then 0 else x >>> y.toNat
def sarBy {n : Nat} (x : BitVec n) (y : Word) : BitVec n := x.sshiftRight (min y.toNat n)

def popcount (x : Word) : Word := BitVec.ofNat 32 ((upto 32).filter fun i => x.getLsbD i).length
def leadingZeros (x : Word) : Word := BitVec.ofNat 32 ((upto 32).takeWhile fun i => !x.getLsbD (31 - i)).length
def bitReverse (x : Word) : Word :=
  BitVec.ofNat 32 ((upto 32).foldl (fun v i => if x.getLsbD i then v + 2 ^ (31 - i) else v) 0)

/-! ## IADD to REM on registers and pairs (R276) -/

def semIadd (f : R3u) (t : Thread) : Thread := t.bin f.d f.a f.b (addInt 32 f.u t.satur)
def execIadd (f : R3u) (s : State) := execPure (.iadd f) s (semIadd f)
def semIsub (f : R3u) (t : Thread) : Thread := t.bin f.d f.a f.b (subInt 32 f.u t.satur)
def execIsub (f : R3u) (s : State) := execPure (.isub f) s (semIsub f)
def semImul (f : R3u) (t : Thread) : Thread := t.bin f.d f.a f.b (mulInt 32 f.u t.satur)
def execImul (f : R3u) (s : State) := execPure (.imul f) s (semImul f)
def semImulh (f : R3u) (t : Thread) : Thread := t.bin f.d f.a f.b (mulHigh 32 f.u)
def execImulh (f : R3u) (s : State) := execPure (.imulh f) s (semImulh f)
def semImin (f : R3u) (t : Thread) : Thread := t.bin f.d f.a f.b (minInt 32 f.u)
def execImin (f : R3u) (s : State) := execPure (.imin f) s (semImin f)
def semImax (f : R3u) (t : Thread) : Thread := t.bin f.d f.a f.b (maxInt 32 f.u)
def execImax (f : R3u) (s : State) := execPure (.imax f) s (semImax f)
def semDiv (f : R3u) (t : Thread) : Thread := t.bin f.d f.a f.b (divInt 32 f.u)
def execDiv (f : R3u) (s : State) := execPure (.div f) s (semDiv f)
def semRem (f : R3u) (t : Thread) : Thread := t.bin f.d f.a f.b (remInt 32 f.u)
def execRem (f : R3u) (s : State) := execPure (.rem f) s (semRem f)
def semIadd64 (f : R3u) (t : Thread) : Thread := t.bin64 f.d f.a f.b (addInt 64 f.u t.satur)
def execIadd64 (f : R3u) (s : State) := execPure (.iadd64 f) s (semIadd64 f)
def semIsub64 (f : R3u) (t : Thread) : Thread := t.bin64 f.d f.a f.b (subInt 64 f.u t.satur)
def execIsub64 (f : R3u) (s : State) := execPure (.isub64 f) s (semIsub64 f)
def semImul64 (f : R3u) (t : Thread) : Thread := t.bin64 f.d f.a f.b (mulInt 64 f.u t.satur)
def execImul64 (f : R3u) (s : State) := execPure (.imul64 f) s (semImul64 f)
def semImulh64 (f : R3u) (t : Thread) : Thread := t.bin64 f.d f.a f.b (mulHigh 64 f.u)
def execImulh64 (f : R3u) (s : State) := execPure (.imulh64 f) s (semImulh64 f)
def semImin64 (f : R3u) (t : Thread) : Thread := t.bin64 f.d f.a f.b (minInt 64 f.u)
def execImin64 (f : R3u) (s : State) := execPure (.imin64 f) s (semImin64 f)
def semImax64 (f : R3u) (t : Thread) : Thread := t.bin64 f.d f.a f.b (maxInt 64 f.u)
def execImax64 (f : R3u) (s : State) := execPure (.imax64 f) s (semImax64 f)
def semDiv64 (f : R3u) (t : Thread) : Thread := t.bin64 f.d f.a f.b (divInt 64 f.u)
def execDiv64 (f : R3u) (s : State) := execPure (.div64 f) s (semDiv64 f)
def semRem64 (f : R3u) (t : Thread) : Thread := t.bin64 f.d f.a f.b (remInt 64 f.u)
def execRem64 (f : R3u) (s : State) := execPure (.rem64 f) s (semRem64 f)

/-! ## Logic and shifts (R279) -/

def semAndR (f : R3) (t : Thread) : Thread := t.bin f.d f.a f.b (· &&& ·)
def execAndR (f : R3) (s : State) := execPure (.andR f) s (semAndR f)
def semOrR (f : R3) (t : Thread) : Thread := t.bin f.d f.a f.b (· ||| ·)
def execOrR (f : R3) (s : State) := execPure (.orR f) s (semOrR f)
def semXorR (f : R3) (t : Thread) : Thread := t.bin f.d f.a f.b (· ^^^ ·)
def execXorR (f : R3) (s : State) := execPure (.xorR f) s (semXorR f)
def semAndn (f : R3) (t : Thread) : Thread := t.bin f.d f.a f.b fun x y => x &&& ~~~y
def execAndn (f : R3) (s : State) := execPure (.andn f) s (semAndn f)
def semShl (f : R3) (t : Thread) : Thread := t.bin f.d f.a f.b shlBy
def execShl (f : R3) (s : State) := execPure (.shl f) s (semShl f)
def semShr (f : R3) (t : Thread) : Thread := t.bin f.d f.a f.b shrBy
def execShr (f : R3) (s : State) := execPure (.shr f) s (semShr f)
def semSar (f : R3) (t : Thread) : Thread := t.bin f.d f.a f.b sarBy
def execSar (f : R3) (s : State) := execPure (.sar f) s (semSar f)
def semRol (f : R3) (t : Thread) : Thread := t.bin f.d f.a f.b fun x y => x.rotateLeft (y.toNat % 32)
def execRol (f : R3) (s : State) := execPure (.rol f) s (semRol f)
def semPopc (f : R2) (t : Thread) : Thread := t.un f.d f.a popcount
def execPopc (f : R2) (s : State) := execPure (.popc f) s (semPopc f)
def semClz (f : R2) (t : Thread) : Thread := t.un f.d f.a leadingZeros
def execClz (f : R2) (s : State) := execPure (.clz f) s (semClz f)
def semBrev (f : R2) (t : Thread) : Thread := t.un f.d f.a bitReverse
def execBrev (f : R2) (s : State) := execPure (.brev f) s (semBrev f)
def semShlW64 (f : R3) (t : Thread) : Thread := t.setPair f.d (shlBy (t.pair f.a) (t.reg f.b))
def execShlW64 (f : R3) (s : State) := execPure (.shlW64 f) s (semShlW64 f)
def semShrW64 (f : R3) (t : Thread) : Thread := t.setPair f.d (shrBy (t.pair f.a) (t.reg f.b))
def execShrW64 (f : R3) (s : State) := execPure (.shrW64 f) s (semShrW64 f)
def semSarI64 (f : R3) (t : Thread) : Thread := t.setPair f.d (sarBy (t.pair f.a) (t.reg f.b))
def execSarI64 (f : R3) (s : State) := execPure (.sarI64 f) s (semSarI64 f)

/-! ## Immediate forms (R277, R279) -/

def semIaddImm (f : GI) (t : Thread) : Thread := t.un f.d f.a fun x => addInt 32 false t.satur x (t.imm f.i true)
def execIaddImm (f : GI) (s : State) := execPure (.iaddImm f) s (semIaddImm f)
def semImulImm (f : GI) (t : Thread) : Thread := t.un f.d f.a fun x => mulInt 32 false t.satur x (t.imm f.i true)
def execImulImm (f : GI) (s : State) := execPure (.imulImm f) s (semImulImm f)
def semAndImm (f : GI) (t : Thread) : Thread := t.un f.d f.a fun x => x &&& t.imm f.i false
def execAndImm (f : GI) (s : State) := execPure (.andImm f) s (semAndImm f)
def semOrImm (f : GI) (t : Thread) : Thread := t.un f.d f.a fun x => x ||| t.imm f.i false
def execOrImm (f : GI) (s : State) := execPure (.orImm f) s (semOrImm f)
def semXorImm (f : GI) (t : Thread) : Thread := t.un f.d f.a fun x => x ^^^ t.imm f.i false
def execXorImm (f : GI) (s : State) := execPure (.xorImm f) s (semXorImm f)
def semShlImm (f : GI) (t : Thread) : Thread := t.un f.d f.a fun x => shlBy x (t.imm f.i false)
def execShlImm (f : GI) (s : State) := execPure (.shlImm f) s (semShlImm f)
def semShrImm (f : GI) (t : Thread) : Thread := t.un f.d f.a fun x => shrBy x (t.imm f.i false)
def execShrImm (f : GI) (s : State) := execPure (.shrImm f) s (semShrImm f)
def semSarImm (f : GI) (t : Thread) : Thread := t.un f.d f.a fun x => sarBy x (t.imm f.i false)
def execSarImm (f : GI) (s : State) := execPure (.sarImm f) s (semSarImm f)

/-! ## Compares (R280) -/

def semIcmp (f : PQm) (t : Thread) : Thread :=
  t.compare f.p f.q (icmpRel f.m.toNat (t.reg f.a) (t.reg f.b) (t.pair f.a) (t.pair f.b))
def execIcmp (f : PQm) (s : State) := execPure (.icmp f) s (semIcmp f)
def semTestW32 (f : PQ) (t : Thread) : Thread := t.compare f.p f.q ((t.reg f.a &&& t.reg f.b) != 0)
def execTestW32 (f : PQ) (s : State) := execPure (.testW32 f) s (semTestW32 f)
def semIcmpEqImm (f : PQi) (t : Thread) : Thread := t.compare f.p f.q (t.reg f.a == t.imm f.i true)
def execIcmpEqImm (f : PQi) (s : State) := execPure (.icmpEqImm f) s (semIcmpEqImm f)
def semIcmpLtImm (f : PQi) (t : Thread) : Thread := t.compare f.p f.q ((t.reg f.a).slt (t.imm f.i true))
def execIcmpLtImm (f : PQi) (s : State) := execPure (.icmpLtImm f) s (semIcmpLtImm f)

/-! ## IMAD (R278) -/

/-- The multiply-add of R278. -/
def madInt (u n sat : Bool) (x y z : Word) : Word :=
  let p := rdInt u x * rdInt u y
  intResult 32 u sat ((if n then -p else p) + rdInt u z)

def semImadI32 (f : G4) (t : Thread) : Thread :=
  t.setReg f.d (madInt false f.n t.satur (t.reg f.a) (t.reg f.b) (t.reg f.c))
def execImadI32 (f : G4) (s : State) := execPure (.imadI32 f) s (semImadI32 f)
def semImadW32 (f : G4) (t : Thread) : Thread :=
  t.setReg f.d (madInt true f.n t.satur (t.reg f.a) (t.reg f.b) (t.reg f.c))
def execImadW32 (f : G4) (s : State) := execPure (.imadW32 f) s (semImadW32 f)

end Sys2Proof.Machine
end

