-- ==== Sys2Proof/Machine/Fp.lean ====
section
/-!
DEFINITION. Floating-point arithmetic, packed half, compares, conversion and the special functions (R282 to R291). FADD and
FMUL with a bank word stand with the bank operands.
-/
namespace Sys2Proof.Machine

/-! ## Operand shapes -/

/-- Operations on encodings applied to registers and pairs. -/
def op32 (f : Nat → Nat → Nat) (x y : Word) : Word := BitVec.ofNat 32 (f x.toNat y.toNat)
def op64 (f : Nat → Nat → Nat) (x y : DWord) : DWord := BitVec.ofNat 64 (f x.toNat y.toNat)
def un32 (f : Nat → Nat) (x : Word) : Word := BitVec.ofNat 32 (f x.toNat)
def un64 (f : Nat → Nat) (x : DWord) : DWord := BitVec.ofNat 64 (f x.toNat)

/-- Element 0 in bits [15:0], element 1 in bits [31:16] (R81). -/
def halves (f : Nat → Nat → Nat) (x y : Word) : Word :=
  BitVec.ofNat 32 (f (x.toNat % 65536) (y.toNat % 65536) + 65536 * f (x.toNat / 65536) (y.toNat / 65536))
def halves3 (f : Nat → Nat → Nat → Nat) (x y z : Word) : Word :=
  BitVec.ofNat 32 (f (x.toNat % 65536) (y.toNat % 65536) (z.toNat % 65536) +
    65536 * f (x.toNat / 65536) (y.toNat / 65536) (z.toNat / 65536))

/-- Sign-bit operations copy bits and keep NaNs (R75, R282). -/
def absBits {n : Nat} (x : BitVec n) : BitVec n := x &&& ~~~(1#n <<< (n - 1))
def negBits {n : Nat} (x : BitVec n) : BitVec n := x ^^^ (1#n <<< (n - 1))
def copySign {n : Nat} (x y : BitVec n) : BitVec n := absBits x ||| (y &&& (1#n <<< (n - 1)))

/-! ## binary32 (R282, R283) -/

def semFadd (f : R3) (t : Thread) : Thread := t.bin f.d f.a f.b (op32 (Fmt.f32.add t.mode t.satur))
def execFadd (f : R3) (s : State) := execPure (.fadd f) s (semFadd f)
def semFsub (f : R3) (t : Thread) : Thread := t.bin f.d f.a f.b (op32 (Fmt.f32.sub t.mode t.satur))
def execFsub (f : R3) (s : State) := execPure (.fsub f) s (semFsub f)
def semFmul (f : R3) (t : Thread) : Thread := t.bin f.d f.a f.b (op32 (Fmt.f32.mul t.mode t.satur))
def execFmul (f : R3) (s : State) := execPure (.fmul f) s (semFmul f)
def semFdiv (f : R3) (t : Thread) : Thread := t.bin f.d f.a f.b (op32 (Fmt.f32.div t.mode t.satur))
def execFdiv (f : R3) (s : State) := execPure (.fdiv f) s (semFdiv f)
def semFsqrt (f : R2) (t : Thread) : Thread := t.un f.d f.a (un32 (Fmt.f32.sqrt t.mode))
def execFsqrt (f : R2) (s : State) := execPure (.fsqrt f) s (semFsqrt f)
def semFmin (f : R3) (t : Thread) : Thread := t.bin f.d f.a f.b (op32 (Fmt.f32.minMax false))
def execFmin (f : R3) (s : State) := execPure (.fmin f) s (semFmin f)
def semFmax (f : R3) (t : Thread) : Thread := t.bin f.d f.a f.b (op32 (Fmt.f32.minMax true))
def execFmax (f : R3) (s : State) := execPure (.fmax f) s (semFmax f)
def semFabs (f : R2) (t : Thread) : Thread := t.un f.d f.a absBits
def execFabs (f : R2) (s : State) := execPure (.fabs f) s (semFabs f)
def semFneg (f : R2) (t : Thread) : Thread := t.un f.d f.a negBits
def execFneg (f : R2) (s : State) := execPure (.fneg f) s (semFneg f)
def semFcpys (f : R3) (t : Thread) : Thread := t.bin f.d f.a f.b copySign
def execFcpys (f : R3) (s : State) := execPure (.fcpys f) s (semFcpys f)
def semFrnd (f : R2) (t : Thread) : Thread := t.un f.d f.a (un32 (Fmt.f32.rint t.mode))
def execFrnd (f : R2) (s : State) := execPure (.frnd f) s (semFrnd f)
def semFclass (f : R2) (t : Thread) : Thread := t.setReg f.d (Fmt.f32.classOf (t.reg f.a).toNat)
def execFclass (f : R2) (s : State) := execPure (.fclass f) s (semFclass f)

/-! ## binary64 (R282, R283) -/

def semFaddF64 (f : R3) (t : Thread) : Thread := t.bin64 f.d f.a f.b (op64 (Fmt.f64.add t.mode t.satur))
def execFaddF64 (f : R3) (s : State) := execPure (.faddF64 f) s (semFaddF64 f)
def semFsubF64 (f : R3) (t : Thread) : Thread := t.bin64 f.d f.a f.b (op64 (Fmt.f64.sub t.mode t.satur))
def execFsubF64 (f : R3) (s : State) := execPure (.fsubF64 f) s (semFsubF64 f)
def semFmulF64 (f : R3) (t : Thread) : Thread := t.bin64 f.d f.a f.b (op64 (Fmt.f64.mul t.mode t.satur))
def execFmulF64 (f : R3) (s : State) := execPure (.fmulF64 f) s (semFmulF64 f)
def semFdivF64 (f : R3) (t : Thread) : Thread := t.bin64 f.d f.a f.b (op64 (Fmt.f64.div t.mode t.satur))
def execFdivF64 (f : R3) (s : State) := execPure (.fdivF64 f) s (semFdivF64 f)
def semFsqrtF64 (f : R2) (t : Thread) : Thread := t.setPair f.d (un64 (Fmt.f64.sqrt t.mode) (t.pair f.a))
def execFsqrtF64 (f : R2) (s : State) := execPure (.fsqrtF64 f) s (semFsqrtF64 f)
def semFminF64 (f : R3) (t : Thread) : Thread := t.bin64 f.d f.a f.b (op64 (Fmt.f64.minMax false))
def execFminF64 (f : R3) (s : State) := execPure (.fminF64 f) s (semFminF64 f)
def semFmaxF64 (f : R3) (t : Thread) : Thread := t.bin64 f.d f.a f.b (op64 (Fmt.f64.minMax true))
def execFmaxF64 (f : R3) (s : State) := execPure (.fmaxF64 f) s (semFmaxF64 f)
def semFabsF64 (f : R2) (t : Thread) : Thread := t.setPair f.d (absBits (t.pair f.a))
def execFabsF64 (f : R2) (s : State) := execPure (.fabsF64 f) s (semFabsF64 f)
def semFnegF64 (f : R2) (t : Thread) : Thread := t.setPair f.d (negBits (t.pair f.a))
def execFnegF64 (f : R2) (s : State) := execPure (.fnegF64 f) s (semFnegF64 f)
def semFcpysF64 (f : R3) (t : Thread) : Thread := t.bin64 f.d f.a f.b copySign
def execFcpysF64 (f : R3) (s : State) := execPure (.fcpysF64 f) s (semFcpysF64 f)
def semFrndF64 (f : R2) (t : Thread) : Thread := t.setPair f.d (un64 (Fmt.f64.rint t.mode) (t.pair f.a))
def execFrndF64 (f : R2) (s : State) := execPure (.frndF64 f) s (semFrndF64 f)
def semFclassF64 (f : R2) (t : Thread) : Thread := t.setReg f.d (Fmt.f64.classOf (t.pair f.a).toNat)
def execFclassF64 (f : R2) (s : State) := execPure (.fclassF64 f) s (semFclassF64 f)

/-! ## Packed half (R286) -/

def semHaddF16 (f : R3) (t : Thread) : Thread := t.bin f.d f.a f.b (halves (Fmt.f16.add t.mode t.satur))
def execHaddF16 (f : R3) (s : State) := execPure (.haddF16 f) s (semHaddF16 f)
def semHsubF16 (f : R3) (t : Thread) : Thread := t.bin f.d f.a f.b (halves (Fmt.f16.sub t.mode t.satur))
def execHsubF16 (f : R3) (s : State) := execPure (.hsubF16 f) s (semHsubF16 f)
def semHmulF16 (f : R3) (t : Thread) : Thread := t.bin f.d f.a f.b (halves (Fmt.f16.mul t.mode t.satur))
def execHmulF16 (f : R3) (s : State) := execPure (.hmulF16 f) s (semHmulF16 f)
def semHminF16 (f : R3) (t : Thread) : Thread := t.bin f.d f.a f.b (halves (Fmt.f16.minMax false))
def execHminF16 (f : R3) (s : State) := execPure (.hminF16 f) s (semHminF16 f)
def semHmaxF16 (f : R3) (t : Thread) : Thread := t.bin f.d f.a f.b (halves (Fmt.f16.minMax true))
def execHmaxF16 (f : R3) (s : State) := execPure (.hmaxF16 f) s (semHmaxF16 f)
def semHaddBf16 (f : R3) (t : Thread) : Thread := t.bin f.d f.a f.b (halves (Fmt.bf16.add t.mode t.satur))
def execHaddBf16 (f : R3) (s : State) := execPure (.haddBf16 f) s (semHaddBf16 f)
def semHsubBf16 (f : R3) (t : Thread) : Thread := t.bin f.d f.a f.b (halves (Fmt.bf16.sub t.mode t.satur))
def execHsubBf16 (f : R3) (s : State) := execPure (.hsubBf16 f) s (semHsubBf16 f)
def semHmulBf16 (f : R3) (t : Thread) : Thread := t.bin f.d f.a f.b (halves (Fmt.bf16.mul t.mode t.satur))
def execHmulBf16 (f : R3) (s : State) := execPure (.hmulBf16 f) s (semHmulBf16 f)
def semHminBf16 (f : R3) (t : Thread) : Thread := t.bin f.d f.a f.b (halves (Fmt.bf16.minMax false))
def execHminBf16 (f : R3) (s : State) := execPure (.hminBf16 f) s (semHminBf16 f)
def semHmaxBf16 (f : R3) (t : Thread) : Thread := t.bin f.d f.a f.b (halves (Fmt.bf16.minMax true))
def execHmaxBf16 (f : R3) (s : State) := execPure (.hmaxBf16 f) s (semHmaxBf16 f)

/-! ## Fused multiply-add (R285, R286) -/

def semHfmaF16 (f : G4) (t : Thread) : Thread :=
  t.setReg f.d (halves3 (Fmt.f16.fma t.mode t.satur f.n) (t.reg f.a) (t.reg f.b) (t.reg f.c))
def execHfmaF16 (f : G4) (s : State) := execPure (.hfmaF16 f) s (semHfmaF16 f)
def semHfmaBf16 (f : G4) (t : Thread) : Thread :=
  t.setReg f.d (halves3 (Fmt.bf16.fma t.mode t.satur f.n) (t.reg f.a) (t.reg f.b) (t.reg f.c))
def execHfmaBf16 (f : G4) (s : State) := execPure (.hfmaBf16 f) s (semHfmaBf16 f)
def semFfmaF32 (f : G4) (t : Thread) : Thread :=
  t.setReg f.d (BitVec.ofNat 32
    (Fmt.f32.fma t.mode t.satur f.n (t.reg f.a).toNat (t.reg f.b).toNat (t.reg f.c).toNat))
def execFfmaF32 (f : G4) (s : State) := execPure (.ffmaF32 f) s (semFfmaF32 f)
def semFfmaF64 (f : G4) (t : Thread) : Thread :=
  t.setPair f.d (BitVec.ofNat 64
    (Fmt.f64.fma t.mode t.satur f.n (t.pair f.a).toNat (t.pair f.b).toNat (t.pair f.c).toNat))
def execFfmaF64 (f : G4) (s : State) := execPure (.ffmaF64 f) s (semFfmaF64 f)

/-! ## Compares (R287) -/

def semFcmp (f : PQf) (t : Thread) : Thread :=
  t.compare f.p f.q (if f.t then Fmt.f64.rel f.r (t.pair f.a).toNat (t.pair f.b).toNat
    else Fmt.f32.rel f.r (t.reg f.a).toNat (t.reg f.b).toNat)
def execFcmp (f : PQf) (s : State) := execPure (.fcmp f) s (semFcmp f)

/-! ## Conversion (R288, R289) -/

/-- Whether a type code names a 64-bit type (R255). -/
def wideCode (c : BitVec 4) : Bool := c = 3 || c = 7 || c = 11

def semCvt (f : Cv) (t : Thread) : Thread :=
  let x := if wideCode f.y then (t.pair f.a).toNat else (t.reg f.a).toNat
  let v := convert f.t f.y t.modeGiven t.satur x
  if wideCode f.t then t.setPair f.d (BitVec.ofNat 64 v) else t.setReg f.d (BitVec.ofNat 32 v)
def execCvt (f : Cv) (s : State) := execPure (.cvt f) s (semCvt f)

/-! ## Special functions (R290, R291) -/

/-- The words of a pair's value, low word first (R8). -/
def pairWords (v : DWord) : List Word := [v.setWidth 32, (v >>> 32).setWidth 32]

/-- A special-function instruction: its result is outstanding until it returns (R51, R290). -/
def execSfu (i : Instr) (s : State) (d : Reg6) (v : Thread → List Word) : Host.Outcome State Fault Refusal :=
  issue i s fun s =>
    let x := s.takeSerial
    x.2.mapLanes i fun _ _ t => t.addOut x.1 d (v t).length (some (v t))

def valRecipF32 (f : R2) (t : Thread) : List Word := [un32 (Fmt.f32.recip t.mode t.satur) (t.reg f.a)]
def execRecipF32 (f : R2) (s : State) := execSfu (.recipF32 f) s f.d (valRecipF32 f)
def valRrootF32 (f : R2) (t : Thread) : List Word := [un32 (Fmt.f32.rroot t.mode t.satur) (t.reg f.a)]
def execRrootF32 (f : R2) (s : State) := execSfu (.rrootF32 f) s f.d (valRrootF32 f)
def valExp2 (f : R2) (t : Thread) : List Word := [BitVec.ofNat 32 (sfu32 2 t.satur (t.reg f.a))]
def execExp2 (f : R2) (s : State) := execSfu (.exp2 f) s f.d (valExp2 f)
def valLog2 (f : R2) (t : Thread) : List Word := [BitVec.ofNat 32 (sfu32 3 false (t.reg f.a))]
def execLog2 (f : R2) (s : State) := execSfu (.log2 f) s f.d (valLog2 f)
def valSin (f : R2) (t : Thread) : List Word := [BitVec.ofNat 32 (sfu32 4 false (t.reg f.a))]
def execSin (f : R2) (s : State) := execSfu (.sin f) s f.d (valSin f)
def valCos (f : R2) (t : Thread) : List Word := [BitVec.ofNat 32 (sfu32 5 false (t.reg f.a))]
def execCos (f : R2) (s : State) := execSfu (.cos f) s f.d (valCos f)
def valTanh (f : R2) (t : Thread) : List Word := [BitVec.ofNat 32 (sfu32 6 false (t.reg f.a))]
def execTanh (f : R2) (s : State) := execSfu (.tanh f) s f.d (valTanh f)
def valRecipF64 (f : R2) (t : Thread) : List Word := pairWords (un64 (Fmt.f64.recip t.mode t.satur) (t.pair f.a))
def execRecipF64 (f : R2) (s : State) := execSfu (.recipF64 f) s f.d (valRecipF64 f)
def valRrootF64 (f : R2) (t : Thread) : List Word := pairWords (un64 (Fmt.f64.rroot t.mode t.satur) (t.pair f.a))
def execRrootF64 (f : R2) (s : State) := execSfu (.rrootF64 f) s f.d (valRrootF64 f)

end Sys2Proof.Machine
end

