-- ==== Sys2Proof/Machine/Moves.lean ====
section
/-!
DEFINITION. Constant banks (R269), moves, special registers, lane exchange and votes (R277, R284, R292 to R296).
-/
namespace Sys2Proof.Machine

/-! ## Constant banks (R269, R270) -/

/-- The fault of a bank word whose translation or memory fails (R269). -/
def bankFault (f : TFault × Nat) : Cause :=
  { cls := 6, code := f.1.code, detail := f.1.detail .read, addr := BitVec.ofNat 64 f.2 }

/-- A read the device makes for an instruction of a thread: bytes, or the precise fault of a failing translation or of an
uncorrectable error (R269, R443). -/
def readFor (s : State) (core ctx : Nat) (sup : Bool) (va n : Nat) : State × Except Cause (List Byte) :=
  match translateRange s (.core core) ctx sup .read (n / 4096 + 2) va n with
  | (s', .error e) => (s', .error (bankFault e))
  | (s', .ok ps) =>
    if ps.any fun p => s'.deadRange p.1 p.2 then
      (s', .error { cls := 12, code := 4, addr := BitVec.ofNat 64 va,
                    detail := match ps with | p :: _ => s'.errorDetail p.1 | [] => 0 })
    else (s', .ok (ps.flatMap fun p => s'.homeBytes p.1 p.2))

/-- A word of a bank of a launch: `c0` at the packet's base, `c1` to `c7` in the image the bank directory of the code object
names; a word beyond the bank's size reads as 0. -/
def bankRead (s : State) (core ctx : Nat) (sup : Bool) (l : Launch) (bank word : Nat) : State × Except Cause Word :=
  let get := fun (s : State) va =>
    match readFor s core ctx sup va 4 with
    | (s', .error c) => (s', .error c)
    | (s', .ok bs) => (s', .ok (BitVec.ofNat 32 (leNat bs)))
  if bank = 0 then get s (l.c0.toNat + 4 * word)
  else
    match readFor s core ctx sup (l.code.toNat + 32) 8 with
    | (s1, .error c) => (s1, .error c)
    | (s1, .ok dir) =>
      match readFor s1 core ctx sup (l.code.toNat + leNat dir + 16 * (bank - 1)) 16 with
      | (s2, .error c) => (s2, .error c)
      | (s2, .ok e) =>
        if leNat (e.drop 8) < 4 * word + 4 then (s2, .ok 0)
        else get s2 (l.code.toNat + leNat (e.take 8) + 4 * word)

/-- The word of a bank that a core's constant cache holds for a launch. -/
def State.bankHeld (s : State) (core launch bank word : Nat) : Option Word :=
  (s.consts.find? fun c => c.core == core && c.launch == launch && c.bank == bank && c.word == word).map (·.val)

/-- The bank word of an instruction in one thread: held, or a fault, or still to be read (R269). -/
inductive BankRes where
  | held (v : Word)
  | fault (s : State) (c : Cause)
  | missing (s : State)

def bankOperand (s : State) (r : TRef) (bank word : Nat) : BankRes :=
  match s.teamLaunch? r.team with
  | none => .held 0
  | some (id, l) =>
    let core := s.teamCore r.team
    match s.bankHeld core id bank word with
    | some v => .held v
    | none =>
      match bankRead s core l.ctx (s.thread r).sup l bank word with
      | (s', .error c) => .fault s' c
      | (s', .ok _) => .missing s'

/-- An instruction with a bank word: each lane issues only when the word is held. -/
def execBank (i : Instr) (s : State) (bank : BitVec 3) (word : BitVec 7) (f : Word → Thread → Thread) :
    Host.Outcome State Fault Refusal :=
  issue i s fun s => s.eachLane i fun r s =>
    match bankOperand s r bank.toNat ((s.thread r).bankWord word) with
    | .held v => .ok (s.setThread r (f v))
    | .fault s' c => .trap s' c
    | .missing s' => .stall s'

def semFaddBank (f : GC) (k : Word) (t : Thread) : Thread :=
  t.un f.d f.a fun x => op32 (Fmt.f32.add t.mode t.satur) x k
def execFaddBank (f : GC) (s : State) := execBank (.faddBank f) s f.k f.w (semFaddBank f)
def semFmulBank (f : GC) (k : Word) (t : Thread) : Thread :=
  t.un f.d f.a fun x => op32 (Fmt.f32.mul t.mode t.satur) x k
def execFmulBank (f : GC) (s : State) := execBank (.fmulBank f) s f.k f.w (semFmulBank f)
def semFfmac (f : GC) (k : Word) (t : Thread) : Thread :=
  t.setReg f.d (BitVec.ofNat 32 (Fmt.f32.fma t.mode t.satur false (t.reg f.d).toNat (t.reg f.a).toNat k.toNat))
def execFfmac (f : GC) (s : State) := execBank (.ffmac f) s f.k f.w (semFfmac f)
def semIaddBank (f : GC) (k : Word) (t : Thread) : Thread := t.un f.d f.a fun x => addInt 32 false t.satur x k
def execIaddBank (f : GC) (s : State) := execBank (.iaddBank f) s f.k f.w (semIaddBank f)
def semMovBank (f : GCd) (k : Word) (t : Thread) : Thread := t.setReg f.d k
def execMovBank (f : GCd) (s : State) := execBank (.movBank f) s f.k f.w (semMovBank f)

/-! ## Moves (R292, R293) -/

def semMov (f : R2) (t : Thread) : Thread := t.setReg f.d (t.reg f.a)
def execMov (f : R2) (s : State) := execPure (.mov f) s (semMov f)
def semMovD (f : R2) (t : Thread) : Thread := t.setPair f.d (t.pair f.a)
def execMovD (f : R2) (s : State) := execPure (.movD f) s (semMovD f)

/-- The value of a crew-uniform register. -/
def Crew.kReg (c : Crew) (n : Reg6) : Word := c.k.getD n.toNat 0

def semMovFromK (f : R2) (c : Crew) (t : Thread) : Thread := t.setReg f.d (c.kReg f.a)
def execMovFromK (f : R2) (s : State) : Host.Outcome State Fault Refusal :=
  issue (.movFromK f) s fun s => s.mapLanes (.movFromK f) fun c _ t => semMovFromK f c t

def semMovf20 (f : MV20) (t : Thread) : Thread :=
  t.setReg f.d (BitVec.ofNat 32 (f.i.toNat * 4096 + match t.xlit with | some p => p.toNat % 4096 | none => 0))
def execMovf20 (f : MV20) (s : State) := execPure (.movf20 f) s (semMovf20 f)
def semMovi20 (f : MV20) (t : Thread) : Thread :=
  t.setReg f.d (match t.xlit with
    | some p => BitVec.ofNat 32 (p.toNat % 4096 * 2 ^ 20 + f.i.toNat)
    | none => f.i.signExtend 32)
def execMovi20 (f : MV20) (s : State) := execPure (.movi20 f) s (semMovi20 f)

/-! ## Special registers (R32, R294) -/

/-- The job of a launch on this module (R178, R180). -/
def State.job? (s : State) (n : BitVec 16) : Option Job := s.fabric.jobs.find? fun j => j.number == n

/-- The value of a special register in a thread. -/
def sreadValue (s : State) (r : TRef) (code : Nat) : DWord :=
  let tm := s.team? r.team
  let word := fun (f : Team → Nat) => match tm with | some t => BitVec.ofNat 64 (f t) | none => 0
  let ret := match s.crew? r.cref with | some c => c.retired | none => 0
  match code with
  | 0 => BitVec.ofNat 64 r.lane
  | 1 => BitVec.ofNat 64 r.crew
  | 2 => word fun t => t.x.toNat
  | 3 => word fun t => t.y.toNat
  | 4 => word fun t => t.z.toNat
  | 5 => word fun t => t.stage
  | 6 => word fun t => t.rank
  | 7 => if s.isDet r.team then ret
         else BitVec.ofNat 64 (s.cycle - (s.die (dieOf (s.teamCore r.team))).clockBase)
  | 8 => BitVec.ofNat 64 s.time
  | 9 => ret
  | _ =>
    match s.teamLaunch? r.team with
    | none => 0
    | some (_, l) =>
      if l.job = 0 then 0
      else if code = 10 then l.job.setWidth 64
      else match s.job? l.job with | some j => j.period.setWidth 64 | none => 0

def wideSpecial (code : Nat) : Bool := 7 ≤ code && code ≤ 9

def execSread (f : R2) (s : State) : Host.Outcome State Fault Refusal :=
  issue (.sread f) s fun s => s.eachLane (.sread f) fun r s =>
    let v := sreadValue s r f.a.toNat
    .ok (s.setThread r fun t =>
      if wideSpecial f.a.toNat then t.setPair f.d v else t.setReg f.d (v.setWidth 32))

/-! ## Lane exchange (R295) -/

/-- The value a lane receives: what the source lane held before any lane writes. -/
def shflValue (form : Nat) (a b : Reg6) (c : Crew) (l : Nat) : Word :=
  (c.thread (shflSource form l ((c.thread l).reg b).toNat)).reg a

def execShflPick (f : R3) (s : State) : Host.Outcome State Fault Refusal :=
  issue (.shflPick f) s fun s => s.mapLanes (.shflPick f) fun c l t => t.setReg f.d (shflValue 0 f.a f.b c l)
def execShflRot (f : R3) (s : State) : Host.Outcome State Fault Refusal :=
  issue (.shflRot f) s fun s => s.mapLanes (.shflRot f) fun c l t => t.setReg f.d (shflValue 1 f.a f.b c l)
def execShflSeg (f : R3) (s : State) : Host.Outcome State Fault Refusal :=
  issue (.shflSeg f) s fun s => s.mapLanes (.shflSeg f) fun c l t => t.setReg f.d (shflValue 2 f.a f.b c l)
def execShflFlip (f : R3) (s : State) : Host.Outcome State Fault Refusal :=
  issue (.shflFlip f) s fun s => s.mapLanes (.shflFlip f) fun c l t => t.setReg f.d (shflValue 3 f.a f.b c l)

/-! ## Votes (R296) -/

/-- The lanes whose guard is true, with their value of a register. -/
def voteSet (i : Instr) (c : Crew) (a : Reg6) : List (Nat × Word) :=
  (upto 64).filterMap fun l => if guardOf i (c.thread l) then some (l, (c.thread l).reg a) else none

def voteEvery (g : List (Nat × Word)) : Word := if g.all fun x => x.2 != 0 then 1 else 0
def voteSome (g : List (Nat × Word)) : Word := if g.any fun x => x.2 != 0 then 1 else 0
def voteMap (g : List (Nat × Word)) : DWord :=
  g.foldl (fun m x => if x.2 != 0 then m ||| laneBit x.1 else m) 0
def voteIsum (g : List (Nat × Word)) : Word := g.foldl (fun n x => n + x.2) 0
/-- The sum over the pairwise tree; other lanes contribute +0 (R94). -/
def voteFsum (mode : BitVec 2) (sat : Bool) (g : List (Nat × Word)) : Word :=
  let xs := (upto 64).map fun l => match Tbl.at? g l with | some w => w.toNat | none => 0
  BitVec.ofNat 32 (pairTree (Fmt.f32.add mode sat) xs)

def execVoteEvery (f : R2) (s : State) : Host.Outcome State Fault Refusal :=
  issue (.voteEvery f) s fun s => s.mapLanes (.voteEvery f) fun c _ t =>
    t.setReg f.d (voteEvery (voteSet (.voteEvery f) c f.a))
def execVoteSome (f : R2) (s : State) : Host.Outcome State Fault Refusal :=
  issue (.voteSome f) s fun s => s.mapLanes (.voteSome f) fun c _ t =>
    t.setReg f.d (voteSome (voteSet (.voteSome f) c f.a))
def execVoteMap (f : R2) (s : State) : Host.Outcome State Fault Refusal :=
  issue (.voteMap f) s fun s => s.mapLanes (.voteMap f) fun c _ t =>
    t.setPair f.d (voteMap (voteSet (.voteMap f) c f.a))
def execVoteFsum (f : R2) (s : State) : Host.Outcome State Fault Refusal :=
  issue (.voteFsum f) s fun s => s.mapLanes (.voteFsum f) fun c _ t =>
    t.setReg f.d (voteFsum t.mode t.satur (voteSet (.voteFsum f) c f.a))
def execVoteIsum (f : R2) (s : State) : Host.Outcome State Fault Refusal :=
  issue (.voteIsum f) s fun s => s.mapLanes (.voteIsum f) fun c _ t =>
    t.setReg f.d (voteIsum (voteSet (.voteIsum f) c f.a))

end Sys2Proof.Machine
end

