-- ==== Sys2Proof/Machine/TaskBuf.lean ====
section
/-!
DEFINITION. The escape log (R211, R212, R464) and the task write buffer with its commit and early commit (R44, R45, R231,
R437, R461).
-/
namespace Sys2Proof.Machine

/-! ## The escape log -/

/-- Whether a value, address or guard of an instruction is tainted in a thread, or control is (R211). -/
def hasTaint (i : Instr) (t : Thread) : Bool :=
  ((readsOf i t).any fun r => t.taintG.getLsbD r.toNat) ||
    ((guardPreds i t).any fun p => t.taintP.getLsbD p.toNat) || t.taintC

/-- The 32 bytes of an entry (R212). -/
def Escape.bytes (e : Escape) : List Byte :=
  leBytes 8 e.time ++ leBytes 2 e.cand ++ leBytes 1 e.kind ++ leBytes 1 e.lane ++ leBytes 4 e.pc.toNat ++
    leBytes 8 e.addr.toNat ++ leBytes 4 e.value.toNat ++ leBytes 4 e.inst.toNat

/-- The entry a write of a thread would append. -/
def escapeOf (s : State) (r : TRef) (kind : Nat) (value : Word) (addr : DWord) : Escape :=
  let t := s.thread r
  let base := match s.teamLaunch? r.team with | some (_, l) => l.code | none => 0
  { inst := t.instWord, value := value, addr := addr, pc := (t.pc - base).setWidth 32, lane := r.lane, kind := kind,
    cand := t.instCand, time := s.time }

/-- An entry that finds no room or no writable place is dropped (R464). -/
def dropEscape (s : State) (team lid : Nat) (l : Launch) (pc : DWord) : State :=
  let die := dieOf (s.teamCore team)
  let w := writeVirt s die l.ctx false (l.aux.toNat + 8) (leBytes 8 (l.dropCount + 1))
  let counted := match w.2 with | .ok _ => true | .error _ => false
  let s1 := w.1.setLaunch lid fun l =>
    { l with dropped := true, dropCount := if counted then l.dropCount + 1 else l.dropCount }
  match s1.team? team with
  | some tm =>
    if tm.escapeFault then s1
    else
      let c : Cause := { cls := 11, code := 2, addr := if counted then BitVec.ofNat 64 (l.dropCount + 1) else 0,
                         pc := pc, originPc := pc, originTime := s.time, detected := s.time, crew := some 255 }
      (s1.setTeam team fun tm => { tm with escapeFault := true }).defer team c
  | none => s1

/-- Registers an entry of a launch's log at its home, with the counts (R212). -/
def appendEscape (s : State) (team : Nat) (e : Escape) : State :=
  match s.teamLaunch? team with
  | none => s
  | some (lid, l) =>
    let die := dieOf (s.teamCore team)
    let pc := l.code + e.pc.setWidth 64
    if l.auxCap ≤ l.escapeCount then dropEscape s team lid l pc
    else
      match translateRange s (.die die) l.ctx false .write 2 l.aux.toNat 64 with
      | (s1, .error _) => dropEscape s1 team lid l pc
      | (s1, .ok _) =>
        match writeVirt s1 die l.ctx false (l.aux.toNat + 64 + 32 * l.escapeCount) e.bytes with
        | (s2, .error _) => dropEscape s2 team lid l pc
        | (s2, .ok _) =>
          let head := leBytes 8 (l.escapeCount + 1) ++ leBytes 8 l.dropCount ++ List.replicate 48 0
          (writeVirt s2 die l.ctx false l.aux.toNat head).1.setLaunch lid fun l =>
            { l with escapeCount := l.escapeCount + 1 }

/-! ## The task write buffer -/

/-- The task of a team while its stores are buffered (R44, R45). -/
def State.buffering (s : State) (team : Nat) : Option Task :=
  match s.team? team with
  | some tm => match tm.task with | some k => if k.committed then none else some k | none => none
  | none => none

def State.setTask (s : State) (team : Nat) (f : Task → Task) : State :=
  s.setTeam team fun tm => { tm with task := tm.task.map f }

/-- A byte of a place as the buffer of a task shows it, if it does. -/
def Task.byte? (k : Task) (p : Place) (a : Nat) : Option Byte :=
  match k.buffer.find? fun e => e.place == p && e.sector == a / 64 with
  | some e => Tbl.at? e.data (a % 64)
  | none => none

/-- Bytes of a load of a task: its own buffered stores where they cover them (R307). -/
def State.overlay (s : State) (team : Nat) (p : Place) (a : Nat) (bs : List Byte) : List Byte :=
  match s.buffering team with
  | none => bs
  | some k => bs.zipIdx.map fun x => (k.byte? p (a + x.2)).getD x.1

/-- Entries a buffer of b KiB holds (R231). -/
def bufferEntries (kib : Nat) : Nat := 1024 * kib / 80

/-- The stores of a buffer, each as an entry of its own. -/
def splitEntries (b : List BufEntry) : List BufEntry :=
  b.flatMap fun e => e.stores.map fun x => { e with data := e.data.filter (fun d => x.offs.contains d.1), stores := [x] }

/-- Translates the marked stores again, each with its own privilege (R437, R480); the failing one's fault. -/
def retranslate (s : State) (core ctx : Nat) : List BufEntry → State × Except (TFault × Nat) (List BufEntry)
  | [] => (s, .ok [])
  | e :: es =>
    match e.stores.find? (·.marked) with
    | some x =>
      match translate s (.core core) ctx x.va x.sup .write with
      | (s', .error f) => (s', .error (f, x.va.toNat))
      | (s', .ok pa) =>
        match retranslate s' core ctx es with
        | (s'', .error f) => (s'', .error f)
        | (s'', .ok r) => (s'', .ok ({ e with sector := pa / 64 } :: r))
    | none =>
      match retranslate s core ctx es with
      | (s'', .error f) => (s'', .error f)
      | (s'', .ok r) => (s'', .ok (e :: r))

/-- Stores bytes in a core's L1; where no line can leave for them, they are registered at once (R109, R131). -/
def storeL1Now (s : State) (w : Writer) (va : DWord) (pa : Nat) (bs : List Byte) : State :=
  match makeRoom s w.core pa with
  | (s1, true) => l1Store s1 w va pa bs
  | (s1, false) =>
    let s2 := l1Store s1 w va pa bs
    let mine := fun (x : L1Word) => x.core == w.core && (wordsTouched pa bs.length).contains x.pa
    let s2 := settle s2 (s2.l1.filter fun x => x.dirty != 0 && mine x)
    let x := writeBackAll s2 (s2.l1.filter fun x => x.dirty != 0 && mine x)
    let s3 := reportWriteBacks x.1 1 none 0 x.2 []
    { s3 with l1 := s3.l1.filter fun x => !mine x }

/-- Performs the stores of an entry: at the level, or in the core's L1 for the release that follows. A store into the region of
an atomic buffer is another agent's access (R141). -/
def performEntry (w : Writer) (s : State) (e : BufEntry) : State :=
  e.data.foldl (fun s x =>
    match e.place with
    | .phys =>
      let o := e.stores.find? fun y => y.offs.contains x.1
      let va := match o with | some y => y.va | none => 0
      noteForeign (storeL1Now s { w with sup := match o with | some y => y.sup | none => w.sup } (va + BitVec.ofNat 64 x.1)
        (64 * e.sector + x.1) [x.2]) (64 * e.sector + x.1) 1
    | p => s.writePlace p (64 * e.sector + x.1) [x.2]) s

/-- A byte of a task's buffer stands in a unit that an engine has yet to write: the commit waits (R135). -/
def State.commitBlocked (s : State) (team : Nat) : Bool :=
  match s.buffering team with
  | none => false
  | some k => k.buffer.any fun e => e.data.any fun x => s.isBusy e.place (64 * e.sector + x.1) 1

/-- Adds progress counts to the counters of a context (R354). -/
def addProgress (s : State) (ctx : Nat) (ps : List DWord) : State :=
  s.setCtx ctx fun c => { c with prog := c.prog.mapIdx fun i v => v + ps.getD i 0 }

/-- The commit of a task's buffer as one release: whole, or nothing of it with the cause (R44, R437). -/
def commitTask (s : State) (team : Nat) (pc : DWord) (lanes : DWord := 0) : State × Option Cause :=
  match s.buffering team with
  | none => (s, none)
  | some k =>
    let core := s.teamCore team
    let ctx := s.teamCtx team
    match retranslate s core ctx (splitEntries k.buffer) with
    | (s1, .error f) =>
      (s1, some { cls := 13, code := 16, detail := f.1.detail .write, addr := BitVec.ofNat 64 f.2, pc := pc,
                  originPc := pc, originTime := s.time, detected := s.time, deferred := true })
    | (s1, .ok es) =>
      let w : Writer := ⟨core, ctx, ⟨team, 0⟩, 0, false, pc, s.time⟩
      let s2 := s1.setTask team fun k => { k with buffer := [], committed := true, escapes := [], progress := [] }
      let s3 := k.escapes.foldl (fun s e => appendEscape s team e) s2
      let s4 := es.foldl (performEntry w) s3
      (addProgress (release s4 ⟨team, 0⟩ pc lanes) ctx k.progress, none)

/-- Early commit before an instruction of a thread (R45). -/
def earlyCommit (s : State) (r : TRef) : State × Option Cause :=
  match s.buffering r.team with
  | none => (s, none)
  | some _ =>
    match commitTask s r.team (s.thread r).pc (laneBit r.lane) with
    | (s1, some c) => (s1, some c)
    | (s1, none) => (s1.setTask r.team fun k => { k with early := true }, none)

/-- An instruction of a lane that commits a task early: a failed commit traps there, and the commit is retried (R437). -/
def afterCommit (s : State) (r : TRef) (f : State → LaneRes) : LaneRes :=
  if s.commitBlocked r.team then .stall s
  else
    match earlyCommit s r with
    | (s1, some c) => .trap s1 c
    | (s1, none) => f s1

/-- Crews of a team that wait at the region barrier with an entry that the step will append (R211). -/
def State.regionLogs (s : State) (team : Nat) : Nat :=
  (s.crews.filter fun c => c.1.team == team && match (c.2.thread 0).wait with | .region _ _ _ _ (some _) => true | _ => false).length

/-- The entries that a write will append do not fit with the buffer of the thread's task (R461); arrivals of this cycle append
theirs at its end, and waits at the region barrier at the step. -/
def State.logFull (s : State) (r : TRef) (n : Nat) : Bool :=
  match s.buffering r.team with
  | none => false
  | some k => 64 < k.escapes.length + s.regionLogs r.team + (s.due.arrivals.filter fun a => a.thread.team == r.team && a.log.isSome).length + n

/-- A write that appends entries: the task commits early before a 65th (R461). -/
def withEntries (s : State) (r : TRef) (n : Nat) (f : State → LaneRes) : LaneRes :=
  if s.logFull r n then afterCommit s r f else f s

/-- Appends an entry of a team: at its home, or with the buffer of its task (R211, R461). -/
def keepEscape (s : State) (team : Nat) (e : Escape) : State :=
  match s.buffering team with
  | none => appendEscape s team e
  | some k => s.setTask team fun _ => { k with escapes := k.escapes ++ [e] }
/-- Appends an entry for a write of a thread. -/
def logEscape (s : State) (r : TRef) (kind : Nat) (value : Word) (addr : DWord) : State :=
  keepEscape s r.team (escapeOf s r kind value addr)

/-- A store over earlier ones of its sector: their bytes are its own now, and it joins one that is like it. -/
def BufStore.over (x : BufStore) (ss : List BufStore) : List BufStore :=
  let rest := (ss.map fun y => { y with offs := y.offs.filter fun o => !x.offs.contains o }).filter fun y => !y.offs.isEmpty
  let like := fun (y : BufStore) => y.va == x.va && y.sup == x.sup && y.page == x.page && !y.marked
  if rest.any like then rest.map fun y => if like y then { y with offs := y.offs ++ x.offs } else y else rest ++ [x]

/-- Merges bytes into the buffer of a task, all in one sector; none when a new entry is needed and the buffer is full
(R231). -/
def Task.store? (k : Task) (p : Place) (a : Nat) (va : DWord) (sup : Bool) (page : Nat) (bs : List Byte) : Option Task :=
  let put := fun (d : List (Nat × Byte)) => bs.zipIdx.foldl (fun d x => Tbl.put d (a % 64 + x.2) x.1) d
  let new : BufStore := ⟨(upto bs.length).map fun i => a % 64 + i, va / 64 * 64, sup, false, page⟩
  if k.buffer.any fun e => e.place == p && e.sector == a / 64 then
    some { k with buffer := k.buffer.map fun e =>
      if e.place == p && e.sector == a / 64 then { e with data := put e.data, stores := new.over e.stores } else e }
  else if k.buffer.length < bufferEntries k.capacity then
    some { k with buffer := k.buffer ++ [⟨p, a / 64, put [], [new]⟩] }
  else none

end Sys2Proof.Machine
end

