-- ==== Sys2Proof/Machine/Sync.lean ====
section
/-!
DEFINITION. Mask waits and mask logic (R53 to R58, R317 to R320), the writes of `k` registers (R34), team barriers (R59,
R60, R321), the baton (R159, R342), fences (R313) and the end of threads (R57, R301).
-/
namespace Sys2Proof.Machine

/-! ## Mask registers -/

def Crew.maskReg (c : Crew) (n : Nat) : MaskReg := c.mask.getD n MaskReg.zero
def Crew.setMask (c : Crew) (n : Nat) (f : MaskReg → MaskReg) : Crew :=
  { c with mask := c.mask.mapIdx fun i m => if i = n then f m else m }

/-- A set is complete: M is not zero and every bit of M is in A (R54). -/
def MaskReg.complete (m : MaskReg) : Bool := m.m != 0 && (m.m &&& ~~~m.a) == 0

/-- Whether a thread waits on a mask register. -/
def Thread.onMask (t : Thread) (n : Nat) : Bool :=
  match t.wait with
  | .mask k => k == n
  | .maskTimed k _ _ => k == n
  | _ => false

/-- A waiting thread goes on; a `WAITMT` reports its status (R318), which may change a register (R61). -/
def Thread.endWait (t : Thread) (cycle : Nat) (status : Word) : Thread :=
  let t1 := match t.wait with
    | .maskTimed _ d _ => if t.reg d = status then t.setReg d status else (t.setReg d status).stirred
    | _ => t
  t1.wakeAt (cycle + 1)

/-- The completion test of one mask register of a crew (R54): the waiters whose bit is in A are released. -/
def completeMask (s : State) (c : CRef) (n : Nat) : State :=
  match s.crew? c with
  | none => s
  | some w =>
    let m := w.maskReg n
    if m.complete then
      let ts := w.threads.mapIdx fun l t => if m.a.getLsbD l && t.onMask n then t.endWait s.cycle 0 else t
      let w1 := { w with threads := ts }
      let w2 := w1.setMask n fun m => { m with a := 0, phase := !m.phase }
      acquire (s.setCrew c fun _ => w2) c
    else s

/-- A mask register is tested at the end of the cycle (R54). -/
def markMask (s : State) (c : CRef) (n : Nat) : State :=
  if s.due.masks.contains (c, n) then s else { s with due := { s.due with masks := s.due.masks ++ [(c, n)] } }
/-- A team barrier is tested at the end of the cycle (R59, R60). -/
def markBar (s : State) (team n : Nat) : State :=
  if s.due.bars.contains (team, n) then s else { s with due := { s.due with bars := s.due.bars ++ [(team, n)] } }

/-- Changes a mask register for a lane, which its test follows; a change is an effect of R61. -/
def changeMask (s : State) (r : TRef) (n : Nat) (f : MaskReg → MaskReg) : State :=
  let old := match s.crew? r.cref with | some c => c.maskReg n | none => MaskReg.zero
  let s1 := markMask (s.setCrew r.cref (·.setMask n f)) r.cref n
  if f old = old then s1
  else
    let s2 := s1.setThread r Thread.stirred
    { s2 with cur := { s2.cur with effect := true } }

/-- A mask instruction of the lanes of a group. -/
def execMask (i : Instr) (s : State) (f : TRef → State → LaneRes) : Host.Outcome State Fault Refusal :=
  issue i s fun s => s.eachLane i f

def joinLane (n : Nat) (r : TRef) (s : State) : LaneRes :=
  .ok (changeMask s r n fun m => { m with m := m.m ||| laneBit r.lane })
def execJoin (f : R1) (s : State) := execMask (.join f) s (joinLane f.a.toNat)

def leaveLane (n : Nat) (r : TRef) (s : State) : LaneRes :=
  .ok (changeMask s r n fun m => { m with m := m.m &&& ~~~laneBit r.lane, a := m.a &&& ~~~laneBit r.lane })
def execLeave (f : R1) (s : State) := execMask (.leave f) s (leaveLane f.a.toNat)

/-- Whether a thread is a member of a mask register of its crew. -/
def State.member (s : State) (r : TRef) (n : Nat) : Bool :=
  match s.crew? r.cref with | some c => (c.maskReg n).m.getLsbD r.lane | none => false

/-- An arrival at a mask register: a release, then the bit of A and the wait (R53, R58). -/
def arriveMask (s : State) (r : TRef) (n : Nat) (w : Wait) : LaneRes :=
  afterRelease s r fun s1 =>
    let s2 := changeMask s1 r n fun m => { m with a := m.a ||| laneBit r.lane }
    .ok (s2.setThread r fun t => { t with wait := w })

def waitmLane (n : Nat) (r : TRef) (s : State) : LaneRes :=
  if s.member r n then arriveMask s r n (.mask n) else .ok s
def execWaitm (f : R1) (s : State) := execMask (.waitm f) s (waitmLane f.a.toNat)

/-- What a `WAITMT` deadline counts: nanoseconds, or steps of the core's coroutine order (R56). -/
def State.waitClock (s : State) (team : Nat) : Nat :=
  if s.isDet team then (s.core (s.teamCore team)).steps else s.time

/-- A wait that has timed out: the thread's bit leaves A, and it reports status 1 (R53, R318). -/
def timeoutThread (s : State) (r : TRef) : State :=
  match (s.thread r).wait with
  | .maskTimed n _ _ =>
    let s1 := s.setCrew r.cref (·.setMask n fun m => { m with a := m.a &&& ~~~laneBit r.lane })
    s1.setThread r fun t => t.endWait s.cycle 1
  | _ => s

def waitmtLane (f : R3) (r : TRef) (s : State) : LaneRes :=
  let n := f.a.toNat
  if s.member r n then
    arriveMask s r n (.maskTimed n f.d (s.waitClock r.team + ((s.thread r).reg f.b).toNat))
  else .ok (s.setThread r fun t => t.setReg f.d 2)

def execWaitmt (f : R3) (s : State) := execMask (.waitmt f) s (waitmtLane f)

/-- The timeouts that have expired, checked after the completion tests of the cycle. Under deterministic mode a step of the
coroutine order ends those that it lets expire, so that here only a timeout of 0 has expired, at its issue (R53, R55, R56,
R318). -/
def expireWaits (s : State) : State :=
  s.crews.foldl (fun s c => (upto 64).foldl (fun s l =>
    let r : TRef := ⟨c.1.team, c.1.crew, l⟩
    match (c.2.thread l).wait with
    | .maskTimed _ _ _ =>
      (match (s.thread r).wait with
       | .maskTimed _ _ d => if d ≤ s.waitClock r.team then timeoutThread s r else s
       | _ => s)
    | _ => s) s) s

/-! ## Mask logic (R319, R320) -/

/-- Writes a membership set of the crew when a lane's guard is true; its test follows at the end of the cycle. -/
def execMaskLogic (i : Instr) (s : State) (d : Reg6) (v : Crew → DWord) : Host.Outcome State Fault Refusal :=
  issue i s fun s =>
    let c := s.curCrew
    match s.leadLane i with
    | none => s
    | some _ => markMask (s.setCrew c fun w => w.setMask d.toNat fun m => { m with m := v w }) c d.toNat

def Crew.setOf (c : Crew) (a : Reg6) : DWord := (c.maskReg a.toNat).m
/-- The pair of an even `k` register. -/
def Crew.kPair (c : Crew) (a : Reg6) : DWord :=
  BitVec.ofNat 64 ((c.kReg a).toNat + 2 ^ 32 * (c.kReg (a + 1)).toNat)

def execMand (f : R3) (s : State) := execMaskLogic (.mand f) s f.d fun c => c.setOf f.a &&& c.setOf f.b
def execMor (f : R3) (s : State) := execMaskLogic (.mor f) s f.d fun c => c.setOf f.a ||| c.setOf f.b
def execMxor (f : R3) (s : State) := execMaskLogic (.mxor f) s f.d fun c => c.setOf f.a ^^^ c.setOf f.b
def execMandn (f : R3) (s : State) := execMaskLogic (.mandn f) s f.d fun c => c.setOf f.a &&& ~~~c.setOf f.b
def execMmov (f : R2) (s : State) := execMaskLogic (.mmov f) s f.d fun c => c.setOf f.a
def execMset (f : R2) (s : State) := execMaskLogic (.mset f) s f.d fun c => c.kPair f.a

/-- The value `MGET` reads of a mask register as its cycle began. -/
def mgetValue (m : MaskReg) (sel : Nat) : DWord :=
  match sel with
  | 0 => m.m
  | 1 => m.a
  | _ => if m.phase then 1 else 0

def execMget (f : R3) (s : State) : Host.Outcome State Fault Refusal :=
  issue (.mget f) s fun s => s.mapLanes (.mget f) fun c _ t =>
    t.setPair f.d (mgetValue ((c.masksAt s.cycle).getD f.a.toNat MaskReg.zero) f.b.toNat)

/-! ## Writes of `k` registers (R34, R210, R211) -/

def Crew.setK (c : Crew) (d : Reg6) (v : Word) (taint : Bool) : Crew :=
  { c with k := c.k.set! d.toNat v
           taintK := if taint then c.taintK ||| laneBit d.toNat else c.taintK &&& ~~~laneBit d.toNat }

/-- A write of `k` registers by a lane, tainted or not: a tainted one appends an entry, for which a task may have to commit
early; that can wait, or fail in the whole crew (R211, R407, R437, R461). -/
def writeK (s : State) (r : TRef) (dirty : Bool) (ws : List (Reg6 × Word)) : State :=
  let put := fun (s : State) => s.setCrew r.cref fun c => ws.foldl (fun c x => c.setK x.1 x.2 dirty) c
  if dirty then
    match withEntries s r ws.length fun s => .ok (ws.foldl (fun s x => logEscape s r 6 x.2 (x.1.setWidth 64)) s) with
    | .ok s1 | .jump s1 => put s1
    | .stall s1 => s1.stallAll
    | .trap s1 c => s1.trapAll c
  else put s

/-- The lane's guard is tainted. -/
def Thread.guardTaint (t : Thread) (i : Instr) : Bool := (guardPreds i t).any fun p => t.taintP.getLsbD p.toNat

def execMovToK (f : R2) (s : State) : Host.Outcome State Fault Refusal :=
  issue (.movToK f) s fun s =>
    match s.leadLane (.movToK f) with
    | none => s
    | some l =>
      let r : TRef := ⟨s.curCrew.team, s.curCrew.crew, l⟩
      let t := s.thread r
      writeK s r (t.taintG.getLsbD f.a.toNat || t.guardTaint (.movToK f)) [(f.d, t.reg f.a)]

/-! ## Team barriers -/

/-- A crew that has not fully exited. -/
def Crew.live (c : Crew) : Bool := c.anyThread fun t => !t.exited
/-- The crew has arrived at a barrier: all its live threads wait there (R59). -/
def Crew.atBar (c : Crew) (n : Nat) : Bool :=
  c.live && c.allThread fun t => t.exited || (match t.wait with | .bar k _ => k == n | _ => false)

/-- The crews of a team that its barriers count, live ones only. -/
def State.liveCrews (s : State) (team : Nat) : List Nat :=
  match s.team? team with
  | none => []
  | some tm => (upto tm.crews).filter fun c => match s.crew? ⟨team, c⟩ with | some w => w.live | none => false

/-- Records the arrivals of this cycle at a barrier: of several, the lowest crew is the last (R60). Under deterministic mode the
crew has reached a switch point (R64). -/
def recordArrivals (s : State) (team n : Nat) : State :=
  let new := ((s.liveCrews team).filter fun c =>
    (match s.crew? ⟨team, c⟩ with | some w => w.atBar n | none => false) &&
    !(match s.team? team with | some tm => tm.barOrder.contains (n, c) | none => false)).reverse
  let s1 := new.foldl (fun s c => s.setCrew ⟨team, c⟩ fun w => { w with switchPoint := s.isDet team }) s
  s1.setTeam team fun tm => { tm with barOrder := tm.barOrder ++ new.map fun c => (n, c) }

/-- The last-arriving crew of a complete barrier (R60). -/
def lastArriver (det : Bool) (order : List (Nat × Nat)) (live : List Nat) (n : Nat) : Nat :=
  if det then live.getLastD 0
  else ((order.filter fun x => x.1 = n && live.contains x.2).map (·.2)).getLastD 0

/-- A thread released from a barrier, with its predicate (R59, R61). -/
def Thread.leaveBar (cycle n : Nat) (last : Bool) (t : Thread) : Thread :=
  match t.wait with
  | .bar k p =>
    if k = n then
      let t1 := (t.setPred p last).wakeAt (cycle + 1)
      if t1.p = t.p then t1 else t1.stirred
    else t
  | _ => t

/-- The completion test of a team barrier (R59). -/
def testBarrier (s : State) (team n : Nat) : State :=
  let s1 := recordArrivals s team n
  let live := s1.liveCrews team
  let all := live.all fun c => match s1.crew? ⟨team, c⟩ with | some w => w.atBar n | none => false
  if all && !live.isEmpty then
    let order := match s1.team? team with | some tm => tm.barOrder | none => []
    let last := lastArriver (s1.isDet team) order live n
    let s2 := s1.setTeam team fun tm =>
      { tm with barPhase := tm.barPhase.mapIdx fun i v => if i = n then v + 1 else v
                barOrder := tm.barOrder.filter fun x => x.1 != n }
    live.foldl (fun s c =>
      acquire (s.setCrew ⟨team, c⟩ fun w => { w with threads := w.threads.map (Thread.leaveBar s.cycle n (c == last)) })
        ⟨team, c⟩) s2
  else s1

/-- The teams with threads in the group. -/
def State.groupTeams (s : State) : List Nat := (s.cur.lanes.map (·.1.team)).eraseDups

/-- `BAR`: a handler crew is refused (R418 code 0x08); the others arrive, and the barrier is tested at the end of the cycle. -/
def barLane (f : BarF) (r : TRef) (s : State) : LaneRes :=
  match s.team? r.team with
  | none => .ok s
  | some tm =>
    if tm.crews ≤ r.crew then .trap s { cls := 5, code := 8 }
    else afterRelease s r fun s1 => .ok (s1.setThread r fun t => { t with wait := .bar f.n.toNat f.p })
def execBar (f : BarF) (s : State) : Host.Outcome State Fault Refusal :=
  issue (.bar f) s fun s =>
    let ts := s.groupTeams
    ts.foldl (fun s t => markBar s t f.n.toNat) (s.eachLane (.bar f) (barLane f))

/-! ## Fences (R313) -/

/-- `FENCE.REL` starts a release: no later store of the thread is registered before it completes (R133). -/
def fenceRelLane (r : TRef) (s : State) : LaneRes :=
  let pc := (s.thread r).pc
  .ok (s.setCrew r.cref fun c =>
    let before := match c.fence with | some (p, m) => if p = pc then m else 0 | none => 0
    { c with fence := some (pc, before ||| laneBit r.lane) })
def execFenceRel (f : R0) (s : State) : Host.Outcome State Fault Refusal :=
  issue (.fenceRel f) s fun s => s.eachLane (.fenceRel f) fenceRelLane
def fenceAcqLane (r : TRef) (s : State) : LaneRes := .ok (acquire s r.cref)
def execFenceAcq (f : R0) (s : State) : Host.Outcome State Fault Refusal :=
  issue (.fenceAcq f) s fun s => s.eachLane (.fenceAcq f) fenceAcqLane
def fenceArLane (r : TRef) (s : State) : LaneRes := afterRelease s r fun s1 => .ok (acquire s1 r.cref)
def execFenceAr (f : R0) (s : State) : Host.Outcome State Fault Refusal :=
  issue (.fenceAr f) s fun s => s.eachLane (.fenceAr f) fenceArLane

/-! ## The baton (R159, R342) -/

/-- The next crew that can hold the baton after a crew: ascending, wrapping, passing over crews that have ended. -/
def nextHolder (s : State) (team crews holder : Nat) : Nat :=
  let order := (upto crews).map fun i => (holder + 1 + i) % crews
  match order.find? fun c => (s.liveCrews team).contains c with
  | some c => c
  | none => holder

/-- The baton reaches a crew and releases its `BATON.WAIT`, an acquire. -/
def giveBaton (s : State) (team crew : Nat) : State :=
  let s1 := s.setTeam team fun tm => { tm with baton := crew }
  let waits := match s1.crew? ⟨team, crew⟩ with
    | some c => c.anyThread fun (t : Thread) => t.wait == Wait.baton
    | none => false
  let go := fun (t : Thread) =>
    if t.wait = Wait.baton then t.wakeAt (s.cycle + 1) else t
  if waits then acquire (s1.setCrew ⟨team, crew⟩ fun c => { c with threads := c.threads.map go }) ⟨team, crew⟩
  else s1

def passBaton (s : State) (team : Nat) : State :=
  match s.team? team with
  | none => s
  | some tm => if tm.array.isNone || tm.crews = 0 then s else giveBaton s team (nextHolder s team tm.crews tm.baton)

/-- A team without the array has no baton to pass or await (R418 code 0x07). -/
def noArray (s : State) (team : Nat) : Bool :=
  match s.team? team with | some tm => tm.array.isNone | none => true

def execBatonPass (f : Rs) (s : State) : Host.Outcome State Fault Refusal :=
  issue (.batonPass f) s fun s =>
    let c := s.curCrew
    if noArray s c.team then s.trapAll { cls := 5, code := 7 }
    else if s.relBlocked c then s.stallAll
    else
      let s1 := release s c (match s.crew? c with | some w => (w.thread 0).pc | none => 0) (maskFor s.cur.lanes c)
      match s1.team? c.team with
      | some tm => if tm.baton = c.crew then passBaton s1 c.team else s1
      | none => s1

def execBatonWait (f : Rs) (s : State) : Host.Outcome State Fault Refusal :=
  issue (.batonWait f) s fun s =>
    let c := s.curCrew
    if noArray s c.team then s.trapAll { cls := 5, code := 7 }
    else
      match s.team? c.team with
      | some tm =>
        if tm.baton = c.crew then acquire s c
        else s.setCrew c fun w => { w with threads := w.threads.map fun t => { t with wait := .baton } }
      | none => s

/-! ## The end of threads (R57, R71, R301) -/

/-- A thread ends: its bits leave every mask register of its crew, and its results are dropped when they return. -/
def endThread (s : State) (r : TRef) : State :=
  let s1 := s.setCrew r.cref fun c =>
    { c with mask := c.mask.map fun m =>
        { m with m := m.m &&& ~~~laneBit r.lane, a := m.a &&& ~~~laneBit r.lane } }
  s1.setThread r fun t =>
    { t with exited := true, out := t.out.map fun o => { o with regs := o.regs.map fun _ => none } }

/-- Records the thread that ended last: the latest cycle, then the lowest crew number, then the lowest lane (R410). -/
def recordEnd (s : State) (rs : List TRef) : State :=
  rs.foldl (fun s r =>
    let key := fun (q : TRef) => 64 * s.slotOf q.cref + q.lane
    match s.team? r.team with
    | none => s
    | some tm =>
      let kept := match tm.lastEnd with | some e => e.1 == s.cycle && key e.2.1 ≤ key r | none => false
      if r.crew < tm.crews && !kept then
        s.setTeam r.team fun tm => { tm with lastEnd := some (s.cycle, r, (s.thread r).pc) }
      else s) s

/-- The crew that holds a team's baton has ended: the baton passes as by `BATON.PASS`, once the crew's release is complete
(R159, R301). -/
def batonOfEnded (s : State) (team : Nat) : State :=
  match s.team? team with
  | none => s
  | some tm =>
    let c : CRef := ⟨team, tm.baton⟩
    match s.crew? c with
    | none => s
    | some w =>
      if w.live || tm.array.isNone || s.relBlocked c then s
      else
        let last := (tm.lastEnd.map fun e => (e.2.2, if e.2.1.cref = c then laneBit e.2.1.lane else 0)).getD (0, 0)
        passBaton (release s c last.1 last.2) team

/-- After threads of crews have ended: their masks and their teams' barriers are tested at the end of the cycle, and a baton may
pass (R57, R59, R159). -/
def settleEnds (s : State) (cs : List CRef) : State :=
  let s1 := cs.foldl (fun s c => (upto 12).foldl (fun s n => markMask s c n) s) s
  let teams := (cs.map (·.team)).eraseDups
  let s2 := teams.foldl (fun s t => (upto 16).foldl (fun s n => markBar s t n) s) s1
  teams.foldl batonOfEnded s2

/-- `EXIT` (R301). -/
def exitLane (r : TRef) (s : State) : LaneRes := .ok (endThread s r)
def execExit (f : R0) (s : State) : Host.Outcome State Fault Refusal :=
  issue (.exit f) s fun s =>
    let rs := s.cur.refs.filter fun r => guardOf (.exit f) (s.thread r)
    let s1 := recordEnd (s.eachLane (.exit f) exitLane) rs
    settleEnds s1 (rs.map TRef.cref).eraseDups

end Sys2Proof.Machine
end

