-- ==== Sys2Proof/Machine/Control.lean ====
section
/-!
DEFINITION. Control: instruction lines and their predecode (R112, R264), branches and calls with the spin detector (R61,
R62, R297 to R300, R417), YIELD and NOP (R302, R303), hints (R257 to R260) and dictionary runs (R261 to R263).
-/
namespace Sys2Proof.Machine

/-! ## Instruction lines -/

/-- The line of an address in a core's L1 instruction cache, for a privilege that may fetch through its translation. -/
def State.line? (s : State) (core ctx : Nat) (va : DWord) (sup : Bool) : Option ILine :=
  s.icache.find? fun l =>
    l.core == core && l.ctx == ctx && l.va.toNat == va.toNat / 256 * 256 && (sup || l.user)

/-- Reads a line through the home L2 with the translation it comes through, or the fault of the fetch at an address (R426, R429,
R443). -/
def fetchLine (s : State) (core ctx : Nat) (va : DWord) (sup : Bool) : State × Except Cause ILine :=
  let base := BitVec.ofNat 64 (va.toNat / 256 * 256)
  match translate s (.core core) ctx base sup .fetch with
  | (s1, .error f) => (s1, .error { cls := 6, code := f.code, detail := f.detail .fetch, addr := va, pc := va, page := f.page })
  | (s1, .ok pa) =>
    if s1.deadRange pa 256 then (s1, .error { cls := 12, code := 3, detail := s1.errorDetail pa, addr := va, pc := va })
    else
      let e := (s1.tlb.find? (·.covers (.core core) ctx base.toNat)).getD default
      (l2Read s1 pa 256, .ok ⟨core, ctx, base, e.user, e.va.toNat, e.size, wordsOf (s1.homeBytes pa 256)⟩)

/-- The words of a line as a branch sees them: cached, or as a fill would bring them. -/
def peekLine (s : State) (core ctx : Nat) (va : DWord) (sup : Bool) : Option (List Word) :=
  match s.line? core ctx va sup with
  | some l => some l.words
  | none => match (fetchLine s core ctx va sup).2 with | .ok l => some l.words | .error _ => none

/-- A line enters a core's L1 instruction cache, in place of an older copy; a full cache loses a line, freely chosen
(assumption 75). -/
def insertLine (s : State) (l : ILine) : State :=
  let kept := s.icache.filter fun x => !(x.core == l.core && x.ctx == l.ctx && x.va == l.va)
  let own := kept.filter fun x => x.core == l.core
  if own.length < Config.icacheLines then { s with icache := kept ++ [l] }
  else
    let x := s.takeFree
    { x.2 with icache := kept.erase (own.getD (x.1.toNat % own.length) l) ++ [l] }

/-- What predecode marks a word as (R264). -/
inductive Mark where
  | plain
  | run
  | expected
  deriving DecidableEq, Repr

/-- The marks of the words of a line: `run` counts the words of a dictionary run still to come, `hint` says that the word
before was an `XLIT` or `XMOD`. -/
def marks : List Word → Nat → Bool → List Mark
  | [], _, _ => []
  | w :: ws, run, hint =>
    if 0 < run then .run :: marks ws (run - 1) false
    else
      (if hint then Mark.expected else .plain) ::
        (if majorOf w = 0x2B then marks ws (w.toNat % 16 + 1) false
         else marks ws 0 (majorOf w = 0x29 || majorOf w = 0x2A))

/-- The mark of the word at an address. -/
def markAt (ws : List Word) (va : DWord) : Mark := (marks ws 0 false).getD (va.toNat % 256 / 4) .plain

/-- The class 0x04 fault of a target (R417): the lowest code. -/
def targetFault (s : State) (r : TRef) (target : DWord) (eret : Bool) : Option Nat :=
  let high := 2 ^ 52 ≤ target.toNat
  let mark :=
    if high then Mark.plain
    else match peekLine s (s.teamCore r.team) (s.teamCtx r.team) target (s.thread r).sup with
      | some ws => markAt ws target
      | none => .plain
  let low := target.toNat % 4
  if mark = .run && low % 2 = 0 then (if eret then none else some 1)
  else if low != 0 || high then some 3
  else if mark = .expected then some 2
  else none

/-! ## Branches (R297 to R300) -/

/-- The thread is restored: the count of each loop begins again. -/
def Spin.restored (x : Spin) : Spin := { x with demoted := false, loops := x.loops.map fun l => { l with empty := 0 } }
/-- The spin detector at a taken branch (R61, R62). A backward branch taken again completes an iteration of its loop: a
non-empty one restores the thread, an empty one counts. A demoted thread that takes another branch than the loop's is restored. -/
def Spin.taken (x : Spin) (pc : DWord) (backward : Bool) : Spin :=
  let y := if x.demoted && x.home != some pc then x.restored else x
  if !backward then y
  else
    match y.loops.find? fun l => l.branch == pc with
    | Option.none => { y with loops := y.loops ++ [⟨pc, 0, false⟩], home := some pc }
    | some l =>
      let z := if l.active then y.restored else y
      { z with home := some pc
               loops := z.loops.map fun k =>
                 if k.branch == pc then ⟨pc, if l.active then 0 else l.empty + 1, false⟩ else k }
/-- The spin detector at a branch not taken: a demoted thread whose loop ends by falling through is restored. -/
def Spin.fallsThrough (x : Spin) (pc : DWord) : Spin := if x.demoted && x.home = some pc then x.restored else x

/-- A branch or call to its own address or one below it; a return is neither (R61). -/
def goesBack (i : Instr) (pc target : DWord) : Bool :=
  match i with
  | .ret _ => false
  | _ => target.toNat ≤ pc.toNat

/-- A thread takes a branch: control taint, spin detector, PC (R62, R210). -/
def Thread.branchTo (t : Thread) (i : Instr) (target : DWord) (det : Bool) : Thread :=
  let dirty := (i.gReads.any fun r => t.taintG.getLsbD r.toNat) || (guardPreds i t).any fun p => t.taintP.getLsbD p.toNat
  { t with pc := target, taintC := t.taintC || dirty, spin := if det then t.spin else t.spin.taken t.pc (goesBack i t.pc target) }

/-- The link of a call: the address after it. -/
def Thread.linked (t : Thread) (link : Option Reg6) (pc : DWord) : Thread :=
  match link with | some d => t.setPair d (pc + 4) | none => t

/-- A branch of one lane: its target is checked, then the thread goes there, with the link where there is one. -/
def branchLane (i : Instr) (target : Thread → DWord) (link : Option Reg6) (r : TRef) (s : State) : LaneRes :=
  match targetFault s r (target (s.thread r)) false with
  | some k => .trap s { cls := 4, code := k, addr := target (s.thread r) }
  | none => .jump (s.setThread r fun t => (t.branchTo i (target t) (s.isDet r.team)).linked link t.pc)

/-- The threads still in the group fall through. -/
def fallThrough (s : State) : State :=
  s.cur.refs.foldl (fun s r => s.setThread r fun t => { t with spin := t.spin.fallsThrough t.pc }) s

/-- A branch, call or return: the lanes whose guard is true go to their target; the others fall through. -/
def execBranch (i : Instr) (s : State) (target : Thread → DWord) (link : Option Reg6) :
    Host.Outcome State Fault Refusal :=
  issue i s fun s => fallThrough (s.eachLane i (branchLane i target link))

/-- The target of a B-format word (R299). -/
def offsetTarget (o : BitVec 22) (t : Thread) : DWord := t.pc + 4 * o.signExtend 64

def execBra (f : Br) (s : State) := execBranch (.bra f) s (offsetTarget f.o) none
def execCall (f : Br) (s : State) := execBranch (.call f) s (offsetTarget f.o) (some 62)
def execBrx (f : R1) (s : State) := execBranch (.brx f) s (fun t => t.pair f.a) none
def execCallx (f : R2) (s : State) := execBranch (.callx f) s (fun t => t.pair f.a) (some f.d)
def execRet (f : R1) (s : State) := execBranch (.ret f) s (fun t => t.pair f.a) none

/-! ## YIELD and NOP -/

/-- `YIELD`: outside deterministic mode only the ready time changes, which the end of the issue sets; under it the crew
reaches a switch point, and the count of R65 begins again. -/
def yieldLane (r : TRef) (s : State) : LaneRes :=
  if s.isDet r.team then
    let s1 := s.setCrew r.cref fun c => { c with switchPoint := true }
    .ok { s1 with cur := { s1.cur with effect := true } }
  else .ok s
def execYield (f : R0) (s : State) : Host.Outcome State Fault Refusal :=
  issue (.yield f) s fun s => s.eachLane (.yield f) yieldLane

def execNop (f : R0) (s : State) := execPure (.nop f) s fun t => t

/-! ## Hints -/

/-- The words of the line a thread executes in, from a word on. -/
def lineAfter (s : State) (r : TRef) (va : DWord) : List Word :=
  match peekLine s (s.teamCore r.team) (s.teamCtx r.team) va (s.thread r).sup with
  | some ws => ws.drop (va.toNat % 256 / 4)
  | none => []

/-- The consumer of an `XLIT` among the words after it in its line (R257). -/
def consumerOf : List Word → Option Instr
  | [] => none
  | w :: ws =>
    match decodeWord w with
    | .ok (.xmod _) => match ws with | v :: _ => (decodeWord v).toOption | [] => none
    | .ok i => some i
    | .error _ => none

/-- The fault of an `XLIT` at its issue: payload bits its consumer does not use (code 0x03), or no next word in its line
(code 0x06). -/
def xlitFault (s : State) (r : TRef) (p : BitVec 25) : Option (Nat × Nat) :=
  let pc := (s.thread r).pc
  if pc.toNat % 256 = 252 then some (6, 0)
  else
    match consumerOf (lineAfter s r (pc + 4)) with
    | some i =>
      match i.xlitBits with
      | some n => if p.toNat / 2 ^ n != 0 then some (3, n) else none
      | none => none
    | none => none

/-- A hint acts in every lane of its group, whatever its guard; a refused one traps in every lane (R304, R412). -/
def execHint (i : Instr) (s : State) (fault : TRef → State → Option (Nat × Nat)) (f : Thread → Thread) :
    Host.Outcome State Fault Refusal :=
  issueWith i (fun s r => (fault r s).map fun x => { cls := 2, code := x.1, detail := x.2 }) s fun s =>
    s.eachLane i fun r s => .ok (s.setThread r f)

def execXlit (f : HX) (s : State) : Host.Outcome State Fault Refusal :=
  execHint (.xlit f) s (fun r s => xlitFault s r f.p) fun t => { t with chain := t.chainStart, xlit := some f.p }
def execXmod (f : HM) (s : State) : Host.Outcome State Fault Refusal :=
  execHint (.xmod f) s (fun r s => if (s.thread r).pc.toNat % 256 = 252 then some (6, 0) else none)
    fun t => { t with chain := t.chainStart, xmod := some f }
/-- `DICT`: the run of n words after it stands in its line (R261, R415 code 0x07). -/
def execDict (f : HD) (s : State) : Host.Outcome State Fault Refusal :=
  execHint (.dict f) s
    (fun r s => if 63 < (s.thread r).pc.toNat % 256 / 4 + f.n.toNat + 1 then some (7, 0) else none) fun t => t
def execSched (f : HS) (s : State) : Host.Outcome State Fault Refusal :=
  execHint (.sched f) s (fun _ _ => none) fun t => { t with sched := some f.l }

/-! ## Dictionary codes (R261 to R263) -/

/-- The address of a dictionary entry, from the code object's header (R270). -/
def entryAddress (s : State) (core : Nat) (sup : Bool) (l : Launch) (x : Nat) : State × Except Cause DWord :=
  match readFor s core l.ctx sup (l.code.toNat + 24) 8 with
  | (s1, .error c) => (s1, .error c)
  | (s1, .ok bs) => (s1, .ok (l.code + BitVec.ofNat 64 (leNat bs + 4 * x)))

/-- What a dictionary code executes as: a word, a fault (with the expanded word where the entry is known), or nothing yet
while the entry's line is not cached. -/
inductive CodeRes where
  | word (w : Word)
  | fault (s : State) (c : Cause) (w : Option Word)
  | missing (s : State) (va : DWord)
  deriving DecidableEq, Repr

def codeWord (s : State) (r : TRef) (f : CodeF) : CodeRes :=
  if f.x = 1023#10 then .word (expandCode 0 f)
  else
    match s.teamLaunch? r.team with
    | none => .word (expandCode 0x50000005 f)
    | some (_, l) =>
      let core := s.teamCore r.team
      let sup := (s.thread r).sup
      match entryAddress s core sup l f.x.toNat with
      | (s1, .error c) => .fault s1 c none
      | (s1, .ok va) =>
        match s1.line? core l.ctx va sup with
        | none =>
          match fetchLine s1 core l.ctx va sup with
          | (s2, .error c) => .fault s2 { c with pc := 0 } none
          | (s2, .ok _) => .missing s2 va
        | some li =>
          let w := li.words.getD (va.toNat % 256 / 4) 0
          if forbiddenEntry w then .fault s1 { cls := 2, code := 7 } (some (expandCode w f)) else .word (expandCode w f)

/-- `DICT_CODE`: the code's word is known, and the group executes it next; a code that cannot be used traps in every lane. -/
def execDictCode (f : CodeF) (s : State) : Host.Outcome State Fault Refusal :=
  match s.cur.refs with
  | [] => .next { s with cur := Group.none }
  | r :: _ =>
    match codeWord s r f with
    | .word w => .next { s with cur := { s.cur with code := some (some w) } }
    | .missing s1 _ => .next { s1 with cur := Group.none }
    | .fault s1 c _ => .next (finish (.dictCode f) s (s1.trapAll c))

end Sys2Proof.Machine
end

