-- ==== Sys2Proof/Machine/Memory.lean ====
section
/-!
DEFINITION. Loads, stores and prefetch (R307 to R312) at the global level through the L1, and at the explicit levels.
-/
namespace Sys2Proof.Machine

/-! ## Levels -/

/-- The levels of an access (R99, R307). -/
inductive Level where
  | glob
  | lane
  | scr
  | clu
  | chip
  deriving DecidableEq, Repr

/-- The kind of an escape-log entry of a store (R212). -/
def Level.kind : Level → Nat
  | .glob => 0 | .scr => 1 | .clu => 2 | .chip => 3 | .lane => 4

/-- The place of a shared level for a thread's team. -/
def State.levelPlace (s : State) (r : TRef) (l : Level) : Place :=
  let core := s.teamCore r.team
  let launch := match s.team? r.team with | some tm => tm.launch | none => 0
  match l with
  | .scr => .scratch r.team
  | .clu => .cluster launch (clusterOf core)
  | .chip => .chip launch (dieOf core)
  | _ => .phys

/-- The size of a thread's allocation at an explicit level. -/
def State.levelSize (s : State) (r : TRef) (l : Level) : Nat :=
  match l with
  | .lane => match s.team? r.team with | some tm => tm.laneSize | none => 0
  | .glob => 2 ^ 52
  | _ => s.placeSize (s.levelPlace r l)

/-- The effective address (R308). -/
def effAddr (t : Thread) (l : Level) (a : Reg6) (z : BitVec 3) (i : BitVec 5) : DWord :=
  let off := t.memOffset i (widthBytes z)
  match l with
  | .glob => t.pair a + BitVec.ofInt 64 off
  | _ => (t.reg a + BitVec.ofInt 32 off).setWidth 64

/-- The class 0x05 code of an access of `n` bytes: the lowest that applies (R412, R418). -/
def accessCode (l : Level) (ea : DWord) (n size : Nat) : Option Nat :=
  if ea.toNat % n != 0 then some 1
  else if l = .glob then (if 2 ^ 52 ≤ ea.toNat then some 3 else none)
  else if size < ea.toNat + n then some 2
  else none

def accessFault (k : Nat) (a : Reg6) (ea : DWord) : Cause := { cls := 5, code := k, detail := a.toNat, addr := ea }

/-- A precise translation fault of a thread's own access (R426). -/
def transFault (f : TFault) (k : AccKind) (va : DWord) : Cause :=
  { cls := 6, code := f.code, detail := f.detail k, addr := va, page := f.page }

/-- An uncorrectable error met by a load or atomic: the thread enters at its next issue (R443). -/
def lateFault (s : State) (r : TRef) (code pa : Nat) (va : DWord) : Cause :=
  let t := s.thread r
  { cls := 12, code := code, detail := s.errorDetail pa, addr := va, deferred := true, pc := t.pc, originPc := t.pc,
    originTime := s.time, detected := s.time, lanes := laneBit r.lane }

/-- Who a thread's store is by (R133). -/
def State.writer (s : State) (r : TRef) : Writer :=
  let t := s.thread r
  ⟨s.teamCore r.team, s.teamCtx r.team, r.cref, r.lane, t.sup, t.pc, s.time⟩

/-! ## Loads -/

/-- The words a load writes, from its bytes (R309). -/
def loadWords (z : BitVec 3) (bs : List Byte) : List Word :=
  match z.toNat with
  | 5 => [(BitVec.ofNat 8 (leNat bs)).signExtend 32]
  | 6 => [(BitVec.ofNat 16 (leNat bs)).signExtend 32]
  | 3 | 4 => wordsOf bs
  | _ => [BitVec.ofNat 32 (leNat bs)]

/-- A loaded value becomes an outstanding result; an ordered load is an acquire (R51, R309). -/
def giveLoad (s : State) (r : TRef) (d : Reg6) (ws : List Word) (acq : Bool) : State :=
  let x := s.takeSerial
  let s1 := x.2.setThread r fun t => t.addOut x.1 d ws.length (some ws)
  if acq then acquire s1 r.cref else s1

/-- Where a load that misses goes: room in the L1 for its line under an allocating policy, else the home's L2; whether it fills
the L1. -/
def loadRoom (s : State) (core pa n policy : Nat) : State × Bool :=
  if s.l1Hit core pa n then (s, false)
  else
    let x := if policy < 2 then makeRoom s core pa else (s, false)
    (if policy < 3 then l2Touch x.1 pa false false else x.1, x.2)

/-- A load of one lane at the global level: translation, the L1 or the home, the task's own stores. A miss brings the sector
into the L1 where the policy allocates and the set has room, and into the L2 unless policy 3 applies (R109). -/
def loadGlobal (s : State) (r : TRef) (f : MemF) (ea : DWord) (n : Nat) : LaneRes :=
  let t := s.thread r
  let core := s.teamCore r.team
  match translate s (.core core) (s.teamCtx r.team) ea t.sup .read with
  | (s1, .error e) => .trap s1 (transFault e .read ea)
  | (s1, .ok pa) =>
    if !s1.l1Hit core pa n && s1.isBusy .phys pa n then .stall s1
    else if !s1.l1Hit core pa n && s1.deadRange pa n then
      let c := lateFault s1 r 1 pa ea
      .ok (s1.setThread r fun t => { t with late := some c })
    else
      let y := loadRoom s1 core pa n t.policy
      let x := l1Load y.1 core (s.teamCtx r.team) ea pa n y.2
      let s2 := if y.2 && t.policy = 1 then l1Soon x.2 core pa else x.2
      .ok (giveLoad (noteForeign s2 pa n) r f.d (loadWords f.z (s2.overlay r.team .phys pa x.1)) f.r)

/-- An uncorrectable error in what a thread reads of an explicit level (R443). -/
def State.flawed (s : State) (r : TRef) (l : Level) (p : Place) (a n : Nat) : Bool :=
  s.flaws.any fun x =>
    match x with
    | .lane q k => l = .lane && q = r && a / 64 ≤ k && k ≤ (a + n - 1) / 64
    | .place q k => l != .lane && q = p && a / 64 ≤ k && k ≤ (a + n - 1) / 64
    | _ => false
def flawFault : Cause := { cls := 12, code := 4, detail := 3 }

/-- A load of one lane at an explicit level. -/
def loadLevel (s : State) (r : TRef) (l : Level) (f : MemF) (ea : DWord) (n : Nat) : LaneRes :=
  let p := s.levelPlace r l
  if s.flawed r l p ea.toNat n then .trap s { flawFault with addr := ea }
  else if l = .lane then .ok (giveLoad s r f.d (loadWords f.z (Mem.bytes (s.thread r).lane ea.toNat n)) f.r)
  else if s.isBusy p ea.toNat n then .stall s
  else .ok (giveLoad s r f.d (loadWords f.z (s.overlay r.team p ea.toNat (s.placeBytes p ea.toNat n))) f.r)

def loadLane (l : Level) (f : MemF) (r : TRef) (s : State) : LaneRes :=
  let n := widthBytes f.z
  let ea := effAddr (s.thread r) l f.a f.z f.i
  match accessCode l ea n (s.levelSize r l) with
  | some k => .trap s (accessFault k f.a ea)
  | none => if l = .glob then loadGlobal s r f ea n else loadLevel s r l f ea n

def execLd (f : MemF) (s : State) : Host.Outcome State Fault Refusal :=
  issue (.ld f) s fun s => s.eachLane (.ld f) (loadLane .glob f)
def execLdl (f : MemF) (s : State) : Host.Outcome State Fault Refusal :=
  issue (.ldl f) s fun s => s.eachLane (.ldl f) (loadLane .lane f)
def execLds (f : MemF) (s : State) : Host.Outcome State Fault Refusal :=
  issue (.lds f) s fun s => s.eachLane (.lds f) (loadLane .scr f)
def execLdc (f : MemF) (s : State) : Host.Outcome State Fault Refusal :=
  issue (.ldc f) s fun s => s.eachLane (.ldc f) (loadLane .clu f)
def execLdx (f : MemF) (s : State) : Host.Outcome State Fault Refusal :=
  issue (.ldx f) s fun s => s.eachLane (.ldx f) (loadLane .chip f)

/-! ## Stores -/

/-- The bytes a store writes, from its registers (R309). -/
def storeBytes (t : Thread) (d : Reg6) (z : BitVec 3) : List Byte :=
  match z.toNat with
  | 3 => bytesOf [t.reg d, t.reg (d + 1)]
  | 4 => bytesOf [t.reg d, t.reg (d + 1), t.reg (d + 2), t.reg (d + 3)]
  | _ => (bytesOf [t.reg d]).take (widthBytes z)

/-- The escape-log entries of a tainted store: one for each 32-bit word it writes (R211). -/
def logStore (i : Instr) (s : State) (r : TRef) (l : Level) (ea : DWord) (bs : List Byte) : State :=
  if hasTaint i (s.thread r) then
    (upto ((bs.length + 3) / 4)).foldl (fun s k =>
      logEscape s r l.kind (BitVec.ofNat 32 (leNat ((bs.drop (4 * k)).take 4))) (ea + BitVec.ofNat 64 (4 * k))) s
  else s

/-- Bytes stored at the global level: dirty in the L1; under a policy that does not allocate, written back at once, after the
pending releases that these bytes wait for (R109, R131, R133). -/
def storeL1 (s : State) (r : TRef) (ea : DWord) (pa : Nat) (bs : List Byte) (policy : Nat) : State :=
  let w := s.writer r
  let ws := wordsTouched pa bs.length
  if policy < 2 then
    let s1 := l1Store s w ea pa bs
    if policy = 1 && !(s.l1.any fun x => x.core == w.core && x.pa / 64 == pa / 64) then l1Soon s1 w.core pa else s1
  else
    let s0 := settle s (s.recalled (ws.map (· / 4)) (some w.core))
    let s1 := l1Store s0 w ea pa bs
    let x := writeBackAll s1 (s1.l1.filter fun x => x.core == w.core && x.dirty != 0 && ws.contains x.pa)
    let s2 := reportWriteBacks x.1 2 none (laneBit r.lane) x.2 []
    let s3 : State := { s2 with l1 := s2.l1.filter fun y => !(y.core == w.core && ws.contains y.pa) }
    if policy = 3 then l2Bypass s s3 pa else s3

/-- The sectors of a thread's slice that a write covers whole. -/
def Flaw.ownLane (r : TRef) (a n : Nat) : Flaw → Bool
  | .lane q u => q = r && a ≤ 64 * u && 64 * u + 64 ≤ a + n
  | _ => false

/-- A store goes to its destination: the L1, where the line must have room, or the level. What it logs is registered before
(R211); a word or sector that an engine has yet to write, or a pending release that cannot complete, makes a store wait that is
registered at once. -/
def directStore (log : State → State) (s : State) (r : TRef) (l : Level) (ea : DWord) (pa : Nat) (bs : List Byte)
    (ordered : Bool) : LaneRes :=
  let p := s.levelPlace r l
  match l with
  | .glob =>
    let core := s.teamCore r.team
    let policy := (s.thread r).policy
    let through := 2 ≤ policy
    if (through || ordered) && (s.isBusy .phys pa bs.length ||
        s.recallBlocked ((wordsTouched pa bs.length).map (· / 4)) (some core)) then .stall s
    else
      match (if through then (s, true) else makeRoom s core pa) with
      | (s1, false) => .stall s1
      | (s1, true) =>
        let s2 := noteForeign (storeL1 (log s1) r ea pa bs policy) pa bs.length
        .ok (if ordered then release s2 r.cref (s.thread r).pc (laneBit r.lane) else s2)
  | .lane =>
    let s1 := (log s).setThread r fun t => { t with lane := Mem.writeBytes t.lane ea.toNat bs }
    .ok (s1.mend (Flaw.ownLane r ea.toNat bs.length))
  | _ => if s.isBusy p ea.toNat bs.length then .stall s else .ok ((log s).writePlace p ea.toNat bs)

/-- A store goes on to the buffer of an uncommitted task, or to its destination (R44, R231). -/
def performStore (log : State → State) (s : State) (r : TRef) (l : Level) (ea : DWord) (pa : Nat) (bs : List Byte)
    (ordered : Bool) : LaneRes :=
  match s.buffering r.team with
  | none => directStore log s r l ea pa bs ordered
  | some _ =>
    if l = .lane || l = .scr then directStore log s r l ea pa bs ordered
    else
      let s1 := log s
      match (s1.buffering r.team).bind fun k =>
          k.store? (s.levelPlace r l) (if l = .glob then pa else ea.toNat) ea (s.thread r).sup
            (s1.pageSize (.core (s.teamCore r.team)) (s.teamCtx r.team) ea) bs with
      | some k' => .ok (s1.setTask r.team fun _ => k')
      | none => afterCommit s r fun s2 => directStore log s2 r l ea pa bs ordered

/-- A store of one lane: checks, translation, release, escape log, the store (R308, R309, R412). -/
def storeLane (i : Instr) (l : Level) (f : MemF) (r : TRef) (s : State) : LaneRes :=
  let n := widthBytes f.z
  let t := s.thread r
  let ea := effAddr t l f.a f.z f.i
  let bs := storeBytes t f.d f.z
  match accessCode l ea n (s.levelSize r l) with
  | some k => .trap s (accessFault k f.a ea)
  | none =>
    let go := fun (s : State) (pa : Nat) =>
      withEntries s r (if hasTaint i t then (n + 3) / 4 else 0) fun s =>
        let last := fun (s : State) => performStore (fun s => logStore i s r l ea bs) s r l ea pa bs f.r
        if f.r then afterRelease s r last else if l = .glob && t.policy < 2 then last s else afterFence s r last
    if l = .glob then
      match translate s (.core (s.teamCore r.team)) (s.teamCtx r.team) ea t.sup .write with
      | (s1, .error e) => .trap s1 (transFault e .write ea)
      | (s1, .ok pa) => go s1 pa
    else go s 0

def execSt (f : MemF) (s : State) : Host.Outcome State Fault Refusal :=
  issue (.st f) s fun s => s.eachLane (.st f) (storeLane (.st f) .glob f)
def execStl (f : MemF) (s : State) : Host.Outcome State Fault Refusal :=
  issue (.stl f) s fun s => s.eachLane (.stl f) (storeLane (.stl f) .lane f)
def execSts (f : MemF) (s : State) : Host.Outcome State Fault Refusal :=
  issue (.sts f) s fun s => s.eachLane (.sts f) (storeLane (.sts f) .scr f)
def execStc (f : MemF) (s : State) : Host.Outcome State Fault Refusal :=
  issue (.stc f) s fun s => s.eachLane (.stc f) (storeLane (.stc f) .clu f)
def execStx (f : MemF) (s : State) : Host.Outcome State Fault Refusal :=
  issue (.stx f) s fun s => s.eachLane (.stx f) (storeLane (.stx f) .chip f)

/-! ## Prefetch (R312) -/

/-- Brings the sector of an address into the L1, or into the L2, where the target and the policy say so; anything that fails does
nothing. -/
def prefLane (f : PrefF) (r : TRef) (s : State) : LaneRes :=
  let t := s.thread r
  let core := s.teamCore r.team
  let ctx := s.teamCtx r.team
  let ea := effAddr t .glob f.a f.z f.i
  if t.policy = 3 || 2 ^ 52 ≤ ea.toNat then .ok s
  else
    match translate s (.core core) ctx ea t.sup .read with
    | (s1, .error _) => .ok s1
    | (s1, .ok pa) =>
      if s1.dead pa then .ok s1
      else if f.t = 1 || t.policy = 2 then .ok (l2Touch s1 pa false false)
      else
        match makeRoom s1 core pa with
        | (s2, true) =>
          let s3 := fillSector s2 core ctx ea pa
          .ok (if t.policy = 1 then l1Soon s3 core pa else s3)
        | (s2, false) => .ok s2

def execPref (f : PrefF) (s : State) : Host.Outcome State Fault Refusal :=
  issue (.pref f) s fun s => s.eachLane (.pref f) (prefLane f)

end Sys2Proof.Machine
end

