-- ==== Sys2Proof/Machine/Atomics.lean ====
section
/-!
DEFINITION. Atomics (R96 to R98, R123, R128, R141, R314 to R316).
-/
namespace Sys2Proof.Machine

/-- The access size of an operation (R314). -/
def atomSize (p : BitVec 4) : Nat := if p = 1 || p = 3 || p = 15 then 8 else 4
/-- A floating-point operation (R316). -/
def atomIsFp (p : BitVec 4) : Bool := p = 2 || p = 3 || p = 8 || p = 9

/-- The new value of the table of R315: `old` in memory, operand `x`, new value `y` of a `CAS`. -/
def atomNew (p : BitVec 4) (old x y : Nat) : Nat :=
  let o := BitVec.ofNat 32 old
  let w := BitVec.ofNat 32 x
  match p.toNat with
  | 0 => (o + w).toNat
  | 1 => (BitVec.ofNat 64 old + BitVec.ofNat 64 x).toNat
  | 2 => Fmt.f32.add 0 false old x
  | 3 => Fmt.f64.add 0 false old x
  | 4 => if w.slt o then x else old
  | 5 => if o.slt w then x else old
  | 6 => if x < old then x else old
  | 7 => if old < x then x else old
  | 8 => Fmt.f32.minMax false old x
  | 9 => Fmt.f32.minMax true old x
  | 10 => (o &&& w).toNat
  | 11 => (o ||| w).toNat
  | 12 => (o ^^^ w).toNat
  | 13 => x
  | _ => if old = x then y else old

/-- The operands from the registers b names: operand or compare value, and new value (R314). -/
def atomOperands (t : Thread) (p : BitVec 4) (b : Reg6) : Nat × Nat :=
  match p.toNat with
  | 1 | 3 => ((t.pair b).toNat, 0)
  | 14 => ((t.reg b).toNat, (t.reg (b + 1)).toNat)
  | 15 => ((t.pair b).toNat, (t.pair (b + 2)).toNat)
  | _ => ((t.reg b).toNat, 0)

/-- The words of a returned old value. -/
def atomWords (p : BitVec 4) (v : Nat) : List Word :=
  if atomSize p = 8 then pairWords (BitVec.ofNat 64 v) else [BitVec.ofNat 32 v]

/-! ## Placement and the global effect (R123) -/

/-- The contention predictor after an atomic of a core, and whether the atomic executes at the home slice. Of entries last used in
one cycle the one that has stood longest is replaced, the model's choice (assumption 95). -/
def predict (s : State) (core pa : Nat) : State × Bool :=
  let sl := sliceOf pa
  let line := pa / 512
  match s.predictor.find? fun e => e.slice == sl && e.line == line with
  | some e =>
    let n := if e.core = core then e.counter - 1 else min 3 (e.counter + 1)
    ({ s with predictor := s.predictor.map fun x =>
        if x.slice == sl && x.line == line then ⟨sl, line, n, core, s.cycle⟩ else x }, 2 ≤ n)
  | none =>
    let own := s.predictor.filter fun e => e.slice == sl
    let kept :=
      if own.length < 4096 then s.predictor
      else
        let oldest := own.foldl (fun m e => min m e.use) s.cycle
        match own.find? fun e => e.use == oldest with
        | some v => s.predictor.erase v
        | none => s.predictor
    ({ s with predictor := kept ++ [⟨sl, line, 0, core, s.cycle⟩] }, false)

/-- The core holds every word of an access whole and owns it. -/
def State.ownsWords (s : State) (core pa n : Nat) : Bool :=
  (wordsTouched pa n).all fun a => match s.l1Word? core a with | some x => x.owned && x.valid == 15 | none => false

/-- An atomic executed at the home slice writes there, and no L1 that owned its words keeps them (R123, R131). -/
def atomHome (s : State) (core pa n v : Nat) : State :=
  let ws := wordsTouched pa n
  let l1 := s.l1.map fun x =>
    if ws.contains x.pa then (if x.core = core then { x with valid := 0, owned := false }
      else if x.owned then { x with owned := false, valid := x.dirty } else x)
    else x
  l2Write { s with mem := Mem.writeBytes s.mem pa (leBytes n v), l1 := l1.filter L1Word.live } pa n

/-- The ownership of words moves to a core's L1, which holds them as their homes do, by way of the L2 (R123). -/
def takeWords (s : State) (w : Writer) (ea : DWord) (pa n : Nat) : State :=
  let ws := wordsTouched pa n
  let l1 := s.l1.filterMap fun x =>
    if ws.contains x.pa then
      (if x.core = w.core then none else some (if x.owned then { x with owned := false, valid := x.dirty } else x))
    else some x
  l2Read { s with l1 := l1.filter L1Word.live ++ ws.map fun a =>
      ⟨w.core, a, s.homeWord a, 15, 0, true, false, [], w.crew, w.lane, w.sup, false, ea + BitVec.ofNat 64 (a - pa), w.ctx, w.pc, w.time,
       s.pageSize (.core w.core) w.ctx ea⟩ } pa n

/-- An atomic that changed memory is an effect of R61. -/
def noteAtom (s : State) (r : TRef) (changed : Bool) : State :=
  if changed then
    let s1 := s.setThread r Thread.stirred
    { s1 with cur := { s1.cur with effect := true } }
  else s

/-- The form of an atomic instruction: registers, operation, whether it returns, its order and its level. -/
structure AtomForm where
  d : Reg6
  a : Reg6
  b : Reg6
  p : BitVec 4
  ret : Bool
  order : Nat
  level : Level

/-- The old value returned as an outstanding result, and the acquire of the order. -/
def finishAtom (s : State) (r : TRef) (f : AtomForm) (old : Nat) : State :=
  let acq := f.order = 1 || f.order = 3
  if f.ret then giveLoad s r f.d (atomWords f.p old) acq else if acq then acquire s r.cref else s

def logAtom (i : Instr) (s : State) (r : TRef) (ea : DWord) (x : Nat) : State :=
  if hasTaint i (s.thread r) then logEscape s r 5 (BitVec.ofNat 32 x) ea else s

/-- The number that stands in the bytes of an access as a core sees them. -/
def State.seenN (s : State) (core pa n : Nat) : Nat := leNat ((upto n).map fun i => s.seenByte core (pa + i))

/-- The homes of an atomic's words hold their values: what their owners or the core itself have dirty is written back first
(R123, R131). -/
def settleWords (s : State) (core pa n lane : Nat) : State :=
  recallWords s ((wordsTouched pa n).map (· / 4)) (some core) lane
/-- They can be written back now (R133, R135). -/
def settleBlocked (s : State) (core pa n : Nat) : Bool :=
  s.isBusy .phys pa n || s.recallBlocked ((wordsTouched pa n).map (· / 4)) (some core)

/-- The effect at the global level of one lane (R123): where the predictor keeps it in the L1 the word is left dirty there, and
its home stale until a write-back (R470). -/
def atomGlobal (i : Instr) (f : AtomForm) (r : TRef) (ea : DWord) (pa : Nat) (s0 : State) : LaneRes :=
  let n := atomSize f.p
  if settleBlocked s0 (s0.teamCore r.team) pa n then .stall s0
  else
    let w := s0.writer r
    let x := predict s0 w.core pa
    let inL1 := !x.2
    let owned := inL1 && s0.ownsWords w.core pa n
    let room := if inL1 then makeRoom x.1 w.core pa else (x.1, true)
    if !room.2 then .stall s0
    else
      let s := logAtom i room.1 r ea (atomOperands (s0.thread r) f.p f.b).1
      let s1 := if owned then s else settleWords s w.core pa n r.lane
      if !owned && s1.deadRange pa n then
        let c := lateFault s1 r 2 pa ea
        .ok (s1.setThread r fun t => { t with late := some c })
      else
        let s2 := if inL1 && !owned then takeWords s1 w ea pa n else s1
        let op := atomOperands (s2.thread r) f.p f.b
        let old := if inL1 then s2.seenN w.core pa n else s2.homeN pa n
        let new := atomNew f.p old op.1 op.2
        let s3 := if inL1 then l1Store s2 w ea pa (leBytes n new) else atomHome s2 w.core pa n new
        .ok (finishAtom (noteAtom (noteForeign s3 pa n) r (new != old)) r f old)

/-- A buffered FP atomic of a deterministic launch (R98, R141): its old value is the word's value in memory, which waits for
an engine (R135); the bytes of the buffer's region are not architected. That its append counts as an effect of R61 is the
model's reading (assumption 78). -/
def atomBuffered (f : AtomForm) (r : TRef) (ea : DWord) (pa : Nat) (s : State) : LaneRes :=
  match s.team? r.team with
  | none => .ok s
  | some tm =>
    let n := atomSize f.p
    let core := s.teamCore r.team
    if settleBlocked s core pa n then .stall s
    else
      let s0 := settleWords s core pa n r.lane
      if s0.deadRange pa n then
        let c := lateFault s0 r 2 pa ea
        .ok (s0.setThread r fun t => { t with late := some c })
      else
        let t := s.thread r
        let old := s0.homeN pa n
        let op := (atomOperands t f.p f.b).1
        let e : BufAtom := ⟨tm.index, r.crew, r.lane, t.fpAtoms, ea, f.p.toNat, BitVec.ofNat 64 op⟩
        let s1 := match s0.launch? tm.launch with
          | some l => scramble s0 (dieOf core) l.ctx false l.aux.toNat (16 * l.auxCap)
          | none => s0
        let s2 := s1.setLaunch tm.launch fun l => { l with atoms := l.atoms ++ [e] }
        let s3 := s2.setThread r fun t => { t with fpAtoms := t.fpAtoms + 1 }
        .ok (finishAtom (noteAtom (noteForeign s3 pa n) r true) r f old)

/-- The class 0x05 code of an atomic in a thread: the lowest that applies. -/
def atomCode (s : State) (r : TRef) (f : AtomForm) (ea : DWord) : Option Nat :=
  let det := s.isDet r.team
  match accessCode f.level ea (atomSize f.p) (s.levelSize r f.level) with
  | some k => some k
  | none =>
    if f.level != .glob then (if det && atomIsFp f.p then some 0x0C else none)
    else if det && atomIsFp f.p then
      match s.teamLaunch? r.team with
      | some (_, l) => if l.auxCap ≤ l.atoms.length then some 0x12 else none
      | none => none
    else none

/-- The address of an atomic (R314). -/
def atomAddr (t : Thread) (f : AtomForm) : DWord :=
  if f.level = .glob then t.pair f.a else (t.reg f.a).setWidth 64

/-- An atomic of one lane (R315, R316): checks, translation, early commit, release, the indivisible update. -/
def atomLane (i : Instr) (f : AtomForm) (r : TRef) (s : State) : LaneRes :=
  let t := s.thread r
  let ea := atomAddr t f
  match atomCode s r f ea with
  | some k => .trap s { accessFault k f.a ea with detail := if k ≤ 3 then f.a.toNat else 0 }
  | none =>
    let ordered := fun (s : State) (k : State → LaneRes) =>
      if f.order = 2 || f.order = 3 then afterRelease s r k else afterFence s r k
    if f.level = .glob then
      match translate s (.core (s.teamCore r.team)) (s.teamCtx r.team) ea t.sup .write with
      | (s1, .error e) => .trap s1 (transFault e .write ea)
      | (s1, .ok pa) =>
        afterCommit s1 r fun s2 => ordered s2 fun s3 =>
          if s3.isDet r.team && atomIsFp f.p then atomBuffered f r ea pa s3
          else atomGlobal i f r ea pa s3
    else
      afterCommit s r fun s2 => ordered s2 fun s3 =>
        let p := s3.levelPlace r f.level
        let n := atomSize f.p
        if s3.isBusy p ea.toNat n then .stall s3
        else if s3.flawed r f.level p ea.toNat n then .trap s3 { flawFault with addr := ea }
        else
          let op := atomOperands t f.p f.b
          let s4 := logAtom i s3 r ea op.1
          let old := s4.placeN p ea.toNat n
          let new := atomNew f.p old op.1 op.2
          .ok (finishAtom (noteAtom (s4.writePlace p ea.toNat (leBytes n new)) r (new != old)) r f old)

def execAtom (f : AtF) (s : State) : Host.Outcome State Fault Refusal :=
  issue (.atom f) s fun s => s.eachLane (.atom f) (atomLane (.atom f) ⟨f.d, f.a, f.b, f.p, true, f.o.toNat, .glob⟩)
def execRed (f : RedF) (s : State) : Host.Outcome State Fault Refusal :=
  issue (.red f) s fun s => s.eachLane (.red f) (atomLane (.red f) ⟨0, f.a, f.b, f.p, false, f.o.toNat, .glob⟩)
def execAtoms (f : AtX) (s : State) : Host.Outcome State Fault Refusal :=
  issue (.atoms f) s fun s => s.eachLane (.atoms f) (atomLane (.atoms f) ⟨f.d, f.a, f.b, f.p, true, 0, .scr⟩)
def execAtomc (f : AtX) (s : State) : Host.Outcome State Fault Refusal :=
  issue (.atomc f) s fun s => s.eachLane (.atomc f) (atomLane (.atomc f) ⟨f.d, f.a, f.b, f.p, true, 0, .clu⟩)
def execAtomx (f : AtX) (s : State) : Host.Outcome State Fault Refusal :=
  issue (.atomx f) s fun s => s.eachLane (.atomx f) (atomLane (.atomx f) ⟨f.d, f.a, f.b, f.p, true, 0, .chip⟩)
def execReds (f : RedX) (s : State) : Host.Outcome State Fault Refusal :=
  issue (.reds f) s fun s => s.eachLane (.reds f) (atomLane (.reds f) ⟨0, f.a, f.b, f.p, false, 0, .scr⟩)
def execRedc (f : RedX) (s : State) : Host.Outcome State Fault Refusal :=
  issue (.redc f) s fun s => s.eachLane (.redc f) (atomLane (.redc f) ⟨0, f.a, f.b, f.p, false, 0, .clu⟩)
def execRedx (f : RedX) (s : State) : Host.Outcome State Fault Refusal :=
  issue (.redx f) s fun s => s.eachLane (.redx f) (atomLane (.redx f) ⟨0, f.a, f.b, f.p, false, 0, .chip⟩)

end Sys2Proof.Machine
end

