-- ==== Sys2Proof/Machine/Barriers.lean ====
section
/-!
DEFINITION. Transaction barriers (R120, R121, R322 to R325) and the tag instructions (R331, R332).
-/
namespace Sys2Proof.Machine

/-! ## The barrier word -/

/-- The fields of a transaction barrier (R120). -/
structure TBar where
  expected : Nat
  time : Nat
  sectors : Nat
  phase : Nat
  arrivals : Nat
  deriving DecidableEq, Repr

def TBar.ofNat (v : Nat) : TBar := ⟨bits v 127 104, bits v 103 64, bits v 63 36, bits v 35 32, bits v 31 8⟩
def TBar.toNat (b : TBar) : Nat :=
  b.expected * 2 ^ 104 + b.time * 2 ^ 64 + b.sectors * 2 ^ 36 + b.phase * 2 ^ 32 + b.arrivals * 2 ^ 8

def State.tbar (s : State) (p : Place) (off : Nat) : TBar := TBar.ofNat (s.placeN p off 16)
def State.setTbar (s : State) (p : Place) (off : Nat) (b : TBar) : State :=
  s.setPlace p fun m => Mem.writeBytes m off (leBytes 16 b.toNat)

/-- The completion of a barrier (R121): phase, reload, completion time. -/
def TBar.complete (b : TBar) (time : Nat) : TBar :=
  { b with phase := (b.phase + 1) % 16, arrivals := b.expected, time := time % 2 ^ 40 }
/-- Both counts are 0. -/
def TBar.done (b : TBar) : Bool := b.arrivals == 0 && b.sectors == 0

/-- The barrier's counts have changed in this cycle, at whose end it is tested (R121). -/
def markTbar (s : State) (p : Place) (off : Nat) : State :=
  if s.due.tbars.contains (p, off) then s else { s with due := { s.due with tbars := s.due.tbars ++ [(p, off)] } }

/-- Sectors of a copy that have been written leave the count (R121). -/
def subSectors (s : State) (p : Place) (off n : Nat) : State :=
  if n = 0 then s
  else
    let b := s.tbar p off
    markTbar (s.setTbar p off { b with sectors := b.sectors - n }) p off

/-! ## The instructions -/

/-- The class 0x05 code of a barrier operand. -/
def tbCode (s : State) (r : TRef) (off : Nat) : Option Nat :=
  if off % 16 != 0 then some 1
  else if s.levelSize r .clu < off + 16 then some 2
  else none

/-- A barrier instruction of one lane: the checks of its offset, then its effect. -/
def tbLane (a : Reg6) (f : Place → Nat → TRef → State → LaneRes) (r : TRef) (s : State) : LaneRes :=
  let off := ((s.thread r).reg a).toNat
  match tbCode s r off with
  | some k => .trap s (accessFault k a (BitVec.ofNat 64 off))
  | none => f (s.levelPlace r .clu) off r s

/-- The refusals of code 0x0B name the offset. -/
def tbRefused (off : Nat) : Cause := { cls := 5, code := 0x0B, addr := BitVec.ofNat 64 off }

/-- The place of a barrier for a team: the buffer of its uncommitted task, where that holds bytes of it (R44, assumption 19). -/
def State.ownPlace (s : State) (team : Nat) (p : Place) (off n : Nat) : Place :=
  match s.buffering team with
  | some k => if (upto n).any fun i => (k.byte? p (off + i)).isSome then .task team else p
  | none => p

def tbinitLane (f : Rab) (p : Place) (off : Nat) (r : TRef) (s : State) : LaneRes :=
  let e := ((s.thread r).reg f.b).toNat
  if e = 0 || 2 ^ 24 ≤ e then .trap s { cls := 5, code := 4, detail := f.b.toNat, addr := BitVec.ofNat 64 off }
  else if s.isBusy p off 16 then .stall s
  else if (s.tbar (s.ownPlace r.team p off 16) off).sectors != 0 then .trap s (tbRefused off)
  else
    let bs := leBytes 16 (TBar.toNat ⟨e, 0, 0, 0, e⟩)
    let ea := BitVec.ofNat 64 off
    withEntries s r (if hasTaint (.tbinit f) (s.thread r) then 4 else 0) fun s =>
      afterFence s r fun s => performStore (fun s => logStore (.tbinit f) s r .clu ea bs) s r .clu ea 0 bs false
/-- `TBINIT` (R322): one store to cluster-shared memory, which an uncommitted task buffers (R44). -/
def execTbinit (f : Rab) (s : State) : Host.Outcome State Fault Refusal :=
  issue (.tbinit f) s fun s => s.eachLane (.tbinit f) (tbLane f.a (tbinitLane f))

/-- The escape-log entry of a tainted arrival: its value is the low word of the barrier after it (R211, assumption 41). -/
def arrivalEntry (i : Instr) (s : State) (r : TRef) (off : Nat) : Option Escape :=
  if hasTaint i (s.thread r) then some (escapeOf s r 2 0 (BitVec.ofNat 64 off)) else none

/-- An arrival: the phase becomes an outstanding result, and the end of the cycle applies it (R121, R323). -/
def tbarriveLane (f : R2) (p : Place) (off : Nat) (r : TRef) (s : State) : LaneRes :=
  if s.isBusy p off 16 then .stall s
  else
    withEntries s r (if hasTaint (.tbarrive f) (s.thread r) then 1 else 0) fun s => afterRelease s r fun s =>
      let p := s.ownPlace r.team p off 16
      let t := s.thread r
      let x := s.takeSerial
      let s1 := x.2.setThread r fun t => t.addOut x.1 f.d 1 none
      let a : Arrival := ⟨r, x.1, p, off, s.teamCore r.team, maskFor s.cur.lanes r.cref, t.pc, t.chainStart,
        arrivalEntry (.tbarrive f) s r off⟩
      .ok (noteAtom { s1 with due := { s1.due with arrivals := s1.due.arrivals ++ [a] } } r true)
def execTbarrive (f : R2) (s : State) : Host.Outcome State Fault Refusal :=
  issue (.tbarrive f) s fun s => s.eachLane (.tbarrive f) (tbLane f.a (tbarriveLane f))

/-! ## The end of the cycle (R121, R323) -/

/-- Arrivals by ascending core, then lane. -/
def placeArrival (a : Arrival) : List Arrival → List Arrival
  | [] => [a]
  | x :: xs => if a.core < x.core || (a.core == x.core && a.thread.lane < x.thread.lane) then a :: x :: xs else x :: placeArrival a xs

/-- The entry of a tainted arrival is appended before the arrival can be seen; one that is refused leaves none (R211). -/
def logArrival (s : State) (a : Arrival) (b : TBar) : State :=
  match a.log with
  | some e => keepEscape s a.thread.team { e with value := BitVec.ofNat 32 b.toNat }
  | none => s

/-- Arrivals that find the count above 0 are applied, and return the phase; the others are left over. -/
def applyArrivals (s : State) (p : Place) (off : Nat) : List Arrival → State × List Arrival
  | [] => (s, [])
  | a :: as =>
    let b := s.tbar p off
    if b.arrivals = 0 then (s, a :: as)
    else
      let b1 := { b with arrivals := b.arrivals - 1 }
      let s1 := (logArrival s a b1).setTbar p off b1
      applyArrivals (s1.setCrew a.thread.cref fun c => c.giveOut a.thread.lane a.out [BitVec.ofNat 32 b.phase]) p off as

/-- Arrivals that are refused change nothing: their threads trap at the instruction, which `retired` does not count where it was
refused in each of its crew's lanes (R323, R407, R418). -/
def refuseArrivals (s : State) (as : List Arrival) : State :=
  let s1 := as.foldl (fun s a =>
    let s1 := s.setThread a.thread fun t => { t with pc := a.pc, out := t.out.filter fun o => o.id != a.out }
    s1.setCrew a.thread.cref fun c => c.unmark a.out false) s
  let crews := (as.map fun a => (a.thread.cref, a.lanes)).eraseDups
  let s2 := crews.foldl (fun s x =>
    let refused := as.foldl (fun m a => if a.thread.cref = x.1 then m ||| laneBit a.thread.lane else m) 0
    if x.2 &&& ~~~refused = 0 then s.setCrew x.1 fun c => { c with retired := c.retired - 1 } else s) s1
  enterTraps s2 (as.map fun a => (a.thread, { tbRefused a.off with pc := a.pc, resume := some a.resume }))

/-- The end of the cycle at one barrier: the arrivals in order, then the completion test if anything has changed; after a
completion the excess arrivals, whose count is tested again at the end of the next cycle (R121, R323). -/
def testTbar (as : List Arrival) (changed : Bool) (s : State) (p : Place) (off : Nat) : State :=
  let mine := (as.filter fun a => a.place = p && a.off = off).foldl (fun l a => placeArrival a l) []
  let x := applyArrivals s p off mine
  let b := x.1.tbar p off
  if (changed || x.2.length < mine.length) && b.done then
    let y := applyArrivals (x.1.setTbar p off (b.complete s.time)) p off x.2
    refuseArrivals (if y.2.length < x.2.length then markTbar y.1 p off else y.1) y.2
  else refuseArrivals x.1 x.2

/-- The end of the cycle at every barrier that arrivals, copies or excess arrivals have touched. -/
def testTbars (s : State) : State :=
  let d := s.due
  let bars := (d.tbars ++ d.arrivals.map fun a => (a.place, a.off)).eraseDups
  bars.foldl (fun s b => testTbar d.arrivals (d.tbars.contains b) s b.1 b.2)
    { s with due := { d with tbars := [], arrivals := [] } }

/-! ## Waits on barriers -/

/-- The phase that a `TBWAIT` of a thread has observed still stands (R324). -/
def State.phaseStands (s : State) (f : Rab) (p : Place) (off : Nat) (r : TRef) : Bool :=
  (s.tbar (s.ownPlace r.team p off 16) off).phase == ((s.thread r).reg f.b).toNat % 16

def tbwaitLane (f : Rab) (p : Place) (off : Nat) (r : TRef) (s : State) : LaneRes :=
  if s.isBusy p off 16 || s.phaseStands f p off r then .stall s
  else .ok (acquire s r.cref)
/-- `TBWAIT` (R324): a lane whose observed phase stands has not issued and waits. -/
def execTbwait (f : Rab) (s : State) : Host.Outcome State Fault Refusal :=
  issue (.tbwait f) s fun s => s.eachLane (.tbwait f) (tbLane f.a (tbwaitLane f))

/-! ## Tags (R119, R331) -/

def State.tags (s : State) (team : Nat) : DWord := match s.team? team with | some tm => tm.tags | none => 0
def State.tagCount (s : State) (team : Nat) : Nat := match s.team? team with | some tm => tm.tagCount | none => 0

/-- The lowest bit set in a word, 64 when there is none. -/
def lowestBit (v : DWord) : Nat := match (upto 64).find? fun i => v.getLsbD i with | some i => i | none => 64

/-- A tag instruction of a crew: it acts when some lane's guard is true, is refused for a mask bit at or above the tag
count, and waits until its condition holds; it writes `k` registers from the supplying lane, tainted as its guard is or the mask it
read, and what it acquired is acquired (R210, R331). -/
def execTag (i : Instr) (s : State) (a : Reg6) (ready : DWord → DWord → Bool) (got : DWord → DWord)
    (writes : DWord → List (Reg6 × Word)) : Host.Outcome State Fault Refusal :=
  issue i s fun s =>
    match s.leadLane i, s.crew? s.curCrew with
    | some n, some c =>
      let k := c.kPair a
      let team := s.curCrew.team
      let r : TRef := ⟨team, s.curCrew.crew, n⟩
      if k.toNat / 2 ^ s.tagCount team != 0 then s.trapAll { cls := 5, code := 9, detail := a.toNat }
      else
        let hit := k &&& s.tags team
        if ready k hit then
          let dirty := (s.thread r).guardTaint i || c.taintK.getLsbD a.toNat || c.taintK.getLsbD (a + 1).toNat
          let s1 := if (writes hit).isEmpty then s else writeK s r dirty (writes hit)
          if got hit = 0 then s1 else acquire s1 s.curCrew
        else s.stallAll
    | _, _ => s

/-- When `TAGWALL` and `TAGWANY` end, by the mask and the tags of it that are set (R331). -/
def wallEnds (k hit : DWord) : Bool := hit == k
def wanyEnds (k hit : DWord) : Bool := k == 0 || hit != 0

def execTagwall (f : R1) (s : State) : Host.Outcome State Fault Refusal :=
  execTag (.tagwall f) s f.a wallEnds id fun _ => []
def execTagwany (f : R2) (s : State) : Host.Outcome State Fault Refusal :=
  execTag (.tagwany f) s f.a wanyEnds id fun hit =>
    [(f.d, hit.setWidth 32), (f.d + 1, (hit >>> 32).setWidth 32)]
def execTagfirst (f : R2) (s : State) : Host.Outcome State Fault Refusal :=
  execTag (.tagfirst f) s f.a (fun _ _ => true) id fun hit => [(f.d, BitVec.ofNat 32 (lowestBit hit))]

end Sys2Proof.Machine
end

