-- ==== Sys2Proof/Machine/Copies.lean ====
section
/-!
DEFINITION. Tensor layout records and boxes (R113 to R115), the issue of copies, gathers and scatters (R116 to R121, R326 to
R330), and their service by the cluster's engine (R122, R135, R136, R432 to R436).
-/
namespace Sys2Proof.Machine

/-! ## Layout records (R113, R114) -/

/-- Element bits of a format code. -/
def elemBits (f : Nat) : Nat :=
  match f with
  | 0 => 8 | 1 => 16 | 2 => 32 | 3 => 64 | 4 => 2 | 5 => 4 | _ => 8

/-- A dimension descriptor: extent, stride in bytes, box size. -/
def dimOf (v : Nat) : Nat × Nat × Nat := (bits v 31 0, 16 * bits v 55 32, bits v 63 56 + 1)

def Layout.ofBytes (b : List Byte) : Layout :=
  let f := fun a n => leNat ((b.drop a).take n)
  let ctl := f 43 1
  { scaleBase := BitVec.ofNat 64 (f 56 8), scaleStride := f 52 4, fill := BitVec.ofNat 32 (f 48 4), pitch := f 44 4,
    fillMode := bits ctl 7 6, rank := bits ctl 3 2 + 1, space := bits ctl 1 0, format := f 42 1,
    dims := [dimOf (f 8 8), dimOf (f 16 8), dimOf (f 24 8), dimOf (f 32 8)], base := BitVec.ofNat 64 (f 0 8),
    reservedZero := bits ctl 5 4 == 0 && f 40 2 == 0 }

def Layout.extent (l : Layout) (d : Nat) : Nat := (l.dims.getD d (1, 0, 1)).1
def Layout.stride (l : Layout) (d : Nat) : Nat := (l.dims.getD d (1, 0, 1)).2.1
def Layout.box (l : Layout) (d : Nat) : Nat := (l.dims.getD d (1, 0, 1)).2.2
def Layout.bfp (l : Layout) : Bool := 4 ≤ l.format
def Layout.rowBytes (l : Layout) : Nat := l.box 0 * elemBits l.format / 8
/-- Distance between rows on the dense side. -/
def Layout.step (l : Layout) : Nat := if l.pitch = 0 then l.rowBytes else l.pitch
/-- Bytes of the dense side of a number of rows, exponent bytes included (R122). -/
def Layout.span (l : Layout) (rows : Nat) : Nat :=
  if l.bfp then rows * l.step + rows * (l.box 0 / 32) else (rows - 1) * l.step + l.rowBytes

/-- The record meets R113 and R114, for a dense side of a number of rows. -/
def Layout.valid (l : Layout) (rows : Nat) : Bool :=
  l.format < 7 && l.fillMode < 2 && l.reservedZero && l.stride 0 == 0 &&
  (l.dims.all fun d => 1 ≤ d.1) &&
  ((l.dims.drop l.rank).all fun d => d == (1, 0, 1)) &&
  l.base.toNat % 16 == 0 && (l.space == 0 || l.base.toNat < 2 ^ 32) &&
  (l.pitch == 0 || (l.pitch % 16 == 0 && l.rowBytes ≤ l.pitch)) &&
  l.span rows ≤ 256 * 1024 &&
  (if l.bfp then l.extent 0 % 32 == 0 && l.box 0 % 32 == 0
   else l.scaleStride == 0 && l.scaleBase == 0)

/-! ## The rows of a box (R115, R118, R330) -/

/-- Coordinates (x1, x2, x3) of the rows: of the box, or of the listed indices. -/
def rowCoords (k : CopyKind) (l : Layout) (o : List Int) (ix : List Nat) : List (Int × Int × Int) :=
  let x := fun d => o.getD d 0
  match k with
  | .cpy =>
    (upto (l.box 3)).flatMap fun (i3 : Nat) => (upto (l.box 2)).flatMap fun (i2 : Nat) => (upto (l.box 1)).map fun (i1 : Nat) =>
      (x 1 + i1, x 2 + i2, x 3 + i3)
  | _ => ix.map fun (i : Nat) => ((i : Int), x 2, x 3)

/-- A run of bytes of one row: its place on the dense side (from the dense offset) and in the tensor; a run that is out of
bounds has a fill element instead. -/
structure Run where
  dense : Nat
  len : Nat
  tensor : Option Nat
  fill : List Byte
  row : Nat
  deriving DecidableEq, Repr

/-- The part of a run in a range of the dense side. -/
def Run.cut (r : Run) (lo hi : Nat) : Option Run :=
  let a := max r.dense lo
  let b := min (r.dense + r.len) hi
  if b ≤ a then none
  else some { r with dense := a, len := b - a, tensor := r.tensor.map fun t => t + (a - r.dense) }

/-- The bytes of a fill. -/
def Run.fillBytes (r : Run) : List Byte := (upto r.len).map fun i => r.fill.getD (i % max 1 r.fill.length) 0

/-- The runs of consecutive units from `x0` to `x0 + n`, of which [lo, hi) are in bounds; `num / den` bytes a unit; `dense`
the place of the first unit and `tensor` that of unit 0. -/
def partRuns (dense : Nat) (tensor : Int) (x0 lo hi n : Int) (num den : Nat) (fill : Option (List Byte)) (row : Nat) :
    List Run :=
  let bytes := fun (u : Int) => u.toNat * num / den
  let body : List Run :=
    if lo < hi then
      [⟨dense + bytes (lo - x0), bytes (hi - lo), some (tensor + lo * num / den).toNat, [], row⟩]
    else []
  let outs : List Run :=
    match fill with
    | none => []
    | some e => [⟨dense, bytes (lo - x0), none, e, row⟩, ⟨dense + bytes (hi - x0), bytes (x0 + n - hi), none, e, row⟩]
  (body ++ outs).filter fun r => 0 < r.len

/-- The element written out of bounds towards the dense side; none leaves the bytes unwritten (R115, R330). Of a 64-bit element
the fill word has only the low half; the high half is 0, the model's choice (assumption 80). -/
def fillOf (k : CopyKind) (l : Layout) (toTensor : Bool) : Option (List Byte) :=
  if toTensor then none
  else if k = .cpyg then some [0]
  else if l.fillMode = 1 then none
  else if l.bfp then some [0]
  else some (leBytes (elemBits l.format / 8) l.fill.toNat)

/-- The runs of a row. -/
def rowRuns (k : CopyKind) (l : Layout) (toTensor : Bool) (x0 : Int) (rows row : Nat) (y : Int × Int × Int) : List Run :=
  let inb := 0 ≤ y.1 && y.1 < l.extent 1 && 0 ≤ y.2.1 && y.2.1 < l.extent 2 && 0 ≤ y.2.2 && y.2.2 < l.extent 3
  let b0 : Int := l.box 0
  let lo := if inb then max x0 0 else x0
  let hi := if inb then min (x0 + b0) (l.extent 0) else x0
  let (lo, hi) := if lo < hi then (lo, hi) else (x0, x0)
  let fill := fillOf k l toTensor
  let at_ : Int := l.base.toNat + y.1 * l.stride 1 + y.2.1 * l.stride 2 + y.2.2 * l.stride 3
  let body := partRuns (row * l.step) at_ x0 lo hi b0 (elemBits l.format) 8 fill row
  let sc : Int := l.scaleBase.toNat + (y.1 + l.extent 1 * (y.2.1 + l.extent 2 * y.2.2)) * l.scaleStride
  let exps :=
    if l.bfp then
      partRuns (rows * l.step + row * (l.box 0 / 32)) sc (x0 / 32) (lo / 32) (hi / 32) (b0 / 32) 1 1 fill row
    else []
  body ++ exps

/-- All runs of a copy, row by row. -/
def copyRuns (k : CopyKind) (l : Layout) (toTensor : Bool) (o : List Int) (ix : List Nat) : List Run :=
  let ys := rowCoords k l o ix
  ys.zipIdx.flatMap fun y => rowRuns k l toTensor (o.getD 0 0) ys.length y.2 y.1

def Copy.runs (c : Copy) : List Run := copyRuns c.kind c.layout c.toTensor c.origin c.indices

/-- The runs of one chunk, each with the run it is part of. -/
def Copy.chunkRuns (c : Copy) (n : Nat) : List (Run × Run) :=
  c.runs.filterMap fun r => (r.cut (2048 * n) (2048 * n + 2048)).map fun p => (r, p)
def Copy.chunks (c : Copy) : Nat := (c.span + 2047) / 2048
def Copy.chunkSize (c : Copy) : Nat := min 2048 (c.span - 2048 * c.chunk)

/-! ## Engine accesses (R135, R136) -/

/-- The place of a space or dense level for a team where it now stands (R113, R327). -/
def State.spacePlace (s : State) (team space : Nat) : Place :=
  let launch := match s.team? team with | some tm => tm.launch | none => 0
  match space with
  | 0 => .phys
  | 1 => .scratch team
  | 2 => .cluster launch (clusterOf (s.teamCore team))
  | _ => .chip launch (dieOf (s.teamCore team))

/-- A failed engine access: a memory error with its detail, or a translation with its code; the address. -/
structure EngFault where
  mem : Option Nat
  va : Nat
  code : Nat := 0
  /-- The detail of class 0x06 of the translation (R426), and its page. -/
  detail : Nat := 0
  page : Nat := 4096

/-- The pieces of places that bytes an engine reads or writes stand in. -/
def enginePages (s : State) (team : Nat) (sup : Bool) (k : AccKind) (p : Place) (a n : Nat) :
    State × Except EngFault (List (Place × Nat × Nat)) :=
  match p with
  | .phys =>
    match translateRange s (.cluster (clusterOf (s.teamCore team))) (s.teamCtx team) sup k (n / 4096 + 2) a n with
    | (s1, .error f) => (s1, .error ⟨none, f.2, f.1.code, f.1.detail k, f.1.page⟩)
    | (s1, .ok ps) => (s1, .ok (ps.map fun x => (Place.phys, x.1, x.2)))
  | _ => (s, .ok [(p, a, n)])

/-- Bytes of an engine's source stand in units that engines have still to write (R135, R433). -/
def sourceBusy (s : State) (team : Nat) (sup : Bool) (p : Place) (a n : Nat) : Bool :=
  match (enginePages s team sup .read p a n).2 with
  | .ok ps => n != 0 && ps.any fun x => s.isBusy x.1 x.2.1 x.2.2
  | .error _ => false

/-- An uncorrectable error in bytes of a place: of memory, or of on-core storage (R443). -/
def State.spoilt (s : State) (p : Place) (a n : Nat) : Bool :=
  match p with
  | .phys => s.deadRange a n
  | _ => s.flaws.any fun x => match x with | .place q u => q == p && (p.units a n).contains u | _ => false
def State.spoiltDetail (s : State) (p : Place) (a : Nat) : Nat := match p with | .phys => s.errorDetail a | _ => 3

/-- Reads bytes as an engine. -/
def engineRead (s : State) (team : Nat) (sup : Bool) (p : Place) (a n : Nat) : State × Except EngFault (List Byte) :=
  match enginePages s team sup .read p a n with
  | (s1, .error f) => (s1, .error f)
  | (s1, .ok ps) =>
    match ps.find? fun x => s1.spoilt x.1 x.2.1 x.2.2 with
    | some x => (s1, .error { mem := some (s1.spoiltDetail x.1 x.2.1), va := a })
    | none =>
      (ps.foldl (fun s x => if x.1 = .phys then noteForeign s x.2.1 x.2.2 else s) s1,
       .ok (ps.flatMap fun x => s1.placeBytes x.1 x.2.1 x.2.2))

/-- Where an engine's write of bytes stands: pieces of places. -/
def enginePlan (s : State) (team : Nat) (sup : Bool) (p : Place) (a n : Nat) :
    State × Except EngFault (List (Place × Nat × Nat)) :=
  match enginePages s team sup .write p a n with
  | (s1, .error f) => (s1, .error f)
  | (s1, .ok ps) =>
    match ps.find? fun x => x.1 == .phys && s1.shut x.2.1 with
    | some x => (s1, .error { mem := some (s1.errorDetail x.2.1), va := a })
    | none => (s1, .ok ps)

/-- Writes bytes over planned pieces. -/
def writePieces (s : State) : List (Place × Nat × Nat) → List Byte → State
  | [], _ => s
  | (p, a, n) :: rest, bs =>
    let s1 := s.writePlace p a (bs.take n)
    writePieces (if p = .phys then noteForeign s1 a n else s1) rest (bs.drop n)

/-- The places a copy writes. -/
def Copy.dests (s : State) (c : Copy) : List Place :=
  if c.toTensor then [s.spacePlace c.team c.layout.space]
  else if c.multicast then c.targets.map Place.scratch
  else [s.spacePlace c.team c.dense]

/-- Place and address of the source and of the destinations of a run. -/
def Copy.source (s : State) (c : Copy) (r : Run) : Option (Place × Nat) :=
  if c.toTensor then some (s.spacePlace c.team c.dense, c.denseOff + r.dense)
  else r.tensor.map fun t => (s.spacePlace c.team c.layout.space, t)
def Copy.destAt (c : Copy) (r : Run) : Nat := if c.toTensor then r.tensor.getD 0 else c.denseOff + r.dense

/-- The words of memory among the units of marks (R135). -/
def markedWords (ms : List (Nat × Place × Nat)) : List Nat :=
  ms.filterMap fun m => if m.2.1 = .phys then some m.2.2 else none

/-- The units a copy will write, with the chunk that does (R121, R135, R328); a page that does not translate has none. -/
def Copy.claims (s : State) (c : Copy) : List (Nat × Place × Nat) :=
  (upto c.chunks).flatMap fun n => (c.chunkRuns n).flatMap fun x => (c.dests s).flatMap fun p =>
    match (enginePlan s c.team c.sup p (c.destAt x.2) x.2.len).2 with
    | .error _ => []
    | .ok ps => ps.flatMap fun q => (q.1.units q.2.1 q.2.2).map fun u => (n, q.1, u)

/-- Distinct units still to be written. -/
def markCount (ms : List (Nat × Place × Nat)) : Nat := ((ms.map fun m => m.2).eraseDups).length

/-! ## Completion and failure (R119, R121, R432 to R436) -/

/-- A fault of an engine pends on the team of the instruction. -/
def deferEngine (s : State) (c : Copy) (f : EngFault) (code detail : Nat) : State :=
  s.defer c.team
    { cls := if f.mem.isSome then 12 else 8, code := if f.mem.isSome then 5 else code,
      detail := match f.mem with | some d => d | none => detail % 65536, addr := BitVec.ofNat 64 f.va, pc := c.pc,
      originPc := c.pc, originTime := c.time, detected := s.time, lanes := laneBit c.issuer.lane,
      crew := some (s.slotOf c.issuer.cref) }

/-- Changes a copy in its queue; none removes it, and an empty queue has no deficit. -/
def setCopy (s : State) (cluster cls id : Nat) (f : Copy → Option Copy) : State :=
  s.setCluster cluster fun e =>
    let qs := e.queues.zipIdx.map fun q =>
      if q.2 = cls then q.1.filterMap fun c => if c.id = id then f c else some c else q.1
    { e with queues := qs
             deficit := e.deficit.zipIdx.map fun d => if (qs.getD d.2 []).isEmpty then 0 else d.1 }

/-- The bit of a tag. -/
def setTag (s : State) (team tag : Nat) (v : Bool) : State :=
  s.setTeam team fun tm => { tm with tags := if v then tm.tags ||| laneBit tag else tm.tags &&& ~~~laneBit tag }

/-- The class queue of a team's copies (R122, R42). -/
def State.teamClass (s : State) (team : Nat) : Nat :=
  match s.team? team, s.teamLaunch? team with
  | some tm, some (_, l) => (match tm.task with | some k => bits k.flags.toNat 7 6 | none => l.cls)
  | _, _ => 0

/-- Units of a copy have been written or given up: the barrier's count follows. -/
def Copy.settle (s : State) (c : Copy) (left : List (Nat × Place × Nat)) : State :=
  match c.tag with
  | some _ => s
  | none => subSectors s (s.spacePlace c.team 2) c.barrier (markCount c.marks - markCount left)

/-- The copy ends. -/
def endCopy (s : State) (cluster cls : Nat) (c : Copy) : State :=
  let s1 := Copy.settle (setCopy s cluster cls c.id fun _ => none) c []
  match c.tag with | some t => setTag s1 c.team t true | none => s1

/-! ## One chunk (R122, R434) -/

/-- Runs that succeed or fail together: a chunk of a `CPY`, a row of a gather or scatter; with the index for a record. -/
def Copy.groups (c : Copy) : List (Nat × List (Run × Run)) :=
  let rs := c.chunkRuns c.chunk
  match c.kind with
  | .cpy => [(c.chunk, rs.map fun x => (x.2, x.2))]
  | _ => ((rs.map fun x => x.1.row).eraseDups).map fun row => (row, rs.filter fun x => x.1.row == row)

/-- Reads the sources and plans the destinations of a group; the writes, or the failure with its code. -/
def planGroup (s : State) (c : Copy) : List (Run × Run) →
    State × Except (EngFault × Nat) (List (List (Place × Nat × Nat) × List Byte))
  | [] => (s, .ok [])
  | (whole, part) :: rest =>
    let src :=
      match c.source s whole with
      | none => (s, Except.ok part.fillBytes)
      | some (p, a) =>
        match engineRead s c.team c.sup p a whole.len with
        | (s1, .error f) => (s1, .error f)
        | (s1, .ok bs) => (s1, .ok ((bs.drop (part.dense - whole.dense)).take part.len))
    match src with
    | (s1, .error f) => (s1, .error (f, 2))
    | (s1, .ok bs) =>
      let plan := (c.dests s1).foldl (fun (acc : State × Except EngFault (List (Place × Nat × Nat))) p =>
        match acc with
        | (s2, .error f) => (s2, .error f)
        | (s2, .ok _) => enginePlan s2 c.team c.sup p (c.destAt whole) whole.len) (s1, .ok [])
      match plan with
      | (s2, .error f) => (s2, .error (f, 3))
      | (s2, .ok _) =>
        let writes := (c.dests s2).map fun p =>
          (match (enginePlan s2 c.team c.sup p (c.destAt part) part.len).2 with | .ok ps => ps | .error _ => [], bs)
        match planGroup s2 c rest with
        | (s3, .error e) => (s3, .error e)
        | (s3, .ok ws) => (s3, .ok (writes ++ ws))

/-- Plans the groups of a chunk in order: the writes of those before the first failure, and the failure. -/
def planChunk (s : State) (c : Copy) : List (Nat × List (Run × Run)) →
    State × List (List (Place × Nat × Nat) × List Byte) × Option (EngFault × Nat × Nat)
  | [] => (s, [], none)
  | (ix, g) :: rest =>
    match planGroup s c g with
    | (s1, .error (f, code)) => (s1, [], some (f, code, ix))
    | (s1, .ok ws) => let x := planChunk s1 c rest; (x.1, ws ++ x.2.1, x.2.2)

/-- Serves the next chunk of a copy: every source byte is read before any is written (R115). -/
def serveChunk (s : State) (cluster cls : Nat) (c : Copy) : State :=
  let x := planChunk s c c.groups
  let s1 := x.2.1.foldl (fun s w => writePieces s w.1 w.2) x.1
  match x.2.2 with
  | some (f, code, ix) => endCopy (deferEngine s1 c f code ix) cluster cls c
  | none =>
    if c.chunks ≤ c.chunk + 1 then endCopy s1 cluster cls c
    else
      let left := c.marks.filter fun m => c.chunk < m.1
      Copy.settle (setCopy s1 cluster cls c.id fun c => some { c with chunk := c.chunk + 1, marks := left }) c left

/-- The next chunk reads or writes a unit that earlier engine work has yet to write (R432, R433). -/
def Copy.blocked (s : State) (c : Copy) : Bool :=
  let earlier := s.engineUnits.filter fun m => m.1.before c.rank
  !earlier.isEmpty &&
    (c.chunkRuns c.chunk).any fun x =>
      let src := match c.source s x.2 with
        | none => []
        | some (p, a) => [(AccKind.read, p, a)]
      let all := src ++ (c.dests s).map fun p => (AccKind.write, p, c.destAt x.2)
      all.any fun q =>
        match (enginePages s c.team c.sup q.1 q.2.1 q.2.2 x.2.len).2 with
        | .error _ => false
        | .ok ps => ps.any fun y => (y.1.units y.2.1 y.2.2).any fun u => earlier.any fun m => m.2.1 == y.1 && m.2.2 == u

/-- The head of a class's queue that can be served: a copy enters the queue at the end of the cycle of its issue (R122). -/
def Cluster.head? (e : Cluster) (cycle cls : Nat) : Option Copy :=
  match e.queues.getD cls [] with
  | c :: _ => if c.cycle < cycle then some c else none
  | [] => none

/-- Deficit round-robin (R122): the engine after its choice, and the class and copy chosen. A class whose head waits for another
engine (R432) is passed over without its quantum, the model's choice (assumption 81). -/
def pickCopy (s : State) (e : Cluster) : Nat → Cluster × Option (Nat × Copy)
  | 0 => (e, none)
  | fuel + 1 =>
    let next := { e with visit := (e.visit + 3) % 4, entered := false }
    match e.head? s.cycle e.visit with
    | none => pickCopy s next fuel
    | some c =>
      if Copy.blocked s c then pickCopy s next fuel
      else
        let d := e.deficit.getD e.visit 0 + (if e.entered then 0 else 2048 * 2 ^ e.visit)
        let put := fun (v : Nat) => e.deficit.zipIdx.map fun x => if x.2 = e.visit then v else x.1
        if c.chunkSize ≤ d then
          ({ e with deficit := put (d - c.chunkSize), entered := true }, some (e.visit, c))
        else pickCopy s { next with deficit := put d } fuel

/-- A cluster's engine serves one chunk; with nothing to serve nothing changes (R122). -/
def execCopyChunk (cluster : Nat) (s : State) : Host.Outcome State Fault Refusal :=
  match pickCopy s (s.cluster cluster) 8 with
  | (e, some (cls, c)) => .next (serveChunk (s.setCluster cluster fun _ => e) cluster cls c)
  | (_, none) => .next s

/-! ## Issue (R326 to R330) -/

/-- The operands of a copy in one thread. -/
structure CopyOps where
  kind : CopyKind
  ctl : Nat
  list : Nat
  listAt : DWord
  denseOff : Nat
  barrier : Nat
  record : DWord
  origin : List Int

def copyOps (k : CopyKind) (f : R3) (t : Thread) : CopyOps :=
  { kind := k, ctl := (t.reg f.d).toNat, list := (t.reg (f.d + 1)).toNat,
    listAt := if (t.reg (f.d + 1)).getLsbD 9 then (t.reg (f.d + 2)).setWidth 64 else t.pair (f.d + 2),
    denseOff := (t.reg f.a).toNat, barrier := (t.reg (f.a + 1)).toNat, record := t.pair (f.a + 2),
    origin := [(t.reg f.b).toInt, (t.reg (f.b + 1)).toInt, (t.reg (f.b + 2)).toInt, (t.reg (f.b + 3)).toInt] }

def CopyOps.fromGlobal (o : CopyOps) : Bool := bit o.ctl 31
def CopyOps.toTensor (o : CopyOps) : Bool :=
  match o.kind with | .cpy => bit o.ctl 16 | .cpyg => false | .cpys => true
def CopyOps.multicast (o : CopyOps) : Bool := bit o.ctl 15
def CopyOps.level (o : CopyOps) : Nat := bits o.ctl 7 6
def CopyOps.tag (o : CopyOps) : Nat := bits o.ctl 5 0
def CopyOps.count (o : CopyOps) : Nat := bits o.list 7 0 + 1
def CopyOps.listLocal (o : CopyOps) : Bool := bit o.list 9
def CopyOps.rows (o : CopyOps) (l : Layout) : Nat :=
  match o.kind with | .cpy => l.box 1 * l.box 2 * l.box 3 | _ => o.count

/-- The copy completes on a transaction barrier (R120, R328), as far as the record is known. -/
def CopyOps.onBarrier (o : CopyOps) (l : Option Layout) : Bool :=
  o.multicast || (if o.toTensor then (match l with | some l => l.space == 2 | none => false) else o.level == 2)

/-- The record: from a bank, word by word, or from global memory as an engine load. -/
inductive RecRes where
  | got (s : State) (b : List Byte)
  | fault (s : State) (c : Cause)
  | engine (s : State) (f : EngFault)
  | missing (s : State)
  /-- Its address by itself is refused. -/
  | unread

def bankRecord (s : State) (r : TRef) (bank word : Nat) : Nat → List Byte → RecRes
  | 0, acc => .got s acc
  | n + 1, acc =>
    match bankOperand s r bank word with
    | .held v => bankRecord s r bank (word + 1) n (acc ++ leBytes 4 v.toNat)
    | .fault s1 c => .fault s1 c
    | .missing s1 => .missing s1

/-- The record of a lane's copy. From global memory it is an engine load: it sees the stores released before it, and waits for
words that earlier engines have to write (R135, R136, R329). -/
def readRecord (s : State) (r : TRef) (o : CopyOps) : RecRes :=
  if o.fromGlobal then
    if o.record.toNat % 64 != 0 || 2 ^ 52 ≤ o.record.toNat then .unread
    else
      match translate s (.cluster (clusterOf (s.teamCore r.team))) (s.teamCtx r.team) o.record (s.thread r).sup .read with
      | (s1, .error e) => .fault s1 (transFault e .read o.record)
      | (s1, .ok pa) =>
        if s1.relBlocked r.cref then .missing s1
        else
          let s2 := release s1 r.cref (s1.thread r).pc (laneBit r.lane)
          if s2.isBusy .phys pa 64 then .missing s2
          else if s2.deadRange pa 64 then .engine s2 { mem := some (s2.errorDetail pa), va := o.record.toNat }
          else .got (noteForeign s2 pa 64) (s2.homeBytes pa 64)
  else bankRecord s r (bits o.ctl 30 28) (16 * bits o.ctl 27 18) 16 []

/-- The size of a space for a team. -/
def State.spaceSize (s : State) (team space : Nat) : Nat := s.placeSize (s.spacePlace team space)

/-- The local-level part of the box reaches beyond its allocation (R418 code 0x02). -/
def boxBeyond (s : State) (team : Nat) (l : Layout) (runs : List Run) : Bool :=
  l.space != 0 && runs.any fun r => match r.tensor with | some t => s.spaceSize team l.space < t + r.len | none => false

/-- The class 0x05 refusals of a copy, each with its detail and address (R326, R327, R333, R412). -/
def copyCodes (s : State) (r : TRef) (f : R3) (o : CopyOps) (l : Option Layout) : List (Nat × Nat × Nat) :=
  let bar := o.onBarrier l
  let tags := s.tagCount r.team
  let gs := o.kind != .cpy
  let when_ := fun (b : Bool) (x : Nat × Nat × Nat) => if b then [x] else []
  when_ (o.denseOff % 16 != 0) (1, f.a.toNat, o.denseOff) ++
  when_ (bar && o.barrier % 16 != 0) (1, f.a.toNat, o.barrier) ++
  when_ (o.fromGlobal && o.record.toNat % 64 != 0) (1, f.a.toNat, o.record.toNat) ++
  when_ (gs && o.listAt.toNat % 4 != 0) (1, f.d.toNat, o.listAt.toNat) ++
  (match l with
   | some l => if l.valid (o.rows l) then
       when_ (o.level != 0 && s.spaceSize r.team o.level < o.denseOff + l.span (o.rows l)) (2, f.a.toNat, o.denseOff)
     else []
   | none => []) ++
  when_ (bar && o.barrier % 16 == 0 && s.spaceSize r.team 2 < o.barrier + 16) (2, f.a.toNat, o.barrier) ++
  when_ (gs && o.listLocal && s.spaceSize r.team 1 < o.listAt.toNat + 4 * o.count) (2, f.d.toNat, o.listAt.toNat) ++
  (match l with
   | some l => if l.valid (o.rows l) && o.kind == .cpy && boxBeyond s r.team l (copyRuns .cpy l o.toTensor o.origin []) then
       [(2, f.d.toNat, l.base.toNat)] else []
   | none => []) ++
  when_ (o.fromGlobal && 2 ^ 52 ≤ o.record.toNat) (3, f.a.toNat, o.record.toNat) ++
  when_ (gs && !o.listLocal && 2 ^ 52 ≤ o.listAt.toNat) (3, f.d.toNat, o.listAt.toNat) ++
  (match l with
   | some l => when_ (l.space == 0 && 2 ^ 52 ≤ l.base.toNat) (3, f.d.toNat, l.base.toNat)
   | none => []) ++
  when_ (if bar then o.tag != 0
         else (tags ≤ o.tag || !(s.tags r.team).getLsbD o.tag) &&
           (l.isSome || !o.toTensor)) (9, f.d.toNat, 0) ++
  when_ (bit o.ctl 17 || bit o.ctl 8 || o.level == 0 ||
      (gs && (bit o.ctl 16 || o.multicast || bits o.list 31 10 != 0 || bit o.list 8)) ||
      (match l with
       | some l => !l.valid (o.rows l) || (gs && l.rank < 2)
       | none => false)) (10, f.d.toNat, 0) ++
  (match l with
   | some l => when_ (l.bfp && (o.origin.getD 0 0) % 32 != 0) (10, f.b.toNat, 0)
   | none => []) ++
  when_ ((o.multicast && (o.toTensor || o.level != 1)) || (!o.multicast && bits o.ctl 14 9 != 0)) (16, f.d.toNat, 0)

/-- The refusal raised: the lowest code (R412). -/
def lowestCode : List (Nat × Nat × Nat) → Option (Nat × Nat × Nat)
  | [] => none
  | x :: xs => match lowestCode xs with | some y => some (if x.1 ≤ y.1 then x else y) | none => some x

/-- Teams that receive a multicast (R328): of the launch, on the positions of the run. -/
def multicastTeams (s : State) (r : TRef) (o : CopyOps) : List Nat :=
  let core := s.teamCore r.team
  let launch := match s.team? r.team with | some tm => tm.launch | none => 0
  (upto (bits o.ctl 11 9 + 1)).flatMap fun i =>
    let c := 8 * clusterOf core + (bits o.ctl 14 12 + i) % 8
    s.teams.filterMap fun t => if t.2.launch == launch && t.2.core == c then some t.1 else none

/-- Copies of a team on transaction barriers that have not completed (R120). -/
def barrierCopies (s : State) (team : Nat) : Nat :=
  (s.clusters.flatMap fun c => c.2.queues.flatMap fun q => q.filter fun x => x.team == team && x.tag.isNone).length

/-- An escape-log entry of an engine's write by a thread: the word written is not known at its issue (assumption 41). -/
def logEngine (s : State) (r : TRef) (tainted : Bool) (kind : Nat) (addr : DWord) : State :=
  if tainted then
    let x := s.takeFree
    logEscape x.2 r kind x.1 addr
  else s

/-- The barrier register of a copy, which only its record shows to be read (R326). -/
def CopyOps.barrierReg (o : CopyOps) (f : R3) (l : Layout) : List Reg6 :=
  if o.onBarrier (some l) then [f.a + 1] else []
/-- Taint of a copy's operands in a thread (R211, R326). -/
def CopyOps.tainted (o : CopyOps) (i : Instr) (f : R3) (l : Layout) (t : Thread) : Bool :=
  hasTaint i t || (o.barrierReg f l).any fun r => t.taintG.getLsbD r.toNat

/-- Copies of a queue in the order of their issue; those of one cycle by core (R122). -/
def insertCopy (c : Copy) (q : List Copy) : List Copy :=
  q.takeWhile (fun x => !c.rank.before x.rank) ++ c :: q.dropWhile fun x => !c.rank.before x.rank

/-- The copy enters its class queue: units claimed, words recalled, tag bit cleared or sectors added (R329). -/
def enqueueCopy (s : State) (r : TRef) (c : Copy) : State :=
  let cluster := clusterOf (s.teamCore r.team)
  let s1 := match c.tag with
    | some t => setTag s r.team t false
    | none =>
      let p := s.spacePlace r.team 2
      let b := s.tbar p c.barrier
      s.setTbar p c.barrier { b with sectors := b.sectors + markCount c.marks }
  let s2 := recallWords s1 (markedWords c.marks) none r.lane
  s2.setCluster cluster fun e =>
    { e with queues := e.queues.zipIdx.map fun q => if q.2 = s.teamClass r.team then insertCopy c q.1 else q.1 }

/-- The index list stands in words or sectors that earlier engines have still to write: its fetch waits (R135, R433). -/
def listBusy (s : State) (r : TRef) (o : CopyOps) : Bool :=
  o.kind != .cpy &&
    sourceBusy s r.team (s.thread r).sup (if o.listLocal then .scratch r.team else .phys) o.listAt.toNat (4 * o.count)

/-- The index list of a gather or scatter (R330). -/
def readList (s : State) (r : TRef) (o : CopyOps) : State × Except EngFault (List Nat) :=
  match o.kind with
  | .cpy => (s, .ok [])
  | _ =>
    let p := if o.listLocal then Place.scratch r.team else .phys
    match engineRead s r.team (s.thread r).sup p o.listAt.toNat (4 * o.count) with
    | (s1, .error f) => (s1, .error f)
    | (s1, .ok bs) => (s1, .ok ((wordsOf bs).map BitVec.toNat))

/-- The copy as issued, its indices known. -/
def copyOf (s : State) (r : TRef) (o : CopyOps) (l : Layout) (ix : List Nat) (id : Nat) : Copy :=
  let t := s.thread r
  let c : Copy :=
    { id := id, kind := o.kind, team := r.team, issuer := r, sup := t.sup, pc := t.pc, time := s.time, cycle := s.cycle,
      core := s.teamCore r.team, layout := l,
      origin := o.origin, toTensor := o.toTensor, dense := o.level, denseOff := o.denseOff,
      targets := if o.multicast then multicastTeams s r o else [], multicast := o.multicast, indices := ix,
      tag := if o.onBarrier (some l) then none else some o.tag, barrier := o.barrier, span := l.span (o.rows l), chunk := 0,
      marks := [] }
  { c with marks := c.claims s }

/-- The destination makes a task commit early (R45). -/
def CopyOps.commits (o : CopyOps) (l : Layout) : Bool :=
  o.multicast || (if o.toTensor then l.space != 1 else o.level != 1)

/-- The box of a gather or scatter at a local level shows only with its list (R330); a lower code than its own comes first. -/
def CopyOps.needsList (o : CopyOps) (l : Layout) (low : Option (Nat × Nat × Nat)) : Bool :=
  o.kind != .cpy && l.valid (o.rows l) && l.space != 0 && match low with | some x => 2 ≤ x.1 | none => true
/-- The machine as the list fetch of a copy will find it, after the early commit and the release. -/
def listView (s : State) (r : TRef) (o : CopyOps) (l : Layout) : State :=
  release (if o.commits l then (earlyCommit s r).1 else s) r.cref (s.thread r).pc (laneBit r.lane)
/-- That fetch has to wait. -/
def listBlocked (s : State) (r : TRef) (o : CopyOps) (l : Layout) : Bool :=
  (o.commits l && s.commitBlocked r.team) || s.relBlocked r.cref || listBusy (listView s r o l) r o
/-- The refusal of a box that reaches beyond its allocation: the list is read for it ahead of the copy's other effects. -/
def listCodes (s : State) (r : TRef) (f : R3) (o : CopyOps) (l : Layout) : List (Nat × Nat × Nat) :=
  match (readList (listView s r o l) r o).2 with
  | .ok ix =>
    if boxBeyond s r.team l (copyRuns o.kind l o.toTensor o.origin ix) then [(2, f.d.toNat, l.base.toNat)] else []
  | .error _ => []

/-- The copy after its checks: early commit, release, list fetch, entry into the queue. What it logs, a full log has to have
room for (R461). -/
def startCopy (i : Instr) (s : State) (r : TRef) (f : R3) (o : CopyOps) (l : Layout) : LaneRes :=
  let tainted := o.tainted i f l (s.thread r)
  let go := fun (s : State) =>
    afterRelease s r fun s1 =>
      if listBusy s1 r o then .stall s1 else
      match readList s1 r o with
      | (s2, .error e) =>
        let c := copyOf s2 r o l [] 0
        .ok (deferEngine s2 c e 1 0)
      | (s2, .ok ix) =>
        let x := s2.takeSerial
        let c := copyOf x.2 r o l ix x.1
        let room := c.tag.isSome ||
          (barrierCopies s2 r.team < Config.barrierCopies &&
            (s2.tbar (s2.spacePlace r.team 2) c.barrier).sectors + markCount c.marks < 2 ^ 28)
        if room && !s2.recallBlocked (markedWords c.marks) none then
          let kind := if c.toTensor then l.space else o.level
          let at_ := if c.toTensor then l.base else BitVec.ofNat 64 c.denseOff
          .ok (enqueueCopy (logEngine x.2 r tainted kind at_) r c)
        else .stall s1
  if o.commits l then afterCommit s r go else withEntries s r (if tainted then 1 else 0) go

/-- A copy of one lane. -/
def copyLane (i : Instr) (k : CopyKind) (f : R3) (r : TRef) (s : State) : LaneRes :=
  let o := copyOps k f (s.thread r)
  let refuse := fun (s : State) (other : LaneRes) =>
    match lowestCode (copyCodes s r f o none) with
    | some x => LaneRes.trap s { cls := 5, code := x.1, detail := x.2.1, addr := BitVec.ofNat 64 x.2.2 }
    | none => other
  match readRecord s r o with
  | .missing s1 => .stall s1
  | .unread => refuse s (.stall s)
  | .fault s1 c => refuse s1 (.trap s1 c)
  | .engine s1 e => refuse s1 (.ok (deferEngine s1 (copyOf s1 r o (Layout.ofBytes []) [] 0) e 2 0))
  | .got s1 b =>
    let l := Layout.ofBytes b
    let codes := copyCodes s1 r f o (some l)
    let needs := o.needsList l (lowestCode codes)
    if needs && listBlocked s1 r o l then .stall s1
    else
    match lowestCode (codes ++ if needs then listCodes s1 r f o l else []) with
    | some x => .trap s1 { cls := 5, code := x.1, detail := x.2.1, addr := BitVec.ofNat 64 x.2.2 }
    | none =>
      if (o.barrierReg f l).any fun d => s1.flaws.contains (.reg r d) then .trap s1 flawFault
      else startCopy i s1 r f o l

def execCopy (i : Instr) (k : CopyKind) (f : R3) (s : State) : Host.Outcome State Fault Refusal :=
  issue i s fun s => s.eachLaneOrdered i (copyLane i k f)
def execCpy (f : R3) (s : State) := execCopy (.cpy f) .cpy f s
def execCpyg (f : R3) (s : State) := execCopy (.cpyg f) .cpyg f s
def execCpys (f : R3) (s : State) := execCopy (.cpys f) .cpys f s

end Sys2Proof.Machine
end

