-- ==== Sys2Proof/Machine/Matrix.lean ====
section
/-!
DEFINITION. The matrix array: issue of its instructions (R334 to R341, R446 to R448), the order of execution (R151, R155), and
the work of each instruction (R143 to R154, R157, R90 to R93, R445).
-/
namespace Sys2Proof.Machine

/-! ## Configuration and formats (R145, R148, R153) -/

def cfgRows (c : DWord) : Nat := bits c.toNat 6 0 + 1
def cfgCols (c : DWord) : Nat := bits c.toNat 14 8 + 1
def cfgDepth (c : DWord) : Nat := bits c.toNat 27 16 + 1
def cfgModeB (c : DWord) : Bool := bits c.toNat 33 32 == 1
/-- A block refused under R336. -/
def cfgBad (c : DWord) : Bool :=
  bits c.toNat 63 34 != 0 || bits c.toNat 31 28 != 0 || bit c.toNat 15 || bit c.toNat 7 || 2 ≤ bits c.toNat 33 32

/-- Element bits of a format code of the array. -/
def matBits (f : Nat) : Nat :=
  match f with
  | 0 => 2 | 1 => 4 | 2 => 8 | 3 => 8 | 4 => 8 | 5 => 16 | 6 => 16 | _ => 32
def matBfp (f : Nat) : Bool := f ≤ 2
/-- Bytes of a slot of 128 elements. -/
def slotBytes (f : Nat) : Nat := 16 * matBits f
/-- Bytes of an operand block of slots; in mode A a BFP block has its exponents after them. -/
def blockBytes (f slots : Nat) (modeB : Bool) : Nat :=
  if f = 7 then 0 else slots * slotBytes f + (if matBfp f && !modeB then 4 * slots else 0)

/-- The codes of 128 elements of a slot (R79). -/
def slotCodes (f : Nat) (bs : List Byte) : List Nat :=
  let w := matBits f
  if w = 16 then (upto 128).map fun i => leNat ((bs.drop (2 * i)).take 2)
  else bs.flatMap fun b => (upto (8 / w)).map fun i => b.toNat / 2 ^ (w * i) % 2 ^ w

/-- The value of an element: its code and, for a BFP format, its block exponent (R73, R78). -/
def matValue (f : Nat) (exp code : Nat) : FVal :=
  match f with
  | 3 => Fmt.e4m3.val code
  | 4 => Fmt.e5m2.val code
  | 5 => Fmt.bf16.val code
  | 6 => Fmt.f16.val code
  | _ =>
    let w := matBits f
    bfpVal w exp (if code < 2 ^ (w - 1) then code else (code : Int) - (2 ^ w : Nat))

/-! ## Tiles and planes -/

def Matrix.tile (m : Matrix) (t : Nat) : List (Nat × Word) := m.tiles.getD t []
/-- An element of a tile; an unlisted one is +0. -/
def tileGet (t : List (Nat × Word)) (r n : Nat) : Word := Tbl.atD t (128 * r + n) 0
/-- A tile whose elements below `rows` and `cols` have new values. -/
def tileWith (t : List (Nat × Word)) (rows cols : Nat) (f : Nat → Nat → Word) : List (Nat × Word) :=
  let keep := t.filter fun e => !(e.1 / 128 < rows && e.1 % 128 < cols)
  let new := (upto rows).flatMap fun r => (upto cols).filterMap fun n =>
    let v := f r n
    if v = 0 then none else some (128 * r + n, v)
  keep ++ new
def Matrix.setTile (m : Matrix) (t : Nat) (v : List (Nat × Word)) : Matrix :=
  { m with tiles := m.tiles.zipIdx.map fun x => if x.2 = t then v else x.1 }

/-- The plane of a loaded weight block (R337). -/
def planeOf (ctl base : Word) (modeB : Bool) (bs : List Byte) : Plane :=
  let f := bits ctl.toNat 2 0
  let codes := (upto 128).flatMap fun n =>
    ((slotCodes f ((bs.drop (n * slotBytes f)).take (slotBytes f))).zipIdx).filterMap fun x =>
      if x.1 = 0 then none else some (128 * n + x.2, x.1)
  let exps := if matBfp f && !modeB then ((bs.drop (128 * slotBytes f)).take 512).zipIdx.map fun x => (x.2, x.1.toNat) else []
  { w := codes, format := f, modeB := modeB, exps := exps, tensor := bits ctl.toNat 8 3, base := base }

/-! ## Block exponents of mode B (R150) -/

/-- Blocks of the chunk that hold elements. -/
def chunkBlocks (dc : Nat) : List Nat := (upto 4).filter fun q => 32 * q < dc

/-- The chunk depth of R144. -/
def chunkDepth (cfg : DWord) (c : Nat) : Nat := min 128 (cfgDepth cfg - 128 * c)

/-- A block number of an operand row or column. -/
def blockNumber (cfg : DWord) (base : Word) (c row q : Nat) : Nat :=
  base.toNat + row * ((cfgDepth cfg + 31) / 32) + 4 * c + q

/-- The exponents a pass needs, weights first: weights or not, tensor, block number. -/
def neededBlocks (cfg : DWord) (p : Plane) (ctl base : Word) : List (Bool × Nat × Nat) :=
  let c := bits ctl.toNat 7 3
  let qs := chunkBlocks (chunkDepth cfg c)
  let ws := if p.modeB && matBfp p.format then
      (upto (cfgCols cfg)).flatMap fun n => qs.map fun q => (true, p.tensor, blockNumber cfg p.base c n q)
    else []
  let as_ := if cfgModeB cfg && matBfp (bits ctl.toNat 2 0) then
      (upto (cfgRows cfg)).flatMap fun r => qs.map fun q => (false, bits ctl.toNat 13 8, blockNumber cfg base c r q)
    else []
  ws ++ as_

/-- The bound block count of a tensor identifier, and its table. -/
def Matrix.bound (m : Matrix) (t : Nat) : Nat := (m.bindings.getD t (0, 0)).2.toNat
def Matrix.table (m : Matrix) (t : Nat) : Nat := (m.bindings.getD t (0, 0)).1.toNat

/-- The exponent of a block among the lines a pass has read. -/
def heldExp (ls : List ScaleHeld) (t block : Nat) : Nat :=
  match ls.find? fun x => x.tensor == t && x.line == block / 64 with
  | some x => (x.bytes.getD (block % 64) 0).toNat
  | none => 0

/-! ## A pass (R91, R144, R339) -/

/-- The new tile after a pass over the bytes of its activation block. -/
def passTile (i : MatInstr) (ctl base : Word) (bs : List Byte) (old : List (Nat × Word)) : List (Nat × Word) :=
  let f := bits ctl.toNat 2 0
  let c := bits ctl.toNat 7 3
  let dc := chunkDepth i.cfg c
  let p := i.plane
  let rows := cfgRows i.cfg
  let actExp := fun r k =>
    if !matBfp f then 0
    else if cfgModeB i.cfg then heldExp i.lines (bits ctl.toNat 13 8) (blockNumber i.cfg base c r (k / 32))
    else (bs.getD (rows * slotBytes f + 4 * r + k / 32) 0).toNat
  let wExp := fun n k =>
    if !matBfp p.format then 0
    else if p.modeB then heldExp i.lines p.tensor (blockNumber i.cfg p.base c n (k / 32))
    else Tbl.atD p.exps (4 * n + k / 32) 0
  let row := fun r =>
    ((slotCodes f ((bs.drop (r * slotBytes f)).take (slotBytes f))).take dc).zipIdx.map fun x =>
      matValue f (actExp r x.2) x.1
  let col := fun n => (upto dc).map fun k => matValue p.format (wExp n k) (Tbl.atD p.w (128 * n + k) 0)
  let acts := (upto rows).map row
  let cols := (upto (cfgCols i.cfg)).map col
  tileWith old rows (cfgCols i.cfg) fun r n =>
    chunkAdd (tileGet old r n) (((acts.getD r []).zip (cols.getD n [])).map fun x => x.1.mul x.2)

/-! ## A stored tile (R93, R157) -/

/-- One element in a floating-point store format. -/
def storeElem (f : Nat) (mode : BitVec 2) (sat : Bool) (v : Word) : Nat :=
  match f with
  | 3 => Fmt.e4m3.emit mode true (Fmt.f32.val v.toNat)
  | 4 => Fmt.e5m2.emit mode sat (Fmt.f32.val v.toNat)
  | 5 => Fmt.bf16.emit mode sat (Fmt.f32.val v.toNat)
  | 6 => Fmt.f16.emit mode sat (Fmt.f32.val v.toNat)
  | _ => v.toNat

/-- The bytes of 32 mantissas (R79). -/
def packBlock (w : Nat) (ms : List Int) : List Byte :=
  leBytes (4 * w) (ms.zipIdx.foldl (fun (n : Nat) (x : Int × Nat) => n + wrapInt w x.1 * 2 ^ (w * x.2)) 0)

/-- The bytes of a stored tile. -/
def tileBytes (t : List (Nat × Word)) (rows cols f : Nat) (mode : BitVec 2) (sat : Bool) : List Byte :=
  if matBfp f then
    let blocks := (upto rows).flatMap fun r => (upto (cols / 32)).map fun b =>
      bfpBlock (matBits f) ((upto 32).map fun j => (tileGet t r (32 * b + j)).toNat)
    (blocks.flatMap fun b => packBlock (matBits f) b.2) ++ blocks.map fun b => BitVec.ofNat 8 b.1
  else
    (upto rows).flatMap fun r => (upto cols).flatMap fun n => leBytes (matBits f / 8) (storeElem f mode sat (tileGet t r n))

/-! ## Issue -/

def State.array? (s : State) (team : Nat) : Option Matrix := match s.team? team with | some tm => tm.array | none => none
def State.setArray (s : State) (team : Nat) (f : Matrix → Matrix) : State :=
  s.setTeam team fun tm => { tm with array := tm.array.map f }

/-- The checks that one minor of 0 to 7 makes on its operands: code, detail, address. -/
def offsetCode (s : State) (team off n : Nat) (k : Reg6) : List (Nat × Nat × Nat) :=
  (if off % 256 != 0 then [(1, k.toNat, off)] else []) ++
    (if s.spaceSize team 1 < off + n then [(2, k.toNat, off)] else [])

/-- An entry of the queue, outstanding for every thread of the crew (R155, R156); the array discards what is issued while it
has a fault pending (R446). -/
def queueMat (s : State) (c : CRef) (lane : Nat) (op : MatOp) : State :=
  match s.array? c.team, s.crew? c with
  | some m, some w =>
    if m.discard then s
    else
      let t := w.thread lane
      let x := s.takeSerial
      let cfg := match op with | .tcfg b => b | _ => m.issued
      let i : MatInstr :=
        { id := x.1, op := op, crew := c.crew, lane := lane, sup := t.sup, pc := t.pc, time := s.time, cycle := s.cycle, cfg := m.issued,
          started := false, stalled := false, overtaken := 0, plane := Plane.start, lines := [] }
      let s1 := x.2.setArray c.team fun m => { m with queue := m.queue ++ [i], issued := cfg }
      s1.setCrew c fun w => { w with threads := w.threads.map fun (t : Thread) => t.addOut x.1 0 0 none }
  | _, _ => s

/-- Escape-log entry of a store of a tile whose offset is tainted, or the guard or the control of a thread of the crew, before
which a task may have to commit (R211, R461, assumption 41). -/
def logTile (i : Instr) (s : State) (r : TRef) (a : Reg6) (off : Nat) : LaneRes :=
  let tainted := match s.crew? r.cref with
    | some c => c.taintK.getLsbD a.toNat || (upto 64).any fun l => (maskFor s.cur.lanes r.cref).getLsbD l && hasTaint i (c.thread l)
    | none => false
  if tainted then
    withEntries s r 1 fun s =>
      let x := s.takeFree
      .ok (logEscape x.2 r 1 x.1 (BitVec.ofNat 64 off))
  else .ok s

/-- An uncorrectable error in the tile that an instruction reads, which nothing queued before it overwrites whole (R443). -/
def tileFlawed (s : State) (team : Nat) (m : Matrix) (op : MatOp) : Bool :=
  let reads := fun (t : Nat) => s.flaws.contains (.tile team t) &&
    !(m.queue.any fun x => match x.op with | .tcfg _ => true | .azero u => u == t | _ => false)
  match op with
  | .mms t _ _ _ => reads t
  | .ast t _ _ _ _ => reads t
  | _ => false

/-- Of the causes that operands show, those that a team without the array can have: it is the array that checks the extents (R335,
assumption 108). -/
def arrayCodes (tm : Team) (all : List (Nat × Nat × Nat)) : List (Nat × Nat × Nat) :=
  if tm.array.isNone then all.filter (·.1 != 2) else all
/-- A matrix instruction of minors 0 to 7: it acts when some lane's guard is true; its checks in the order of R412, then the
queue. An error in a tile that it reads traps precisely (R443). -/
def execMat (i : Instr) (s : State) (codes : State → Nat → Crew → Matrix → List (Nat × Nat × Nat)) (op : Crew → Thread → MatOp) :
    Host.Outcome State Fault Refusal :=
  issue i s fun s =>
    let c := s.curCrew
    match s.leadLane i, s.crew? c, s.team? c.team with
    | some l, some w, some tm =>
      let m := tm.array.getD Matrix.start
      let all := arrayCodes tm (codes s c.team w m) ++
        (if tm.array.isNone then [(7, 0, 0)] else if tm.baton != c.crew then [(6, 0, 0)] else [])
      match lowestCode all with
      | some x => s.trapAll { cls := 5, code := x.1, detail := x.2.1, addr := BitVec.ofNat 64 x.2.2 }
      | none =>
        let o := op w (w.thread l)
        if Config.matrixQueue ≤ m.queue.length && !m.discard then s.stallAll
        else if !m.discard && tileFlawed s c.team m o then s.trapAll { cls := 12, code := 4, detail := 3 }
        else
          let logged := match i, o with
            | .ast f, .ast _ off _ _ _ => logTile i s ⟨c.team, c.crew, l⟩ f.a off
            | _, _ => .ok s
          match logged with
          | .ok s1 | .jump s1 => queueMat s1 c l o
          | .stall s1 => s1.stallAll
          | .trap s1 k => s1.trapAll k
    | _, _, _ => s

def noCodes (_ : State) (_ : Nat) (_ : Crew) (_ : Matrix) : List (Nat × Nat × Nat) := []

/-- `TCFG` (R336). -/
def execTcfg (f : R1) (s : State) : Host.Outcome State Fault Refusal :=
  execMat (.tcfg f) s (fun _ _ w _ => if cfgBad (w.kPair f.a) then [(10, f.a.toNat, 0)] else []) fun w _ => .tcfg (w.kPair f.a)

/-- `WLD` (R337). -/
def execWld (f : Rab) (s : State) : Host.Outcome State Fault Refusal :=
  execMat (.wld f) s
    (fun s team w m =>
      let ctl := (w.kReg f.b).toNat
      let fmt := bits ctl 2 0
      offsetCode s team (w.kReg f.a).toNat (blockBytes fmt 128 (cfgModeB m.issued)) f.a ++
        (if fmt = 7 || bits ctl 31 9 != 0 || (!cfgModeB m.issued && bits ctl 8 3 != 0) then [(10, f.b.toNat, 0)] else []))
    fun w _ => .wld (w.kReg f.a).toNat (w.kReg f.b) (w.kReg (f.b + 1))

/-- `WSWAP` (R338). -/
def execWswap (f : R0) (s : State) : Host.Outcome State Fault Refusal :=
  execMat (.wswap f) s noCodes fun _ _ => .wswap

/-- `MMS` (R339). -/
def execMms (f : R3) (s : State) : Host.Outcome State Fault Refusal :=
  execMat (.mms f) s
    (fun s team w m =>
      let ctl := (w.kReg f.b).toNat
      let fmt := bits ctl 2 0
      let cfg := m.issued
      offsetCode s team (w.kReg f.a).toNat (blockBytes fmt (cfgRows cfg) (cfgModeB cfg)) f.a ++
        (if fmt = 7 || bits ctl 31 14 != 0 || (!cfgModeB cfg && bits ctl 13 8 != 0) then [(10, f.b.toNat, 0)] else []) ++
        (if cfgDepth cfg ≤ 128 * bits ctl 7 3 then [(17, f.b.toNat, 0)] else []))
    fun w _ => .mms f.d.toNat (w.kReg f.a).toNat (w.kReg f.b) (w.kReg (f.b + 1))

/-- `AST` (R340). -/
def execAst (f : R3) (s : State) : Host.Outcome State Fault Refusal :=
  execMat (.ast f) s
    (fun s team w m =>
      let cfg := m.issued
      offsetCode s team (w.kReg f.a).toNat (astExtent (cfgRows cfg) (cfgCols cfg) f.b.toNat) f.a ++
        (if matBfp f.b.toNat && cfgCols cfg % 32 != 0 then [(17, 0, 0)] else []))
    fun w t => .ast f.d.toNat (w.kReg f.a).toNat f.b.toNat t.mode t.satur

/-- `ALD` (R340). -/
def execAld (f : R2) (s : State) : Host.Outcome State Fault Refusal :=
  execMat (.ald f) s
    (fun s team w m => offsetCode s team (w.kReg f.a).toNat (4 * cfgRows m.issued * cfgCols m.issued) f.a)
    fun w _ => .ald f.d.toNat (w.kReg f.a).toNat

/-- `AZERO` (R340). -/
def execAzero (f : Rd) (s : State) : Host.Outcome State Fault Refusal :=
  execMat (.azero f) s noCodes fun _ _ => .azero f.d.toNat

/-- `SCLD` (R341). -/
def execScld (f : R3) (s : State) : Host.Outcome State Fault Refusal :=
  execMat (.scld f) s
    (fun _ _ w _ =>
      let a := (w.kPair f.b).toNat
      (if a % 64 != 0 then [(1, f.b.toNat, a)] else []) ++ (if 2 ^ 52 ≤ a then [(3, f.b.toNat, a)] else []))
    fun w _ => .scld f.d.toNat (w.kReg f.a) (w.kPair f.b)

/-! ## The order of execution (R151, R155) -/

def MatOp.tile? : MatOp → Option Nat
  | .mms t _ _ _ => some t
  | .ast t _ _ _ _ => some t
  | .ald t _ => some t
  | .azero t => some t
  | _ => none
def MatOp.isMms : MatOp → Bool | .mms _ _ _ _ => true | _ => false
def MatOp.isWld : MatOp → Bool | .wld _ _ _ => true | _ => false
def MatOp.isWswap : MatOp → Bool | .wswap => true | _ => false
def MatOp.isTcfg : MatOp → Bool | .tcfg _ => true | _ => false
def MatOp.isScld : MatOp → Bool | .scld _ _ _ => true | _ => false
def MatOp.isAst : MatOp → Bool | .ast _ _ _ _ _ => true | _ => false

/-- The instructions of the queue before one. -/
def Matrix.before (m : Matrix) (id : Nat) : List MatInstr := m.queue.takeWhile fun x => x.id != id

/-- A pass may go before those that have not started: stalled passes into other tiles, and passes that themselves wait behind a
stalled one into their tile, of which fewer than three have overtaken each (R151). `held` are the tiles met so far. -/
def overtakes (tile : Option Nat) : List (Option Nat) → List MatInstr → Bool
  | _, [] => true
  | held, x :: xs =>
    if x.started then (x.op.isMms || x.op.isWld) && overtakes tile held xs
    else if x.op.isWld then !held.isEmpty && overtakes tile held xs
    else
      x.op.isMms && x.op.tile? != tile &&
        x.overtaken < 3 && (x.stalled || held.contains x.op.tile?) && overtakes tile (x.op.tile? :: held) xs

/-- Every instruction before has started, or a pass overtakes stalled passes into other tiles (R151, R155). -/
def orderAllows (before : List MatInstr) (i : MatInstr) : Bool :=
  match before.dropWhile fun x => x.started with
  | [] => true
  | rest => i.op.isMms && overtakes i.op.tile? [] rest

/-- An instruction may start (R155). -/
def Matrix.startable (m : Matrix) (i : MatInstr) : Bool :=
  let b := m.before i.id
  !i.started && !i.stalled && orderAllows b i &&
  match i.op with
  | .wld _ _ _ => b.all fun x => !x.op.isWswap
  | .wswap => b.all fun x => !x.op.isWld && (!x.op.isMms || x.started)
  | .mms _ _ _ _ => b.all fun x => !x.op.isWswap && !x.op.isScld && !x.op.isTcfg
  | .scld _ _ _ => b.all fun x => !x.op.isWld && !x.op.isMms
  | .tcfg _ => b.isEmpty
  | o => b.all fun x => !x.op.isTcfg && (x.op.isAst || x.op.tile?.isNone || x.op.tile? != o.tile?)

/-- The bytes of the scratchpad an instruction reads or writes. -/
def MatInstr.extent (i : MatInstr) : Nat × Nat :=
  match i.op with
  | .wld off ctl _ => (off, blockBytes (bits ctl.toNat 2 0) 128 (cfgModeB i.cfg))
  | .mms _ off ctl _ => (off, blockBytes (bits ctl.toNat 2 0) (cfgRows i.cfg) (cfgModeB i.cfg))
  | .ast _ off f _ _ => (off, astExtent (cfgRows i.cfg) (cfgCols i.cfg) f)
  | .ald _ off => (off, 4 * cfgRows i.cfg * cfgCols i.cfg)
  | _ => (0, 0)

/-- Its place in the order of engine work (R432). -/
def MatInstr.rank (i : MatInstr) (core : Nat) : EngineRank := ⟨i.cycle, core, i.id⟩

/-- An instruction may complete: what it depends on has completed, and no earlier engine work has still to write its bytes
(R155, R432, R433). -/
def completable (s : State) (team : Nat) (m : Matrix) (i : MatInstr) : Bool :=
  let b := m.before i.id
  let us := (Place.scratch team).units i.extent.1 i.extent.2
  i.started && !i.stalled &&
  (i.op.tile?.isNone || b.all fun x => x.op.tile? != i.op.tile?) &&
  (!i.op.isWld || b.all fun x => !x.op.isWld) && (!i.op.isScld || b.all fun x => !x.op.isScld) &&
  !(s.engineUnits.any fun u => u.1.before (i.rank (s.teamCore team)) && u.2.1 == Place.scratch team && us.contains u.2.2)

/-- Changes one entry of the queue. -/
def Matrix.setInstr (m : Matrix) (id : Nat) (f : MatInstr → MatInstr) : Matrix :=
  { m with queue := m.queue.map fun x => if x.id = id then f x else x }

/-- Entries leave the queue: they no longer count as outstanding for their crews (R156). -/
def endMat (s : State) (team : Nat) (ids : List Nat) : State :=
  let s1 := s.setArray team fun m => { m with queue := m.queue.filter fun x => !ids.contains x.id }
  let go := fun (t : Thread) => t.dropOut s.cycle fun o => ids.contains o.id
  { s1 with crews := s1.crews.map fun x =>
      if x.1.team = team then (x.1, { x.2 with threads := x.2.threads.map go }) else x }

/-! ## The scale cache (R150, R445, R446) -/

/-- A line of the cache of a core, with its use noted. -/
def scaleHit (s : State) (core t line : Nat) : Option (ScaleHeld × State) :=
  match s.scales.find? fun l => l.core == core && l.tensor == t && l.line == line with
  | none => none
  | some l =>
    some (⟨t, line, l.bytes⟩, { s with scales := s.scales.map fun x =>
      if x.core == core && x.tensor == t && x.line == line then { x with use := s.cycle } else x })

/-- A line enters the cache; a full set of 8 loses its least recently used line. Uses within one cycle have no order, and of
lines with the same last use the model takes the one that entered first (assumption 82). -/
def scaleInsert (s : State) (core t line : Nat) (bs : List Byte) : State :=
  let set := Config.scaleSet t line
  let own := s.scales.filter fun l => l.core == core && Config.scaleSet l.tensor l.line == set
  let kept :=
    if own.length < 8 then s.scales
    else
      let oldest := own.foldl (fun n l => min n l.use) s.cycle
      match own.find? fun l => l.use == oldest with
      | some v => s.scales.erase v
      | none => s.scales
  { s with scales := kept ++ [⟨core, t, line, bs, s.cycle⟩] }

/-- A pass faults: it writes nothing, and what has not started is discarded until the fault is delivered (R446). -/
def arrayFault (s : State) (team : Nat) (i : MatInstr) (c : Cause) : State :=
  let s1 := s.defer team
    { c with pc := i.pc, originPc := i.pc, originTime := i.time, detected := s.time, lanes := 0xFFFFFFFFFFFFFFFF,
             crew := some (s.slotOf ⟨team, i.crew⟩), array := true }
  let gone := match s1.array? team with
    | some m => (m.queue.filter fun x => x.id == i.id || !x.started).map (·.id)
    | none => []
  let s2 := endMat s1 team gone
  s2.setArray team fun m => { m with discard := true, issued := m.config }

/-- The blocks a pass still needs, as lines, in order; a block outside its table first stops the pass. -/
def missingBlock (i : MatInstr) (need : List (Bool × Nat × Nat)) : Option (Bool × Nat × Nat) :=
  need.find? fun b => !(i.lines.any fun l => l.tensor == b.2.1 && l.line == b.2.2 / 64)

/-- Takes the lines a pass needs from the cache, as far as they are there. -/
def takeLines (s : State) (core : Nat) (i : MatInstr) : List (Bool × Nat × Nat) → State × MatInstr
  | [] => (s, i)
  | b :: bs =>
    if i.lines.any fun l => l.tensor == b.2.1 && l.line == b.2.2 / 64 then takeLines s core i bs
    else
      match scaleHit s core b.2.1 (b.2.2 / 64) with
      | some (l, s1) => takeLines s1 core { i with lines := i.lines ++ [l] } bs
      | none => (s, i)

/-- The blocks needed by a pass, and the first of them outside its bound table. -/
def outOfTable (m : Matrix) (need : List (Bool × Nat × Nat)) : Option (Bool × Nat × Nat) :=
  need.find? fun b => m.bound b.2.1 ≤ b.2.2

/-- A pass goes on: with all its lines it has started, else it is stalled. -/
def advancePass (s : State) (team : Nat) (m : Matrix) (i : MatInstr) : State :=
  match i.op with
  | .mms _ _ ctl base =>
    let need := neededBlocks i.cfg i.plane ctl base
    match outOfTable m need with
    | some b =>
      arrayFault s team i { cls := 8, code := 0x10, addr := BitVec.ofNat 64 b.2.2, detail := b.2.1 + 64 * b.1.toNat }
    | none =>
      let x := takeLines s (s.teamCore team) i need
      let stalled := (missingBlock x.2 need).isSome
      x.1.setArray team fun m => m.setInstr i.id fun _ => { x.2 with stalled := stalled, started := !stalled }
  | _ => s

/-- An instruction of a team's queue starts, where it may (R155); a pass that starts has overtaken the passes before it that have
not. -/
def execMatrixInstructionStart (team id : Nat) (s : State) : Host.Outcome State Fault Refusal :=
  match s.array? team with
  | none => .next s
  | some m =>
    match m.queue.find? fun x => x.id == id with
    | none => .next s
    | some i =>
      if m.startable i then
        let overtook := (m.before id).filterMap fun x => if x.op.isMms && !x.started then some x.id else none
        let s1 := s.setArray team fun m =>
          { m with queue := m.queue.map fun x => if overtook.contains x.id then { x with overtaken := x.overtaken + 1 } else x }
        if i.op.isMms then .next (advancePass s1 team m { i with plane := m.act })
        else .next (s1.setArray team fun m => m.setInstr id fun x => { x with started := true })
      else .next s

/-- A line of scales stands in words that engine work issued before the pass has still to write: the read waits (R135, R433). -/
def MatInstr.lineBusy (s : State) (team : Nat) (i : MatInstr) (va : Nat) : Bool :=
  match (enginePages s team i.sup .read .phys va 64).2 with
  | .ok ps => ps.any fun x => s.engineUnits.any fun u =>
      u.1.before (i.rank (s.teamCore team)) && u.2.1 == Place.phys && (Place.phys.units x.2.1 x.2.2).contains u.2.2
  | .error _ => false

/-- A stalled pass reads its next missing line (R150). A line that another pass has brought in since it missed it takes from the
cache (assumption 82). -/
def execScaleCacheFill (team id : Nat) (s : State) : Host.Outcome State Fault Refusal :=
  match s.array? team with
  | none => .next s
  | some m =>
    match m.queue.find? fun x => x.id == id && x.stalled with
    | none => .next s
    | some i =>
      match i.op with
      | .mms _ _ ctl base =>
        match missingBlock i (neededBlocks i.cfg i.plane ctl base) with
        | none => .next (advancePass s team m i)
        | some (w, t, n) =>
          if (scaleHit s (s.teamCore team) t (n / 64)).isSome then .next (advancePass s team m i) else
          let va := m.table t + 64 * (n / 64)
          if i.lineBusy s team va then .next s else
          match engineRead s team i.sup .phys va 64 with
          | (s1, .error f) =>
            match f.mem with
            | some d => .next (arrayFault s1 team i { cls := 12, code := 5, addr := BitVec.ofNat 64 va, detail := d })
            | none =>
              let x := s1.takeFree
              let code := if f.code ≤ 4 then f.code - 1 else x.1.toNat % 4
              .next (arrayFault x.2 team i
                { cls := 8, code := 0x11, addr := BitVec.ofNat 64 va, detail := t + 64 * w.toNat + 256 * code })
          | (s1, .ok bs) =>
            let s2 := scaleInsert s1 (s.teamCore team) t (n / 64) bs
            let held : ScaleHeld := ⟨t, n / 64, bs⟩
            .next (advancePass s2 team m { i with lines := i.lines ++ [held] })
      | _ => .next s

/-! ## Completion -/

/-- An uncorrectable error in what an instruction reads: bytes of the scratchpad, or a tile in which it came about after the
issue (R443, assumption 36). -/
def MatInstr.spoilt (s : State) (team : Nat) (i : MatInstr) : Bool :=
  let tile := match i.op with | .mms t _ _ _ => s.flaws.contains (.tile team t) | .ast t _ _ _ _ => s.flaws.contains (.tile team t) | _ => false
  tile || (!i.op.isAst && s.spoilt (.scratch team) i.extent.1 i.extent.2)

/-- The tiles that an instruction writes whole hold no error after it. -/
def mendTiles (s : State) (team : Nat) (op : MatOp) : State :=
  match op with
  | .tcfg _ => s.mend fun x => match x with | .tile k _ => k == team | _ => false
  | .azero t => s.mend fun x => x == .tile team t
  | _ => s

/-- What a completed instruction does. -/
def matEffect (s : State) (team : Nat) (m : Matrix) (i : MatInstr) : State :=
  let read := fun (_ : Unit) => s.placeBytes (.scratch team) i.extent.1 i.extent.2
  match i.op with
  | .tcfg b => s.setArray team fun m => { m with tiles := [[], [], [], []], config := b }
  | .wld _ ctl base => s.setArray team fun m => { m with shd := planeOf ctl base (cfgModeB i.cfg) (read ()) }
  | .wswap => s.setArray team fun m => { m with act := m.shd, shd := m.act }
  | .mms t _ ctl base => s.setArray team fun m => m.setTile t (passTile i ctl base (read ()) (m.tile t))
  | .ast t off f mode sat =>
    s.writePlace (.scratch team) off (tileBytes (m.tile t) (cfgRows i.cfg) (cfgCols i.cfg) f mode sat)
  | .ald t _ =>
    let ws := wordsOf (read ())
    let cols := cfgCols i.cfg
    s.setArray team fun m => m.setTile t (tileWith (m.tile t) (cfgRows i.cfg) cols fun r n => ws.getD (r * cols + n) 0)
  | .azero t => s.setArray team fun m => m.setTile t []
  | .scld t n a =>
    let core := s.teamCore team
    let s1 := s.setArray team fun m =>
      { m with bindings := m.bindings.zipIdx.map fun b => if b.2 = t then (a, n) else b.1 }
    { s1 with scales := s1.scales.filter fun l => !(l.core == core && l.tensor == t) }

/-- The array meets an uncorrectable error: the instruction writes nothing, and the fault pends on its team; a pass faults as in
R446 (R443). -/
def matError (s : State) (team : Nat) (i : MatInstr) : State :=
  let c : Cause := { cls := 12, code := 5, detail := 3, addr := BitVec.ofNat 64 i.extent.1 }
  if i.op.isMms then arrayFault s team i c
  else
    endMat (s.defer team
      { c with pc := i.pc, originPc := i.pc, originTime := i.time, detected := s.time, lanes := 0xFFFFFFFFFFFFFFFF,
               crew := some (s.slotOf ⟨team, i.crew⟩) }) team [i.id]

/-- An instruction of a team's queue completes, where it may (R155). -/
def execMatrixInstructionComplete (team id : Nat) (s : State) : Host.Outcome State Fault Refusal :=
  match s.array? team with
  | none => .next s
  | some m =>
    match m.queue.find? fun x => x.id == id with
    | none => .next s
    | some i =>
      if !completable s team m i then .next s
      else if i.spoilt s team then .next (matError s team i)
      else .next (endMat (mendTiles (matEffect s team m i) team i.op) team [id])

end Sys2Proof.Machine
end

