-- ==== Sys2Proof/Machine/Solving.lean ====
section
/-!
DEFINITION. Solve regions (R163 to R177, R343, R420, R421, R449 to R452): the search for the region's end, the arrival of the
crews, and the mixing engine's steps in binary64.
-/
namespace Sys2Proof.Machine

/-! ## The end of a region (R163) -/

/-- An instruction of a line with its address: a word, or a code of a dictionary run. -/
inductive CodeItem where
  | word (va : Nat) (w : Word)
  | code (va : Nat) (c : CodeF)

/-- The instructions of the words of a line from an address; `run` words of a dictionary run come first. -/
def codeItems : List Word → Nat → Nat → List CodeItem
  | [], _, _ => []
  | w :: ws, va, run =>
    if 0 < run then
      .code va (decodeCode (BitVec.ofNat 16 w.toNat)) :: .code (va + 2) (decodeCode (BitVec.ofNat 16 (w.toNat / 65536))) ::
        codeItems ws (va + 4) (run - 1)
    else .word va w :: codeItems ws (va + 4) (if majorOf w = 0x2B then w.toNat % 16 + 1 else 0)

/-- The address of an item that is a `SOLEND`, given the entries of the dictionary. -/
def CodeItem.solend? (dict : List Word) : CodeItem → Option Nat
  | .word va w => match decodeWord w with | .ok (.solend _) => some va | _ => none
  | .code va c =>
    if c.x = 1023#10 then none
    else match decodeWord (expandCode (dict.getD c.x.toNat 0) c) with | .ok (.solend _) => some va | _ => none

/-- Reads bytes for a thread's search of code. -/
def readCode (s : State) (r : TRef) (va n : Nat) : Option (List Byte) :=
  match (readVirt s (dieOf (s.teamCore r.team)) (s.teamCtx r.team) (s.thread r).sup va n).2 with
  | .ok bs => some bs
  | .error _ => none

/-- The header of a code object that stands at an address and whose code holds a PC: the code's end. -/
def objectEnd (s : State) (r : TRef) (base pc : Nat) : Option Nat :=
  match readCode s r base 64 with
  | none => none
  | some h =>
    let lo := base + leNat ((h.drop 16).take 8)
    let hi := lo + leNat ((h.drop 12).take 4)
    if leNat (h.take 4) = 0x4A424F58 && lo ≤ pc && pc < hi then some hi else none

/-- The end of the code of the code object that a PC stands in: the launch's, else the nearest object below (assumption 42). -/
def codeEnd (s : State) (r : TRef) (pc : Nat) : Option Nat :=
  let own := match s.teamLaunch? r.team with | some (_, l) => objectEnd s r l.code.toNat pc | none => none
  match own with
  | some e => some e
  | none => searchDown (pc / 4096 + 1) (pc / 4096)
where
  /-- The pages from one downwards. -/
  searchDown : Nat → Nat → Option Nat
    | 0, _ => none
    | fuel + 1, page =>
      match objectEnd s r (page * 4096) pc with
      | some e => some e
      | none => searchDown fuel (page - 1)

/-- Searches lines in ascending order for the first `SOLEND` above a PC and below the code's end. -/
def searchLines (s : State) (r : TRef) (dict : List Word) (pc stop : Nat) : Nat → Nat → Option Nat
  | 0, _ => none
  | fuel + 1, line =>
    if stop ≤ line then none
    else
      match readCode s r line 256 with
      | none => none
      | some bs =>
        match (codeItems (wordsOf bs) line 0).findSome? fun x =>
            match x.solend? dict with | some a => if pc < a && a < stop then some a else none | none => none with
        | some a => some a
        | none => searchLines s r dict pc stop fuel (line + 256)

/-- The address of the region's `SOLEND`. -/
def findEnd (s : State) (r : TRef) (pc : Nat) : Option Nat :=
  match codeEnd s r pc with
  | none => none
  | some stop =>
    let dict := match s.teamLaunch? r.team with
      | some (_, l) =>
        match readCode s r (l.code.toNat + 24) 8 with
        | some o => (match readCode s r (l.code.toNat + leNat o) 4096 with | some bs => wordsOf bs | none => [])
        | none => []
      | none => []
    searchLines s r dict pc stop ((stop - pc) / 256 + 2) (pc / 256 * 256)

/-! ## The control block (R164, R165, R167) -/

def State.solve (s : State) (team : Nat) : Solve := match s.team? team with | some tm => tm.solve | none => Solve.start
def State.setSolve (s : State) (team : Nat) (f : Solve → Solve) : State :=
  s.setTeam team fun tm => { tm with solve := f tm.solve }

/-- The valid tiles: offset, element count, element bytes. -/
def tilesOf (ds : List Word) : List (Nat × Nat × Nat) :=
  ds.filterMap fun d =>
    if d.getLsbD 31 then some (256 * bits d.toNat 11 0, bits d.toNat 27 12 + 1, if d.getLsbD 30 then 8 else 4) else none
def tileRound (t : Nat × Nat × Nat) : Nat := (t.2.1 * t.2.2 + 255) / 256 * 256
/-- The size T of a part of the history area. -/
def partSize (ts : List (Nat × Nat × Nat)) : Nat := ts.foldl (fun n t => n + tileRound t) 0

/-- Ranges of bytes of which no two overlap. -/
def apart : List (Nat × Nat) → Bool
  | [] => true
  | x :: xs => (xs.all fun y => x.1 + x.2 ≤ y.1 || y.1 + y.2 ≤ x.1) && apart xs

def finite64 (v : Nat) : Bool := match Fmt.f64.val v with | .fin _ _ _ => true | _ => false

/-- The latched fields of a block, where it meets every condition. `sv.lambda` is not negative where it is not less than 0: the
spec does not say it of −0, which the model accepts (assumption 83). -/
def solveBlock (s : State) (team off : Nat) : Option Solve :=
  let size := s.spaceSize team 1
  if off % 64 != 0 || size < off + 64 then none
  else
    let b := s.placeBytes (.scratch team) off 64
    let f := fun a n => leNat ((b.drop a).take n)
    let ds := (upto 4).map fun i => BitVec.ofNat 32 (f (32 + 4 * i) 4)
    let ts := tilesOf ds
    let depth := f 28 1
    let hist := f 48 4
    let ranges := (off, 64) :: (hist, (1 + 2 * depth) * partSize ts) :: ts.map fun t => (t.1, t.2.1 * t.2.2)
    if f 29 1 = 0 && depth ≤ 8 && f 24 4 != 0 && finite64 (f 16 8) && finite64 (f 8 8) &&
        (Fmt.f64.val (f 8 8)).cmp (.fin false 0 0) != some .lt &&
        (ds.all fun d => bits d.toNat 29 28 == 0) && !ts.isEmpty &&
        ts.foldl (fun n t => n + t.2.1) 0 ≤ 65536 && hist % 256 = 0 &&
        (ranges.all fun x => x.1 + x.2 ≤ size) && apart ranges then
      some { active := true, startPc := 0, endPc := 0, block := off, thresh := BitVec.ofNat 64 (f 0 8),
             lambda := BitVec.ofNat 64 (f 8 8), beta := BitVec.ofNat 64 (f 16 8), ceil := f 24 4, depth := depth,
             history := hist, tiles := ds, k := 0, phase := 0 }
    else none

/-! ## Tiles and parts -/

/-- The bytes of each valid tile where it stands: the carried tiles, or a part of the history area. -/
def partAt (z : Solve) (part : Option Nat) : List (Nat × Nat) :=
  let ts := tilesOf z.tiles
  match part with
  | none => ts.map fun t => (t.1, t.2.1 * t.2.2)
  | some p =>
    (ts.foldl (fun (acc : List (Nat × Nat) × Nat) t => (acc.1 ++ [(acc.2, t.2.1 * t.2.2)], acc.2 + tileRound t))
      ([], z.history + p * partSize ts)).1

/-- The codes of the elements of a part, tile by tile. -/
def readPart (s : State) (team : Nat) (z : Solve) (part : Option Nat) : List (List Nat) :=
  ((partAt z part).zip (tilesOf z.tiles)).map fun x =>
    let bs := s.placeBytes (.scratch team) x.1.1 x.1.2
    (upto x.2.2.1).map fun i => leNat ((bs.drop (x.2.2.2 * i)).take x.2.2.2)
def writePart (s : State) (team : Nat) (z : Solve) (part : Option Nat) (vs : List (List Nat)) : State :=
  (((partAt z part).zip (tilesOf z.tiles)).zip vs).foldl (fun s x =>
    s.writePlace (.scratch team) x.1.1.1 (x.2.flatMap fun v => leBytes x.1.2.2.2 v)) s

/-- The element sequence in binary64 (R95, R168). -/
def values (z : Solve) (vs : List (List Nat)) : List Nat :=
  ((tilesOf z.tiles).zip vs).flatMap fun x =>
    if x.1.2.2 = 8 then x.2 else x.2.map fun v => Fmt.f64.emit 0 false (Fmt.f32.val v)
/-- A sequence as tile elements (R171). -/
def asTiles (z : Solve) (vs : List Nat) : List (List Nat) :=
  ((tilesOf z.tiles).foldl (fun (acc : List (List Nat) × List Nat) t =>
    let part := acc.2.take t.2.1
    (acc.1 ++ [if t.2.2 = 8 then part else part.map fun v => Fmt.f32.emit 0 false (Fmt.f64.val v)], acc.2.drop t.2.1))
    ([], vs)).1
def finiteTiles (z : Solve) (vs : List (List Nat)) : Bool :=
  ((tilesOf z.tiles).zip vs).all fun x => x.2.all fun v =>
    match (if x.1.2.2 = 8 then Fmt.f64.val v else Fmt.f32.val v) with | .fin _ _ _ => true | _ => false

/-- Writes `sv.res`, `sv.iter` and the status (R166). -/
def writeStatus (s : State) (team : Nat) (z : Solve) (res status : Nat) : State :=
  let p := Place.scratch team
  let s1 := s.writePlace p (z.block + 56) (leBytes 8 res)
  let s2 := s1.writePlace p (z.block + 52) (leBytes 4 z.k)
  s2.writePlace p (z.block + 30) (leBytes 2 status)

/-! ## The mixing step (R171, R172, R451) -/

def fsub64 := Fmt.f64.sub 0 false
def fadd64 := Fmt.f64.add 0 false
def fmul64 := Fmt.f64.mul 0 false

def subAll (a b : List Nat) : List Nat := (a.zip b).map fun x => fsub64 x.1 x.2

/-- `s` less the products of pairs, one subtraction at a time. -/
def lessProducts (s : Nat) (ps : List (Nat × Nat)) : Nat := ps.foldl (fun s p => fsub64 s (fmul64 p.1 p.2)) s

abbrev Mat64 := List (List Nat)
def Mat64.at (m : Mat64) (i j : Nat) : Nat := (m.getD i []).getD j 0

/-- The Cholesky factor, row by row below the diagonal, column after column; none at a bad pivot. -/
def cholColumn (g l : Mat64) (m j : Nat) : Option Mat64 :=
  let s := lessProducts (g.at j j) ((upto j).map fun p => (l.at j p, l.at j p))
  if (Fmt.f64.val s).cmp (.fin false 0 0) = some .gt then
    let d := Fmt.f64.sqrt 0 s
    some (l.zipIdx.map fun row =>
      if row.2 = j then row.1 ++ [d]
      else if j < row.2 && row.2 < m then
        let t := lessProducts (g.at row.2 j) ((upto j).map fun p => (l.at row.2 p, l.at j p))
        row.1 ++ [Fmt.f64.div 0 false t d]
      else row.1 ++ [0])
  else none

/-- `cholsolve` (R172). -/
def cholSolve (g : Mat64) (b : List Nat) : Option (List Nat) :=
  let m := b.length
  match (upto m).foldl (fun (l : Option Mat64) j => match l with | some l => cholColumn g l m j | none => none)
      (some (List.replicate m [])) with
  | none => none
  | some l =>
    let y := (upto m).foldl (fun y i =>
      y ++ [Fmt.f64.div 0 false (lessProducts (b.getD i 0) ((upto i).map fun p => (l.at i p, y.getD p 0))) (l.at i i)]) []
    some ((upto m).reverse.foldl (fun (x : List Nat) i =>
      let done := x.zipIdx.map fun v => (l.at (i + 1 + v.2) i, v.1)
      Fmt.f64.div 0 false (lessProducts (y.getD i 0) done) (l.at i i) :: x) [])

/-- Solves, dropping the oldest column at each bad pivot: the columns dropped and the solution (R451). -/
def solveDropping : Nat → Mat64 → List Nat → Nat → Nat × List Nat
  | 0, _, _, d => (d, [])
  | fuel + 1, g, b, d =>
    if b.isEmpty then (d, [])
    else
      match cholSolve g b with
      | some x => (d, x)
      | none => solveDropping fuel (g.tail.map List.tail) b.tail (d + 1)

/-- The columns of differences of a history, oldest first. -/
def differences : List (List Nat) → List (List Nat)
  | a :: b :: t => subAll b a :: differences (b :: t)
  | _ => []

/-- The new iterate: `xs` and `fs` are x and f of the past passes and, last, of the current one. -/
def mixed (lambda beta : Nat) (xs fs : List (List Nat)) : List Nat :=
  let dF := differences fs
  let dX := differences xs
  let x := xs.getLastD []
  let f := fs.getLastD []
  let n := dF.length
  let g0 : Mat64 := (upto n).map fun i => (upto n).map fun j =>
    orderedDot ((dF.getD (min i j) []).zip (dF.getD (max i j) []))
  let g : Mat64 := g0.zipIdx.map fun row => row.1.zipIdx.map fun v => if v.2 = row.2 then fadd64 v.1 lambda else v.1
  let b := dF.map fun d => orderedDot (d.zip f)
  let (dropped, gamma) := solveDropping n g b 0
  let cols := (gamma.zip ((dX.drop dropped).zip (dF.drop dropped)))
  (x.zip f).zipIdx.map fun e =>
    let u := lessProducts e.1.1 (cols.map fun c => (c.1, c.2.1.getD e.2 0))
    let v := lessProducts e.1.2 (cols.map fun c => (c.1, c.2.2.getD e.2 0))
    fadd64 u (fmul64 beta v)

/-- A step meets an uncorrectable error in the tiles or parts it reads (R452). -/
def partSpoilt (s : State) (team : Nat) (z : Solve) (parts : List (Option Nat)) : Bool :=
  parts.any fun p => (partAt z p).any fun x => s.spoilt (.scratch team) x.1 x.2

/-- How a `SOLEND` step ends. -/
inductive SolveEnd where
  | converged
  | mixed
  | fault (code : Nat)
  /-- An uncorrectable error met by the step (R452). -/
  | error
  deriving DecidableEq, Repr

/-- The step at `SOLEND` (R171, R449, R452). A step that meets an uncorrectable error in the snapshot or the tiles has a residual of
values that nobody knows, so `sv.res` is a free value (assumption 84); one that meets it in a slot has computed it. -/
def solendStepOf (s : State) (team : Nat) : State × SolveEnd :=
  let z0 := s.solve team
  let z := { z0 with k := z0.k + 1 }
  let xs := readPart s team z (some 0)
  let gs := readPart s team z none
  let x := values z xs
  let f := subAll (values z gs) x
  let r := Fmt.f64.sqrt 0 (orderedDot (f.zip f))
  let rv := Fmt.f64.val r
  let finish := fun (status : Nat) (e : SolveEnd) =>
    ((writeStatus s team z r status).setSolve team fun _ => { z with active := false }, e)
  if partSpoilt s team z [some 0, none] then
    let y := s.takeFree
    ((writeStatus y.2 team z (Config.freeDWord y.1.toNat).toNat 6).setSolve team fun _ => { z with active := false }, SolveEnd.error)
  else if rv.cmp (Fmt.f64.val z.thresh.toNat) = some .lt then finish 1 .converged
  else if rv = .nan || rv = .inf false then finish 3 (.fault 0x10)
  else if z.k = z.ceil then finish 2 (.fault 0x12)
  else
    let m := min z.depth (z.k - 1)
    let past := (upto m).map fun i => (z.k - 1 - m + i) % max 1 z.depth
    if partSpoilt s team z (past.flatMap fun p => [some (1 + 2 * p), some (2 + 2 * p)]) then finish 6 .error else
    let px := past.map fun p => values z (readPart s team z (some (1 + 2 * p)))
    let pf := past.map fun p =>
      subAll (values z (readPart s team z (some (2 + 2 * p)))) (values z (readPart s team z (some (1 + 2 * p))))
    let new := asTiles z (mixed z.lambda.toNat z.beta.toNat (px ++ [x]) (pf ++ [f]))
    if !finiteTiles z new then finish 4 (.fault 0x11)
    else
      let p := (z.k - 1) % max 1 z.depth
      let s1 := if 0 < z.depth then writePart (writePart s team z (some (1 + 2 * p)) xs) team z (some (2 + 2 * p)) gs else s
      let s2 := writePart (writePart s1 team z none new) team z (some 0) new
      ((writeStatus s2 team z r 0).setSolve team fun _ => z, .mixed)

/-! ## Arrival -/

/-- A thread of a crew waits at the region barrier: what it waits for. -/
def Crew.region? (c : Crew) : Option (Bool × Reg6 × DWord) :=
  match (c.thread 0).wait with | .region e k pc _ _ => some (e, k, pc) | _ => none

/-- The crews of a team, handler crews excepted, with what they wait for at the region barrier. -/
def State.regionWaits (s : State) (team : Nat) : List (Nat × Option (Bool × Reg6 × DWord)) :=
  (s.liveCrews team).map fun c => (c, match s.crew? ⟨team, c⟩ with | some w => w.region? | none => none)

/-- The class 0x09 code of a `SOLVE` or `SOLEND` at its arrival: the first of R420's order. -/
def solveCode (s : State) (c : CRef) (isEnd : Bool) (pc : DWord) (target : Option Nat) : Option Nat :=
  let z := s.solve c.team
  let crews := match s.team? c.team with | some tm => tm.crews | none => 0
  if crews ≤ c.crew then some 6
  else if (s.regionWaits c.team).any fun x => match x.2 with | some (e, _, p) => e != isEnd || p != pc | none => false then
    some 5
  else if !isEnd && z.active then some 1
  else if isEnd && !z.active then some 2
  else if isEnd && z.endPc != pc then some 3
  else if !isEnd && target.isNone then some 7
  else none

/-- The instructions of the region write the scratchpad: the escape-log entry of a crew whose guard or control is tainted in some
lane, or the block's offset, appended when the step writes (R211, assumption 41). -/
def regionEntry (i : Instr) (k : Reg6) (isEnd : Bool) (s : State) (c : CRef) : State × Option Escape :=
  match s.crew? c with
  | some w =>
    if (!isEnd && w.taintK.getLsbD k.toNat) || (upto 64).any fun l => (maskFor s.cur.lanes c).getLsbD l && hasTaint i (w.thread l) then
      let x := s.takeFree
      let off := if isEnd then (s.solve c.team).block else (w.kReg k).toNat
      (x.2, some (escapeOf s ⟨c.team, c.crew, 0⟩ 1 x.1 (BitVec.ofNat 64 off)))
    else (s, none)
  | none => (s, none)

/-- The arrival of a crew: a release, then the wait; the engine's step comes after the last arrival. -/
def execRegion (i : Instr) (isEnd : Bool) (k : Reg6) (s : State) : Host.Outcome State Fault Refusal :=
  issue i s fun s =>
    let c := s.curCrew
    let pc := s.cur.pc
    let target := if isEnd then none else findEnd s ⟨c.team, c.crew, 0⟩ pc.toNat
    match solveCode s c isEnd pc target with
    | some code => s.trapAll { cls := 9, code := code }
    | none =>
      let x := regionEntry i k isEnd s c
      match withEntries x.1 ⟨c.team, c.crew, 0⟩ x.2.toList.length .ok with
      | .stall s1 => s1.stallAll
      | .trap s1 a => s1.trapAll a
      | .ok s1 | .jump s1 =>
        if s1.relBlocked c then s1.stallAll
        else
          (release s1 c pc (maskFor s1.cur.lanes c)).setCrew c fun w =>
            { w with threads := w.threads.map fun (t : Thread) => { t with wait := .region isEnd k pc t.chainStart x.2 } }

def execSolve (f : Rsa) (s : State) := execRegion (.solve f) false f.a s
def execSolend (f : Rs) (s : State) := execRegion (.solend f) true 0 s

/-! ## The steps (R169, R170, R177) -/

/-- All crews of a team stand at the barrier of one instruction: that instruction's wait, and the lowest crew. -/
def State.regionReady (s : State) (team : Nat) (isEnd : Bool) : Option (Nat × Reg6 × DWord) :=
  match s.regionWaits team with
  | [] => none
  | (c, w) :: rest =>
    match w with
    | some (e, k, pc) => if e = isEnd && rest.all fun x => x.2.isSome then some (c, k, pc) else none
    | none => none

/-- The engine's bytes stand in sectors that another engine has yet to write (R169). -/
def solveBusy (s : State) (team : Nat) (z : Solve) : Bool :=
  let ranges := (z.block, 64) :: (z.history, (1 + 2 * z.depth) * partSize (tilesOf z.tiles)) :: partAt z none
  ranges.any fun x => s.isBusy (.scratch team) x.1 x.2

/-- A core's mixing engine serves its teams in the order in which their steps became ready: no team noted before is ready
(R177). -/
def State.mixes (s : State) (team : Nat) : Bool :=
  ((s.core (s.teamCore team)).mixing.takeWhile fun t => t != team).all fun t =>
    (s.regionReady t false).isNone && (s.regionReady t true).isNone
/-- At the end of a cycle the teams of a core whose step is ready are noted behind those that wait (R177). Between teams whose
steps become ready in one cycle the spec gives no order; the model takes that of its table of teams (assumption 96). -/
def noteMixing (s : State) (core : Nat) : State :=
  let ready := fun (t : Nat) => (s.regionReady t false).isSome || (s.regionReady t true).isSome
  let new := s.teams.filterMap fun t =>
    if t.2.core = core && ready t.1 && !(s.core core).mixing.contains t.1 then some t.1 else none
  if new.isEmpty && (s.core core).mixing.all ready then s
  else s.setCore core fun k => { k with mixing := k.mixing.filter ready ++ new }

/-- Releases the crews of a team from the region barrier, all in one cycle: an acquire each; `goTo` changes the PC. -/
def releaseRegion (s : State) (team : Nat) (goTo : Option DWord) : State :=
  (s.liveCrews team).foldl (fun s c =>
    acquire (s.setCrew ⟨team, c⟩ fun w =>
      { w with threads := w.threads.map fun (t : Thread) =>
          { t.wakeAt (s.cycle + 1) with pc := goTo.getD t.pc } }) ⟨team, c⟩) s

/-- The live threads of a team's crews. -/
def State.liveThreads (s : State) (team : Nat) : List TRef :=
  ((s.liveCrews team).flatMap fun k => (upto 64).map fun l => (⟨team, k, l⟩ : TRef)).filter fun r => !(s.thread r).exited
/-- Every live thread of the team's crews takes the trap of a step (R450). -/
def trapRegion (s : State) (team : Nat) (c : Cause) : State :=
  enterTraps s ((s.liveThreads team).map fun r => (r, c))
/-- Where each live thread of a team that waits at a `SOLVE` issues again when it is refused: the first word of its hint chain
(R257, R420). -/
def State.regionStarts (s : State) (team : Nat) : List (TRef × DWord) :=
  (s.liveThreads team).map fun r => (r, match (s.thread r).wait with | .region _ _ _ start _ => start | _ => (s.thread r).pc)

/-- The entries of the arrivals at the region barrier are appended before the step writes (R211, R461). -/
def logRegion (s : State) (team : Nat) : State :=
  (s.liveCrews team).foldl (fun s c =>
    match (s.thread ⟨team, c, 0⟩).wait with
    | .region _ _ _ _ (some e) => keepEscape s team { e with time := s.time }
    | _ => s) s

/-- The trap of a step that met an uncorrectable error, entered as R450 gives (R452). -/
def stepError (off : Nat) (pc : DWord) : Cause := { cls := 12, code := 4, detail := 3, addr := BitVec.ofNat 64 off, pc := pc }

/-- The step at `SOLVE` meets an uncorrectable error: the region ends with status 6, `sv.iter` 0 and `sv.res` +0 (R170, R452). -/
def solveError (s : State) (team : Nat) (z : Solve) (pc : DWord) : State :=
  let s1 := (writeStatus (logRegion s team) team z 0 6).setSolve team fun y => { y with phase := y.phase + 1 }
  trapRegion (traceBarrier (releaseRegion s1 team none) team 16 (s1.solve team).phase.toNat) team (stepError z.block pc)

/-- The step at `SOLVE`: a block that breaks its conditions is refused at the `SOLVE` (R170, R420). The crews of a refused block are
released without a completion, so the phase count stays: the model's choice (assumption 18). An uncorrectable error in the
block or the tiles ends the region as at `SOLEND`, whose rule the model takes for this step as well (R452, assumption 84). -/
def execSolveStep (team : Nat) (s : State) : Host.Outcome State Fault Refusal :=
  match s.regionReady team false with
  | none => .next s
  | some (c, k, pc) =>
    let off := match s.crew? ⟨team, c⟩ with | some w => (w.kReg k).toNat | none => 0
    if !s.mixes team then .next s
    else if off % 64 = 0 && off + 64 ≤ s.spaceSize team 1 && s.spoilt (.scratch team) off 64 then
      .next (solveError s team { Solve.start with block := off } pc)
    else
    match solveBlock s team off with
    | none =>
      let s1 := releaseRegion s team none
      let s2 := (s1.liveCrews team).foldl (fun s c => s.setCrew ⟨team, c⟩ fun w => { w with retired := w.retired - 1 }) s1
      .next (enterTraps s2 ((s.regionStarts team).map fun x =>
        (x.1, { cls := 9, code := 4, addr := BitVec.ofNat 64 off, pc := pc, resume := some x.2 })))
    | some z =>
      let old := s.solve team
      if solveBusy s team z then .next s
      else if partSpoilt s team z [none] then .next (solveError s team z pc)
      else
        let r : TRef := ⟨team, c, 0⟩
        let z1 := { z with startPc := (s.thread r).pc, endPc := BitVec.ofNat 64 ((findEnd s r pc.toNat).getD 0)
                           phase := old.phase + 1 }
        let s1 := writePart (logRegion s team) team z1 (some 0) (readPart s team z1 none)
        let s2 := (writeStatus s1 team z1 0 0).setSolve team fun _ => z1
        .next (traceBarrier (releaseRegion s2 team none) team 16 z1.phase.toNat)

/-- The step at `SOLEND`: the team leaves the region, goes round again, or traps at the word after it. -/
def execSolendStep (team : Nat) (s : State) : Host.Outcome State Fault Refusal :=
  match s.regionReady team true with
  | none => .next s
  | some (_, _, pc) =>
    if !s.mixes team || solveBusy s team (s.solve team) then .next s
    else
      let x := solendStepOf (logRegion s team) team
      let s1 := x.1.setSolve team fun z => { z with phase := z.phase + 1 }
      let done := fun (s : State) => traceBarrier s team 16 (s.solve team).phase.toNat
      match x.2 with
      | .converged => .next (done (releaseRegion s1 team none))
      | .mixed => .next (done (releaseRegion s1 team (some (s1.solve team).startPc)))
      | .error =>
        .next (trapRegion (done (releaseRegion s1 team none)) team (stepError (s1.solve team).block pc))
      | .fault code =>
        let s2 := done (releaseRegion s1 team none)
        .next (trapRegion s2 team { cls := 9, code := code, addr := BitVec.ofNat 64 (s1.solve team).block, pc := pc })

end Sys2Proof.Machine
end

