-- ==== Sys2Proof/Machine/Fabric.lean ====
section
/-!
DEFINITION. Fabric messages: the instructions that send them (R344 to R348), injection and counting (R190, R197), their
arrival (R183, R189), handler crews (R187, R188), acknowledgement, attempts and loss (R453 to R456), and failures of remote
accesses (R481).
-/
namespace Sys2Proof.Machine

/-! ## Jobs and counters (R178, R190) -/

def State.setJob (s : State) (n : BitVec 16) (f : Job → Job) : State :=
  { s with fabric := { s.fabric with jobs := s.fabric.jobs.map fun j => if j.number = n then f j else j } }

/-- Changes the counters of an interface for a job. -/
def State.count (s : State) (n : BitVec 16) (iface : Nat) (f : Counters → Counters) : State :=
  s.setJob n fun j => { j with counters := j.counters.mapIdx fun i c => if i = iface then f c else c }
def State.countI (s : State) (n : BitVec 16) (iface : Nat) : State := s.count n iface fun c => { c with i := c.i + 1 }
def State.countC (s : State) (n : BitVec 16) (iface : Nat) : State := s.count n iface fun c => { c with c := c.c + 1 }
def State.countL (s : State) (n : BitVec 16) (iface : Nat) : State := s.count n iface fun c => { c with l := c.l + 1 }

/-- The entry of a job's route table that holds a rank (R181). -/
def Job.route? (j : Job) (rank : Word) : Option RouteEntry :=
  j.routes.find? fun e => e.first.toNat ≤ rank.toNat && rank.toNat ≤ e.last.toNat

/-- The interface a message leaves its die through: any port of the die towards the module, else any port towards it; for a
message within the module any port of the die (R190, R197). -/
def choosePort (die : Nat) (ports : BitVec 96) (n : Nat) : Nat :=
  let all := (upto 96).filter fun p => ports.getLsbD p
  let own := all.filter fun p => p / 24 == die
  if ports = 0 then 24 * die + n % 24
  else if own.isEmpty then all.getD (n % all.length) 0 else own.getD (n % own.length) 0

/-- What leaves the module: a message, acknowledgement, query, answer, notice, request, sum or verdict, by its kind 0 to 8. -/
def State.emit (s : State) (kind : Nat) (vals : List DWord) : State :=
  { s with fabric := { s.fabric with egress := s.fabric.egress ++ [(kind, vals)] } }

/-! ## Formats (R184, R186) -/

/-- The 32 bytes of a message header (R184). -/
def headerBytes (m : Msg) : List Byte :=
  leBytes 3 0 ++ leBytes 1 m.cls ++ leBytes 1 m.length ++ leBytes 1 m.selector.toNat ++ leBytes 2 m.job.toNat ++
    leBytes 4 m.sender.toNat ++ leBytes 4 m.dest.toNat ++ leBytes 8 m.address.toNat ++ leBytes 8 m.timestamp.toNat
/-- The 16 bytes of an attempt envelope (R186). -/
def envelopeBytes (e : Envelope) : List Byte :=
  leBytes 1 e.attempt ++ leBytes 1 e.iface ++ leBytes 2 e.modNum.toNat ++ leBytes 4 e.sequence.toNat ++
    leBytes 8 e.attemptTime.toNat
/-- Bytes in groups of eight, the first lowest, the last filled up with zeros. -/
def dwordsOf (bs : List Byte) : List DWord :=
  (upto ((bs.length + 7) / 8)).map fun i => BitVec.ofNat 64 (leNat ((bs.drop (8 * i)).take 8))
/-- A single control flit of an interface: its envelope, the kind byte, the sequence it is about, and what an answer says. The kind
bytes and the attempt and sequence of this envelope are not the spec's to give (assumption 86). -/
def controlFlit (s : State) (iface attempt kind : Nat) (seq : Word) (rest : List Byte) : List DWord :=
  dwordsOf (envelopeBytes ⟨BitVec.ofNat 64 s.time, seq, s.modl.number, iface, attempt⟩ ++ [Config.flitKind kind] ++
    leBytes 4 seq.toNat ++ rest)

/-! ## Sending (R344 to R347) -/

/-- The register fields of a sending instruction and its class. -/
structure SendF where
  cls : Nat
  d : Reg6
  a : Reg6
  b : Reg6

def SendF.ctl (f : SendF) (t : Thread) : Nat := (t.reg (f.a + 1)).toNat
def SendF.global (f : SendF) (t : Thread) : Bool := bit (f.ctl t) 16
def SendF.ret (f : SendF) (t : Thread) : Bool := bit (f.ctl t) 4
def SendF.op (f : SendF) (t : Thread) : BitVec 4 := BitVec.ofNat 4 (f.ctl t)
def SendF.length (f : SendF) (t : Thread) : Nat := bits (f.ctl t) 14 8
/-- Payload place: an offset in the scratchpad, or an address. -/
def SendF.payload (f : SendF) (t : Thread) : DWord := if f.global t then t.pair f.b else (t.reg f.b).setWidth 64
def SendF.remote (f : SendF) (t : Thread) : DWord := t.pair (f.a + 2)
/-- Registers that a reply writes (R314, R344). -/
def SendF.results (f : SendF) (t : Thread) : Nat :=
  if f.cls = 2 then f.length t else if f.cls = 3 && f.ret t then 2 ^ atomGroupD (f.op t) else 0

/-- Class 0x02 causes that show only in the control word: a destination with ret = 0, and parity (R344, R415). -/
def SendF.encoding (f : SendF) (t : Thread) : Option (Nat × Nat) :=
  if f.cls = 3 && !f.ret t && f.d != 0 then some (3, 19)
  else
    let odd :=
      if f.cls ≤ 1 then (if f.global t then oddAt f.b 7 else [])
      else if f.cls = 3 then groupAt (atomGroupB (f.op t)) f.b 7 ++ (if f.ret t then groupAt (atomGroupD (f.op t)) f.d 19 else [])
      else []
    odd.head?.map fun b => (5, b)

/-- The class 0x05 refusals with the register field and address of each, handlers apart (R345, R412, R418). -/
def sendCodes (s : State) (r : TRef) (f : SendF) : List (Nat × Nat × Nat) :=
  let t := s.thread r
  let ctl := f.ctl t
  let when_ := fun (b : Bool) (x : Nat × Nat × Nat) => if b then [x] else []
  let pay := f.cls ≤ 1
  let far := f.cls != 0
  let job := match s.teamLaunch? r.team with | some (_, l) => l.job | none => 0
  let routed := match s.job? job with | some j => (j.route? (t.reg f.a)).isSome | none => false
  when_ (pay && (f.payload t).toNat % 4 != 0) (1, f.b.toNat, (f.payload t).toNat) ++
  when_ (far && (f.remote t).toNat % (if f.cls = 3 then atomSize (f.op t) else 4) != 0) (1, f.a.toNat, (f.remote t).toNat) ++
  when_ (pay && !f.global t && s.placeSize (.scratch r.team) < (f.payload t).toNat + 4 * f.length t)
    (2, f.b.toNat, (f.payload t).toNat) ++
  when_ (pay && f.global t && 2 ^ 52 ≤ (f.payload t).toNat) (3, f.b.toNat, (f.payload t).toNat) ++
  when_ (far && 2 ^ 52 ≤ (f.remote t).toNat) (3, f.a.toNat, (f.remote t).toNat) ++
  when_ (bits ctl 31 17 != 0 || bit ctl 15 || (f.cls != 0 && bits ctl 7 5 != 0) ||
      (2 ≤ f.cls && f.global t) || 64 < f.length t || (f.cls != 0 && f.cls != 3 && f.length t == 0) ||
      (f.cls == 3 && f.length t != 0) || ((f.cls == 1 || f.cls == 2) && bits ctl 4 0 != 0) ||
      (f.cls == 3 && !f.ret t && 13 ≤ (f.op t).toNat)) (4, f.a.toNat, 0) ++
  when_ (f.cls == 2 && 64 < f.d.toNat + f.length t) (4, f.d.toNat, 0) ++
  when_ (s.isDet r.team) (12, 0, 0) ++
  when_ (job == 0) (13, 0, 0) ++
  when_ (!routed) (14, f.a.toNat, (t.reg f.a).toNat)

/-- The handler table's entry of a launch in a thread's bank `c7` (R187). -/
inductive EntryRes where
  | got (v : DWord)
  | fault (s : State) (c : Cause)
  | missing (s : State)

def handlerEntry (s : State) (r : TRef) (h : Nat) : EntryRes :=
  match bankOperand s r 7 (2 * h) with
  | .fault s1 c => .fault s1 c
  | .missing s1 => .missing s1
  | .held lo =>
    match bankOperand s r 7 (2 * h + 1) with
    | .fault s1 c => .fault s1 c
    | .missing s1 => .missing s1
    | .held hi => .got (BitVec.ofNat 64 (lo.toNat + 2 ^ 32 * hi.toNat))

/-- The escape-log entry of a message: for its operands, and, of those that write memory, for their guard and control (R211,
R212). -/
def logSend (i : Instr) (s : State) (r : TRef) (f : SendF) (payload : List Word) : State :=
  let t := s.thread r
  if f.cls != 2 && ((readsOf i t).any (fun x => t.taintG.getLsbD x.toNat) || (f.cls != 0 && hasTaint i t)) then
    logEscape s r 7 (payload.getD 0 0) ((t.reg f.a).setWidth 64)
  else s

/-- The port through which a message goes to the module of a route; within the module it takes no port lane (R181, R197, R372). -/
def State.portTowards (s : State) (die : Nat) (e : RouteEntry) (n : Nat) : Nat :=
  choosePort die (if e.modNum = s.modl.number then 0 else e.ports) n

/-- Hands a message to an interface of the sending die (R346, R347); the registers of a reply are outstanding from here. -/
def handOver (s : State) (r : TRef) (f : SendF) (payload : List Word) : State :=
  let t := s.thread r
  match s.teamLaunch? r.team, s.team? r.team with
  | some (_, l), some tm =>
    match (s.job? l.job).bind fun j => j.route? (t.reg f.a) with
    | none => s
    | some e =>
      let p := s.takeFree
      let x := p.2.takeSerial
      let n := f.results t
      let m : Msg :=
        { cls := f.cls, job := l.job, dest := t.reg f.a, sender := BitVec.ofNat 32 (l.rankBase + tm.index),
          selector := if f.cls = 0 then BitVec.ofNat 8 (f.ctl t) else if f.cls = 3 then BitVec.ofNat 8 (f.op t).toNat else 0,
          length := if f.cls = 2 then f.length t else payload.length,
          address := if f.cls = 0 then 0 else f.remote t, timestamp := 0, payload := payload }
      let sent : Sent :=
        { id := x.1, msg := m, iface := s.portTowards (dieOf tm.core) e p.1.toNat, destMod := e.modNum, team := r.team,
          sender := some r, out := if n = 0 then none else some x.1, pc := t.pc, origin := s.originOf r, consumes := none,
          injected := false, sequence := 0, attempts := 0, lastAttempt := 0, queries := 0, acked := false, settled := false }
      let s1 : State := { x.2 with fabric := { x.2.fabric with sent := x.2.fabric.sent ++ [sent] } }
      let s2 := s1.setCrew r.cref fun c => { c with unsent := c.unsent + 1 }
      if n = 0 then s2 else s2.setThread r fun t => t.addOut x.1 f.d n none
  | _, _ => s

/-- A payload that cannot be read: nothing is handed over, and a deferred fault pends (R443, R481). -/
def payloadFault (s : State) (r : TRef) (f : SendF) (e : EngFault) : State :=
  let t := s.thread r
  s.defer r.team
    { cls := if e.mem.isSome then 12 else 10, code := if e.mem.isSome then 5 else 7,
      detail := match e.mem with | some d => d | none => f.cls + 16 * e.code, addr := f.payload t, pc := t.pc, originPc := t.pc,
      originTime := s.time, detected := s.time, lanes := laneBit r.lane, crew := some (s.slotOf r.cref) }

/-- The words of an atomic's operands (R185, R314). -/
def atomPayload (t : Thread) (p : BitVec 4) (b : Reg6) : List Word := (groupRegs (atomGroupB p) b).map t.reg

/-- The message of a lane, after its release: the payload is read and everything handed to the interface. -/
def sendPayload (i : Instr) (s : State) (r : TRef) (f : SendF) : LaneRes :=
  let t := s.thread r
  if 2 ≤ f.cls then
    let ws := if f.cls = 3 then atomPayload t (f.op t) f.b else []
    .ok (handOver (logSend i s r f ws) r f ws)
  else
    let n := 4 * f.length t
    let p := if f.global t then Place.phys else .scratch r.team
    if sourceBusy s r.team t.sup p (f.payload t).toNat n then .stall s
    else
      match engineRead s r.team t.sup p (f.payload t).toNat n with
      | (s1, .error e) => .ok (payloadFault s1 r f e)
      | (s1, .ok bs) => .ok (handOver (logSend i s1 r f (wordsOf bs)) r f (wordsOf bs))

/-- What a sending instruction finds reserved in its control word, in a lane whose guard is true (R412, R413). -/
def sendReserved (i : Instr) (f : SendF) (s : State) (r : TRef) : Option Cause :=
  let t := s.thread r
  if guardOf i t then (f.encoding t).map fun x => { cls := 2, code := x.1, detail := x.2 } else none

/-- A sending instruction in one lane: the access checks of R412, early commit, release, hand-over. -/
def sendLane (i : Instr) (f : SendF) (r : TRef) (s : State) : LaneRes :=
  let t := s.thread r
  match lowestCode (sendCodes s r f) with
  | some x => .trap s { cls := 5, code := x.1, detail := x.2.1, addr := BitVec.ofNat 64 x.2.2 }
  | none =>
    let go := fun (s : State) => afterCommit s r fun s1 =>
      if f.cls = 2 then sendPayload i s1 r f else afterRelease s1 r fun s2 => sendPayload i s2 r f
    if f.cls = 0 then
      match handlerEntry s r (bits (f.ctl t) 7 0) with
      | .fault s1 c => .trap s1 c
      | .missing s1 => .stall s1
      | .got e => if e = 0 then .trap s { cls := 5, code := 15, detail := f.a.toNat } else go s
    else go s

/-- A sending instruction. -/
def sendWith (i : Instr) (f : SendF) (s : State) : Host.Outcome State Fault Refusal :=
  issueWith i (sendReserved i f) s fun s => s.eachLaneOrdered i (sendLane i f)

def execMsend (f : Rab) (s : State) := sendWith (.msend f) ⟨0, 0, f.a, f.b⟩ s
def execRput (f : Rab) (s : State) := sendWith (.rput f) ⟨1, 0, f.a, f.b⟩ s
def execRget (f : R2) (s : State) := sendWith (.rget f) ⟨2, f.d, f.a, 0⟩ s
def execRatom (f : R3) (s : State) := sendWith (.ratom f) ⟨3, f.d, f.a, f.b⟩ s

/-! ## Injection and attempts (R186, R190, R453) -/

def State.setSent (s : State) (id : Nat) (f : Sent → Sent) : State :=
  { s with fabric := { s.fabric with sent := s.fabric.sent.map fun x => if x.id = id then f x else x } }
def State.sentById (s : State) (id : Nat) : Option Sent := s.fabric.sent.find? fun x => x.id == id
/-- The message an interface sent under a sequence number; of several the latest. -/
def State.sentBy (s : State) (iface : Nat) (seq : Word) : Option Sent :=
  s.fabric.sent.reverse.find? fun x => x.injected && x.iface == iface && x.sequence == seq

/-- An attempt of a message leaves the module: envelope, header, payload. -/
def emitAttempt (s : State) (x : Sent) (n : Nat) : State :=
  if x.destMod = s.modl.number then s
  else
    s.emit 0 (dwordsOf (envelopeBytes ⟨BitVec.ofNat 64 s.time, x.sequence, s.modl.number, x.iface, n⟩ ++ headerBytes x.msg ++
      bytesOf x.msg.payload))

/-- A message that waits for its acceptance goes by the route table that is loaded then: module and interface (R181). A rank that
a new table no longer holds keeps the route of the hand-over. -/
def State.routed (s : State) (x : Sent) : State × Sent :=
  match (s.job? x.msg.job).bind fun j => j.route? x.msg.dest with
  | none => (s, x)
  | some e =>
    let p := s.takeFree
    (p.2, { x with iface := s.portTowards (x.iface / 24) e p.1.toNat, destMod := e.modNum })

/-! ## Loss (R454 to R456) -/

/-- A result of a remote access reaches its registers; a result that no register waits for is discarded (R51). -/
def giveRemote (s : State) (x : Sent) (ws : List Word) : State :=
  match x.sender, x.out with
  | some r, some id =>
    s.setCrewAny r.cref fun c =>
      match (c.thread r.lane).out.find? fun o => o.id == id with
      | some o =>
        let vs := ws ++ List.replicate (o.regs.length - ws.length) 0
        (c.giveOut r.lane id vs).setThread r.lane fun t => (t.writeOut o.regs vs).dropOut s.cycle fun o => o.id == id
      | none => c
  | _, _ => s

/-- The deferred fault of a lost message, with the zeros its registers receive (R456). -/
def reportLoss (s : State) (x : Sent) (code : Nat) : State :=
  if x.settled then s
  else
    let s1 := giveRemote (s.setSent x.id fun x => { x with settled := true }) x []
    s1.deferFor x.team x.origin
      { cls := 10, code := code, detail := x.msg.cls + 256 * x.msg.selector.toNat, addr := x.msg.dest.setWidth 64,
        pc := x.pc, originPc := x.pc, originTime := x.msg.timestamp.toNat, detected := s.time,
        lanes := laneBit x.origin.lane, crew := some x.origin.slot }

/-- The request that a reply answers: the requester identity is the interface and sequence of the request. -/
def identity (e : Envelope) : DWord := BitVec.ofNat 64 (e.iface * 2 ^ 32 + e.sequence.toNat)
def State.requestOf (s : State) (reply : Msg) : Option Sent :=
  s.sentBy (reply.address.toNat / 2 ^ 32) (reply.address.setWidth 32)

/-- Reports the loss of a message whose sender is this module: of a reply, to its requester, in another module by a notice. -/
def reportLossOf (s : State) (x : Sent) (code : Nat) : State :=
  if x.msg.cls = 4 then
    let s1 := s.setSent x.id fun x => { x with settled := true }
    if x.destMod = s.modl.number then
      match s.requestOf x.msg with
      | some q => reportLoss s1 q code
      | none => s1
    else s1.emit 4 (controlFlit s1 x.iface 1 4 (x.msg.address.setWidth 32) (leBytes 1 code))
  else reportLoss s x code

/-- A message of this module is lost at its sender: its own interface counts it in L, a lost reply that of the requester, in
another module when the notice arrives there (R455). -/
def loseSent (s : State) (x : Sent) (code : Nat) : State :=
  let s1 :=
    if x.msg.cls = 4 then
      if x.destMod = s.modl.number then
        (match s.requestOf x.msg with | some q => s.countL x.msg.job q.iface | none => s.countL x.msg.job x.iface)
      else s
    else s.countL x.msg.job x.iface
  reportLossOf s1 x code

/-- An uncorrectable error in the copy of a message that its interface retains (R455 code 0x05). -/
def State.sentSpoilt (s : State) (x : Sent) : Bool := s.flaws.contains (.sent x.id)

/-! ## Acceptance and attempts (R186, R190, R453) -/

/-- The sending interface accepts a message: timestamp and sequence, I, and the consumption of what a reply answers. A message
whose copy cannot be read is accepted and lost (R455, assumption 106). -/
def execMessageInjection (id : Nat) (s : State) : Host.Outcome State Fault Refusal :=
  match s.sentById id with
  | none => .next s
  | some x0 =>
    if x0.injected || (s.die ((s.routed x0).2.iface / 24)).inReset then .next s
    else
      let (s, x) := s.routed x0
      let seq := s.fabric.seqs.getD x.iface 0
      let y := { x with msg := { x.msg with timestamp := BitVec.ofNat 64 s.time }, sequence := seq, injected := true,
                        attempts := 1, lastAttempt := s.time }
      let s1 := (s.setSent id fun _ => y).countI x.msg.job x.iface
      let s2 : State := { s1 with fabric := { s1.fabric with seqs := s1.fabric.seqs.set! x.iface (seq + 1) } }
      let s3 := match x.consumes with | some n => s2.countC x.msg.job n | none => s2
      let s4 := match x.sender with
        | some r => s3.setCrewAny r.cref fun c => { c with unsent := c.unsent - 1 }
        | none => s3
      .next (if s.sentSpoilt x then loseSent s4 y 5 else emitAttempt s4 y 1)

/-- A further attempt, 128 microseconds after the last (R453). Where the retained copy cannot be read, the message is lost
unless the destination has accepted it, as far as this module can tell (R455, assumption 106). -/
def execAttemptTimeout (id : Nat) (s : State) : Host.Outcome State Fault Refusal :=
  match s.sentById id with
  | none => .next s
  | some x =>
    if x.injected && !x.acked && !x.settled && x.attempts < 4 && x.lastAttempt + 128000 ≤ s.time then
      if s.sentSpoilt x then
        .next (if s.fabric.accepted.contains (x.destMod, x.iface, x.sequence) then s else loseSent s x 5)
      else
      let s1 := s.setSent id fun x => { x with attempts := x.attempts + 1, lastAttempt := s.time }
      .next (emitAttempt s1 x (x.attempts + 1))
    else .next s

/-- The destination interface's acknowledgement reaches the sender. -/
def execAcknowledgement (iface : Nat) (seq : Word) (s : State) : Host.Outcome State Fault Refusal :=
  match s.sentBy iface seq with
  | none => .next s
  | some x =>
    if x.destMod != s.modl.number || s.fabric.accepted.contains (s.modl.number, iface, seq) then
      .next (s.setSent x.id fun x => { x with acked := true })
    else .next s

/-- A loss notice reaches the sending interface: for a message of this module only after L was counted here. -/
def execLossNotice (iface : Nat) (seq : Word) (code : Nat) (s : State) : Host.Outcome State Fault Refusal :=
  match s.sentBy iface seq with
  | none => .next s
  | some x =>
    let far := x.destMod != s.modl.number
    if (far && 1 ≤ code && code ≤ 5) || s.fabric.lost.contains ((s.modl.number, iface, seq), code) then
      -- Only a reply's loss comes with code 0x02 from another module: the requester's interface counts it.
      .next (reportLossOf (if far && code = 2 && !x.settled then s.countL x.msg.job x.iface else s) x code)
    else .next s

def State.identified (s : State) (e : Envelope) : BitVec 16 × Nat × Word := (e.modNum, e.iface, e.sequence)
def State.wasLost (s : State) (e : Envelope) : Bool := s.fabric.lost.any fun x => x.1 == s.identified e

/-- The destination interface counts a message in L, and the notice leaves for its sender (R455). A lost reply is reported
to its requester here. -/
def loseAt (s : State) (m : Msg) (e : Envelope) (dest code : Nat) : State :=
  let s1 := s.countL m.job dest
  let s2 : State := { s1 with fabric := { s1.fabric with lost := s1.fabric.lost ++ [(s.identified e, code)] } }
  let s3 := if e.modNum = s.modl.number then s2
    else s2.emit 4 (controlFlit s2 dest 1 4 e.sequence (leBytes 1 code))
  if m.cls = 4 then
    match s3.requestOf m with
    | some q => reportLoss s3 q code
    | none => s3
  else s3

/-- The sender asks whether a message arrived: up to 4 queries, 128 microseconds apart. -/
def execLossQuery (id : Nat) (s : State) : Host.Outcome State Fault Refusal :=
  match s.sentById id with
  | none => .next s
  | some x =>
    if x.injected && !x.acked && !x.settled && x.attempts == 4 && x.queries < 4 && x.lastAttempt + 128000 ≤ s.time then
      let s1 := s.setSent id fun x => { x with queries := x.queries + 1, lastAttempt := s.time }
      .next (if x.destMod = s.modl.number then s1
        else s1.emit 2 (controlFlit s1 x.iface (x.queries + 1) 2 x.sequence []))
    else .next s

/-- The answer reaches the sender; a message reported as not received is settled by its loss notice. -/
def execLossQueryAnswer (iface : Nat) (seq : Word) (received : Bool) (s : State) : Host.Outcome State Fault Refusal :=
  match s.sentBy iface seq with
  | none => .next s
  | some x =>
    let me := (s.modl.number, iface, seq)
    let real := x.destMod != s.modl.number ||
      (if received then s.fabric.accepted.contains me else s.fabric.lost.any fun y => y.1 == me)
    if real && 1 ≤ x.queries then .next (s.setSent x.id fun x => { x with acked := true }) else .next s

/-- No answer after the fourth query: the sender counts the message in its own L, and the job slot is repaired (code
0x02). -/
def execQueryTimeout (id : Nat) (s : State) : Host.Outcome State Fault Refusal :=
  match s.sentById id with
  | none => .next s
  | some x =>
    if x.injected && !x.acked && !x.settled && x.queries == 4 && x.lastAttempt + 128000 ≤ s.time then
      .next (loseSent (s.setJob x.msg.job fun j => { j with repaired := true }) x 2)
    else .next s

/-! ## Arrival (R183, R189, R453) -/

/-- The launch of a job that holds a rank on this module, and the team's index. -/
def State.rankHolder (s : State) (m : Msg) : Option (Nat × Launch × Nat) :=
  (s.launches.find? fun x => x.2.job == m.job && !x.2.done && x.2.rankBase ≤ m.dest.toNat &&
      m.dest.toNat < x.2.rankBase + x.2.x * x.2.y * x.2.z * x.2.stages).map
    fun x => (x.1, x.2, m.dest.toNat - x.2.rankBase)

/-- Where a team of a launch stands. -/
inductive Standing where
  | resident (t : Nat)
  | image (t : Nat)
  | pending
  | gone
  deriving DecidableEq, Repr

def State.standing (s : State) (launch : Nat) (l : Launch) (index : Nat) : Standing :=
  match s.teams.find? fun t => t.2.launch == launch && t.2.index == index && t.2.task.isNone with
  | some t => .resident t.1
  | none =>
    match s.images.find? fun i => i.data.launch == launch && i.data.index == index && i.data.task.isNone with
    | some i => .image i.team
    | none => if l.next ≤ index then .pending else .gone

/-- The die that a message within the module goes to, where its team or requester stands on a core. -/
def State.destDie? (s : State) (m : Msg) : Option Nat :=
  let at_ := fun (t : Nat) => (s.team? t).map fun tm => dieOf tm.core
  if m.cls = 4 then (s.requestOf m).bind fun q => at_ q.team
  else
    match s.rankHolder m with
    | none => none
    | some (id, l, ix) => match s.standing id l ix with | .resident t => at_ t | _ => none

/-- The interface by which a message within the module arrives: one of its destination's die, and on the sender's own die the one
it left by (R190, R372). -/
def State.localIface (s : State) (m : Msg) (e : Envelope) (dest : Nat) : Bool :=
  match s.destDie? m with
  | none => true
  | some d => dest / 24 == d && (e.iface / 24 != d || dest == e.iface)

/-- An attempt arrives that the destination interface does not discard: not too old, no duplicate, not recorded lost; and,
from this module, one that was sent. An accepted number is remembered for ever, also once the 32-bit sequence wraps, of which
the spec says nothing (assumption 87). -/
def arrives (s : State) (m : Msg) (e : Envelope) (dest cls : Nat) : Bool :=
  m.cls == cls && dest < 96 && e.iface < 96 && 1 ≤ e.attempt && e.attempt ≤ 4 &&
  s.time < e.attemptTime.toNat + 64000 && !s.fabric.accepted.contains (s.identified e) && !s.wasLost e &&
  (s.job? m.job).isSome && (cls == 2 || m.payload.length == m.length) && !(s.die (dest / 24)).inReset &&
  (e.modNum != s.modl.number ||
    match s.sentBy e.iface e.sequence with
    | some x => x.msg == m && x.destMod == s.modl.number && x.attempts == e.attempt && x.lastAttempt == e.attemptTime.toNat &&
        x.queries == 0 && s.localIface m e dest
    | none => false)

/-- A query reaches the destination interface: a message it has not accepted is counted lost there (code 0x01). -/
def execLossQueryArrival (m : Msg) (e : Envelope) (dest : Nat) (s : State) : Host.Outcome State Fault Refusal :=
  let real := e.modNum != s.modl.number ||
    (match s.sentBy e.iface e.sequence with
     | some x => x.msg == m && 1 ≤ x.queries && x.destMod == s.modl.number && s.localIface m e dest
     | none => false)
  if real && dest < 96 && e.iface < 96 then
    let got := s.fabric.accepted.contains (s.identified e)
    let s1 := if got || s.wasLost e then s else loseAt s m e dest 1
    .next (if e.modNum = s.modl.number then s1
      else s1.emit 3 (controlFlit s1 dest 1 3 e.sequence (leBytes 1 got.toNat)))
  else .next s

/-- The destination's own time has reached the injection timestamp of a message (R26). -/
def State.reached (s : State) (m : Msg) : Bool := m.timestamp.toNat ≤ s.time

/-- Records the acceptance and sends the acknowledgement. -/
def accept (s : State) (e : Envelope) (dest : Nat) : State :=
  let s1 : State := { s with fabric := { s.fabric with accepted := s.fabric.accepted ++ [s.identified e] } }
  if e.modNum = s.modl.number then s1 else s1.emit 1 (controlFlit s1 dest 1 1 e.sequence [])

/-- Messages in the overflow ring of a launch (R189). -/
def State.ringHeld (s : State) (launch : Nat) : Nat :=
  let count := fun (n : Nat) (t : Team) => if t.launch = launch then n + t.ring.length else n
  let early := match s.launch? launch with
    | some l => l.early.foldl (fun n x => n + x.2.length) 0
    | none => 0
  (s.images.map (·.data)).foldl count (s.teams.map (·.2) |>.foldl count early)

/-- The ring's region after it took a message: its layout and contents are not architected (R189). -/
def ringWritten (s : State) (dest : Nat) (l : Launch) : State :=
  scramble s (dest / 24) l.ctx false l.ringAddr.toNat (320 * l.ringCap)

/-- An active message enters its team's queue, or the ring behind it, or is lost. -/
def queueMessage (s : State) (m : Msg) (e : Envelope) (dest launch index : Nat) (l : Launch) : State :=
  let x : InMsg := ⟨m, dest, e⟩
  let full := l.ringCap ≤ s.ringHeld launch
  let toTeam := fun (t : Nat) =>
    match s.teamAny? t with
    | none => s
    | some tm =>
      if tm.ring.isEmpty && tm.incoming.length < Config.incomingQueue then
        (accept s e dest).setTeamAny t fun tm => { tm with incoming := tm.incoming ++ [x] }
      else if full then loseAt s m e dest 3
      else ringWritten ((accept s e dest).setTeamAny t fun tm => { tm with ring := tm.ring ++ [x] }) dest l
  match s.standing launch l index with
  | .resident t => toTeam t
  | .image t => toTeam t
  | .pending =>
    if full then loseAt s m e dest 3
    else
      ringWritten ((accept s e dest).setLaunch launch fun l =>
        { l with early := Tbl.put l.early index (Tbl.atD l.early index [] ++ [x]) }) dest l
  | .gone => loseAt s m e dest 4

/-- An active message arrives; `bad` says that the interface's buffer lost it to an uncorrectable error (code 0x05). -/
def execActiveMessageArrival (m : Msg) (e : Envelope) (dest : Nat) (bad : Bool) (s : State) :
    Host.Outcome State Fault Refusal :=
  if !arrives s m e dest 0 then .next s
  else if bad then .next (loseAt s m e dest 5)
  else
    match s.rankHolder m with
    | none => .next (loseAt s m e dest 4)
    | some (id, l, ix) => .next (queueMessage s m e dest id ix l)

/-- A team of the job holds the destination rank here (R455 code 0x04); its launch context. -/
def State.remoteCtx (s : State) (m : Msg) : Option Nat :=
  match s.rankHolder m with
  | none => none
  | some (id, l, ix) => if s.standing id l ix = .gone then none else some l.ctx

/-- A remote access failed at the destination: consumed, and the failure notice leaves for the sender (R443, R481). -/
def failAccess (s : State) (m : Msg) (e : Envelope) (dest cls code detail : Nat) (reply : Bool) : State :=
  let s1 := if reply then s else s.countC m.job dest
  if e.modNum = s.modl.number then
    { s1 with fabric := { s1.fabric with failed := s1.fabric.failed ++ [(s.identified e, cls, code, detail)] } }
  else s1.emit 5 [e.modNum.setWidth 64, BitVec.ofNat 64 e.iface, e.sequence.setWidth 64, BitVec.ofNat 64 cls,
    BitVec.ofNat 64 code, BitVec.ofNat 64 detail]

/-- The reply of a get or atomic is handed to an interface of the destination die; its injection counts the request as
consumed, unless a failure has (R183, R190). -/
def sendReply (s : State) (m : Msg) (e : Envelope) (dest : Nat) (ws : List Word) (consumes : Bool) : State :=
  let p := s.takeFree
  let x := p.2.takeSerial
  let ports := if e.modNum = s.modl.number then 0
    else match (s.job? m.job).bind fun j => j.route? m.sender with | some r => r.ports | none => 0
  let sent : Sent :=
    { id := x.1, msg := { cls := 4, job := m.job, dest := m.sender, sender := m.dest, selector := 0, length := ws.length,
                          address := identity e, timestamp := 0, payload := ws },
      iface := choosePort (dest / 24) ports p.1.toNat, destMod := e.modNum, team := 0, sender := none, out := none, pc := 0,
      origin := ⟨0, 0, 0, 0, 0, false, false, false⟩, consumes := if consumes then some dest else none, injected := false,
      sequence := 0, attempts := 0, lastAttempt := 0, queries := 0, acked := false, settled := false }
  { x.2 with fabric := { x.2.fabric with sent := x.2.fabric.sent ++ [sent] } }

/-- Where a remote access stands in memory: its pages, or how it fails (class, code, detail of the sender's record). -/
def remotePlan (s : State) (ctx : Nat) (m : Msg) (dest n : Nat) (k : AccKind) :
    State × Except (Nat × Nat × Nat) (List (Nat × Nat)) :=
  match translateRange s (.die (dest / 24)) ctx false k 4 m.address.toNat n with
  | (s1, .error f) => (s1, .error (10, 6, m.cls + 16 * f.1.code + 256 * m.selector.toNat))
  | (s1, .ok ps) =>
    match ps.find? fun x => (k = .read && s1.deadRange x.1 x.2) || s1.shut x.1 with
    | some x => (s1, .error (12, 5, s1.errorDetail x.1))
    | none => (s1, .ok ps)

/-- The words of pieces of pages. -/
def pageUnits (ps : List (Nat × Nat)) : List Nat := ps.flatMap fun p => (wordsTouched p.1 p.2).map fun a => a / 4
/-- The words of pages that another owner has dirtied are recalled before an interface writes them (R135). -/
def recallPages (s : State) (ps : List (Nat × Nat)) : State := recallWords s (pageUnits ps) none 0

def writePages (s : State) : List (Nat × Nat) → List Byte → State
  | [], _ => s
  | (pa, n) :: rest, bs => writePages (noteForeign (engineWrite s pa (bs.take n)) pa n) rest (bs.drop n)

/-- A remote put arrives: the interface writes the payload as an engine store; it waits where an engine has yet to write. -/
def execRemotePutArrival (m : Msg) (e : Envelope) (dest : Nat) (bad : Bool) (s : State) : Host.Outcome State Fault Refusal :=
  if !arrives s m e dest 1 || !s.reached m then .next s
  else if bad then .next (loseAt s m e dest 5)
  else
    match s.remoteCtx m with
    | none => .next (loseAt s m e dest 4)
    | some ctx =>
      match remotePlan s ctx m dest (4 * m.length) .write with
      | (s1, .error x) => .next (failAccess (accept s1 e dest) m e dest x.1 x.2.1 x.2.2 false)
      | (s1, .ok ps) =>
        if (ps.any fun p => s1.isBusy .phys p.1 p.2) || s1.recallBlocked (pageUnits ps) none then .next s1
        else .next ((writePages (recallPages (accept s1 e dest) ps) ps (bytesOf m.payload)).countC m.job dest)

/-- A remote get arrives: the interface reads the source and sends the reply. -/
def execRemoteGetArrival (m : Msg) (e : Envelope) (dest : Nat) (bad : Bool) (s : State) : Host.Outcome State Fault Refusal :=
  if !arrives s m e dest 2 then .next s
  else if bad then .next (loseAt s m e dest 5)
  else
    match s.remoteCtx m with
    | none => .next (loseAt s m e dest 4)
    | some ctx =>
      match remotePlan s ctx m dest (4 * m.length) .read with
      | (s1, .error x) =>
        .next (sendReply (failAccess (accept s1 e dest) m e dest x.1 x.2.1 x.2.2 false) m e dest
          (List.replicate m.length 0) false)
      | (s1, .ok ps) =>
        if ps.any fun p => s1.isBusy .phys p.1 p.2 then .next s1
        else
          let s2 := ps.foldl (fun s p => l2Read (noteForeign s p.1 p.2) p.1 p.2) (accept s1 e dest)
          .next (sendReply s2 m e dest (wordsOf (ps.flatMap fun p => s1.homeBytes p.1 p.2)) true)

/-- The operands of a remote atomic. -/
def remoteOperands (p : BitVec 4) (ws : List Word) : Nat × Nat :=
  let w := fun (i : Nat) => (ws.getD i 0).toNat
  match p.toNat with
  | 1 | 3 => (w 0 + 2 ^ 32 * w 1, 0)
  | 14 => (w 0, w 1)
  | 15 => (w 0 + 2 ^ 32 * w 1, w 2 + 2 ^ 32 * w 3)
  | _ => (w 0, 0)

/-- A remote atomic arrives: the interface applies it at the home, in the word's atomic order (R346). `ret` asks for the old
value. -/
def execRemoteAtomicArrival (m : Msg) (e : Envelope) (dest : Nat) (bad ret : Bool) (s : State) :
    Host.Outcome State Fault Refusal :=
  let p := BitVec.ofNat 4 m.selector.toNat
  let n := atomSize p
  let asked := e.modNum != s.modl.number ||
    (match s.sentBy e.iface e.sequence with | some x => x.out.isSome == ret | none => false)
  if !arrives s m e dest 3 || !asked || !s.reached m then .next s
  else if bad then .next (loseAt s m e dest 5)
  else
    match s.remoteCtx m with
    | none => .next (loseAt s m e dest 4)
    | some ctx =>
      match remotePlan s ctx m dest n .write with
      | (s1, .error x) =>
        let s2 := failAccess (accept s1 e dest) m e dest x.1 x.2.1 x.2.2 false
        .next (if ret then sendReply s2 m e dest (List.replicate (n / 4) 0) false else s2)
      | (s1, .ok ps) =>
        match ps with
        | [(pa, _)] =>
          if s1.isBusy .phys pa n || s1.recallBlocked (pageUnits ps) none then .next s1
          else if s1.deadRange pa n then
            let s2 := failAccess (accept s1 e dest) m e dest 12 5 (s1.errorDetail pa) false
            .next (if ret then sendReply s2 m e dest (List.replicate (n / 4) 0) false else s2)
          else
            let s2 := recallPages (accept s1 e dest) ps
            let op := remoteOperands p m.payload
            let old := s2.homeN pa n
            let s3 := noteForeign (engineWrite s2 pa (leBytes n (atomNew p old op.1 op.2))) pa n
            .next (if ret then sendReply s3 m e dest (atomWords p old) true else s3.countC m.job dest)
        | _ => .next s1

/-- A reply arrives: the requester's registers receive the data, and C counts it (R347). -/
def execReplyArrival (m : Msg) (e : Envelope) (dest : Nat) (bad : Bool) (s : State) : Host.Outcome State Fault Refusal :=
  if !arrives s m e dest 4 then .next s
  else if bad then .next (loseAt s m e dest 5)
  else
    match s.requestOf m with
    | none => .next (loseAt s m e dest 4)
    | some q => .next ((giveRemote (accept s e dest) q m.payload).countC m.job dest)

/-- The notice of a failed remote access reaches the sending interface (R481): `cls`, `code` and `detail` of the record. -/
def execFailureNotice (iface : Nat) (seq : Word) (cls code detail : Nat) (s : State) : Host.Outcome State Fault Refusal :=
  match s.sentBy iface seq with
  | none => .next s
  | some x =>
    let key := ((s.modl.number, iface, seq), cls, code, detail)
    let mine := x.destMod == s.modl.number
    if (if mine then s.fabric.failed.contains key else (cls == 10 && code == 6) || (cls == 12 && code == 5)) then
      let s1 : State := { s with fabric := { s.fabric with failed := s.fabric.failed.erase key } }
      .next (s1.deferFor x.team x.origin
        { cls := cls, code := code, detail := detail % 65536, addr := x.msg.address, pc := x.pc, originPc := x.pc,
          originTime := x.msg.timestamp.toNat, detected := s.time, lanes := laneBit x.origin.lane,
          crew := some x.origin.slot })
    else .next s

/-- A flit passes a link: its CRC and retry have no effect that programs see (R453). -/
def execFabricFlit (port : Nat) (s : State) : Host.Outcome State Fault Refusal := .next s

/-! ## Handler crews (R187, R188) -/

/-- A crew of a team is a handler crew, and free. -/
def freeHandler (s : State) (team crew : Nat) : Bool :=
  match s.team? team, s.crew? ⟨team, crew⟩ with
  | some tm, some c =>
    tm.crews ≤ crew && crew < tm.crews + tm.handlers && c.handling.isNone &&
      c.allThread fun t => t.exited && t.out.isEmpty && t.readyAt ≤ s.cycle
  | _, _ => false

/-- A team whose threads do not issue for now: stopped, or named for pre-emption or abort. -/
def Team.held (t : Team) : Bool := t.stopped || t.stopWanted.isSome || t.breakHit.isSome || t.preempt || t.abort

/-- A thread of a handler crew as it starts on a message (R188); its lane-private memory reads as zero (R101). -/
def Thread.handle (old : Thread) (entry : DWord) (cycle lane : Nat) (m : Msg) : Thread :=
  let t := { Thread.start entry cycle with fpAtoms := old.fpAtoms }
  { t with g := (((((t.g.set! 0 (m.payload.getD lane 0)).set! 1 m.sender).set! 2 (BitVec.ofNat 32 (4 * m.length))).set! 3
      (m.selector.setWidth 32)).set! 4 (m.timestamp.setWidth 32)).set! 5 ((m.timestamp >>> 32).setWidth 32) }

/-- A free handler crew takes the oldest message of its team's queue; handler entry is an acquire. The oldest message of the
ring takes the place in the queue. A message that the interface's buffer has lost to an uncorrectable error leaves the queue and is
counted in L (R455). -/
def execHandlerStart (team crew : Nat) (s : State) : Host.Outcome State Fault Refusal :=
  match s.team? team, s.teamLaunch? team with
  | some tm, some (_, l) =>
    match tm.incoming with
    | [] => .next s
    | x :: rest =>
      if s.flaws.contains (.queued x.env.modNum x.env.iface x.env.sequence) then
        .next (loseAt (s.setTeam team fun tm => { tm with incoming := rest ++ tm.ring.take 1, ring := tm.ring.drop 1 })
          x.msg x.env x.iface 5)
      else if freeHandler s team crew && !tm.held && s.reached x.msg then
        let core := tm.core
        let h := x.msg.selector.toNat
        let word := fun (s : State) (w : Nat) =>
          match s.bankHeld core tm.launch 7 w with
          | some v => (s, v)
          | none =>
            match bankRead s core l.ctx false l 7 w with
            | (s1, .ok v) => (s1, v)
            | (s1, .error _) => let y := s1.takeFree; (y.2, y.1)
        let lo := word s (2 * h)
        let hi := word lo.1 (2 * h + 1)
        let entry := BitVec.ofNat 64 (lo.2.toNat + 2 ^ 32 * hi.2.toNat)
        let s1 := hi.1.setTeam team fun tm =>
          { tm with incoming := rest ++ tm.ring.take 1, ring := tm.ring.drop 1 }
        let s2 := s1.setCrew ⟨team, crew⟩ fun c =>
          { Crew.start c.slot entry s.cycle with
            threads := c.threads.mapIdx fun lane t => t.handle entry s.cycle lane x.msg
            handling := some x.msg
            handlingIface := x.iface }
        .next (acquire s2 ⟨team, crew⟩)
      else .next s
  | _, _ => .next s

/-- A handler retires: all its threads have ended and its sends are counted in I; a release, then C (R188, R190). -/
def execHandlerRetirement (team crew : Nat) (s : State) : Host.Outcome State Fault Refusal :=
  let c : CRef := ⟨team, crew⟩
  match s.crew? c with
  | none => .next s
  | some w =>
    match w.handling with
    | none => .next s
    | some m =>
      if w.unsent = 0 && (w.allThread fun t => t.exited && t.trap.isNone) && !s.relBlocked c then
        let s1 := release s c 0 0
        let s2 := s1.setCrew c fun w =>
          { w with handling := none, threads := w.threads.map fun t => { t with readyAt := s.cycle + 1, rankAt := s.cycle + 1 } }
        .next (s2.countC m.job w.handlingIface)
      else .next s

end Sys2Proof.Machine
end

