-- ==== Sys2Proof/Machine/Waves.lean ====
section
/-!
DEFINITION. The Firefly wave and `WAITQ` (R182, R192 to R196, R349, R457, R458).
-/
namespace Sys2Proof.Machine

def addSums (a b : Sums) : Sums := ⟨a.i + b.i, a.c + b.c, a.l + b.l⟩
def noSums : Sums := ⟨0, 0, 0⟩
/-- The snapshot of an interface. -/
def Counters.sums (c : Counters) : Sums := ⟨c.i, c.c, c.l⟩

/-- The ports of a port set. -/
def portList (p : BitVec 96) : List Nat := (upto 96).filter fun i => p.getLsbD i

/-- A pass as the module begins it. -/
def Wave.begin (number pass requested : Nat) (j : Job) (broken : Bool) : Wave :=
  ⟨number, pass, requested, 0, portList j.childPorts, noSums, none, broken, false, none⟩

/-- A die in warm reset keeps a pass from completing (R476). -/
def State.anyReset (s : State) : Bool := s.dies.any fun d => d.2.inReset

/-- Requests go down to the child ports. -/
def sendDown (s : State) (j : Job) (kind : Nat) (vals : List DWord) : State :=
  (portList j.childPorts).foldl (fun s p => s.emit kind (BitVec.ofNat 64 p :: j.number.setWidth 64 :: vals)) s

/-- A wave number is higher than another: by less than 2^31 ahead of it, since the 32-bit numbers wrap (assumption 88). -/
def laterWave (old new : Nat) : Bool :=
  let d := (new + 2 ^ 32 - old % 2 ^ 32) % 2 ^ 32
  0 < d && d < 2 ^ 31

/-- The root starts a wave: the last verdict is sent, and the period has passed since the last start (R195). -/
def execWaveStart (job : BitVec 16) (s : State) : Host.Outcome State Fault Refusal :=
  match s.job? job with
  | none => .next s
  | some j =>
    if j.treeSet && j.root && j.wave.isNone && ((j.lastWave == 0 && j.reached == 0) || j.lastStart + j.period.toNat ≤ s.time) then
      let n := (j.lastWave + 1) % 2 ^ 32
      let s1 := s.setJob job fun j =>
        { j with lastWave := n, lastStart := s.time, wave := some (Wave.begin n 1 s.time j s.anyReset) }
      .next (sendDown s1 j 6 [BitVec.ofNat 64 n, 1])
    else .next s

/-- The module joins a pass whose request reaches it from its parent; at the root the root logic has begun it. A wave that a die
reset has broken stays so in its second pass (R476). -/
def joinPass (s : State) (j : Job) (number pass : Nat) : State :=
  let fresh :=
    match j.wave with
    | none => true
    | some w => laterWave w.number number || (w.number == number && w.pass < pass)
  let broken := s.anyReset || match j.wave with | some w => w.number == number && w.broken | none => false
  if !j.root && fresh then
    let s1 := s.setJob j.number fun j => { j with wave := some (Wave.begin number pass s.time j broken) }
    sendDown s1 j 6 [BitVec.ofNat 64 number, BitVec.ofNat 64 pass]
  else s

/-- A pass request reaches an interface, which takes its snapshot in one cycle (R192). An interface of a die in reset does
not answer. -/
def execPassRequest (job : BitVec 16) (number pass iface : Nat) (s : State) : Host.Outcome State Fault Refusal :=
  match s.job? job with
  | none => .next s
  | some j =>
    if !j.treeSet || 96 ≤ iface || (s.die (iface / 24)).inReset || pass < 1 || 2 < pass then .next s
    else
      let s1 := joinPass s j number pass
      match (s1.job? job).bind (·.wave) with
      | none => .next s1
      | some w =>
        if w.number == number && w.pass == pass && !w.taken.getLsbD iface then
          let w1 := { w with taken := w.taken ||| (1#96 <<< iface),
                             acc := addSums w.acc (j.counters.getD iface ⟨0, 0, 0⟩).sums }
          .next (s1.setJob job fun j =>
            { j with wave := some w1, lastPass1 := if pass = 1 && (j.lastPass1 == 0 || laterWave j.lastPass1 number) then number else j.lastPass1 })
        else .next s1

/-- The sums of a child port return (R182). -/
def execChildPortSum (job : BitVec 16) (number pass port : Nat) (q : Sums) (s : State) : Host.Outcome State Fault Refusal :=
  match (s.job? job).bind (·.wave) with
  | none => .next s
  | some w =>
    if w.number == number && w.pass == pass && w.children.contains port then
      .next (s.setJob job fun j =>
        { j with wave := some { w with acc := addSums w.acc q, children := w.children.erase port } })
    else .next s

/-- The kind of a verdict from the sums of the two passes (R193, R458). -/
def verdictKind (a b : Sums) : Nat :=
  if a = b then (if b.i = b.c + b.l then 0 else if b.i.toNat < (b.c + b.l).toNat then 3 else 1) else 1

/-- A pass was requested 1 ms ago or earlier: the root ends its wave (R457). -/
def Wave.late (w : Wave) (time : Nat) : Bool := w.result.isNone && w.requested + 1000000 ≤ time

/-- A pass is complete at the module: its sum goes up to the parent; at the root the second pass is requested, or the
verdict is known (R182, R192, R193). -/
def execPassComplete (job : BitVec 16) (s : State) : Host.Outcome State Fault Refusal :=
  match s.job? job with
  | none => .next s
  | some j =>
    match j.wave with
    | none => .next s
    | some w =>
      if w.taken == BitVec.allOnes 96 && w.children.isEmpty && !w.broken && !w.finished && w.result.isNone &&
          !(j.root && w.late s.time) then
        let put := fun (s : State) (w : Wave) => s.setJob job fun j => { j with wave := some w }
        if !j.root then
          .next ((put s { w with finished := true }).emit 7
            [BitVec.ofNat 64 j.parent, job.setWidth 64, BitVec.ofNat 64 w.number, BitVec.ofNat 64 w.pass, w.acc.i, w.acc.c, w.acc.l])
        else
          match w.first with
          | none =>
            let w2 := { Wave.begin w.number 2 s.time j s.anyReset with first := some w.acc }
            .next (sendDown (put s w2) j 6 [BitVec.ofNat 64 w.number, 2])
          | some a => .next (put s { w with finished := true, result := some (verdictKind a w.acc, w.acc) })
      else .next s

/-- A pass not complete 1 ms after its request: the root ends the wave (R457). -/
def execWaveIncomplete (job : BitVec 16) (s : State) : Host.Outcome State Fault Refusal :=
  match s.job? job with
  | none => .next s
  | some j =>
    match j.wave with
    | none => .next s
    | some w =>
      if j.root && w.late s.time then
        .next (s.setJob job fun j => { j with wave := some { w with finished := true, result := some (2, j.lastSums) } })
      else .next s

/-! ## Verdicts and WAITQ (R196, R458) -/

/-- The status with which a verdict releases an armed thread, if it does. -/
def quietStatus (kind : Nat) (q : Sums) (recorded : DWord) : Option Word :=
  match kind with
  | 0 => some (if q.l = recorded then 0 else 1)
  | 2 => some 2
  | 3 => some 3
  | _ => none

/-- What a verdict makes of a waiting thread. -/
def Thread.hearVerdict (cycle number kind : Nat) (q : Sums) (t : Thread) : Thread :=
  match t.wait with
  | .quiet d (some (n, l)) =>
    if laterWave n number then
      match quietStatus kind q l with
      | some v => (if t.reg d = v then t.setReg d v else (t.setReg d v).stirred).wakeAt (cycle + 1)
      | none => t
    else t
  | _ => t

/-- The verdict reaches a die: every armed thread of the job there is released by it at once; a quiet one is an acquire. -/
def releaseQuiet (s : State) (job : BitVec 16) (number kind : Nat) (q : Sums) (die : Nat) : State :=
  let cs := s.crews.filterMap fun x =>
    match s.teamLaunch? x.1.team with
    | some (_, l) => if l.job == job && dieOf (s.teamCore x.1.team) == die then some x.1 else none
    | none => none
  cs.foldl (fun s c =>
    let woken := match s.crew? c with
      | some w => w.anyThread fun (t : Thread) => t.hearVerdict s.cycle number kind q != t
      | none => false
    let s1 := s.setCrew c fun w => { w with threads := w.threads.map (Thread.hearVerdict s.cycle number kind q) }
    if woken && kind = 0 then acquire s1 c else s1) s

/-- A verdict reaches a die of the module: at the root the one its wave has given, else one from the parent. Each verdict
reaches every die before the next one comes. An incomplete verdict has no sums: those of the verdict before it stay. -/
def execVerdict (job : BitVec 16) (number kind : Nat) (sums : Sums) (die : Nat) (s : State) :
    Host.Outcome State Fault Refusal :=
  match s.job? job with
  | none => .next s
  | some j =>
    let q := if kind = 2 then j.lastSums else sums
    let again := j.lastVerdict == number && j.lastKind == kind && j.lastSums == q && j.reached != 0
    let first :=
      (j.reached == 0 || (j.reached == 15 && laterWave j.lastVerdict number)) &&
        (if j.root then (match j.wave with | some w => w.number == number && w.result == some (kind, q) | none => false)
         else j.treeSet && kind < 4)
    if 4 ≤ die || !(first || (again && !j.reached.getLsbD die)) then .next s
    else
      let s1 :=
        if first then
          let s2 := s.setJob job fun j =>
            { j with lastVerdict := number, lastKind := kind, lastSums := q, reached := 1#4 <<< die, wave := none }
          sendDown s2 j 8 [BitVec.ofNat 64 number, BitVec.ofNat 64 kind, q.i, q.c, q.l]
        else s.setJob job fun j => { j with reached := j.reached ||| (1#4 <<< die) }
      .next (releaseQuiet s1 job number kind q die)

/-- `WAITQ` (R196, R349): it issues once the crew's earlier sends are counted in I, and arms with the last wave whose pass-1
request reached the module and the last verdict's ΣL. -/
def waitqLane (f : Rd) (r : TRef) (s : State) : LaneRes :=
  let job := match s.teamLaunch? r.team with | some (_, l) => l.job | none => 0
  if s.isDet r.team then .trap s { cls := 5, code := 12 }
  else if job = 0 then .trap s { cls := 5, code := 13 }
  else
    match s.crew? r.cref with
    | none => .ok s
    | some c =>
      if c.unsent != 0 then .stall s
      else
        let armed := match s.job? job with
          | some j => (j.lastPass1, if j.reached = 0 then (0 : DWord) else j.lastSums.l)
          | none => (0, 0)
        .ok (s.setThread r fun t => { t with wait := .quiet f.d (some armed) })

def execWaitq (f : Rd) (s : State) : Host.Outcome State Fault Refusal :=
  issue (.waitq f) s fun s => s.eachLane (.waitq f) (waitqLane f)

end Sys2Proof.Machine
end

