-- ==== Sys2Proof/Machine/Launches.lean ====
section
/-!
DEFINITION. Launch packets and their acceptance (R216 to R221, R424), the room of cores and the placement of teams (R37 to
R41, R68, R100, R222 to R226, R469), and team admission.
-/
namespace Sys2Proof.Machine

/-! ## The launch packet (R216 to R219) -/

/-- A field of a packet: `n` bytes from byte `a`. -/
def pk (b : List Byte) (a n : Nat) : Nat := leNat ((b.drop a).take n)

/-- The policy word that a launch takes from its packet: a word of 0 gives none, and the launch takes the reset values of R205
(assumption 90). -/
def givenPolicy (p : Nat) : Nat := if p = 0 then 0x6C05 else p

def launchOf (b : List Byte) : Launch :=
  let shape := pk b 72 4
  let local_ := pk b 76 4
  let shared := pk b 80 4
  let flags := pk b 84 4
  { ctx := pk b 68 2, tag := BitVec.ofNat 64 (pk b 88 8), entry := BitVec.ofNat 64 (pk b 0 8),
    code := BitVec.ofNat 64 (pk b 8 8), c0 := BitVec.ofNat 64 (pk b 16 8), counter := BitVec.ofNat 64 (pk b 24 8),
    aux := BitVec.ofNat 64 (pk b 32 8), ringAddr := BitVec.ofNat 64 (pk b 40 8), ringCap := pk b 70 2, auxCap := pk b 48 4,
    rankBase := pk b 52 4, job := BitVec.ofNat 16 (pk b 66 2), x := pk b 60 2 + 1, y := pk b 62 2 + 1, z := pk b 64 2 + 1,
    stages := bits shape 10 8 + 1, crews := bits shape 3 0 + 1, handlers := bits shape 6 4, tags := bits shape 22 16,
    scratch := 256 * bits local_ 12 0, lanePriv := 16 * bits local_ 26 16, shared := 32768 * bits shared 6 0,
    chip := 65536 * bits shared 25 16, cls := bits flags 5 4, notify := bit flags 3, det := bit flags 2,
    array := bit flags 1, coop := bit flags 0, cores := BitVec.ofNat 256 (pk b 96 32),
    policy := if bit flags 2 then BitVec.ofNat 32 (givenPolicy (pk b 56 4)) &&& ~~~1
      else BitVec.ofNat 32 (givenPolicy (pk b 56 4)),
    accepted := 0, order := 0, next := 0, retired := 0, out := [], breakpoints := [], early := [], atoms := [], atomsRaced := false,
    escapeCount := 0, dropCount := 0, dropped := false, fromHost := false, done := false }

/-- Teams of a launch (R39). -/
def Launch.total (l : Launch) : Nat := l.x * l.y * l.z * l.stages

/-- A reserved field that is not zero. -/
def packetReserved (b : List Byte) : Bool :=
  let shape := pk b 72 4
  let local_ := pk b 76 4
  let shared := pk b 80 4
  let p := pk b 56 4
  bits shape 31 23 != 0 || bits shape 15 11 != 0 || bit shape 7 || bits local_ 31 27 != 0 || bits local_ 15 13 != 0 ||
  bits shared 31 26 != 0 || bits shared 15 7 != 0 || bits (pk b 84 4) 31 6 != 0 || bits p 31 16 != 0 || bits p 5 4 != 0

/-- A reserved value of a policy word (R205). -/
def policyReserved (p : Nat) : Bool := 10 < bits p 15 12 || bits p 11 8 < 8 || bits p 7 6 == 3 || bits p 3 2 == 3

/-- A field value outside its range, an entry that is not canonical among them. -/
def packetRange (b : List Byte) (l : Launch) : Bool :=
  64 < l.tags || 4 < l.handlers || 16 < l.crews + l.handlers || 16384 < l.lanePriv || 1048576 < l.scratch ||
  512 * 65536 < l.chip || 64 * 32768 < l.shared || 2 ^ 32 < l.total || 2 ^ 32 < l.rankBase + l.total ||
  2 ^ 52 ≤ l.entry.toNat || policyReserved (givenPolicy (pk b 56 4)) || (l.det && l.job != 0) || l.counter.toNat % 8 != 0 || (l.job == 0 && l.ringAddr != 0)

/-- The device cores of a mask, ascending. -/
def coreList (m : BitVec 256) : List Nat := (upto 256).filter fun c => m.getLsbD c
/-- Clusters that are whole in a mask (R68). -/
def wholeClusters (m : BitVec 256) : List Nat := (upto 32).filter fun c => (upto 8).all fun q => m.getLsbD (8 * c + q)

/-! ## Room (R37, R119) -/

/-- What a team or task asks of a core. -/
structure Need where
  launch : Nat
  crews : Nat
  scratch : Nat
  lane : Nat
  tags : Nat
  array : Bool
  shared : Nat
  chip : Nat
  det : Bool
  order : Nat

def Launch.need (l : Launch) (id : Nat) : Need :=
  ⟨id, l.crews + l.handlers, l.scratch, l.lanePriv * (l.crews + l.handlers), l.tags, l.array, l.shared, l.chip, l.det, l.order⟩

/-- Teams of a launch that an empty core holds. -/
def Need.capacity (n : Need) : Nat :=
  let a := 16 / max 1 n.crews
  let b := if n.scratch = 0 then a else min a (1048576 / n.scratch)
  let c := if n.lane = 0 then b else min b (16384 / n.lane)
  let d := if n.tags = 0 then c else min c (64 / n.tags)
  if n.array then min d 1 else d

/-- The room one resident team takes: scratchpad with its write buffer. -/
def Team.scratchHeld (t : Team) : Nat :=
  t.scratchSize + (match t.task with | some k => 1024 * k.capacity | none => 0)

/-- Free contiguous base of a size on multiples of a granule, beside the allocations of a place; the lowest. -/
def freeBase (taken : List (Nat × Nat)) (total granule size : Nat) : Option Nat :=
  ((upto (total / granule)).map fun i => granule * i).find? fun b =>
    b + size ≤ total && taken.all fun t => b + size ≤ t.1 || t.1 + t.2 ≤ b

def clusterBase (s : State) (cluster size : Nat) : Option Nat :=
  freeBase (s.clu.filterMap fun a => if a.1.2 = cluster then some (a.2.base, a.2.size) else none) (2 * 1048576) 32768 size
def chipBase (s : State) (die size : Nat) : Option Nat :=
  freeBase (s.chip.filterMap fun a => if a.1.2 = die then some (a.2.base, a.2.size) else none) (32 * 1048576) 65536 size

/-- Teams resident on a core. -/
def State.residents (s : State) (core : Nat) : List Team :=
  s.teams.filterMap fun t => if t.2.core = core then some t.2 else none

/-- Free crew slots of a core. -/
def State.freeSlots (s : State) (core : Nat) : Nat :=
  16 - (s.residents core).foldl (fun n t => n + t.crews + t.handlers) 0

/-- A core meets R37, R67 and R119 for a team now; a die in warm reset, or re-admitted since, admits nothing older (R474,
R477). -/
def State.fits (s : State) (core : Nat) (n : Need) : Bool :=
  let ts := s.residents core
  let sum := fun (f : Team → Nat) => ts.foldl (fun a t => a + f t) 0
  let d := s.die (dieOf core)
  let others := ts.filter fun t => t.launch != n.launch
  sum (fun t => t.crews + t.handlers) + n.crews ≤ 16 &&
  sum Team.scratchHeld + n.scratch ≤ 1048576 &&
  sum (fun t => t.laneSize * (t.crews + t.handlers)) + n.lane ≤ 16384 &&
  sum Team.tagCount + n.tags ≤ 64 &&
  !(n.array && ts.any fun t => t.array.isSome) &&
  (n.shared = 0 || (Tbl.at? s.clu (n.launch, clusterOf core)).isSome || (clusterBase s (clusterOf core) n.shared).isSome) &&
  (n.chip = 0 || (Tbl.at? s.chip (n.launch, dieOf core)).isSome || (chipBase s (dieOf core) n.chip).isSome) &&
  (if n.det then others.isEmpty
   else !(others.any fun t => match s.launch? t.launch with | some l => l.det | none => false)) &&
  !d.inReset && d.admitFrom ≤ n.order

/-! ## Acceptance (R221, R424) -/

/-- Coordinates of a launch with stages that empty clusters of its mask hold, one after another by the rule of q0. -/
def stageRoom (mask : BitVec 256) (stages cap : Nat) : Nat :=
  ((upto 32).map fun c => go c ((upto 8).map fun q => if mask.getLsbD (8 * c + q) then cap else 0) (8 * cap)).foldl (· + ·) 0
where
  go (c : Nat) (room : List Nat) : Nat → Nat
    | 0 => 0
    | fuel + 1 =>
      match (upto 8).find? fun q0 => (upto stages).all fun st => 0 < room.getD ((q0 + st) % 8) 0 with
      | none => 0
      | some q0 =>
        1 + go c (room.zipIdx.map fun r => if (upto stages).any fun st => (q0 + st) % 8 == r.2 then r.1 - 1 else r.1) fuel

/-- Teams of a launch that its mask holds at once with no other team resident. -/
def Launch.roomFor (l : Launch) : Nat :=
  let k := (l.need 0).capacity
  if l.stages = 1 then k * (coreList l.cores).length
  else if l.det then k * (wholeClusters l.cores).length * l.stages
  else stageRoom l.cores l.stages k * l.stages

/-- The status of a packet: the first cause in the order 3 to 10, then 1 and 2 (assumption 45). -/
def packetStatus (s : State) (b : List Byte) (l : Launch) : Nat :=
  let root := match s.ctx? l.ctx with | some c => c.ptroot.toNat | none => 1
  if packetReserved b then 3
  else if packetRange b l then 4
  else if l.cores = 0 then 5
  else if root % 65536 != 0 || 2 ^ 42 ≤ root || inHole root then 6
  else if s.modl.lifecycle = 3 then 7
  else if l.entry.toNat % 4 != 0 || l.code.toNat % 4096 != 0 || l.c0.toNat % 256 != 0 then 8
  else if l.job != 0 && (s.job? l.job).isNone then 9
  else if (l.need 0).capacity = 0 || (l.stages != 1 && stageRoom l.cores l.stages 1 = 0) then 10
  else if l.coop && l.roomFor < l.total && !(l.det && l.stages != 1 && (wholeClusters l.cores).isEmpty) then 1
  else if l.det && l.stages != 1 && (wholeClusters l.cores).isEmpty then 2
  else 0

/-- The coordinator takes a packet: an accepted launch waits as pending. -/
def takePacket (s : State) (b : List Byte) (host : Bool) : State × Nat :=
  let l := launchOf b
  let k := packetStatus s b l
  if k = 0 then
    let x := s.takeSerial
    ({ x.2 with launches := x.2.launches ++ [(x.1, { l with accepted := s.time, order := x.1, fromHost := host })] }, 0)
  else (s, k)

/-- A thread's outstanding result gets its values; `RESULT_RETURN` writes them. -/
def giveValues (s : State) (r : TRef) (id : Nat) (ws : List Word) : State :=
  s.setCrewAny r.cref fun c => c.giveOut r.lane id ws

/-- A packet from the host, or the oldest that a `LAUNCH` sent (R221). -/
def execLaunchPacket (bytes : List Byte) (host : Bool) (s : State) : Host.Outcome State Fault Refusal :=
  if host then
    if bytes.length = 128 then
      let x := takePacket s bytes true
      .next (x.1.tell (.launchStatus (BitVec.ofNat 64 (pk bytes 88 8)) x.2))
    else .next s
  else
    match s.packets with
    | [] => .next s
    | (b, w) :: rest =>
      let x := takePacket { s with packets := rest } b false
      match w with
      | some (r, id) => .next (giveValues x.1 r id [BitVec.ofNat 32 x.2])
      | none => .next x.1

/-! ## Order and placement (R222 to R226, R469) -/

/-- The effective class after a wait (R222). -/
def effClass (cls since now : Nat) : Nat := min 3 (cls + (now - since) / 50000)

/-- Teams of a launch out by pre-emption, tasks included, by ascending index. -/
def State.outTeams (s : State) (launch : Nat) : List Image :=
  (s.images.filter fun i => i.data.launch == launch).foldl (fun l i => insertBy i l) []
where
  insertBy (i : Image) : List Image → List Image
    | [] => [i]
    | x :: xs => if i.data.index < x.data.index then i :: x :: xs else x :: insertBy i xs

/-- A launch has teams to admit or to restore. -/
def State.waiting (s : State) (id : Nat) (l : Launch) : Bool :=
  (!l.done && l.next < l.total) || s.images.any fun i => i.data.launch == id

/-- Pending launches in the order of R222. -/
def State.pendingLaunches (s : State) : List (Nat × Launch) :=
  (s.launches.filter fun x => s.waiting x.1 x.2).foldl (fun acc x => place x acc) []
where
  before (x y : Nat × Launch) : Bool :=
    let a := effClass x.2.cls x.2.accepted s.time
    let b := effClass y.2.cls y.2.accepted s.time
    b < a || (a == b && x.2.order < y.2.order)
  place (x : Nat × Launch) : List (Nat × Launch) → List (Nat × Launch)
    | [] => [x]
    | y :: ys => if before x y then x :: y :: ys else y :: place x ys

/-- The first of the best by a list of keys, each to be as great as possible. -/
def bestBy {α : Type} (key : α → List Nat) : List α → Option α
  | [] => none
  | x :: xs =>
    match bestBy key xs with
    | none => some x
    | some y => if lexLt (key x) (key y) then some y else some x
where
  lexLt : List Nat → List Nat → Bool
    | a :: as, b :: bs => if a = b then lexLt as bs else a < b
    | _, _ => false

/-- The mask's cores that may take a team now, dies that a blocked launch reserves apart. -/
def Launch.open_ (l : Launch) (banned : List Nat) : List Nat :=
  (coreList l.cores).filter fun c => !banned.contains (dieOf c)

/-- Free crew slots of the mask's cores of a die. -/
def dieFree (s : State) (l : Launch) (die : Nat) : Nat :=
  ((coreList l.cores).filter fun c => dieOf c == die).foldl (fun n c => n + s.freeSlots c) 0

/-- The core of a team with one stage outside deterministic mode (R224). -/
def chooseCore (s : State) (l : Launch) (n : Need) (cores : List Nat) : Option Nat :=
  bestBy (fun c => [s.freeSlots c, dieFree s l (dieOf c)]) (cores.filter fun c => s.fits c n)

/-- The cores of the stages of one coordinate (R224). -/
def chooseStages (s : State) (l : Launch) (n : Need) (cores : List Nat) : Option (List Nat) :=
  let spot := fun (c : Nat) => (upto 8).findSome? fun q0 =>
    let ps := (upto l.stages).map fun st => 8 * c + (q0 + st) % 8
    if ps.all fun p => cores.contains p && s.fits p n then some ps else none
  let free := fun (c : Nat) => (upto 8).foldl (fun a q => if l.cores.getLsbD (8 * c + q) then a + s.freeSlots (8 * c + q) else a) 0
  (bestBy (fun (x : Nat × List Nat) => [free x.1]) ((upto 32).filterMap fun c => (spot c).map fun ps => (c, ps))).map (·.2)

/-- The device core of a logical core (R68). -/
def logicalCore (l : Launch) (index : Nat) : Option Nat :=
  if l.stages = 1 then
    let cs := coreList l.cores
    cs[index % max 1 cs.length]?
  else
    let ws := wholeClusters l.cores
    (ws[index / l.stages % max 1 ws.length]?).map fun c => 8 * c + index % l.stages

/-- A core stands in place of another: a team of the launch is on it that is mapped to another core (R469). -/
def standsIn (s : State) (id : Nat) (l : Launch) (core : Nat) : Bool :=
  s.teams.any fun t => t.2.launch == id && t.2.task.isNone && t.2.core == core && logicalCore l t.2.index != some core

/-- The cores of the next teams of a launch: one team, or the stages of one coordinate; none while they do not fit. -/
def placeNext (s : State) (id : Nat) (l : Launch) (banned : List Nat) : Option (List Nat) :=
  let n := l.need id
  let cores := l.open_ banned
  if l.det then
    let cs := (upto l.stages).map fun st => logicalCore l (l.next + st)
    if cs.all fun c => match c with
        | some c => cores.contains c && s.fits c n && !standsIn s id l c
        | none => false
    then some (cs.map fun c => c.getD 0) else none
  else if l.stages = 1 then (chooseCore s l n cores).map fun c => [c]
  else chooseStages s l n cores

/-! ## Admission (R31, R33, R38, R101, R189) -/

/-- The lowest free crew slots of a core. -/
def State.slots (s : State) (core n : Nat) : List Nat :=
  let used := s.crews.filterMap fun c => if s.teamCore c.1.team = core && (s.team? c.1.team).isSome then some c.2.slot else none
  ((upto 16).filter fun i => !used.contains i).take n

/-- The allocations of a launch in a cluster and on a die, zero when its first team comes (R100, R101). -/
def placeAllocs (s : State) (id shared chip core : Nat) : State :=
  let s1 :=
    if shared = 0 || (Tbl.at? s.clu (id, clusterOf core)).isSome then s
    else { s with clu := s.clu ++ [((id, clusterOf core), ⟨(clusterBase s (clusterOf core) shared).getD 0, shared, []⟩)] }
  if chip = 0 || (Tbl.at? s1.chip (id, dieOf core)).isSome then s1
  else { s1 with chip := s1.chip ++ [((id, dieOf core), ⟨(chipBase s1 (dieOf core) chip).getD 0, chip, []⟩)] }

/-- A team with nothing of its own yet. -/
def Team.start (launch index core crews handlers : Nat) (l : Launch) : Team :=
  let j := index / l.stages
  { launch := launch, index := index, x := BitVec.ofNat 32 (j % l.x), y := BitVec.ofNat 32 (j / l.x % l.y),
    z := BitVec.ofNat 32 (j / (l.x * l.y)), stage := index % l.stages,
    rank := ((coreList l.cores).filter fun c => c < core).length, core := core, crews := crews, handlers := handlers,
    task := none, scratch := [], scratchSize := l.scratch, laneSize := l.lanePriv, barPhase := Vector.replicate 16 0,
    barOrder := [], tagCount := l.tags, tags := BitVec.ofNat 64 (2 ^ l.tags - 1), baton := 0,
    array := if l.array then some Matrix.start else none, solve := Solve.start, deferred := [], incoming := [], ring := [],
    usedIds := [], usedAll := false, stopped := false, stopWanted := none, breakHit := none, preempt := false,
    preemptAt := 0, preemptLate := false, abort := false, lastEnd := none, escapeFault := false }

/-- A handler crew as the team starts: free. -/
def Crew.idle (slot : Nat) (entry : DWord) (cycle : Nat) : Crew :=
  let c := Crew.start slot entry cycle
  { c with threads := c.threads.map fun t => { t with exited := true } }

/-- Some team of a deterministic launch is out that was on a core: its crews wait, so that their order does not show the
pre-emption (R69, R468). -/
def State.coreWaits (s : State) (core : Nat) : Bool :=
  s.images.any fun i => i.data.core == core && (match s.launch? i.data.launch with | some l => l.det | none => false)

/-- A crew is the running one of a core's coroutines. -/
def State.setRunning (s : State) (core : Nat) (c : CRef) : State :=
  let index := match s.team? c.team with | some t => t.index | none => 0
  s.setCore core fun k => { k with running := some c, turn := (index, c.crew) }

/-- Enters a team and its crews on its core: crews take the lowest free slots, then the handler crews; its first group issues
no earlier than the next cycle (R38, R72). The start is an acquire (R125). -/
def enterTeam (s : State) (t : Team) (entry : DWord) : State :=
  let x := s.takeSerial
  let slots := s.slots t.core (t.crews + t.handlers)
  let crews := (upto (t.crews + t.handlers)).map fun i =>
    let slot := slots.getD i 0
    (⟨x.1, i⟩, if i < t.crews then Crew.start slot entry (s.cycle + 1) else Crew.idle slot entry (s.cycle + 1))
  let run := (s.core t.core).running
  let detLaunch := match s.launch? t.launch with | some l => l.det | none => false
  let s1 := acquireCore { x.2 with teams := x.2.teams ++ [(x.1, t)], crews := x.2.crews ++ crews } t.core
  if detLaunch && run.isNone && !s.coreWaits t.core then s1.setRunning t.core ⟨x.1, 0⟩ else s1

/-- Admits the next team of a launch on a core: its allocations, its crews, and the messages that waited for it. -/
def admitTeam (s : State) (id core : Nat) : State :=
  match s.launch? id with
  | none => s
  | some l =>
    let s1 := placeAllocs s id l.shared l.chip core
    let early := Tbl.atD l.early l.next []
    let t := { Team.start id l.next core l.crews l.handlers l with
      incoming := early.take Config.incomingQueue, ring := early.drop Config.incomingQueue }
    let s2 := enterTeam s1 t l.entry
    s2.setLaunch id fun l => { l with next := l.next + 1, early := Tbl.del l.early (l.next) }

/-- Admits the teams of one coordinate. -/
def admitUnit (s : State) (id : Nat) (cores : List Nat) : State := cores.foldl (fun s c => admitTeam s id c) s

/-- Admits all teams of a cooperative launch, if all fit at once (R225). -/
def admitWhole (s : State) (id : Nat) (banned : List Nat) : Nat → Option State
  | 0 => none
  | fuel + 1 =>
    match s.launch? id with
    | none => none
    | some l =>
      if l.total ≤ l.next then some s
      else
        match placeNext s id l banned with
        | none => none
        | some cs => admitWhole (admitUnit s id cs) id banned fuel

/-! ## Restoring (R70, R102, R162, R225, R236, R469) -/

/-- The need of an image: its own resources. -/
def Image.need (s : State) (i : Image) : Need :=
  let l := s.launch? i.data.launch
  let get := fun (f : Launch → Nat) => match l with | some l => f l | none => 0
  { launch := i.data.launch, crews := i.data.crews + i.data.handlers, scratch := i.data.scratchHeld,
    lane := i.data.laneSize * (i.data.crews + i.data.handlers), tags := i.data.tagCount, array := i.data.array.isSome,
    shared := get (·.shared), chip := get (·.chip), det := match l with | some l => l.det | none => false, order := get (·.order) }

/-- The core for one image: of a deterministic launch its logical core or a stand-in (R469), else as R224; of a launch with chip
scratchpad on the die where it was (R102). -/
def restoreCore (s : State) (i : Image) (l : Launch) (cores : List Nat) : Option Nat :=
  let n := i.need s
  let cs := if n.chip = 0 then cores else cores.filter fun c => dieOf c == dieOf i.data.core
  if l.det then
    let clean := fun (c : Nat) => (s.residents c).all fun t => t.launch == i.data.launch
    match logicalCore l i.data.index with
    | some c =>
      if clean c then (if cs.contains c && s.fits c n && !standsIn s i.data.launch l c then some c else none)
      else cs.find? fun c => (s.residents c).isEmpty && s.fits c n
    | none => none
  else chooseCore s l n cs

/-- The byte of the bitmap of a context's save area that holds the bit of a slot (R403). -/
def slotByte (s : State) (ctx slot : Nat) : Nat :=
  (match s.ctx? ctx with | some c => c.saveaddr.toNat | none => 0) + 256 + slot / 8
/-- Sets or clears the bit of a slot in the bitmap of a context's save area; whether it could be written (R234, R403). -/
def setSlotBit (s : State) (ctx core slot : Nat) (v : Bool) : State × Bool :=
  let va := slotByte s ctx slot
  match readVirt s (dieOf core) ctx true va 1 with
  | (s1, .error _) => (s1, false)
  | (s1, .ok b) =>
    let old := leNat b
    let new := if v then Nat.lor old (2 ^ (slot % 8)) else old - (if bit old (slot % 8) then 2 ^ (slot % 8) else 0)
    match writeVirt s1 (dieOf core) ctx true va (leBytes 1 new) with
    | (s2, .ok _) => (s2, true)
    | (s2, .error _) => (s2, false)

/-- A bounded wait's count of coroutine steps: an image holds what is left of it (R69, R233). -/
def Wait.shift (f : Nat → Nat) : Wait → Wait
  | .maskTimed n d k => .maskTimed n d (f k)
  | w => w

/-- Puts an image's team on a core: same serial number, same threads; crews take new slots; its copies wait in the queue of
the cluster (R236). A thread waits for what it waited for. The array finds no line in the scale cache (R161, R162). -/
def restoreOne (s : State) (i : Image) (core : Nat) : State :=
  let slots := s.slots core (i.data.crews + i.data.handlers)
  let l := s.launch? i.data.launch
  let get := fun (f : Launch → Nat) => match l with | some l => f l | none => 0
  let s1 := placeAllocs s i.data.launch (get (·.shared)) (get (·.chip)) core
  let s2 := match i.cluster with
    | some a => { s1 with clu := Tbl.upd s1.clu (i.data.launch, clusterOf core) fun b => { b with mem := a.mem } }
    | none => s1
  let det := match l with | some l => l.det | none => false
  let crews := i.crews.map fun c =>
    (c.1, { c.2 with slot := slots.getD c.1.crew 0,
                     threads := c.2.threads.map fun t => 
                       { t with wait := if det then t.wait.shift (· + (s.core core).steps) else t.wait
                                spin := Spin.none, readyAt := s.cycle + 1, rankAt := s.cycle + 1, lastIssue := 0 } })
  let rank := match l with
    | some l => if l.det then i.data.rank else ((coreList l.cores).filter fun c => c < core).length
    | none => i.data.rank
  let t : Team := { i.data with
    core := core, rank := if i.data.task.isSome then i.data.rank else rank }
  let s3 := acquireCore { s2 with teams := s2.teams ++ [(i.team, t)], crews := s2.crews ++ crews,
                                  images := s2.images.filter fun x => x.id != i.id
                                  scales := if t.array.isSome then s2.scales.filter fun x => x.core != core else s2.scales } core
  let cls := s3.teamClass i.team
  let copies := i.copies.map fun c => { c with marks := (c.claims s3).filter fun m => c.chunk ≤ m.1 }
  let s4 := s3.setCluster (clusterOf core) fun e =>
    { e with queues := e.queues.zipIdx.map fun q => if q.2 = cls then q.1 ++ copies else q.1 }
  let s5 := match i.running with
    | some c => s4.setRunning core c
    | none => s4
  let s6 := s5.setLaunch i.data.launch fun l => { l with out := l.out.erase i.data.index }
  restoreTrace (setSlotBit s6 i.ctx core i.slot false).1 i.team t
where
  /-- The restore stands in the traces that follow the team, with a sync group after it (R381). -/
  restoreTrace (s : State) (team : Nat) (t : Team) : State :=
    (s.traces.filter fun x => x.follows t).foldl (fun s x => syncGroup s x t.core true) (traceTeam s team 11 0)

/-- Two teams of a launch that leave and come back together: of a cooperative launch (R225), or of one cluster of a launch with
cluster-shared memory, tasks included (R102). -/
def Launch.joins (l : Launch) (a b : Team) : Bool :=
  (l.coop && a.task.isNone && b.task.isNone) || (l.shared != 0 && clusterOf a.core == clusterOf b.core)

/-- All the teams that come or go with some teams of a launch. -/
def Launch.joined (l : Launch) (all : List (Nat × Team)) : Nat → List (Nat × Team) → List (Nat × Team)
  | 0, ts => ts
  | fuel + 1, ts =>
    match all.filter fun x => !(ts.any fun y => y.1 == x.1) && ts.any fun y => l.joins y.2 x.2 with
    | [] => ts
    | new => l.joined all fuel (ts ++ new)

/-- Images that are restored together with one. -/
def restoreSet (s : State) (l : Launch) (i : Image) : List Image :=
  let mine := s.outTeams i.data.launch
  let set := l.joined (mine.map fun x => (x.team, x.data)) mine.length [(i.team, i.data)]
  mine.filter fun x => set.any fun y => y.1 == x.team

/-- Teams that must come back with a set of images are still on their cores, named as well. -/
def restoreWaits (s : State) (l : Launch) (is : List Image) : Bool :=
  s.teams.any fun t => t.2.preempt && is.any fun i => t.2.launch == i.data.launch && l.joins i.data t.2

/-- Places the images of a set one after another, each on one of its cores. -/
def placeImages (s : State) (l : Launch) (cores : Image → List Nat) : List Image → Option State
  | [] => some s
  | i :: is =>
    match restoreCore s i l (cores i) with
    | none => none
    | some c => placeImages (restoreOne s i c) l cores is

/-- Places a set of images in one cluster. R70 and R102 do not say which: the model takes the lowest-numbered one that holds them,
its own choice (assumption 97). -/
def placeInCluster (s : State) (l : Launch) (cores : Image → List Nat) (is : List Image) : Option State :=
  (upto 32).findSome? fun c => placeImages s l (fun i => (cores i).filter fun k => clusterOf k == c) is

/-- Groups of a restore set that share a cluster. -/
def byCluster (is : List Image) : List (List Image) :=
  ((is.map fun i => clusterOf i.data.core).eraseDups).map fun c => is.filter fun i => clusterOf i.data.core == c

/-- Places the groups: one that carries its cluster's allocation in a cluster where none of the launch stands, another where its
allocation still stands (R102). -/
def placeGroups (s : State) (l : Launch) (cores : Image → List Nat) : List (List Image) → Option State
  | [] => some s
  | g :: gs =>
    let launch := match g with | i :: _ => i.data.launch | [] => 0
    let stay := fun (c : Nat) =>
      if g.any fun i => i.cluster.isSome then (Tbl.at? s.clu (launch, clusterOf c)).isNone
      else g.all fun i => clusterOf i.data.core == clusterOf c
    match placeInCluster s l (fun i => (cores i).filter stay) g with
    | none => none
    | some s1 => placeGroups s1 l cores gs

/-- Restores the set of a launch's first image, if it fits; a task on any core (R229). -/
def restoreFirst (s : State) (id : Nat) (l : Launch) (banned : List Nat) : Option State :=
  match s.outTeams id with
  | [] => none
  | i :: _ =>
    let is := restoreSet s l i
    if restoreWaits s l is then none
    else
      let cores := fun (i : Image) =>
        if i.data.task.isSome then (upto 256).filter fun c => !banned.contains (dieOf c) else l.open_ banned
      if l.shared != 0 then placeGroups s l cores (byCluster is) else placeImages s l cores is

/-! ## The next admission (R222, R223) -/

/-- What the coordinator does next: the state after it, and whether a team was restored; the class of its launch. -/
structure Admission where
  after : State
  restored : Bool
  cls : Nat

/-- The first launch in the order of R222 whose next team fits; a blocked one of effective class 3 reserves its dies. -/
def nextAdmission (s : State) (banned : List Nat) : List (Nat × Launch) → Option Admission
  | [] => none
  | (id, l) :: rest =>
    let cls := effClass l.cls l.accepted s.time
    let blocked := fun () =>
      nextAdmission s (if cls = 3 then banned ++ ((coreList l.cores).map dieOf).eraseDups else banned) rest
    if s.images.any fun i => i.data.launch == id then
      match restoreFirst s id l banned with
      | some s1 => some ⟨s1, true, cls⟩
      | none => blocked ()
    else if l.coop then
      match admitWhole s id banned (l.total + 1) with
      | some s1 => some ⟨s1, false, cls⟩
      | none => blocked ()
    else
      match placeNext s id l banned with
      | some cs => some ⟨admitUnit s id cs, false, cls⟩
      | none => blocked ()

def State.admission (s : State) : Option Admission := nextAdmission s [] s.pendingLaunches

end Sys2Proof.Machine
end

