-- ==== Sys2Proof/Machine/Tasks.lean ====
section
/-!
DEFINITION. Tasks and what the instructions of launches do: `TSPAWN`, `TDONE`, `LAUNCH`, `PUBLISH`, `PROG`, `SUBPOL`, `SUBQ`
(R350 to R356); task queues and spill rings (R228), admission (R42, R43, R229, R423), and the retirement of tasks, teams and
launches (R71, R227, R230, R410, R437 to R439).
-/
namespace Sys2Proof.Machine

/-! ## Task queues and spill rings (R228) -/

/-- The spill ring of a core: base and entries; none for a context without rings. A k outside 6 to 24, whose fate R228 does not
give, is taken as it stands: the model's choice (assumption 102). -/
def spillRing (s : State) (ctx core : Nat) : Option (Nat × Nat) :=
  match s.ctx? ctx with
  | none => none
  | some c =>
    if c.taskspill = 0 then none
    else
      let k := bits c.taskspill.toNat 5 0
      some (bits c.taskspill.toNat 63 6 * 64 + core * (64 + 16 * 2 ^ k), 2 ^ k)

/-- Reads eight bytes as the device does. -/
def readWord64 (s : State) (die ctx va : Nat) : State × Option Nat :=
  match readVirt s die ctx true va 8 with
  | (s1, .ok bs) => (s1, some (leNat bs))
  | (s1, .error _) => (s1, none)

/-- Appends an entry to a core's spill ring; false when the ring is full, absent or out of reach. -/
def spillTask (s : State) (core : Nat) (q : QTask) : State × Bool :=
  match spillRing s q.ctx core with
  | none => (s, false)
  | some (base, n) =>
    let die := dieOf core
    match readVirt s die q.ctx true base 16 with
    | (s1, .error _) => (s1, false)
    | (s1, .ok h) =>
      let app := pk h 0 8
      if n ≤ app - pk h 8 8 then (s1, false)
      else
        match writeVirt s1 die q.ctx true (base + 64 + 16 * (app % n))
            (leBytes 8 q.record.toNat ++ leBytes 1 q.cls ++ List.replicate 7 0) with
        | (s2, .error _) => (s2, false)
        | (s2, .ok _) =>
          match writeVirt s2 die q.ctx true base (leBytes 8 (app + 1)) with
          | (s3, .error _) => (s3, false)
          | (s3, .ok _) => (s3.setCore core fun c => { c with spilled := c.spilled ++ [q] }, true)

/-- Appends a task to the queue of a core in its class, or to the spill ring; false when neither has room. -/
def appendTask (s : State) (core : Nat) (q : QTask) : State × Bool :=
  if (s.core core).tasks.length < Config.taskQueue then
    (s.setCore core fun c => { c with tasks := c.tasks ++ [q] }, true)
  else spillTask s core q

/-- The queue entry of a record: its class is that of the record's flags (R43); a record that cannot be read has a free
one. -/
def queueEntry (s : State) (team : Nat) (o : Origin) (pc record : DWord) : State × QTask :=
  let launch := match s.team? team with | some t => t.launch | none => 0
  let x := match readVirt s (dieOf o.core) o.ctx o.sup (record.toNat + 28) 4 with
    | (s1, .ok bs) => (s1, bits (leNat bs) 7 6)
    | (s1, .error _) => let y := s1.takeFree; (y.2, y.1.toNat % 4)
  (x.1, { record := record, cls := x.2, time := s.time, ctx := o.ctx, launch := launch, spawner := team, origin := o, pc := pc })

/-- `TSPAWN` in one lane: deterministic mode and the address are checked, then early commit, release, append (R350). -/
def tspawnLane (f : R1) (r : TRef) (s : State) : LaneRes :=
  let t := s.thread r
  let a := t.pair f.a
  if a.toNat % 64 != 0 then .trap s { cls := 5, code := 1, detail := f.a.toNat, addr := a }
  else if s.isDet r.team then .trap s { cls := 5, code := 12 }
  else
    afterCommit s r fun s1 => afterRelease s1 r fun s2 =>
      let x := queueEntry s2 r.team (s2.originOf r) t.pc a
      match appendTask x.1 (s.teamCore r.team) x.2 with
      | (s3, true) => .ok { s3 with cur := { s3.cur with effect := true } }
      | (s3, false) => .trap s3 { cls := 13, code := 6, addr := a }

def execTspawn (f : R1) (s : State) : Host.Outcome State Fault Refusal :=
  issue (.tspawn f) s fun s => s.eachLaneOrdered (.tspawn f) (tspawnLane f)

/-- The oldest entry of the spill ring returns to the queue as room frees. -/
def execSpillReturn (core : Nat) (s : State) : Host.Outcome State Fault Refusal :=
  match (s.core core).spilled with
  | [] => .next s
  | q :: rest =>
    if Config.taskQueue ≤ (s.core core).tasks.length then .next s
    else
      match spillRing s q.ctx core with
      | none => .next s
      | some (base, n) =>
        let die := dieOf core
        match readWord64 s die q.ctx (base + 8) with
        | (s1, none) => .next s1
        | (s1, some removed) =>
          match readVirt s1 die q.ctx true (base + 64 + 16 * (removed % n)) 16 with
          | (s2, .error _) => .next s2
          | (s2, .ok e) =>
            let q1 := { q with record := BitVec.ofNat 64 (pk e 0 8), cls := pk e 8 1 % 4 }
            let s3 := (writeVirt s2 die q.ctx true (base + 8) (leBytes 8 (removed + 1))).1
            .next (s3.setCore core fun c => { c with spilled := rest, tasks := c.tasks ++ [q1] })

/-! ## TDONE, PROG (R351, R354) -/

/-- `TDONE`: ends threads of a task as `EXIT` does; outside a task it is refused (R422 code 0x01). -/
def execTdone (f : R0) (s : State) : Host.Outcome State Fault Refusal :=
  issue (.tdone f) s fun s =>
    let inTask : State → TRef → Bool := fun s r => match s.team? r.team with | some tm => tm.task.isSome | none => false
    let rs := s.cur.refs.filter fun r => guardOf (.tdone f) (s.thread r) && inTask s r
    let s1 := recordEnd (s.eachLane (.tdone f) fun r s =>
      if inTask s r then .ok (endThread s r) else .trap s { cls := 13, code := 1 }) rs
    settleEnds s1 (rs.map TRef.cref).eraseDups

/-- `PROG` n adds one for each lane whose guard is true, to the context's counter, or to the count a task holds with its
buffer (R44, R354). -/
def execProg (f : R1) (s : State) : Host.Outcome State Fault Refusal :=
  issue (.prog f) s fun s => s.eachLane (.prog f) fun r s =>
    let add := (upto 8).map fun i => if i = f.a.toNat then (1 : DWord) else 0
    match s.buffering r.team with
    | some _ => .ok (s.setTask r.team fun k =>
        { k with progress := (upto 8).map fun i => k.progress.getD i 0 + add.getD i 0 })
    | none => .ok (addProgress s (s.teamCtx r.team) add)

/-! ## LAUNCH and PUBLISH (R352, R353) -/

/-- `LAUNCH` in one lane: an address that is not canonical is refused as an access (R418), one not aligned on 128 bytes as a task
(R422); after the release the packet is read as an engine load, its context is checked, and it goes to the
coordinator. -/
def launchLane (f : R2) (r : TRef) (s : State) : LaneRes :=
  let t := s.thread r
  let a := t.pair f.a
  if 2 ^ 52 ≤ a.toNat then .trap s { cls := 5, code := 3, detail := f.a.toNat, addr := a }
  else if a.toNat % 128 != 0 then .trap s { cls := 13, code := 3, addr := a }
  else
    afterCommit s r fun s1 => afterRelease s1 r fun s2 =>
      if sourceBusy s2 r.team t.sup .phys a.toNat 128 then .stall s2
      else
        match engineRead s2 r.team t.sup .phys a.toNat 128 with
        | (s3, .error e) =>
          match e.mem with
          | none => .trap s3 { cls := 6, code := e.code, detail := e.detail, page := e.page, addr := BitVec.ofNat 64 e.va }
          | some d => .ok (s3.defer r.team { cls := 12, code := 5, detail := d, addr := a, pc := t.pc, originPc := t.pc,
                                             originTime := s.time, detected := s.time, lanes := laneBit r.lane,
                                             crew := some (s.slotOf r.cref) })
        | (s3, .ok b) =>
          if !t.sup && pk b 68 2 != s3.teamCtx r.team then .trap s3 { cls := 13, code := 4, addr := a }
          else
            let x := s3.takeSerial
            let s4 := x.2.setThread r fun t => t.addOut x.1 f.d 1 none
            .ok { s4 with packets := s4.packets ++ [(b, some (r, x.1))] }

def execLaunch (f : R2) (s : State) : Host.Outcome State Fault Refusal :=
  issue (.launch f) s fun s => s.eachLaneOrdered (.launch f) (launchLane f)

/-- `PUBLISH` in one lane: a release, then the publication stands in line (R244); it is an outstanding result of the
thread. -/
def publishLane (f : R1) (r : TRef) (s : State) : LaneRes :=
  let t := s.thread r
  let ctx := s.teamCtx r.team
  let n := (t.reg f.a).toNat
  let count := match s.ctx? ctx with | some c => c.pubcnt.toNat | none => 0
  if count ≤ n then .trap s { cls := 5, code := 4, detail := f.a.toNat }
  else
    afterCommit s r fun s1 => afterRelease s1 r fun s2 =>
      let x := s2.takeSerial
      let s3 := x.2.setThread r fun t => t.addOut x.1 0 0 none
      .ok { s3 with publications := s3.publications ++ [⟨ctx, n, r, s3.originOf r, x.1, t.sup, t.pc, s.time, s.cycle, none⟩] }

def execPublish (f : R1) (s : State) : Host.Outcome State Fault Refusal :=
  issue (.publish f) s fun s => s.eachLaneOrdered (.publish f) (publishLane f)

/-! ## SUBPOL and SUBQ (R355, R356) -/

/-- A policy word with a reserved value or a reserved bit that is set. -/
def policyBad (p : Word) : Bool := bits p.toNat 31 16 != 0 || bits p.toNat 5 4 != 0 || policyReserved p.toNat

/-- The lowest lane whose guard is true shows a reserved policy word (R415). -/
def subpolReserved (f : R1) (s : State) (r : TRef) : Option Cause :=
  if (s.cur.refs.find? fun q => guardOf (.subpol f) (s.thread q)) = some r && policyBad ((s.thread r).reg f.a) then
    some { cls := 2, code := 4, detail := 13 } else none

/-- `SUBPOL`: the word of the lowest lane whose guard is true replaces the launch's; a reserved one traps in every lane
(R415). A new word ends the dual run that drops began (R464). -/
def execSubpol (f : R1) (s : State) : Host.Outcome State Fault Refusal :=
  issueWith (.subpol f) (subpolReserved f) s fun s =>
    match s.cur.refs.find? fun r => guardOf (.subpol f) (s.thread r) with
    | none => s
    | some r =>
      let p := (s.thread r).reg f.a
      match s.team? r.team with
      | none => s
      | some tm => s.setLaunch tm.launch fun l => { l with policy := if l.det then p &&& ~~~1 else p, dropped := false }

/-- The description of a store's entry for a launch (R356). -/
def subqWord (e : SubEntry) : DWord :=
  let state := if e.promoted then 2 else 1
  let off := (e.window - e.code).toNat / 4
  BitVec.ofNat 64 (e.cand * 2 ^ 48 + state * 2 ^ 46 + e.exact.toNat * 2 ^ 45 + (e.orig.length - 1) * 2 ^ 42 +
    (e.words.length - 1) * 2 ^ 39 + off % 2 ^ 22 * 2 ^ 16 + min 65535 (if e.promoted then e.count else e.equal))

def execSubq (f : R2) (s : State) : Host.Outcome State Fault Refusal :=
  issue (.subq f) s fun s => s.eachLane (.subq f) fun r s =>
    let n := ((s.thread r).reg f.a).toNat
    if 63 < n then .trap s { cls := 5, code := 4, detail := f.a.toNat }
    else
      let v := match s.teamLaunch? r.team, Tbl.at? (s.core (s.teamCore r.team)).weevil.store n with
        | some (_, l), some e => if e.ctx = l.ctx && e.code = l.code && e.policy = l.policy then subqWord e else 0
        | _, _ => 0
      .ok (s.setThread r fun t => t.setPair f.d v)

/-! ## Task admission (R42 to R44, R229, R423) -/

/-- A task record. -/
structure TaskRec where
  entry : DWord
  arg : DWord
  x : Word
  y : Word
  z : Word
  flags : Word
  successor : DWord
  valid : Bool

def TaskRec.ofBytes (at_ : DWord) (b : List Byte) : TaskRec :=
  let entry := pk b 0 8
  let flags := pk b 28 4
  let succ := pk b 32 8
  { entry := BitVec.ofNat 64 entry, arg := BitVec.ofNat 64 (pk b 8 8), x := BitVec.ofNat 32 (pk b 16 4),
    y := BitVec.ofNat 32 (pk b 20 4), z := BitVec.ofNat 32 (pk b 24 4), flags := BitVec.ofNat 32 flags,
    successor := BitVec.ofNat 64 succ,
    valid := at_.toNat % 64 == 0 && entry % 4 == 0 && entry < 2 ^ 52 && bits flags 31 15 == 0 && bits flags 5 4 == 0 &&
      pk b 40 24 == 0 }

/-- The task a core takes next: the head of the class that is highest now, of heads of one effective class the one of the higher
base class, the model's choice (R229, assumption 101); when its queue is empty, the oldest entry of the
highest class of the cluster core with the most queued tasks. The core it comes from, and the entry. -/
def nextTask (s : State) (core : Nat) : Option (Nat × QTask) :=
  let heads := fun (c : Nat) => [3, 2, 1, 0].filterMap fun k => (s.core c).tasks.find? fun q => q.cls == k
  let best := fun (c : Nat) => bestBy (fun (q : QTask) => [effClass q.cls q.time s.time]) (heads c)
  if (s.core core).tasks.isEmpty then
    let peers := (upto 8).map fun q => 8 * clusterOf core + q
    match bestBy (fun c => [(s.core c).tasks.length]) (peers.filter fun c => !(s.core c).tasks.isEmpty) with
    | some c => (best c).map fun q => (c, q)
    | none => none
  else (best core).map fun q => (core, q)

/-- The room of a task: crews and array of its record; scratchpad, lane-private slices, tags and the allocations of its launch;
its write buffer (R37, R44, R229). -/
def taskNeed (l : Launch) (id : Nat) (k : TaskRec) : Need :=
  let crews := bits k.flags.toNat 3 0 + 1
  { launch := id, crews := crews, scratch := l.scratch + 1024 * (bits k.flags.toNat 13 8 + 1), lane := l.lanePriv * crews,
    tags := l.tags, array := bit k.flags.toNat 14, shared := l.shared, chip := l.chip, det := false, order := l.order }

/-- The read of a record as the spawning thread's privilege allows. -/
def readRecordOf (s : State) (core : Nat) (q : QTask) : State × Option TaskRec :=
  match readVirt s (dieOf core) q.ctx q.origin.sup q.record.toNat 64 with
  | (s1, .ok b) => (s1, some (TaskRec.ofBytes q.record b))
  | (s1, .error _) => (s1, none)

def dropTask (s : State) (from_ : Nat) (q : QTask) : State :=
  s.setCore from_ fun c => { c with tasks := c.tasks.erase q }

/-- The team of a task: its index is not the spec's to give and is free; the tile coordinate is its record's. The record's
argument pointer is held with the task: the spec names no register or bank word in which the task would find it, and the
model puts it in none (assumption 89). -/
def taskTeam (s : State) (core : Nat) (q : QTask) (l : Launch) (k : TaskRec) : State × Team :=
  let x := s.takeFree
  let crews := bits k.flags.toNat 3 0 + 1
  let t := Team.start q.launch 0 core crews 0 l
  (x.2, { t with
    index := x.1.toNat, x := k.x, y := k.y, z := k.z, stage := 0,
    array := if bit k.flags.toNat 14 then some Matrix.start else none
    task := some { record := q.record, entry := k.entry, arg := k.arg, tile := (k.x, k.y, k.z), flags := k.flags,
                   successor := k.successor, queued := q, buffer := [], capacity := bits k.flags.toNat 13 8 + 1,
                   committed := false, early := false, progress := [], escapes := [], stage := 0 } })

/-- The record of the task that a core would take next, and whether it can be run there now: its effective class. -/
def State.taskReady (s : State) (core : Nat) : Option Nat :=
  match nextTask s core with
  | none => none
  | some (_, q) =>
    match s.launch? q.launch, (readRecordOf s core q).2 with
    | some l, some k =>
      if k.valid && s.fits core (taskNeed l q.launch k) then some (effClass q.cls q.time s.time) else none
    | _, _ => none

/-- Cores of clusters in which some task is queued. -/
def State.taskCores (s : State) : List Nat :=
  ((s.cores.filterMap fun c => if c.2.tasks.isEmpty then none else some (clusterOf c.1)).eraseDups).flatMap fun c =>
    (upto 8).map fun q => 8 * c + q

/-- A task that a core could admit is of a higher effective class (R229). -/
def State.taskFirst (s : State) (cls : Nat) : Bool :=
  s.taskCores.any fun c => match s.taskReady c with | some k => cls < k | none => false

/-- A core admits its next task when it fits. A task of a launch that has completed finds an allocation in an explicit level anew,
zero, which nothing frees: the model's choice, since R101 keeps the contents until the launch completes and says no more
(assumption 98). A record that breaks R42 or R43 is not run, and the fault pends on the
spawning team. A launch team that could be admitted and is of no lower class goes first (R229). The record is read as an
engine load (R136, R350). -/
def execTaskAdmission (core : Nat) (s : State) : Host.Outcome State Fault Refusal :=
  match nextTask s core with
  | none => .next s
  | some (src, q) =>
    match s.launch? q.launch with
    | none => .next s
    | some l =>
      if virtBusy s (dieOf core) q.ctx q.origin.sup .read q.record.toNat 64 then .next s
      else
        match readRecordOf s core q with
        | (s1, none) => .next (badTask s1 src q)
        | (s1, some k) =>
          if !k.valid then .next (badTask s1 src q)
          else
            let cls := effClass q.cls q.time s.time
            let first := match s1.admission with | some a => cls ≤ a.cls | none => false
            if first || !s1.fits core (taskNeed l q.launch k) then .next s1
            else
              let x := taskTeam (placeAllocs (dropTask s1 src q) q.launch l.shared l.chip core) core q l k
              .next (enterTeam x.1 x.2 k.entry)
where
  /-- The record is not run (R422 code 0x05). -/
  badTask (s : State) (src : Nat) (q : QTask) : State :=
    (dropTask s src q).deferFor q.spawner q.origin
      { cls := 13, code := 5, addr := q.record, pc := q.pc, originPc := q.pc, originTime := q.time, detected := s.time,
        lanes := laneBit q.origin.lane, crew := some q.origin.slot, task := true }

/-- The coordinator and a distributor admit the next teams (R222 to R226); a task of higher class that its core could admit
goes first (R229). -/
def execTeamAdmission (s : State) : Host.Outcome State Fault Refusal :=
  match s.admission with
  | some a => .next (if a.restored || s.taskFirst a.cls then s else a.after)
  | none => .next s

/-- A pre-empted team, with those that must come with it, is restored (R236). -/
def execTeamRestore (s : State) : Host.Outcome State Fault Refusal :=
  match s.admission with
  | some a => .next (if a.restored && !s.taskFirst a.cls then a.after else s)
  | none => .next s

/-! ## Retirement (R71, R351, R410) -/

/-- All threads of the team's own crews have ended, and no handler runs. -/
def threadsEnded (s : State) (team : Nat) (tm : Team) : Bool :=
  (upto (tm.crews + tm.handlers)).all fun c =>
    match s.crew? ⟨team, c⟩ with
    | some w => (w.allThread fun t => t.exited) && w.handling.isNone
    | none => true

/-- A comparison of a team's executions, or the withdrawal of a candidate that it has run alone, is under way: its outcome can
still be a fault of the team (R207, R459, R462). -/
def State.underTest (s : State) (team : Nat) (tm : Team) : Bool :=
  ((s.core tm.core).weevil.pending.any fun p => p.team == team) ||
    s.withdrawals.any fun w => w.ctx == s.teamCtx team && (tm.usedAll || tm.usedIds.contains w.cand)

/-- Nothing the team started is under way: results, copies, matrix instructions, comparisons. -/
def nothingOut (s : State) (team : Nat) (tm : Team) : Bool :=
  ((upto (tm.crews + tm.handlers)).all fun c =>
    match s.crew? ⟨team, c⟩ with
    | some w => w.allThread fun t => t.out.isEmpty && t.trap.isNone
    | none => true) &&
  (s.clusters.all fun c => c.2.queues.all fun q => q.all fun x => x.team != team) &&
  (match tm.array with | some a => a.queue.isEmpty | none => true) && !s.underTest team tm

/-- A deferred fault found after every thread has ended: the thread that ended last is revived in supervisor entry, at its
`EXIT` or `TDONE` (R410). -/
def reviveLast (s : State) (team : Nat) (tm : Team) : State :=
  match tm.deferred, tm.lastEnd with
  | c :: cs, some (_, r, pc) =>
    let s1 := s.setTeam team fun tm => { tm with deferred := cs }
    let s2 := s1.setThread r fun t =>
      { t with pc := pc, trap := some { c with revived := true, deferred := true, resume := some pc } }
    supervisorEntry s2 r
  | _, _ => s

/-- Releases every crew of a team (R71); a word whose sector an engine has yet to write keeps the team waiting. -/
def releaseTeam (s : State) (team : Nat) (tm : Team) : State :=
  (upto (tm.crews + tm.handlers)).foldl (fun s c => release s ⟨team, c⟩ 0 0) s
def teamBlocked (s : State) (team : Nat) (tm : Team) : Bool :=
  (upto (tm.crews + tm.handlers)).any fun c => s.relBlocked ⟨team, c⟩

/-- The team leaves its core and its resources return (R72). Messages that no handler has taken are lost with it (R455 code
0x04). With the last crews of a deterministic launch on the core its coroutine order ends. -/
def leaveTeam (s : State) (team : Nat) (tm : Team) : State :=
  let s1 := (tm.incoming ++ tm.ring).foldl (fun s x => loseAt s x.msg x.env x.iface 4) s
  let alone := !(s1.teams.any fun t => t.1 != team && t.2.core == tm.core) && !s.coreWaits tm.core
  let s2 : State := { s1 with teams := Tbl.del s1.teams team, crews := s1.crews.filter fun c => c.1.team != team }
  if alone then s2.setCore tm.core fun k => { k with running := none } else s2

/-- A team of a launch retires (R71). -/
def execTeamRetirement (team : Nat) (s : State) : Host.Outcome State Fault Refusal :=
  match s.team? team with
  | none => .next s
  | some tm =>
    if tm.task.isSome || !threadsEnded s team tm || !nothingOut s team tm || teamBlocked s team tm then .next s
    else if !tm.deferred.isEmpty then .next (reviveLast s team tm)
    else
      let s1 := releaseTeam s team tm
      match s1.team? team with
      | none => .next s1
      | some tm1 =>
        if !tm1.deferred.isEmpty then .next (reviveLast s1 team tm1)
        else .next ((leaveTeam s1 team tm1).setLaunch tm.launch fun l => { l with retired := l.retired + 1 })

/-- A fault of a task's retirement, delivered at the revived `TDONE` (R438, R439). -/
def taskFault (s : State) (team : Nat) (tm : Team) (code detail : Nat) (addr : DWord) : State :=
  match tm.lastEnd with
  | none => s
  | some (_, r, pc) =>
    s.defer team { cls := 13, code := code, detail := detail, addr := addr, pc := pc, originPc := pc, originTime := s.time,
                   detected := s.time, lanes := laneBit r.lane, crew := some (s.slotOf r.cref) }

/-- The successor counter's decrement, an `.AR` atomic: none when it faults, else whether it brought the counter from 1 to
0 (R230). A successor field that is not a multiple of 16, whose fate the spec does not give, is taken as it stands: the model's
choice (assumption 103). -/
def decrementSuccessor (s : State) (team : Nat) (tm : Team) (k : Task) : State × Except (TFault × Nat) Bool :=
  let ctx := s.teamCtx team
  let va := k.successor + 8
  match translate s (.core tm.core) ctx va false .write with
  | (s1, .error f) => (s1, .error (f, va.toNat))
  | (s1, .ok pa) =>
    if s1.deadRange pa 4 then (s1, .error (.memory (s1.errorDetail pa), va.toNat))
    else
      let s2 := settleWords s1 tm.core pa 4 0
      let old := s2.homeN pa 4
      (acquire (noteForeign (atomHome s2 tm.core pa 4 ((old + 2 ^ 32 - 1) % 2 ^ 32)) pa 4) ⟨team, 0⟩, .ok (old == 1))

/-- The counter stands in words that cannot go home yet (R133, R135). -/
def successorBlocked (s : State) (team : Nat) (tm : Team) (k : Task) : Bool :=
  match (translate s (.core tm.core) (s.teamCtx team) (k.successor + 8) false .write).2 with
  | .ok pa => settleBlocked s tm.core pa 4
  | .error _ => false

/-- Appends the successor's record (R230); false when there is no room. -/
def appendSuccessor (s : State) (team : Nat) (tm : Team) (k : Task) : State × Bool :=
  let o : Origin := { ctx := s.teamCtx team, core := tm.core, index := tm.index, slot := 0, lane := 0, sup := false,
                      task := true, early := k.early }
  let pc := match tm.lastEnd with | some (_, _, pc) => pc | none => 0
  match readVirt s (dieOf tm.core) o.ctx false k.successor.toNat 8 with
  | (s1, .error _) => (s1, false)
  | (s1, .ok b) =>
    let x := queueEntry s1 team o pc (BitVec.ofNat 64 (leNat b))
    appendTask x.1 tm.core x.2

/-- A task retires, stage by stage: commit, decrement of its successor counter, append of the successor, end. A fault of a
stage revives the `TDONE`, and the stage is tried again after it (R351, R437 to R439). -/
def execTaskRetirement (team : Nat) (s : State) : Host.Outcome State Fault Refusal :=
  match s.team? team with
  | none => .next s
  | some tm =>
    match tm.task with
    | none => .next s
    | some k =>
      let waits := (k.stage == 0 && s.commitBlocked team) ||
        (k.stage == 1 && k.successor != 0 && successorBlocked s team tm k) ||
        (k.stage == 2 && virtBusy s (dieOf tm.core) (s.teamCtx team) false .read k.successor.toNat 8)
      if !threadsEnded s team tm || !nothingOut s team tm || teamBlocked s team tm || tm.abort || waits then .next s
      else if !tm.deferred.isEmpty then .next (reviveLast s team tm)
      else
        let stage := fun (s : State) (n : Nat) => s.setTask team fun k => { k with stage := n }
        match k.stage with
        | 0 =>
          let (pc, lanes) := match tm.lastEnd with | some (_, r, pc) => (pc, laneBit r.lane) | none => (0, 0)
          match commitTask s team pc lanes with
          | (s1, some c) => .next (s1.defer team c)
          | (s1, none) => .next (stage (releaseTeam s1 team tm) 1)
        | 1 =>
          if k.successor = 0 then .next (stage s 3)
          else
            match decrementSuccessor s team tm k with
            | (s1, .error f) => .next (taskFault s1 team tm 17 (f.1.detail .write) (BitVec.ofNat 64 f.2))
            | (s1, .ok last) => .next (stage s1 (if last then 2 else 3))
        | 2 =>
          match appendSuccessor s team tm k with
          | (s1, false) => .next (taskFault s1 team tm 18 0 k.successor)
          | (s1, true) => .next (stage s1 3)
        | _ => .next (leaveTeam s team tm)

/-! ## Completion of a launch (R98, R141, R227) -/

/-- Key order of buffered atomics. -/
def BufAtom.key (a : BufAtom) : List Nat := [a.team, a.crew, a.lane, a.number]
def insertAtom (a : BufAtom) : List BufAtom → List BufAtom
  | [] => [a]
  | b :: bs => if bestBy.lexLt b.key a.key then b :: insertAtom a bs else a :: b :: bs

/-- An atomic that the device makes at a home: what owners have changed of the word comes home first, and memory that answers
with an error keeps its value (R123, R131, R443). -/
def deviceAtom (s : State) (pa n : Nat) (f : Nat → Nat) : State :=
  let s1 := recallWords s ((wordsTouched pa n).map (· / 4)) none 0
  if s1.deadRange pa n then s1 else noteForeign (engineWrite s1 pa (leBytes n (f (s1.homeN pa n)))) pa n
/-- It has to wait (R133, R135). -/
def deviceAtomWaits (s : State) (die ctx : Nat) (sup : Bool) (va : DWord) (n : Nat) : Bool :=
  match (translate s (.die die) ctx va sup .write).2 with
  | .ok pa => s.isBusy .phys pa n || s.recallBlocked ((wordsTouched pa n).map (· / 4)) none
  | .error _ => false

/-- Applies one buffered atomic at its home, as a user access of the launch context. Where another agent has accessed the
buffer's region, the value that each buffered atomic leaves is free (R141). -/
def applyAtom (raced : Bool) (s : State) (ctx : Nat) (a : BufAtom) : State :=
  let p := BitVec.ofNat 4 a.op
  match translate s (.die 0) ctx a.addr false .write with
  | (s1, .error _) => s1
  | (s1, .ok pa) =>
    let x := if raced then s1.takeFree else (0, s1)
    deviceAtom x.2 pa (atomSize p) fun old =>
      if raced then (Config.freeDWord x.1.toNat).toNat else atomNew p old a.operand.toNat 0

/-- The completion counter: a release atomic add at its home. -/
def addCompletion (s : State) (l : Launch) : State :=
  if l.counter = 0 then s
  else
    match translate s (.die 0) l.ctx l.counter false .write with
    | (s1, .error _) => s1
    | (s1, .ok pa) => deviceAtom s1 pa 8 (· + 1)

/-- An atomic of the completion has to wait. -/
def completionWaits (s : State) (l : Launch) : Bool :=
  (l.counter != 0 && deviceAtomWaits s 0 l.ctx false l.counter 8) ||
    l.atoms.any fun a => deviceAtomWaits s 0 l.ctx false a.addr (atomSize (BitVec.ofNat 4 a.op))

/-- A launch whose last team has retired completes: buffered atomics, counter, notice; its allocations are free (R101). -/
def execLaunchCompletion (launch : Nat) (s : State) : Host.Outcome State Fault Refusal :=
  match s.launch? launch with
  | none => .next s
  | some l =>
    if l.done || l.next < l.total || l.retired < l.total || completionWaits s l then .next s
    else
      let s1 := (l.atoms.foldl (fun as a => insertAtom a as) []).foldl (fun s a => applyAtom l.atomsRaced s l.ctx a) s
      let s2 := if l.det then scramble s1 0 l.ctx false l.aux.toNat (16 * l.auxCap) else s1
      let s3 := addCompletion s2 l
      let s4 := if l.notify then s3.tell (.completion l.tag) else s3
      let s5 := s4.setLaunch launch fun l => { l with done := true, atoms := [] }
      .next { s5 with clu := s5.clu.filter fun a => a.1.1 != launch, chip := s5.chip.filter fun a => a.1.1 != launch }

end Sys2Proof.Machine
end

