-- ==== Sys2Proof/Machine/Groups.lean ====
section
/-!
DEFINITION. Which threads are ready and how they form issue groups (R46 to R48, R52, R66), what stands at a thread's PC (R112,
R261, R264), the pipes (R22), the coroutine order of deterministic mode (R56, R64, R65, R468), and the end of a cycle (R54, R55,
R60, R121).
-/
namespace Sys2Proof.Machine

/-! ## What stands at a PC -/

/-- What a thread would issue: nothing while its line is not cached; a code of a dictionary run; a word that decodes, or
does not. -/
inductive Fetched where
  | missing
  | code (f : CodeF)
  | instr (w : Word) (i : Instr)
  | reserved (w : Word)
  deriving DecidableEq, Repr

/-- A code of a run word: the low half first. -/
def codeOf (w : Word) (high : Bool) : CodeF :=
  let h := if high then w.toNat / 65536 else w.toNat % 65536
  ⟨bit h 15, BitVec.ofNat 5 (bits h 14 10), BitVec.ofNat 10 (bits h 9 0)⟩

/-- The word at an address in a line, with its predecode. -/
def fetchedOf (ws : List Word) (pc : DWord) : Fetched :=
  let w := ws.getD (pc.toNat % 256 / 4) 0
  if markAt ws pc = .run then .code (codeOf w (pc.toNat % 4 == 2))
  else match decodeWord w with
    | .ok i => .instr w i
    | .error _ => .reserved w

def State.fetched (s : State) (r : TRef) : Fetched :=
  let t := s.thread r
  match s.line? (s.teamCore r.team) (s.teamCtx r.team) t.pc t.sup with
  | none => .missing
  | some l => fetchedOf l.words t.pc

/-- The switch marker at a thread's PC. -/
def Fetched.marked : Fetched → Bool
  | .missing => false
  | .code f => f.sw
  | .instr _ i => i.switch
  | .reserved w => bitAt w 31

/-- The instruction that a thread would issue, a dictionary code expanded. -/
def State.instrAt (s : State) (r : TRef) : Option Instr :=
  match s.fetched r with
  | .instr _ i => some i
  | .code f => (match codeWord s r f with | .word w => (decodeWord w).toOption | _ => none)
  | _ => none

/-- The pipe an instruction uses: 0 FMA, 1 integer and logic, 2 special functions, 3 load/store, 4 the engine interface; none
for a hint (R22). By major and minor of its word. -/
def pipeOfWord (w : Word) : Option Nat :=
  let m := majorOf w
  let n := minorOf w
  if (5 ≤ m && m ≤ 9) || (0x0C ≤ m && m ≤ 0x0F) || (0x12 ≤ m && m ≤ 0x14) then some 0
  else if m = 0x0A then some 2
  else if 0x29 ≤ m && m ≤ 0x2C then none
  else if (0x2F ≤ m && m ≤ 0x3C) || (m = 0x2E && 1 ≤ n && n ≤ 6) then some 3
  else if m = 0x2D || m = 0x2E || 0x3D ≤ m then some 4
  else if m = 0 || m = 0x17 then none
  else some 1

/-- The pipe of a word that issues: none where its major or minor is reserved (R22). -/
def wordPipe (w : Word) : Option Nat :=
  match decodeWord w with
  | .error e => if e.code ≤ 2 then none else pipeOfWord w
  | .ok _ => pipeOfWord w

/-- The pipe of what stands at a thread's PC; a code uses that of its entry's word, also where it traps on it. -/
def Fetched.pipe (s : State) (r : TRef) : Fetched → Option Nat
  | .missing => none
  | .code f =>
    (match codeWord s r f with
     | .word w => wordPipe w
     | .fault _ _ (some w) => wordPipe w
     | _ => none)
  | .instr w _ => wordPipe w
  | .reserved w => wordPipe w

/-! ## Ready threads (R46, R52) -/

/-- A pre-emption or an abort of a team goes ahead of a stop (R377). -/
def Team.leaving (t : Team) : Bool := (t.preempt || t.abort) && !t.preemptLate

/-- A thread is inside a hint chain. -/
def Thread.chained (t : Thread) : Bool := t.xlit.isSome || t.xmod.isSome
/-- Lanes of a thread's crew are inside a hint chain that needs the others to go on: it ends at a crew-wide instruction, at which
one of them stands; under deterministic mode, whose order of lanes is that of R66, any chain (R257, R375). -/
def State.chainGathers (s : State) (r : TRef) : Bool :=
  match s.crew? r.cref with
  | some c => (upto 64).any fun l =>
      (c.thread l).chained &&
        (s.isDet r.team || match s.instrAt ⟨r.team, r.crew, l⟩ with | some i => i.crewWide | none => false)
  | none => false

/-- A thread issues no more for now: its team is stopped or about to be, or named for pre-emption and the thread in user
privilege; a hint chain that has begun in its crew goes on (R257, R375, R377, R411). -/
def State.heldBack (s : State) (r : TRef) : Bool :=
  match s.team? r.team with
  | none => true
  | some tm =>
    let t := s.thread r
    tm.stopped ||
      ((((tm.stopWanted.isSome || tm.breakHit.isSome) && !tm.leaving) || ((tm.preempt || tm.abort) && !t.sup)) &&
        !t.chained && !s.chainGathers r)

/-- A thread that is neither ended nor in a wait. -/
def Thread.runs (t : Thread) : Bool := !t.exited && t.wait == .none

/-- A thread could issue, but for its fetch: ready under R46, with no trap to enter. -/
def State.awake (s : State) (r : TRef) : Bool :=
  let t := s.thread r
  t.runs && t.trap.isNone && t.readyAt ≤ s.cycle && !s.heldBack r

/-- A thread parked at a switch marker: a result is outstanding, or the last has returned in this cycle. -/
def State.parked (s : State) (r : TRef) : Bool :=
  (s.fetched r).marked && (!(s.thread r).out.isEmpty || s.cycle < (s.thread r).backAt)

/-! ## Waits by where a thread stands (R48, R324, R331, R436) -/

/-- How a thread waits whose instruction has not issued: in a crew-wide rendezvous, at a tag wait with its whole crew, at a
transaction barrier. -/
inductive AtWait where
  | rendezvous
  | tag
  | tbar
  deriving DecidableEq, Repr

/-- A deferred fault is due to a thread at an instruction: it traps there and does not wait (R409, R436). -/
def State.faultDue (s : State) (r : TRef) (i : Instr) : Bool :=
  match s.team? r.team with
  | some tm => !(s.thread r).sup && r.crew < tm.crews && (duePending i tm).isSome
  | none => false

/-- Some live thread of a crew does not stand at a PC, free to issue (R48, R419). -/
def Crew.apart (c : Crew) (pc : DWord) : Bool := c.anyThread fun t => !t.exited && (t.pc != pc || t.wait != Wait.none)

/-- A tag wait of a whole crew goes on: some lane's guard is true, the mask is legal, its end has not come, and no lane has a
trap to enter. -/
def State.tagWaits (s : State) (r : TRef) (c : Crew) (i : Instr) (a : Reg6) (ends : DWord → DWord → Bool) : Bool :=
  let k := c.kPair a
  (c.anyThread fun t => guardOf i t) && k.toNat / 2 ^ s.tagCount r.team == 0 && !ends k (k &&& s.tags r.team) &&
    (upto 64).all fun l =>
      let t := c.thread l
      !t.exited && t.xlit.isNone && t.xmod.isNone && t.late.isNone && !s.faultDue ⟨r.team, r.crew, l⟩ i

/-- A `TBWAIT` of a thread goes on: its guard is true, its offset is legal, and the phase it observed stands. -/
def State.tbarWaits (s : State) (r : TRef) (i : Instr) (f : Rab) : Bool :=
  let t := s.thread r
  let off := (t.reg f.a).toNat
  guardOf i t && t.xlit.isNone && t.xmod.isNone && t.late.isNone && !s.faultDue r i && (tbCode s r off).isNone &&
    s.phaseStands f (s.levelPlace r .clu) off r

/-- The wait of a thread by where it stands; one that a switch marker holds is not there yet. -/
def State.atWait (s : State) (r : TRef) : Option AtWait :=
  match s.instrAt r, s.crew? r.cref with
  | some i, some c =>
    if s.parked r then none
    else if i.crewWide && c.apart (s.thread r).pc then some .rendezvous
    else
      match i with
      | .tagwall f => if s.tagWaits r c i f.a wallEnds then some .tag else none
      | .tagwany f => if s.tagWaits r c i f.a wanyEnds then some .tag else none
      | .tbwait f => if s.tbarWaits r i f then some .tbar else none
      | _ => none
  | _, _ => none

/-- A wait by place at which a crew of a deterministic launch passes control: a tag wait is none (R64, R324, R332). -/
def AtWait.switches : Option AtWait → Bool
  | some .rendezvous | some .tbar => true
  | some .tag | none => false

def State.ready (s : State) (r : TRef) : Bool := s.awake r && !s.parked r && (s.atWait r).isNone

/-- A thread that more than the interval of R46 keeps from being ready has no ready time yet (R237). -/
def holdReady (s : State) : State :=
  let hold := fun (c : CRef) (l : Nat) (t : Thread) =>
    if t.runs && t.readyAt ≤ s.cycle && !s.ready ⟨c.team, c.crew, l⟩ then { t with rankAt := s.cycle + 1 } else t
  { s with crews := s.crews.map fun x => (x.1, { x.2 with threads := x.2.threads.mapIdx fun l t => hold x.1 l t }) }

/-! ## Coroutines (R64, R468) -/

/-- A crew all of whose live threads wait, or that has ended. -/
def State.crewWaits (s : State) (c : CRef) : Bool :=
  match s.crew? c with
  | none => true
  | some w => (upto 64).all fun l =>
      let t := w.thread l
      t.exited || t.wait != .none || AtWait.switches (s.atWait ⟨c.team, c.crew, l⟩)

/-- The crews of deterministic launches on a core in coroutine order: by team index, then crew index. -/
def State.coroutines (s : State) (core : Nat) : List CRef :=
  let cs := s.crews.filter fun c =>
    s.teamCore c.1.team == core && s.isDet c.1.team &&
      (match s.team? c.1.team with | some tm => c.1.crew < tm.crews | none => false)
  cs.foldl (fun l c => place c.1 l) []
where
  key (c : CRef) : List Nat := [(match s.team? c.team with | some tm => tm.index | none => 0), c.crew]
  place (c : CRef) : List CRef → List CRef
    | [] => [c]
    | x :: xs => if bestBy.lexLt (key c) (key x) then c :: x :: xs else x :: place c xs

/-- The crew that control passes to: the next after a crew in the order, also after one whose team has retired, that is not
waiting; the first with none to go from (R64, R468). -/
def State.nextCrew (s : State) (core : Nat) (after : Option CRef) : Option CRef :=
  let order := s.coroutines core
  let from_ := match after with
    | some c =>
      if order.contains c then (order.dropWhile fun x => x != c).drop 1 ++ order.takeWhile (fun x => x != c) ++ [c]
      else
        let turn := (s.core core).turn
        let ahead := fun (x : CRef) => bestBy.lexLt [turn.1, turn.2] (coroutines.key s x)
        order.filter ahead ++ order.filter (!ahead ·)
    | none => order
  from_.find? fun c => !s.crewWaits c

/-- The threads of a core's deterministic crews that wait in `WAITMT`, in coroutine order, then by lane. -/
def State.timedWaits (s : State) (core : Nat) : List TRef :=
  (s.coroutines core).flatMap fun c => (upto 64).filterMap fun l =>
    match (s.thread ⟨c.team, c.crew, l⟩).wait with
    | .maskTimed _ _ _ => some ⟨c.team, c.crew, l⟩
    | _ => none

/-- One step of the coroutine count, with the timeouts that expire at it (R56). -/
def coroutineStep (s : State) (core : Nat) : State :=
  let s1 := s.setCore core fun c => { c with steps := c.steps + 1 }
  (s1.timedWaits core).foldl (fun s r =>
    match (s.thread r).wait with
    | .maskTimed _ _ d => if d ≤ s.waitClock r.team then timeoutThread s r else s
    | _ => s) s1

/-- A crew is resumed: its counts begin again. -/
def runCrew (s : State) (core : Nat) (c : CRef) : State :=
  (s.setCrew c fun w => { w with switchPoint := false, quietCount := 0, quietMarks := [] }).setRunning core c

/-- Control passes when the running crew of a core has reached a switch point and a crew can run (R64), or its team has retired
(R468); with no running crew the first that can run takes the core. While a team of the core is out, control stays (R69). -/
def switchCore (s : State) (core : Nat) : State :=
  if s.coreWaits core then s
  else
    match (s.core core).running with
    | none => (match s.nextCrew core none with | some c => runCrew s core c | none => s)
    | some c =>
      match s.crew? c with
      | none => (match s.nextCrew core (some c) with | some d => coroutineStep (runCrew s core d) core | none => s)
      | some w =>
        if w.switchPoint || s.crewWaits c then
          let s1 := s.setCrew c fun w => { w with switchPoint := true }
          match s1.nextCrew core (some c) with
          | none => s1
          | some d =>
            let s2 := s1.setCrew c fun w => { w with switchPoint := false, quietCount := 0, quietMarks := [] }
            coroutineStep (runCrew s2 core d) core
        else s

/-! ## Issue groups (R46 to R48, R66) -/

/-- A group that could issue, with the keys of R237. -/
structure Candidate where
  core : Nat
  launch : Nat
  pc : DWord
  refs : List TRef
  demoted : Bool
  deriving DecidableEq, Repr

/-- The threads of a core. -/
def State.coreThreads (s : State) (core : Nat) : List TRef :=
  (s.crews.filter fun c => s.teamCore c.1.team == core).flatMap fun c => (upto 64).map fun l => ⟨c.1.team, c.1.crew, l⟩

/-- Of two threads in one lane, which enters the group (R47). -/
def State.laneBefore (s : State) (a b : TRef) : Bool :=
  let key := fun (r : TRef) => [(s.thread r).lastIssue, (match s.team? r.team with | some t => t.index | none => 0), r.crew]
  bestBy.lexLt (key a) (key b)

/-- One thread of each lane, in ascending lane order. -/
def State.distinctLanes (s : State) (rs : List TRef) : List TRef :=
  (upto 64).filterMap fun l =>
    (rs.filter fun r => r.lane == l).foldl (fun b r =>
      match b with
      | none => some r
      | some x => if s.laneBefore r x then some r else some x) none

/-- The group of a crew under deterministic mode: the live threads that do not wait, at the PC of the lowest lane; it issues
when all of them are ready (R66). Lanes that a page fault has kept back go first, so that the order of the others does not show
it (R69). -/
def State.coroutineGroup (s : State) (core : Nat) (c : CRef) : Option Candidate :=
  let free := ((upto 64).map fun l => (⟨c.team, c.crew, l⟩ : TRef)).filter fun r =>
    (s.thread r).runs && !AtWait.switches (s.atWait r)
  let back := match (s.crew? c).bind (·.service) with
    | some v => free.filter fun r => v.lanes.getLsbD r.lane
    | none => []
  let rs := if back.isEmpty then free else back
  match rs with
  | [] => none
  | r :: _ =>
    let g := rs.filter fun q => (s.thread q).pc == (s.thread r).pc
    if g.all fun q => s.ready q then
      some ⟨core, (match s.team? c.team with | some t => t.launch | none => 0), (s.thread r).pc, g, false⟩
    else none

/-- The launch and PC by which ready threads come together (R46); at a crew-wide instruction their crew as well. Elsewhere
demoted threads are apart, since the others at their PC are favoured over them (R62, R237). -/
structure GroupKey where
  launch : Nat
  pc : DWord
  demoted : Bool
  crew : Option CRef
  deriving DecidableEq, Repr

def State.groupKey (s : State) (r : TRef) : GroupKey :=
  let t := s.thread r
  let wide := match s.instrAt r with | some i => i.crewWide | none => false
  { launch := match s.team? r.team with | some tm => tm.launch | none => 0
    pc := t.pc, demoted := !wide && t.spin.demoted, crew := if wide then some r.cref else none }

/-- At a crew-wide instruction the whole crew must be ready; of a crew with ended threads every live one (R48, R418, R419). -/
def State.wholeCrew (s : State) (k : GroupKey) (members : List TRef) : Bool :=
  match k.crew with
  | none => true
  | some c =>
    match s.crew? c with
    | some w => (upto 64).all fun l => (w.thread l).exited || members.contains ⟨c.team, c.crew, l⟩
    | none => false

/-- The groups of ready threads of a core outside deterministic mode; a crew-wide one has all the threads of its crew that
have not ended. -/
def State.openGroups (s : State) (core : Nat) : List Candidate :=
  let rs := (s.coreThreads core).filter fun r => !s.isDet r.team && s.ready r
  let keyed := rs.map fun r => (s.groupKey r, r)
  let keys := (keyed.map (·.1)).eraseDups
  keys.filterMap fun k =>
    let members := keyed.filterMap fun x => if x.1 = k then some x.2 else none
    let demoted := members.any fun r => (s.thread r).spin.demoted
    if s.wholeCrew k members then some ⟨core, k.launch, k.pc, s.distinctLanes members, demoted⟩ else none

/-- A deterministic crew that has retired 4,096 instructions without an effect issues nothing until it has yielded, or a result that
was on its way has shown that it had one (R65). -/
def State.yields (s : State) (c : CRef) : Bool := match s.crew? c with | some w => 4096 ≤ w.quietCount | none => false
/-- What a result on its way will change is not known yet. -/
def Crew.quietOpen (c : Crew) : Bool :=
  c.quietMarks.any fun m => c.anyThread fun t => t.out.any fun o => o.id == m.1 && o.vals.isNone

/-- The groups of a core that could issue now. -/
def State.candidates (s : State) (core : Nat) : List Candidate :=
  if (s.core core).halted || (s.core core).halting then []
  else
    match s.coroutines core, (s.core core).running with
    | [], _ => s.openGroups core
    | _, some c =>
      if s.yields c || s.coreWaits core then []
      else (match s.coroutineGroup core c with | some g => [g] | none => [])
    | _, none => []

/-- A thread stops at a breakpoint, unless it was resumed there or is inside a hint chain (R257, R374). -/
def Thread.stopsAt (t : Thread) : Bool := !t.pass && t.xlit.isNone && t.xmod.isNone

/-- A group at a breakpoint stops instead of issuing: the breakpoint's number (R374). -/
def State.breakpointAt (s : State) (g : Candidate) : Option Nat :=
  match s.launch? g.launch with
  | none => none
  | some l =>
    if g.refs.any fun r => (s.thread r).stopsAt then
      (l.breakpoints.find? fun b => b.2.1 == codeOffset l g.pc).map (·.1)
    else none

/-- The lanes of a group by crew. -/
def groupLanes (rs : List TRef) : List (CRef × BitVec 64) := rs.foldl addLane []

/-! ## The group a port takes (R22, R237, R239) -/

/-- The keys of R237, each to be as great as possible. The second takes the time since a thread is ready, also after a `YIELD`,
whose own time is for the fourth alone (R302). -/
def State.rank (s : State) (g : Candidate) : List Nat :=
  let wait := g.refs.foldl (fun n r => max n (s.cycle - (s.thread r).rankAt)) 0
  let ready := g.refs.foldl (fun n r => max n (s.cycle - max (s.thread r).rankAt (s.thread r).readyAt)) 0
  let level := match g.refs with | r :: _ => (match (s.thread r).sched with | some l => l.toNat | none => 1) | [] => 0
  let slot := match g.refs with | r :: _ => s.slotOf r.cref | [] => 0
  [(!g.demoted).toNat, (512 ≤ ready : Bool).toNat, level, wait, g.refs.length, 15 - slot, 2 ^ 64 - g.pc.toNat]

/-- The pipe a group would use. -/
def State.pipeOf (s : State) (g : Candidate) : Option Nat :=
  match g.refs with | r :: _ => (s.fetched r).pipe s r | [] => none

/-- The pipes a core has used in this cycle. -/
def State.usedPipes (s : State) (core : Nat) : List Nat :=
  let k := s.core core
  if k.portCycle = s.cycle then k.pipes else []

/-- The group that the next free port of a core takes in this cycle; under deterministic mode only port 0 issues. -/
def State.nextGroup (s : State) (core : Nat) : Option Candidate :=
  let used := s.usedPipes core
  let ports := if (s.coroutines core).isEmpty then 2 else 1
  if ports ≤ used.length then none
  else bestBy s.rank ((s.candidates core).filter fun g => match s.pipeOf g with | some p => !used.contains p | none => true)

/-- A port of a core is used; a hint uses no pipe. -/
def usePort (s : State) (core : Nat) (pipe : Option Nat) : State :=
  let used := s.usedPipes core
  s.setCore core fun k => { k with portCycle := s.cycle, pipes := used ++ [pipe.getD 5] }

/-! ## The end of a cycle -/

/-- The cores that have state or threads. -/
def State.activeCores (s : State) : List Nat := (s.cores.map (·.1) ++ s.teams.map (·.2.core)).eraseDups

/-- A rail offset clamped to ±20 steps (R391). -/
def clampStep (v : BitVec 8) : BitVec 8 := BitVec.ofInt 8 (max (-20) (min 20 v.toInt))
def setRail (s : State) (die rail : Nat) (step : BitVec 8) : State :=
  s.setDie die fun d => { d with rails := d.rails.mapIdx fun i v => if i = rail then clampStep step else v }
/-- A write of a rail by a core, or by the management as 256, is applied at the end of its cycle (R391). -/
def writeRail (s : State) (die rail writer : Nat) (step : BitVec 8) : State :=
  { s with due := { s.due with rails := s.due.rails ++ [(die, rail, writer, step)] } }
/-- The writes of rails of a cycle: by ascending core, the management's after them, and the last stands. -/
def applyRails (s : State) : State :=
  let ws := s.due.rails
  if ws.isEmpty then s
  else
    ((upto 257).flatMap fun k => ws.filter fun w => w.2.2.1 == k).foldl (fun s w => setRail s w.1 w.2.1 w.2.2.2)
      { s with due := { s.due with rails := [] } }

/-- The completion tests at the end of a cycle: transaction barriers, then mask registers and after them the timeouts, then team
barriers (R54, R55, R59, R60, R121, R323); and the rails written (R391). -/
def endTests (s : State) : State :=
  let d := s.due
  let s1 := testTbars (applyRails s)
  let s2 := d.masks.foldl (fun s x => completeMask s x.1 x.2) { s1 with due := { s1.due with masks := [], bars := [] } }
  traceBarriers s (d.bars.foldl (fun s x => testBarrier s x.1 x.2) (expireWaits s2))

/-- What passes to another at the end of a cycle: batons of ended crews, turns at the mixing engines, and the cores of
deterministic launches (R64, R159, R177). -/
def passTurns (s : State) : State :=
  let s1 := s.teams.foldl (fun s t => if t.2.array.isSome then batonOfEnded s t.1 else s) s
  let cores := s1.activeCores
  let s2 := cores.foldl noteMixing s1
  if s2.launches.any fun l => l.2.det && !l.2.done then cores.foldl switchCore s2 else s2

/-- Instructions issued on a core have still to complete: results of its threads, a solve step of a team, a `WAITQ` that is armed,
and work of its matrix arrays (R334, R364). -/
def State.unfinished (s : State) (core : Nat) : Bool :=
  (s.crews.any fun c => s.teamCore c.1.team == core && c.2.anyThread fun t =>
    !t.out.isEmpty || match t.wait with | .quiet _ (some _) => true | _ => false) ||
    s.teams.any fun t => t.2.core == core &&
      ((match t.2.array with | some a => !a.queue.isEmpty | none => false) ||
        (s.regionReady t.1 false).isSome || (s.regionReady t.1 true).isSome)

/-- A core on which a `HALT` has issued halts once what was issued has completed, and reports it (R364). -/
def haltCore (s : State) (core : Nat) : State :=
  if !(s.core core).halting || s.unfinished core then s
  else (s.setCore core fun c => { c with halting := false, halted := true }).tell (.notice 0x8001 [BitVec.ofNat 64 core])

/-- The cores on which a `HALT` has issued halt when they can. -/
def haltCores (s : State) : State := s.cores.foldl (fun s c => if c.2.halting then haltCore s c.1 else s) s

/-- Weevil searches a window on a core: its samples are all there, and no candidate for it is in the store (R200, R203). -/
def Weevil.searches (w : Weevil) : Option Study :=
  match w.study with
  | some x =>
    if w.samples.length == 64 && !(w.store.any fun e => e.2.ctx == x.ctx && e.2.code == x.code && e.2.window == x.window) then some x
    else none
  | none => none
/-- The slots that the ports of a core have left in a cycle go to the search of its window; after 2^24 of them the window is barren
(R203, R238). -/
def Weevil.spend (slots : Nat) (w : Weevil) : Weevil :=
  match w.searches with
  | some x =>
    if 2 ^ 24 ≤ w.idle + slots then { w with study := none, idle := 0, barren := w.barren ++ [(x.ctx, x.window)] }
    else { w with idle := w.idle + slots }
  | none => w
/-- Idle slots at the end of a cycle, on every core whose Weevil searches. -/
def spendSlots (s : State) : State :=
  s.cores.foldl (fun s c =>
    if c.2.weevil.searches.isSome && !c.2.halted then
      s.setCore c.1 fun k => { k with weevil := k.weevil.spend (2 - (s.usedPipes c.1).length) }
    else s) s

/-- A cycle ends, and the next begins. -/
def endCycle (s : State) : State := (holdReady (spendSlots (haltCores (passTurns (endTests s))))).passCycles 1

/-- Cycles pass in which no core issues. -/
def runCycles : Nat → State → State
  | 0, s => s
  | n + 1, s => runCycles n (endCycle s)

end Sys2Proof.Machine
end

