-- ==== Sys2Proof/Machine/Preempt.lean ====
section
/-!
DEFINITION. Pre-emption, abort and the saved image (R70, R102, R161, R176, R225, R232 to R234, R377, R411, R441, R461, R468,
R470).
-/
namespace Sys2Proof.Machine

/-! ## Requests (R232, R360, R377, R411) -/

/-- The launches that a request names: those of the context that carry the tag of `cr.preemptl`, or the launch of the thread
that writes. -/
def namedLaunches (s : State) (ctx writer : Nat) : List Nat :=
  let tag := match s.ctx? ctx with | some c => c.preemptl | none => 0
  if tag = 0 then [writer]
  else s.launches.filterMap fun l => if l.2.ctx = ctx && l.2.tag = tag && !l.2.done then some l.1 else none

/-- The resident teams that a request names in one launch: all, or those of an index. -/
def namedTeams (s : State) (launch : Nat) (index : Option Nat) : List Nat :=
  s.teams.filterMap fun t =>
    if t.2.launch = launch && (match index with | some n => t.2.index == n | none => true) then some t.1 else none

/-- A pre-emption takes with a team every team of a cooperative launch, and every team of its cluster when the launch declares
cluster-shared memory, those of its tasks among them (R102, R225). -/
def widened (s : State) (ts : List Nat) : List Nat :=
  let more := ts.flatMap fun t =>
    match s.team? t, s.teamLaunch? t with
    | some tm, some (id, l) =>
      let all := s.teams.filter fun x => x.2.launch == id
      (l.joined all all.length [(t, tm)]).map (·.1)
    | _, _ => []
  (ts ++ more).eraseDups

/-- A team runs a task that has neither committed nor committed early (R411). -/
def Team.abortable (t : Team) : Bool :=
  match t.task with | some k => !k.committed && !k.early | none => false

/-- A request reaches a team; one that is stopped, or that a stop reached first, waits until it resumes (R377). -/
def Team.named (cycle : Nat) (abort : Bool) (t : Team) : Team :=
  let late := t.stopped || t.stopWanted.isSome || t.breakHit.isSome
  { t with preempt := true, preemptAt := cycle, preemptLate := t.preemptLate || late, abort := t.abort || abort }

/-- The teams a value of `cr.preempt` names. -/
def preemptTargets (s : State) (ctx writer : Nat) (v : DWord) : List Nat :=
  let index := if v.getLsbD 63 then none else some (bits v.toNat 31 0)
  (namedLaunches s ctx writer).flatMap fun l => namedTeams s l index

/-- A reserved value of `cr.preempt`: bits [61:32], or bit 62 but for a resident team that runs a task which can be aborted
(R411). -/
def preemptReserved (s : State) (ctx writer : Nat) (v : DWord) : Bool :=
  let ts := preemptTargets s ctx writer v
  bits v.toNat 61 32 != 0 ||
    (v.getLsbD 62 && (ts.isEmpty || !(ts.all fun t => match s.team? t with | some tm => tm.abortable | none => false)))

/-- A request takes its teams, with those that must come with them. -/
def requestPreempt (s : State) (ctx writer : Nat) (v : DWord) : State :=
  let abort := v.getLsbD 62
  let ts := preemptTargets s ctx writer v
  (if abort then ts else widened s ts).foldl (fun s t => s.setTeam t (Team.named s.cycle abort)) s

/-- A write of `cr.preempt` with bit 63 = 0, by a thread of a launch of the context. -/
def execPreemptTeam (ctx writer team : Nat) (s : State) : Host.Outcome State Fault Refusal :=
  .next (requestPreempt s ctx writer (BitVec.ofNat 64 (team % 2 ^ 32)))
/-- A write of `cr.preempt` with bit 63 = 1. -/
def execPreemptLaunch (ctx writer : Nat) (s : State) : Host.Outcome State Fault Refusal :=
  .next (requestPreempt s ctx writer (BitVec.ofNat 64 (2 ^ 63)))
/-- A write of `cr.preempt` with bit 62 = 1; one that R411 does not allow changes nothing here (the `CRW` traps). -/
def execAbortRequest (ctx writer team : Nat) (s : State) : Host.Outcome State Fault Refusal :=
  let v := BitVec.ofNat 64 (2 ^ 62 + team % 2 ^ 32)
  .next (if preemptReserved s ctx writer v then s else requestPreempt s ctx writer v)

/-! ## Taking a team (R232, R441) -/

/-- The crews of a team. -/
def State.teamCrews (s : State) (team : Nat) : List (CRef × Crew) := s.crews.filter fun c => c.1.team == team

/-- The end of the cycle has still to test a wait of a team's threads. -/
def State.dueOf (s : State) (team : Nat) : Bool :=
  (s.due.masks.any fun x => x.1.team == team) || (s.due.bars.any fun x => x.1 == team) ||
    s.due.arrivals.any fun a => a.thread.team == team

/-- No thread of a team is in the issue slots of a window (R213). -/
def State.outsideWindows (s : State) (team : Nat) : Bool :=
  (s.teamCrews team).all fun c => c.2.allThread fun t => t.window.isNone || decide (t.readyAt ≤ s.cycle)

/-- A team can be taken: no stop goes first, no thread is in supervisor privilege or inside a hint chain that goes on, every
result has returned, the array has completed its queue, and no engine holds a word the team must write back. -/
def saveReady (s : State) (team : Nat) (tm : Team) : Bool :=
  tm.leaving && !tm.stopped && !s.dueOf team && s.outsideWindows team &&
  ((s.teamCrews team).all fun c => c.2.allThread fun t =>
    t.out.isEmpty && (t.exited || (!t.sup && (t.trap.isSome || !t.chained)))) &&
  (match tm.array with | some a => a.queue.isEmpty | none => true) &&
  !teamBlocked s team tm

/-- A thread as its image holds it: a precise trap not yet entered arises again, at the first word of a chain it broke, that of a
refused `SOLVE` at the `SOLVE`; one of a completed step stays, at the word after it (R441). -/
def Thread.saved (t : Thread) : Thread :=
  match t.trap with
  | none => t
  | some c =>
    if c.afterStep then { t with pc := c.resume.getD t.pc }
    else { t with trap := none, pc := c.resume.getD t.chainStart, xlit := none, xmod := none }

/-- Deferred faults whose entry had begun pend on the team again, for whichever thread they reach then (R409). -/
def deferWaiting (s : State) (team : Nat) : State :=
  (s.teamCrews team).foldl (fun s c =>
    (upto 64).foldl (fun s l =>
      match (c.2.thread l).trap with
      | some x =>
        if x.deferred then (s.defer team { x with resume := none }).setThread ⟨c.1.team, c.1.crew, l⟩ fun t => { t with trap := none } else s
      | none => s) s) s

/-- Writes back every word that the crews of a team wrote, which completes the releases they have begun (R232, R470); the
failures are of this write-back. None while it has to wait. -/
def writeBackTeam (s : State) (team : Nat) (tm : Team) : Option State :=
  let fences := s.crews.map fun c => if c.1.team = team then (c.1, { c.2 with fence := none }) else c
  match writeBackNow { s with crews := fences } 5 0 fun w =>
      w.core == tm.core && (w.crew.team == team || w.writers.any fun c => c.team == team) with
  | (s1, true) => some s1
  | (_, false) => none

/-- Bytes rounded up to a multiple of 256. -/
def round256 (n : Nat) : Nat := (n + 255) / 256 * 256

/-- The size of an image (R234); `shared` is the cluster-shared allocation it carries, `memory` whether it has a Memory
part. -/
def imageSize (tm : Team) (copies shared : Nat) (memory : Bool) : Nat :=
  let n := tm.crews + tm.handlers
  1024 + 512 * 64 * n + 1024 * n + (if tm.array.isSome then 352 * 1024 else 0) + 256 + round256 (128 * copies) +
    (match tm.task with | some k => if k.committed then 0 else 1024 * k.capacity | none => 0) +
    (if memory then round256 (tm.scratchSize + tm.laneSize * 64 * n + shared) else 0)

/-- The lowest free slot of a save area that can hold an image, and the address it stands at (R234, R403); none with the
failing address when the area cannot be read. -/
def findSlot (s : State) (ctx core size : Nat) : State × Except Nat (Nat × Nat) :=
  let save := match s.ctx? ctx with | some c => c.saveaddr.toNat | none => 0
  match readVirt s (dieOf core) ctx true save 8448 with
  | (s1, .error e) => (s1, .error e.2)
  | (s1, .ok b) =>
    let blk := CtxBlock.ofBytes b
    let slotBytes := 65536 * blk.slotSize
    let free := (upto (min blk.slots 65536)).find? fun i => !bit (leNat ((b.drop (256 + i / 8)).take 1)) (i % 8)
    match free with
    | none => (s1, .error 0)
    | some i => if slotBytes < size then (s1, .error 0) else (s1, .ok (i, save + 65536 + i * slotBytes))

/-- Checks that a range can be written by the device. -/
def checkWritable (s : State) (ctx core va n : Nat) : State × Option Nat :=
  match translateRange s (.die (dieOf core)) ctx true .write (n / 4096 + 2) va n with
  | (s1, .ok _) => (s1, none)
  | (s1, .error e) => (s1, some e.2)

/-- The request is not carried out: the team resumes, and a record of class 0x08 code 0x06 goes to the ring (R441). -/
def saveFails (s : State) (team : Nat) (tm : Team) (addr : Nat) : State :=
  let s1 := s.setTeam team fun t => { t with preempt := false, preemptLate := false, abort := false }
  let o : Origin := { ctx := s.teamCtx team, core := tm.core, index := tm.index, slot := s.slotOf ⟨team, 0⟩, lane := 0, sup := true,
                      task := tm.task.isSome, early := match tm.task with | some k => k.early | none => false }
  let f := s1.takeFree
  flushOrphans (f.2.orphans ++ [(o, { cls := 8, code := 6, addr := BitVec.ofNat 64 addr, deferred := true,
                                      pc := Config.freeDWord f.1.toNat, detected := s.time })]) f.2

/-- The cluster-shared allocation goes with the last team of its launch taken from the cluster (R102). -/
def carried (s : State) (team : Nat) (tm : Team) : Option Alloc :=
  if s.teams.any fun t => t.1 != team && t.2.launch == tm.launch && clusterOf t.2.core == clusterOf tm.core then none
  else Tbl.at? s.clu (tm.launch, clusterOf tm.core)

/-- A copy engine without the copies of a team; a queue that becomes empty has deficit 0 (R122). -/
def Cluster.without (e : Cluster) (team : Nat) : Cluster :=
  let queues := e.queues.map fun q => q.filter fun c => c.team != team
  { e with queues := queues
           deficit := (e.deficit.zip (e.queues.zip queues)).map fun x => if !x.2.1.isEmpty && x.2.2.isEmpty then 0 else x.1 }

/-- Takes a team from its core: its crews, its copies, the scale cache of its array, and its part in the coroutines (R161). -/
def removeTeam (s : State) (team : Nat) (tm : Team) : State :=
  let run := (s.core tm.core).running
  let gone := match run with | some c => c.team == team | none => false
  let s1 : State := { s with
    teams := Tbl.del s.teams team
    crews := s.crews.filter fun c => c.1.team != team
    scales := if tm.array.isSome then s.scales.filter fun x => x.core != tm.core else s.scales }
  let s2 := s1.setCluster (clusterOf tm.core) fun e => e.without team
  if gone then s2.setCore tm.core fun k => { k with running := none } else s2

/-- A team's copies wait in the image at their next chunk. -/
def State.copiesOf (s : State) (team core : Nat) : List Copy :=
  (s.cluster (clusterOf core)).queues.flatMap fun q => q.filter fun c => c.team == team

/-! ## What an image says (R161, R176, R233, R376) -/

/-- The wait of a thread as a list of values. -/
def Wait.values : Wait → List Nat
  | .none => [0]
  | .mask n => [1, n]
  | .maskTimed n d k => [2, n, d.toNat, k]
  | .bar n p => [3, n, p.toNat]
  | .baton => [4]
  | .region e k pc start log => [5, e.toNat, k.toNat, pc.toNat, start.toNat] ++
      match log with | some x => [x.inst.toNat, x.value.toNat, x.addr.toNat, x.cand] | Option.none => []
  | .quiet d a => [6, d.toNat] ++ (match a with | some x => [x.1, x.2.toNat] | Option.none => [])
  | .halted => [7]
/-- A pending fault as a list of values. -/
def Cause.values (c : Cause) : List Nat :=
  [c.cls, c.code, c.num, c.detail, c.addr.toNat, c.deferred.toNat, c.pc.toNat, c.originPc.toNat, c.originTime, c.detected,
   c.lanes.toNat, match c.resume with | some a => a.toNat + 1 | none => 0]
def Thread.values (t : Thread) : List Nat :=
  [t.pc.toNat] ++ t.g.toList.map (·.toNat) ++
    [t.p.toNat, t.taintG.toNat, t.taintP.toNat, t.taintC.toNat, match t.sched with | some l => l.toNat + 1 | none => 0,
     t.exited.toNat] ++ t.wait.values ++ [t.fpAtoms] ++ (match t.trap with | some c => c.values | none => [])
def Crew.values (c : Crew) (baton : Nat) : List Nat :=
  c.k.toList.map (·.toNat) ++ [c.taintK.toNat] ++
    c.mask.toList.flatMap (fun m => [m.m.toNat, m.a.toNat, m.phase.toNat]) ++ [baton, c.retired.toNat]
def Plane.values (p : Plane) : List Nat :=
  p.w.flatMap (fun x => [x.1, x.2]) ++ [p.format, p.modeB.toNat] ++ p.exps.flatMap (fun x => [x.1, x.2]) ++
    [p.tensor, p.base.toNat]
def Matrix.values (a : Matrix) (baton : Nat) : List Nat :=
  [a.config.toNat] ++ a.tiles.flatMap (fun t => t.flatMap fun x => [x.1, x.2.toNat]) ++ a.act.values ++ a.shd.values ++
    a.bindings.flatMap (fun b => [b.1.toNat, b.2.toNat]) ++ [baton]
def Solve.values (z : Solve) (arrived : List Nat) : List Nat :=
  [z.active.toNat, z.startPc.toNat, z.endPc.toNat, z.thresh.toNat, z.lambda.toNat, z.beta.toNat, z.ceil, z.depth, z.history] ++
    z.tiles.map (·.toNat) ++ [z.k, z.phase.toNat] ++ arrived
def Copy.values (c : Copy) : List Nat :=
  [c.layout.base.toNat, c.layout.space, c.layout.format, c.layout.rank, c.layout.pitch, c.layout.fill.toNat, c.layout.fillMode,
   c.layout.scaleBase.toNat, c.layout.scaleStride] ++ c.layout.dims.flatMap (fun d => [d.1, d.2.1, d.2.2]) ++
    c.origin.map (fun (x : Int) => (x % 2 ^ 64).toNat) ++
    [c.toTensor.toNat, c.dense, c.denseOff] ++ c.targets ++ c.indices ++
    [match c.tag with | some t => t + 1 | none => 0, c.barrier, c.span, c.chunk]

/-- A part of an image: its contents in a layout that the spec does not give (assumption 43), in its size. -/
def imagePart (kind : Nat) (contents : List Nat) (size : Nat) : List Byte := (upto size).map (Config.partByte kind contents)

/-- The crews of a team that wait at the region barrier. -/
def State.regionArrivals (s : State) (team : Nat) : List Nat :=
  (s.teamCrews team).filterMap fun c =>
    if c.2.anyThread (fun t => match t.wait with | .region _ _ _ _ _ => true | _ => false) then some c.1.crew else none

/-- The header: identity, barriers with their arrivals, tags, the die the team is bound to, and its coordinates (R233, R376). -/
def headerValues (s : State) (team : Nat) (tm : Team) : List Nat :=
  let die := match s.launch? tm.launch with | some l => if l.chip = 0 then 0 else dieOf tm.core + 1 | none => 0
  let run := match (s.core tm.core).running with | some c => if c.team = team then c.crew + 1 else 0 | none => 0
  [s.teamCtx team, tm.launch, tm.index, tm.crews, tm.handlers] ++ tm.barPhase.toList.map (·.toNat) ++
    tm.barOrder.flatMap (fun x => [x.1, x.2]) ++ [tm.solve.phase.toNat, tm.tags.toNat, die, run] ++
    s.regionArrivals team ++ [tm.x.toNat, tm.y.toNat, tm.z.toNat, tm.stage]

/-- Bytes padded to a multiple of 256. -/
def padded (bs : List Byte) : List Byte := bs ++ List.replicate (round256 bs.length - bs.length) 0

/-- The Memory part: the scratchpad allocation, the lane-private allocations by crew and lane, and a cluster-shared allocation
that the image carries. -/
def memoryPart (s : State) (team : Nat) (tm : Team) (alloc : Option Alloc) : List Byte :=
  padded (Mem.bytes tm.scratch 0 tm.scratchSize ++
    ((upto (tm.crews + tm.handlers)).flatMap fun c => (upto 64).flatMap fun l =>
      Mem.bytes (s.thread ⟨team, c, l⟩).lane 0 tm.laneSize) ++
    match alloc with | some a => Mem.bytes a.mem 0 a.size | none => [])

/-- The bytes of an image or a stop dump: its parts in the order and sizes of R233 and R234. -/
def imageBytes (s : State) (team : Nat) (tm : Team) (alloc : Option Alloc) (memory : Bool) : List Byte :=
  let crews := (upto (tm.crews + tm.handlers)).map fun c => (s.crew? ⟨team, c⟩).getD (Crew.start 0 0 0)
  let copies := s.copiesOf team tm.core
  imagePart 0 (headerValues s team tm) 1024 ++
    (crews.flatMap fun c => (upto 64).flatMap fun l => imagePart 1 (c.thread l).saved.values 512) ++
    (crews.flatMap fun c => imagePart 2 (c.values tm.baton ++ [c.quietCount]) 1024) ++
    (match tm.array with | some a => imagePart 3 (a.values tm.baton) (352 * 1024) | none => []) ++
    imagePart 4 (tm.solve.values (s.regionArrivals team)) 256 ++
    padded (copies.flatMap fun c => imagePart 5 c.values 128) ++
    (match tm.task with
     | some k => if k.committed then [] else
        imagePart 6 (k.buffer.flatMap fun b =>
          b.stores.flatMap (fun x => x.va.toNat :: x.sup.toNat :: x.offs) ++ b.data.flatMap fun x => [x.1, x.2.toNat]) (1024 * k.capacity)
     | none => []) ++
    (if memory then memoryPart s team tm alloc else [])

/-- An abort: the write buffer and all state are discarded, and the record is at the head of its class again (R411). -/
def abortTask (s : State) (team : Nat) (tm : Team) (k : Task) : State :=
  (removeTeam s team tm).setCore tm.core fun c =>
    { c with tasks := { k.queued with time := s.time, launch := tm.launch } :: c.tasks }

/-- The image is complete: its slot is taken, and the team is out (R233, R234, R236). -/
def storeImage (s : State) (team : Nat) (tm : Team) (slot : Nat) : State :=
  let x := s.takeSerial
  let steps := (s.core tm.core).steps
  let save := fun (t : Thread) =>
    { t.saved with wait := if s.isDet team then t.wait.shift (fun d => d - steps) else t.wait }
  let crews := (s.teamCrews team).map fun c => (c.1, { c.2 with threads := c.2.threads.map save, fence := none })
  let run := match (s.core tm.core).running with
    | some c => if c.team = team then some c else none
    | none => none
  let alloc := carried s team tm
  let image : Image := { id := x.1, ctx := s.teamCtx team, slot := slot, team := team,
                         data := { tm with preempt := false, preemptLate := false, abort := false }, crews := crews,
                         copies := s.copiesOf team tm.core, running := run, cluster := alloc }
  let s1 := removeTeam x.2 team tm
  let s2 : State := { s1 with
    images := s1.images ++ [image]
    clu := if alloc.isSome then s1.clu.filter fun a => a.1 != (tm.launch, clusterOf tm.core) else s1.clu }
  s2.setLaunch tm.launch fun l => { l with out := l.out ++ [tm.index] }

/-- A team named for pre-emption is taken, and its image written into the lowest free slot; one named for an abort is
discarded. -/
def execTeamImageSave (team : Nat) (s : State) : Host.Outcome State Fault Refusal :=
  match s.team? team with
  | none => .next s
  | some tm =>
    if !saveReady s team tm then .next s
    else
      match tm.abort && tm.abortable, tm.task with
      | true, some k => .next (abortTask s team tm k)
      | _, _ =>
        match writeBackTeam (deferWaiting s team) team tm with
        | none => .next s
        | some s1 =>
        let ctx := s.teamCtx team
        let shared := match carried s1 team tm with | some a => a.size | none => 0
        let size := imageSize tm (s1.copiesOf team tm.core).length shared true
        match findSlot s1 ctx tm.core size with
        | (s2, .error a) => .next (saveFails s2 team tm a)
        | (s2, .ok (slot, va)) =>
          match checkWritable s2 ctx tm.core va size with
          | (s3, some a) => .next (saveFails s3 team tm a)
          | (s3, none) =>
            match setSlotBit s3 ctx tm.core slot true with
            | (s4, false) => .next (saveFails s4 team tm (slotByte s4 ctx slot))
            | (s4, true) =>
              let s5 := traceTeam s4 team 10 0
              match s5.team? team with
              | some t =>
                let s6 := (writeVirt s5 (dieOf tm.core) ctx true va (imageBytes s5 team t (carried s5 team t) true)).1
                .next (storeImage s6 team t slot)
              | none => .next s5

end Sys2Proof.Machine
end

