-- ==== Sys2Proof/Machine/HostLink.lean ====
section
/-!
DEFINITION. The Cerset link: host fetches (R242, R434, R435) and publications (R140, R243 to R245).
-/
namespace Sys2Proof.Machine

/-! ## Host fetches -/

/-- The registers of a fetch hold values within the limits of R242. -/
def fetchOk (c : Ctx) : Bool :=
  c.hfsrc.toNat % 64 == 0 && c.hfdst.toNat % 64 == 0 && c.hflen.toNat % 64 == 0 && 64 ≤ c.hflen.toNat &&
    c.hflen.toNat ≤ 16 * 2 ^ 20

/-- The oldest fetch of a context asks the host for its data; one that has failed keeps the later ones waiting. -/
def askHost (s : State) (ctx : Nat) : State :=
  match s.ctx? ctx with
  | none => s
  | some c =>
    match c.fetches with
    | f :: rest =>
      if f.requested || f.failed then s
      else
        (s.setCtx ctx fun c => { c with fetches := { f with requested := true, since := s.time } :: rest }).tell
          (.readRequest f.src f.length)
    | [] => s

/-- The words of memory that a work of an engine will write from an address on, page by page; a page that does not translate has
none. The link looks up from the TLB of die 0 (assumption 75). -/
def engineWords (s : State) (die ctx dst length : Nat) : List Nat :=
  (upto (length / 4096 + 2)).flatMap fun i =>
    let lo := max dst ((dst / 4096 + i) * 4096)
    let hi := min (dst + length) ((dst / 4096 + i + 1) * 4096)
    match (translate s (.die die) ctx (BitVec.ofNat 64 lo) true .write).2 with
    | .ok pa => (upto ((hi - lo) / 4)).map fun k => pa / 4 + k
    | .error _ => []

/-- The words that the fetch of a context's registers will write. -/
def Ctx.fetchWords (c : Ctx) (s : State) (ctx : Nat) : List Nat := engineWords s 0 ctx c.hfdst.toNat c.hflen.toNat

/-- A thread starts a fetch from the context's registers: as an engine the link takes the words it will write (R135, R242). -/
def startFetch (s : State) (ctx : Nat) (r : TRef) : State :=
  let c := (s.ctx? ctx).getD Ctx.reset
  let x := s.takeSerial
  let marks := c.fetchWords s ctx
  let f : Fetch :=
    { id := x.1, src := c.hfsrc, dst := c.hfdst, length := c.hflen.toNat, written := 0, requested := false, since := s.time,
      failed := false, team := r.team, origin := s.originOf r, pc := (s.thread r).pc, time := s.time, cycle := s.cycle,
      core := s.teamCore r.team, marks := marks }
  askHost ((recallWords x.2 marks none r.lane).setCtx ctx fun c => { c with fetches := c.fetches ++ [f] }) ctx

/-- `cr.hfdone` after a fetch has ended: the count, and whether it was abandoned. -/
def hfdoneNext (v : DWord) (abandoned : Bool) : DWord :=
  BitVec.ofNat 64 ((v.toNat % 2 ^ 63 + 1) % 2 ^ 63 + (if abandoned then 2 ^ 63 else 0))

/-- The oldest fetch of a context ends. -/
def endFetch (s : State) (ctx : Nat) (abandoned : Bool) : State :=
  askHost (s.setCtx ctx fun c => { c with fetches := c.fetches.drop 1, hfdone := hfdoneNext c.hfdone abandoned }) ctx

/-- A write of 2 to `cr.hfgo`: the oldest fetch is abandoned if it has failed. -/
def abandonFetch (s : State) (ctx : Nat) : State :=
  match s.ctx? ctx with
  | none => s
  | some c =>
    match c.fetches with
    | f :: _ => if f.failed then endFetch s ctx true else s
    | [] => s

/-- A write of 1 to `cr.hfgo` by a thread, whose registers are within their limits; it waits while the words cannot be recalled. -/
def execHostFetchStart (ctx : Nat) (r : TRef) (s : State) : Host.Outcome State Fault Refusal :=
  match s.ctx? ctx with
  | none => .next s
  | some c => .next (if fetchOk c && !s.recallBlocked (c.fetchWords s ctx) none then startFetch s ctx r else s)
/-- A write of 2 to `cr.hfgo`. -/
def execHostFetchAbandon (ctx : Nat) (s : State) : Host.Outcome State Fault Refusal := .next (abandonFetch s ctx)

/-- The oldest fetch of a context fails: its fault pends on the team that started it, and the words it has not written return to
their homes (R432). -/
def failFetch (s : State) (ctx : Nat) (f : Fetch) (cls code detail : Nat) (addr : DWord) : State :=
  let s1 := s.setCtx ctx fun c => { c with fetches := { f with failed := true, marks := [] } :: c.fetches.drop 1 }
  s1.deferFor f.team f.origin { cls := cls, code := code, detail := detail, addr := addr, pc := f.pc, originPc := f.pc,
                                originTime := f.time, detected := s.time, lanes := laneBit f.origin.lane,
                                crew := some f.origin.slot }

/-- Writes the data of a fetch in pieces of 64 bytes, as an engine and a supervisor access; stops at the first place that
fails. -/
def writeFetch (s : State) (ctx : Nat) (f : Fetch) : Nat → List Byte → State × Fetch × Option (Nat × Nat × Nat × Nat)
  | 0, _ => (s, f, none)
  | fuel + 1, bs =>
    let n := min (min 64 bs.length) (f.length - f.written)
    if n = 0 then (s, f, none)
    else
      let va := f.dst.toNat + f.written
      match translate s (.die 0) ctx (BitVec.ofNat 64 va) true .write with
      | (s1, .error e) => (s1, f, some (8, 5, f.written / 2048, va))
      | (s1, .ok pa) =>
        if s1.shut pa then (s1, f, some (12, 5, s1.errorDetail pa, va))
        else
          let left := f.marks.filter fun w => !(Place.units .phys pa n).contains w
          writeFetch (noteForeign (engineWrite s1 pa (bs.take n)) pa n) ctx { f with written := f.written + n, marks := left }
            fuel (bs.drop n)

/-- Work of an engine issued earlier has still to write one of some words (R432). -/
def State.heldEarlier (s : State) (k : EngineRank) (words : List Nat) : Bool :=
  s.engineUnits.any fun m => m.1.before k && m.2.1 == .phys && words.contains m.2.2

/-- Data of the oldest fetch arrives from the host, or the host answers with an error; data for words that an earlier engine has
still to write is not taken yet. -/
def execHostReadData (ctx : Nat) (bytes : List Byte) (error : Bool) (s : State) : Host.Outcome State Fault Refusal :=
  match s.ctx? ctx with
  | none => .next s
  | some c =>
    match c.fetches with
    | [] => .next s
    | f :: _ =>
      if !f.requested || f.failed then .next s
      else if error then .next (failFetch s ctx f 8 7 (f.written / 2048) (f.src + BitVec.ofNat 64 f.written))
      else
        if s.heldEarlier ⟨f.cycle, f.core, f.id⟩ (engineWords s 0 ctx (f.dst.toNat + f.written) (min bytes.length (f.length - f.written)))
        then .next s
        else
        match writeFetch s ctx f (bytes.length / 64 + 1) bytes with
        | (s1, f1, some (cls, code, detail, va)) => .next (failFetch s1 ctx f1 cls code detail (BitVec.ofNat 64 va))
        | (s1, f1, none) =>
          let s2 := s1.setCtx ctx fun c => { c with fetches := { f1 with since := s.time } :: c.fetches.drop 1 }
          .next (if f1.written = f1.length then endFetch s2 ctx false else s2)

/-- The host has not answered for 1 ms. -/
def execHostFetchTimeout (ctx : Nat) (s : State) : Host.Outcome State Fault Refusal :=
  match s.ctx? ctx with
  | none => .next s
  | some c =>
    match c.fetches with
    | [] => .next s
    | f :: _ =>
      if f.requested && !f.failed && f.since + 1000000 ≤ s.time then
        .next (failFetch s ctx f 8 7 (f.written / 2048) (f.src + BitVec.ofNat 64 f.written))
      else .next s

/-! ## Publications (R243, R244) -/

/-- A window descriptor: device base, host base, version, length. -/
structure Window where
  base : Nat
  host : DWord
  version : Nat
  length : Nat

def Window.ofBytes (b : List Byte) : Window := ⟨pk b 0 8, BitVec.ofNat 64 (pk b 8 8), pk b 16 8, pk b 24 4⟩

/-- The address of a window's descriptor. -/
def windowAt (s : State) (ctx n : Nat) : Nat :=
  (match s.ctx? ctx with | some c => c.pubtab.toNat | none => 0) + 32 * n

/-- What a read of the link engine finds: bytes, the class, code, detail and address of its failure, or words that an engine
issued before it has still to write (R136, R433). -/
inductive LinkRes where
  | got (bs : List Byte)
  | failed (cls code detail va : Nat)
  | waits

def linkRead (s : State) (ctx : Nat) (sup : Bool) (k : EngineRank) (va n : Nat) : State × LinkRes :=
  match translateRange s (.die 0) ctx sup .read (n / 4096 + 2) va n with
  | (s1, .error f) => (s1, .failed 8 4 ((f.2 - va) / 2048) f.2)
  | (s1, .ok ps) =>
    if s1.heldEarlier k (ps.flatMap fun x => Place.units .phys x.1 x.2) then (s1, .waits)
    else
      match ps.find? fun x => s1.deadRange x.1 x.2 with
      | some x => (s1, .failed 12 5 (s1.errorDetail x.1) va)
      | none => (ps.foldl (fun s x => noteForeign s x.1 x.2) s1, .got (ps.flatMap fun x => s1.homeBytes x.1 x.2))

/-- A publication leaves the line: it is an outstanding result of its thread no more. -/
def endPublication (s : State) (p : Publication) : State :=
  giveValues { s with publications := s.publications.erase p } p.thread p.out []

/-- A publication that fails pends its fault on the team of the `PUBLISH`. -/
def failPublication (s : State) (p : Publication) (cls code detail : Nat) (va : DWord) : State :=
  (endPublication s p).deferFor p.thread.team p.origin
    { cls := cls, code := code, detail := detail, addr := va, pc := p.pc, originPc := p.pc, originTime := p.time,
      detected := s.time, lanes := laneBit p.origin.lane, crew := some p.origin.slot }

/-- The place of a publication among engines, and among the publications of one window (R244). -/
def Publication.rank (p : Publication) : EngineRank := ⟨p.cycle, p.origin.core, p.out⟩
def Publication.turn (p : Publication) : EngineRank := ⟨p.cycle, p.origin.core, p.thread.lane⟩

/-- The publication of a window whose turn it is: by the completion of the releases, in one cycle by core and lane; the cycle of
its issue has ended. -/
def State.publication? (s : State) (ctx window : Nat) : Option Publication :=
  (s.publications.filter fun p => p.ctx == ctx && p.window == window && p.cycle < s.cycle).foldl (fun b p =>
    match b with
    | some q => if p.turn.before q.turn then some p else b
    | none => some p) none

/-- A window's data goes to the host; once the host has accepted it, the version in the device and the counter at the host are
written (R244, R434). -/
def execPublicationWrite (ctx window : Nat) (s : State) : Host.Outcome State Fault Refusal :=
  match s.publication? ctx window with
  | none => .next s
  | some p =>
    let at_ := windowAt s ctx window
    match p.sent with
    | some (_, _, counter, version) =>
      let v := leBytes 8 version
      if virtBusy s 0 ctx true .write (at_ + 16) 8 then .next s
      else
        match writeVirt s 0 ctx true (at_ + 16) v with
        | (s1, .error f) =>
          let (cls, code, detail) := match f.1.mem with | some d => (12, 5, d) | none => (8, 4, 0)
          .next (failPublication s1 p cls code detail (BitVec.ofNat 64 f.2))
        | (s1, .ok _) => .next (endPublication (s1.tell (.write counter v)) p)
    | none =>
      match linkRead s ctx true p.rank at_ 32 with
      | (s1, .waits) => .next s1
      | (s1, .failed cls code detail va) => .next (failPublication s1 p cls code detail (BitVec.ofNat 64 va))
      | (s1, .got d) =>
        let w := Window.ofBytes d
        match linkRead s1 ctx p.sup p.rank w.base w.length with
        | (s2, .waits) => .next s2
        | (s2, .failed cls code detail va) => .next (failPublication s2 p cls code detail (BitVec.ofNat 64 va))
        | (s2, .got data) =>
          let sent := (s.time, w.host, w.host + BitVec.ofNat 64 w.length, w.version + 1)
          let s3 : State := { s2 with publications := s2.publications.map fun q => if q = p then { q with sent := some sent } else q }
          .next (s3.tell (.write w.host data))

/-- The host has not accepted a publication's write 1 ms after it was sent (R434). -/
def execPublicationTimeout (ctx window : Nat) (s : State) : Host.Outcome State Fault Refusal :=
  match s.publication? ctx window with
  | none => .next s
  | some p =>
    match p.sent with
    | some (time, host, _, _) => .next (if time + 1000000 ≤ s.time then failPublication s p 8 8 0 host else s)
    | none => .next s

end Sys2Proof.Machine
end

