-- ==== Sys2Proof/Machine/System.lean ====
section
/-!
DEFINITION. The system instructions: `TRAP` and `ERET` (R357, R358, R404, R417), `CRR` and `CRW` with every control register
(R359, R360, R242, R243, R390 to R392, R395), `ICINV`, `TLBINV`, `BIST` and `HALT` (R361 to R364, R389, R390), and the events
they start.
-/
namespace Sys2Proof.Machine

/-! ## TRAP and ERET -/

/-- What a `TRAP` below 2,048 finds at bytes 2,048 to 2,055 of `c7`. -/
inductive TrapEntry where
  | word (v : DWord)
  | fault (s : State) (c : Cause)
  | missing (s : State)

def trapEntry (s : State) (r : TRef) : TrapEntry :=
  match bankOperand s r 7 512 with
  | .fault s1 c => .fault s1 c
  | .missing s1 => .missing s1
  | .held lo =>
    match bankOperand s r 7 513 with
    | .fault s1 c => .fault s1 c
    | .missing s1 => .missing s1
    | .held hi => .word (hi ++ lo)

/-- The program trap of a thread, to the supervisor handler: it resumes at the word after the `TRAP`. The address field of
number 2,048 holds a link-table entry's address, of which the spec says only that it is aligned on 16 bytes: no register of the
`TRAP` names the entry (R271, R440, assumption 36). -/
def programTrap (s : State) (t : Thread) (n : Nat) : State × Cause :=
  let x := if n = 2048 then s.takeFree else (0, s)
  (x.2, { cls := 1, code := 0, num := n, resume := some (t.pc + s.cur.len),
          addr := if n = 2048 then Config.freeDWord x.1.toNat &&& ~~~15#64 else 0 })

def trapLane (f : TrapF) (r : TRef) (s : State) : LaneRes :=
  let t := s.thread r
  let n := f.n.toNat
  let up := fun (s : State) => let x := programTrap s t n; LaneRes.trap x.1 x.2
  if t.sup || 2048 ≤ n then up s
  else
    match trapEntry s r with
    | .fault s1 c => .trap s1 c
    | .missing s1 => .stall s1
    | .word v => if v = 0 then up s else .jump (s.setThread r fun t => userTrap t v n s.cur.len)

def execTrap (f : TrapF) (s : State) : Host.Outcome State Fault Refusal :=
  issue (.trap f) s fun s => s.eachLane (.trap f) (trapLane f)

/-- `ERET` in one lane: the target, then the return. -/
def eretLane (r : TRef) (s : State) : LaneRes :=
  let t := s.thread r
  match targetFault s r t.epc true with
  | some k => .trap s { cls := 4, code := k, addr := t.epc }
  | none => .jump (s.setThread r eretThread)

def execEret (f : R0) (s : State) : Host.Outcome State Fault Refusal :=
  issue (.eret f) s fun s => s.eachLane (.eret f) eretLane

/-! ## Control registers -/

/-- The control registers by name. -/
inductive Creg where
  | epc | estat | ecause
  | ptroot | taskspill | saveaddr | preempt | preemptl | fqperiod
  | prog (n : Nat)
  | hfsrc | hfdst | hflen | hfgo | hfdone | pubtab | pubcnt
  | bistres | bistfail
  | rail (n : Nat)
  | eyesel | eyego | eyeaddr | age
  deriving DecidableEq, Repr

/-- The register of an index; every other index is reserved (R360). -/
def Creg.ofIndex (x : Nat) : Option Creg :=
  match x with
  | 0x0010 => some .epc
  | 0x0011 => some .estat
  | 0x0012 => some .ecause
  | 0x0100 => some .ptroot
  | 0x0101 => some .taskspill
  | 0x0102 => some .saveaddr
  | 0x0103 => some .preempt
  | 0x0104 => some .preemptl
  | 0x0110 => some .fqperiod
  | 0x0200 => some .hfsrc
  | 0x0201 => some .hfdst
  | 0x0202 => some .hflen
  | 0x0203 => some .hfgo
  | 0x0204 => some .hfdone
  | 0x0210 => some .pubtab
  | 0x0211 => some .pubcnt
  | 0x0400 => some .bistres
  | 0x0401 => some .bistfail
  | 0x0420 => some .eyesel
  | 0x0421 => some .eyego
  | 0x0422 => some .eyeaddr
  | 0x0430 => some .age
  | x =>
    if 0x0120 ≤ x && x ≤ 0x0127 then some (.prog (x - 0x0120))
    else if 0x0410 ≤ x && x ≤ 0x0416 then some (.rail (x - 0x0410))
    else none

/-- A 64-bit register. -/
def Creg.wide : Creg → Bool
  | .estat | .ecause | .hflen | .hfgo | .pubcnt | .rail _ | .eyesel | .eyego => false
  | _ => true

/-- The value of a control register as a thread reads it. -/
def readCreg (s : State) (r : TRef) (c : Creg) : DWord :=
  let t := s.thread r
  let x := (s.ctx? (s.teamCtx r.team)).getD Ctx.reset
  let n := dieOf (s.teamCore r.team)
  let d := s.die n
  let w := fun (v : Word) => v.setWidth 64
  match c with
  | .epc => t.epc
  | .estat => w t.estat
  | .ecause => w t.ecause
  | .ptroot => x.ptroot
  | .taskspill => x.taskspill
  | .saveaddr => x.saveaddr
  | .preempt => 0
  | .preemptl => x.preemptl
  | .fqperiod => x.fqperiod
  | .prog i => x.prog.getD i 0
  | .hfsrc => x.hfsrc
  | .hfdst => x.hfdst
  | .hflen => w x.hflen
  | .hfgo => 0
  | .hfdone => x.hfdone
  | .pubtab => x.pubtab
  | .pubcnt => w x.pubcnt
  | .bistres => d.bistres
  | .bistfail => d.bistfail
  | .rail i => BitVec.ofNat 64 ((Config.railMillivolts n i s.fresh).toNat * 65536 + (d.rails.getD i 0).toNat)
  | .eyesel => w d.eyesel
  | .eyego => if d.scan.isSome then 1 else 0
  | .eyeaddr => d.eyeaddr
  | .age => d.age

/-- The words that an eye scan of a die will write; none while one runs. -/
def scanWords (s : State) (die ctx : Nat) (addr : DWord) : List Nat :=
  if (s.die die).scan.isSome then [] else engineWords s die ctx addr.toNat 4096
/-- Starts an eye scan where none runs: as an engine it takes the words of its result (R135, R392). `core` ranks it, 256 for the
management. -/
def startScan (s : State) (die : Nat) (sel : Word) (addr : DWord) (ctx core lane : Nat) : State :=
  if (s.die die).scan.isSome then s
  else
    let x := s.takeSerial
    let words := scanWords s die ctx addr
    (recallWords x.2 words none lane).setDie die fun d => { d with scan := some ⟨sel, addr, ctx, x.1, s.cycle, core, words⟩ }

/-- Sets `fq.period` of a job (R178, R360). -/
def setPeriod (s : State) (job : BitVec 16) (period : Word) : State := s.setJob job fun j => { j with period := period }

/-- Writes a control register for a thread, with the effect of a write that is a command. -/
def writeCreg (s : State) (r : TRef) (c : Creg) (v : DWord) : State :=
  let ctx := s.teamCtx r.team
  let die := dieOf (s.teamCore r.team)
  let lo := v.setWidth 32
  match c with
  | .epc => s.setThread r fun t => { t with epc := v }
  | .estat => s.setThread r fun t => { t with estat := lo }
  | .ecause => s.setThread r fun t => { t with ecause := lo &&& ~~~0xE#32 }
  | .ptroot => s.setCtx ctx fun x => { x with ptroot := v }
  | .taskspill => s.setCtx ctx fun x => { x with taskspill := v }
  | .saveaddr => s.setCtx ctx fun x => { x with saveaddr := v }
  | .preempt => requestPreempt s ctx (match s.team? r.team with | some t => t.launch | none => 0) v
  | .preemptl => s.setCtx ctx fun x => { x with preemptl := v }
  | .fqperiod =>
    setPeriod (s.setCtx ctx fun x => { x with fqperiod := v }) (v.setWidth 16) (BitVec.ofNat 32 (bits v.toNat 63 32))
  | .prog n => s.setCtx ctx fun x => { x with prog := x.prog.mapIdx fun i w => if i = n then v else w }
  | .hfsrc => s.setCtx ctx fun x => { x with hfsrc := v }
  | .hfdst => s.setCtx ctx fun x => { x with hfdst := v }
  | .hflen => s.setCtx ctx fun x => { x with hflen := lo }
  | .hfgo => if lo = 1 then startFetch s ctx r else abandonFetch s ctx
  | .hfdone => s.setCtx ctx fun x => { x with hfdone := v }
  | .pubtab => s.setCtx ctx fun x => { x with pubtab := v }
  | .pubcnt => s.setCtx ctx fun x => { x with pubcnt := lo }
  | .bistres => s.setDie die fun d => { d with bistres := v &&& ~~~0xFFFF0000#64 }
  | .bistfail => s.setDie die fun d => { d with bistfail := v }
  | .rail n => writeRail s die n (s.teamCore r.team) (v.setWidth 8)
  | .eyesel => s.setDie die fun d => { d with eyesel := lo &&& 0xFFFF#32 }
  | .eyego => startScan s die (s.die die).eyesel (s.die die).eyeaddr ctx (s.teamCore r.team) r.lane
  | .eyeaddr => s.setDie die fun d => { d with eyeaddr := v }
  | .age => s.setDie die fun d => { d with age := v }

/-- The class 0x02 fault of a `CRR` or `CRW` word: a reserved index (code 0x04, its field at bit 7), an odd pair (code 0x05, at
bit 19). -/
def cregFault (f : CrF) (s : State) (r : TRef) : Option Cause :=
  match Creg.ofIndex ((s.thread r).crIndex f.x) with
  | none => some { cls := 2, code := 4, detail := 7 }
  | some c => if c.wide && f.r.getLsbD 0 then some { cls := 2, code := 5, detail := 19 } else none

/-- The value a `CRW` writes: a pair or one register. -/
def cregValue (f : CrF) (t : Thread) (c : Creg) : DWord := if c.wide then t.pair f.r else (t.reg f.r).setWidth 64

/-- A value that is reserved for its register (R242, R360, R411). -/
def cregReserved (s : State) (r : TRef) (c : Creg) (v : DWord) : Bool :=
  match c with
  | .preempt => preemptReserved s (s.teamCtx r.team) (match s.team? r.team with | some t => t.launch | none => 0) v
  | .fqperiod => bits v.toNat 31 16 != 0 || bits v.toNat 63 32 < 256
  | .hfgo => v != 1 && v != 2
  | _ => false

def crwFault (f : CrF) (s : State) (r : TRef) : Option Cause :=
  match cregFault f s r with
  | some c => some c
  | none =>
    let t := s.thread r
    match Creg.ofIndex (t.crIndex f.x) with
    | some c =>
      if guardOf (.crw f) t && cregReserved s r c (cregValue f t c) then some { cls := 2, code := 4, detail := 19 } else none
    | none => none

/-- `CRR` in one lane: the read, then an acquire. -/
def crrLane (f : CrF) (r : TRef) (s : State) : LaneRes :=
  match Creg.ofIndex ((s.thread r).crIndex f.x) with
  | none => .ok s
  | some c =>
    let v := readCreg s r c
    let s1 := match c with | .rail _ => { s with fresh := s.fresh + 1 } | _ => s
    .ok (acquire (s1.setThread r fun t => if c.wide then t.setPair f.r v else t.setReg f.r (v.setWidth 32)) r.cref)

def execCrr (f : CrF) (s : State) : Host.Outcome State Fault Refusal :=
  issueWith (.crr f) (cregFault f) s fun s => s.eachLane (.crr f) (crrLane f)

/-- A write that a task commits for first: one that starts a host fetch or sets a fabric period (R45). -/
def crwCommits (c : Creg) (v : DWord) : Bool := c == .fqperiod || (c == .hfgo && v == 1)

/-- The words that the engine takes which a write of a register starts (R135). -/
def crwWords (s : State) (r : TRef) (c : Creg) (v : DWord) : List Nat :=
  let ctx := s.teamCtx r.team
  match c with
  | .hfgo => if v = 1 then ((s.ctx? ctx).getD Ctx.reset).fetchWords s ctx else []
  | .eyego => let die := dieOf (s.teamCore r.team); scanWords s die ctx (s.die die).eyeaddr
  | _ => []

/-- `CRW` in one lane: a release, then the write; it waits while the words of an engine it starts cannot be recalled. -/
def crwLane (f : CrF) (r : TRef) (s : State) : LaneRes :=
  let t := s.thread r
  match Creg.ofIndex (t.crIndex f.x) with
  | none => .ok s
  | some c =>
    let v := cregValue f t c
    let refused := c == .hfgo && v == 1 && !(match s.ctx? (s.teamCtx r.team) with | some x => fetchOk x | none => false)
    if refused then .trap s { cls := 5, code := 4, detail := f.r.toNat }
    else
      let write := fun (s : State) => afterRelease s r fun s2 =>
        if s2.recallBlocked (crwWords s2 r c v) none then .stall s2 else .ok (writeCreg s2 r c v)
      if crwCommits c v then afterCommit s r write else write s

def execCrw (f : CrF) (s : State) : Host.Outcome State Fault Refusal :=
  issueWith (.crw f) (crwFault f) s fun s => s.eachLane (.crw f) (crwLane f)

/-! ## Events of the control registers -/

/-- A write of `cr.fqperiod` sets the period of a job; a period below 256 is reserved. -/
def execSetFabricPeriod (job : BitVec 16) (period : Word) (s : State) : Host.Outcome State Fault Refusal :=
  .next (if period.toNat < 256 then s else setPeriod s job period)
/-- A write of a rail register of a die, ranked as one of the die's first core: the event names none. -/
def execRailOffsetWrite (die rail : Nat) (step : BitVec 8) (s : State) : Host.Outcome State Fault Refusal :=
  .next (if die < 4 then writeRail s die rail (64 * die) step else s)
/-- A write of `cr.eyego` on a die, in a launch context; it waits while the words of its result cannot be recalled. -/
def execEyeScanStart (die ctx : Nat) (s : State) : Host.Outcome State Fault Refusal :=
  .next (if s.recallBlocked (scanWords s die ctx (s.die die).eyeaddr) none then s
         else startScan s die (s.die die).eyesel (s.die die).eyeaddr ctx (64 * die) 0)

/-- The result of a scan: 1,024 counts of errors over 2^20 bits (R392). -/
def eyeBytes (run : Nat) : List Byte := (upto 1024).flatMap fun i => leBytes 4 ((Config.eyeCount run i).toNat % (2 ^ 20 + 1))

/-- The scan of a die ends: its result is written as an engine, after the engines that were issued before it (R432). -/
def execEyeScanComplete (die : Nat) (s : State) : Host.Outcome State Fault Refusal :=
  match (s.die die).scan with
  | none => .next s
  | some x =>
    if s.heldEarlier ⟨x.cycle, x.core, x.id⟩ x.marks then .next s
    else
    let s1 := (writeVirt s die x.ctx true x.addr.toNat (eyeBytes s.fresh)).1
    .next ({ s1 with fresh := s.fresh + 1 }.setDie die fun d => { d with scan := none })

/-! ## ICINV and TLBINV -/

/-- A range of addresses overlaps `n` bytes at an address; length 0 of the first covers everything. -/
def overlaps (a len at_ n : Nat) : Bool := len == 0 || (a < at_ + n && at_ < a + len)

/-- Drops the lines of a context, the store entries and the windows under study that overlap a range (R214, R361). -/
def invalidateCode (s : State) (ctx a len : Nat) : State :=
  let hit := fun (window : DWord) (words : Nat) => overlaps a len window.toNat (4 * words)
  let clean := fun (w : Weevil) =>
    { w with store := w.store.filter fun e => !(e.2.ctx == ctx && hit e.2.window e.2.orig.length)
             study := match w.study with
               | some x => if x.ctx == ctx && hit x.window x.words.length then none else some x
               | none => none
             barren := w.barren.filter fun b => !(b.1 == ctx && hit b.2 8) }
  { s with icache := s.icache.filter fun l => !(l.ctx == ctx && overlaps a len l.va.toNat 256)
           cores := s.cores.map fun c => (c.1, { c.2 with weevil := clean c.2.weevil }) }

def icinvLane (f : Rab) (r : TRef) (s : State) : LaneRes :=
  let t := s.thread r
  afterCommit s r fun s1 => afterRelease s1 r fun s2 =>
    .ok (invalidateCode s2 (s2.teamCtx r.team) (t.pair f.a).toNat (t.reg f.b).toNat)

def execIcinv (f : Rab) (s : State) : Host.Outcome State Fault Refusal :=
  issue (.icinv f) s fun s => s.eachLane (.icinv f) (icinvLane f)

/-- What stands at an address of a context, in a page of a size, is under a translation that a `TLBINV` removes (R362). -/
def onPage (scope ctx va : Nat) (c : Nat) (a : DWord) (page : Nat) : Bool :=
  match scope with
  | 0 => c == ctx && a.toNat / max 1 page == va / max 1 page
  | 1 => c == ctx
  | _ => true

/-- Removes translations from every TLB, with what was filled or stored under them: lines of the instruction caches, and clean
words that the core does not own; dirty words and buffered stores, those in images among them, are marked (R362, R408, R430,
R437). -/
def invalidateTlb (s : State) (scope ctx va : Nat) : State :=
  let hit := onPage scope ctx va
  let l1 := s.l1.filterMap fun w =>
    if !hit w.ctx w.va w.page then some w
    else if w.dirty = 0 then (if w.owned then some w else none)
    else some { w with marked := true }
  let mark := fun (c : Nat) (t : Team) =>
    { t with task := t.task.map fun k => { k with buffer := k.buffer.map fun b =>
        if b.place == .phys then
          { b with stores := b.stores.map fun x => if hit c x.va x.page then { x with marked := true } else x }
        else b } }
  { s with tlb := s.tlb.filter fun e => !hit e.ctx e.va e.size
           l1 := l1
           teams := s.teams.map fun t => (t.1, mark (s.teamCtx t.1) t.2)
           images := s.images.map fun i => { i with data := mark i.ctx i.data }
           icache := s.icache.filter fun l => !hit l.ctx (BitVec.ofNat 64 l.page) l.size }

/-- Class 0x02 of `TLBINV`: reserved bits of its control word (code 0x03), scope 3 (code 0x04), at the b field. -/
def tlbinvFault (f : Rab) (s : State) (r : TRef) : Option Cause :=
  let t := s.thread r
  let w := (t.reg f.b).toNat
  if !guardOf (.tlbinv f) t then none
  else if bits w 15 2 != 0 then some { cls := 2, code := 3, detail := 7 }
  else if bits w 1 0 = 3 then some { cls := 2, code := 4, detail := 7 }
  else none

def tlbinvLane (f : Rab) (r : TRef) (s : State) : LaneRes :=
  let t := s.thread r
  let w := (t.reg f.b).toNat
  afterCommit s r fun s1 => .ok (invalidateTlb s1 (bits w 1 0) (bits w 31 16) (t.pair f.a).toNat)

def execTlbinv (f : Rab) (s : State) : Host.Outcome State Fault Refusal :=
  issueWith (.tlbinv f) (tlbinvFault f) s fun s => s.eachLane (.tlbinv f) (tlbinvLane f)

/-! ## BIST (R363, R389, R390) -/

/-- Targets of a test; 0 for a test that does not exist. -/
def bistTargets (test : Nat) : Nat :=
  match test with
  | 0x01 | 0x02 | 0x03 | 0x04 | 0x05 | 0x06 => 1
  | 0x10 | 0x11 => 32
  | 0x20 => 6
  | _ => 0

/-- Class 0x02 of `BIST`: bits [31:16] of the test word (code 0x03), an undefined test or target (code 0x04), at the a
field. -/
def bistFault (f : R2) (s : State) (r : TRef) : Option Cause :=
  let t := s.thread r
  let w := (t.reg f.a).toNat
  if !guardOf (.bist f) t then none
  else if bits w 31 16 != 0 then some { cls := 2, code := 3, detail := 13 }
  else if bistTargets (bits w 7 0) ≤ bits w 15 8 then some { cls := 2, code := 4, detail := 13 }
  else none

/-- The test goes to the die's controller; its status is an outstanding result. -/
def bistLane (f : R2) (r : TRef) (s : State) : LaneRes :=
  let w := (s.thread r).reg f.a
  afterCommit s r fun s1 =>
    let x := s1.takeSerial
    let s2 := x.2.setThread r fun t => t.addOut x.1 f.d 1 none
    .ok (s2.setDie (dieOf (s2.teamCore r.team)) fun d => { d with bists := d.bists ++ [(r, x.1, w)] })

def execBist (f : R2) (s : State) : Host.Outcome State Fault Refusal :=
  issueWith (.bist f) (bistFault f) s fun s => s.eachLane (.bist f) (bistLane f)

/-- The tested structure holds state of a resident team other than the issuer's: the test is refused. -/
def bistRefused (s : State) (team core test target : Nat) : Bool :=
  let others := s.teams.filter fun t => t.1 != team && t.2.core == core
  match test with
  | 0x01 | 0x03 => !others.isEmpty
  | 0x02 => others.any fun t => t.2.scratchHeld != 0 || t.2.laneSize != 0
  | 0x04 => others.any fun t => t.2.array.isSome
  | 0x05 => others.any fun t => t.2.solve.active
  | 0x06 =>
    let w := (s.core core).weevil
    let keys := w.store.map (fun e => (e.2.ctx, e.2.code, e.2.policy)) ++
      (match w.study with | some x => [(x.ctx, x.code, x.policy)] | none => [])
    others.any fun t => match s.launch? t.2.launch with | some l => keys.contains (l.ctx, l.code, l.policy) | none => false
  | 0x11 =>
    s.chip.any fun a => a.1.2 == dieOf core && overlaps (target * 1048576) 1048576 a.2.base a.2.size &&
      s.teams.any fun t => t.1 != team && t.2.launch == a.1.1
  | _ => false

/-- A self-test destroys what it tests (R389). -/
def bistEffect (s : State) (r : TRef) (core test target : Nat) : State :=
  match test with
  | 0x01 =>
    { s with crews := s.crews.map fun c =>
        if s.teamCore c.1.team = core then
          (c.1, { c.2 with threads := c.2.threads.mapIdx fun l t =>
            if c.1 = r.cref && l = r.lane then t else { t with g := Vector.replicate 64 0 } })
        else c }
  | 0x03 =>
    { s with l1 := s.l1.filter fun w => w.core != core
             icache := s.icache.filter fun l => l.core != core
             tlb := s.tlb.filter fun e => e.at_ != .core core }
  | 0x04 =>
    { s with teams := s.teams.map fun t =>
        if t.2.core = core then (t.1, { t.2 with array := t.2.array.map fun a =>
          { a with act := Plane.start, shd := Plane.start } }) else t }
  | 0x05 =>
    (s.setTeam r.team fun t => { t with solve := { Solve.start with phase := t.solve.phase } }).setCore core fun c =>
      { c with mixing := c.mixing.filter (· != r.team) }
  | 0x06 =>
    s.setCore core fun c => { c with weevil := { c.weevil with store := [], study := none, samples := [], pending := [] } }
  | 0x10 => (s.l2.filter fun l => sliceOf (512 * l.line) == 32 * dieOf core + target).foldl l2Drop s
  | 0x11 =>
    let lo := target * 1048576
    { s with chip := s.chip.map fun a =>
        if a.1.2 = dieOf core then
          (a.1, { a.2 with mem := Mem.keep a.2.mem fun x => !(lo ≤ a.2.base + x && a.2.base + x < lo + 1048576) }) else a }
  | _ => s

/-- The oldest self-test of a die ends: status, and the result registers of a test that ran. -/
def execBistComplete (die : Nat) (s : State) : Host.Outcome State Fault Refusal :=
  match (s.die die).bists with
  | [] => .next s
  | (r, id, w) :: rest =>
    let test := bits w.toNat 7 0
    let target := bits w.toNat 15 8
    let core := s.teamCore r.team
    let s0 := s.setDie die fun d => { d with bists := rest }
    if bistRefused s r.team core test target then .next (giveValues s0 r id [2])
    else
      let n := Config.bistFailing die test target s.fresh
      let s1 := bistEffect { s0 with fresh := s.fresh + 1 } r core test target
      let s2 := s1.setDie die fun d =>
        { d with bistres := BitVec.ofNat 64 (n.toNat * 2 ^ 32 + target * 256 + test)
                 bistfail := if n = 0 then 0 else Config.bistFirst die test target s.fresh }
      .next (giveValues s2 r id [if n = 0 then 0 else 1])

/-! ## HALT (R364) -/

/-- `HALT` stops the issue of its core; the halt takes place and is reported once every instruction issued before it has
completed. -/
def execHalt (f : R0) (s : State) : Host.Outcome State Fault Refusal :=
  issue (.halt f) s fun s =>
    let s1 := s.eachLane (.halt f) fun r s => afterCommit s r fun s1 => .ok s1
    match s1.cur.refs.filter fun r => guardOf (.halt f) (s1.thread r) with
    | [] => s1
    | r :: _ => s1.setCore (s.teamCore r.team) fun c => { c with halting := true }

end Sys2Proof.Machine
end

