-- ==== Sys2Proof/Machine/Debug.lean ====
section
/-!
DEFINITION. Debug and profiling: stops, breakpoints and dumps (R374 to R377), trace requests and recovery (R378 to R382), causal
trials (R383), the histogram engine (R384), with the management commands that ask for them (R386, R387).
-/
namespace Sys2Proof.Machine

/-- Muaro answers a request (R387). -/
def answer (s : State) (command sequence status : Nat) (data : List Byte) : State :=
  s.tell (.reply command sequence status data)

/-- The header of a reply or a notice: command, sequence, length of the data, status (R387). -/
def muaroHeader (command sequence status length : Nat) : List Byte :=
  leBytes 2 command ++ leBytes 2 sequence ++ leBytes 4 length ++ List.replicate 6 0 ++ leBytes 2 status
/-- A message of Muaro as bytes on the link. The data of a notice stand in 8-byte fields, as parameters do (R387,
assumption 72). -/
def HostMsg.frame : HostMsg → List Byte
  | .reply command sequence status data => muaroHeader command sequence status data.length ++ data
  | .notice code data => muaroHeader code 0 0 (8 * data.length) ++ data.flatMap fun v => leBytes 8 v.toNat
  | _ => []

/-- The launches of a context that carry a tag and have not completed. -/
def taggedLaunches (s : State) (ctx : Nat) (tag : DWord) : List Nat :=
  s.launches.filterMap fun l => if l.2.ctx = ctx && l.2.tag = tag && !l.2.done then some l.1 else none

/-- The teams of launches, on cores and in images, that an index names; none names all. -/
def chosenTeams (s : State) (ls : List Nat) (index : Option Nat) : List Nat :=
  let pick := fun (t : Team) => ls.contains t.launch && (match index with | some n => t.index == n | none => true)
  (s.teams.filterMap fun t => if pick t.2 then some t.1 else none) ++
    s.images.filterMap fun i => if pick i.data then some i.team else none

/-! ## Stops (R374 to R377) -/

/-- A stop request reaches a team; of a pre-emption in the same cycle the stop goes first. -/
def Team.askStop (cycle : Nat) (dump : DWord) (memory : Bool) (t : Team) : Team :=
  if t.stopped then t
  else { t with stopWanted := some (some dump, memory), preemptLate := t.preemptLate || (t.preempt && t.preemptAt == cycle) }

/-- Command 0x0002; `memory` asks for the Memory part of the dump. -/
def execStop (seq ctx : Nat) (tag : DWord) (team : Option Nat) (dump : DWord) (memory : Bool) (s : State) :
    Host.Outcome State Fault Refusal :=
  let ts := chosenTeams s (taggedLaunches s ctx tag) team
  if ts.isEmpty then .next (answer s 2 seq 5 [])
  else .next (answer (ts.foldl (fun s t => s.setTeamAny t (Team.askStop s.cycle dump memory)) s) 2 seq 0 [])

/-- A team can stop: no thread inside a hint chain or a window, every result returned, no wait that the end of the cycle has still to
test, and no pre-emption goes first. -/
def stopReady (s : State) (team : Nat) (tm : Team) : Bool :=
  !tm.stopped && (tm.stopWanted.isSome || tm.breakHit.isSome) && !tm.leaving && !s.dueOf team && s.outsideWindows team &&
    (s.teamCrews team).all fun c => c.2.allThread fun t =>
      t.exited || (t.xlit.isNone && t.xmod.isNone && t.out.isEmpty)

/-- Where the dump of a stop goes, and whether it has a Memory part: of a request, or of the breakpoint. -/
def dumpAt (s : State) (tm : Team) : Option DWord × Bool :=
  match tm.stopWanted, tm.breakHit with
  | some d, _ => d
  | none, some n =>
    match s.launch? tm.launch with
    | some l => ((Tbl.at? l.breakpoints n).map (·.2), false)
    | none => (none, false)
  | none, none => (none, false)

/-- A team stops: its dump is written in the format of an image (R233, R376). -/
def execTeamStop (team : Nat) (s : State) : Host.Outcome State Fault Refusal :=
  match s.team? team with
  | none => .next s
  | some tm =>
    if !stopReady s team tm then .next s
    else
      let d := dumpAt s tm
      let s1 := match d.1 with
        | some a => (writeVirt s (dieOf tm.core) (s.teamCtx team) true a.toNat (imageBytes s team tm none d.2)).1
        | none => s
      let s2 := s1.setTeam team fun t => { t with stopped := true, stopWanted := none, breakHit := none }
      .next (traceTeam s2 team 7 (tm.breakHit.getD 4))

/-- A team resumes; its threads that stopped at a breakpoint pass it once. -/
def resumeTeam (s : State) (team : Nat) : State :=
  s.setTeamAny team fun t => { t with stopped := false, stopWanted := none, breakHit := none, preemptLate := false }

/-- Command 0x0003. -/
def execResume (seq ctx : Nat) (tag : DWord) (team : Option Nat) (s : State) : Host.Outcome State Fault Refusal :=
  let ts := chosenTeams s (taggedLaunches s ctx tag) team
  if ts.isEmpty then .next (answer s 3 seq 5 [])
  else .next (answer (ts.foldl resumeTeam s) 3 seq 0 [])

/-- One of the four breakpoints of a launch is set at an offset, with the dump address of the request, or cleared. -/
def execSetBreakpoint (launch number : Nat) (offset : Option Nat) (dump : DWord) (s : State) :
    Host.Outcome State Fault Refusal :=
  if 3 < number then .next s
  else .next (s.setLaunch launch fun l =>
    { l with breakpoints := match offset with
        | some o => if o % 2 = 0 then Tbl.put l.breakpoints number (o, dump) else l.breakpoints
        | none => Tbl.del l.breakpoints number })

/-! ## Trace requests (R378, R381, R382) -/

/-- Command 0x0004: base and stream size are checked; the streams open with a sync group of every core that holds a traced
team. -/
def execTraceOn (seq ctx : Nat) (tag : DWord) (team : Option Nat) (base : DWord) (size : Nat) (s : State) :
    Host.Outcome State Fault Refusal :=
  match taggedLaunches s ctx tag with
  | [] => .next (answer s 4 seq 5 [])
  | id :: _ =>
    if base.toNat % 4096 != 0 || 2 ^ 52 ≤ base.toNat || size % 4096 != 0 || size < 65536 || 2 ^ 30 < size then
      .next (answer s 4 seq 2 [])
    else
      let t : Trace := ⟨id, team, base, size, [], [], [], []⟩
      let s1 : State := { s with
        traces := (s.traces.filter fun x => !(x.launch == id && x.team == team)) ++ [t] }
      let cores := (s1.teams.filterMap fun x => if t.follows x.2 then some x.2.core else none).eraseDups
      .next (answer (cores.foldl (fun s c => syncGroup s t c true) s1) 4 seq 0 [])

/-- Command 0x0005. -/
def execTraceOff (seq ctx : Nat) (tag : DWord) (team : Option Nat) (s : State) : Host.Outcome State Fault Refusal :=
  let ls := taggedLaunches s ctx tag
  let mine := fun (t : Trace) => ls.contains t.launch && t.team == team
  if s.traces.any mine then .next (answer { s with traces := s.traces.filter fun t => !mine t } 5 seq 0 [])
  else .next (answer s 5 seq 5 [])

/-- After drops of one stream a core writes a record of type 0x0008 and a sync group; the count stands until that record is
written. -/
def recoverTrace (core : Nat) (s : State) (t : Trace) : State :=
  let n := s.recordCount t.launch t.team core
  let s1 := putRecord s t.launch t.team core (eventBytes 8 0 0 0 s.time (Tbl.atD t.lost core 0) 0)
  if s1.recordCount t.launch t.team core = n then s1
  else
    let s2 := match s1.trace? t.launch t.team with
      | some u => s1.setTrace { u with lost := Tbl.put u.lost core 0 }
      | none => s1
    syncGroup s2 t core false

/-- Room has freed in a core's trace path. -/
def execTraceRecovery (core : Nat) (s : State) : Host.Outcome State Fault Refusal :=
  let s1 := s.setCore core fun c => { c with tracePending := 0 }
  .next ((s1.traces.filter fun t => Tbl.atD t.lost core 0 != 0).foldl (fun s t =>
    if 64 ≤ (s.core core).tracePending then s else recoverTrace core s t) s1)

/-! ## Causal trials (R383) -/

/-- Command 0x0006. -/
def execCausalTrial (seq ctx : Nat) (tag : DWord) (lo hi delay duration : Nat) (result : DWord) (s : State) :
    Host.Outcome State Fault Refusal :=
  match taggedLaunches s ctx tag with
  | [] => .next (answer s 6 seq 5 [])
  | id :: _ =>
    if delay < 1 || 64 < delay || hi < lo || result.toNat % 8 != 0 || 2 ^ 52 ≤ result.toNat then .next (answer s 6 seq 2 [])
    else if s.trials.any fun t => t.launch == id then .next (answer s 6 seq 1 [])
    else
      let prog := match s.ctx? ctx with | some c => c.prog.toList | none => []
      .next (answer { s with trials := s.trials ++ [⟨id, lo, hi, delay, s.time, duration, result, prog, 0, 0⟩] } 6 seq 0 [])

/-- What a trial reports: its duration, the change of the progress counters taken together, the issues inside and outside. -/
def trialBytes (t : Trial) (now : Nat) (prog : List DWord) : List Byte :=
  let change := (prog.zip t.prog).foldl (fun (a : DWord) x => a + (x.1 - x.2)) 0
  leBytes 8 (now - t.start) ++ leBytes 8 change.toNat ++ leBytes 8 t.inside ++ leBytes 8 t.outside

/-- The trial of a launch whose duration has passed ends. -/
def execCausalTrialEnd (launch : Nat) (s : State) : Host.Outcome State Fault Refusal :=
  match s.trials.find? fun t => t.launch == launch with
  | none => .next s
  | some t =>
    if s.time < t.start + t.duration then .next s
    else
      let ctx := match s.launch? launch with | some l => l.ctx | none => 0
      let prog := match s.ctx? ctx with | some c => c.prog.toList | none => []
      let s1 : State := { s with trials := s.trials.filter fun x => x.launch != launch }
      .next (writeVirt s1 0 ctx true t.result.toNat (trialBytes t s.time prog)).1

/-! ## The histogram engine (R384) -/

/-- Command 0x0007. -/
def execSampling (seq ctx : Nat) (tag : DWord) (period lo g : Nat) (result : DWord) (s : State) :
    Host.Outcome State Fault Refusal :=
  match taggedLaunches s ctx tag with
  | [] => .next (answer s 7 seq 5 [])
  | id :: _ =>
    if period < 8 || 20 < period || g < 2 || 16 < g || result.toNat % 4 != 0 || 2 ^ 52 ≤ result.toNat then
      .next (answer s 7 seq 2 [])
    else if s.samplings.any fun x => x.launch == id then .next (answer s 7 seq 1 [])
    else .next (answer { s with samplings := s.samplings ++ [⟨id, period, lo, g, result, [], [], []⟩] } 7 seq 0 [])

/-- The bucket of a PC in a code object: 0 also below its base. -/
def bucketOf (x : Sampling) (code pc : DWord) : Nat := min 1023 ((pc.toNat - code.toNat - x.lo) / 2 ^ x.g)

/-- The reason a sample gives for a thread's state. -/
def sampleReason (s : State) (r : TRef) : Nat :=
  let t := s.thread r
  let stopped := match s.team? r.team with | some tm => tm.stopped | none => false
  if stopped then 10
  else
    match t.wait with
    | .halted => 10
    | .mask _ | .maskTimed _ _ _ => 4
    | .bar _ _ | .region _ _ _ _ _ => 5
    | .baton => 6
    | .quiet _ _ => 8
    | .none =>
      if s.cycle < t.readyAt && (s.cycle - t.lastIssue) % Config.issueInterval = 0 &&
          (t.lastIssue = s.cycle || t.window.isSome) then 0
      else
        match s.atWait r with
        | some .rendezvous => 6
        | some .tag => 7
        | some .tbar => 5
        | none =>
          if s.cycle < t.readyAt then 2
          else if s.parked r then 3
          else if t.spin.demoted then 9
          else 1

/-- The PC that the histograms see: in the slots of a window the original word of the slot (R213). -/
def Thread.sampledPc (t : Thread) (cycle : Nat) : DWord :=
  match t.window with
  | some (pc, n) =>
    if cycle < t.readyAt then pc + BitVec.ofNat 64 (4 * min (n - 1) ((cycle - t.lastIssue) / Config.issueInterval)) else t.pc
  | none => t.pc

/-- The live threads of a launch on a core, in slot order, with their places in the rotation. -/
def sampleThreads (s : State) (core launch : Nat) : List (Nat × TRef) :=
  (upto 16).flatMap fun slot =>
    (s.crews.filter fun c => c.2.slot == slot && s.teamCore c.1.team == core &&
        (match s.team? c.1.team with | some tm => tm.launch == launch | none => false)).flatMap fun c =>
      (upto 64).filterMap fun l => if (c.2.thread l).exited then none else some (64 * slot + l, ⟨c.1.team, c.1.crew, l⟩)

/-- One sample of a core for a request: the next of its threads is classified, in the rotation of the request on that core. -/
def takeSample (s : State) (core : Nat) (x : Sampling) : State :=
  let ts := sampleThreads s core x.launch
  let pos := Tbl.atD x.places core 0
  match (ts.find? fun t => pos ≤ t.1).or ts.head? with
  | none => s
  | some (p, r) =>
    let bucket := match s.launch? x.launch with | some l => bucketOf x l.code ((s.thread r).sampledPc s.cycle) | none => 0
    let key := (dieOf core, bucket, sampleReason s r)
    let y := { x with counts := Tbl.put x.counts key (min (2 ^ 32 - 1) (Tbl.atD x.counts key 0 + 1))
                      lastTick := Tbl.put x.lastTick core s.cycle
                      places := Tbl.put x.places core (p + 1) }
    { s with samplings := s.samplings.map fun (z : Sampling) => if z.launch = x.launch then y else z }

/-- A core's period has passed: it takes its samples. -/
def execSampleTick (core : Nat) (s : State) : Host.Outcome State Fault Refusal :=
  .next ((s.samplings.filter fun x => Tbl.atD x.lastTick core 0 + 2 ^ x.shift ≤ s.cycle).foldl
    (fun s x => takeSample s core x) s)

/-- The counters of a sampling request with their places in its result area. -/
def Sampling.cells (x : Sampling) : List (Nat × Nat × Nat) :=
  x.counts.map fun c => (c.1.1, x.result.toNat + 4 * (16 * c.1.2.1 + c.1.2.2), c.2)

/-- Adds one counter into the result area by an atomic at its home. -/
def addCounter (s : State) (die ctx va n : Nat) : State :=
  match translate s (.die die) ctx (BitVec.ofNat 64 va) true .write with
  | (s1, .error _) => s1
  | (s1, .ok pa) => deviceAtom s1 pa 4 (· + n)

/-- A sampling request of a launch ends: every die adds its counters into the result area, once no engine has still to write
there. -/
def execHistogramFlush (launch : Nat) (s : State) : Host.Outcome State Fault Refusal :=
  match s.samplings.find? fun x => x.launch == launch with
  | none => .next s
  | some x =>
    let ctx := match s.launch? launch with | some l => l.ctx | none => 0
    if x.cells.any fun p => deviceAtomWaits s p.1 ctx true (BitVec.ofNat 64 p.2.1) 4 then .next s
    else
      let s1 := x.cells.foldl (fun s p => addCounter s p.1 ctx p.2.1 p.2.2) s
      .next { s1 with samplings := s1.samplings.filter fun (z : Sampling) => z.launch != launch }

end Sys2Proof.Machine
end

