-- ==== Sys2Proof/Machine/Shake.lean ====
section
/-!
DEFINITION. SHAKE256 (FIPS 202), by which Muaro makes the digests of an attestation report (R398): the permutation Keccak-f[1600]
over 25 words, word x + 5 y in column x and row y, and the sponge with 136 bytes of rate.
-/
namespace Sys2Proof.Machine

abbrev Keccak := List DWord

def Keccak.word (a : Keccak) (x y : Nat) : DWord := a.getD (x % 5 + 5 * (y % 5)) 0
/-- A state by columns and rows. -/
def Keccak.of (f : Nat → Nat → DWord) : Keccak := (upto 25).map fun i => f (i % 5) (i / 5)

/-- The rotations of the step rho, and the constants of the step iota. -/
def rhoOffsets : List Nat := [0, 1, 62, 28, 27, 36, 44, 6, 55, 20, 3, 10, 43, 25, 39, 41, 45, 15, 21, 8, 18, 2, 61, 56, 14]
def iotaWords : List DWord :=
  [0x0000000000000001, 0x0000000000008082, 0x800000000000808A, 0x8000000080008000, 0x000000000000808B, 0x0000000080000001,
   0x8000000080008081, 0x8000000000008009, 0x000000000000008A, 0x0000000000000088, 0x0000000080008009, 0x000000008000000A] ++
  [0x000000008000808B, 0x800000000000008B, 0x8000000000008089, 0x8000000000008003, 0x8000000000008002, 0x8000000000000080,
   0x000000000000800A, 0x800000008000000A, 0x8000000080008081, 0x8000000000008080, 0x0000000080000001, 0x8000000080008008]

/-- Each word with the parities of the columns beside its own. -/
def Keccak.theta (a : Keccak) : Keccak :=
  let c := (upto 5).map fun x => (upto 5).foldl (fun w y => w ^^^ a.word x y) 0
  Keccak.of fun x y => a.word x y ^^^ c.getD ((x + 4) % 5) 0 ^^^ (c.getD ((x + 1) % 5) 0).rotateLeft 1
/-- The words rotated and moved to their new places. -/
def Keccak.rhoPi (a : Keccak) : Keccak :=
  Keccak.of fun x y => (a.word (x + 3 * y) x).rotateLeft (rhoOffsets.getD ((x + 3 * y) % 5 + 5 * x) 0)
/-- Each word with the two after it in its row. -/
def Keccak.chi (a : Keccak) : Keccak := Keccak.of fun x y => a.word x y ^^^ (~~~a.word (x + 1) y &&& a.word (x + 2) y)
def Keccak.round (a : Keccak) (rc : DWord) : Keccak :=
  let b := a.theta.rhoPi.chi
  Keccak.of fun x y => if x = 0 && y = 0 then b.word 0 0 ^^^ rc else b.word x y
def Keccak.permute (a : Keccak) : Keccak := iotaWords.foldl Keccak.round a

/-- A block of 136 bytes enters the state. -/
def Keccak.absorb (a : Keccak) (block : List Byte) : Keccak :=
  Keccak.permute (Keccak.of fun x y => a.word x y ^^^ BitVec.ofNat 64 (leNat ((block.drop (8 * (x + 5 * y))).take 8)))

/-- The bytes with the padding of SHAKE256. -/
def shakePadded (bs : List Byte) : List Byte :=
  let n := 136 - bs.length % 136
  if n = 1 then bs ++ [0x9F] else bs ++ 0x1F :: (List.replicate (n - 2) 0 ++ [0x80])

/-- The 256-bit output of SHAKE256. -/
def shake256 (bs : List Byte) : List Byte :=
  let p := shakePadded bs
  let a := (upto (p.length / 136)).foldl (fun (a : Keccak) i => a.absorb ((p.drop (136 * i)).take 136)) (Keccak.of fun _ _ => 0)
  (a.take 4).flatMap fun w => leBytes 8 w.toNat

end Sys2Proof.Machine
end

