-- ==== Sys2Proof/Machine/Manage.lean ====
section
/-!
DEFINITION. Muaro: the management commands beside those of debug (R386 to R388, R180 to R182, R26, R393 to R398), changes of
lifecycle state and module reset (R396 to R399), the warm reset of a die (R473 to R477), scrubbing and the reliability log
(R478, R479), ageing, the clock, timing beacons and die-to-die flits (R13, R26, R28, R29, R395).
-/
namespace Sys2Proof.Machine

/-! ## Scrubbing and the counts of errors (R478, R479) -/

/-- Counts corrected errors of a die and place. -/
def countCorrected (s : State) (die place n : Nat) : State :=
  s.setDie die fun d => { d with corrected := d.corrected.mapIdx fun i c => if i = place then c + n else c }

/-- The controller of a sector of memory: die, tier, pair (R106); and the offset of the sector in its tier. -/
def controllerOf (pa : Nat) : Nat × Nat × Nat := (homeDie pa, tierOf pa, bits pa 38 11 % 6)
def sectorOffset (pa : Nat) : Nat := bits pa 38 0 / 64 * 64
/-- The passes a controller has made and the offset it reads next. -/
def State.scrubAt (s : State) (c : Nat × Nat × Nat) : Nat × Nat := Tbl.atD s.scrubs c (0, 2048 * c.2.2)
/-- The place of a controller after a sector: its next sector in ascending offset, or the start of its next pass. -/
def scrubNext (c : Nat × Nat × Nat) (x : Nat × Nat) : Nat × Nat :=
  let o := if (x.2 + 64) % 2048 = 0 then x.2 + 64 + 5 * 2048 else x.2 + 64
  if (if c.2.1 = 0 then Config.gddrBytes else Config.lpddrBytes) ≤ o then (x.1 + 1, 2048 * c.2.2) else (x.1, o)
/-- A day in nanoseconds. -/
def dayNs : Nat := 86400000000000

/-- A memory controller reads the sector that is next in its order, in the pass of the day: an error it corrects is counted; a
sector it cannot correct is left, and logged. Which of the two it meets comes from outside, but that a sector already known
to be bad is not corrected. -/
def execScrub (pa : Nat) (corrected uncorrectable : Bool) (s : State) : Host.Outcome State Fault Refusal :=
  let c := controllerOf pa
  let x := s.scrubAt c
  if inHole pa || s.shut pa || x.2 != sectorOffset pa || s.time < x.1 * dayNs then .next s
  else
    let s0 : State := { s with scrubs := Tbl.put s.scrubs c (scrubNext c x) }
    if uncorrectable || s.poison.contains (pa / 64) then
      let s2 : State := { s0 with poison := if s0.poison.contains (pa / 64) then s0.poison else s0.poison ++ [pa / 64] }
      .next (logEntry s2 1 (homeDie pa) (tierOf pa) 0 (pa / 64 * 64))
    else .next (if corrected then countCorrected s0 (homeDie pa) (tierOf pa) 1 else s0)

/-- Each hour: an entry for every die and place with corrected errors since the last. `met` adds those that accesses met,
by die, place and number. -/
def execHourlyErrorLog (met : List (Nat × Nat × Nat)) (s : State) : Host.Outcome State Fault Refusal :=
  let s1 := met.foldl (fun s m => countCorrected s m.1 m.2.1 m.2.2) s
  .next ((upto 4).foldl (fun s die => (upto 4).foldl (fun s place =>
    let n := (s.die die).corrected.getD place 0
    if n = 0 then s
    else (logEntry s 0 die place n 0).setDie die fun d =>
      { d with corrected := d.corrected.mapIdx fun i c => if i = place then 0 else c }) s) s1)

/-! ## Commands on registers and memory -/

/-- Command 0x0001: part of the capability table. -/
def execReadCapabilityTable (seq offset length : Nat) (s : State) : Host.Outcome State Fault Refusal :=
  if 4080 < length || 0x100000 < offset + length then .next (answer s 0x0001 seq 2 [])
  else .next (answer s 0x0001 seq 0 (s.homeBytes offset length))

/-- Command 0x0008: a halted core issues again. -/
def execCoreResume (seq core : Nat) (s : State) : Host.Outcome State Fault Refusal :=
  if Config.cores ≤ core then .next (answer s 0x0008 seq 5 [])
  else .next (answer (s.setCore core fun c => { c with halted := false, halting := false }) 0x0008 seq 0 [])

/-- Command 0x0010. -/
def execReadDefectMap (seq die : Nat) (s : State) : Host.Outcome State Fault Refusal :=
  if Config.dies ≤ die then .next (answer s 0x0010 seq 2 [])
  else .next (answer s 0x0010 seq 0 ((upto 64).map (defectMapByte die)))

/-- Command 0x0011. -/
def execSetRailOffset (seq die rail : Nat) (step : BitVec 8) (s : State) : Host.Outcome State Fault Refusal :=
  if Config.dies ≤ die || 6 < rail then .next (answer s 0x0011 seq 2 [])
  else .next (answer (writeRail s die rail 256 step) 0x0011 seq 0 [])

/-- Command 0x0012. The command names neither the die nor the context of the result address: the die comes with the event, and
the context is free. -/
def execEyeScan (seq die kind port lane : Nat) (result : DWord) (s : State) : Host.Outcome State Fault Refusal :=
  let bad := 1 < kind || (if kind = 0 then 23 < port || 1 < lane else 1 < port || 63 < lane) || result.toNat % 4096 != 0
  if Config.dies ≤ die || bad then .next (answer s 0x0012 seq 2 [])
  else if (s.die die).scan.isSome then .next (answer s 0x0012 seq 1 [])
  else
    let x := s.takeFree
    let ctx := x.1.toNat % 4096
    if x.2.recallBlocked (scanWords x.2 die ctx result) none then .next (answer x.2 0x0012 seq 1 [])
    else
      .next (answer (startScan x.2 die (BitVec.ofNat 32 (kind * 32768 + port * 64 + lane)) result ctx 256 0) 0x0012 seq 0 [])

/-- Command 0x0013. -/
def execReadAgeing (seq die : Nat) (s : State) : Host.Outcome State Fault Refusal :=
  if Config.dies ≤ die then .next (answer s 0x0013 seq 2 [])
  else .next (answer s 0x0013 seq 0 (leBytes 8 (s.die die).age.toNat))

/-- The first 144 bytes of an attestation report: time, state, format, nonce, and the digests of firmware, capability table and
defect maps (R398). -/
def attestBody (s : State) (nonce : List Byte) : List Byte :=
  leBytes 8 s.time ++ leBytes 1 s.modl.lifecycle ++ leBytes 1 1 ++ List.replicate 6 0 ++ nonce ++ shake256 s.modl.firmware ++
    shake256 (capTable s.resets s.modl.lifecycle s.modl.tableAges s.modl.firmware).1 ++
    shake256 ((upto 4).flatMap fun d => (upto 64).map (defectMapByte d))

/-- Command 0x0020: the report, signed by the module's own key. -/
def execAttest (seq : Nat) (nonce : List Byte) (s : State) : Host.Outcome State Fault Refusal :=
  if nonce.length != 32 then .next (answer s 0x0020 seq 2 [])
  else
    let body := attestBody s nonce
    .next (answer s 0x0020 seq 0 (body ++ (upto 2820).map (Config.ownSignatureByte body)))

/-- Command 0x0025: at most 4,048 bytes, outside Muaro's range and inside the populated tier. -/
def execWritePhysicalMemory (seq die tier offset : Nat) (data : List Byte) (s : State) :
    Host.Outcome State Fault Refusal :=
  let pa := die * 2 ^ 40 + tier * 2 ^ 39 + offset
  let limit := if tier = 0 then Config.gddrBytes else Config.lpddrBytes
  if Config.dies ≤ die || 1 < tier || 4048 < data.length || limit < offset + data.length || muaroOnly pa then
    .next (answer s 0x0025 seq 2 [])
  else if s.shut pa then .next (answer s 0x0025 seq 1 [])
  else .next (answer (engineWrite s pa data) 0x0025 seq 0 [])

/-- Command 0x0026: at most 4,080 bytes. -/
def execReadPhysicalMemory (seq die tier offset length : Nat) (s : State) : Host.Outcome State Fault Refusal :=
  let pa := die * 2 ^ 40 + tier * 2 ^ 39 + offset
  let limit := if tier = 0 then Config.gddrBytes else Config.lpddrBytes
  if Config.dies ≤ die || 1 < tier || 4080 < length || limit < offset + length then .next (answer s 0x0026 seq 2 [])
  else if s.shut pa then .next (answer s 0x0026 seq 1 [])
  else .next (answer s 0x0026 seq 0 (s.homeBytes pa length))

/-- The commands of R386. -/
def commands : List Nat :=
  [0x0001, 0x0002, 0x0003, 0x0004, 0x0005, 0x0006, 0x0007, 0x0008, 0x0010, 0x0011, 0x0012, 0x0013, 0x0020, 0x0021, 0x0022,
   0x0023, 0x0024, 0x0025, 0x0026, 0x0030, 0x0031, 0x0032, 0x0033, 0x0034]

/-- A request that is no command: of any other code; of a code of the table, one that is malformed (R386, R387). -/
def execUnknownCommand (seq command : Nat) (s : State) : Host.Outcome State Fault Refusal :=
  .next (answer s command seq (if commands.contains command then 2 else 0xFFFF) [])

/-! ## Launch contexts (R388) -/

/-- Command 0x0023. -/
def execCreateLaunchContext (seq ctx : Nat) (ptroot saveaddr taskspill : DWord) (s : State) :
    Host.Outcome State Fault Refusal :=
  if 4095 < ctx || (s.ctx? ctx).isSome then .next (answer s 0x0023 seq 2 [])
  else
    let c := { Ctx.reset with ptroot := ptroot, saveaddr := saveaddr, taskspill := taskspill }
    .next (answer { s with ctxs := s.ctxs ++ [(ctx, c)] } 0x0023 seq 0 [])

/-- Command 0x0024: busy while the context holds a launch that has not completed, or a fetch. -/
def execDestroyLaunchContext (seq ctx : Nat) (s : State) : Host.Outcome State Fault Refusal :=
  match s.ctx? ctx with
  | none => .next (answer s 0x0024 seq 5 [])
  | some c =>
    if (s.launches.any fun l => l.2.ctx == ctx && !l.2.done) || !c.fetches.isEmpty then .next (answer s 0x0024 seq 1 [])
    else .next (answer { s with ctxs := Tbl.del s.ctxs ctx } 0x0024 seq 0 [])

/-! ## Fabric identity, jobs, routes, wave trees (R26, R180 to R182) -/

/-- Command 0x0030: a repeated one reports whether the module is locked. A module with no source keeps its own time, and is locked
to itself (assumption 85). -/
def execSetFabricIdentity (seq number : Nat) (source : Option Nat) (s : State) : Host.Outcome State Fault Refusal :=
  let bad := 65535 < number || (match source with | some p => 23 < p | none => false)
  if bad then .next (answer s 0x0030 seq 2 [])
  else if s.modl.identified && s.modl.number.toNat = number && s.modl.timeSource = source then
    .next (answer s 0x0030 seq 0 (leBytes 8 s.modl.locked.toNat))
  else
    let m := { s.modl with identified := true, number := BitVec.ofNat 16 number, timeSource := source, locked := source.isNone }
    .next (answer { s with modl := m } 0x0030 seq 0 [])

/-- An open slot with nothing in it; the period is that of R195's default until it is set. No wave has reached the module: a
`WAITQ` that arms now records wave 0, and the first wave of a job has the number 1 (assumption 99). -/
def Job.opened (n : BitVec 16) : Job :=
  { number := n, counters := Vector.replicate 96 ⟨0, 0, 0⟩, routes := [], treeSet := false, root := false, parent := 0,
    childPorts := 0, period := 2000, wave := none, lastWave := 0, lastStart := 0, lastPass1 := 0, lastVerdict := 0,
    lastKind := 0, lastSums := noSums, reached := 0, repaired := false }

/-- Command 0x0031. -/
def execOpenJobSlot (seq job : Nat) (s : State) : Host.Outcome State Fault Refusal :=
  let n := BitVec.ofNat 16 job
  if job = 0 || 65535 < job || (s.job? n).isSome then .next (answer s 0x0031 seq 2 [])
  else if Config.jobSlots ≤ s.fabric.jobs.length then .next (answer s 0x0031 seq 4 [])
  else .next (answer { s with fabric := { s.fabric with jobs := s.fabric.jobs ++ [Job.opened n] } } 0x0031 seq 0 [])

/-- Command 0x0032: busy while a launch of the job has not completed. -/
def execCloseJobSlot (seq job : Nat) (s : State) : Host.Outcome State Fault Refusal :=
  let n := BitVec.ofNat 16 job
  if 65535 < job || (s.job? n).isNone then .next (answer s 0x0032 seq 5 [])
  else if s.launches.any fun l => l.2.job == n && !l.2.done then .next (answer s 0x0032 seq 1 [])
  else
    .next (answer { s with fabric := { s.fabric with jobs := s.fabric.jobs.filter fun j => j.number != n } } 0x0032 seq 0 [])

/-- Ranges of a table overlap. -/
def rangesOverlap : List RouteEntry → Bool
  | [] => false
  | e :: es =>
    (es.any fun x => e.first.toNat ≤ x.last.toNat && x.first.toNat ≤ e.last.toNat) || rangesOverlap es

/-- The table places rank 0 on a module. -/
def holdsRoot (number : BitVec 16) (es : List RouteEntry) : Bool := es.any fun e => e.first == 0 && e.modNum == number

/-- A table that breaks a condition of R181. -/
def badRoutes (number : BitVec 16) (j : Job) (es : List RouteEntry) : Bool :=
  es.isEmpty || 127 < es.length || rangesOverlap es ||
  (es.any fun e => e.last.toNat < e.first.toNat || (e.modNum != number && e.ports == 0)) ||
  (j.treeSet && j.root != holdsRoot number es)

/-- Command 0x0033. -/
def execLoadRouteTable (seq job : Nat) (entries : List RouteEntry) (s : State) : Host.Outcome State Fault Refusal :=
  let n := BitVec.ofNat 16 job
  match (if 65535 < job then none else s.job? n) with
  | none => .next (answer s 0x0033 seq 5 [])
  | some j =>
    if badRoutes s.modl.number j entries then .next (answer s 0x0033 seq 2 [])
    else .next (answer (s.setJob n fun j => { j with routes := entries }) 0x0033 seq 0 [])

/-- Command 0x0034. -/
def execSetWaveTree (seq job : Nat) (root : Bool) (parent : Nat) (children : BitVec 96) (s : State) :
    Host.Outcome State Fault Refusal :=
  let n := BitVec.ofNat 16 job
  match (if 65535 < job then none else s.job? n) with
  | none => .next (answer s 0x0034 seq 5 [])
  | some j =>
    if root != holdsRoot s.modl.number j.routes || (!root && 95 < parent) then .next (answer s 0x0034 seq 2 [])
    else
      .next (answer (s.setJob n fun j => { j with treeSet := true, root := root, parent := parent, childPorts := children })
        0x0034 seq 0 [])

/-! ## Lifecycle, firmware, module reset (R396, R397, R399) -/

/-- The changes of state that R396 permits. -/
def lifecyclePermits (old new : Nat) : Bool :=
  match old, new with
  | 0, 1 | 0, 3 | 1, 2 | 1, 3 | 2, 1 | 2, 3 => true
  | _, _ => false

/-- The capability table is copied again: it holds the ages of this moment, and an errata record whose signature fails is
reported (R246, R247, R387). -/
def copyTable (s : State) : State :=
  let s1 := { s with resets := s.resets + 1, modl := { s.modl with errataDue := false, tableAges := (upto 4).map fun d => (s.die d).age } }
  match (capTable s1.resets s1.modl.lifecycle s1.modl.tableAges s1.modl.firmware).2 with
  | some off => s1.tell (.notice 0x8004 [BitVec.ofNat 64 off])
  | none => s1

/-- The first copy of the table, at the reset that `State.reset` is the end of: its refused errata record, if any, is reported
before anything else happens. -/
def firstErrata (s : State) : State :=
  let s1 := { s with modl := { s.modl with errataDue := false } }
  match (capTable s1.resets s1.modl.lifecycle s1.modl.tableAges s1.modl.firmware).2 with
  | some off => s1.tell (.notice 0x8004 [BitVec.ofNat 64 off])
  | none => s1

/-- Every memory reads as zero, the stores of the fabric and the task queues among them, and the capability table is copied again
(R399, assumption 52). -/
def wipe (s : State) : State :=
  copyTable { s with
    mem := [], poison := [], flaws := [], clu := [], chip := [], l1 := [], l2 := [], icache := [], tlb := [], consts := [],
    scales := [], predictor := [], orphans := [], ctxs := s.ctxs.map fun c => (c.1, Ctx.reset)
    fabric := { Fabric.reset with egress := s.fabric.egress }
    cores := s.cores.map fun c => (c.1, { c.2 with weevil := Weevil.reset, tasks := [], spilled := [] })
    dies := s.dies.map fun d =>
      (d.1, { d.2 with bistres := 0, bistfail := 0, eyesel := 0, eyeaddr := 0, scan := none }) }

/-- Command 0x0021. -/
def execChangeLifecycleState (seq new : Nat) (authorisation : List Byte) (s : State) :
    Host.Outcome State Fault Refusal :=
  if !lifecyclePermits s.modl.lifecycle new then .next (answer s 0x0021 seq 2 [])
  else if !Config.authorisationVerifies authorisation new then .next (answer s 0x0021 seq 3 [])
  else if s.launches.any fun l => !l.2.done then .next (answer s 0x0021 seq 1 [])
  else .next (answer (wipe { s with modl := { s.modl with lifecycle := new } }) 0x0021 seq 0 [])

/-- Command 0x0022: the image stands in device memory at a physical address; memory that does not answer cannot be read yet, and
what cannot be corrected does not verify. -/
def execInstallFirmware (seq address length : Nat) (s : State) : Host.Outcome State Fault Refusal :=
  if inHole address || inHole (address + length - 1) || length = 0 then .next (answer s 0x0022 seq 2 [])
  else if s.shut address || s.shut (address + length - 1) then .next (answer s 0x0022 seq 1 [])
  else
    let image := s.homeBytes address length
    if !s.deadRange address length && Config.firmwareVerifies image then
      .next (answer { s with modl := { s.modl with nextFirmware := some image } } 0x0022 seq 0 [])
    else .next (answer s 0x0022 seq 3 [])

/-- A module reset: the state after reset, with the fuses, an installed firmware image, the count of resets, what the host has
been sent, and the model's own bookkeeping. -/
def execModuleReset (s : State) : Host.Outcome State Fault Refusal :=
  let m := { Module.reset with
    lifecycle := s.modl.lifecycle, firmware := s.modl.nextFirmware.getD s.modl.firmware }
  .next (copyTable { State.reset with
    modl := m, resets := s.resets, host := s.host, agenda := s.agenda, fresh := s.fresh,
    dies := s.dies.map fun d => (d.1, { Die.reset with age := d.2.age }) })

/-! ## Warm reset of a die (R473 to R477) -/

/-- A launch is on a die: a team, a queued task, or a chip-scratchpad allocation (R475). -/
def onDie (s : State) (die id : Nat) : Bool :=
  (s.teams.any fun t => t.2.launch == id && dieOf t.2.core == die) ||
  (s.cores.any fun c => dieOf c.1 == die && (c.2.tasks ++ c.2.spilled).any fun q => q.launch == id) ||
  s.chip.any fun a => a.1 == (id, die)

/-- The messages that wait for teams of a launch, with the teams' queues. -/
def messagesOf (s : State) (id : Nat) : List InMsg :=
  (s.teams.flatMap fun t => if t.2.launch = id then t.2.incoming ++ t.2.ring else []) ++
  (s.images.flatMap fun i => if i.data.launch = id then i.data.incoming ++ i.data.ring else []) ++
  match s.launch? id with | some l => l.early.flatMap (·.2) | none => []

/-- A launch ends at the reset of a die: its teams are discarded, it completes nothing, and nobody is told (R475). What its teams on
the die have stored is left to the die's caches (R474). -/
def endLaunch (s : State) (die id : Nat) : State :=
  let s0 := (messagesOf s id).foldl (fun s x => loseAt s x.msg x.env x.iface 4) s
  let mine := fun (team : Nat) => match s.team? team with | some t => t.launch == id | none => false
  let s1 : State := { s0 with
    teams := s0.teams.filter fun t => t.2.launch != id
    crews := s0.crews.filter fun c => !mine c.1.team
    images := s0.images.filter fun i => i.data.launch != id
    clu := s0.clu.filter fun a => a.1.1 != id
    chip := s0.chip.filter fun a => a.1.1 != id
    l1 := s0.l1.filter fun w => !(w.dirty != 0 && dieOf w.core != die && w.writers.all fun c => mine c.team)
    flaws := s0.flaws.filter fun f => !(match f with
      | .reg r _ | .lane r _ | .pred r _ => mine r.team
      | .k c _ | .mask c _ => mine c.team
      | .place p _ => (match p with | .scratch t | .task t => mine t | .cluster l _ | .chip l _ => l == id | .phys => false)
      | .tile t _ => mine t
      | .l2 _ | .sent _ | .queued _ _ _ => false)
    clusters := s0.clusters.map fun c =>
      (c.1, (s0.teams.filter fun t => t.2.launch == id).foldl (fun e t => e.without t.1) c.2)
    cores := s0.cores.map fun c =>
      (c.1, { c.2 with tasks := c.2.tasks.filter fun q => q.launch != id
                       spilled := c.2.spilled.filter fun q => q.launch != id
                       running := match c.2.running with | some r => if mine r.team then none else some r | none => none })
    publications := s0.publications.filter fun p => !mine p.thread.team
    dies := s0.dies.map fun d => (d.1, { d.2 with bists := d.2.bists.filter fun b => !mine b.1.team })
    traces := s0.traces.filter fun (t : Trace) => t.launch != id
    trials := s0.trials.filter fun (t : Trial) => t.launch != id
    samplings := s0.samplings.filter fun (t : Sampling) => t.launch != id }
  s1.setLaunch id fun l => { l with done := true, atoms := [], early := [], out := [] }

/-- Step 3: the L1s of the die write back the words homed elsewhere; the other L1s discard the words homed on it. A word that
another engine has still to write is written over by it in any case. -/
def resetCaches (s : State) (die : Nat) : State :=
  let x := writeBackAll s (s.l1.filter fun w => dieOf w.core == die && homeDie w.pa != die && w.dirty != 0)
  let s1 := reportWriteBacks x.1 1 none 0 x.2 []
  { s1 with l1 := s1.l1.filter fun w => dieOf w.core != die && homeDie w.pa != die }

/-- Messages that the die's interfaces hold for teams of launches that go on: they are lost (R474). -/
def loseQueued (s : State) (die : Nat) : State :=
  let on := fun (x : InMsg) => x.iface / 24 == die
  let rest := fun (xs : List InMsg) => xs.filter fun x => !on x
  let held := (s.teams.flatMap fun t => t.2.incoming) ++ (s.images.flatMap fun i => i.data.incoming) ++
    s.launches.flatMap fun l => l.2.early.flatMap (·.2)
  let s1 := (held.filter on).foldl (fun s x => loseAt s x.msg x.env x.iface 4) s
  { s1 with teams := s1.teams.map fun t => (t.1, { t.2 with incoming := rest t.2.incoming })
            images := s1.images.map fun i => { i with data := { i.data with incoming := rest i.data.incoming } }
            launches := s1.launches.map fun l => (l.1, { l.2 with early := l.2.early.map fun x => (x.1, rest x.2) }) }

/-- Step 4: what the die's interfaces hold is lost, but what is lost already; then the counts of its ports move to port 0 of the
lowest running die. -/
def resetFabric (s : State) (die : Nat) : State :=
  let held := s.fabric.sent.filter fun (x : Sent) => x.iface / 24 == die && !x.acked
  let s1 := loseQueued (held.foldl (fun s x =>
    reportLossOf (if x.injected && !x.settled then s.countL x.msg.job x.iface else s) x 4) s) die
  let port := if die = 0 then 24 else 0
  let move := fun (j : Job) =>
    let sum := (upto 24).foldl (fun a i => addSums a ((j.counters.getD (24 * die + i) ⟨0, 0, 0⟩).sums)) noSums
    { j with counters := j.counters.mapIdx fun i (c : Counters) =>
        if i / 24 = die then ⟨0, 0, 0⟩
        else if i = port then ⟨c.i + sum.i, c.c + sum.c, c.l + sum.l⟩ else c
             wave := j.wave.map fun w => { w with broken := true } }
  { s1 with
    fabric := { s1.fabric with
      jobs := s1.fabric.jobs.map move
      sent := s1.fabric.sent.filter fun (x : Sent) => !(x.iface / 24 == die && !x.acked) } }

/-- Step 5: the die's memories and tiers are wiped, and its tiers answer nothing until they reopen. -/
def resetMemories (s : State) (die admitFrom : Nat) : State :=
  { s with
    mem := Mem.keep s.mem fun a => homeDie a != die
    poison := s.poison.filter fun n => homeDie (64 * n) != die
    flaws := s.flaws.filter fun f => !(match f with
      | .place (.cluster _ c) _ => c / 8 == die
      | .place (.chip _ d) _ => d == die
      | .l2 n => homeDie (64 * n) == die
      | .sent id => !(s.fabric.sent.any fun x => x.id == id)
      | .queued _ i _ => i / 24 == die
      | _ => false)
    l2 := s.l2.filter fun l => homeDie (512 * l.line) != die
    icache := s.icache.filter fun l => dieOf l.core != die
    tlb := s.tlb.filter fun e => e.at_.dieNo != die
    consts := s.consts.filter fun c => dieOf c.core != die
    scales := s.scales.filter fun l => dieOf l.core != die
    predictor := s.predictor.filter fun p => p.slice / 32 != die
    clusters := s.clusters.filter fun c => c.1 / 8 != die
    cores := s.cores.filter fun c => dieOf c.1 != die
    clu := s.clu.filter fun a => a.1.2 / 8 != die
    chip := s.chip.filter fun a => a.1.2 != die }
  |>.setDie die fun d => { Die.reset with age := d.age, ageAt := d.ageAt, clockBase := d.clockBase, corrected := d.corrected, inReset := true,
                                          admitFrom := admitFrom, closed := true }

/-- The warm reset of a die: steps 1 to 5. -/
def beginReset (s : State) (die : Nat) : State :=
  let from_ := s.serial
  let s0 := (logEntry s 3 die 0 0 0).tell (.notice 0x8002 [BitVec.ofNat 64 die])
  let ended := s0.launches.filterMap fun l => if !l.2.done && onDie s0 die l.1 then some l.1 else none
  let s1 := ended.foldl (fun s id =>
    let tag := match s.launch? id with | some l => l.tag.toNat | none => 0
    logEntry (endLaunch s die id) 5 die 0 0 tag) s0
  resetMemories (resetFabric (resetCaches s1 die) die) die from_

/-- A cause for the warm reset of one of dies 1 to 3: it begins, or waits while another die is in reset (R473). -/
def execDieReset (die : Nat) (s : State) : Host.Outcome State Fault Refusal :=
  if die = 0 || Config.dies ≤ die || (s.die die).inReset then .next s
  else .next (if s.anyReset then s.setDie die fun d => { d with resetDue := true } else beginReset s die)

/-- Step 6: the die is admitted again, and the reset of a die whose cause has waited begins: of several, of the lowest
(R473, assumption 107). -/
def execDieReadmission (die : Nat) (s : State) : Host.Outcome State Fault Refusal :=
  if !(s.die die).inReset then .next s
  else
    let s1 := s.setDie die fun d => { d with inReset := false }
    let s2 := (logEntry s1 4 die 0 0 0).tell (.notice 0x8003 [BitVec.ofNat 64 die])
    match (upto 4).find? fun d => (s2.die d).resetDue with
    | some d => .next (beginReset s2 d)
    | none => .next s2

/-- The tiers of a re-admitted die open once no launch accepted before the reset remains. -/
def execTierReopen (die : Nat) (s : State) : Host.Outcome State Fault Refusal :=
  let d := s.die die
  if !d.closed || d.inReset || s.launches.any fun l => !l.2.done && l.2.order < d.admitFrom then .next s
  else .next (s.setDie die fun d => { d with closed := false })

/-! ## Ageing, clock, beacons, die-to-die flits -/

/-- An hour of power-on of a die has passed: its count of hours goes up by one, and the prediction is made again (R395). -/
def ageDie (s : State) (die : Nat) : State :=
  if s.time < (s.die die).ageAt + 3600000000000 then s
  else
    { s with fresh := s.fresh + 1 }.setDie die fun d =>
      { d with age := Config.ageHours die s.fresh ++ (d.age.setWidth 32 + 1), ageAt := s.time }
/-- Once per hour of power-on the prediction of every die is made again. -/
def execAgeingUpdate (s : State) : Host.Outcome State Fault Refusal := .next ((upto 4).foldl ageDie s)

/-- Muaro sets the arithmetic clock of all dies, at most 2.7 GHz. -/
def execClockThrottle (mhz : Nat) (s : State) : Host.Outcome State Fault Refusal :=
  .next { s with modl := { s.modl with clock := max 1 (min Config.clockMHz mhz) } }

/-- A beacon reaches a module with a time source, over a number of hops. A timestamp that is behind goes forward; one that is ahead
stands still until the source has reached it, but that of a module without lock which is more than 10 ms ahead goes back
(assumption 85). The module is locked while it is ahead by at most 250 ns a hop and 1 µs in all (R26). -/
def execTimingBeacon (beacon : Beacon) (s : State) : Host.Outcome State Fault Refusal :=
  match s.modl.timeSource with
  | none => .next s
  | some _ =>
    let ahead := s.time - beacon.stamp
    if !s.modl.locked && 10000000 < ahead then .next { s with time := beacon.stamp, modl := { s.modl with ahead := 0, locked := true } }
    else
      .next { s with time := max s.time beacon.stamp
                     modl := { s.modl with ahead := ahead, locked := decide (ahead ≤ min 1000 (250 * beacon.hops)) } }

/-- A module that keeps its own time sends a beacon. -/
def execBeaconSend (s : State) : Host.Outcome State Fault Refusal :=
  match s.modl.timeSource with
  | none => .next (s.emit 9 [BitVec.ofNat 64 s.time])
  | some _ => .next s

/-- A die-to-die flit: one whose check fails is discarded and sent again, which changes no value, order or count that programs
see. -/
def execD2dFlit (_source _target : Nat) (_good : Bool) (s : State) : Host.Outcome State Fault Refusal := .next s

/-! ## Requests as bytes (R386, R387) -/

/-- The 8-byte fields of the parameters of a command: the bits of each that are used. -/
def commandWidths (command : Nat) : List Nat :=
  match command with
  | 0x0001 => [64, 64]
  | 0x0002 | 0x0003 => [16, 64, 64, 64]
  | 0x0004 | 0x0005 => [16, 64, 64, 64, 64]
  | 0x0006 => [16, 64, 32, 32, 64, 64, 64]
  | 0x0007 => [16, 64, 64, 32, 64, 64]
  | 0x0008 | 0x0031 | 0x0032 => [16]
  | 0x0010 | 0x0013 => [8]
  | 0x0011 => [8, 8, 8]
  | 0x0012 => [1, 9, 6, 64]
  | 0x0021 => [8]
  | 0x0022 => [64, 64]
  | 0x0023 => [16, 64, 64, 64]
  | 0x0024 => [16]
  | 0x0025 | 0x0026 => [8, 8, 64, 64]
  | 0x0030 => [16, 64]
  | 0x0033 => [16, 64]
  | 0x0034 => [16, 1, 8, 64, 32]
  | _ => []

/-- Fields from the front of some bytes, of the widths given, and the rest; none where one is missing or has other bits set. -/
def takeFields : List Nat → List Byte → Option (List Nat × List Byte)
  | [], bs => some ([], bs)
  | w :: ws, bs =>
    let v := pk bs 0 8
    if bs.length < 8 || 2 ^ w ≤ v then none else (takeFields ws (bs.drop 8)).map fun x => (v :: x.1, x.2)

/-- The value that names no team or port in particular (assumption 72). -/
def noneField : Nat := 2 ^ 64 - 1
/-- A field that names one of a number of things below a limit, or none. -/
def optField (limit v : Nat) : Option (Option Nat) :=
  if v = noneField then some none else if v < limit then some (some v) else none

/-- Entries of a route table, 32 bytes each (R181). -/
def routeEntries : Nat → List Byte → List RouteEntry
  | 0, _ => []
  | n + 1, bs =>
    ⟨BitVec.ofNat 32 (pk bs 0 4), BitVec.ofNat 32 (pk bs 4 4), BitVec.ofNat 16 (pk bs 10 2), BitVec.ofNat 96 (pk bs 20 12)⟩
      :: routeEntries n (bs.drop 32)

/-- What a state does. -/
abbrev Act := State → Host.Outcome State Fault Refusal

/-- The command of a code, with its fields and the block of data after them; none where they do not fit it. -/
def commandOf (die : Nat) (memory : Bool) (seq command : Nat) (vs : List Nat) (data : List Byte) : Option Act :=
  let w := fun (v : Nat) => BitVec.ofNat 64 v
  match command, vs, data with
  | 0x0001, [offset, length], [] => some (execReadCapabilityTable seq offset length)
  | 0x0002, [ctx, tag, team, dump], [] =>
    (optField (2 ^ 32) team).map fun t => execStop seq ctx (w tag) t (w dump) memory
  | 0x0003, [ctx, tag, team, _], [] => (optField (2 ^ 32) team).map fun t => execResume seq ctx (w tag) t
  | 0x0004, [ctx, tag, team, b, z], [] => (optField (2 ^ 32) team).map fun t => execTraceOn seq ctx (w tag) t (w b) z
  | 0x0005, [ctx, tag, team, _, _], [] => (optField (2 ^ 32) team).map fun t => execTraceOff seq ctx (w tag) t
  | 0x0006, [ctx, tag, lo, hi, d, n, result], [] => some (execCausalTrial seq ctx (w tag) lo hi d n (w result))
  | 0x0007, [ctx, tag, p, lo, g, result], [] => some (execSampling seq ctx (w tag) p lo g (w result))
  | 0x0008, [core], [] => some (execCoreResume seq core)
  | 0x0010, [d], [] => some (execReadDefectMap seq d)
  | 0x0011, [d, rail, step], [] => some (execSetRailOffset seq d rail (BitVec.ofNat 8 step))
  | 0x0012, [kind, port, lane, result], [] => some (execEyeScan seq die kind port lane (w result))
  | 0x0013, [d], [] => some (execReadAgeing seq d)
  | 0x0020, [], nonce => some (execAttest seq nonce)
  | 0x0021, [new], authorisation => some (execChangeLifecycleState seq new authorisation)
  | 0x0022, [address, length], [] => some (execInstallFirmware seq address length)
  | 0x0023, [ctx, p, a, t], [] => some (execCreateLaunchContext seq ctx (w p) (w a) (w t))
  | 0x0024, [ctx], [] => some (execDestroyLaunchContext seq ctx)
  | 0x0025, [d, tier, offset, n], bs => if bs.length = n then some (execWritePhysicalMemory seq d tier offset bs) else none
  | 0x0026, [d, tier, offset, n], [] => some (execReadPhysicalMemory seq d tier offset n)
  | 0x0030, [number, port], [] => (optField 24 port).map fun p => execSetFabricIdentity seq number p
  | 0x0031, [job], [] => some (execOpenJobSlot seq job)
  | 0x0032, [job], [] => some (execCloseJobSlot seq job)
  | 0x0033, [job, n], bs => if bs.length = 32 * n && n ≤ 127 then some (execLoadRouteTable seq job (routeEntries n bs)) else none
  | 0x0034, [job, root, parent, lo, hi], [] =>
    some (execSetWaveTree seq job (root == 1) parent (BitVec.ofNat 96 (lo + hi * 2 ^ 64)))
  | _, _, _ => none

/-- A management request as bytes: the header of R387, then its fields and its data. What is no command of the table, or is
malformed, is answered as such; less than a header is no request. -/
def requestOf (die : Nat) (memory : Bool) (bs : List Byte) : Act :=
  if bs.length < 16 then fun s => .next s
  else
    let command := pk bs 0 2
    let seq := pk bs 2 2
    let well := pk bs 8 8 = 0 && pk bs 4 4 = bs.length - 16 && pk bs 4 4 ≤ 4080
    let decoded := match takeFields (commandWidths command) (bs.drop 16) with
      | some (vs, data) => if well then commandOf die memory seq command vs data else none
      | none => none
    decoded.getD (execUnknownCommand seq command)

end Sys2Proof.Machine
end

