-- ==== Sys2Proof/Machine/Windows.lean ====
section
/-!
DEFINITION. The windows of the code search (R198 to R204): which words may stand in one, what its words do to a thread, its
live-ins and their coverage bins, and its cost.
-/
namespace Sys2Proof.Machine

/-! ## What the words of a window do (R198) -/

/-- The effect of an instruction of a window on a thread, with the crew's `k` registers and the bank words; none for an
instruction that no window holds. -/
def windowEffect (i : Instr) (k : Reg6 → Word) (c : Nat → Nat → Word) (t : Thread) : Option Thread :=
  match i with
  | .iadd f => some (semIadd f t)
  | .isub f => some (semIsub f t)
  | .imul f => some (semImul f t)
  | .imulh f => some (semImulh f t)
  | .imin f => some (semImin f t)
  | .imax f => some (semImax f t)
  | .div f => some (semDiv f t)
  | .rem f => some (semRem f t)
  | .iadd64 f => some (semIadd64 f t)
  | .isub64 f => some (semIsub64 f t)
  | .imul64 f => some (semImul64 f t)
  | .imulh64 f => some (semImulh64 f t)
  | .imin64 f => some (semImin64 f t)
  | .imax64 f => some (semImax64 f t)
  | .div64 f => some (semDiv64 f t)
  | .rem64 f => some (semRem64 f t)
  | .andR f => some (semAndR f t)
  | .orR f => some (semOrR f t)
  | .xorR f => some (semXorR f t)
  | .andn f => some (semAndn f t)
  | .shl f => some (semShl f t)
  | .shr f => some (semShr f t)
  | .sar f => some (semSar f t)
  | .rol f => some (semRol f t)
  | .popc f => some (semPopc f t)
  | .clz f => some (semClz f t)
  | .brev f => some (semBrev f t)
  | .shlW64 f => some (semShlW64 f t)
  | .shrW64 f => some (semShrW64 f t)
  | .sarI64 f => some (semSarI64 f t)
  | .iaddImm f => some (semIaddImm f t)
  | .imulImm f => some (semImulImm f t)
  | .andImm f => some (semAndImm f t)
  | .orImm f => some (semOrImm f t)
  | .xorImm f => some (semXorImm f t)
  | .shlImm f => some (semShlImm f t)
  | .shrImm f => some (semShrImm f t)
  | .sarImm f => some (semSarImm f t)
  | .icmp f => some (semIcmp f t)
  | .testW32 f => some (semTestW32 f t)
  | .icmpEqImm f => some (semIcmpEqImm f t)
  | .icmpLtImm f => some (semIcmpLtImm f t)
  | .fadd f => some (semFadd f t)
  | .fsub f => some (semFsub f t)
  | .fmul f => some (semFmul f t)
  | .fdiv f => some (semFdiv f t)
  | .fsqrt f => some (semFsqrt f t)
  | .fmin f => some (semFmin f t)
  | .fmax f => some (semFmax f t)
  | .fabs f => some (semFabs f t)
  | .fneg f => some (semFneg f t)
  | .fcpys f => some (semFcpys f t)
  | .frnd f => some (semFrnd f t)
  | .fclass f => some (semFclass f t)
  | .faddF64 f => some (semFaddF64 f t)
  | .fsubF64 f => some (semFsubF64 f t)
  | .fmulF64 f => some (semFmulF64 f t)
  | .fdivF64 f => some (semFdivF64 f t)
  | .fsqrtF64 f => some (semFsqrtF64 f t)
  | .fminF64 f => some (semFminF64 f t)
  | .fmaxF64 f => some (semFmaxF64 f t)
  | .fabsF64 f => some (semFabsF64 f t)
  | .fnegF64 f => some (semFnegF64 f t)
  | .fcpysF64 f => some (semFcpysF64 f t)
  | .frndF64 f => some (semFrndF64 f t)
  | .fclassF64 f => some (semFclassF64 f t)
  | .haddF16 f => some (semHaddF16 f t)
  | .hsubF16 f => some (semHsubF16 f t)
  | .hmulF16 f => some (semHmulF16 f t)
  | .hminF16 f => some (semHminF16 f t)
  | .hmaxF16 f => some (semHmaxF16 f t)
  | .haddBf16 f => some (semHaddBf16 f t)
  | .hsubBf16 f => some (semHsubBf16 f t)
  | .hmulBf16 f => some (semHmulBf16 f t)
  | .hminBf16 f => some (semHminBf16 f t)
  | .hmaxBf16 f => some (semHmaxBf16 f t)
  | .fcmp f => some (semFcmp f t)
  | .cvt f => some (semCvt f t)
  | .mov f => some (semMov f t)
  | .movD f => some (semMovD f t)
  | .ffmaF32 f => some (semFfmaF32 f t)
  | .ffmaF64 f => some (semFfmaF64 f t)
  | .hfmaF16 f => some (semHfmaF16 f t)
  | .hfmaBf16 f => some (semHfmaBf16 f t)
  | .imadI32 f => some (semImadI32 f t)
  | .imadW32 f => some (semImadW32 f t)
  | .movf20 f => some (semMovf20 f t)
  | .movi20 f => some (semMovi20 f t)
  | .movFromK f => some (t.setReg f.d (k f.a))
  | .faddBank f => some (semFaddBank f (c f.k.toNat (t.bankWord f.w)) t)
  | .fmulBank f => some (semFmulBank f (c f.k.toNat (t.bankWord f.w)) t)
  | .ffmac f => some (semFfmac f (c f.k.toNat (t.bankWord f.w)) t)
  | .iaddBank f => some (semIaddBank f (c f.k.toNat (t.bankWord f.w)) t)
  | .movBank f => some (semMovBank f (c f.k.toNat (t.bankWord f.w)) t)
  | .nop _ => some t
  | .xlit f => some { t with xlit := some f.p }
  | .xmod f => some { t with xmod := some f }
  | _ => none

/-- An instruction that may stand in a window. -/
def Instr.inWindow (i : Instr) : Bool := (windowEffect i (fun _ => 0) (fun _ _ => 0) (Thread.start 0 0)).isSome

/-- One word of a window in one thread, with its taint and spin activity (R61, R210); its hints serve the next word only. `kTaint` is the taint of the
crew's `k` registers. -/
def windowWord (k : Reg6 → Word) (kTaint : BitVec 64) (c : Nat → Nat → Word) (t : Thread) (w : Word) : Thread :=
  match decodeWord w with
  | .error _ => t
  | .ok i =>
    let t1 := if guardOf i t then (windowEffect i k c t).getD t else t
    let kt := match i with | .movFromK f => kTaint.getLsbD f.a.toNat | _ => false
    let t2 := if guardOf i t then t.taintAfter t1 i kt else t1
    let t3 := if t.g != t1.g || t.p != t1.p then t2.stirred else t2
    if i.isHint then t3 else { t3 with xlit := none, xmod := none }

/-- The words of a window in one thread, one after another. -/
def windowRun (k : Reg6 → Word) (kTaint : BitVec 64) (c : Nat → Nat → Word) (t : Thread) (ws : List Word) : Thread :=
  ws.foldl (windowWord k kTaint c) t

/-! ## Runs (R198) -/

/-- The instructions of words. -/
def instrsOf (ws : List Word) : List Instr := ws.filterMap fun w => (decodeWord w).toOption

/-- Words that could follow one another in a window: each may stand in one, only the first has the switch marker, and every
hint serves a consumer inside. `t` holds the hints before the words. -/
def runFits : List Word → Bool → Thread → Bool
  | [], _, t => t.xlit.isNone && t.xmod.isNone
  | w :: ws, first, t =>
    match decodeWord w with
    | .error _ => false
    | .ok i =>
      Instr.inWindow i && (first || !i.switch) && !brokenChain i t &&
        (match i with
         | .xlit f => runFits ws false { t with xlit := some f.p }
         | .xmod f => runFits ws false { t with xmod := some f }
         | _ =>
           (match t.xlit, i.xlitBits with | some p, some n => p.toNat < 2 ^ n | _, _ => true) &&
             runFits ws false { t with xlit := none, xmod := none })

/-- The longest run of 2 to 8 words that a window could be, from the first of some words. -/
def longestRun (ok : List Word → Bool) (ws : List Word) : Option (List Word) :=
  [8, 7, 6, 5, 4, 3, 2].findSome? fun n => if n ≤ ws.length && ok (ws.take n) then some (ws.take n) else none

/-! ## Live-ins (R198, R204) -/

/-- A live-in operand of a window: a general word, an FP64 pair, a `k` word, a bank word, a predicate; `flt` says that it is in
the float class. -/
inductive Operand where
  | g (r : Reg6) (flt : Bool)
  | pair (r : Reg6)
  | k (r : Reg6)
  | bank (b w : Nat) (flt : Bool)
  | pred (p : Pred3)
  deriving DecidableEq, Repr

/-- How an instruction reads its operands: 1 as FP32 values, 2 as FP64 values, 0 otherwise. -/
def floatRead : Instr → Nat
  | .fadd _ | .fsub _ | .fmul _ | .fdiv _ | .fsqrt _ | .fmin _ | .fmax _ | .fabs _ | .fneg _ | .fcpys _
  | .frnd _ | .fclass _ | .ffmaF32 _ | .faddBank _ | .fmulBank _ | .ffmac _ => 1
  | .faddF64 _ | .fsubF64 _ | .fmulF64 _ | .fdivF64 _ | .fsqrtF64 _ | .fminF64 _ | .fmaxF64 _ | .fabsF64 _
  | .fnegF64 _ | .fcpysF64 _ | .frndF64 _ | .fclassF64 _ | .ffmaF64 _ => 2
  | .fcmp f => if f.t then 2 else 1
  | .cvt f => if f.y = 10#4 then 1 else if f.y = 11#4 then 2 else 0
  | _ => 0

/-- What has been found of the live-ins of a window so far. -/
structure Scan where
  ops : List Operand
  wroteG : List Reg6
  wroteP : List Pred3
  hints : Thread

/-- A word of a register is read before it is written, and not yet a live-in. -/
def Scan.fresh (x : Scan) (r : Reg6) : Bool :=
  !x.wroteG.contains r && !(x.ops.any fun o =>
    match o with | .g q _ => q == r | .pair q => q == r || q + 1 == r | _ => false)
def Scan.add (x : Scan) (o : Operand) : Scan := if x.ops.contains o then x else { x with ops := x.ops ++ [o] }
def Scan.read (x : Scan) (r : Reg6) (flt : Bool) : Scan := if x.fresh r then x.add (.g r flt) else x
def Scan.readPairs (x : Scan) : List Reg6 → Scan
  | a :: b :: rs => (if x.fresh a && x.fresh b then x.add (.pair a) else (x.read a false).read b false).readPairs rs
  | _ => x
/-- A bank word is one operand, of the class of its first reader. -/
def Scan.readBank (x : Scan) (b w : Nat) (flt : Bool) : Scan :=
  if x.ops.any fun o => match o with | .bank c v _ => c == b && v == w | _ => false then x else x.add (.bank b w flt)
/-- A bank word that an instruction reads. -/
def bankRead? (i : Instr) (t : Thread) : Option (Nat × Nat) :=
  match i with
  | .faddBank f | .fmulBank f | .ffmac f | .iaddBank f => some (f.k.toNat, t.bankWord f.w)
  | .movBank f => some (f.k.toNat, t.bankWord f.w)
  | _ => none

def Scan.instr (x : Scan) (i : Instr) : Scan :=
  let n := floatRead i
  let x1 := (guardPreds i x.hints).foldl (fun x p => if p = 0 || x.wroteP.contains p then x else x.add (.pred p)) x
  let x2 := if n = 2 then x1.readPairs i.gReads else i.gReads.foldl (fun x r => x.read r (n == 1)) x1
  let x3 := match i with | .movFromK f => x2.add (.k f.a) | _ => x2
  let x4 := match bankRead? i x.hints with | some (b, w) => x3.readBank b w (n == 1) | none => x3
  { x4 with wroteG := x4.wroteG ++ i.gWrites, wroteP := x4.wroteP ++ i.pWrites
            hints := match i with
              | .xlit f => { x4.hints with xlit := some f.p }
              | .xmod f => { x4.hints with xmod := some f }
              | _ => { x4.hints with xlit := none, xmod := none } }

def scanOf (ws : List Word) : Scan := (instrsOf ws).foldl Scan.instr ⟨[], [], [], Thread.start 0 0⟩
/-- The live-in operands of a window, in the order of their first read. -/
def operandsOf (ws : List Word) : List Operand := (scanOf ws).ops
/-- The registers and predicates a window writes. -/
def writesG (ws : List Word) : List Reg6 := (scanOf ws).wroteG.eraseDups
def writesP (ws : List Word) : List Pred3 := ((scanOf ws).wroteP.filter fun p => p != 0).eraseDups

/-- 32-bit words an operand takes of the sixteen. -/
def Operand.words : Operand → Nat
  | .g _ _ => 1 | .pair _ => 2 | .k _ => 1 | .bank _ _ _ => 1 | .pred _ => 0

/-- Words that meet R198, whatever their number. -/
def windowOk (ws : List Word) : Bool :=
  runFits ws true (Thread.start 0 0) && (operandsOf ws).foldl (fun n o => n + o.words) 0 ≤ 16

/-! ## Values of live-ins -/

def LiveIns.kReg (v : LiveIns) (r : Reg6) : Word := (Tbl.at? v.k r.toNat).getD 0
def LiveIns.bankWord (v : LiveIns) (b w : Nat) : Word :=
  match v.c.find? fun x => x.1 == b && x.2.1 == w with | some x => x.2.2 | none => 0
def LiveIns.reg (v : LiveIns) (r : Reg6) : Word := (Tbl.at? v.g r.toNat).getD 0
def LiveIns.pred (v : LiveIns) (p : Pred3) : Bool := (Tbl.at? v.p p.toNat).getD false

/-- The operands of a window in a thread of a crew, with what the registers it writes held. -/
def liveIns (ws : List Word) (c : Crew) (bank : Nat → Nat → Word) (t : Thread) : LiveIns :=
  (operandsOf ws).foldl (fun v o =>
    match o with
    | .g r _ => { v with g := Tbl.put v.g r.toNat (t.reg r) }
    | .pair r => { v with g := Tbl.put (Tbl.put v.g r.toNat (t.reg r)) (r + 1).toNat (t.reg (r + 1)) }
    | .k r => { v with k := Tbl.put v.k r.toNat (c.kReg r) }
    | .bank b w _ => { v with c := v.c ++ [(b, w, bank b w)] }
    | .pred p => { v with p := Tbl.put v.p p.toNat (t.pred p) })
    { g := (writesG ws).map fun r => (r.toNat, t.reg r), k := [], c := [], p := (writesP ws).map fun p => (p.toNat, t.pred p) }

/-- Weevil's own register file as the operands fill it (R203). -/
def LiveIns.thread (v : LiveIns) : Thread :=
  let t := v.g.foldl (fun t x => t.setReg (BitVec.ofNat 6 x.1) x.2) (Thread.start 0 0)
  v.p.foldl (fun t x => t.setPred (BitVec.ofNat 3 x.1) x.2) t

/-- What a thread holds in the registers and predicates a window writes. -/
def leftG (ws : List Word) (t : Thread) : List (Nat × Word) := (writesG ws).map fun r => (r.toNat, t.reg r)
def leftP (ws : List Word) (t : Thread) : List (Nat × Bool) := (writesP ws).map fun p => (p.toNat, t.pred p)

/-- The words of a candidate or a window on Weevil's register file. -/
def weevilRun (v : LiveIns) (ws : List Word) : Thread := windowRun v.kReg 0 v.bankWord v.thread ws

/-- Two runs leave the same bits in what the window writes. -/
def sameLeft (orig words : List Word) (v : LiveIns) : Bool :=
  leftG orig (weevilRun v orig) == leftG orig (weevilRun v words) && leftP orig (weevilRun v orig) == leftP orig (weevilRun v words)

/-! ## Coverage bins (R204) -/

def intBin (w : Word) : Nat :=
  let v := w.toInt
  if v = 0 then 0 else if v = 1 then 1 else if 2 ≤ v && v ≤ 15 then 2 else if 16 ≤ v && v ≤ 255 then 3
  else if 256 ≤ v && v ≤ 65535 then 4 else if 65536 ≤ v && v ≤ 2 ^ 31 - 2 then 5 else if v = 2 ^ 31 - 1 then 6
  else if v = -1 then 7 else if -16 ≤ v && v ≤ -2 then 8 else if -256 ≤ v && v ≤ -17 then 9
  else if -65536 ≤ v && v ≤ -257 then 10 else if v = -(2 ^ 31) then 12 else 11

/-- The bin of a binary encoding: sign, exponent field, fraction, the exponent field of 1, and that of infinity. -/
def floatBin (neg : Bool) (e f one top : Nat) : Nat :=
  if e = top && f != 0 then 6
  else
    let n := if e = 0 then (if f = 0 then 0 else 1)
      else if e = top then 5 else if e < one then 2 else if e < one + 24 then 3 else 4
    if neg then n + 7 else n
def f32Bin (w : Word) : Nat := floatBin (bitAt w 31) (bits w.toNat 30 23) (bits w.toNat 22 0) 127 255
def f64Bin (w : DWord) : Nat := floatBin (w.getLsbD 63) (bits w.toNat 62 52) (bits w.toNat 51 0) 1023 2047

/-- The bin of an operand, and its value as a word. -/
def Operand.bin (o : Operand) (v : LiveIns) : Nat :=
  match o with
  | .g r flt => if flt then f32Bin (v.reg r) else intBin (v.reg r)
  | .pair r => f64Bin (BitVec.ofNat 64 ((v.reg r).toNat + 2 ^ 32 * (v.reg (r + 1)).toNat))
  | .k r => intBin (v.kReg r)
  | .bank b w flt => if flt then f32Bin (v.bankWord b w) else intBin (v.bankWord b w)
  | .pred p => (v.pred p).toNat
def Operand.word (o : Operand) (v : LiveIns) : Word :=
  match o with
  | .g r _ => v.reg r
  | .pair r => v.reg r
  | .k r => v.kReg r
  | .bank b w _ => v.bankWord b w
  | .pred p => BitVec.ofNat 32 (v.pred p).toNat

/-- The seen sets with the bins of some live-ins (R207). -/
def addSeen (ops : List Operand) (v : LiveIns) (seen : List (BitVec 13)) : List (BitVec 13) :=
  (ops.zip seen).map fun x => x.2 ||| (1#13 <<< x.1.bin v)
/-- The first operand whose bin is outside its seen set (R208). -/
def novelOperand (ops : List Operand) (v : LiveIns) (seen : List (BitVec 13)) : Option Operand :=
  ((ops.zip seen).find? fun x => !x.2.getLsbD (x.1.bin v)).map (·.1)

/-- The coverage rule of a level on one seen set (R207). -/
def covered (level : Nat) (o : Operand) (seen : BitVec 13) : Bool :=
  let some_ := fun lo hi => (upto 13).any fun i => lo ≤ i && i ≤ hi && seen.getLsbD i
  match level with
  | 0 => (match o with | .pred _ => seen.getLsbD 0 && seen.getLsbD 1 | _ => some_ 7 12 && some_ 0 6)
  | 1 => 2 ≤ ((upto 13).filter fun i => seen.getLsbD i).length
  | _ => true
def coverageMet (level : Nat) (ops : List Operand) (seen : List (BitVec 13)) : Bool :=
  (ops.zip seen).all fun x => covered level x.1 x.2

/-! ## Cost (R201) -/

def wordCost : Instr → Nat
  | .div _ | .rem _ | .div64 _ | .rem64 _ => 8
  | .faddF64 _ | .fsubF64 _ | .fmulF64 _ | .fdivF64 _ | .fsqrtF64 _ | .fminF64 _ | .fmaxF64 _ | .fabsF64 _
  | .fnegF64 _ | .fcpysF64 _ | .frndF64 _ | .fclassF64 _ | .ffmaF64 _ => 4
  | .fcmp f => if f.t then 4 else 1
  | .cvt f => if f.t = 11#4 || f.y = 11#4 then 4 else 1
  | .imul _ | .imulh _ | .imul64 _ | .imulh64 _ | .imulImm _ | .imadI32 _ | .imadW32 _ => 2
  | _ => 1

def windowCost (ws : List Word) : Nat := (instrsOf ws).foldl (fun n i => n + wordCost i) 0

/-! ## Where candidates come from (R201, R202) -/

/-- The operand class that a word of the mutation alphabet takes from the word it replaces, or from the first: 32-bit or 64-bit
integer, FP32, FP64. -/
inductive OpClass where
  | int
  | int64
  | f32
  | f64
  deriving DecidableEq, Repr

/-- The class of an instruction of a window; none for moves, hints and packed halves. -/
def opClass : Instr → Option OpClass
  | .iadd _ | .isub _ | .imul _ | .imulh _ | .imin _ | .imax _ | .div _ | .rem _ | .andR _ | .orR _ | .xorR _ | .andn _
  | .shl _ | .shr _ | .sar _ | .rol _ | .popc _ | .clz _ | .brev _ | .iaddImm _ | .imulImm _ | .andImm _ | .orImm _
  | .xorImm _ | .shlImm _ | .shrImm _ | .sarImm _ | .testW32 _ | .icmpEqImm _ | .icmpLtImm _ | .imadI32 _ | .imadW32 _
  | .iaddBank _ => some .int
  | .iadd64 _ | .isub64 _ | .imul64 _ | .imulh64 _ | .imin64 _ | .imax64 _ | .div64 _ | .rem64 _ | .shlW64 _ | .shrW64 _
  | .sarI64 _ => some .int64
  | .icmp f => some (if 5 ≤ f.m.toNat && f.m.toNat ≤ 9 then .int64 else .int)
  | i => match floatRead i with | 1 => some .f32 | 2 => some .f64 | _ => none

/-- A consumer of a window with the hints that serve it. -/
structure Item where
  xl : Option (BitVec 25)
  xm : Option HM
  i : Instr
  deriving DecidableEq, Repr

/-- The consumers of some instructions, after hints. -/
def itemsFrom : Option (BitVec 25) → Option HM → List Instr → List Item
  | _, _, [] => []
  | xl, xm, i :: is =>
    match i with
    | .xlit f => itemsFrom (some f.p) xm is
    | .xmod f => itemsFrom xl (some f) is
    | _ => ⟨xl, xm, i⟩ :: itemsFrom none none is
def itemsOf (ws : List Word) : List Item := itemsFrom none none (instrsOf ws)

/-- A thread in which only the hints of an item stand. -/
def Item.hints (x : Item) : Thread := { Thread.start 0 0 with xlit := x.xl, xmod := x.xm }
/-- What a move of a constant writes. -/
def Item.moved (x : Item) : Option (Reg6 × Word) :=
  match x.i with
  | .movi20 f => some (f.d, (semMovi20 f x.hints).reg f.d)
  | .movf20 f => some (f.d, (semMovf20 f x.hints).reg f.d)
  | _ => none
/-- The immediate of an item, as its hints and its extension make it (R258). -/
def Item.imm (x : Item) : Option Word :=
  match x.i with
  | .iaddImm f | .imulImm f => some (x.hints.imm f.i true)
  | .andImm f | .orImm f | .xorImm f | .shlImm f | .shrImm f | .sarImm f => some (x.hints.imm f.i false)
  | .icmpEqImm f | .icmpLtImm f => some (x.hints.imm f.i true)
  | _ => x.moved.map (·.2)

/-- The alphabet of the random mutations, in its register and immediate forms. -/
def Instr.mutates : Instr → Bool
  | .iadd _ | .isub _ | .imul _ | .iadd64 _ | .isub64 _ | .imul64 _ | .shl _ | .shr _ | .sar _ | .shlW64 _ | .shrW64 _
  | .sarI64 _ | .andR _ | .orR _ | .xorR _ | .mov _ | .movD _ | .fadd _ | .faddF64 _ | .fmul _ | .fmulF64 _ | .ffmaF32 _
  | .ffmaF64 _ | .iaddImm _ | .imulImm _ | .andImm _ | .orImm _ | .xorImm _ | .shlImm _ | .shrImm _ | .sarImm _ => true
  | _ => false

/-- An item that a random mutation of a window may draw: of the alphabet, over the registers and predicates the window reads or
writes, of the class of one of its words, with the hints of one of its items or none, and with one of its immediates or one of
−32 to 31 (R201). -/
def drawn (orig : List Item) (x : Item) : Bool :=
  let regs := orig.flatMap fun j => j.i.gReads ++ j.i.gWrites
  let preds := 0 :: orig.flatMap fun j => guardPreds j.i j.hints ++ j.i.pWrites
  Instr.mutates x.i && (x.i.gReads ++ x.i.gWrites).all (fun r => regs.contains r) &&
    (guardPreds x.i x.hints).all (fun p => preds.contains p) &&
    (match opClass x.i with | some k => orig.any fun j => opClass j.i == some k | none => true) &&
    ((x.xl.isNone && x.xm.isNone) || orig.any fun j => j.xl == x.xl && j.xm == x.xm) &&
    match x.imm with
    | some v => (orig.any fun j => j.imm == some v) || (-32 ≤ v.toInt && v.toInt ≤ 31)
    | none => true

/-- The words of a candidate that random mutations may have made: each item is drawn, or is one of the window's and stands no more
often than there; so for the hints. -/
def mutation (orig words : List Word) : Bool :=
  let own := itemsOf orig
  let new := itemsOf words
  (new.all fun x => drawn own x || new.count x ≤ own.count x) &&
    (instrsOf words).all fun i => !i.isHint || words.countP (hintIs i) ≤ orig.countP (hintIs i)
where
  hintIs (i : Instr) (w : Word) : Bool := (decodeWord w).toOption == some i

/-- Constants that the moves of a window have left in registers. -/
abbrev Consts := List (Reg6 × Word)
def Consts.after (k : Consts) (x : Item) : Consts :=
  x.moved.toList ++ k.filter fun c => !x.i.gWrites.contains c.1
def Consts.is (k : Consts) (r : Reg6) (v : Word) : Bool := Tbl.at? k r == some v
/-- A pair of registers holds a constant. -/
def Consts.pairIs (k : Consts) (r : Reg6) (v : DWord) : Bool := k.is r (v.setWidth 32) && k.is (r + 1) ((v >>> 32).setWidth 32)

/-- The rewrites of the catalogue, each equal for every operand (R202, assumption 60): a multiply by 2^s, by an immediate, an
`XLIT` or a constant that the window moves, to a left shift by s; a product with 2 in any format to a sum of the other factor with
itself. `k` holds what the registers hold before the word. -/
def rewritten (k : Consts) (a b : Item) : Bool :=
  let plain := a.xm.isNone && b.xl.isNone && b.xm.isNone
  let same := b.xl == a.xl && b.xm == a.xm
  let two := fun (f : R3) (v : Word) (sum : R3 → Instr) =>
    same && ((k.is f.b v && b.i == sum { f with b := f.a }) || (k.is f.a v && b.i == sum { f with a := f.b }))
  a == b ||
    match a.i with
    | .imulImm f => plain && (upto 32).any fun n => a.hints.imm f.i true == 1#32 <<< n && b.i == .shlImm { f with i := BitVec.ofNat 10 n }
    | .imul f =>
      plain && (upto 32).any fun n =>
        (k.is f.b (1#32 <<< n) && b.i == .shlImm ⟨f.sw, f.d, f.a, BitVec.ofNat 10 n, f.g⟩) ||
          (k.is f.a (1#32 <<< n) && b.i == .shlImm ⟨f.sw, f.d, f.b, BitVec.ofNat 10 n, f.g⟩)
    | .imul64 f =>
      (match b.i with
       | .shlW64 h =>
         plain && h.sw == f.sw && h.d == f.d && h.g == f.g && (upto 64).any fun n =>
           k.is h.b (BitVec.ofNat 32 n) &&
             ((k.pairIs f.b (1#64 <<< n) && h.a == f.a) || (k.pairIs f.a (1#64 <<< n) && h.a == f.b))
       | _ => false)
    | .fmul f => two f 0x40000000 .fadd
    | .hmulF16 f => two f 0x40004000 .haddF16
    | .hmulBf16 f => two f 0x40004000 .haddBf16
    | .fmulF64 f =>
      same && ((k.pairIs f.b 0x4000000000000000 && b.i == .faddF64 { f with b := f.a }) ||
        (k.pairIs f.a 0x4000000000000000 && b.i == .faddF64 { f with a := f.b }))
    | _ => false

/-- A candidate made from a window only by rewrites of the catalogue. -/
def catalogued : Consts → List Item → List Item → Bool
  | _, [], [] => true
  | k, a :: as, b :: bs => rewritten k a b && catalogued (k.after a) as bs
  | _, _, _ => false

end Sys2Proof.Machine
end

