-- ==== Sys2Proof/Machine/Weevil.lean ====
section
/-!
DEFINITION. The code search service (R198 to R215, R238, R459 to R465): counts and samples, windows under study, installed
candidates, the execution of a window, comparisons, promotion, replication and withdrawal.
-/
namespace Sys2Proof.Machine

def State.setWeevil (s : State) (core : Nat) (f : Weevil → Weevil) : State :=
  s.setCore core fun c => { c with weevil := f c.weevil }

/-! ## Counts and samples (R199, R200) -/

/-- Adds threads issued at a PC to its count, which saturates. -/
def Weevil.count (w : Weevil) (launch : Nat) (pc : DWord) (n : Nat) : Weevil :=
  { w with counts := Tbl.put w.counts (launch, pc) (min 65535 (Tbl.atD w.counts (launch, pc) 0 + n)) }

/-- A bank word in the execution of a window: those it reads are held. -/
def State.bankAs (s : State) (core launch b w : Nat) : Word := (s.bankHeld core launch b w).getD 0

/-- A bank word as the threads of a core read it: held, or as it stands in memory; none where the read fails. -/
def State.bankValue (s : State) (core launch : Nat) (l : Launch) (b w : Nat) : Option Word :=
  match s.bankHeld core launch b w with
  | some v => some v
  | none => (bankRead s core l.ctx true l b w).2.toOption

/-- A thread enters the window under study: every 256th execution is recorded, until the buffer is full; one whose bank words
cannot be read has no live-ins to record. -/
def Weevil.enter (w : Weevil) (x : Study) (c : Crew) (bank : Nat → Nat → Option Word) (t : Thread) : Weevil :=
  let readable := (operandsOf x.words).all fun o => match o with | .bank b n _ => (bank b n).isSome | _ => true
  if 64 ≤ w.samples.length then w
  else
    { w with entered := w.entered + 1
             samples := if (w.entered + 1) % 256 = 0 && readable then
                          w.samples ++ [liveIns x.words c (fun b n => (bank b n).getD 0) t]
                        else w.samples }

/-- Words of a run after its first issue at their own PCs (R199). -/
def Weevil.countRun (w : Weevil) (launch : Nat) (pc : DWord) (threads : Nat) : Nat → Weevil
  | 0 | 1 => w
  | n + 1 => (w.countRun launch pc threads n).count launch (pc + BitVec.ofNat 64 (4 * n)) threads

/-- What the counts and the sampler of a core see of an issue: the threads of the group that issued between two states. The sampler
counts those of launches with the policy word of the study (assumption 100). -/
def weevilSees (s s' : State) : State :=
  let core := s.cur.core
  let issued := s.cur.refs.filter fun r => (s.thread r).readyAt != (s'.thread r).readyAt
  match issued with
  | [] => s'
  | r0 :: _ =>
    match s.teamLaunch? r0.team with
    | none => s'
    | some (lid, l) =>
      let pc := (s.thread r0).pc
      s'.setWeevil core fun w =>
        let w1 := w.count lid pc issued.length
        match w1.study with
        | none => w1
        | some x =>
          if x.ctx = l.ctx && x.code = l.code && x.policy = l.policy && x.window = pc then
            issued.foldl (fun w r => w.enter x ((s.crew? r.cref).getD (Crew.start 0 0 0)) (s.bankValue core lid l) (s.thread r)) w1
          else w1

/-! ## The window under study (R198, R199) -/

/-- The words of a line from an address as far as a window may take them: no word of a dictionary run, and the first no
consumer of a hint. -/
def windowWords (s : State) (core ctx : Nat) (pc : DWord) : List Word :=
  let words := match peekLine s core ctx pc false with | some ws => some ws | none => peekLine s core ctx pc true
  match words with
  | none => []
  | some ws =>
    let i := pc.toNat % 256 / 4
    let ms := (marks ws 0 false).drop i
    if pc.toNat % 4 != 0 || ms.head? != some Mark.plain then []
    else ((ws.drop i).zip ms).takeWhile (fun x => x.2 != Mark.run) |>.map (·.1)

/-- A core's store holds an entry of a window. -/
def Weevil.holds (w : Weevil) (ctx : Nat) (code window : DWord) : Bool :=
  w.store.any fun e => e.2.ctx == ctx && e.2.code == code && e.2.window == window

/-- The window at a counted PC, if it can be studied. -/
def studyAt (s : State) (core : Nat) (w : Weevil) (c : (Nat × DWord) × Nat) : Option Study :=
  match s.launch? c.1.1 with
  | none => none
  | some l =>
    let pc := c.1.2
    if l.det || c.2 < 2 ^ 14 || w.holds l.ctx l.code pc || w.barren.contains (l.ctx, pc) then none
    else (longestRun windowOk (windowWords s core l.ctx pc)).map fun ws =>
      { ctx := l.ctx, code := l.code, policy := l.policy, window := pc, words := ws }

/-- Every 2^20 cycles the counts are read and cleared, and with no window under study the one with the highest count is
taken. -/
def execWeevilWindowSelect (core : Nat) (s : State) : Host.Outcome State Fault Refusal :=
  let w := (s.core core).weevil
  if s.cycle < w.lastRead + 2 ^ 20 then .next s
  else
    let found := w.counts.filterMap fun c => (studyAt s core w c).map fun x => (c.2, x)
    let best := found.foldl (fun (b : Option (Nat × Study)) x =>
      match b with | some y => if y.1 < x.1 then some x else b | none => some x) none
    .next (s.setWeevil core fun w =>
      let w1 := { w with counts := [], lastRead := s.cycle }
      match w1.study, best with
      | none, some x => { w1 with study := some x.2, entered := 0, samples := [], idle := 0 }
      | _, _ => w1)

/-! ## The slots of Weevil (R238) -/

/-- A core holds a resident team of an entry's code object under its policy word. -/
def State.hasTeamOf (s : State) (core : Nat) (e : SubEntry) : Bool :=
  s.teams.any fun t =>
    t.2.core == core && (match s.launch? t.2.launch with
      | some l => l.ctx == e.ctx && l.code == e.code && l.policy == e.policy
      | none => false)

/-- A promoted entry has still to reach a core. -/
def State.replicates (s : State) (source target : Nat) (e : SubEntry) : Bool :=
  e.promoted && source != target && s.hasTeamOf target e &&
    !((s.core target).weevil.store.any fun x => x.2.cand == e.cand)

/-- A port of a core is left without a group in this cycle. -/
def State.slotLeft (s : State) (core : Nat) : Bool := (s.nextGroup core).isNone && (s.usedPipes core).length < 2

/-- Some promoted entry of a core has still to be replicated. -/
def State.replicationDue (s : State) (core : Nat) : Bool :=
  (s.core core).weevil.store.any fun e => s.activeCores.any fun d => s.replicates core d e.2

/-- A slot is left for replication: no comparison is pending. -/
def State.replicationSlot (s : State) (core : Nat) : Bool := s.slotLeft core && (s.core core).weevil.pending.isEmpty

/-- A slot is left for the search: nothing is to compare or to replicate. -/
def State.searchSlot (s : State) (core : Nat) : Bool := s.replicationSlot core && !s.replicationDue core

/-- Weevil takes the slot of a port. -/
def takeSlot (s : State) (core : Nat) : State := usePort s core none

/-! ## Candidates (R201 to R203, R215) -/

/-- A candidate that Weevil may install for a window on the samples it holds. -/
def candidateFits (x : Study) (samples : List LiveIns) (words : List Word) (exact : Bool) : Bool :=
  1 ≤ words.length && words.length ≤ 8 && windowOk words &&
  (writesG words).all (fun r => (writesG x.words).contains r) && (writesP words).all (fun p => (writesP x.words).contains p) &&
  windowCost words < windowCost x.words &&
  (if exact then catalogued [] (itemsOf x.words) (itemsOf words)
   else mutation x.words words && !x.policy.getLsbD 1) &&
  samples.length == 64 && samples.all (sameLeft x.words words)

/-- The entry that makes room in a full store: a probation entry, else the promoted one least recently executed; its
number. -/
def evicted (store : List (Nat × SubEntry)) : Option Nat :=
  match store.find? fun e => !e.2.promoted with
  | some e => some e.1
  | none =>
    (store.foldl (fun (b : Option (Nat × SubEntry)) e =>
      match b with | some y => if e.2.use < y.2.use then some e else b | none => some e) none).map (·.1)

/-- The lowest entry number that a store leaves free. -/
def freeEntry (store : List (Nat × SubEntry)) : Option Nat := (upto 64).find? fun n => !(store.any fun e => e.1 == n)

/-- Adds an entry to a store, evicting one if it is full. -/
def addEntry (store : List (Nat × SubEntry)) (e : SubEntry) : List (Nat × SubEntry) :=
  match freeEntry store with
  | some n => store ++ [(n, e)]
  | none =>
    match evicted store with
    | some n => store.map fun x => if x.1 == n then (n, e) else x
    | none => store

/-- An id that no store of the device holds. -/
def State.freshId (s : State) (id : Nat) : Bool :=
  1 ≤ id && id ≤ 65535 && !(s.cores.any fun c => c.2.weevil.store.any fun e => e.2.cand == id)

/-- Weevil on a core installs a candidate for its window, with an id; one that R201 to R203 do not admit is not installed. -/
def execCandidateInstall (core : Nat) (words : List Word) (exact : Bool) (id : Nat) (s : State) :
    Host.Outcome State Fault Refusal :=
  let w := (s.core core).weevil
  match w.study with
  | none => .next s
  | some x =>
    if s.searchSlot core && candidateFits x w.samples words exact && s.freshId id && !w.holds x.ctx x.code x.window then
      let e : SubEntry :=
        { cand := id, ctx := x.ctx, code := x.code, policy := x.policy, window := x.window, orig := x.words, words := words,
          promoted := false, exact := exact, count := 0, equal := 0, seen := (operandsOf x.words).map fun _ => 0,
          use := s.cycle }
      .next ((takeSlot s core).setWeevil core fun w => { w with store := addEntry w.store e })
    else .next s

/-- Some run of at most `n` words meets a condition. -/
def anyWords (p : List Word → Bool) : Nat → List Word → Bool
  | 0, ws => p ws
  | n + 1, ws => p ws || (upto (2 ^ 32)).any fun w => anyWords p n (ws ++ [BitVec.ofNat 32 w])
/-- Of all the candidates that R201 admits for a window, none qualifies on its samples. -/
def noCandidate (x : Study) (samples : List LiveIns) : Bool :=
  !anyWords (fun ws => candidateFits x samples ws false || candidateFits x samples ws true) 8 []

/-- The search of a window ends without a candidate: earlier than after the 2^24 idle slots, which `Weevil.spend` counts, only if
there is none (R203). -/
def execWindowBarren (core : Nat) (s : State) : Host.Outcome State Fault Refusal :=
  let w := (s.core core).weevil
  match w.study with
  | none => .next s
  | some x =>
    if s.searchSlot core && w.samples.length == 64 && !w.holds x.ctx x.code x.window &&
        (decide (2 ^ 24 ≤ w.idle) || noCandidate x w.samples) then
      .next ((takeSlot s core).setWeevil core fun w =>
        { w with study := none, idle := 0, barren := w.barren ++ [(x.ctx, x.window)] })
    else .next s

/-! ## The execution of a window (R205, R206, R208 to R214, R460, R465) -/

/-- A breakpoint of a launch of the code object stands on a word of the window (R214). -/
def State.breakIn (s : State) (e : SubEntry) : Bool :=
  s.launches.any fun l =>
    l.2.ctx == e.ctx && l.2.code == e.code && l.2.breakpoints.any fun b =>
      codeOffset l.2 e.window ≤ b.2.1 && b.2.1 < codeOffset l.2 e.window + 4 * e.orig.length

/-- A launch uses an entry at a PC. -/
def entryUsable (s : State) (l : Launch) (pc : DWord) (e : SubEntry) : Bool :=
  e.ctx == l.ctx && e.code == l.code && e.policy == l.policy && l.policy.getLsbD 0 && !l.det && e.window == pc && !s.breakIn e

/-- The entry that threads of a launch at a PC enter on a core. -/
def State.windowAt (s : State) (core launch : Nat) (pc : DWord) : Option (Nat × SubEntry) :=
  match s.launch? launch with
  | none => none
  | some l => (s.core core).weevil.store.find? fun e => entryUsable s l pc e.2

/-- The bank words a window reads that the core does not hold for the launch. -/
def State.banksMissing (s : State) (core launch : Nat) (e : SubEntry) : List (Nat × Nat) :=
  (operandsOf e.orig).filterMap fun o =>
    match o with
    | .bank b w _ => if (s.bankHeld core launch b w).isNone then some (b, w) else none
    | _ => none

/-- How an execution is treated. -/
inductive Treat where
  | original
  | dual
  | alone (novel : Option Operand)

/-- The treatment of the next execution of an entry (R206 to R208, R464). -/
def treatment (w : Weevil) (dropped : Bool) (e : SubEntry) (v : LiveIns) : Treat :=
  let dual := if w.pending.length < 8 then Treat.dual else .original
  if !e.promoted || (e.count + 1) % 2 ^ bits e.policy.toNat 15 12 = 0 then dual
  else
    match novelOperand (operandsOf e.orig) v e.seen with
    | none => .alone none
    | some o =>
      match bits e.policy.toNat 7 6 with
      | 0 => dual
      | 1 => if dropped then dual else .alone (some o)
      | _ => if dropped then dual else .original

/-- Every register and predicate a window writes is tainted by an execution under the log policy (R210, R212). -/
def Thread.taintWindow (t : Thread) (orig : List Word) (cand : Nat) (inst : Word) : Thread :=
  { t with taintG := (writesG orig).foldl (fun m r => m ||| laneBit r.toNat) t.taintG
           taintP := (writesP orig).foldl (fun (m : BitVec 8) (p : Pred3) => m ||| (1#8 <<< p.toNat)) t.taintP
           instCand := cand, instWord := inst }

/-- A team's record of the candidates it has run alone (R460). -/
def Team.usesCand (t : Team) (cand : Nat) : Team :=
  if t.usedAll || t.usedIds.contains cand then t
  else if t.usedIds.length < 4 then { t with usedIds := t.usedIds ++ [cand] }
  else { t with usedAll := true }

/-- A thread after its execution of a window: at the word after it, its slots those of the words that ran (R213). -/
def Thread.endWindow (t : Thread) (pc : DWord) (cycle orig run : Nat) : Thread :=
  let n := cycle + run * Config.issueInterval
  { t with pc := pc + BitVec.ofNat 64 (4 * orig), lastIssue := cycle, readyAt := n, rankAt := n, pass := false,
           window := some (pc, orig) }

/-- One thread executes a window, in the order of lanes; whether the candidate ran alone. -/
def windowLane (core launch n : Nat) (s : State) (r : TRef) : State × Bool :=
  let w := (s.core core).weevil
  match Tbl.at? w.store n, s.crew? r.cref with
  | some e, some c =>
    let t := s.thread r
    let bank := s.bankAs core launch
    let v := liveIns e.orig c bank t
    let dropped := match s.launch? launch with | some l => l.dropped | none => false
    let how := treatment w dropped e v
    let words := match how with | .alone _ => e.words | _ => e.orig
    let t1 := windowRun c.kReg c.taintK bank t words
    let t2 := match how with | .alone (some o) => t1.taintWindow e.orig e.cand (o.word v) | _ => t1
    let s1 := s.setThread r fun _ => t2.endWindow t.pc s.cycle e.orig.length words.length
    let s2 := s1.setWeevil core fun w =>
      { w with store := w.store.map fun x =>
                 if x.1 == n then (n, { e with count := if e.promoted then e.count + 1 else e.count, use := s.cycle }) else x
               pending := match how with
                 | .dual => w.pending ++ [⟨e, r.team, v, leftG e.orig t1, leftP e.orig t1⟩]
                 | _ => w.pending }
    match how with
    | .alone _ => (s2.setTeam r.team fun tm => tm.usesCand e.cand, true)
    | _ => (s2, false)
  | _, _ => (s, false)

/-- The crews, traces and trials after the execution of a window (R213, R383). -/
def windowCrews (s0 s : State) (g : Group) (e : SubEntry) (alone : List TRef) : State :=
  g.lanes.foldl (fun s x =>
    let s1 := s.setCrew x.1 fun c => { c with retired := c.retired + BitVec.ofNat 64 e.orig.length }
    let run := (alone.filter fun r => r.cref == x.1).foldl (fun m r => m ||| laneBit r.lane) 0
    let s2 := traceEvent s1 x.1 6 1 g.pc e.cand run
    let s3 := traceEvent s2 x.1 6 0 g.pc e.cand (x.2 &&& ~~~run)
    countTrials s3 x.1 x.2 ((s0.crew? x.1).getD (Crew.start 0 0 0))) s

/-- The group at the first word of an installed window executes it, whole. -/
def execWindowExecution (entry : Nat) (s : State) : Host.Outcome State Fault Refusal :=
  let core := s.cur.core
  let none_ : State := { s with cur := Group.none }
  match s.cur.refs with
  | [] => .next none_
  | r0 :: _ =>
    match s.teamLaunch? r0.team, Tbl.at? (s.core core).weevil.store entry with
    | some (lid, l), some e =>
      if entryUsable s l (s.thread r0).pc e && (s.banksMissing core lid e).isEmpty then
        let s1 := lateTraps s
        let x := s1.cur.refs.foldl (fun (x : State × List TRef) r =>
          match windowLane core lid entry x.1 r with
          | (s2, true) => (s2, x.2 ++ [r])
          | (s2, false) => (s2, x.2)) (s1, [])
        let s2 := windowCrews s1 { x.1 with cur := Group.none } s1.cur e x.2
        let s3 := s2.setWeevil core fun w =>
          w.countRun lid (s.thread r0).pc (s1.cur.refs.length - x.2.length) e.orig.length
        .next (enterTraps s3 s1.cur.traps)
      else .next none_
    | _, _ => .next none_

/-! ## Comparisons (R207, R459) -/

def dropEntry (n : Nat) (w : Weevil) : Weevil := { w with store := w.store.filter fun e => e.1 != n }
/-- The window of an entry is under study on its core. -/
def Weevil.studies (w : Weevil) (e : SubEntry) : Bool :=
  match w.study with | some x => x.ctx == e.ctx && x.window == e.window | none => false
/-- The study of an entry's window ends. -/
def Weevil.endStudy (w : Weevil) (e : SubEntry) : Weevil := if w.studies e then { w with study := none } else w
def Weevil.markBarren (w : Weevil) (e : SubEntry) : Weevil := { w with barren := w.barren ++ [(e.ctx, e.window)] }

/-- An equal comparison: it counts in probation, and its bins join the seen sets; the entry is promoted, or discarded when
coverage is not met in time. -/
def equalComparison (n : Nat) (e : SubEntry) (v : LiveIns) (w : Weevil) : Weevil :=
  let ops := operandsOf e.orig
  let e1 := { e with seen := addSeen ops v e.seen }
  let put := fun (w : Weevil) (e : SubEntry) => { w with store := w.store.map fun x => if x.1 == n then (n, e) else x }
  if e.promoted then put w e1
  else
    let e2 := { e1 with equal := e.equal + 1 }
    let P := 2 ^ bits e.policy.toNat 11 8
    if P ≤ e2.equal && coverageMet (bits e.policy.toNat 3 2) ops e2.seen then
      put (w.endStudy e) { e2 with promoted := true, count := 0 }
    else if 16 * P ≤ e2.equal then ((dropEntry n w).endStudy e).markBarren e
    else put w e2

/-- An unequal comparison in probation: the candidate is discarded, its live-ins replace the oldest sample, and the search goes
on. -/
def unequalProbation (n : Nat) (e : SubEntry) (v : LiveIns) (w : Weevil) : Weevil :=
  let w1 := dropEntry n w
  if w1.studies e then { w1 with samples := w1.samples.drop 1 ++ [v] } else w1

/-- A promoted candidate is withdrawn; further mismatches of a withdrawn id cause nothing more. -/
def withdraw (s : State) (core : Nat) (e : SubEntry) : State :=
  let known := (match s.ctx? e.ctx with | some c => c.withdrawn.contains e.cand | none => false) ||
    s.withdrawals.any fun x => x.cand == e.cand
  if known then s
  else
    let s1 := s.setWeevil core fun w => { w with store := w.store.filter fun x => x.2.cand != e.cand }.markBarren e
    { s1 with withdrawals := s1.withdrawals ++ [⟨e.cand, e.ctx, e.code, e.window, s.time⟩] }

/-- The oldest pending comparison of a core finishes, in a slot that a port has left. Of an entry that has left the store since, a
promoted one is still withdrawn by an unequal comparison; else nothing more comes of it. -/
def execDualRunComparison (core : Nat) (s : State) : Host.Outcome State Fault Refusal :=
  match (s.core core).weevil.pending with
  | [] => .next s
  | p :: ps =>
    if !s.slotLeft core then .next s
    else
    let s1 := (takeSlot s core).setWeevil core fun w => { w with pending := ps }
    let t := weevilRun p.live p.entry.words
    let same := leftG p.entry.orig t == p.results && leftP p.entry.orig t == p.preds
    match (s1.core core).weevil.store.find? fun e => e.2.cand == p.entry.cand && e.2.window == p.entry.window with
    | none => .next (if !same && p.entry.promoted then withdraw s1 core p.entry else s1)
    | some (n, e) =>
      if same then .next (s1.setWeevil core (equalComparison n e p.live))
      else if e.promoted then .next (withdraw s1 core e)
      else .next (s1.setWeevil core (unequalProbation n e p.live))

/-! ## Replication and withdrawal (R208, R459 to R462) -/

/-- A promoted entry reaches the store of another core, in a slot of the core that holds it. -/
def execEntryReplication (source target cand : Nat) (s : State) : Host.Outcome State Fault Refusal :=
  match (s.core source).weevil.store.find? fun e => e.2.cand == cand with
  | some (_, e) =>
    if s.replicates source target e && s.replicationSlot source then
      .next ((takeSlot s source).setWeevil target fun w => { w with store := addEntry w.store { e with count := 0, use := s.cycle } })
    else .next s
  | none => .next s

/-- A team has used a candidate. -/
def Team.used (t : Team) (cand : Nat) : Bool := t.usedAll || t.usedIds.contains cand

/-- What a withdrawal does to one team that used the candidate: an abort of its task, or a deferred fault (R461, R462). -/
def withdrawFrom (s : State) (x : Withdrawal) (team : Nat) (t : Team) : State :=
  match s.launch? t.launch with
  | none => s
  | some l =>
    if l.ctx = x.ctx && t.used x.cand then
      if t.abortable then s.setTeamAny team fun t => { t with abort := true }
      else
        s.defer team { cls := 11, code := 1, detail := x.cand, addr := BitVec.ofNat 64 l.escapeCount, pc := x.window,
                       originPc := x.window, originTime := x.time, detected := s.time, crew := some 255 }
    else s

/-- The coordinator has removed the id from every store, and the withdrawal completes. -/
def execCandidateWithdrawal (cand : Nat) (s : State) : Host.Outcome State Fault Refusal :=
  match s.withdrawals.find? fun x => x.cand == cand with
  | none => .next s
  | some x =>
    let clear := fun (w : Weevil) =>
      { w with store := w.store.filter fun e => e.2.cand != cand, pending := w.pending.filter fun p => p.entry.cand != cand }
    let s1 : State :=
      { s with cores := s.cores.map fun c => (c.1, { c.2 with weevil := clear c.2.weevil })
               withdrawals := s.withdrawals.filter fun y => y.cand != cand }
    let s2 := s1.setCtx x.ctx fun c =>
      let ids := c.withdrawn ++ [cand]
      { c with withdrawn := ids.drop (ids.length - 64) }
    let teams := s2.teams ++ s2.images.map fun i => (i.team, i.data)
    .next (teams.foldl (fun s t => withdrawFrom s x t.1 t.2) s2)

end Sys2Proof.Machine
end

