-- ==== Sys2Proof/Machine/Events.lean ====
section
/-!
DEFINITION. Steps of a core that no thread issues: returning results, write-backs, completing releases, page walks, trap
entries that had to wait, expiring waits, coroutine steps, demotions, deferred copies, reserved words, and the fills of the
instruction and constant caches. Each does nothing while it is not due.
-/
namespace Sys2Proof.Machine

/-! ## Results and write-backs -/

/-- The n-th outstanding result of a thread returns in a cycle, once its values are known (R51, R52). -/
def Thread.returned (t : Thread) (cycle n : Nat) : Thread :=
  match t.out[n]? with
  | some o =>
    (match o.vals with
     | some vs => { t.writeOut o.regs vs with out := t.out.eraseIdx n, backAt := cycle + 1 }
     | none => t)
  | none => t

def execResultReturn (r : TRef) (n : Nat) (s : State) : Host.Outcome State Fault Refusal :=
  .next (s.setThread r fun t => t.returned s.cycle n)

/-- A dirty word of a core is written back, by a policy (2) or a recall (3); by an eviction (1) its whole line is, and leaves the
L1. It waits while an engine has still to write its unit, and for pending releases of its crews (R131, R133, R135, R408). -/
def execL1WriteBack (core pa start : Nat) (s : State) : Host.Outcome State Fault Refusal :=
  match s.l1Word? core pa with
  | none => .next s
  | some _ =>
    .next (if start ≤ 1 then (evictLine s core (pa / 64)).1
           else (writeBackNow s (min 3 start) 0 fun x => x.core == core && x.pa == pa).1)

/-- The write-back of a `FENCE.REL` completes (R133). -/
def execReleaseCompletion (c : CRef) (s : State) : Host.Outcome State Fault Refusal :=
  match s.crew? c with
  | none => .next s
  | some w =>
    match w.fence with
    | some (pc, lanes) => if s.relBlocked c then .next s else .next (release s c pc lanes)
    | none => .next s

/-- A walk leaves the translation of an address in the TLBs of a die, or fails (R107, R426). -/
def execPageWalk (die ctx : Nat) (va : DWord) (s : State) : Host.Outcome State Fault Refusal :=
  if 2 ^ 52 ≤ va.toNat then .next s else .next (lookup s (.die die) ctx va.toNat).1

/-! ## Traps that wait (R405) -/

/-- A thread whose trap waited for a result or for room in the ring enters the supervisor; records of retired teams go
first. -/
def execSupervisorTrapEntry (r : TRef) (s : State) : Host.Outcome State Fault Refusal :=
  .next (supervisorEntry (flushOrphans s.orphans s) r)

/-! ## Waits and coroutines (R55, R56, R62, R65) -/

/-- A bounded wait outside deterministic mode has lasted its nanoseconds: it ends with the cycle, unless its set is complete by
then (R53, R55). -/
def execWaitmtTimeout (r : TRef) (s : State) : Host.Outcome State Fault Refusal :=
  match (s.thread r).wait with
  | .maskTimed _ _ d => .next (if !s.isDet r.team && d ≤ s.time then endCycle s else s)
  | _ => .next s

/-- Nothing is left for the end of the cycle to test. -/
def Due.settled (d : Due) : Bool := d.masks.isEmpty && d.bars.isEmpty && d.tbars.isEmpty && d.arrivals.isEmpty
/-- Every crew of the coroutine order of a core waits, one of their threads in `WAITMT`: the tests of the cycle are made, and no team
of the core is out (R54, R56, R69). -/
def State.idleCoroutines (s : State) (core : Nat) : Bool :=
  s.due.settled && !s.coreWaits core && !(s.coroutines core).isEmpty && ((s.coroutines core).all fun c => s.crewWaits c) && !(s.timedWaits core).isEmpty

/-- An idle step, with the handover to a crew whose wait it ended. -/
def execDeterministicIdleStep (core : Nat) (s : State) : Host.Outcome State Fault Refusal :=
  if s.idleCoroutines core then
    let s1 := coroutineStep s core
    .next (match s1.nextCrew core none with | some c => runCrew s1 core c | none => s1)
  else .next s

/-- The running crew has retired 4,096 instructions without effect, as all their results show: it is at a switch point. -/
def execDeterministicYield (core : Nat) (s : State) : Host.Outcome State Fault Refusal :=
  match (s.core core).running with
  | none => .next s
  | some c =>
    match s.crew? c with
    | none => .next s
    | some w =>
      .next (if 4096 ≤ w.quietCount && !w.quietOpen then
        s.setCrew c fun w => { w with switchPoint := true, quietCount := 0, quietMarks := [] } else s)

/-- A thread that has completed 8 empty iterations in succession is demoted. -/
def execSpinDemotion (r : TRef) (s : State) : Host.Outcome State Fault Refusal :=
  .next (if !s.isDet r.team && 8 ≤ (s.thread r).spin.empty then
    s.setThread r fun t => { t with spin := { t.spin with demoted := true } } else s)

/-! ## Issues of single lanes and of words that do not decode -/

/-- A group of threads of a core at one PC. -/
def groupAt (core : Nat) (pc : DWord) (rs : List TRef) (code : Option (Option Word)) : Group :=
  { core := core, pc := pc, lanes := groupLanes rs, done := [], traps := [], code := code, effect := false }

/-- A thread may issue by itself what stands at its PC: its core could issue a group that holds it, and under deterministic mode it
is the first of it (R66, R142). -/
def State.issuesAlone (s : State) (r : TRef) : Bool :=
  (s.candidates (s.teamCore r.team)).any fun g => if s.isDet r.team then g.refs.head? == some r else g.refs.contains r

/-- A lane that waited at a copy starts it, if it can now (R120, R121). -/
def execCopyDeferredStart (r : TRef) (s : State) : Host.Outcome State Fault Refusal :=
  if !s.issuesAlone r then .next s
  else
    let code := match s.fetched r with | .code f => (match codeWord s r f with | .word w => some (some w) | _ => none) | _ => none
    let s1 := { s with cur := groupAt (s.teamCore r.team) (s.thread r).pc [r] code }
    match s.instrAt r with
    | some (.cpy f) => execCpy f s1
    | some (.cpyg f) => execCpyg f s1
    | some (.cpys f) => execCpys f s1
    | _ => .next s

/-- The instruction that a word would be but for the fields that make it none: its major, with its minor and order, if it has
them (R409, R414). -/
def mendedWord (w : Word) : Option Instr :=
  [0x7E00007F, 0x7E00006F, 0x7E00004F, 0x7E00000F, 0x7E000060].findSome? fun m => (decodeWord (w &&& m)).toOption

/-- The causes of class 0x02 that the registers of a thread show for a word whose fields are at fault as well: those of `TLBINV`
and `RATOM`, whose codes may be lower (R413, R415). -/
def shownBeside (w : Word) (s : State) (r : TRef) : Option Cause :=
  match mendedWord w with
  | some (.tlbinv _) => tlbinvFault (readRab w) s r
  | some (.ratom _) => let f := readR3 w; sendReserved (.ratom f) ⟨3, f.d, f.a, f.b⟩ s r
  | _ => none

/-- A word of a reserved major or minor, or with a reserved field, traps in every lane of the group (R415); at a delivery point a
deferred fault is entered first (R414). -/
def execReservedEncoding (w : Word) (s : State) : Host.Outcome State Fault Refusal :=
  match decodeWord w with
  | .ok _ => .next { s with cur := Group.none }
  | .error e =>
    let s1 := lateTraps (match mendedWord w with | some i => deliver i s | none => s)
    let wide := match mendedWord w with | some i => i.crewWide | none => false
    let c : Cause := { cls := 2, code := e.code, detail := e.bit }
    .next (finishTraps (if wide && !s1.cur.traps.isEmpty then s1.stallAll
                        else s1.trapAll ((lowestCause (c :: s1.cur.refs.filterMap (shownBeside w s1))).getD c)))

/-! ## Cache fills -/

/-- The threads of a core that wait for the line of an address; of a deterministic core those of the running crew that would
issue there. -/
def State.lineWaiters (s : State) (core ctx : Nat) (va : DWord) (sup : Bool) : List TRef :=
  let rs := match s.coroutines core, (s.core core).running with
    | [], _ => (s.coreThreads core).filter s.awake
    | _, some c => (match s.coroutineGroup core c with | some g => g.refs | none => [])
    | _, none => []
  rs.filter fun r => s.teamCtx r.team == ctx && (s.thread r).sup == sup && (s.thread r).pc == va

/-- An instruction line arrives; a fetch that fails traps the threads at that address (R112, R264, R429, R443). -/
def execInstructionLineFill (core ctx : Nat) (va : DWord) (sup : Bool) (s : State) : Host.Outcome State Fault Refusal :=
  if (s.line? core ctx va sup).isSome then .next s
  else
    match fetchLine s core ctx va sup with
    | (s1, .ok l) => .next (insertLine s1 l)
    | (s1, .error c) =>
      let s2 := { s1 with cur := groupAt core va (s1.distinctLanes (s1.lineWaiters core ctx va sup)) none }
      .next (finishTraps (s2.trapAll c))

/-- A bank word arrives in a core's constant cache (R269). -/
def execConstantCacheFill (core launch bank word : Nat) (s : State) : Host.Outcome State Fault Refusal :=
  match s.launch? launch with
  | none => .next s
  | some l =>
    if (s.bankHeld core launch bank word).isSome then .next s
    else
      match bankRead s core l.ctx true l bank word with
      | (s1, .error _) => .next s1
      | (s1, .ok v) => .next { s1 with consts := s1.consts ++ [⟨core, launch, bank, word, v⟩] }

end Sys2Proof.Machine
end

