-- ==== Sys2Proof/Machine/Dispatch.lean ====
section
/-! DEFINITION. The meaning of every instruction and event: one arm for each constructor of `Instr`. -/
namespace Sys2Proof.Machine

def exec (i : Instr) (s : State) : Host.Outcome State Fault Refusal :=
  match i with
  | .iadd f => Sys2Proof.Machine.execIadd f s
  | .isub f => Sys2Proof.Machine.execIsub f s
  | .imul f => Sys2Proof.Machine.execImul f s
  | .imulh f => Sys2Proof.Machine.execImulh f s
  | .imin f => Sys2Proof.Machine.execImin f s
  | .imax f => Sys2Proof.Machine.execImax f s
  | .div f => Sys2Proof.Machine.execDiv f s
  | .rem f => Sys2Proof.Machine.execRem f s
  | .iadd64 f => Sys2Proof.Machine.execIadd64 f s
  | .isub64 f => Sys2Proof.Machine.execIsub64 f s
  | .imul64 f => Sys2Proof.Machine.execImul64 f s
  | .imulh64 f => Sys2Proof.Machine.execImulh64 f s
  | .imin64 f => Sys2Proof.Machine.execImin64 f s
  | .imax64 f => Sys2Proof.Machine.execImax64 f s
  | .div64 f => Sys2Proof.Machine.execDiv64 f s
  | .rem64 f => Sys2Proof.Machine.execRem64 f s
  | .andR f => Sys2Proof.Machine.execAndR f s
  | .orR f => Sys2Proof.Machine.execOrR f s
  | .xorR f => Sys2Proof.Machine.execXorR f s
  | .andn f => Sys2Proof.Machine.execAndn f s
  | .shl f => Sys2Proof.Machine.execShl f s
  | .shr f => Sys2Proof.Machine.execShr f s
  | .sar f => Sys2Proof.Machine.execSar f s
  | .rol f => Sys2Proof.Machine.execRol f s
  | .popc f => Sys2Proof.Machine.execPopc f s
  | .clz f => Sys2Proof.Machine.execClz f s
  | .brev f => Sys2Proof.Machine.execBrev f s
  | .shlW64 f => Sys2Proof.Machine.execShlW64 f s
  | .shrW64 f => Sys2Proof.Machine.execShrW64 f s
  | .sarI64 f => Sys2Proof.Machine.execSarI64 f s
  | .iaddImm f => Sys2Proof.Machine.execIaddImm f s
  | .imulImm f => Sys2Proof.Machine.execImulImm f s
  | .andImm f => Sys2Proof.Machine.execAndImm f s
  | .orImm f => Sys2Proof.Machine.execOrImm f s
  | .xorImm f => Sys2Proof.Machine.execXorImm f s
  | .shlImm f => Sys2Proof.Machine.execShlImm f s
  | .shrImm f => Sys2Proof.Machine.execShrImm f s
  | .sarImm f => Sys2Proof.Machine.execSarImm f s
  | .icmp f => Sys2Proof.Machine.execIcmp f s
  | .testW32 f => Sys2Proof.Machine.execTestW32 f s
  | .icmpEqImm f => Sys2Proof.Machine.execIcmpEqImm f s
  | .icmpLtImm f => Sys2Proof.Machine.execIcmpLtImm f s
  | .fadd f => Sys2Proof.Machine.execFadd f s
  | .fsub f => Sys2Proof.Machine.execFsub f s
  | .fmul f => Sys2Proof.Machine.execFmul f s
  | .fdiv f => Sys2Proof.Machine.execFdiv f s
  | .fsqrt f => Sys2Proof.Machine.execFsqrt f s
  | .fmin f => Sys2Proof.Machine.execFmin f s
  | .fmax f => Sys2Proof.Machine.execFmax f s
  | .fabs f => Sys2Proof.Machine.execFabs f s
  | .fneg f => Sys2Proof.Machine.execFneg f s
  | .fcpys f => Sys2Proof.Machine.execFcpys f s
  | .frnd f => Sys2Proof.Machine.execFrnd f s
  | .fclass f => Sys2Proof.Machine.execFclass f s
  | .faddF64 f => Sys2Proof.Machine.execFaddF64 f s
  | .fsubF64 f => Sys2Proof.Machine.execFsubF64 f s
  | .fmulF64 f => Sys2Proof.Machine.execFmulF64 f s
  | .fdivF64 f => Sys2Proof.Machine.execFdivF64 f s
  | .fsqrtF64 f => Sys2Proof.Machine.execFsqrtF64 f s
  | .fminF64 f => Sys2Proof.Machine.execFminF64 f s
  | .fmaxF64 f => Sys2Proof.Machine.execFmaxF64 f s
  | .fabsF64 f => Sys2Proof.Machine.execFabsF64 f s
  | .fnegF64 f => Sys2Proof.Machine.execFnegF64 f s
  | .fcpysF64 f => Sys2Proof.Machine.execFcpysF64 f s
  | .frndF64 f => Sys2Proof.Machine.execFrndF64 f s
  | .fclassF64 f => Sys2Proof.Machine.execFclassF64 f s
  | .haddF16 f => Sys2Proof.Machine.execHaddF16 f s
  | .hsubF16 f => Sys2Proof.Machine.execHsubF16 f s
  | .hmulF16 f => Sys2Proof.Machine.execHmulF16 f s
  | .hminF16 f => Sys2Proof.Machine.execHminF16 f s
  | .hmaxF16 f => Sys2Proof.Machine.execHmaxF16 f s
  | .haddBf16 f => Sys2Proof.Machine.execHaddBf16 f s
  | .hsubBf16 f => Sys2Proof.Machine.execHsubBf16 f s
  | .hmulBf16 f => Sys2Proof.Machine.execHmulBf16 f s
  | .hminBf16 f => Sys2Proof.Machine.execHminBf16 f s
  | .hmaxBf16 f => Sys2Proof.Machine.execHmaxBf16 f s
  | .fcmp f => Sys2Proof.Machine.execFcmp f s
  | .cvt f => Sys2Proof.Machine.execCvt f s
  | .recipF32 f => Sys2Proof.Machine.execRecipF32 f s
  | .rrootF32 f => Sys2Proof.Machine.execRrootF32 f s
  | .exp2 f => Sys2Proof.Machine.execExp2 f s
  | .log2 f => Sys2Proof.Machine.execLog2 f s
  | .sin f => Sys2Proof.Machine.execSin f s
  | .cos f => Sys2Proof.Machine.execCos f s
  | .tanh f => Sys2Proof.Machine.execTanh f s
  | .recipF64 f => Sys2Proof.Machine.execRecipF64 f s
  | .rrootF64 f => Sys2Proof.Machine.execRrootF64 f s
  | .mov f => Sys2Proof.Machine.execMov f s
  | .movD f => Sys2Proof.Machine.execMovD f s
  | .movFromK f => Sys2Proof.Machine.execMovFromK f s
  | .movToK f => Sys2Proof.Machine.execMovToK f s
  | .sread f => Sys2Proof.Machine.execSread f s
  | .shflPick f => Sys2Proof.Machine.execShflPick f s
  | .shflRot f => Sys2Proof.Machine.execShflRot f s
  | .shflSeg f => Sys2Proof.Machine.execShflSeg f s
  | .shflFlip f => Sys2Proof.Machine.execShflFlip f s
  | .voteEvery f => Sys2Proof.Machine.execVoteEvery f s
  | .voteSome f => Sys2Proof.Machine.execVoteSome f s
  | .voteMap f => Sys2Proof.Machine.execVoteMap f s
  | .voteFsum f => Sys2Proof.Machine.execVoteFsum f s
  | .voteIsum f => Sys2Proof.Machine.execVoteIsum f s
  | .ffmaF32 f => Sys2Proof.Machine.execFfmaF32 f s
  | .ffmaF64 f => Sys2Proof.Machine.execFfmaF64 f s
  | .hfmaF16 f => Sys2Proof.Machine.execHfmaF16 f s
  | .hfmaBf16 f => Sys2Proof.Machine.execHfmaBf16 f s
  | .imadI32 f => Sys2Proof.Machine.execImadI32 f s
  | .imadW32 f => Sys2Proof.Machine.execImadW32 f s
  | .faddBank f => Sys2Proof.Machine.execFaddBank f s
  | .fmulBank f => Sys2Proof.Machine.execFmulBank f s
  | .ffmac f => Sys2Proof.Machine.execFfmac f s
  | .iaddBank f => Sys2Proof.Machine.execIaddBank f s
  | .movBank f => Sys2Proof.Machine.execMovBank f s
  | .movf20 f => Sys2Proof.Machine.execMovf20 f s
  | .movi20 f => Sys2Proof.Machine.execMovi20 f s
  | .bra f => Sys2Proof.Machine.execBra f s
  | .call f => Sys2Proof.Machine.execCall f s
  | .brx f => Sys2Proof.Machine.execBrx f s
  | .callx f => Sys2Proof.Machine.execCallx f s
  | .ret f => Sys2Proof.Machine.execRet f s
  | .exit f => Sys2Proof.Machine.execExit f s
  | .yield f => Sys2Proof.Machine.execYield f s
  | .nop f => Sys2Proof.Machine.execNop f s
  | .xlit f => Sys2Proof.Machine.execXlit f s
  | .xmod f => Sys2Proof.Machine.execXmod f s
  | .dict f => Sys2Proof.Machine.execDict f s
  | .sched f => Sys2Proof.Machine.execSched f s
  | .dictCode f => Sys2Proof.Machine.execDictCode f s
  | .join f => Sys2Proof.Machine.execJoin f s
  | .leave f => Sys2Proof.Machine.execLeave f s
  | .waitm f => Sys2Proof.Machine.execWaitm f s
  | .waitmt f => Sys2Proof.Machine.execWaitmt f s
  | .mand f => Sys2Proof.Machine.execMand f s
  | .mor f => Sys2Proof.Machine.execMor f s
  | .mxor f => Sys2Proof.Machine.execMxor f s
  | .mandn f => Sys2Proof.Machine.execMandn f s
  | .mmov f => Sys2Proof.Machine.execMmov f s
  | .mset f => Sys2Proof.Machine.execMset f s
  | .mget f => Sys2Proof.Machine.execMget f s
  | .bar f => Sys2Proof.Machine.execBar f s
  | .tbinit f => Sys2Proof.Machine.execTbinit f s
  | .tbarrive f => Sys2Proof.Machine.execTbarrive f s
  | .tbwait f => Sys2Proof.Machine.execTbwait f s
  | .fenceRel f => Sys2Proof.Machine.execFenceRel f s
  | .fenceAcq f => Sys2Proof.Machine.execFenceAcq f s
  | .fenceAr f => Sys2Proof.Machine.execFenceAr f s
  | .tagwany f => Sys2Proof.Machine.execTagwany f s
  | .tagwall f => Sys2Proof.Machine.execTagwall f s
  | .tagfirst f => Sys2Proof.Machine.execTagfirst f s
  | .pref f => Sys2Proof.Machine.execPref f s
  | .ld f => Sys2Proof.Machine.execLd f s
  | .st f => Sys2Proof.Machine.execSt f s
  | .ldl f => Sys2Proof.Machine.execLdl f s
  | .stl f => Sys2Proof.Machine.execStl f s
  | .lds f => Sys2Proof.Machine.execLds f s
  | .sts f => Sys2Proof.Machine.execSts f s
  | .ldc f => Sys2Proof.Machine.execLdc f s
  | .stc f => Sys2Proof.Machine.execStc f s
  | .ldx f => Sys2Proof.Machine.execLdx f s
  | .stx f => Sys2Proof.Machine.execStx f s
  | .atom f => Sys2Proof.Machine.execAtom f s
  | .red f => Sys2Proof.Machine.execRed f s
  | .atoms f => Sys2Proof.Machine.execAtoms f s
  | .atomc f => Sys2Proof.Machine.execAtomc f s
  | .atomx f => Sys2Proof.Machine.execAtomx f s
  | .reds f => Sys2Proof.Machine.execReds f s
  | .redc f => Sys2Proof.Machine.execRedc f s
  | .redx f => Sys2Proof.Machine.execRedx f s
  | .cpy f => Sys2Proof.Machine.execCpy f s
  | .cpyg f => Sys2Proof.Machine.execCpyg f s
  | .cpys f => Sys2Proof.Machine.execCpys f s
  | .tcfg f => Sys2Proof.Machine.execTcfg f s
  | .wld f => Sys2Proof.Machine.execWld f s
  | .wswap f => Sys2Proof.Machine.execWswap f s
  | .mms f => Sys2Proof.Machine.execMms f s
  | .ast f => Sys2Proof.Machine.execAst f s
  | .ald f => Sys2Proof.Machine.execAld f s
  | .azero f => Sys2Proof.Machine.execAzero f s
  | .scld f => Sys2Proof.Machine.execScld f s
  | .batonPass f => Sys2Proof.Machine.execBatonPass f s
  | .batonWait f => Sys2Proof.Machine.execBatonWait f s
  | .solve f => Sys2Proof.Machine.execSolve f s
  | .solend f => Sys2Proof.Machine.execSolend f s
  | .msend f => Sys2Proof.Machine.execMsend f s
  | .rput f => Sys2Proof.Machine.execRput f s
  | .rget f => Sys2Proof.Machine.execRget f s
  | .ratom f => Sys2Proof.Machine.execRatom f s
  | .waitq f => Sys2Proof.Machine.execWaitq f s
  | .tspawn f => Sys2Proof.Machine.execTspawn f s
  | .tdone f => Sys2Proof.Machine.execTdone f s
  | .launch f => Sys2Proof.Machine.execLaunch f s
  | .publish f => Sys2Proof.Machine.execPublish f s
  | .prog f => Sys2Proof.Machine.execProg f s
  | .subpol f => Sys2Proof.Machine.execSubpol f s
  | .subq f => Sys2Proof.Machine.execSubq f s
  | .trap f => Sys2Proof.Machine.execTrap f s
  | .eret f => Sys2Proof.Machine.execEret f s
  | .crr f => Sys2Proof.Machine.execCrr f s
  | .crw f => Sys2Proof.Machine.execCrw f s
  | .icinv f => Sys2Proof.Machine.execIcinv f s
  | .tlbinv f => Sys2Proof.Machine.execTlbinv f s
  | .bist f => Sys2Proof.Machine.execBist f s
  | .halt f => Sys2Proof.Machine.execHalt f s
  | .hostFetchStart ctx r => Sys2Proof.Machine.execHostFetchStart ctx r s
  | .hostFetchAbandon ctx => Sys2Proof.Machine.execHostFetchAbandon ctx s
  | .preemptTeam ctx writer team => Sys2Proof.Machine.execPreemptTeam ctx writer team s
  | .preemptLaunch ctx writer => Sys2Proof.Machine.execPreemptLaunch ctx writer s
  | .abortRequest ctx writer team => Sys2Proof.Machine.execAbortRequest ctx writer team s
  | .setFabricPeriod job period => Sys2Proof.Machine.execSetFabricPeriod job period s
  | .railOffsetWrite die rail step => Sys2Proof.Machine.execRailOffsetWrite die rail step s
  | .eyeScanStart die ctx => Sys2Proof.Machine.execEyeScanStart die ctx s
  | .eyeScanComplete die => Sys2Proof.Machine.execEyeScanComplete die s
  | .bistComplete die => Sys2Proof.Machine.execBistComplete die s
  | .launchPacket bytes host => Sys2Proof.Machine.execLaunchPacket bytes host s
  | .teamAdmission => Sys2Proof.Machine.execTeamAdmission s
  | .teamRestore => Sys2Proof.Machine.execTeamRestore s
  | .teamRetirement team => Sys2Proof.Machine.execTeamRetirement team s
  | .launchCompletion launch => Sys2Proof.Machine.execLaunchCompletion launch s
  | .taskAdmission core => Sys2Proof.Machine.execTaskAdmission core s
  | .spillReturn core => Sys2Proof.Machine.execSpillReturn core s
  | .taskRetirement team => Sys2Proof.Machine.execTaskRetirement team s
  | .teamImageSave team => Sys2Proof.Machine.execTeamImageSave team s
  | .resultReturn r n => Sys2Proof.Machine.execResultReturn r n s
  | .l1WriteBack core pa start => Sys2Proof.Machine.execL1WriteBack core pa start s
  | .releaseCompletion c => Sys2Proof.Machine.execReleaseCompletion c s
  | .pageWalk die ctx va => Sys2Proof.Machine.execPageWalk die ctx va s
  | .supervisorTrapEntry r => Sys2Proof.Machine.execSupervisorTrapEntry r s
  | .waitmtTimeout r => Sys2Proof.Machine.execWaitmtTimeout r s
  | .deterministicIdleStep core => Sys2Proof.Machine.execDeterministicIdleStep core s
  | .deterministicYield core => Sys2Proof.Machine.execDeterministicYield core s
  | .spinDemotion r => Sys2Proof.Machine.execSpinDemotion r s
  | .copyDeferredStart r => Sys2Proof.Machine.execCopyDeferredStart r s
  | .copyChunk cluster => Sys2Proof.Machine.execCopyChunk cluster s
  | .matrixInstructionStart team id => Sys2Proof.Machine.execMatrixInstructionStart team id s
  | .matrixInstructionComplete team id => Sys2Proof.Machine.execMatrixInstructionComplete team id s
  | .scaleCacheFill team id => Sys2Proof.Machine.execScaleCacheFill team id s
  | .solveStep team => Sys2Proof.Machine.execSolveStep team s
  | .solendStep team => Sys2Proof.Machine.execSolendStep team s
  | .messageInjection id => Sys2Proof.Machine.execMessageInjection id s
  | .activeMessageArrival m e dest bad => Sys2Proof.Machine.execActiveMessageArrival m e dest bad s
  | .remotePutArrival m e dest bad => Sys2Proof.Machine.execRemotePutArrival m e dest bad s
  | .remoteGetArrival m e dest bad => Sys2Proof.Machine.execRemoteGetArrival m e dest bad s
  | .remoteAtomicArrival m e dest bad ret => Sys2Proof.Machine.execRemoteAtomicArrival m e dest bad ret s
  | .replyArrival m e dest bad => Sys2Proof.Machine.execReplyArrival m e dest bad s
  | .handlerStart team crew => Sys2Proof.Machine.execHandlerStart team crew s
  | .handlerRetirement team crew => Sys2Proof.Machine.execHandlerRetirement team crew s
  | .acknowledgement iface seq => Sys2Proof.Machine.execAcknowledgement iface seq s
  | .attemptTimeout id => Sys2Proof.Machine.execAttemptTimeout id s
  | .lossQuery id => Sys2Proof.Machine.execLossQuery id s
  | .lossQueryArrival m e dest => Sys2Proof.Machine.execLossQueryArrival m e dest s
  | .lossQueryAnswer iface seq received => Sys2Proof.Machine.execLossQueryAnswer iface seq received s
  | .queryTimeout id => Sys2Proof.Machine.execQueryTimeout id s
  | .lossNotice iface seq code => Sys2Proof.Machine.execLossNotice iface seq code s
  | .failureNotice iface seq cls code detail => Sys2Proof.Machine.execFailureNotice iface seq cls code detail s
  | .waveStart job => Sys2Proof.Machine.execWaveStart job s
  | .passRequest job number pass iface => Sys2Proof.Machine.execPassRequest job number pass iface s
  | .passComplete job => Sys2Proof.Machine.execPassComplete job s
  | .verdict job number kind sums die => Sys2Proof.Machine.execVerdict job number kind sums die s
  | .waveIncomplete job => Sys2Proof.Machine.execWaveIncomplete job s
  | .timingBeacon beacon => Sys2Proof.Machine.execTimingBeacon beacon s
  | .beaconSend => Sys2Proof.Machine.execBeaconSend s
  | .d2dFlit source target good => Sys2Proof.Machine.execD2dFlit source target good s
  | .weevilWindowSelect core => Sys2Proof.Machine.execWeevilWindowSelect core s
  | .candidateInstall core words exact id => Sys2Proof.Machine.execCandidateInstall core words exact id s
  | .windowBarren core => Sys2Proof.Machine.execWindowBarren core s
  | .windowExecution entry => Sys2Proof.Machine.execWindowExecution entry s
  | .dualRunComparison core => Sys2Proof.Machine.execDualRunComparison core s
  | .entryReplication source target cand => Sys2Proof.Machine.execEntryReplication source target cand s
  | .candidateWithdrawal cand => Sys2Proof.Machine.execCandidateWithdrawal cand s
  | .teamStop team => Sys2Proof.Machine.execTeamStop team s
  | .traceRecovery core => Sys2Proof.Machine.execTraceRecovery core s
  | .sampleTick core => Sys2Proof.Machine.execSampleTick core s
  | .histogramFlush launch => Sys2Proof.Machine.execHistogramFlush launch s
  | .causalTrialEnd launch => Sys2Proof.Machine.execCausalTrialEnd launch s
  | .hostReadData ctx bytes error => Sys2Proof.Machine.execHostReadData ctx bytes error s
  | .hostFetchTimeout ctx => Sys2Proof.Machine.execHostFetchTimeout ctx s
  | .publicationWrite ctx window => Sys2Proof.Machine.execPublicationWrite ctx window s
  | .publicationTimeout ctx window => Sys2Proof.Machine.execPublicationTimeout ctx window s
  | .readCapabilityTable seq offset length => Sys2Proof.Machine.execReadCapabilityTable seq offset length s
  | .stop seq ctx tag team dump memory => Sys2Proof.Machine.execStop seq ctx tag team dump memory s
  | .resume seq ctx tag team => Sys2Proof.Machine.execResume seq ctx tag team s
  | .traceOn seq ctx tag team base size => Sys2Proof.Machine.execTraceOn seq ctx tag team base size s
  | .traceOff seq ctx tag team => Sys2Proof.Machine.execTraceOff seq ctx tag team s
  | .causalTrial seq ctx tag lo hi delay duration result => Sys2Proof.Machine.execCausalTrial seq ctx tag lo hi delay duration result s
  | .sampling seq ctx tag period lo g result => Sys2Proof.Machine.execSampling seq ctx tag period lo g result s
  | .coreResume seq core => Sys2Proof.Machine.execCoreResume seq core s
  | .readDefectMap seq die => Sys2Proof.Machine.execReadDefectMap seq die s
  | .setRailOffset seq die rail step => Sys2Proof.Machine.execSetRailOffset seq die rail step s
  | .eyeScan seq die kind port lane result => Sys2Proof.Machine.execEyeScan seq die kind port lane result s
  | .readAgeing seq die => Sys2Proof.Machine.execReadAgeing seq die s
  | .attest seq nonce => Sys2Proof.Machine.execAttest seq nonce s
  | .changeLifecycleState seq new authorisation => Sys2Proof.Machine.execChangeLifecycleState seq new authorisation s
  | .installFirmware seq address length => Sys2Proof.Machine.execInstallFirmware seq address length s
  | .createLaunchContext seq ctx ptroot saveaddr taskspill => Sys2Proof.Machine.execCreateLaunchContext seq ctx ptroot saveaddr taskspill s
  | .destroyLaunchContext seq ctx => Sys2Proof.Machine.execDestroyLaunchContext seq ctx s
  | .writePhysicalMemory seq die tier offset data => Sys2Proof.Machine.execWritePhysicalMemory seq die tier offset data s
  | .readPhysicalMemory seq die tier offset length => Sys2Proof.Machine.execReadPhysicalMemory seq die tier offset length s
  | .setFabricIdentity seq number source => Sys2Proof.Machine.execSetFabricIdentity seq number source s
  | .openJobSlot seq job => Sys2Proof.Machine.execOpenJobSlot seq job s
  | .closeJobSlot seq job => Sys2Proof.Machine.execCloseJobSlot seq job s
  | .loadRouteTable seq job entries => Sys2Proof.Machine.execLoadRouteTable seq job entries s
  | .setWaveTree seq job root parent children => Sys2Proof.Machine.execSetWaveTree seq job root parent children s
  | .unknownCommand seq command => Sys2Proof.Machine.execUnknownCommand seq command s
  | .dieReset die => Sys2Proof.Machine.execDieReset die s
  | .dieReadmission die => Sys2Proof.Machine.execDieReadmission die s
  | .tierReopen die => Sys2Proof.Machine.execTierReopen die s
  | .moduleReset => Sys2Proof.Machine.execModuleReset s
  | .scrub pa corrected uncorrectable => Sys2Proof.Machine.execScrub pa corrected uncorrectable s
  | .hourlyErrorLog met => Sys2Proof.Machine.execHourlyErrorLog met s
  | .ageingUpdate => Sys2Proof.Machine.execAgeingUpdate s
  | .clockThrottle mhz => Sys2Proof.Machine.execClockThrottle mhz s
  | .reservedEncoding w => Sys2Proof.Machine.execReservedEncoding w s
  | .instructionLineFill core ctx va sup => Sys2Proof.Machine.execInstructionLineFill core ctx va sup s
  | .constantCacheFill core launch bank word => Sys2Proof.Machine.execConstantCacheFill core launch bank word s
  | .childPortSum job number pass port q => Sys2Proof.Machine.execChildPortSum job number pass port q s
  | .fabricFlit port => Sys2Proof.Machine.execFabricFlit port s
  | .setBreakpoint launch number offset dump => Sys2Proof.Machine.execSetBreakpoint launch number offset dump s

end Sys2Proof.Machine
end

