-- ==== Sys2Proof/Machine/Choose.lean ====
section
/-!
DEFINITION. What the group a core picks does at its PC, and what can happen on the device when nothing is scheduled
(assumption 1).
-/
namespace Sys2Proof.Machine

/-- Threads of the group that did not issue in their cycle are ready anew from the next, by key 4 of R237. -/
def rerank (s t : State) : State :=
  s.cur.refs.foldl (fun u r =>
    if (s.thread r).readyAt = (t.thread r).readyAt then u.setThread r fun x => { x with rankAt := s.cycle + 1 } else u) t

/-- After the issue of the group that stands in `s`. -/
def issued (s : State) (pipe : Option Nat) : Host.Outcome State Fault Refusal → Host.Outcome State Fault Refusal
  | .next t => .next (usePort (weevilSees s (rerank s t)) s.cur.core pipe)
  | .fault f => .fault f
  | .refused r => .refused r

/-! ## What a group does -/

/-- The bank words a copy's record takes up. -/
def recordWords (o : CopyOps) : List (Nat × Nat) :=
  if o.fromGlobal then [] else (upto 16).map fun n => (bits o.ctl 30 28, 16 * bits o.ctl 27 18 + n)

/-- The bank words an instruction reads in a thread: an operand, a copy's record, a handler's or a trap's entry. -/
def bankNeeds (i : Instr) (t : Thread) : List (Nat × Nat) :=
  match i with
  | .trap f => if t.sup || 2048 ≤ f.n.toNat then [] else [(7, 512), (7, 513)]
  | .cpy f => if guardOf i t then recordWords (copyOps .cpy f t) else []
  | .cpyg f => if guardOf i t then recordWords (copyOps .cpyg f t) else []
  | .cpys f => if guardOf i t then recordWords (copyOps .cpys f t) else []
  | .msend f =>
    let h := (t.reg (f.a + 1)).toNat % 256
    if guardOf i t then [(7, 2 * h), (7, 2 * h + 1)] else []
  | _ => (bankRead? i t).toList

/-- The first of some bank words that the core has still to read. -/
def State.bankToFill (s : State) (r : TRef) (needs : List (Nat × Nat)) : Option (Nat × Nat) :=
  needs.find? fun x => match bankOperand s r x.1 x.2 with | .missing _ => true | _ => false

/-- A thread of the team has reached a breakpoint in a cycle; of a pre-emption of the same cycle the stop goes first (R377). -/
def Team.reachBreak (cycle n : Nat) (t : Team) : Team :=
  { t with breakHit := some (t.breakHit.getD n), preemptLate := t.preemptLate || (t.preempt && t.preemptAt == cycle) }
/-- The threads of a group that a breakpoint stops: their teams stop, and on resuming they pass it once (R374). -/
def hitBreak (s : State) (g : Candidate) (n : Nat) : State :=
  (g.refs.filter fun r => (s.thread r).stopsAt).foldl (fun s r =>
    (s.setThread r fun t => { t with pass := true }).setTeam r.team (Team.reachBreak s.cycle n)) s

def State.withGroup (s : State) (g : Candidate) (code : Option (Option Word)) : State :=
  { s with cur := groupAt g.core g.pc g.refs code }

/-- The instruction at the PC of a group, the bank words of its threads filled first. -/
def issueInstr (s : State) (g : Candidate) (i : Instr) (run : State → Host.Outcome State Fault Refusal) :
    Host.Outcome State Fault Refusal :=
  match g.refs.findSome? fun r => s.bankToFill r (bankNeeds i (s.thread r)) with
  | some (b, w) => execConstantCacheFill g.core g.launch b w s
  | none => run s

/-- A code in one thread of a group: usable, trapping, or its entry's line still to be filled. -/
def CodeRes.faults : CodeRes → Bool
  | .fault _ _ _ => true
  | _ => false
def CodeRes.waits : CodeRes → Option DWord
  | .missing _ va => some va
  | _ => none

/-- A dictionary code at the PC of a group: threads in whose privilege it cannot be used trap first, then its entry's line is
filled, then its word is known. -/
def issueCode (s : State) (g : Candidate) (r : TRef) (f : CodeF) : Host.Outcome State Fault Refusal :=
  let bad := g.refs.filter fun q => (codeWord s q f).faults
  match bad with
  | q :: _ =>
    let s1 := s.withGroup { g with refs := bad } (some none)
    issued s1 (Fetched.pipe s q (.code f)) (execDictCode f s1)
  | [] =>
    match g.refs.findSome? fun q => (codeWord s q f).waits.map fun va => (q, va) with
    | some (q, va) => execInstructionLineFill g.core (s.teamCtx q.team) va (s.thread q).sup s
    | none =>
      let run := fun (s : State) => execDictCode f (s.withGroup g (some none))
      match codeWord s r f with
      | .word w => (match decodeWord w with | .ok i => issueInstr s g i run | .error _ => run s)
      | _ => run s

/-- What stands at the PC of a group issues: an instruction, a dictionary code, a reserved word; a line that one of its threads
may not yet fetch from the cache is filled first. -/
def issuePlain (s : State) (g : Candidate) (r : TRef) : Host.Outcome State Fault Refusal :=
  match g.refs.find? fun q => s.fetched q = .missing with
  | some q => execInstructionLineFill g.core (s.teamCtx q.team) g.pc (s.thread q).sup s
  | none =>
    match s.fetched r with
    | .missing => .next s
    | .instr _ i => issueInstr s g i fun s => let s1 := s.withGroup g none; issued s1 (s.pipeOf g) (exec i s1)
    | .reserved w => let s1 := s.withGroup g none; issued s1 (s.pipeOf g) (execReservedEncoding w s1)
    | .code f => issueCode s g r f

/-- No thread of a group is inside a hint chain. -/
def State.outsideChain (s : State) (g : Candidate) : Bool :=
  g.refs.all fun r => (s.thread r).xlit.isNone && (s.thread r).xmod.isNone

/-- A group issues: a breakpoint stops it, an installed window is executed whole, anything else is one instruction. -/
def issueGroup (s : State) (g : Candidate) : Host.Outcome State Fault Refusal :=
  match g.refs with
  | [] => .next s
  | r :: _ =>
    match s.breakpointAt g with
    | some n => .next (hitBreak s g n)
    | none =>
      match s.windowAt g.core g.launch g.pc with
      | none => issuePlain s g r
      | some (n, e) =>
        if s.outsideChain g then
          match s.bankToFill r (s.banksMissing g.core g.launch e) with
          | some (b, w) => execConstantCacheFill g.core g.launch b w s
          | none =>
            if (s.banksMissing g.core g.launch e).isEmpty then
              let s1 := s.withGroup g none
              issued s1 (s.pipeOf g) (execWindowExecution n s1)
            else issuePlain s g r
        else issuePlain s g r

/-- A core issues its next group, if it has one for a free port of this cycle. -/
def issueCore (s : State) (core : Nat) : Host.Outcome State Fault Refusal :=
  match s.nextGroup core with
  | some g => issueGroup s g
  | none => .next s

/-- The word of a dictionary code executes in the group of the code (R261). -/
def issueWord (s : State) (w : Word) : Host.Outcome State Fault Refusal :=
  match decodeWord w with
  | .ok i => issued s (wordPipe w) (exec i s)
  | .error _ => issued s (wordPipe w) (execReservedEncoding w s)

/-! ## What can happen next -/

/-- The threads resident on the device. -/
def State.allThreads (s : State) : List TRef := s.crews.flatMap fun c => (upto 64).map fun l => ⟨c.1.team, c.1.crew, l⟩

/-- What comes before anything else: the report of the first copy of the capability table; demotions, deterministic yields and the
incomplete verdicts of waves take place when they are due (R62, R65, R247, R457). -/
def State.urgent (s : State) : List (Host.Outcome State Fault Refusal) :=
  (if s.modl.errataDue then [.next (firstErrata s)] else []) ++
  (s.allThreads.filterMap fun r =>
    let x := (s.thread r).spin
    if !s.isDet r.team && 8 ≤ x.empty && !x.demoted then some (execSpinDemotion r s) else none) ++
  (s.activeCores.filterMap fun c =>
    match (s.core c).running with
    | some k =>
      (match s.crew? k with
       | some w => if 4096 ≤ w.quietCount && !w.quietOpen then some (execDeterministicYield c s) else none
       | none => none)
    | none => none) ++
  s.fabric.jobs.filterMap fun j =>
    match j.wave with
    | some w => if j.root && w.late s.time then some (execWaveIncomplete j.number s) else none
    | none => none

/-- What threads and caches may do next. -/
def State.coreChoices (s : State) : List (State → Host.Outcome State Fault Refusal) :=
  (s.allThreads.flatMap fun r =>
    let t := s.thread r
    (upto t.out.length).map (execResultReturn r) ++
      (if t.trap.isSome then [execSupervisorTrapEntry r] else []) ++
      (match t.wait with | .maskTimed _ _ _ => [execWaitmtTimeout r] | _ => [])) ++
  (s.crews.filterMap fun c => if c.2.fence.isSome then some (execReleaseCompletion c.1) else none) ++
  (s.l1.map fun w => execL1WriteBack w.core w.pa 1) ++
  ((upto s.consts.length).map fun i (s : State) => .next { s with consts := s.consts.eraseIdx i }) ++
  (s.activeCores.flatMap fun c =>
    [fun s => issueCore s c, execDeterministicIdleStep c, execTaskAdmission c, execSpillReturn c, execTraceRecovery c,
     execSampleTick c, execWeevilWindowSelect c, execDualRunComparison c] ++
    (s.core c).weevil.store.flatMap fun e =>
      if e.2.promoted then s.activeCores.map fun d => execEntryReplication c d e.2.cand else [])

/-- Where the memory controllers of the device scrub next: by die, tier and pair (R478). -/
def State.scrubPlaces (s : State) : List Nat :=
  (upto 48).map fun n =>
    let c := (n / 12, n / 6 % 2, n % 6)
    c.1 * 2 ^ 40 + c.2.1 * 2 ^ 39 + (s.scrubAt c).2

/-- What engines, the coordinator and Muaro may do next. -/
def State.engineChoices (s : State) : List (State → Host.Outcome State Fault Refusal) :=
  (s.clusters.map fun c => execCopyChunk c.1) ++
  (s.teams.flatMap fun t =>
    (match t.2.array with
     | some a => a.queue.flatMap fun i =>
         [execMatrixInstructionStart t.1 i.id, execMatrixInstructionComplete t.1 i.id, execScaleCacheFill t.1 i.id]
     | none => []) ++
    [execSolveStep t.1, execSolendStep t.1, execTeamRetirement t.1, execTaskRetirement t.1, execTeamImageSave t.1,
     execTeamStop t.1]) ++
  (s.launches.flatMap fun l => [execLaunchCompletion l.1, execHistogramFlush l.1, execCausalTrialEnd l.1]) ++
  (s.packets.map fun p => execLaunchPacket p.1 p.2.isNone) ++
  (s.withdrawals.map fun w => execCandidateWithdrawal w.cand) ++
  (s.ctxs.map fun c => execHostFetchTimeout c.1) ++
  (s.publications.flatMap fun p => [execPublicationWrite p.ctx p.window, execPublicationTimeout p.ctx p.window]) ++
  ((upto 4).flatMap fun d => [execEyeScanComplete d, execBistComplete d]) ++
  (s.scrubPlaces.map fun pa => execScrub pa false false) ++
  [execTeamAdmission, execTeamRestore, execAgeingUpdate]

/-- What may become of a message within the module: its last attempt arrives at an interface of its destination's die, or a
query for it does; its acknowledgement, the answer to a query, or the notice of its loss or failure reaches its sender (R186,
R190, R368, R373, R455, R481). -/
def State.localChoices (s : State) (x : Sent) : List (State → Host.Outcome State Fault Refusal) :=
  if !x.injected || x.destMod != s.modl.number then []
  else
    let e : Envelope := ⟨BitVec.ofNat 64 x.lastAttempt, x.sequence, s.modl.number, x.iface, x.attempts⟩
    let me := s.identified e
    (((upto 96).filter fun d => s.localIface x.msg e d).flatMap fun d =>
      (match x.msg.cls with
       | 0 => execActiveMessageArrival x.msg e d false
       | 1 => execRemotePutArrival x.msg e d false
       | 2 => execRemoteGetArrival x.msg e d false
       | 3 => execRemoteAtomicArrival x.msg e d false x.out.isSome
       | _ => execReplyArrival x.msg e d false) :: (if 1 ≤ x.queries then [execLossQueryArrival x.msg e d] else [])) ++
    [execAcknowledgement x.iface x.sequence] ++
    [true, false].map (execLossQueryAnswer x.iface x.sequence) ++
    (s.fabric.lost.filterMap fun y => if y.1 = me then some (execLossNotice x.iface x.sequence y.2) else none) ++
    s.fabric.failed.filterMap fun y =>
      if y.1 = me then some (execFailureNotice x.iface x.sequence y.2.1 y.2.2.1 y.2.2.2) else none

/-- What the fabric of the module may do next of itself. -/
def State.fabricChoices (s : State) : List (State → Host.Outcome State Fault Refusal) :=
  (s.fabric.sent.flatMap fun x =>
    [execMessageInjection x.id, execAttemptTimeout x.id, execLossQuery x.id, execQueryTimeout x.id] ++ s.localChoices x) ++
  (s.crews.flatMap fun c => [execHandlerStart c.1.team c.1.crew, execHandlerRetirement c.1.team c.1.crew]) ++
  (s.fabric.jobs.flatMap fun j =>
    [execWaveStart j.number, execPassComplete j.number, execWaveIncomplete j.number] ++
    match j.wave with
    | some w =>
      (upto 96).map (execPassRequest j.number w.number w.pass) ++
        (match w.result with | some x => (upto 4).map (execVerdict j.number w.number x.1 x.2) | none => [])
    | none => [])

/-- With nothing scheduled: one of what may happen, or the end of the cycle, freely chosen. -/
def chooseNext (s : State) : Host.Outcome State Fault Refusal :=
  let s1 := { s with fresh := s.fresh + 1 }
  let all := s.coreChoices ++ s.engineChoices ++ s.fabricChoices
  match all[(Config.freeWord s.fresh).toNat % (all.length + 1)]? with
  | some f => f s1
  | none => .next (endCycle s1)

/-- Storage that could hold an error stands where a flaw says. -/
def Flaw.stands (s : State) : Flaw → Bool
  | .l2 n => s.l2Has (64 * n)
  | .sent id => (s.sentById id).isSome
  | _ => true

/-- What the schedule names happens. -/
def runSched (x : Sched) (s : State) : Host.Outcome State Fault Refusal :=
  match x with
  | .event i => exec i s
  | .issue core => issueCore s core
  | .tick n => .next (runCycles n s)
  | .upset f => .next (if f.stands s then { s with flaws := f :: s.flaws } else s)
  | .request die memory bytes => requestOf die memory bytes s

/-- One step: the word of a dictionary code under way, else what is urgent, else what is scheduled, else what is chosen. -/
def stepOnce (s : State) : Host.Outcome State Fault Refusal :=
  match s.cur.code with
  | some (some w) => issueWord s w
  | _ =>
    match s.urgent, s.agenda with
    | o :: _, _ => o
    | [], x :: rest => runSched x { s with agenda := rest }
    | [], [] => chooseNext s

/-! ## An instruction placed where the next step fetches -/

/-- The address at which `fetchWordAt` places an instruction, and the words of its line: a dictionary run with the code for a
16-bit one, else the word, then `NOP`s. -/
def placedLine (nbits w : Nat) : List Word :=
  let nop : Word := 0x50000005
  if nbits = 16 then 0x56000000 :: BitVec.ofNat 32 (w % 65536) :: List.replicate 62 nop
  else BitVec.ofNat 32 w :: List.replicate 63 nop
def placedPc (nbits : Nat) : DWord := if nbits = 16 then 0x10004 else 0x10000

/-- The launch of the placed instruction: one team of one crew on core 0 of context 1. -/
def placedLaunch : Launch :=
  { (default : Launch) with ctx := 1, entry := 0x10000, code := 0x10000, x := 1, y := 1, z := 1, stages := 1, crews := 1,
                            tags := 16, scratch := 4096, cores := 1, next := 1 }

/-- The team of the placed instruction. -/
def placedTeam (launch : Nat) : Team :=
  { (default : Team) with launch := launch, core := 0, crews := 1, scratchSize := 4096, tagCount := 16, solve := Solve.start }

/-- The bank words that the placed instruction reads, held as 0. -/
def placedBanks (launch w : Nat) : List ConstWord :=
  match decodeWord (BitVec.ofNat 32 w) with
  | .ok i => (bankNeeds i (Thread.start 0 0)).map fun x => ⟨0, launch, x.1, x.2, 0⟩
  | .error _ => []

/-- Threads of one crew stand on core 0 at an instruction in a cached line, the bank words it reads are held, and the core
issues next (assumption 15). -/
def fetchWordAt (s : State) (nbits w : Nat) : State :=
  let launch := s.serial
  let team := s.serial + 1
  let pc := placedPc nbits
  let others := fun (t : Nat) => s.teamCore t != 0
  { s with
    serial := s.serial + 2
    ctxs := if (s.ctx? 1).isSome then s.ctxs else Tbl.put s.ctxs 1 Ctx.reset
    launches := Tbl.put s.launches launch placedLaunch
    teams := Tbl.put (s.teams.filter fun t => t.2.core != 0) team (placedTeam launch)
    crews := Tbl.put (s.crews.filter fun c => others c.1.team) ⟨team, 0⟩ (Crew.start 0 pc s.cycle)
    cores := Tbl.put s.cores 0 Core.reset
    consts := placedBanks launch w ++ s.consts
    icache := ⟨0, 1, 0x10000, true, 0x10000, 4096, placedLine nbits w⟩ :: s.icache
    due := Due.none
    cur := Group.none
    modl := { s.modl with errataDue := false }
    agenda := [.issue 0] }

end Sys2Proof.Machine
end

