-- ==== Sys2Proof/Machine/Step.lean ====
section
/-!
DEFINITION. The step of the machine, and the placing of one instruction where the next step fetches it. Both only call what
stands in `Choose`.
-/
namespace Sys2Proof.Machine

/-- One step of the device: the next event, issue or end of a cycle (assumption 1). -/
def step (s : State) : Host.Outcome State Fault Refusal := stepOnce s

/-- A state whose next step issues the instruction with the given bits (assumption 15). -/
def State.withFetchWord (s : State) (nbits w : Nat) : State := fetchWordAt s nbits w

end Sys2Proof.Machine
end

