-- ==== Sys2Proof/Safety.lean ====
section
/-!
DEFINITION. The terms in which claims are made: runs of steps, and a group of threads that nothing keeps from executing its
instruction.
-/
namespace Sys2Proof.Machine

/-- Some number of steps leads from one state to another. -/
inductive Steps : State → State → Prop where
  | refl (s : State) : Steps s s
  | cons (s t u : State) : step s = .next t → Steps t u → Steps s u

/-- The threads `m` of the crew `c`, which is `w`, are the group that issues `i`, and nothing of R409 to R414 and R443 comes
before its effect: no deferred fault is due, no late trap waits, no hint chain is broken, a privileged instruction is in
supervisor privilege, the status that an `ERET` restores is legal, a crew-wide instruction has its whole crew. No lane of the crew is served again after a page fault (R69), no
on-core storage holds an uncorrectable error (R443), nothing is traced and no trial runs. -/
structure Ready (i : Instr) (s : State) (c : CRef) (w : Crew) (m : BitVec 64) : Prop where
  crew : s.crew? c = some w
  lanes : s.cur.lanes = [(c, m)]
  group : m ≠ 0
  done : s.cur.done = []
  traps : s.cur.traps = []
  deferred : ∀ tm, s.team? c.team = some tm → duePending i tm = none
  late : ∀ l, m.getLsbD l = true → (w.thread l).late = none
  chain : ∀ l, m.getLsbD l = true → brokenChain i (w.thread l) = false
  mode : i.privileged = true → ∀ l, m.getLsbD l = true → (w.thread l).sup = true
  status : ∀ f, i = .eret f → ∀ l, m.getLsbD l = true → (w.thread l).estat.toNat / 2 = 0
  whole : i.crewWide = true → ∀ l, l < 64 → (w.thread l).exited = false
  unserved : w.service = none
  sound : s.flaws = []
  untraced : s.traces = []
  untried : s.trials = []

/-! ## The words of the statements -/

/-- What no instruction of a lane-by-lane family changes in a thread that executes it: privilege, exception registers,
lane-private memory, waits, the end of the thread, a pending trap and the issue rank. -/
def Kept (a b : Thread) : Prop :=
  b.sup = a.sup ∧ b.epc = a.epc ∧ b.estat = a.estat ∧ b.ecause = a.ecause ∧ b.lane = a.lane ∧ b.wait = a.wait ∧
    b.exited = a.exited ∧ b.trap = a.trap ∧ b.sched = a.sched

/-- The registers and predicates of a thread are those of another. -/
def SameRegs (a b : Thread) : Prop := b.g = a.g ∧ b.p = a.p

/-- `i` completes in every group that nothing keeps from it and that meets `pre` (crew, its state, lanes), and acts on each
lane by itself: every lane whose guard is true meets `q` (machine before, crew, its state, lane, thread before, thread
after), a lane whose guard is false keeps its registers and predicates, every lane of the group goes on to the next
instruction; lanes outside the group, the crew's other registers, every other crew and the rest of the machine, memory
included, are as before; the crew counts one instruction. -/
def LaneByLaneIf (i : Instr) (pre : State → CRef → Crew → BitVec 64 → Prop)
    (q : State → CRef → Crew → Nat → Thread → Thread → Prop) : Prop :=
  ∀ s c w m, Ready i s c w m → pre s c w m → ∃ t w', exec i s = .next t ∧ t.crew? c = some w' ∧
    t = { s with crews := t.crews, cur := Group.none } ∧ (∀ d, d ≠ c → t.crew? d = s.crew? d) ∧
    w'.k = w.k ∧ w'.mask = w.mask ∧ w'.retired = w.retired + 1 ∧
    (∀ l, m.getLsbD l = false → w'.thread l = w.thread l) ∧
    ∀ l, m.getLsbD l = true →
      Kept (w.thread l) (w'.thread l) ∧ (w'.thread l).pc = (w.thread l).pc + s.cur.len ∧
      if guardOf i (w.thread l) then q s c w l (w.thread l) (w'.thread l) else SameRegs (w.thread l) (w'.thread l)

/-- The same with no further condition, and an effect that depends on the crew only. -/
def LaneByLane (i : Instr) (q : Crew → Nat → Thread → Thread → Prop) : Prop :=
  LaneByLaneIf i (fun _ _ _ _ => True) fun _ _ w l a b => q w l a b

/-- One register of a thread is written, and no other register or predicate. -/
def SetsReg (a b : Thread) (d : Reg6) (v : Word) : Prop := (∀ r, b.reg r = if r = d then v else a.reg r) ∧ b.p = a.p

/-- One pair of a thread is written, low word in the named register, and no other register or predicate. -/
def SetsPair (a b : Thread) (d : Reg6) (v : DWord) : Prop :=
  (∀ r, b.reg r = if r = d + 1 then (v >>> 32).setWidth 32 else if r = d then v.setWidth 32 else a.reg r) ∧ b.p = a.p

/-- `i` writes one register of each lane and nothing else of its registers and predicates. -/
def WritesReg (i : Instr) (d : Reg6) (v : Thread → Word) : Prop :=
  LaneByLane i fun _ _ a b => SetsReg a b d (v a)

/-- `i` writes one pair of each lane, low word in the named register, and nothing else. -/
def WritesPair (i : Instr) (d : Reg6) (v : Thread → DWord) : Prop :=
  LaneByLane i fun _ _ a b => SetsPair a b d (v a)

/-- `i` writes a relation to `p` and then its complement to `q`; `p0` reads true whatever is written. -/
def WritesPreds (i : Instr) (p q : Pred3) (v : Thread → Bool) : Prop :=
  LaneByLane i fun _ _ a b => (∀ x, b.pred x =
    if x = 0 then true else if x = q then !v a else if x = p then v a else a.pred x) ∧ b.g = a.g

/-- A group of the one thread in lane `l`, whose guard is true, that nothing keeps from executing `i`. -/
structure One (i : Instr) (s : State) (c : CRef) (w : Crew) (l : Nat) : Prop where
  lane : l < 64
  ready : Ready i s c w (laneBit l)
  guarded : guardOf i (w.thread l) = true

/-- The group of one thread executes `i`: the machine becomes `u`, but for the crew `c`, which counts one instruction and is
otherwise, outside the thread, as before (an open `FENCE.REL` apart); the thread is as `q` says (before, after). -/
def OneThread (i : Instr) (s : State) (c : CRef) (w : Crew) (l : Nat) (u : State) (q : Thread → Thread → Prop) : Prop :=
  ∃ t w', exec i s = .next t ∧ t.crew? c = some w' ∧ t = { u with crews := t.crews, cur := Group.none } ∧
    (∀ d, d ≠ c → t.crew? d = u.crew? d) ∧ w'.k = w.k ∧ w'.mask = w.mask ∧ w'.retired = w.retired + 1 ∧
    (∀ n, n ≠ l → w'.thread n = w.thread n) ∧ q (w.thread l) (w'.thread l)

/-- The thread goes on to the next instruction. -/
def Goes (s : State) (a b : Thread) : Prop := Kept a b ∧ b.pc = a.pc + s.cur.len

/-- A thread waits for one more result, with the serial number `id`, of known words for the registers from `d` (R51). -/
def Awaits (a b : Thread) (id : Nat) (d : Reg6) (ws : List Word) : Prop :=
  SameRegs a b ∧ b.out.length = a.out.length + 1 ∧
    b.out[a.out.length]? = some ⟨id, (upto ws.length).map fun i => some (d + BitVec.ofNat 6 i), some ws⟩

/-- The instruction has no effect and its one thread traps with the cause `k` (R407). -/
def Traps (i : Instr) (s : State) (c : CRef) (l : Nat) (k : Cause) : Prop :=
  exec i s = .next (finishTraps { s with cur := { s.cur with lanes := [], traps := [(⟨c.team, c.crew, l⟩, k)] } })

/-- The group of one thread does not issue: nothing changes, and it is tried again. -/
def Waits (i : Instr) (s : State) : Prop := exec i s = .next { s with cur := Group.none }

/-- Nothing in the memory system makes the crew `c` wait: no engine has a unit still to write, the crew has neither a dirty
word nor an open fence, its team buffers no stores. -/
structure Quiet (s : State) (c : CRef) (w : Crew) : Prop where
  engines : s.engineUnits = []
  clean : ∀ x ∈ s.l1, x.core = s.teamCore c.team → c ∈ x.writers → x.dirty = 0
  unfenced : w.fence = none
  direct : s.buffering c.team = none

/-- The whole crew executes the crew-wide `i`: the machine becomes `u` but for the crew `c`, which counts one instruction and
is as `q` says, and each of whose threads goes on with its registers. -/
def WholeCrew (i : Instr) (s : State) (c : CRef) (w : Crew) (u : State) (q : Crew → Prop) : Prop :=
  ∃ t w', exec i s = .next t ∧ t.crew? c = some w' ∧ t = { u with crews := t.crews, cur := Group.none } ∧
    (∀ d, d ≠ c → t.crew? d = u.crew? d) ∧ w'.retired = w.retired + 1 ∧
    (∀ l, l < 64 → Goes s (w.thread l) (w'.thread l) ∧ SameRegs (w.thread l) (w'.thread l)) ∧ q w'

/-- All 64 threads of the crew `c` are the group that issues the crew-wide `i`, and some guard is true. -/
structure Whole (i : Instr) (s : State) (c : CRef) (w : Crew) : Prop where
  ready : Ready i s c w (BitVec.allOnes 64)
  acting : ∃ l, l < 64 ∧ guardOf i (w.thread l) = true

/-- The thread `l` changes mask register `n` of its crew to `m`, of which the machine `u` is to make the test at the end of the
cycle (R54); no other thread, `k` register or mask register of the crew changes, and the thread itself is as `q` says. -/
def ChangesMask (i : Instr) (s : State) (c : CRef) (w : Crew) (l n : Nat) (m : MaskReg) (u : State)
    (q : Thread → Thread → Prop) : Prop :=
  ∃ t w', exec i s = .next t ∧ t.crew? c = some w' ∧ t = { markMask u c n with crews := t.crews, cur := Group.none } ∧
    (∀ d, d ≠ c → t.crew? d = u.crew? d) ∧ w'.k = w.k ∧ w'.retired = w.retired + 1 ∧ w'.maskReg n = m ∧
    (∀ k, k ≠ n → w'.maskReg k = w.maskReg k) ∧ (∀ x, x ≠ l → w'.thread x = w.thread x) ∧ q (w.thread l) (w'.thread l)

/-- The machine as an effect of a crew finds it behind an open `FENCE.REL`, whose release completes first (R133, R313). -/
def Fenced (s : State) (c : CRef) (u : State) : Prop :=
  match (s.crew? c).bind (·.fence) with
  | none => u = s
  | some x => s.relBlocked c = false ∧ u = release s c x.1 x.2

/-- The machine as an effect finds it that commits its thread's task early (R45); outside such a task it is as it was. -/
def Committed (s : State) (r : TRef) (u : State) : Prop := s.commitBlocked r.team = false ∧ earlyCommit s r = (u, none)

/-- The L1 of a core has the line of an address or room for it (R109). -/
def HasRoom (s : State) (core pa : Nat) : Prop :=
  pa / 64 ∈ s.l1SetLines core (pa / 64) ∨ (s.l1SetLines core (pa / 64)).length < Config.l1Ways

/-- The crew that follows another in a team's ascending order, wrapping, passing over crews that have ended (R159). -/
def FollowsAlive (s : State) (team crews holder next : Nat) : Prop :=
  ∃ j, j < crews ∧ next = (holder + 1 + j) % crews ∧ next ∈ s.liveCrews team ∧
    ∀ i, i < j → (holder + 1 + i) % crews ∉ s.liveCrews team

/-- The lane `l` is the lowest of the crew whose guard is true (R34). -/
def Leads (i : Instr) (w : Crew) (l : Nat) : Prop :=
  l < 64 ∧ guardOf i (w.thread l) = true ∧ ∀ n, n < l → guardOf i (w.thread n) = false

/-- The counters of an interface for a job (R190). -/
def countsOf (s : State) (n : BitVec 16) (iface : Nat) : Option Counters := (s.job? n).map fun j => j.counters.getD iface ⟨0, 0, 0⟩

/-- The instruction or event completes with a next state of which `q` says what it holds. -/
def Yields (i : Instr) (s : State) (q : State → Prop) : Prop := ∃ t, exec i s = .next t ∧ q t

/-- Nothing keeps a team from retiring: its threads have ended, nothing it started is under way, no fault pends, no message waits
for it, no L1 word of it is dirty. -/
def Idle (s : State) (team : Nat) (tm : Team) : Prop :=
  s.team? team = some tm ∧ threadsEnded s team tm = true ∧ nothingOut s team tm = true ∧ tm.deferred = [] ∧
    tm.incoming = [] ∧ tm.ring = [] ∧ (∀ x ∈ s.l1, (∃ c ∈ x.writers, c.team = team) → x.dirty = 0) ∧ (s.teams.map (·.1)).Nodup

/-- The team is gone from its core with its crews. -/
def Gone (t : State) (team : Nat) : Prop := t.team? team = none ∧ ∀ c, c.team = team → t.crew? c = none

/-- A fault of a class and code pends on a team (R409). -/
def Pends (t : State) (team cls code : Nat) : Prop :=
  ∃ tm d, t.team? team = some tm ∧ d ∈ tm.deferred ∧ d.cls = cls ∧ d.code = code ∧ d.deferred = true

/-- The event completes, Muaro answers a command with a status and data, and the rest is as `q` says (R386). -/
def Answers (i : Instr) (s : State) (command sequence status : Nat) (data : List Byte) (q : State → Prop) : Prop :=
  Yields i s fun t => t.host = s.host ++ [.reply command sequence status data] ∧ q t

/-- An exact integer in the range of a type, clamped or taken modulo its size (R83, R85). -/
def wrapOr (n : Nat) (u sat : Bool) (v : Int) : BitVec n :=
  if sat then
    (if u then BitVec.ofInt n (max 0 (min (2 ^ n - 1) v)) else BitVec.ofInt n (max (-(2 ^ (n - 1))) (min (2 ^ (n - 1) - 1) v)))
  else BitVec.ofInt n v

/-- A register or pair as the integer its type reads. -/
def asInt {n : Nat} (u : Bool) (x : BitVec n) : Int := if u then (x.toNat : Int) else x.toInt

/-- The immediate of a GI form: imm10 extended, or completed by an `XLIT` (R258). -/
def immediate (t : Thread) (i : BitVec 10) (signed : Bool) : Word :=
  match t.xlit with
  | none => if signed then i.signExtend 32 else i.setWidth 32
  | some p => (p.setWidth 22 ++ i).setWidth 32

/-- The relation of an integer compare by its minor (R254). -/
def compared (m : BitVec 4) (x y : Word) (a b : DWord) : Bool :=
  if m = 0 then x = y else if m = 1 then x.toInt < y.toInt else if m = 2 then x.toInt ≤ y.toInt
  else if m = 3 then x.toNat < y.toNat else if m = 4 then x.toNat ≤ y.toNat
  else if m = 5 then a = b else if m = 6 then a.toInt < b.toInt else if m = 7 then a.toInt ≤ b.toInt
  else if m = 8 then a.toNat < b.toNat else a.toNat ≤ b.toNat

end Sys2Proof.Machine
end

