-- ==== Sys2Proof/Certificates/Slice0/Obligations.lean ====
section
/-!
DEFINITION. The statements for the provers.
-/
open Sys2Proof Sys2Proof.Machine

/-! ## Integer arithmetic (R276 to R280) -/

/-- R276, minors 0 to 5: `IADD`, `ISUB` and `IMUL` write the exact result, wrapped, or clamped under R83, on registers and
on pairs. -/
def Obligations.IntegerSumsAndProducts : Prop :=
  ∀ f : R3u,
    WritesReg (.iadd f) f.d (fun t => wrapOr 32 f.u t.satur (asInt f.u (t.reg f.a) + asInt f.u (t.reg f.b))) ∧
    WritesReg (.isub f) f.d (fun t => wrapOr 32 f.u t.satur (asInt f.u (t.reg f.a) - asInt f.u (t.reg f.b))) ∧
    WritesReg (.imul f) f.d (fun t => wrapOr 32 f.u t.satur (asInt f.u (t.reg f.a) * asInt f.u (t.reg f.b))) ∧
    WritesPair (.iadd64 f) f.d (fun t => wrapOr 64 f.u t.satur (asInt f.u (t.pair f.a) + asInt f.u (t.pair f.b))) ∧
    WritesPair (.isub64 f) f.d (fun t => wrapOr 64 f.u t.satur (asInt f.u (t.pair f.a) - asInt f.u (t.pair f.b))) ∧
    WritesPair (.imul64 f) f.d (fun t => wrapOr 64 f.u t.satur (asInt f.u (t.pair f.a) * asInt f.u (t.pair f.b)))

/-- R276, minors 6 to 15: the high word of the exact product, the smaller and the larger, quotient and remainder. R86: a divisor
of 0 gives the quotient 0 and the remainder x, and the most negative dividend by −1 gives itself and 0; every other quotient
is truncated toward zero and the remainder has the sign of the dividend. -/
def Obligations.IntegerHighMinMaxQuotient : Prop :=
  (∀ f : R3u,
    WritesReg (.imulh f) f.d (fun t => BitVec.ofInt 32 (asInt f.u (t.reg f.a) * asInt f.u (t.reg f.b) / 2 ^ 32)) ∧
    WritesPair (.imulh64 f) f.d (fun t => BitVec.ofInt 64 (asInt f.u (t.pair f.a) * asInt f.u (t.pair f.b) / 2 ^ 64)) ∧
    WritesReg (.imin f) f.d (fun t => if asInt f.u (t.reg f.a) ≤ asInt f.u (t.reg f.b) then t.reg f.a else t.reg f.b) ∧
    WritesPair (.imin64 f) f.d (fun t => if asInt f.u (t.pair f.a) ≤ asInt f.u (t.pair f.b) then t.pair f.a else t.pair f.b) ∧
    WritesReg (.imax f) f.d (fun t => if asInt f.u (t.reg f.a) ≤ asInt f.u (t.reg f.b) then t.reg f.b else t.reg f.a) ∧
    WritesPair (.imax64 f) f.d (fun t => if asInt f.u (t.pair f.a) ≤ asInt f.u (t.pair f.b) then t.pair f.b else t.pair f.a) ∧
    WritesReg (.div f) f.d (fun t => if f.u then t.reg f.a / t.reg f.b else (t.reg f.a).sdiv (t.reg f.b)) ∧
    WritesPair (.div64 f) f.d (fun t => if f.u then t.pair f.a / t.pair f.b else (t.pair f.a).sdiv (t.pair f.b)) ∧
    WritesReg (.rem f) f.d (fun t => if f.u then t.reg f.a % t.reg f.b else (t.reg f.a).srem (t.reg f.b)) ∧
    WritesPair (.rem64 f) f.d (fun t => if f.u then t.pair f.a % t.pair f.b else (t.pair f.a).srem (t.pair f.b))) ∧
  (∀ (u : Bool) (x : Word), divInt 32 u x 0 = 0 ∧ remInt 32 u x 0 = x) ∧
  (∀ (u : Bool) (x : DWord), divInt 64 u x 0 = 0 ∧ remInt 64 u x 0 = x) ∧
  divInt 32 false 0x80000000 0xFFFFFFFF = 0x80000000 ∧ remInt 32 false 0x80000000 0xFFFFFFFF = 0 ∧
  divInt 64 false (1#64 <<< 63) (-1) = 1#64 <<< 63 ∧ remInt 64 false (1#64 <<< 63) (-1) = 0 ∧
  divInt 32 false (-3) 4 = 0 ∧ remInt 32 false (-3) 4 = -3 ∧
  (∀ (u : Bool) (x y : Word), y ≠ 0 → ¬ (u = false ∧ x = 0x80000000 ∧ y = 0xFFFFFFFF) →
    asInt u x = asInt u (divInt 32 u x y) * asInt u y + asInt u (remInt 32 u x y) ∧
    (asInt u (remInt 32 u x y)).natAbs < (asInt u y).natAbs ∧
    (0 ≤ asInt u x → 0 ≤ asInt u (remInt 32 u x y)) ∧ (asInt u x ≤ 0 → asInt u (remInt 32 u x y) ≤ 0)) ∧
  ∀ (u : Bool) (x y : DWord), y ≠ 0 → ¬ (u = false ∧ x = 1#64 <<< 63 ∧ y = -1) →
    asInt u x = asInt u (divInt 64 u x y) * asInt u y + asInt u (remInt 64 u x y) ∧
    (asInt u (remInt 64 u x y)).natAbs < (asInt u y).natAbs ∧
    (0 ≤ asInt u x → 0 ≤ asInt u (remInt 64 u x y)) ∧ (asInt u x ≤ 0 → asInt u (remInt 64 u x y) ≤ 0)

/-- R279 and R87: the logic and shift instructions on registers, pairs and immediates, which are imm10 zero-extended, or the full
immediate under `XLIT`; a count is the whole unsigned operand, and one of at least the width gives 0, 0 and copies of the sign. -/
def Obligations.LogicAndShifts : Prop :=
  (∀ f : R3,
    WritesReg (.andR f) f.d (fun t => t.reg f.a &&& t.reg f.b) ∧
    WritesReg (.orR f) f.d (fun t => t.reg f.a ||| t.reg f.b) ∧
    WritesReg (.xorR f) f.d (fun t => t.reg f.a ^^^ t.reg f.b) ∧
    WritesReg (.andn f) f.d (fun t => t.reg f.a &&& ~~~ t.reg f.b) ∧
    WritesReg (.shl f) f.d (fun t => t.reg f.a <<< (t.reg f.b).toNat) ∧
    WritesReg (.shr f) f.d (fun t => t.reg f.a >>> (t.reg f.b).toNat) ∧
    WritesReg (.sar f) f.d (fun t => (t.reg f.a).sshiftRight (t.reg f.b).toNat) ∧
    WritesReg (.rol f) f.d (fun t => t.reg f.a <<< ((t.reg f.b).toNat % 32) ||| t.reg f.a >>> (32 - (t.reg f.b).toNat % 32)) ∧
    WritesPair (.shlW64 f) f.d (fun t => t.pair f.a <<< (t.reg f.b).toNat) ∧
    WritesPair (.shrW64 f) f.d (fun t => t.pair f.a >>> (t.reg f.b).toNat) ∧
    WritesPair (.sarI64 f) f.d (fun t => (t.pair f.a).sshiftRight (t.reg f.b).toNat)) ∧
  (∀ f : GI,
    WritesReg (.andImm f) f.d (fun t => t.reg f.a &&& immediate t f.i false) ∧
    WritesReg (.orImm f) f.d (fun t => t.reg f.a ||| immediate t f.i false) ∧
    WritesReg (.xorImm f) f.d (fun t => t.reg f.a ^^^ immediate t f.i false) ∧
    WritesReg (.shlImm f) f.d (fun t => t.reg f.a <<< (immediate t f.i false).toNat) ∧
    WritesReg (.shrImm f) f.d (fun t => t.reg f.a >>> (immediate t f.i false).toNat) ∧
    WritesReg (.sarImm f) f.d (fun t => (t.reg f.a).sshiftRight (immediate t f.i false).toNat)) ∧
  (∀ f : R2,
    WritesReg (.popc f) f.d (fun t => BitVec.ofNat 32 ((List.range 32).filter fun i => (t.reg f.a).getLsbD i).length) ∧
    WritesReg (.clz f) f.d (fun t => if t.reg f.a = 0 then 32 else BitVec.ofNat 32 (31 - Nat.log2 (t.reg f.a).toNat)) ∧
    WritesReg (.brev f) f.d (fun t => (t.reg f.a).reverse)) ∧
  ∀ (n c : Nat) (x : BitVec n), n ≤ c → x <<< c = 0 ∧ x >>> c = 0 ∧ x.sshiftRight c = if x.toInt < 0 then -1 else 0

/-- R277, the immediate forms: sums and products are signed, wrapped or clamped. R278: `IMAD` adds plus or minus the exact product
to the third operand, the operands read per the type, clamped to the type or wrapped; without saturation both types write the same bits. -/
def Obligations.ImmediatesAndMultiplyAdd : Prop :=
  (∀ f : GI,
    WritesReg (.iaddImm f) f.d (fun t => wrapOr 32 false t.satur ((t.reg f.a).toInt + (immediate t f.i true).toInt)) ∧
    WritesReg (.imulImm f) f.d (fun t => wrapOr 32 false t.satur ((t.reg f.a).toInt * (immediate t f.i true).toInt))) ∧
  ∀ f : G4,
    WritesReg (.imadI32 f) f.d (fun t => wrapOr 32 false t.satur
      ((if f.n then -((t.reg f.a).toInt * (t.reg f.b).toInt) else (t.reg f.a).toInt * (t.reg f.b).toInt) + (t.reg f.c).toInt)) ∧
    WritesReg (.imadW32 f) f.d (fun t => wrapOr 32 true t.satur
      ((if f.n then -(((t.reg f.a).toNat : Int) * (t.reg f.b).toNat) else ((t.reg f.a).toNat : Int) * (t.reg f.b).toNat) +
        ((t.reg f.c).toNat : Int))) ∧
    ∀ x y z : Word, wrapOr 32 false false ((if f.n then -(x.toInt * y.toInt) else x.toInt * y.toInt) + z.toInt) =
      wrapOr 32 true false ((if f.n then -((x.toNat : Int) * y.toNat) else (x.toNat : Int) * y.toNat) + (z.toNat : Int))

/-- R280: a compare writes its relation to P and then the complement to Q. -/
def Obligations.IntegerCompares : Prop :=
  (∀ f : PQm, f.m.toNat ≤ 9 →
    WritesPreds (.icmp f) f.p f.q (fun t => compared f.m (t.reg f.a) (t.reg f.b) (t.pair f.a) (t.pair f.b))) ∧
  (∀ f : PQ, WritesPreds (.testW32 f) f.p f.q (fun t => t.reg f.a &&& t.reg f.b ≠ 0)) ∧
  ∀ f : PQi,
    WritesPreds (.icmpEqImm f) f.p f.q (fun t => t.reg f.a = immediate t f.i true) ∧
    WritesPreds (.icmpLtImm f) f.p f.q (fun t => (t.reg f.a).toInt < (immediate t f.i true).toInt)

/-! ## Floating point (R282 to R291) -/

/-- R282, binary32: each minor writes its result in the mode in force, rounded once, saturated under R83. -/
def Obligations.SingleFloatResults : Prop :=
  (∀ f : R3,
    WritesReg (.fadd f) f.d (fun t => op32 (Fmt.f32.add t.mode t.satur) (t.reg f.a) (t.reg f.b)) ∧
    WritesReg (.fsub f) f.d (fun t => op32 (Fmt.f32.sub t.mode t.satur) (t.reg f.a) (t.reg f.b)) ∧
    WritesReg (.fmul f) f.d (fun t => op32 (Fmt.f32.mul t.mode t.satur) (t.reg f.a) (t.reg f.b)) ∧
    WritesReg (.fdiv f) f.d (fun t => op32 (Fmt.f32.div t.mode t.satur) (t.reg f.a) (t.reg f.b)) ∧
    WritesReg (.fmin f) f.d (fun t => op32 (Fmt.f32.minMax false) (t.reg f.a) (t.reg f.b)) ∧
    WritesReg (.fmax f) f.d (fun t => op32 (Fmt.f32.minMax true) (t.reg f.a) (t.reg f.b)) ∧
    WritesReg (.fcpys f) f.d (fun t => (t.reg f.a &&& 0x7FFFFFFF) ||| (t.reg f.b &&& 0x80000000))) ∧
  ∀ f : R2,
    WritesReg (.fsqrt f) f.d (fun t => un32 (Fmt.f32.sqrt t.mode) (t.reg f.a)) ∧
    WritesReg (.frnd f) f.d (fun t => un32 (Fmt.f32.rint t.mode) (t.reg f.a)) ∧
    WritesReg (.fclass f) f.d (fun t => Fmt.f32.classOf (t.reg f.a).toNat) ∧
    WritesReg (.fabs f) f.d (fun t => t.reg f.a &&& 0x7FFFFFFF) ∧
    WritesReg (.fneg f) f.d (fun t => t.reg f.a ^^^ 0x80000000)

/-- R282, binary64: the same on pairs; `FCLASS.f64` writes one register. -/
def Obligations.DoubleFloatResults : Prop :=
  (∀ f : R3,
    WritesPair (.faddF64 f) f.d (fun t => op64 (Fmt.f64.add t.mode t.satur) (t.pair f.a) (t.pair f.b)) ∧
    WritesPair (.fsubF64 f) f.d (fun t => op64 (Fmt.f64.sub t.mode t.satur) (t.pair f.a) (t.pair f.b)) ∧
    WritesPair (.fmulF64 f) f.d (fun t => op64 (Fmt.f64.mul t.mode t.satur) (t.pair f.a) (t.pair f.b)) ∧
    WritesPair (.fdivF64 f) f.d (fun t => op64 (Fmt.f64.div t.mode t.satur) (t.pair f.a) (t.pair f.b)) ∧
    WritesPair (.fminF64 f) f.d (fun t => op64 (Fmt.f64.minMax false) (t.pair f.a) (t.pair f.b)) ∧
    WritesPair (.fmaxF64 f) f.d (fun t => op64 (Fmt.f64.minMax true) (t.pair f.a) (t.pair f.b)) ∧
    WritesPair (.fcpysF64 f) f.d (fun t =>
      (t.pair f.a &&& 0x7FFFFFFFFFFFFFFF) ||| (t.pair f.b &&& 0x8000000000000000))) ∧
  ∀ f : R2,
    WritesPair (.fsqrtF64 f) f.d (fun t => un64 (Fmt.f64.sqrt t.mode) (t.pair f.a)) ∧
    WritesPair (.frndF64 f) f.d (fun t => un64 (Fmt.f64.rint t.mode) (t.pair f.a)) ∧
    WritesReg (.fclassF64 f) f.d (fun t => Fmt.f64.classOf (t.pair f.a).toNat) ∧
    WritesPair (.fabsF64 f) f.d (fun t => t.pair f.a &&& 0x7FFFFFFFFFFFFFFF) ∧
    WritesPair (.fnegF64 f) f.d (fun t => t.pair f.a ^^^ 0x8000000000000000)

/-- R285 and R286: packed half works on bits [15:0] and [31:16] each by itself, and the fused forms round once. -/
def Obligations.PackedHalfAndFused : Prop :=
  (∀ f : R3,
    WritesReg (.haddF16 f) f.d (fun t => halves (Fmt.f16.add t.mode t.satur) (t.reg f.a) (t.reg f.b)) ∧
    WritesReg (.hsubF16 f) f.d (fun t => halves (Fmt.f16.sub t.mode t.satur) (t.reg f.a) (t.reg f.b)) ∧
    WritesReg (.hmulF16 f) f.d (fun t => halves (Fmt.f16.mul t.mode t.satur) (t.reg f.a) (t.reg f.b)) ∧
    WritesReg (.hminF16 f) f.d (fun t => halves (Fmt.f16.minMax false) (t.reg f.a) (t.reg f.b)) ∧
    WritesReg (.hmaxF16 f) f.d (fun t => halves (Fmt.f16.minMax true) (t.reg f.a) (t.reg f.b)) ∧
    WritesReg (.haddBf16 f) f.d (fun t => halves (Fmt.bf16.add t.mode t.satur) (t.reg f.a) (t.reg f.b)) ∧
    WritesReg (.hsubBf16 f) f.d (fun t => halves (Fmt.bf16.sub t.mode t.satur) (t.reg f.a) (t.reg f.b)) ∧
    WritesReg (.hmulBf16 f) f.d (fun t => halves (Fmt.bf16.mul t.mode t.satur) (t.reg f.a) (t.reg f.b)) ∧
    WritesReg (.hminBf16 f) f.d (fun t => halves (Fmt.bf16.minMax false) (t.reg f.a) (t.reg f.b)) ∧
    WritesReg (.hmaxBf16 f) f.d (fun t => halves (Fmt.bf16.minMax true) (t.reg f.a) (t.reg f.b))) ∧
  ∀ f : G4,
    WritesReg (.hfmaF16 f) f.d (fun t =>
      halves3 (Fmt.f16.fma t.mode t.satur f.n) (t.reg f.a) (t.reg f.b) (t.reg f.c)) ∧
    WritesReg (.hfmaBf16 f) f.d (fun t =>
      halves3 (Fmt.bf16.fma t.mode t.satur f.n) (t.reg f.a) (t.reg f.b) (t.reg f.c)) ∧
    WritesReg (.ffmaF32 f) f.d (fun t => BitVec.ofNat 32
      (Fmt.f32.fma t.mode t.satur f.n (t.reg f.a).toNat (t.reg f.b).toNat (t.reg f.c).toNat)) ∧
    WritesPair (.ffmaF64 f) f.d (fun t => BitVec.ofNat 64
      (Fmt.f64.fma t.mode t.satur f.n (t.pair f.a).toNat (t.pair f.b).toNat (t.pair f.c).toNat))

/-- R287 and R288: a floating-point compare writes its relation and the complement; `CVT` writes the converted value to a
register, or to a pair for a 64-bit target. -/
def Obligations.FloatComparesAndConversion : Prop :=
  (∀ f : PQf, f.t = false →
    WritesPreds (.fcmp f) f.p f.q (fun t => Fmt.f32.rel f.r (t.reg f.a).toNat (t.reg f.b).toNat)) ∧
  (∀ f : PQf, f.t = true →
    WritesPreds (.fcmp f) f.p f.q (fun t => Fmt.f64.rel f.r (t.pair f.a).toNat (t.pair f.b).toNat)) ∧
  (∀ f : Cv, wideCode f.t = false → WritesReg (.cvt f) f.d (fun t => BitVec.ofNat 32
    (convert f.t f.y t.modeGiven t.satur (if wideCode f.y then (t.pair f.a).toNat else (t.reg f.a).toNat)))) ∧
  ∀ f : Cv, wideCode f.t = true → WritesPair (.cvt f) f.d (fun t => BitVec.ofNat 64
    (convert f.t f.y t.modeGiven t.satur (if wideCode f.y then (t.pair f.a).toNat else (t.reg f.a).toNat)))

/-- R74, R75, R84, R88 and R287: a finite encoding rounds to itself in every mode, with or without saturation, and every NaN becomes
the canonical one; `EQ`, `LT` and `LE` are false and `UN` is true when an operand is a NaN, `LE` is `LT` or `EQ` otherwise, and
−0 equals +0. -/
def Obligations.EncodingsAndComparisons : Prop :=
  (∀ f ∈ [Fmt.f64, Fmt.f32, Fmt.f16, Fmt.bf16, Fmt.e5m2, Fmt.e4m3], ∀ (mode : BitVec 2) (sat : Bool) (n : Nat),
    n < 2 ^ f.width →
      (f.val n = .nan → f.emit mode sat (f.val n) = f.nan) ∧
      (f.val n ≠ .nan → (∀ b, f.val n ≠ .inf b) → f.emit mode sat (f.val n) = n)) ∧
  ∀ f ∈ [Fmt.f64, Fmt.f32], ∀ x y : Nat,
    (f.val x = .nan ∨ f.val y = .nan → f.rel 0 x y = false ∧ f.rel 1 x y = false ∧ f.rel 2 x y = false ∧ f.rel 3 x y = true) ∧
    (f.val x ≠ .nan → f.val y ≠ .nan → f.rel 3 x y = false ∧ (f.rel 2 x y = (f.rel 0 x y || f.rel 1 x y)) ∧
      !(f.rel 0 x y && f.rel 1 x y)) ∧
    f.rel 0 f.sign 0 = true ∧ f.rel 1 f.sign 0 = false

/-- R291, the special operands, whatever the fixed functions of R89 are: infinities, zeros, NaNs and negative operands. -/
def Obligations.SpecialFunctionCorners : Prop :=
  ∀ sat : Bool,
    (∀ op ∈ [2, 3, 4, 5, 6], ∀ x : Word, Fmt.f32.val x.toNat = .nan → sfu32 op sat x = 0x7FC00000) ∧
    sfu32 2 sat 0xFF800000 = 0 ∧ sfu32 2 sat 0x7F800000 = 0x7F800000 ∧ sfu32 2 sat 0 = 0x3F800000 ∧
    sfu32 2 sat 0x42FE0000 = 0x7F000000 ∧ sfu32 2 true 0x43000000 = 0x7F7FFFFF ∧ sfu32 2 false 0x43000000 = 0x7F800000 ∧
    sfu32 3 sat 0 = 0xFF800000 ∧ sfu32 3 sat 0x80000000 = 0xFF800000 ∧ sfu32 3 sat 0xBF800000 = 0x7FC00000 ∧
    sfu32 3 sat 0x7F800000 = 0x7F800000 ∧ sfu32 3 sat 0x3F800000 = 0 ∧ sfu32 3 sat 0x41000000 = 0x40400000 ∧
    (∀ op ∈ [4, 5], sfu32 op sat 0x7F800000 = 0x7FC00000 ∧ sfu32 op sat 0xFF800000 = 0x7FC00000) ∧
    (∀ op ∈ [4, 6], sfu32 op sat 0 = 0 ∧ sfu32 op sat 0x80000000 = 0x80000000) ∧
    sfu32 5 sat 0 = 0x3F800000 ∧ sfu32 5 sat 0x80000000 = 0x3F800000 ∧
    sfu32 6 sat 0x7F800000 = 0x3F800000 ∧ sfu32 6 sat 0xFF800000 = 0xBF800000 ∧ sfu32 6 sat 0x41200000 = 0x3F800000 ∧
    ∀ (f : Fmt) (mode : BitVec 2), f = Fmt.f32 ∨ f = Fmt.f64 →
      f.recip mode false 0 = f.infCode ∧ f.recip mode false f.sign = f.sign + f.infCode ∧ f.recip mode false f.infCode = 0 ∧
      f.recip mode false (f.sign + f.infCode) = f.sign ∧ f.rroot mode false 0 = f.infCode ∧
      f.rroot mode false f.sign = f.sign + f.infCode ∧ f.rroot mode false f.infCode = 0 ∧
      ∀ n, n < f.infCode → n ≠ 0 → f.rroot mode sat (f.sign + n) = f.nan

/-- R290 and R51: a special-function instruction completes and leaves each guarded lane one result outstanding for its
destination, the registers still as they were; when that result returns, the destination holds it. Whatever an outstanding result
is of, its return writes its values to the registers it still names, and changes nothing else of the machine.
What in it the model chose: assumption 3. -/
def Obligations.SpecialFunctionResults : Prop :=
  (∀ f : R2, ∀ iv ∈ [(Instr.recipF32 f, valRecipF32 f), (.rrootF32 f, valRrootF32 f), (.exp2 f, valExp2 f),
      (.log2 f, valLog2 f), (.sin f, valSin f), (.cos f, valCos f), (.tanh f, valTanh f), (.recipF64 f, valRecipF64 f),
      (.rrootF64 f, valRrootF64 f)],
    ∀ s c w m, Ready iv.1 s c w m → ∃ t w', exec iv.1 s = .next t ∧ t.crew? c = some w' ∧
      t = { s with crews := t.crews, cur := Group.none, serial := s.serial + 1 } ∧ (∀ d, d ≠ c → t.crew? d = s.crew? d) ∧
      ∀ l, m.getLsbD l = true → guardOf iv.1 (w.thread l) = true →
        SameRegs (w.thread l) (w'.thread l) ∧ (w'.thread l).pc = (w.thread l).pc + s.cur.len ∧
        (w'.thread l).out.length = (w.thread l).out.length + 1 ∧
        ∀ u, exec (.resultReturn ⟨c.team, c.crew, l⟩ (w.thread l).out.length) t = .next u →
          ∀ k, k < (iv.2 (w.thread l)).length →
            (u.thread ⟨c.team, c.crew, l⟩).reg (f.d + BitVec.ofNat 6 k) = (iv.2 (w.thread l)).getD k 0) ∧
  ∀ (s : State) (c : CRef) (w : Crew) (l n : Nat) (o : Out) (vs : List Word), s.crew? c = some w → l < 64 →
    (w.thread l).out[n]? = some o → o.vals = some vs →
    ∃ t w', exec (.resultReturn ⟨c.team, c.crew, l⟩ n) s = .next t ∧ t.crew? c = some w' ∧ t = { s with crews := t.crews } ∧
      (∀ d, d ≠ c → t.crew? d = s.crew? d) ∧ w'.k = w.k ∧ w'.mask = w.mask ∧ w'.retired = w.retired ∧
      (∀ x, x ≠ l → w'.thread x = w.thread x) ∧ Kept (w.thread l) (w'.thread l) ∧ (w'.thread l).pc = (w.thread l).pc ∧
      (w'.thread l).p = (w.thread l).p ∧ (w'.thread l).out = (w.thread l).out.eraseIdx n ∧
      (∀ d, (∀ k, k < vs.length → o.regs[k]? ≠ some (some d)) → (w'.thread l).reg d = (w.thread l).reg d) ∧
      ∀ (k : Nat) (d : Reg6) (v : Word), o.regs[k]? = some (some d) → vs[k]? = some v → (∀ j, j ≠ k → o.regs[j]? ≠ some (some d)) →
        (w'.thread l).reg d = v

/-! ## Moves, special registers, exchange and votes (R292 to R296) -/

/-- R292 and R293: the moves that act on each lane by itself; the 20-bit moves act in every lane of the group. -/
def Obligations.MovesOfLanes : Prop :=
  (∀ f : R2,
    WritesReg (.mov f) f.d (fun t => t.reg f.a) ∧ WritesPair (.movD f) f.d (fun t => t.pair f.a) ∧
    LaneByLane (.movFromK f) fun w _ a b => SetsReg a b f.d (w.k.getD f.a.toNat 0)) ∧
  ∀ f : MV20,
    (∀ t, guardOf (.movf20 f) t = true ∧ guardOf (.movi20 f) t = true) ∧
    WritesReg (.movf20 f) f.d (fun t => match t.xlit with
      | none => f.i ++ 0#12
      | some p => f.i ++ p.setWidth 12) ∧
    WritesReg (.movi20 f) f.d (fun t => match t.xlit with
      | none => f.i.signExtend 32
      | some p => p.setWidth 12 ++ f.i)

/-- R292 minor 3 with R34: `MOV kD, gA` writes the crew's register from the lowest lane whose guard is true, and no register
of a thread; with no such lane nothing is written. Every lane goes on to the next instruction. R210 and R211: a write that a
tainted register or guard supplies is logged first, where the log has room. -/
def Obligations.CrewRegisterWrite : Prop :=
  ∀ (f : R2) s c w, let i := Instr.movToK f
    Ready i s c w (BitVec.allOnes 64) →
    ((∀ l, l < 64 → guardOf i (w.thread l) = false) → WholeCrew i s c w s fun w' => w'.k = w.k ∧ w'.mask = w.mask) ∧
    ∀ l, Leads i w l →
      let a := w.thread l
      let r : TRef := ⟨c.team, c.crew, l⟩
      let tainted := a.taintG.getLsbD f.a.toNat || a.guardTaint i
      (tainted = true → s.logFull r 1 = false) →
        WholeCrew i s c w (if tainted then logEscape s r 6 (a.reg f.a) (f.d.setWidth 64) else s) fun w' =>
          w'.k = w.k.set! f.d.toNat (a.reg f.a) ∧ w'.mask = w.mask

/-- R294 with R32 and R178: the value of each special register. -/
def Obligations.SpecialRegisters : Prop :=
  ∀ f : R2, LaneByLaneIf (.sread f) (fun s c _ _ => (s.teamLaunch? c.team).isSome) fun s c w l a b =>
    ∀ tm id la, s.team? c.team = some tm → s.teamLaunch? c.team = some (id, la) →
      (f.a = 0 → SetsReg a b f.d (BitVec.ofNat 32 l)) ∧ (f.a = 1 → SetsReg a b f.d (BitVec.ofNat 32 c.crew)) ∧
      (f.a = 2 → SetsReg a b f.d tm.x) ∧ (f.a = 3 → SetsReg a b f.d tm.y) ∧ (f.a = 4 → SetsReg a b f.d tm.z) ∧
      (f.a = 5 → SetsReg a b f.d (BitVec.ofNat 32 tm.stage)) ∧ (f.a = 6 → SetsReg a b f.d (BitVec.ofNat 32 tm.rank)) ∧
      (f.a = 7 → SetsPair a b f.d
        (if la.det then w.retired else BitVec.ofNat 64 (s.cycle - (s.die (tm.core / 64)).clockBase))) ∧
      (f.a = 8 → SetsPair a b f.d (BitVec.ofNat 64 s.time)) ∧ (f.a = 9 → SetsPair a b f.d w.retired) ∧
      (la.job = 0 → (f.a = 10 ∨ f.a = 11) → SetsReg a b f.d 0) ∧
      (la.job ≠ 0 → f.a = 10 → SetsReg a b f.d (la.job.setWidth 32)) ∧
      ∀ j, la.job ≠ 0 → s.job? la.job = some j → f.a = 11 → SetsReg a b f.d j.period

/-- R295: each guarded lane takes what its source lane held before any lane wrote. -/
def Obligations.LaneExchange : Prop :=
  ∀ f : R3,
    (LaneByLane (.shflPick f) fun w _ a b =>
      SetsReg a b f.d ((w.thread ((a.reg f.b).toNat % 64)).reg f.a)) ∧
    (LaneByLane (.shflRot f) fun w l a b =>
      SetsReg a b f.d ((w.thread ((l + (a.reg f.b).toNat % 64) % 64)).reg f.a)) ∧
    (LaneByLane (.shflSeg f) fun w l a b =>
      let z := 2 ^ min ((a.reg f.b).toNat / 64 % 8) 6
      SetsReg a b f.d ((w.thread (l / z * z + (l + (a.reg f.b).toNat % 64) % z)).reg f.a)) ∧
    LaneByLane (.shflFlip f) fun w l a b =>
      SetsReg a b f.d ((w.thread (l ^^^ ((a.reg f.b).toNat % 64))).reg f.a)

/-- R296: each guarded lane writes the same result over the lanes whose guard is true; `FSUM` adds over the pairwise tree of
R94. -/
def Obligations.Votes : Prop :=
  ∀ f : R2,
    (LaneByLane (.voteEvery f) fun w _ a b => ∃ v, SetsReg a b f.d v ∧ (v = 0 ∨ v = 1) ∧
      (v = 1 ↔ ∀ n, n < 64 → guardOf (.voteEvery f) (w.thread n) = true → (w.thread n).reg f.a ≠ 0)) ∧
    (LaneByLane (.voteSome f) fun w _ a b => ∃ v, SetsReg a b f.d v ∧ (v = 0 ∨ v = 1) ∧
      (v = 1 ↔ ∃ n, n < 64 ∧ guardOf (.voteSome f) (w.thread n) = true ∧ (w.thread n).reg f.a ≠ 0)) ∧
    (LaneByLane (.voteMap f) fun w _ a b => ∃ v : DWord, SetsPair a b f.d v ∧
      ∀ n, n < 64 → (v.getLsbD n = true ↔ guardOf (.voteMap f) (w.thread n) = true ∧ (w.thread n).reg f.a ≠ 0)) ∧
    (LaneByLane (.voteIsum f) fun w _ a b => SetsReg a b f.d (BitVec.ofNat 32
      ((List.range 64).foldl (fun x n => x + if guardOf (.voteIsum f) (w.thread n) then ((w.thread n).reg f.a).toNat else 0) 0))) ∧
    LaneByLane (.voteFsum f) fun w _ a b => SetsReg a b f.d (BitVec.ofNat 32
      (pairTree (Fmt.f32.add a.mode a.satur)
        ((List.range 64).map fun n => if guardOf (.voteFsum f) (w.thread n) then ((w.thread n).reg f.a).toNat else 0)))

/-- R269, R277, R284 and R292: the forms with a bank word, once the core holds it. -/
def Obligations.BankOperands : Prop :=
  (∀ (f : GC) (v : Nat → Word),
    let held := fun (s : State) (c : CRef) (w : Crew) (m : BitVec 64) => ∀ l, m.getLsbD l = true →
      ∃ id la, s.teamLaunch? c.team = some (id, la) ∧
        s.bankHeld (s.teamCore c.team) id f.k.toNat ((w.thread l).bankWord f.w) = some (v l)
    (LaneByLaneIf (.faddBank f) held fun _ _ _ l a b =>
      SetsReg a b f.d (op32 (Fmt.f32.add a.mode a.satur) (a.reg f.a) (v l))) ∧
    (LaneByLaneIf (.fmulBank f) held fun _ _ _ l a b =>
      SetsReg a b f.d (op32 (Fmt.f32.mul a.mode a.satur) (a.reg f.a) (v l))) ∧
    (LaneByLaneIf (.ffmac f) held fun _ _ _ l a b =>
      SetsReg a b f.d (BitVec.ofNat 32
        (Fmt.f32.fma a.mode a.satur false (a.reg f.d).toNat (a.reg f.a).toNat (v l).toNat))) ∧
    LaneByLaneIf (.iaddBank f) held fun _ _ _ l a b =>
      SetsReg a b f.d (wrapOr 32 false a.satur ((a.reg f.a).toInt + (v l).toInt))) ∧
  ∀ (f : GCd) (v : Nat → Word),
    LaneByLaneIf (.movBank f) (fun s c w m => ∀ l, m.getLsbD l = true →
        ∃ id la, s.teamLaunch? c.team = some (id, la) ∧
          s.bankHeld (s.teamCore c.team) id f.k.toNat ((w.thread l).bankWord f.w) = some (v l))
      fun _ _ _ l a b => SetsReg a b f.d (v l)

/-! ## Control (R297 to R304) -/

/-- R297 to R300: a branch, call or return whose guard is true and whose target no fault of class 4 refuses sets the PC to
its target; a call also writes the address of the next instruction to its link pair. Nothing else of the registers and the
machine changes. Where no guard of the group is true, every lane keeps its registers and goes on to the next instruction. R417: a target
inside a dictionary run gives a class 4 trap of code 1; one that is not a multiple of 4, or not below 2^52, one of code 3;
one that takes a hint's place of completion, one of code 2. The trap names the target (assumption 93, the model's reading). -/
def Obligations.Branches : Prop :=
  (∀ (s : State) (c : CRef) (w : Crew) (l : Nat),
    let goes := fun (i : Instr) (target : DWord) (link : Option Reg6) =>
      One i s c w l → targetFault s ⟨c.team, c.crew, l⟩ target false = none → OneThread i s c w l s fun a b =>
        Kept a b ∧ b.pc = target ∧ match link with
          | none => SameRegs a b
          | some d => SetsPair a b d (a.pc + 4)
    let t := w.thread l
    (∀ f : Br, goes (.bra f) (t.pc + 4 * f.o.signExtend 64) none ∧ goes (.call f) (t.pc + 4 * f.o.signExtend 64) (some 62)) ∧
    (∀ f : R1, goes (.brx f) (t.pair f.a) none ∧ goes (.ret f) (t.pair f.a) none) ∧
    ∀ f : R2, goes (.callx f) (t.pair f.a) (some f.d)) ∧
  (∀ (s : State) (c : CRef) (w : Crew) (l : Nat),
    let traps := fun (i : Instr) (target : DWord) =>
      One i s c w l →
      (2 ^ 52 ≤ target.toNat → Traps i s c l { cls := 4, code := 3, addr := target }) ∧
      (target.toNat % 2 = 1 → Traps i s c l { cls := 4, code := 3, addr := target }) ∧
      ∀ ws, target.toNat < 2 ^ 52 → target.toNat % 2 = 0 →
        peekLine s (s.teamCore c.team) (s.teamCtx c.team) target (w.thread l).sup = some ws →
        (markAt ws target = .run → Traps i s c l { cls := 4, code := 1, addr := target }) ∧
        (markAt ws target ≠ .run → target.toNat % 4 = 2 → Traps i s c l { cls := 4, code := 3, addr := target }) ∧
        (markAt ws target = .expected → target.toNat % 4 = 0 → Traps i s c l { cls := 4, code := 2, addr := target })
    let t := w.thread l
    (∀ f : Br, traps (.bra f) (t.pc + 4 * f.o.signExtend 64) ∧ traps (.call f) (t.pc + 4 * f.o.signExtend 64)) ∧
    (∀ f : R1, traps (.brx f) (t.pair f.a) ∧ traps (.ret f) (t.pair f.a)) ∧
    ∀ f : R2, traps (.callx f) (t.pair f.a)) ∧
  ∀ i : Instr, (∃ f : Br, i = .bra f ∨ i = .call f) ∨ (∃ f : R1, i = .brx f ∨ i = .ret f) ∨ (∃ f : R2, i = .callx f) →
    LaneByLaneIf i (fun _ _ w m => ∀ l, m.getLsbD l = true → guardOf i (w.thread l) = false) fun _ _ _ _ a b => SameRegs a b

/-- R257 to R261 and R302 to R304: `XLIT` and `XMOD` hold their payload for the next instruction, `SCHED` sets the thread's
level, `DICT`, `NOP` and `YIELD` change no register; every lane of the group goes on. `DICT_CODE` makes the word that its
entry stands for the next thing the group executes. -/
def Obligations.HintsAndNop : Prop :=
  (∀ (f : HX) s c w l, One (.xlit f) s c w l → xlitFault s ⟨c.team, c.crew, l⟩ f.p = none →
    OneThread (.xlit f) s c w l s fun a b =>
      Goes s a b ∧ SameRegs a b ∧ b.xlit = some f.p ∧ b.xmod = a.xmod ∧ b.chain = a.chainStart) ∧
  (∀ (f : HM) s c w l, One (.xmod f) s c w l → (w.thread l).pc.toNat % 256 ≠ 252 →
    OneThread (.xmod f) s c w l s fun a b =>
      Goes s a b ∧ SameRegs a b ∧ b.xmod = some f ∧ b.xlit = a.xlit ∧ b.chain = a.chainStart) ∧
  (∀ (f : HD) s c w l, One (.dict f) s c w l → (w.thread l).pc.toNat % 256 / 4 + f.n.toNat + 1 ≤ 63 →
    OneThread (.dict f) s c w l s fun a b => Goes s a b ∧ SameRegs a b) ∧
  (∀ (f : HS) s c w l, One (.sched f) s c w l → OneThread (.sched f) s c w l s fun a b =>
    b.pc = a.pc + s.cur.len ∧ SameRegs a b ∧ b.sched = some f.l) ∧
  (∀ f : R0, LaneByLane (.nop f) fun _ _ a b => SameRegs a b ∧ b.readyAt = b.lastIssue + Config.issueInterval) ∧
  (∀ (f : R0) s c w l, One (.yield f) s c w l → s.isDet c.team = false →
    OneThread (.yield f) s c w l s fun a b => Goes s a b ∧ SameRegs a b ∧ b.readyAt = s.cycle + Config.issueInterval ∧
      b.rankAt = s.cycle + 1) ∧
  ∀ (f : CodeF) (s : State) (r : TRef) (rs : List TRef) (v : Word), s.cur.refs = r :: rs → codeWord s r f = .word v →
    exec (.dictCode f) s = .next { s with cur := { s.cur with code := some (some v) } }

/-! ## Masks, barriers, tags, fences, the baton and the end of threads (R53 to R60, R159, R301, R313, R317 to R325, R331) -/

/-- R53 to R58, R317 and R318: `JOIN` and `LEAVE` set and clear the thread's membership; a thread that is no member goes on at
once from `WAITM` and `WAITMT`, the latter with status 2; a member arrives, once the release of its crew can complete, and
waits. At the end of the cycle the set completes when every member has arrived: A is cleared, the phase inverted, and the
waiters in A go on, with status 0. After that a timed wait whose nanoseconds have passed ends with status 1 and leaves A. -/
def Obligations.MaskRendezvous : Prop :=
  (∀ (s : State) (c : CRef) (w : Crew) (l : Nat),
    let bit := laneBit l
    let goes := fun (a b : Thread) => Goes s a b ∧ SameRegs a b
    let arrives := fun (i : Instr) (n : Nat) (wait : Wait) =>
      let m := w.maskReg n
      (s.relBlocked c = false → ChangesMask i s c w l n { m with a := m.a ||| bit } (release s c (w.thread l).pc bit)
        fun a b => SameRegs a b ∧ b.pc = a.pc + s.cur.len ∧ b.wait = wait) ∧
      (s.relBlocked c = true → Waits i s)
    (∀ f : R1, let n := f.a.toNat; let m := w.maskReg n
      n < 12 →
      (One (.join f) s c w l → ChangesMask (.join f) s c w l n { m with m := m.m ||| bit } s goes) ∧
      (One (.leave f) s c w l → ChangesMask (.leave f) s c w l n { m with m := m.m &&& ~~~bit, a := m.a &&& ~~~bit } s goes) ∧
      (One (.waitm f) s c w l → m.m.getLsbD l = false → OneThread (.waitm f) s c w l s goes) ∧
      (One (.waitm f) s c w l → m.m.getLsbD l = true → arrives (.waitm f) n (.mask n))) ∧
    ∀ f : R3, let n := f.a.toNat; let m := w.maskReg n
      n < 12 → One (.waitmt f) s c w l →
      (m.m.getLsbD l = false → OneThread (.waitmt f) s c w l s fun a b => Goes s a b ∧ SetsReg a b f.d 2) ∧
      (m.m.getLsbD l = true →
        arrives (.waitmt f) n (.maskTimed n f.d (s.waitClock c.team + ((w.thread l).reg f.b).toNat)))) ∧
  (∀ (s : State) (c : CRef) (w : Crew) (n : Nat), s.crew? c = some w → n < 12 →
    let m := w.maskReg n
    let u := completeMask s c n
    (m.complete ↔ m.m ≠ 0 ∧ m.m &&& ~~~m.a = 0) ∧ (m.complete = false → u = s) ∧
    (m.complete = true → u = { s with crews := u.crews, l1 := u.l1 } ∧ (∀ d, d ≠ c → u.crew? d = s.crew? d) ∧
      ∃ w', u.crew? c = some w' ∧ w'.maskReg n = { m with a := 0, phase := !m.phase } ∧
        (∀ k, k ≠ n → w'.maskReg k = w.maskReg k) ∧ ∀ x, x < 64 → w'.thread x =
          if m.a.getLsbD x && (w.thread x).onMask n then (w.thread x).endWait s.cycle 0 else w.thread x)) ∧
  (∀ (s : State) (c : CRef) (w : Crew) (l n deadline : Nat) (d : Reg6), s.crew? c = some w → l < 64 → n < 12 →
    (w.thread l).wait = .maskTimed n d deadline → s.isDet c.team = false →
    let u := expireWaits s
    let r : TRef := ⟨c.team, c.crew, l⟩
    (deadline ≤ s.time → (u.thread r).wait = .none ∧ (u.thread r).reg d = 1 ∧
      ∃ w', u.crew? c = some w' ∧ (w'.maskReg n).a.getLsbD l = false ∧ (w'.maskReg n).m = (w.maskReg n).m) ∧
    (s.time < deadline → u.thread r = w.thread l)) ∧
  ∀ (s : State) (c : CRef) (n : Nat), s.traces = [] → s.due = { Due.none with masks := [(c, n)] } →
    endTests s = expireWaits (completeMask { s with due := Due.none } c n)

/-- R319 and R320: the mask logic writes the membership of a mask register of the crew, which is tested at the end of the
cycle; `MGET` reads a membership, the arrivals or the phase, as its cycle began, into each lane's pair. -/
def Obligations.MaskLogic : Prop :=
  (∀ (s : State) (c : CRef) (w : Crew),
    let sets := fun (i : Instr) (d : Reg6) (v : DWord) =>
      Whole i s c w → d.toNat < 12 → WholeCrew i s c w (markMask s c d.toNat) fun w' =>
        w'.maskReg d.toNat = { w.maskReg d.toNat with m := v } ∧ w'.k = w.k ∧
          ∀ k, k ≠ d.toNat → w'.maskReg k = w.maskReg k
    let m := fun (a : Reg6) => (w.maskReg a.toNat).m
    (∀ f : R3, sets (.mand f) f.d (m f.a &&& m f.b) ∧ sets (.mor f) f.d (m f.a ||| m f.b) ∧
      sets (.mxor f) f.d (m f.a ^^^ m f.b) ∧ sets (.mandn f) f.d (m f.a &&& ~~~ m f.b)) ∧
    ∀ f : R2, sets (.mmov f) f.d (m f.a) ∧ sets (.mset f) f.d (w.kReg (f.a + 1) ++ w.kReg f.a)) ∧
  (∀ (s : State) (c : CRef) (n : Nat), (c, n) ∈ (markMask s c n).due.masks) ∧
  ∀ f : R3, LaneByLaneIf (.mget f) (fun _ _ _ _ => True) fun s _ w _ a b =>
    let m := match w.maskWas with
      | some (n, v) => if n = s.cycle then v.getD f.a.toNat MaskReg.zero else w.maskReg f.a.toNat
      | none => w.maskReg f.a.toNat
    SetsPair a b f.d (if f.b = 0 then m.m else if f.b = 1 then m.a else if m.phase then 1 else 0)

/-- R59, R60 and R321: `BAR` of a thread arrives, once the release of its crew can complete, and waits at its barrier; of a
handler crew it traps. At the end of the cycle, once all live threads of all live crews wait there, the barrier completes:
its phase advances, every thread goes on, and P tells it whether its crew came last, which of several in one cycle is
the lowest, and under deterministic mode the highest crew. -/
def Obligations.TeamBarrier : Prop :=
  (∀ (f : BarF) (s : State) (c : CRef) (w : Crew) (l : Nat) (tm : Team), One (.bar f) s c w l → s.team? c.team = some tm →
    let n := f.n.toNat
    (c.crew < tm.crews → s.relBlocked c = false →
      OneThread (.bar f) s c w l (markBar (release s c (w.thread l).pc (laneBit l)) c.team n) fun a b =>
        SameRegs a b ∧ b.pc = a.pc + s.cur.len ∧ b.wait = .bar n f.p) ∧
    (c.crew < tm.crews → s.relBlocked c = true →
      exec (.bar f) s = .next { markBar s c.team n with cur := Group.none }) ∧
    (tm.crews ≤ c.crew → exec (.bar f) s = .next (finishTraps { markBar s c.team n with
      cur := { s.cur with lanes := [], traps := [(⟨c.team, c.crew, l⟩, { cls := 5, code := 8 })] } }))) ∧
  (∀ (s : State) (team n : Nat) (tm : Team), s.team? team = some tm → n < 16 →
    let live := s.liveCrews team
    let all := live.all fun x => (s.crew? ⟨team, x⟩).any fun w => w.atBar n
    let u := testBarrier s team n
    (all = false → (∀ r : TRef, u.thread r = s.thread r) ∧ (u.team? team).map (·.barPhase) = some tm.barPhase) ∧
    (all = true → live ≠ [] →
      (u.team? team).map (·.barPhase) = some (tm.barPhase.mapIdx fun i v => if i = n then v + 1 else v) ∧ u.mem = s.mem ∧
      ∃ last ∈ live, (s.isDet team = true → ∀ x ∈ live, x ≤ last) ∧
        (s.isDet team = false → ∀ x rest, (live.filter fun x => !tm.barOrder.contains (n, x)) = x :: rest → last = x) ∧
        ∀ x ∈ live, ∀ l, l < 64 → u.thread ⟨team, x, l⟩ = (s.thread ⟨team, x, l⟩).leaveBar s.cycle n (x == last))) ∧
  (∀ (t : Thread) (cycle n : Nat) (p : Pred3) (last : Bool), t.wait = .bar n p →
    let b := t.leaveBar cycle n last
    b.wait = .none ∧ b.pc = t.pc ∧ b.g = t.g ∧
      ∀ x, b.pred x = if x = 0 then true else if x = p then last else t.pred x) ∧
  ∀ (s : State) (team n : Nat), s.traces = [] → s.due = { Due.none with bars := [(team, n)] } →
    endTests s = testBarrier (expireWaits { s with due := Due.none }) team n

/-- R57, R159 and R301: `EXIT` ends the thread, takes it out of every mask register of its crew and drops the results it still
waits for; no other thread of the crew changes, and the crew's masks and its team's barriers are tested at the end of the
cycle. R410: it is the thread that ended last, unless one of a lower crew number or lane has ended in the cycle. When the crew that holds the baton has ended, the baton passes to the next live crew, once the crew's release is
complete. -/
def Obligations.ThreadExit : Prop :=
  ∀ (f : R0) (s : State) (c : CRef) (w : Crew) (l : Nat), One (.exit f) s c w l →
    let holds := fun (tm : Team) => tm.array.isSome ∧ tm.baton = c.crew ∧ ∀ n, n < 64 → n ≠ l → (w.thread n).exited = true
    let keeps := fun (tm : Team) => tm.array = none ∨ ∀ x, s.crew? ⟨c.team, tm.baton⟩ = some x →
      ∃ n, n < 64 ∧ (tm.baton = c.crew → n ≠ l) ∧ (x.thread n).exited = false
    ∃ t w', exec (.exit f) s = .next t ∧ t.crew? c = some w' ∧ (w'.thread l).exited = true ∧ w'.retired = w.retired + 1 ∧
      SameRegs (w.thread l) (w'.thread l) ∧ (∀ o ∈ (w'.thread l).out, ∀ d ∈ o.regs, d = none) ∧
      (∀ k, (w'.maskReg k).m = (w.maskReg k).m &&& ~~~laneBit l ∧ (w'.maskReg k).a = (w.maskReg k).a &&& ~~~laneBit l) ∧
      (∀ k, k < 12 → (c, k) ∈ t.due.masks) ∧ (∀ n, n < 16 → (c.team, n) ∈ t.due.bars) ∧
      ∀ tm, s.team? c.team = some tm →
        (keeps tm → t.mem = s.mem ∧ (∀ d, d ≠ c → t.crew? d = s.crew? d) ∧ (∀ x, x ≠ l → w'.thread x = w.thread x)) ∧
        (holds tm → s.relBlocked c = false → ∀ next, next ≠ c.crew →
          FollowsAlive s c.team tm.crews c.crew next →
          (t.team? c.team).map (·.baton) = some next ∧ ∀ x, x ≠ l → w'.thread x = w.thread x) ∧
        (c.crew < tm.crews →
          (∀ e, tm.lastEnd = some e → e.1 = s.cycle → 64 * w.slot + l < 64 * s.slotOf e.2.1.cref + e.2.1.lane) →
          (t.team? c.team).map (·.lastEnd) = some (some (s.cycle, ⟨c.team, c.crew, l⟩, (w.thread l).pc)))

/-- R121 and R322 to R325: `TBINIT` stores a barrier that expects its count to cluster-shared memory, or of an uncommitted task
to its write buffer (assumption 19, the model's reading). `TBARRIVE` leaves the phase outstanding for its register, and at the end of
the cycle its arrival counts down, gives the phase before it and completes the barrier when nothing is left; one that finds the
count at 0 is refused. A tainted arrival is logged when it is applied (assumption 41, the model's choice). `TBWAIT` goes on, as an
acquire, once the phase has left the value it names, and waits before that. -/
def Obligations.TransactionBarriers : Prop :=
  (∀ (s : State) (c : CRef) (w : Crew) (l off : Nat),
    let r : TRef := ⟨c.team, c.crew, l⟩
    let p := s.levelPlace r .clu
    let b := s.tbar (s.ownPlace c.team p off 16) off
    let t := w.thread l
    off % 16 = 0 → off + 16 ≤ s.placeSize p → s.isBusy p off 16 = false →
    (∀ (f : Rab) (u : State), One (.tbinit f) s c w l → (t.reg f.a).toNat = off → 0 < (t.reg f.b).toNat →
      (t.reg f.b).toNat < 2 ^ 24 → b.sectors = 0 →
      s.logFull r (if hasTaint (.tbinit f) t then 4 else 0) = false → Fenced s c u → u.isBusy p off 16 = false →
      let new : TBar := ⟨(t.reg f.b).toNat, 0, 0, 0, (t.reg f.b).toNat⟩
      let ea := BitVec.ofNat 64 off
      let v := logStore (.tbinit f) u r .clu ea (leBytes 16 new.toNat)
      let goes := fun (a b : Thread) => Goes s a b ∧ SameRegs a b
      (u.buffering c.team = none → OneThread (.tbinit f) s c w l (v.setTbar p off new) goes ∧
        (Mem.wf (v.placeMem p) = true → (v.setTbar p off new).tbar p off = new)) ∧
      ∀ k k', u.buffering c.team ≠ none → v.buffering c.team = some k →
        k.store? p off ea t.sup (v.pageSize (.core (v.teamCore c.team)) (v.teamCtx c.team) ea) (leBytes 16 new.toNat) = some k' →
        OneThread (.tbinit f) s c w l (v.setTask c.team fun _ => k') goes) ∧
    (∀ f : R2, One (.tbarrive f) s c w l → (t.reg f.a).toNat = off →
      s.logFull r (if hasTaint (.tbarrive f) t then 1 else 0) = false → s.relBlocked c = false →
      let u := release s c t.pc (laneBit l)
      let a : Arrival := ⟨r, u.serial, u.ownPlace c.team p off 16, off, u.teamCore c.team, laneBit l, t.pc, t.chainStart,
        if hasTaint (.tbarrive f) t then some (escapeOf u r 2 0 (BitVec.ofNat 64 off)) else none⟩
      OneThread (.tbarrive f) s c w l
        { u with serial := u.serial + 1, due := { u.due with arrivals := u.due.arrivals ++ [a] } } fun x z =>
          SameRegs x z ∧ z.pc = x.pc + s.cur.len ∧ z.out.length = x.out.length + 1 ∧
            z.out[x.out.length]? = some ⟨u.serial, [some f.d], none⟩) ∧
    ∀ f : Rab, One (.tbwait f) s c w l → (t.reg f.a).toNat = off →
      (b.phase ≠ (t.reg f.b).toNat % 16 → OneThread (.tbwait f) s c w l (acquire s c) fun x y => Goes s x y ∧ SameRegs x y) ∧
      (b.phase = (t.reg f.b).toNat % 16 → Waits (.tbwait f) s)) ∧
  ∀ (s : State) (a : Arrival) (w : Crew), s.crew? a.thread.cref = some w → a.thread.lane < 64 → a.place ≠ .phys →
    (∀ x, a.place ≠ .task x) → a.off + 16 ≤ s.placeSize a.place → Mem.wf (s.placeMem a.place) = true →
    let b := s.tbar a.place a.off
    let u := testTbar [a] false s a.place a.off
    let told := u.thread a.thread = (s.thread a.thread).giveOut a.out [BitVec.ofNat 32 b.phase] ∧ (a.log = none → u.mem = s.mem)
    (1 < b.arrivals ∨ (b.arrivals = 1 ∧ b.sectors ≠ 0) →
      told ∧ u.tbar a.place a.off = { b with arrivals := b.arrivals - 1 }) ∧
    (b.arrivals = 1 → b.sectors = 0 → told ∧ u.tbar a.place a.off =
      { b with phase := (b.phase + 1) % 16, arrivals := b.expected, time := s.time % 2 ^ 40 }) ∧
    (b.arrivals = 0 → u = refuseArrivals s [a]) ∧
    (s.due.tbars = [] → s.due.arrivals = [a] → testTbars s =
      testTbar [a] false { s with due := { s.due with tbars := [], arrivals := [] } } a.place a.off)

/-- R331 and R210: the tag waits of a crew go on once the tags they name have completed, as an acquire where they saw one, and
report which in `k` registers of the crew; before that nothing issues. A report that tainted registers supply or guard is
logged first, where the log has room. -/
def Obligations.TagWaits : Prop :=
  ∀ (s : State) (c : CRef) (w : Crew) (l : Nat),
    let r : TRef := ⟨c.team, c.crew, l⟩
    let named := fun (a : Reg6) => w.kReg (a + 1) ++ w.kReg a
    let hit := fun (a : Reg6) => named a &&& s.tags c.team
    let tainted := fun (i : Instr) (a : Reg6) =>
      (w.thread l).guardTaint i || w.taintK.getLsbD a.toNat || w.taintK.getLsbD (a + 1).toNat
    let logged := fun (i : Instr) (a : Reg6) (ws : List (Reg6 × Word)) =>
      if tainted i a then ws.foldl (fun s x => logEscape s r 6 x.2 (x.1.setWidth 64)) s else s
    let after := fun (u : State) (hit : DWord) => if hit = 0 then u else acquire u c
    let within := fun (i : Instr) (a : Reg6) =>
      Ready i s c w (BitVec.allOnes 64) ∧ Leads i w l ∧ (named a).toNat < 2 ^ s.tagCount c.team
    let logs := fun (i : Instr) (a : Reg6) (n : Nat) => tainted i a = true → s.logFull r n = false
    (∀ f : R1, within (.tagwall f) f.a →
      (hit f.a = named f.a → WholeCrew (.tagwall f) s c w (after s (hit f.a)) fun w' => w'.k = w.k ∧ w'.mask = w.mask) ∧
      (hit f.a ≠ named f.a → Waits (.tagwall f) s)) ∧
    ∀ f : R2,
      (within (.tagwany f) f.a →
        let lo := (hit f.a).setWidth 32
        let hi := (hit f.a >>> 32).setWidth 32
        (named f.a = 0 ∨ hit f.a ≠ 0 → logs (.tagwany f) f.a 2 →
          WholeCrew (.tagwany f) s c w (after (logged (.tagwany f) f.a [(f.d, lo), (f.d + 1, hi)]) (hit f.a)) fun w' =>
            w'.mask = w.mask ∧ ∀ r : Reg6, w'.kReg r = if r = f.d then lo else if r = f.d + 1 then hi else w.kReg r) ∧
        (named f.a ≠ 0 → hit f.a = 0 → Waits (.tagwany f) s)) ∧
      (within (.tagfirst f) f.a → logs (.tagfirst f) f.a 1 → ∃ n,
        WholeCrew (.tagfirst f) s c w (after (logged (.tagfirst f) f.a [(f.d, BitVec.ofNat 32 n)]) (hit f.a)) (fun w' =>
          w'.mask = w.mask ∧ (w'.kReg f.d).toNat = n ∧ ∀ r : Reg6, r ≠ f.d → w'.kReg r = w.kReg r) ∧
        (hit f.a = 0 → n = 64) ∧ (hit f.a ≠ 0 → (hit f.a).getLsbD n = true ∧ ∀ k, k < n → (hit f.a).getLsbD k = false))

/-- R131 to R133 and R313: `FENCE.REL` leaves a release to complete, `FENCE.ACQ` is an acquire, `FENCE.AR` a release and then
an acquire, which waits while the release cannot complete. R159 and R342: `BATON.PASS` is a release; of the holder it gives
the baton to the next live crew and wakes it. `BATON.WAIT` of the holder goes on as an acquire, of another crew it waits.
Without the array both trap. -/
def Obligations.FencesAndBaton : Prop :=
  ∀ (s : State) (c : CRef) (w : Crew),
    (∀ (f : R0) (l : Nat), let released := release s c (w.thread l).pc (laneBit l)
      let goes := fun (a b : Thread) => Goes s a b ∧ SameRegs a b
      (One (.fenceRel f) s c w l → OneThread (.fenceRel f) s c w l s goes ∧
        ∀ t, exec (.fenceRel f) s = .next t → ∃ m, (t.crew? c).map (·.fence) = some (some ((w.thread l).pc, m)) ∧
          m.getLsbD l = true ∧ (w.fence = none → m = laneBit l)) ∧
      (One (.fenceAcq f) s c w l → OneThread (.fenceAcq f) s c w l (acquire s c) goes) ∧
      (One (.fenceAr f) s c w l → s.relBlocked c = false → OneThread (.fenceAr f) s c w l (acquire released c) goes) ∧
      (One (.fenceAr f) s c w l → s.relBlocked c = true → Waits (.fenceAr f) s)) ∧
    ∀ (f : Rs) (tm : Team), s.team? c.team = some tm →
      let released := release s c (w.thread 0).pc (BitVec.allOnes 64)
      let traps := fun (i : Instr) => exec i s = .next (finishTraps (s.trapAll { cls := 5, code := 7 }))
      (Ready (.batonWait f) s c w (BitVec.allOnes 64) →
        (tm.array.isSome → tm.baton = c.crew → WholeCrew (.batonWait f) s c w (acquire s c) fun w' => w'.k = w.k) ∧
        (tm.array.isSome → tm.baton ≠ c.crew → Yields (.batonWait f) s fun t => ∃ w', t.crew? c = some w' ∧
          t = { s with crews := t.crews, cur := Group.none } ∧ (∀ d, d ≠ c → t.crew? d = s.crew? d) ∧
          w'.retired = w.retired + 1 ∧ ∀ l, l < 64 → SameRegs (w.thread l) (w'.thread l) ∧
            (w'.thread l).pc = (w.thread l).pc + s.cur.len ∧ (w'.thread l).wait = .baton) ∧
        (tm.array = none → traps (.batonWait f))) ∧
      (Ready (.batonPass f) s c w (BitVec.allOnes 64) →
        (tm.array.isSome → s.relBlocked c = true → Waits (.batonPass f) s) ∧
        (tm.array.isSome → s.relBlocked c = false → tm.baton ≠ c.crew →
          WholeCrew (.batonPass f) s c w released fun w' => w'.k = w.k) ∧
        (∀ next, tm.array.isSome → s.relBlocked c = false → tm.baton = c.crew → FollowsAlive s c.team tm.crews c.crew next →
          (∀ l, l < 64 → (w.thread l).wait ≠ .baton) → Yields (.batonPass f) s fun t => ∃ w', t.crew? c = some w' ∧
            t.mem = released.mem ∧ (t.team? c.team).map (·.baton) = some next ∧ w'.k = w.k ∧ w'.retired = w.retired + 1 ∧
            (∀ l, l < 64 → Goes s (w.thread l) (w'.thread l) ∧ SameRegs (w.thread l) (w'.thread l)) ∧
            (∀ d, d ≠ c → d ≠ ⟨c.team, next⟩ → t.crew? d = s.crew? d) ∧
            ∀ l, l < 64 → next ≠ c.crew → let a := s.thread ⟨c.team, next, l⟩
              t.thread ⟨c.team, next, l⟩ = if a.wait = .baton then a.wakeAt (s.cycle + 1) else a) ∧
        (tm.array = none → traps (.batonPass f)))

/-! ## Memory (R131 to R134, R307 to R316) -/

/-- R307 to R309 with R51: an aligned load of one thread, in bounds and translated, leaves its value outstanding for its
destination: at the global level the bytes that the core sees, or of an uncommitted task its own stores, after a fill where
the policy allocates and the cache has room; at the other levels the bytes that stand there. An ordered load is also an
acquire. R135: a load waits for bytes that an engine has yet to write; R443: one that meets an uncorrectable error in memory
goes on and traps at the thread's next issue. What in it the model chose: assumptions 64, 75. -/
def Obligations.LoadsTakeTheirBytes : Prop :=
  ∀ (f : MemF) (s : State) (c : CRef) (w : Crew) (l : Nat),
    let r : TRef := ⟨c.team, c.crew, l⟩
    let n := widthBytes f.z
    let core := s.teamCore c.team
    let ctx := s.teamCtx c.team
    let done := fun (x : State) =>
      if f.r then acquire { x with serial := x.serial + 1 } c else { x with serial := x.serial + 1 }
    let loads := fun (i : Instr) (bs : List Byte) (x : State) => OneThread i s c w l (done x) fun a b =>
      Goes s a b ∧ Awaits a b x.serial f.d (loadWords f.z bs)
    (∀ s1 pa, let ea := effAddr (w.thread l) .glob f.a f.z f.i
      One (.ld f) s c w l → accessCode .glob ea n (2 ^ 52) = none →
      translate s (.core core) ctx ea (w.thread l).sup .read = (s1, .ok pa) →
      let policy := (w.thread l).policy
      let hit := s1.l1Hit core pa n
      let room := loadRoom s1 core pa n policy
      let x := (l1Load room.1 core ctx ea pa n room.2).2
      let y := if room.2 && policy = 1 then l1Soon x core pa else x
      (hit = true ∨ (s1.isBusy .phys pa n = false ∧ s1.deadRange pa n = false) →
        loads (.ld f) (y.overlay c.team .phys pa ((upto n).map fun i => room.1.seenByte core (pa + i))) (noteForeign y pa n)) ∧
      (hit = false → s1.isBusy .phys pa n = true → exec (.ld f) s = .next { s1 with cur := Group.none }) ∧
      (hit = false → s1.isBusy .phys pa n = false → s1.deadRange pa n = true → OneThread (.ld f) s c w l s1 fun a b =>
        Goes s a b ∧ SameRegs a b ∧ b.out = a.out ∧ ∃ k, b.late = some k ∧ k.cls = 12 ∧ k.code = 1 ∧ k.addr = ea)) ∧
    (One (.ldl f) s c w l → accessCode .lane (effAddr (w.thread l) .lane f.a f.z f.i) n (s.levelSize r .lane) = none →
      loads (.ldl f) (Mem.bytes (w.thread l).lane (effAddr (w.thread l) .lane f.a f.z f.i).toNat n) s) ∧
    ∀ x ∈ [(Instr.lds f, Level.scr), (.ldc f, .clu), (.ldx f, .chip)],
      let ea := effAddr (w.thread l) x.2 f.a f.z f.i
      let p := s.levelPlace r x.2
      One x.1 s c w l → accessCode x.2 ea n (s.levelSize r x.2) = none →
        (s.isBusy p ea.toNat n = false → loads x.1 (s.overlay c.team p ea.toNat (Mem.bytes (s.placeMem p) ea.toNat n)) s) ∧
        (s.isBusy p ea.toNat n = true → Waits x.1 s)

/-- R309: what a load of each width makes of its bytes, and a store of its registers; R315: the new value of
each atomic operation, for values and operands of its access size. -/
def Obligations.ValuesOfLoadsStoresAndAtomics : Prop :=
  (∀ (a b c d : Word) (t : Thread) (r : Reg6), t.reg r = a → t.reg (r + 1) = b → t.reg (r + 2) = c → t.reg (r + 3) = d →
    storeBytes t r 0 = leBytes 1 a.toNat ∧ storeBytes t r 1 = leBytes 2 a.toNat ∧ storeBytes t r 2 = leBytes 4 a.toNat ∧
    loadWords 0 (storeBytes t r 0) = [a &&& 0xFF] ∧ loadWords 1 (storeBytes t r 1) = [a &&& 0xFFFF] ∧
    loadWords 5 (storeBytes t r 0) = [(a.setWidth 8).signExtend 32] ∧
    loadWords 6 (storeBytes t r 1) = [(a.setWidth 16).signExtend 32] ∧ loadWords 2 (storeBytes t r 2) = [a] ∧
    loadWords 3 (storeBytes t r 3) = [a, b] ∧ loadWords 4 (storeBytes t r 4) = [a, b, c, d] ∧
    ∀ z : BitVec 3, z.toNat ≤ 4 → (storeBytes t r z).length = widthBytes z) ∧
  ∀ (o x y : Word) (o2 x2 y2 : DWord),
    atomNew 0 o.toNat x.toNat 0 = (o + x).toNat ∧ atomNew 1 o2.toNat x2.toNat 0 = (o2 + x2).toNat ∧
    atomNew 4 o.toNat x.toNat 0 = (if x.toInt ≤ o.toInt then x else o).toNat ∧
    atomNew 5 o.toNat x.toNat 0 = (if o.toInt ≤ x.toInt then x else o).toNat ∧
    atomNew 6 o.toNat x.toNat 0 = min x.toNat o.toNat ∧ atomNew 7 o.toNat x.toNat 0 = max x.toNat o.toNat ∧
    atomNew 10 o.toNat x.toNat 0 = (o &&& x).toNat ∧ atomNew 11 o.toNat x.toNat 0 = (o ||| x).toNat ∧
    atomNew 12 o.toNat x.toNat 0 = (o ^^^ x).toNat ∧ atomNew 13 o.toNat x.toNat 0 = x.toNat ∧
    atomNew 14 o.toNat x.toNat y.toNat = (if o = x then y else o).toNat ∧
    atomNew 15 o2.toNat x2.toNat y2.toNat = (if o2 = x2 then y2 else o2).toNat ∧
    atomNew 2 o.toNat x.toNat 0 = Fmt.f32.add 0 false o.toNat x.toNat ∧
    atomNew 3 o2.toNat x2.toNat 0 = Fmt.f64.add 0 false o2.toNat x2.toNat ∧
    atomNew 8 o.toNat x.toNat 0 = Fmt.f32.minMax false o.toNat x.toNat ∧
    atomNew 9 o.toNat x.toNat 0 = Fmt.f32.minMax true o.toNat x.toNat

/-- R131 and R308: a plain store at the global level under an allocating policy writes its bytes as the core sees them, after
an eviction where its set is full, leaves every other byte as every core sees it, and registers nothing at home; of an
uncommitted task it enters the write buffer. Of an ordered store, and under a policy that does not allocate, where nothing
makes it wait, the bytes reach their home and no other byte does. What in it the model chose: assumptions 64, 75. -/
def Obligations.GlobalStores : Prop :=
  ∀ (f : MemF) (s : State) (c : CRef) (w : Crew) (l pa : Nat) (s1 : State),
    let ea := effAddr (w.thread l) .glob f.a f.z f.i
    let n := widthBytes f.z
    let core := s.teamCore c.team
    let r : TRef := ⟨c.team, c.crew, l⟩
    let bs := storeBytes (w.thread l) f.d f.z
    One (.st f) s c w l → f.z.toNat ≤ 4 → accessCode .glob ea n (2 ^ 52) = none →
    translate s (.core core) (s.teamCtx c.team) ea (w.thread l).sup .write = (s1, .ok pa) → pa % 16 = ea.toNat % 16 →
    (∀ s2, (w.thread l).policy < 2 → f.r = false → s.buffering c.team = none → makeRoom s1 core pa = (s2, true) →
      let u := logStore (.st f) s2 r .glob ea bs
      ∃ l1, OneThread (.st f) s c w l (noteForeign { u with l1 := l1 } pa n) (fun a b => Goes s a b ∧ SameRegs a b) ∧
        ∀ core' a, ({ u with l1 := l1 } : State).seenByte core' a =
          if core' = core ∧ pa ≤ a ∧ a < pa + n then bs.getD (a - pa) 0 else u.seenByte core' a) ∧
    (∀ k k', (w.thread l).policy < 2 → f.r = false → s1.buffering c.team = some k → hasTaint (.st f) (w.thread l) = false →
      s1.logFull r 0 = false → k.store? .phys pa ea (w.thread l).sup (s1.pageSize (.core core) (s.teamCtx c.team) ea) bs = some k' →
      OneThread (.st f) s c w l (s1.setTask c.team fun _ => k') fun a b => Goes s a b ∧ SameRegs a b) ∧
    (2 ≤ (w.thread l).policy ∨ (f.r = true ∧ HasRoom s core pa) → s1 = s → Quiet s c w → hasTaint (.st f) (w.thread l) = false →
      s.dead pa = false → 0x100000 ≤ pa → Mem.wf s.mem = true →
      (∀ x ∈ s.l1, x.pa / 4 < pa / 4 ∨ (pa + n + 3) / 4 ≤ x.pa / 4) →
      ∃ u, OneThread (.st f) s c w l u (fun a b => Goes s a b ∧ SameRegs a b) ∧ u.crews = s.crews ∧
        (∀ x ∈ u.launches, ∃ y ∈ s.launches, x.1 = y.1 ∧ x.2 = { y.2 with atomsRaced := x.2.atomsRaced }) ∧
        u = { s with l1 := u.l1, l2 := u.l2, mem := u.mem, launches := u.launches, poison := u.poison, fresh := u.fresh } ∧ Mem.wf u.mem = true ∧ ∀ a, u.homeByte a =
          if pa ≤ a ∧ a < pa + n then bs.getD (a - pa) 0 else s.homeByte a)

/-- R308 and R309: a store at an explicit level writes its bytes at its effective address there and nowhere else, or, of an
uncommitted task at the shared levels, in the write buffer (R44); it waits for a sector that an engine has yet to write. A
store to lane-private memory changes that of its thread only. -/
def Obligations.LevelStores : Prop :=
  ∀ (f : MemF) (s : State) (c : CRef) (w : Crew) (l : Nat),
    let r : TRef := ⟨c.team, c.crew, l⟩
    let n := widthBytes f.z
    let t := w.thread l
    let bs := storeBytes t f.d f.z
    f.z.toNat ≤ 4 →
    (∀ u, One (.stl f) s c w l → accessCode .lane (effAddr t .lane f.a f.z f.i) n (s.levelSize r .lane) = none →
      hasTaint (.stl f) t = false → Mem.wf t.lane = true → s.logFull r 0 = false → Fenced s c u →
      OneThread (.stl f) s c w l u fun a b =>
        SameRegs a b ∧ b.pc = a.pc + s.cur.len ∧ b.wait = a.wait ∧ Mem.wf b.lane = true ∧
        let ea := (effAddr t .lane f.a f.z f.i).toNat
        ∀ x, Mem.read b.lane x = if ea ≤ x ∧ x < ea + n then bs.getD (x - ea) 0 else Mem.read a.lane x) ∧
    ∀ x ∈ [(Instr.sts f, Level.scr), (.stc f, .clu), (.stx f, .chip)], ∀ v,
      let ea := effAddr t x.2 f.a f.z f.i
      let p := v.levelPlace r x.2
      One x.1 s c w l → accessCode x.2 ea n (s.levelSize r x.2) = none → hasTaint x.1 t = false →
      s.logFull r 0 = false → Fenced s c v → Mem.wf (v.placeMem p) = true →
      let u := v.setPlace p fun m => Mem.writeBytes m ea.toNat bs
      (x.2 = .scr ∨ v.buffering c.team = none →
        (v.isBusy p ea.toNat n = true → exec x.1 s = .next { v with cur := Group.none }) ∧
        (v.isBusy p ea.toNat n = false → OneThread x.1 s c w l u (fun a b => Goes s a b ∧ SameRegs a b))) ∧
      (∀ k k', x.2 ≠ .scr → v.buffering c.team = some k → k.store? p ea.toNat ea t.sup
          (v.pageSize (.core (v.teamCore c.team)) (v.teamCtx c.team) ea) bs = some k' →
        OneThread x.1 s c w l (v.setTask c.team fun _ => k') fun a b => Goes s a b ∧ SameRegs a b) ∧
      u.mem = v.mem ∧ Mem.wf (u.placeMem p) = true ∧
        (∀ a, Mem.read (u.placeMem p) a = if ea.toNat ≤ a ∧ a < ea.toNat + n then bs.getD (a - ea.toNat) 0
          else Mem.read (v.placeMem p) a) ∧ ∀ q, q ≠ p → (∀ x, q ≠ .task x) → u.placeMem q = v.placeMem q

/-- R418 codes 1 to 3: an access whose effective address is not a multiple of its size, reaches beyond its level's allocation, or
has a global address of 2^52 or more traps without effect, the detail naming the base register; the lowest code is
raised. R312: a prefetch never traps and writes no register, and no memory unless a dirty line is evicted for it; where
target and policy ask for it, its address translates, no engine has claimed a word of its sector and a line can leave, the
sector is then in the core's L1. -/
def Obligations.RefusedAccessesAndPrefetch : Prop :=
  (∀ (f : MemF) (s : State) (c : CRef) (w : Crew) (l : Nat) (x : Instr × Level),
    x ∈ [(Instr.ld f, Level.glob), (.ldl f, .lane), (.lds f, .scr), (.ldc f, .clu), (.ldx f, .chip), (.st f, .glob),
      (.stl f, .lane), (.sts f, .scr), (.stc f, .clu), (.stx f, .chip)] → One x.1 s c w l →
    let ea := effAddr (w.thread l) x.2 f.a f.z f.i
    let n := widthBytes f.z
    let traps := fun k => Traps x.1 s c l { cls := 5, code := k, detail := f.a.toNat, addr := ea }
    (ea.toNat % n ≠ 0 → traps 1) ∧
    (x.2 ≠ .glob → ea.toNat % n = 0 → s.levelSize ⟨c.team, c.crew, l⟩ x.2 < ea.toNat + n → traps 2) ∧
    (x.2 = .glob → ea.toNat % n = 0 → 2 ^ 52 ≤ ea.toNat → traps 3)) ∧
  ∀ (f : PrefF) (s : State) (c : CRef) (w : Crew) (l : Nat), One (.pref f) s c w l →
    let ea := effAddr (w.thread l) .glob f.a f.z f.i
    let core := s.teamCore c.team
    let ctx := s.teamCtx c.team
    ∃ u, OneThread (.pref f) s c w l u (fun a b => Goes s a b ∧ SameRegs a b) ∧
      ((w.thread l).policy = 3 ∨ 2 ^ 52 ≤ ea.toNat → u = s) ∧
      ((∀ s1 pa, translate s (.core core) ctx ea (w.thread l).sup .read = (s1, .ok pa) →
          f.t = 1 ∨ 2 ≤ (w.thread l).policy ∨ HasRoom s1 core pa) →
        u = { s with l1 := u.l1, l2 := u.l2, poison := u.poison, tlb := u.tlb, fresh := u.fresh }) ∧
      ∀ s1 s2 pa, (w.thread l).policy < 2 → ea.toNat < 2 ^ 52 → f.t = 0 →
        translate s (.core core) ctx ea (w.thread l).sup .read = (s1, .ok pa) → s1.dead pa = false →
        makeRoom s1 core pa = (s2, true) → s2.isBusy .phys (pa / 64 * 64) 64 = false →
        u.l1Hit core (pa / 64 * 64) 64 = true

/-- R314 to R316 and R123: an atomic of one thread replaces the value of its word by what the table makes of it and its operand,
and gives `ATOM` the old value. At the global level the word takes its new value at its home, or dirty in the core's L1, as the
contention predictor says, and no other byte of memory changes; at an explicit level its bytes stand there and no
others change. -/
def Obligations.Atomics : Prop :=
  ∀ (s : State) (c : CRef) (w : Crew) (l : Nat),
    let r : TRef := ⟨c.team, c.crew, l⟩
    let t := w.thread l
    let core := s.teamCore c.team
    let local_ := fun (i : Instr) (d a b : Reg6) (p : BitVec 4) (ret : Bool) (lv : Level) =>
      let ea : DWord := (t.reg a).setWidth 64
      let n := atomSize p
      let pl := s.levelPlace r lv
      let old := s.placeN pl ea.toNat n
      let op := atomOperands t p b
      One i s c w l → accessCode lv ea n (s.levelSize r lv) = none → s.isDet c.team = false → hasTaint i t = false →
      s.isBusy pl ea.toNat n = false → w.fence = none → s.buffering c.team = none →
      ∃ u, OneThread i s c w l u (fun a b => Goes s a b ∧
            if ret then Awaits a b s.serial d (atomWords p old) else SameRegs a b) ∧ u.crews = s.crews ∧
        u.placeMem pl = Mem.writeBytes (s.placeMem pl) ea.toNat (leBytes n (atomNew p old op.1 op.2)) ∧
        u.mem = s.mem ∧ ∀ q, q ≠ pl → (∀ x, q ≠ .task x) → u.placeMem q = s.placeMem q
    let global := fun (i : Instr) (d a b : Reg6) (p : BitVec 4) (ret : Bool) =>
      ∀ pa, let ea := t.pair a
      let n := atomSize p
      let atHome := (predict s core pa).2
      let old := if atHome = false ∧ s.ownsWords core pa n = true then s.seenN core pa n else s.homeN pa n
      let op := atomOperands t p b
      let new := atomNew p old op.1 op.2
      One i s c w l → Quiet s c w → accessCode .glob ea n (2 ^ 52) = none → s.isDet c.team = false → hasTaint i t = false →
      translate s (.core core) (s.teamCtx c.team) ea t.sup .write = (s, .ok pa) → pa % 16 = ea.toNat % 16 →
      s.deadRange pa n = false → 0x100000 ≤ pa → Mem.wf s.mem = true →
      (∀ x ∈ s.l1, x.pa / 4 ∈ (wordsTouched pa n).map (· / 4) → x.dirty = 0) → HasRoom s core pa →
      ∃ u, OneThread i s c w l u (fun a b => Goes s a b ∧
            if ret then Awaits a b s.serial d (atomWords p old) else SameRegs a b) ∧ u.crews = s.crews ∧
        ((upto n).map fun k => u.seenByte core (pa + k)) = leBytes n new ∧
        u.mem = (if atHome then Mem.writeBytes s.mem pa (leBytes n new) else s.mem) ∧ u.teams = s.teams ∧ u.clu = s.clu ∧
        u.chip = s.chip
    (∀ f : AtF, global (.atom f) f.d f.a f.b f.p true) ∧ (∀ f : RedF, global (.red f) 0 f.a f.b f.p false) ∧
    (∀ f : AtX, local_ (.atoms f) f.d f.a f.b f.p true .scr ∧ local_ (.atomc f) f.d f.a f.b f.p true .clu ∧
      local_ (.atomx f) f.d f.a f.b f.p true .chip) ∧
    ∀ f : RedX, local_ (.reds f) 0 f.a f.b f.p false .scr ∧ local_ (.redc f) 0 f.a f.b f.p false .clu ∧
      local_ (.redx f) 0 f.a f.b f.p false .chip

/-! ## Copies, the matrix array and solve regions (R113 to R122, R143 to R177, R326 to R343) -/

/-- R116 to R121 and R326 to R330: a copy, gather or scatter whose record is read and that nothing of R333 refuses enters the
class queue of its cluster, in the order of its issue, with the operands its registers name: after the early commit of its
thread's task where its destination asks for one (R45), a release, and the fetch of its index list, which waits for engines; the
words it will write are recalled, and a tainted one is logged first, where the log has room (R461). Its
tag bit is cleared, or its transaction barrier counts the sectors it will write, for which there must be room (R120); no
register changes. What in it the model chose: assumptions 10, 41. -/
def Obligations.CopiesEnterTheirQueue : Prop :=
  ∀ (f : R3) (s s1 s2 s4 : State) (c : CRef) (w : Crew) (l : Nat) (b : List Byte) (ix : List Nat) (x : Instr × CopyKind),
    x ∈ [(Instr.cpy f, CopyKind.cpy), (.cpyg f, .cpyg), (.cpys f, .cpys)] →
    let r : TRef := ⟨c.team, c.crew, l⟩
    let o := copyOps x.2 f (w.thread l)
    let lay := Layout.ofBytes b
    let s3 := release s2 c (s2.thread r).pc (laneBit l)
    let cp := copyOf { s4 with serial := s4.serial + 1 } r o lay ix s4.serial
    let tainted := o.tainted x.1 f lay (w.thread l)
    let z := logEngine { s4 with serial := s4.serial + 1 } r tainted (if cp.toTensor then lay.space else o.level)
      (if cp.toTensor then lay.base else BitVec.ofNat 64 cp.denseOff)
    let u := enqueueCopy z r cp
    One x.1 s c w l → readRecord s r o = .got s1 b → copyCodes s1 r f o (some lay) = [] →
    (if o.commits lay then Committed s1 r s2 else s2 = s1 ∧ s1.logFull r (if tainted then 1 else 0) = false) →
    s1.relBlocked c = false → s2.relBlocked c = false →
    listBusy s3 r o = false → readList s3 r o = (s4, .ok ix) →
    (x.2 = .cpy ∨ boxBeyond s1 c.team lay (copyRuns x.2 lay o.toTensor o.origin ix) = false) →
    s4.recallBlocked (markedWords cp.marks) none = false →
    (o.onBarrier (some lay) = true → barrierCopies s4 c.team < Config.barrierCopies ∧
      (s4.tbar (s4.spacePlace c.team 2) o.barrier).sectors + markCount cp.marks < 2 ^ 28) →
    OneThread x.1 s c w l u (fun a b => Goes s a b ∧ SameRegs a b) ∧
    cp.kind = x.2 ∧ cp.layout = lay ∧ cp.origin = o.origin ∧ cp.indices = ix ∧ cp.toTensor = o.toTensor ∧
      cp.dense = o.level ∧ cp.denseOff = o.denseOff ∧ cp.chunk = 0 ∧ cp.issuer = r ∧ cp.id = s4.serial ∧
    (let k := clusterOf (z.teamCore c.team)
      let q := z.teamClass c.team
      q < (z.cluster k).queues.length →
        (u.cluster k).queues.getD q [] = insertCopy cp ((z.cluster k).queues.getD q [])) ∧
    (o.onBarrier (some lay) = false → cp.tag = some o.tag ∧
      ((z.team? c.team).isSome → (u.tags c.team).getLsbD o.tag = false)) ∧
    (o.onBarrier (some lay) = true → let p := z.spacePlace c.team 2
      cp.tag = none ∧ (Mem.wf (z.placeMem p) = true → o.barrier + 16 ≤ z.placeSize p →
        (z.tbar p o.barrier).sectors + markCount cp.marks < 2 ^ 28 →
        (u.tbar p o.barrier).sectors = (z.tbar p o.barrier).sectors + markCount cp.marks))

/-- R119, R121 and R122: the engine of a cluster serves the chunk that the round-robin names, and does nothing where it names
none. After a chunk the copy goes on with the next, its written sectors taken off its barrier; when the last has been written the
copy leaves its queue, its tag bit is set or its barrier's count is lowered by all that was left; a chunk that fails ends the
copy, writes what stood before the failure, and leaves a fault pending on the team.
What in it the model chose: assumptions 14, 68, 81. -/
def Obligations.CopyService : Prop :=
  (∀ (s : State) (k : Nat), (pickCopy s (s.cluster k) 8).2 = none → exec (.copyChunk k) s = .next s) ∧
  ∀ (s : State) (k cls : Nat) (e : Cluster) (c : Copy), pickCopy s (s.cluster k) 8 = (e, some (cls, c)) →
    let x := planChunk (s.setCluster k fun _ => e) c c.groups
    let v := x.2.1.foldl (fun s w => writePieces s w.1 w.2) x.1
    let left := c.marks.filter fun m => c.chunk < m.1
    let lowers := fun (t : State) (n : Nat) => let p := v.spacePlace c.team 2
      c.tag = none → 0 < n → p ≠ .phys → c.barrier + 16 ≤ v.placeSize p → Mem.wf (v.placeMem p) = true →
        (t.tbar p c.barrier).sectors = (v.tbar p c.barrier).sectors - n ∧ (p, c.barrier) ∈ t.due.tbars
    (x.2.2 = none → c.chunk + 1 < c.chunks → Yields (.copyChunk k) s fun t => t.mem = v.mem ∧
      (t.cluster k).queues.getD cls [] = ((v.cluster k).queues.getD cls []).map (fun y =>
        if y.id = c.id then { y with chunk := y.chunk + 1, marks := left } else y) ∧
      lowers t (markCount c.marks - markCount left)) ∧
    (x.2.2 = none → c.chunks ≤ c.chunk + 1 → Yields (.copyChunk k) s fun t => t.mem = v.mem ∧
      (∀ q ∈ (t.cluster k).queues.getD cls [], q.id ≠ c.id) ∧ lowers t (markCount c.marks) ∧
      ∀ tag, c.tag = some tag → tag < 64 → (v.team? c.team).isSome → (t.tags c.team).getLsbD tag = true) ∧
    ∀ y, x.2.2 = some y → Yields (.copyChunk k) s fun t => t.mem = v.mem ∧
      (∀ q ∈ (t.cluster k).queues.getD cls [], q.id ≠ c.id) ∧
      (∀ tag, c.tag = some tag → tag < 64 → (v.team? c.team).isSome → (t.tags c.team).getLsbD tag = true) ∧
      ∀ tm, v.team? c.team = some tm → ∃ tm' d, t.team? c.team = some tm' ∧ d ∈ tm'.deferred ∧ d.pc = c.pc ∧
        d.deferred = true ∧ d.detected = s.time ∧ d.cls = if y.1.mem.isSome then 12 else 8

/-- R155, R156, R210, R211 and R334 to R341: an instruction of the array that nothing refuses, issued by the crew that holds the
baton, joins the queue of its team's array with the operands its registers name in the lowest lane whose guard is true; every
thread of the crew waits for it, and no register changes. A full queue makes it wait, and an array with a fault pending discards
it (R446). A store of a tile that tainted registers address or guard is logged first. Without the array, of a crew
without the baton, and with a reserved configuration it traps. What in it the model chose: assumption 41. -/
def Obligations.MatrixInstructionsQueue : Prop :=
  ∀ (s : State) (c : CRef) (w : Crew) (tm : Team) (l : Nat), s.team? c.team = some tm →
    let r : TRef := ⟨c.team, c.crew, l⟩
    let same := fun (w' : Crew) => w'.k = w.k ∧ w'.mask = w.mask
    let traps := fun (i : Instr) (k : Cause) => exec i s = .next (finishTraps (s.trapAll k))
    (∀ (m : Matrix), tm.array = some m → tm.baton = c.crew →
      let joins := fun (i : Instr) (op : MatOp) (issued : DWord) (z : State) =>
        Ready i s c w (BitVec.allOnes 64) → Leads i w l →
        (m.discard = false → Config.matrixQueue ≤ m.queue.length → Waits i s) ∧
        (m.discard = true → WholeCrew i s c w z same) ∧
        (m.discard = false → m.queue.length < Config.matrixQueue → ∃ e,
          WholeCrew i s c w (({ z with serial := z.serial + 1 } : State).setArray c.team fun m =>
            { m with queue := m.queue ++ [e], issued := issued }) (fun w' => same w' ∧
              ∀ n, n < 64 → (w'.thread n).out.length = (w.thread n).out.length + 1) ∧
          e.op = op ∧ e.id = z.serial ∧ e.cfg = m.issued ∧ e.crew = c.crew ∧ e.lane = l ∧ e.started = false ∧ e.stalled = false ∧
          e.sup = (w.thread l).sup ∧ e.cycle = s.cycle)
      let size := s.spaceSize c.team 1
      let fits := fun (a : Reg6) (n : Nat) => (w.kReg a).toNat % 256 = 0 ∧ (w.kReg a).toNat + n ≤ size
      let b := cfgModeB m.issued
      (∀ f : R1, cfgBad (w.kPair f.a) = false → joins (.tcfg f) (.tcfg (w.kPair f.a)) (w.kPair f.a) s) ∧
      (∀ f : Rab, let ctl := (w.kReg f.b).toNat
        fits f.a (blockBytes (bits ctl 2 0) 128 b) → bits ctl 2 0 ≠ 7 → bits ctl 31 9 = 0 → (b = true ∨ bits ctl 8 3 = 0) →
        joins (.wld f) (.wld (w.kReg f.a).toNat (w.kReg f.b) (w.kReg (f.b + 1))) m.issued s) ∧
      (∀ f : R0, joins (.wswap f) .wswap m.issued s) ∧
      (∀ f : R3, let ctl := (w.kReg f.b).toNat
        fits f.a (blockBytes (bits ctl 2 0) (cfgRows m.issued) b) → bits ctl 2 0 ≠ 7 → bits ctl 31 14 = 0 →
        (b = true ∨ bits ctl 13 8 = 0) → 128 * bits ctl 7 3 < cfgDepth m.issued →
        joins (.mms f) (.mms f.d.toNat (w.kReg f.a).toNat (w.kReg f.b) (w.kReg (f.b + 1))) m.issued s) ∧
      (∀ (f : R3) (z : State), fits f.a (astExtent (cfgRows m.issued) (cfgCols m.issued) f.b.toNat) →
        (matBfp f.b.toNat = false ∨ cfgCols m.issued % 32 = 0) →
        (if w.taintK.getLsbD f.a.toNat || (upto 64).any (fun n => hasTaint (.ast f) (w.thread n)) then s.logFull r 1 = false ∧
          z = logEscape { s with fresh := s.fresh + 1 } r 1 s.takeFree.1 (BitVec.ofNat 64 (w.kReg f.a).toNat) else z = s) →
        joins (.ast f) (.ast f.d.toNat (w.kReg f.a).toNat f.b.toNat (w.thread l).mode (w.thread l).satur) m.issued z) ∧
      (∀ f : R2, fits f.a (4 * cfgRows m.issued * cfgCols m.issued) →
        joins (.ald f) (.ald f.d.toNat (w.kReg f.a).toNat) m.issued s) ∧
      (∀ f : Rd, joins (.azero f) (.azero f.d.toNat) m.issued s) ∧
      (∀ f : R3, (w.kPair f.b).toNat % 64 = 0 → (w.kPair f.b).toNat < 2 ^ 52 →
        joins (.scld f) (.scld f.d.toNat (w.kReg f.a) (w.kPair f.b)) m.issued s) ∧
      ∀ f : R1, cfgBad (w.kPair f.a) = true → Ready (.tcfg f) s c w (BitVec.allOnes 64) → Leads (.tcfg f) w l →
        traps (.tcfg f) { cls := 5, code := 10, detail := f.a.toNat }) ∧
    ∀ i : Instr, (∃ f, i = .wswap f) ∨ (∃ f, i = .azero f) → Ready i s c w (BitVec.allOnes 64) → Leads i w l →
      (tm.array = none → traps i { cls := 5, code := 7 }) ∧
      (tm.array.isSome → tm.baton ≠ c.crew → traps i { cls := 5, code := 6 })

/-- R143 to R157 and R336 to R341: an instruction of the array starts and completes only where the order allows it; a pass that
starts works on the active plane, and stalls while the scale cache lacks an exponent it needs. What each does when it completes:
it leaves the queue; `TCFG` sets the configuration and clears the tiles, `WLD` fills the shadow plane, `WSWAP` exchanges the
planes, `AZERO` clears a tile, `ALD` loads one, `AST` writes one to the scratchpad, `SCLD` binds a table, and a pass adds its
chunk to each element. R443, R445, R446: an uncorrectable error, a block outside its table and a table that cannot be read leave a
fault pending and change no element. R150: a stalled pass reads the line of the first exponent block it lacks from the table
bound to its tensor, once no earlier engine work has still to write it (R135), and the line enters the scale cache; a line that has
entered since it takes from there. What in it the model chose: assumptions 12, 36, 68, 82. -/
def Obligations.MatrixEffects : Prop :=
  (∀ (s : State) (team : Nat) (m : Matrix) (i : MatInstr), s.array? team = some m →
    (m.queue.find? fun x => x.id == i.id) = some i →
    (m.startable i = false → exec (.matrixInstructionStart team i.id) s = .next s) ∧
    (m.startable i = true → i.op.isMms = false → ∃ t m', exec (.matrixInstructionStart team i.id) s = .next t ∧
      t.array? team = some m' ∧ (m'.queue.find? fun x => x.id == i.id).map (·.started) = some true ∧ m'.tiles = m.tiles ∧
      t = { s with teams := t.teams }) ∧
    (∀ tile off ctl base, m.startable i = true → i.op = .mms tile off ctl base →
      let need := neededBlocks i.cfg m.act ctl base
      (outOfTable m need = none → ∃ t m' j, exec (.matrixInstructionStart team i.id) s = .next t ∧ t.array? team = some m' ∧
        (m'.queue.find? fun x => x.id == i.id) = some j ∧ j.plane = m.act ∧ (j.started = true ↔ j.stalled = false) ∧
        (need = [] → j.started = true) ∧ m'.tiles = m.tiles ∧ t = { s with teams := t.teams, scales := t.scales }) ∧
      (outOfTable m need ≠ none → ∃ t m', exec (.matrixInstructionStart team i.id) s = .next t ∧ Pends t team 8 0x10 ∧
        t.array? team = some m' ∧ m'.discard = true ∧ m'.tiles = m.tiles ∧ t.mem = s.mem)) ∧
    (completable s team m i = false → exec (.matrixInstructionComplete team i.id) s = .next s) ∧
    (completable s team m i = true → i.spoilt s team = true → ∃ t m', exec (.matrixInstructionComplete team i.id) s = .next t ∧
      Pends t team 12 5 ∧ t.array? team = some m' ∧ m'.tiles = m.tiles ∧ (∀ x ∈ m'.queue, x.id ≠ i.id) ∧ t.mem = s.mem) ∧
    (completable s team m i = true → i.spoilt s team = false → m.tiles.length = 4 →
      ∃ t m', exec (.matrixInstructionComplete team i.id) s = .next t ∧ t.array? team = some m' ∧
        m'.queue = m.queue.filter (fun x => !([i.id].contains x.id)) ∧ t.mem = s.mem ∧
        (∀ b, i.op = .tcfg b → m'.config = b ∧ m'.tiles = [[], [], [], []] ∧ m'.act = m.act ∧ m'.shd = m.shd) ∧
        (i.op = .wswap → m'.act = m.shd ∧ m'.shd = m.act ∧ m'.tiles = m.tiles) ∧
        (∀ off ctl base, i.op = .wld off ctl base → m'.shd = planeOf ctl base (cfgModeB i.cfg)
          (s.placeBytes (.scratch team) off (blockBytes (bits ctl.toNat 2 0) 128 (cfgModeB i.cfg))) ∧
          m'.act = m.act ∧ m'.tiles = m.tiles) ∧
        (∀ k, i.op = .azero k → k < 4 → ∀ r n, tileGet (m'.tile k) r n = 0) ∧
        (∀ k off, i.op = .ald k off → k < 4 → ∀ r n, n < 128 → tileGet (m'.tile k) r n =
          if r < cfgRows i.cfg ∧ n < cfgCols i.cfg then
            BitVec.ofNat 32 (leNat (s.placeBytes (.scratch team) (off + 4 * (r * cfgCols i.cfg + n)) 4))
          else tileGet (m.tile k) r n) ∧
        (∀ k off f mode sat, i.op = .ast k off f mode sat → m'.tiles = m.tiles ∧ t.placeMem (.scratch team) =
          Mem.writeBytes (s.placeMem (.scratch team)) off
            (tileBytes (m.tile k) (cfgRows i.cfg) (cfgCols i.cfg) f mode sat)) ∧
        (∀ k n a, i.op = .scld k n a → k < m.bindings.length → m'.bindings[k]? = some (a, n) ∧ m'.tiles = m.tiles) ∧
        ∀ k off ctl base, i.op = .mms k off ctl base → k < 4 → matBfp (bits ctl.toNat 2 0) = false →
          matBfp i.plane.format = false → bits ctl.toNat 2 0 ≠ 7 → ∀ r n, n < 128 →
          let fm := bits ctl.toNat 2 0
          let row := slotCodes fm (((s.placeBytes (.scratch team) i.extent.1 i.extent.2).drop (r * slotBytes fm)).take
            (slotBytes fm))
          tileGet (m'.tile k) r n =
            if r < cfgRows i.cfg ∧ n < cfgCols i.cfg then
              chunkAdd (tileGet (m.tile k) r n) ((upto (chunkDepth i.cfg (bits ctl.toNat 7 3))).map fun j =>
                (matValue fm 0 (row.getD j 0)).mul (matValue i.plane.format 0 (Tbl.atD i.plane.w (128 * n + j) 0)))
            else tileGet (m.tile k) r n)) ∧
  ∀ (s s1 : State) (team : Nat) (m : Matrix) (i : MatInstr) (tile off : Nat) (ctl base : Word) (b : Bool × Nat × Nat),
    s.array? team = some m → (m.queue.find? fun x => x.id == i.id && x.stalled) = some i →
    i.op = .mms tile off ctl base → missingBlock i (neededBlocks i.cfg i.plane ctl base) = some b →
    let line := b.2.2 / 64
    let read := engineRead s team i.sup .phys (m.table b.2.1 + 64 * line) 64
    ((scaleHit s (s.teamCore team) b.2.1 line).isSome = true →
      exec (.scaleCacheFill team i.id) s = .next (advancePass s team m i)) ∧
    (∀ bs, scaleHit s (s.teamCore team) b.2.1 line = none → i.lineBusy s team (m.table b.2.1 + 64 * line) = false →
      read = (s1, .ok bs) → s1.teams = s.teams →
      outOfTable m (neededBlocks i.cfg i.plane ctl base) = none →
      ∃ t m' j, exec (.scaleCacheFill team i.id) s = .next t ∧ t.array? team = some m' ∧
        (m'.queue.find? fun x => x.id == i.id) = some j ∧ ⟨b.2.1, line, bs⟩ ∈ j.lines ∧
        (j.started = true ↔ j.stalled = false) ∧ t.mem = s1.mem ∧ m'.tiles = m.tiles ∧
        ∃ x ∈ t.scales, x.core = s.teamCore team ∧ x.tensor = b.2.1 ∧ x.line = line ∧ x.bytes = bs) ∧
    (scaleHit s (s.teamCore team) b.2.1 line = none → i.lineBusy s team (m.table b.2.1 + 64 * line) = true →
      exec (.scaleCacheFill team i.id) s = .next s) ∧
    ∀ f, scaleHit s (s.teamCore team) b.2.1 line = none → i.lineBusy s team (m.table b.2.1 + 64 * line) = false →
      read = (s1, .error f) → s1.teams = s.teams →
      Yields (.scaleCacheFill team i.id) s fun t => Pends t team (if f.mem.isSome then 12 else 8) (if f.mem.isSome then 5 else 0x11) ∧
        t.mem = s1.mem

/-- R163, R169 and R343: a `SOLVE` or `SOLEND` that nothing refuses is a release and makes every thread of its crew wait at the
region barrier, its registers as before; it waits while the release cannot complete. R420: one that is refused traps in every
lane with the first code of the rule's order. R211: where the block's offset is tainted, or the guard or the control of a thread, the
entry that the step will append goes with the wait, and a task's log has room for it; its value and its lane are the model's choice
(assumption 41). -/
def Obligations.RegionArrival : Prop :=
  ∀ (s : State) (c : CRef) (w : Crew) (i : Instr) (isEnd : Bool) (k : Reg6),
    ((∃ f : Rsa, i = .solve f ∧ isEnd = false ∧ k = f.a) ∨ (∃ f : Rs, i = .solend f ∧ isEnd = true ∧ k = 0)) →
    Ready i s c w (BitVec.allOnes 64) →
    let refused := solveCode s c isEnd s.cur.pc (if isEnd then none else findEnd s ⟨c.team, c.crew, 0⟩ s.cur.pc.toNat)
    let x := regionEntry i k isEnd s c
    let u := release x.1 c s.cur.pc (BitVec.allOnes 64)
    let tainted := (isEnd = false ∧ w.taintK.getLsbD k.toNat = true) ∨ ∃ l, l < 64 ∧ hasTaint i (w.thread l) = true
    (¬ tainted → x = (s, none)) ∧
    (tainted → x.1 = { s with fresh := s.fresh + 1 } ∧ ∃ e, x.2 = some e ∧ e.kind = 1 ∧ e.time = s.time ∧
      e.addr = BitVec.ofNat 64 (if isEnd then (s.solve c.team).block else (w.kReg k).toNat)) ∧
    (refused = none → s.logFull ⟨c.team, c.crew, 0⟩ x.2.toList.length = false → s.relBlocked c = false →
      ∃ t w', exec i s = .next t ∧ t = { u with crews := t.crews, cur := Group.none } ∧ t.crew? c = some w' ∧
        (∀ d, d ≠ c → t.crew? d = u.crew? d) ∧ w'.k = w.k ∧ w'.mask = w.mask ∧ w'.retired = w.retired + 1 ∧
        ∀ l, l < 64 → SameRegs (w.thread l) (w'.thread l) ∧ (w'.thread l).pc = (w.thread l).pc + s.cur.len ∧
          (w'.thread l).wait = .region isEnd k s.cur.pc (w.thread l).chainStart x.2) ∧
    (refused = none → s.logFull ⟨c.team, c.crew, 0⟩ x.2.toList.length = false → s.relBlocked c = true →
      exec i s = .next { x.1 with cur := Group.none }) ∧
    ∀ code, refused = some code → exec i s = .next (finishTraps (s.trapAll { cls := 9, code := code }))

/-- R164 to R174, R177, R420, R449, R450 and R452: with every crew at the barrier, the step at `SOLVE` makes the region active with
its first pass before it, or refuses a block that breaks its conditions; the step at `SOLEND` computes the residual r of this
pass in binary64, ends the region when r is below the threshold, traps with code 0x10 where r is not finite, with code
0x12 at the last permitted pass, and otherwise sends every crew back to the region's start. A step that meets an uncorrectable
error in what it reads ends the region with status 6 and traps. No step runs before every crew stands at the barrier, nor
before one of the core's other teams that became ready earlier, nor while another engine has to write its bytes. The entries of
tainted arrivals are appended before a step writes (R211). What in it the model chose: assumptions 17, 18, 41, 84. -/
def Obligations.SolveSteps : Prop :=
  ∀ (s : State) (team crew : Nat) (k : Reg6) (pc : DWord) (tm : Team), s.team? team = some tm → s.traces = [] →
    Mem.wf tm.scratch = true →
    let z := s.solve team
    let e := logRegion s team
    let free := fun (t : State) => ∀ x ∈ s.liveCrews team, ∀ y l, t.crew? ⟨team, x⟩ = some y → l < 64 → (y.thread l).wait = .none
    (s.regionReady team false = none ∨ s.mixes team = false → exec (.solveStep team) s = .next s) ∧
    (s.regionReady team true = none ∨ s.mixes team = false ∨ solveBusy s team z = true → exec (.solendStep team) s = .next s) ∧
    (∀ w, s.mixes team = true → s.regionReady team false = some (crew, k, pc) → s.crew? ⟨team, crew⟩ = some w →
      let off := (w.kReg k).toNat
      s.spoilt (.scratch team) off 64 = false →
      (∀ b, solveBlock s team off = some b → solveBusy s team b = false → partSpoilt s team b [none] = false →
        ∃ t, exec (.solveStep team) s = .next t ∧ (t.solve team).active = true ∧ (t.solve team).k = 0 ∧
          (t.solve team).block = off ∧ (t.solve team).phase = z.phase + 1 ∧
          (t.solve team).startPc = (w.thread 0).pc ∧ t.mem = e.mem ∧ free t) ∧
      (∀ b, solveBlock s team off = some b → solveBusy s team b = true → exec (.solveStep team) s = .next s) ∧
      (solveBlock s team off = none →
        let u := releaseRegion s team none
        let v := (u.liveCrews team).foldl (fun s c => s.setCrew ⟨team, c⟩ fun w => { w with retired := w.retired - 1 }) u
        exec (.solveStep team) s = .next (enterTraps v ((s.regionStarts team).map fun x =>
          (x.1, { cls := 9, code := 4, addr := BitVec.ofNat 64 off, pc := pc, resume := some x.2 }))) ∧
        v.mem = s.mem ∧ free v ∧ v.solve team = z)) ∧
    (s.mixes team = true → s.regionReady team true = some (crew, k, pc) → solveBusy s team z = false →
      let y := solendStepOf e team
      let u := releaseRegion (y.1.setSolve team fun z => { z with phase := z.phase + 1 }) team none
      (∀ code, y.2 = .fault code → exec (.solendStep team) s = .next (trapRegion u team
        { cls := 9, code := code, addr := BitVec.ofNat 64 z.block, pc := pc }) ∧ (u.solve team).active = false ∧ free u) ∧
      (y.2 = .error → exec (.solendStep team) s = .next (trapRegion u team (stepError z.block pc)) ∧
        (u.solve team).active = false ∧ free u ∧ u.placeN (.scratch team) (z.block + 30) 2 = 6 ∧ u.mem = e.mem) ∧
      (partSpoilt e team z [some 0, none] = true → y.2 = .error) ∧
      (partSpoilt e team z [some 0, none] = false →
        let x := values z (readPart e team z (some 0))
        let f := subAll (values z (readPart e team z none)) x
        let r := Fmt.f64.sqrt 0 (orderedDot (f.zip f))
        let below := (Fmt.f64.val r).cmp (Fmt.f64.val z.thresh.toNat) = some .lt
        let finite := Fmt.f64.val r ≠ .nan ∧ Fmt.f64.val r ≠ .inf false
        (below → ∃ t, exec (.solendStep team) s = .next t ∧
          (t.solve team).active = false ∧ (t.solve team).k = z.k + 1 ∧ t.mem = e.mem ∧
          t.placeN (.scratch team) (z.block + 30) 2 = 1 ∧ t.placeN (.scratch team) (z.block + 56) 8 = r % 2 ^ 64 ∧
          ∀ x ∈ s.liveCrews team, ∀ y y' l, s.crew? ⟨team, x⟩ = some y → t.crew? ⟨team, x⟩ = some y' → l < 64 →
            (y'.thread l).wait = .none ∧ (y'.thread l).pc = (y.thread l).pc) ∧
        (¬ below → ¬ finite → y.2 = .fault 0x10) ∧
        (y.2 = .error → u.placeN (.scratch team) (z.block + 56) 8 = r % 2 ^ 64) ∧
        (¬ below → finite → z.k + 1 = z.ceil → y.2 = .fault 0x12) ∧
        (y.2 = .mixed → ∃ t, exec (.solendStep team) s = .next t ∧
          (t.solve team).k = z.k + 1 ∧ (t.solve team).active = z.active ∧ t.mem = e.mem ∧
          ∀ x ∈ s.liveCrews team, ∀ y' l, t.crew? ⟨team, x⟩ = some y' → l < 64 →
            (y'.thread l).wait = .none ∧ (y'.thread l).pc = z.startPc) ∧
        (¬ below → finite → z.k + 1 ≠ z.ceil → z.depth = 0 ∨ z.k = 0 → y.2 = .mixed ∨ y.2 = .fault 0x11)))

/-! ## The fabric (R178 to R197, R344 to R349, R453 to R458) -/

/-- R184, R211 and R344 to R349: a sending instruction that nothing refuses hands one message with its operands to an interface of its
die, after the early commit of its task, its release, which a get does not make, and the read of its payload; its registers are
as before, and it waits for the registers of a reply where one comes. What the rules refuse traps in the order of R412. `WAITQ`
arms with the last wave whose request reached the module, once the crew's earlier sends are counted.
What in it the model chose: assumptions 21, 22. -/
def Obligations.FabricInstructions : Prop :=
  ∀ (s : State) (c : CRef) (w : Crew) (l : Nat) (tm : Team) (id : Nat) (la : Launch), s.team? c.team = some tm →
    s.teamLaunch? c.team = some (id, la) →
    let r : TRef := ⟨c.team, c.crew, l⟩
    let t := w.thread l
    let sends := fun (i : Instr) (f : SendF) (allowed : Prop) =>
      One i s c w l →
      (∀ k b, f.encoding t = some (k, b) → Traps i s c l { cls := 2, code := k, detail := b }) ∧
      (∀ x, f.encoding t = none → lowestCode (sendCodes s r f) = some x →
        Traps i s c l { cls := 5, code := x.1, detail := x.2.1, addr := BitVec.ofNat 64 x.2.2 }) ∧
      (f.encoding t = none → sendCodes s r f = [] → allowed → s.buffering c.team = none → s.relBlocked c = true → f.cls ≠ 2 →
        Waits i s) ∧
      ∀ s1 s3 j e ws, f.encoding t = none → sendCodes s r f = [] → allowed → s.job? la.job = some j →
        j.route? (t.reg f.a) = some e → Committed s r s1 →
        f.cls = 2 ∨ s1.relBlocked c = false →
        let s2 := if f.cls = 2 then s1 else release s1 c t.pc (laneBit l)
        let p := if f.global t then Place.phys else .scratch c.team
        (if f.cls ≤ 1 then sourceBusy s2 c.team t.sup p (f.payload t).toNat (4 * f.length t) = false ∧
            ∃ bs, engineRead s2 c.team t.sup p (f.payload t).toNat (4 * f.length t) = (s3, .ok bs) ∧ ws = wordsOf bs
          else s3 = s2 ∧ ws = if f.cls = 3 then atomPayload t (f.op t) f.b else []) →
        let z := logSend i s3 r f ws
        ∃ x, OneThread i s c w l { z with fresh := z.fresh + 1, serial := z.serial + 1
                                          fabric := { z.fabric with sent := z.fabric.sent ++ [x] } } (fun a b =>
            Goes s a b ∧ SameRegs a b ∧ b.out.length = a.out.length + (if f.results t = 0 then 0 else 1) ∧
            (f.results t ≠ 0 → b.out[a.out.length]?.map (·.id) = some z.serial)) ∧
          x.msg = { cls := f.cls, job := la.job, dest := t.reg f.a, sender := BitVec.ofNat 32 (la.rankBase + tm.index)
                    selector := if f.cls = 0 then BitVec.ofNat 8 (f.ctl t) else if f.cls = 3 then BitVec.ofNat 8 (f.op t).toNat else 0
                    length := if f.cls = 2 then f.length t else ws.length
                    address := if f.cls = 0 then 0 else f.remote t, timestamp := 0, payload := ws } ∧
          x.id = z.serial ∧ x.sender = some r ∧ x.destMod = e.modNum ∧ x.injected = false ∧
          (e.modNum = s.modl.number → x.iface / 24 = dieOf tm.core)
    (∀ (f : Rab), let sf : SendF := ⟨0, 0, f.a, f.b⟩
      sends (.msend f) sf (∃ e, handlerEntry s r (bits (sf.ctl t) 7 0) = .got e ∧ e ≠ 0) ∧
      (One (.msend f) s c w l → sf.encoding t = none → sendCodes s r sf = [] → handlerEntry s r (bits (sf.ctl t) 7 0) = .got 0 →
        Traps (.msend f) s c l { cls := 5, code := 15, detail := f.a.toNat })) ∧
    (∀ f : Rab, sends (.rput f) ⟨1, 0, f.a, f.b⟩ True) ∧
    (∀ f : R2, sends (.rget f) ⟨2, f.d, f.a, 0⟩ True) ∧
    (∀ f : R3, sends (.ratom f) ⟨3, f.d, f.a, f.b⟩ True) ∧
    ∀ f : Rd, One (.waitq f) s c w l →
      (∀ j, s.isDet c.team = false → la.job ≠ 0 → s.job? la.job = some j → w.unsent = 0 → OneThread (.waitq f) s c w l s fun a b =>
        SameRegs a b ∧ b.pc = a.pc + s.cur.len ∧
          b.wait = .quiet f.d (some (j.lastPass1, if j.reached = 0 then 0 else j.lastSums.l))) ∧
      (s.isDet c.team = false → la.job ≠ 0 → w.unsent ≠ 0 → Waits (.waitq f) s) ∧
      (s.isDet c.team = true → Traps (.waitq f) s c l { cls := 5, code := 12 }) ∧
      (s.isDet c.team = false → la.job = 0 → Traps (.waitq f) s c l { cls := 5, code := 13 })

/-- R181, R184, R186, R190 and R453 to R456, the sender's side: an interface accepts a message by the route table that is loaded
then, stamps it, counts it in I, and sends its first attempt; each further attempt and query comes 128 microseconds after the
last, and none before; an acknowledgement or answer ends them; a message nobody answers for is counted in L and settled once; a
loss or failure notice settles it or leaves its fault pending on the team. What in it the model chose: assumptions 23, 86. -/
def Obligations.FabricSenderEvents : Prop :=
  ∀ (s : State) (x : Sent), s.sentById x.id = some x → x.iface < 96 →
    (x.injected = true → exec (.messageInjection x.id) s = .next s) ∧
    (∀ s1 y, x.injected = false → s.routed x = (s1, y) → y.iface < 96 → (s.die (y.iface / 24)).inReset = false →
      s.sentSpoilt x = false →
      let n := s.fabric.seqs.getD y.iface 0
      let z := { y with msg := { y.msg with timestamp := BitVec.ofNat 64 s.time }, sequence := n, injected := true, attempts := 1,
                        lastAttempt := s.time }
      (∀ j e, s.job? x.msg.job = some j → j.route? x.msg.dest = some e → y.destMod = e.modNum) ∧
      Yields (.messageInjection x.id) s fun t =>
        t.sentById x.id = some z ∧ t.fabric.seqs.getD y.iface 0 = n + 1 ∧ t.mem = s.mem ∧
        (∀ k, k < 96 → countsOf t x.msg.job k = (countsOf s x.msg.job k).map fun q =>
          { q with i := if k = y.iface then q.i + 1 else q.i, c := if x.consumes = some k then q.c + 1 else q.c }) ∧
        (∀ r w, x.sender = some r → s.crew? r.cref = some w → (t.crew? r.cref).map (·.unsent) = some (w.unsent - 1)) ∧
        t.fabric.egress = s.fabric.egress ++ if y.destMod = s.modl.number then [] else
          [(0, dwordsOf (envelopeBytes ⟨BitVec.ofNat 64 s.time, n, s.modl.number, y.iface, 1⟩ ++ headerBytes z.msg ++
            bytesOf z.msg.payload))]) ∧
    (s.time < x.lastAttempt + 128000 → exec (.attemptTimeout x.id) s = .next s ∧ exec (.lossQuery x.id) s = .next s ∧
      exec (.queryTimeout x.id) s = .next s) ∧
    (x.injected = true → x.acked = false → x.settled = false → x.lastAttempt + 128000 ≤ s.time →
      (x.attempts < 4 → s.sentSpoilt x = false → Yields (.attemptTimeout x.id) s fun t =>
        t.sentById x.id = some { x with attempts := x.attempts + 1, lastAttempt := s.time } ∧ t.mem = s.mem) ∧
      (x.attempts = 4 → x.queries < 4 → Yields (.lossQuery x.id) s fun t =>
        t.sentById x.id = some { x with queries := x.queries + 1, lastAttempt := s.time } ∧ t.mem = s.mem) ∧
      (x.queries = 4 → x.msg.cls ≠ 4 → (s.job? x.msg.job).isSome →
        Yields (.queryTimeout x.id) s fun t =>
        (t.sentById x.id).map (·.settled) = some true ∧ (t.job? x.msg.job).map (·.repaired) = some true ∧
        countsOf t x.msg.job x.iface = (countsOf s x.msg.job x.iface).map fun k => { k with l := k.l + 1 })) ∧
    (s.sentBy x.iface x.sequence = some x →
      (x.destMod ≠ s.modl.number ∨ (s.modl.number, x.iface, x.sequence) ∈ s.fabric.accepted →
        Yields (.acknowledgement x.iface x.sequence) s fun t => t.sentById x.id = some { x with acked := true } ∧ t.mem = s.mem) ∧
      (x.destMod ≠ s.modl.number → 1 ≤ x.queries → ∀ b, Yields (.lossQueryAnswer x.iface x.sequence b) s fun t =>
        t.sentById x.id = some { x with acked := true } ∧ t.mem = s.mem) ∧
      (∀ code, 1 ≤ code → code ≤ 5 → x.destMod ≠ s.modl.number → x.msg.cls ≠ 4 →
        Yields (.lossNotice x.iface x.sequence code) s fun t => (t.sentById x.id).map (·.settled) = some true) ∧
      ∀ tm detail, x.destMod ≠ s.modl.number → s.team? x.team = some tm → (∀ d ∈ tm.deferred, d.detected ≤ s.time) →
        Yields (.failureNotice x.iface x.sequence 10 6 detail) s fun t => ∃ tm' d, t.team? x.team = some tm' ∧
          tm'.deferred = tm.deferred ++ [d] ∧ d.cls = 10 ∧ d.code = 6 ∧ d.detail = detail % 65536 ∧ d.deferred = true ∧
          d.addr = x.msg.address ∧ t.mem = s.mem)

/-- R26, R183 to R190, R346, R347, R455 and R481, the receiver's side: an active message joins its team's queue, a put writes its
payload, a get answers with the memory's words, an atomic replaces the word and answers with the old one where it is asked, a
reply writes its registers; C counts what is consumed, L what is lost. What changes memory or starts a handler waits until the
module's time has reached the message's timestamp; a put that cannot be performed is consumed and its sender told. A free handler
crew starts on the oldest message, and C counts it when its threads have ended and its release is complete.
What in it the model chose: assumptions 24, 26, 69, 87, 106. -/
def Obligations.FabricArrivals : Prop :=
  ∀ (s : State) (m : Msg) (e : Envelope) (dest : Nat),
    let plusC := fun (t : State) => countsOf t m.job dest = (countsOf s m.job dest).map fun k => { k with c := k.c + 1 }
    let plusL := fun (t : State) => countsOf t m.job dest = (countsOf s m.job dest).map fun k => { k with l := k.l + 1 }
    let plan := fun (n : Nat) (k : AccKind) (s1 : State) (res : Except (Nat × Nat × Nat) (List (Nat × Nat))) =>
      ∃ ctx, s.remoteCtx m = some ctx ∧ remotePlan s ctx m dest n k = (s1, res) ∧
        s1 = { s with tlb := s1.tlb, fresh := s1.fresh }
    let home := fun (n : Nat) (k : AccKind) (pa : Nat) => ∃ s1, plan n k s1 (.ok [(pa, n)]) ∧ s.isBusy .phys pa n = false ∧ s.flaws = [] ∧
      ∀ y ∈ s.l1, y.owned = true → y.dirty ≠ 0 → y.pa / 4 ∉ (wordsTouched pa n).map (· / 4)
    (∀ cls b, arrives s m e dest cls = false → (cls = 0 → exec (.activeMessageArrival m e dest b) s = .next s) ∧
      (cls = 1 → exec (.remotePutArrival m e dest b) s = .next s) ∧ (cls = 2 → exec (.remoteGetArrival m e dest b) s = .next s) ∧
      (cls = 3 → ∀ ret, exec (.remoteAtomicArrival m e dest b ret) s = .next s) ∧
      (cls = 4 → exec (.replyArrival m e dest b) s = .next s)) ∧
    (∀ b ret, s.reached m = false → exec (.remotePutArrival m e dest b) s = .next s ∧
      exec (.remoteAtomicArrival m e dest b ret) s = .next s) ∧
    (arrives s m e dest 0 = true → m.cls ≠ 4 → e.modNum ≠ s.modl.number →
      Yields (.activeMessageArrival m e dest true) s fun t => plusL t ∧ t.mem = s.mem ∧ t.teams = s.teams) ∧
    (∀ id la ix tid tm, arrives s m e dest 0 = true → s.rankHolder m = some (id, la, ix) →
      s.standing id la ix = .resident tid → s.team? tid = some tm → tm.ring = [] → tm.incoming.length < Config.incomingQueue →
      Yields (.activeMessageArrival m e dest false) s fun t => (t.team? tid).map (·.incoming) = some (tm.incoming ++ [⟨m, dest, e⟩]) ∧
        t.fabric.accepted = s.fabric.accepted ++ [s.identified e] ∧ t.mem = s.mem) ∧
    (∀ pa, arrives s m e dest 1 = true → s.reached m = true → home (4 * m.length) .write pa →
      Yields (.remotePutArrival m e dest false) s fun t =>
        t.mem = Mem.writeBytes s.mem pa (bytesOf m.payload) ∧ plusC t ∧ t.crews = s.crews) ∧
    (∀ s1 x, arrives s m e dest 1 = true → s.reached m = true → plan (4 * m.length) .write s1 (.error x) →
      Yields (.remotePutArrival m e dest false) s fun t => plusC t ∧ t.mem = s.mem ∧
        (e.modNum = s.modl.number → (s.identified e, x.1, x.2.1, x.2.2) ∈ t.fabric.failed)) ∧
    (∀ pa, arrives s m e dest 2 = true → home (4 * m.length) .read pa → Yields (.remoteGetArrival m e dest false) s fun t =>
      t.mem = s.mem ∧ ∃ x, t.fabric.sent = s.fabric.sent ++ [x] ∧ x.msg.cls = 4 ∧ x.msg.dest = m.sender ∧
        x.msg.address = identity e ∧ x.msg.payload = wordsOf (s.homeBytes pa (4 * m.length)) ∧ x.consumes = some dest ∧
        x.injected = false) ∧
    (∀ pa, let p := BitVec.ofNat 4 m.selector.toNat
      let op := remoteOperands p m.payload
      let n := atomSize p
      arrives s m e dest 3 = true → s.reached m = true → e.modNum ≠ s.modl.number → home n .write pa → s.deadRange pa n = false →
      (Yields (.remoteAtomicArrival m e dest false false) s fun t =>
        t.mem = Mem.writeBytes s.mem pa (leBytes n (atomNew p (s.homeN pa n) op.1 op.2)) ∧ plusC t) ∧
      Yields (.remoteAtomicArrival m e dest false true) s fun t =>
        t.mem = Mem.writeBytes s.mem pa (leBytes n (atomNew p (s.homeN pa n) op.1 op.2)) ∧
        ∃ x, t.fabric.sent = s.fabric.sent ++ [x] ∧ x.msg.cls = 4 ∧ x.msg.payload = atomWords p (s.homeN pa n)) ∧
    (∀ q r id w o d v, arrives s m e dest 4 = true → s.requestOf m = some q → q.sender = some r → q.out = some id →
      s.crew? r.cref = some w → r.lane < 64 → ((w.thread r.lane).out.find? fun x => x.id == id) = some o → o.regs = [some d] →
      m.payload = [v] → Yields (.replyArrival m e dest false) s fun t => (t.thread r).reg d = v ∧ plusC t ∧ t.mem = s.mem ∧
        ∀ x, x ≠ d → (t.thread r).reg x = (w.thread r.lane).reg x) ∧
    (e.modNum ≠ s.modl.number → dest < 96 → e.iface < 96 → s.identified e ∉ s.fabric.accepted → s.wasLost e = false →
      m.cls ≠ 4 → Yields (.lossQueryArrival m e dest) s fun t => plusL t ∧ t.wasLost e = true ∧ t.mem = s.mem) ∧
    (∀ port, exec (.fabricFlit port) s = .next s) ∧
    (∀ team crew tm id la x rest lo hi w, s.team? team = some tm → s.teamLaunch? team = some (id, la) →
      tm.incoming = x :: rest → s.flaws = [] → freeHandler s team crew = true → tm.held = false → s.crew? ⟨team, crew⟩ = some w →
      s.bankHeld tm.core tm.launch 7 (2 * x.msg.selector.toNat) = some lo →
      s.bankHeld tm.core tm.launch 7 (2 * x.msg.selector.toNat + 1) = some hi →
      (s.reached x.msg = false → exec (.handlerStart team crew) s = .next s) ∧
      (s.reached x.msg = true → Yields (.handlerStart team crew) s fun t => ∃ w' tm', t.crew? ⟨team, crew⟩ = some w' ∧
        t.team? team = some tm' ∧
        tm'.incoming = rest ++ tm.ring.take 1 ∧ tm'.ring = tm.ring.drop 1 ∧ w'.handling = some x.msg ∧ t.mem = s.mem ∧
        ∀ l, l < 64 → (w'.thread l).pc = hi ++ lo ∧ (w'.thread l).exited = false ∧ (w'.thread l).sup = false ∧
          (w'.thread l).reg 0 = x.msg.payload.getD l 0 ∧ (w'.thread l).reg 1 = x.msg.sender ∧
          (w'.thread l).lane = [])) ∧
    ∀ team crew w, s.crew? ⟨team, crew⟩ = some w → w.handling = some m → w.handlingIface = dest → dest < 96 → w.unsent = 0 →
      (w.allThread fun t => t.exited && t.trap.isNone) = true →
      (s.relBlocked ⟨team, crew⟩ = true → exec (.handlerRetirement team crew) s = .next s) ∧
      (s.relBlocked ⟨team, crew⟩ = false → Yields (.handlerRetirement team crew) s fun t => plusC t ∧
        (t.crew? ⟨team, crew⟩).map (·.handling) = some none ∧ t.mem = (release s ⟨team, crew⟩ 0 0).mem)

/-- R182, R192 to R196, R457 and R458: the root starts a wave when its period has passed; a module below it joins a pass whose
request reaches it; an interface adds its counters once to a pass, a child port its sums; the complete second pass of equal sums in
which all that was injected is consumed or lost is quiet; a pass open for 1 ms ends incomplete; a verdict releases the armed
waits of earlier waves with its status, and an unsettled one releases none. What in it the model chose: assumptions 28, 29, 88. -/
def Obligations.WaveEvents : Prop :=
  ∀ (s : State) (job : BitVec 16) (j : Job), s.job? job = some j →
    let due := (j.lastWave = 0 ∧ j.reached = 0) ∨ j.lastStart + j.period.toNat ≤ s.time
    (j.treeSet = true → j.root = true → j.wave = none → due →
      Yields (.waveStart job) s fun t => ∃ j' w, t.job? job = some j' ∧ j'.wave = some w ∧ j'.lastStart = s.time ∧
        w.number = (j.lastWave + 1) % 2 ^ 32 ∧ w.pass = 1 ∧ w.taken = 0 ∧ w.acc = noSums ∧ w.children = portList j.childPorts ∧
        t.mem = s.mem) ∧
    (¬ due ∨ j.wave.isSome → exec (.waveStart job) s = .next s) ∧
    (∀ number pass iface, j.root = false → j.treeSet = true → j.wave = none → iface < 96 → pass = 1 ∨ pass = 2 →
      (s.die (iface / 24)).inReset = false → Yields (.passRequest job number pass iface) s fun t =>
        (t.job? job).bind (·.wave) = some { Wave.begin number pass s.time j s.anyReset with
          taken := 1#96 <<< iface, acc := (j.counters.getD iface ⟨0, 0, 0⟩).sums } ∧ t.mem = s.mem ∧
        (pass = 1 → j.lastPass1 = 0 ∨ laterWave j.lastPass1 number = true → (t.job? job).map (·.lastPass1) = some number)) ∧
    (∀ w, j.wave = some w →
      (∀ iface, j.treeSet = true → iface < 96 → (s.die (iface / 24)).inReset = false → j.root = true → w.pass = 1 ∨ w.pass = 2 →
        w.taken.getLsbD iface = false → Yields (.passRequest job w.number w.pass iface) s fun t =>
          (t.job? job).bind (·.wave) = some { w with
            taken := w.taken ||| (1#96 <<< iface),
            acc := addSums w.acc (j.counters.getD iface ⟨0, 0, 0⟩).sums } ∧ t.mem = s.mem) ∧
      (∀ port q, port ∈ w.children → Yields (.childPortSum job w.number w.pass port q) s fun t =>
        (t.job? job).bind (·.wave) = some { w with acc := addSums w.acc q, children := w.children.erase port } ∧
          t.mem = s.mem) ∧
      (w.taken = BitVec.allOnes 96 → w.children = [] → w.broken = false → w.finished = false → w.result = none →
        (j.root = false → Yields (.passComplete job) s fun t =>
          (t.job? job).bind (·.wave) = some { w with finished := true } ∧ t.mem = s.mem) ∧
        (j.root = true → s.time < w.requested + 1000000 → w.first = none → Yields (.passComplete job) s fun t =>
          (t.job? job).bind (·.wave) = some { Wave.begin w.number 2 s.time j s.anyReset with first := some w.acc } ∧ t.mem = s.mem) ∧
        (j.root = true → w.requested + 1000000 ≤ s.time → exec (.passComplete job) s = .next s) ∧
        ∀ a, j.root = true → s.time < w.requested + 1000000 → w.first = some a → Yields (.passComplete job) s fun t => ∃ k,
          (t.job? job).bind (·.wave) = some { w with finished := true, result := some (k, w.acc) } ∧ t.mem = s.mem ∧
          (k = 0 ↔ a = w.acc ∧ w.acc.i = w.acc.c + w.acc.l)) ∧
      (j.root = true → w.result = none → (w.requested + 1000000 ≤ s.time → Yields (.waveIncomplete job) s fun t =>
        (t.job? job).bind (·.wave) = some { w with finished := true, result := some (2, j.lastSums) } ∧ t.mem = s.mem) ∧
        (s.time < w.requested + 1000000 → exec (.waveIncomplete job) s = .next s))) ∧
    ∀ number kind sums die, let q := if kind = 2 then j.lastSums else sums
      (j.root = false ∧ j.treeSet = true) ∨ (j.root = true ∧ ∃ w, j.wave = some w ∧ w.number = number ∧ w.result = some (kind, q)) →
      kind < 4 → die < 4 → j.reached = 0 ∨ (j.reached = 15 ∧ laterWave j.lastVerdict number = true) →
      Yields (.verdict job number kind sums die) s fun t => ∃ j', t.job? job = some j' ∧
        j'.lastVerdict = number ∧ j'.lastKind = kind ∧ j'.lastSums = q ∧ j'.wave = none ∧ t.mem = s.mem ∧
        ∀ c w id la l d n0 l0, s.crew? c = some w → s.teamLaunch? c.team = some (id, la) → la.job = job →
          dieOf (s.teamCore c.team) = die → l < 64 → (w.thread l).wait = .quiet d (some (n0, l0)) →
          let b := t.thread ⟨c.team, c.crew, l⟩
          (laterWave n0 number = false ∨ kind = 1 → b = w.thread l) ∧
          (laterWave n0 number = true → kind ≠ 1 → b.wait = .none ∧
            b.reg d = if kind = 0 then (if q.l = l0 then 0 else 1) else BitVec.ofNat 32 kind)

/-! ## Exceptions and the system (R357 to R364, R404 to R407, R412 to R416) -/

/-- R405 to R407: supervisor entry of a thread. It waits while a result it awaits has still to come, and while the ring is full.
Then every result is in its registers, the record is written at the next place of the ring and the trap frame at the thread's;
`cr.epc`, bit 0 of `cr.estat`, `cr.ecause`, `g56.d` and `g58.d` take their values, and the thread continues in supervisor
privilege at the entry. In supervisor privilege, but for a thread that a deferred fault has revived (R410), or where the entry
fails, the thread halts and Muaro reports it; such a thread has no frame to write. -/
def Obligations.ExceptionEntry : Prop :=
  ∀ (s : State) (c : CRef) (w : Crew) (l : Nat) (k : Cause), s.crew? c = some w → l < 64 → (w.thread l).trap = some k →
    (∀ n, n < 64 → n ≠ l → (w.thread n).trap = none) → s.orphans = [] → s.traces = [] →
    let r : TRef := ⟨c.team, c.crew, l⟩
    ((w.thread l).drained = none → exec (.supervisorTrapEntry r) s = .next s) ∧
    ((w.thread l).out = [] → (w.thread l).drained = some (w.thread l)) ∧
    ∀ a, (w.thread l).drained = some a →
    let s0 := s.setThread r fun t => t.drained.getD t
    let core := s.teamCore c.team
    let ctx := s.teamCtx c.team
    let die := dieOf core
    let halts := fun (m : Mem) (data : List DWord) => Yields (.supervisorTrapEntry r) s fun t =>
      (t.thread r).wait = .halted ∧ (t.thread r).trap = none ∧ SameRegs a (t.thread r) ∧ t.mem = m ∧
        t.host = s.host ++ [.notice 0x8001 ([BitVec.ofNat 64 core, BitVec.ofNat 64 ctx] ++ data)]
    let halting := a.sup && !k.revived
    let framed := if halting then [] else [r]
    (∀ (u : State) (b : CtxBlock), entryPlan s0 r framed = (u, .ok b) →
      (b.entries ≤ b.written - b.consumed → exec (.supervisorTrapEntry r) s = .next u) ∧
      (b.written - b.consumed < b.entries →
        let lanes := if k.crew = some 255 then 0 else if k.lanes = 0 then laneBit l else k.lanes
        let x := writeRecord u ctx die b (recordBytes u r k halting lanes)
        let frame := b.frames + 64 * (1024 * core + 64 * w.slot + l)
        x.2 = b.ring + 64 * (b.written % b.entries) ∧
        (halting = false → Yields (.supervisorTrapEntry r) s fun t =>
          let z := t.thread r
          t.mem = (writeVirt x.1 die ctx true frame (frameBytes a)).1.mem ∧ z.pc = b.entry ∧ z.sup = true ∧
          z.epc = k.resume.getD a.pc ∧ z.estat = (a.estat &&& ~~~1) ||| (if a.sup then 1 else 0) ∧ z.ecause = k.word ∧ z.p = a.p ∧ z.xlit = none ∧
          z.xmod = none ∧ z.trap = none ∧ z.wait = .none ∧ z.exited = false ∧ (∀ d, d ≠ r → t.thread d = s.thread d) ∧
          ∀ q, z.reg q = if q = 56 then BitVec.ofNat 32 frame else if q = 57 then BitVec.ofNat 32 (frame / 2 ^ 32)
            else if q = 58 then BitVec.ofNat 32 x.2 else if q = 59 then BitVec.ofNat 32 (x.2 / 2 ^ 32) else a.reg q) ∧
        (halting = true → halts x.1.mem [BitVec.ofNat 64 x.2]))) ∧
    ∀ (u : State) (f : TFault) (va : Nat), entryPlan s0 r framed = (u, .error (f, va)) →
      halts s.mem [BitVec.ofNat 64 va, BitVec.ofNat 64 (256 * f.cls + f.kind)]

/-- R404, R357, R358, R364, R415 and R416: `TRAP` enters the user handler, or traps with its number and resumes after it;
`ERET` restores the PC and the privilege; `HALT` stops the issue of the core, after the early commit of its task, and the core
halts and reports it once what it issued has completed. A word that does not decode traps with class 2 in every lane, an `ERET` of a
reserved status with class 3 code 2, a supervisor instruction in user privilege with class 3 code 1. What in it the model chose: assumptions 8, 36, 93. -/
def Obligations.TrapsAndReturns : Prop :=
  (∀ (s : State) (c : CRef) (w : Crew) (l : Nat),
    let r : TRef := ⟨c.team, c.crew, l⟩
    let t := w.thread l
    (∀ (f : TrapF) (lo hi : Word), One (.trap f) s c w l → t.sup = false → f.n.toNat < 2048 →
      bankOperand s r 7 512 = .held lo → bankOperand s r 7 513 = .held hi → hi ++ lo ≠ 0#64 →
      OneThread (.trap f) s c w l s fun a b => b.pc = hi ++ lo ∧ b.sup = a.sup ∧ b.p = a.p ∧ b.epc = a.pc + s.cur.len ∧
        b.ecause = BitVec.ofNat 32 (2 ^ 24 + f.n.toNat * 16) ∧ b.estat = a.estat ∧
        ∀ x, b.reg x = if x = 61 then BitVec.ofNat 32 f.n.toNat else if x = 62 then (a.pc + s.cur.len).setWidth 32
          else if x = 63 then ((a.pc + s.cur.len) >>> 32).setWidth 32 else a.reg x) ∧
    (∀ f : TrapF, One (.trap f) s c w l → f.n.toNat ≠ 2048 →
      t.sup = true ∨ 2048 ≤ f.n.toNat ∨ (bankOperand s r 7 512 = .held 0 ∧ bankOperand s r 7 513 = .held 0) →
      Traps (.trap f) s c l { cls := 1, code := 0, num := f.n.toNat, resume := some (t.pc + s.cur.len) }) ∧
    (∀ f : TrapF, One (.trap f) s c w l → f.n.toNat = 2048 → ∃ addr : DWord, addr.toNat % 16 = 0 ∧ exec (.trap f) s = .next (finishTraps { s with
      fresh := s.fresh + 1
      cur := { s.cur with lanes := [], traps := [(r,
        { cls := 1, code := 0, num := 2048, resume := some (t.pc + s.cur.len), addr := addr })] } })) ∧
    (∀ f : R0, One (.eret f) s c w l →
      (targetFault s r t.epc true = none → OneThread (.eret f) s c w l s fun a b =>
        b.pc = a.epc ∧ b.sup = a.estat.getLsbD 0 ∧ SameRegs a b ∧ b.epc = a.epc ∧ b.estat = a.estat ∧ b.ecause = a.ecause) ∧
      ∀ k, targetFault s r t.epc true = some k →
        Traps (.eret f) s c l { cls := 4, code := k, addr := t.epc }) ∧
    (∀ f : R0, One (.halt f) s c w l →
      (∀ u, Committed s r u → OneThread (.halt f) s c w l
        (u.setCore (u.teamCore c.team) fun k => { k with halting := true }) fun a b => Goes s a b ∧ SameRegs a b) ∧
      (s.commitBlocked c.team = true → Waits (.halt f) s)) ∧
    ∀ n : R0, One (.nop n) s c w l → (∀ tm, s.team? c.team = some tm → tm.deferred = []) → t.xlit = none → t.xmod = none →
      (∀ x e, decodeWord x = .error e → shownBeside x s r = none →
        Traps (.reservedEncoding x) s c l { cls := 2, code := e.code, detail := e.bit }) ∧
      (∀ f : R0, t.sup = true → 2 ≤ t.estat.toNat → Traps (.eret f) s c l { cls := 3, code := 2 }) ∧
      (t.sup = false → ∀ i : Instr, (∃ f, i = .eret f ∨ i = .halt f) ∨ (∃ f, i = .icinv f) ∨
        (∃ f, i = .crr f ∧ cregFault f s r = none) ∨ (∃ f, i = .crw f ∧ crwFault f s r = none) ∨
        (∃ f, i = .tlbinv f ∧ tlbinvFault f s r = none) ∨
        (∃ f, i = .bist f ∧ bistFault f s r = none ∧ s.modl.lifecycle ≠ 0) → Traps i s c l { cls := 3, code := 1 })) ∧
  ∀ (s : State) (core : Nat),
    ((s.core core).halted = true ∨ (s.core core).halting = true → s.nextGroup core = none) ∧
    ((s.core core).halting = true →
      (s.unfinished core = true → haltCore s core = s) ∧
      (s.unfinished core = false → ((haltCore s core).core core).halted = true ∧
        ((haltCore s core).core core).halting = false ∧
        (haltCore s core).host = s.host ++ [.notice 0x8001 [BitVec.ofNat 64 core]]))

/-- R45, R361 to R363 and R359, R360: `CRR` reads a control register and acquires, `CRW` releases and writes it; a register that
is no command reads back what was written, and a rail has its new offset with the end of the cycle. `ICINV` removes the lines it covers, `TLBINV` the translations it names with what was
filled under them, and `BIST` joins the tests of its die with its status outstanding. A write that starts a fetch outside
the limits of its registers, a reserved index, value or pair trap. What in it the model chose: assumptions 46 to 48. -/
def Obligations.ControlRegisters : Prop :=
  (∀ (s : State) (c : CRef) (w : Crew) (l : Nat),
    let r : TRef := ⟨c.team, c.crew, l⟩
    let t := w.thread l
    let ctx := s.teamCtx c.team
    let goes := fun (a b : Thread) => Goes s a b ∧ SameRegs a b
    (∀ f : CrF, One (.crr f) s c w l →
      (∀ k, cregFault f s r = some k → Traps (.crr f) s c l k) ∧
      ∀ x : Creg, Creg.ofIndex (t.crIndex f.x) = some x → (x.wide = true → f.r.getLsbD 0 = false) →
        let u := match x with | .rail _ => { s with fresh := s.fresh + 1 } | _ => s
        let v := readCreg s r x
        OneThread (.crr f) s c w l (acquire u c) fun a b =>
          Goes s a b ∧ if x.wide then SetsPair a b f.r v else SetsReg a b f.r (v.setWidth 32)) ∧
    (∀ f : CrF, One (.crw f) s c w l →
      (∀ k, crwFault f s r = some k → Traps (.crw f) s c l k) ∧
      ∀ x : Creg, Creg.ofIndex (t.crIndex f.x) = some x → crwFault f s r = none →
        let v := cregValue f t x
        let refused := x = .hfgo ∧ v = 1 ∧ ¬ ∃ y, s.ctx? ctx = some y ∧ fetchOk y = true
        (refused → Traps (.crw f) s c l { cls := 5, code := 4, detail := f.r.toNat }) ∧
        (¬ refused → s.buffering c.team = none → s.relBlocked c = true → Waits (.crw f) s) ∧
        ∀ s1, ¬ refused → (if crwCommits x v then Committed s r s1 else s1 = s) → s1.relBlocked c = false →
          let s2 := release s1 c t.pc (laneBit l)
          let u := writeCreg s2 r x v
          s2.recallBlocked (crwWords s2 r x v) none = false → OneThread (.crw f) s c w l u fun a b => SameRegs a b ∧ b.pc = a.pc + s.cur.len ∧ b.sup = a.sup ∧
            b.epc = (u.thread r).epc ∧ b.estat = (u.thread r).estat ∧ b.ecause = (u.thread r).ecause) ∧
    (∀ (f : Rab) (s1 : State), One (.icinv f) s c w l → Committed s r s1 → s1.relBlocked c = false →
      let u := invalidateCode (release s1 c t.pc (laneBit l)) ctx (t.pair f.a).toNat (t.reg f.b).toNat
      OneThread (.icinv f) s c w l u goes ∧
        ∀ x ∈ u.icache, x.ctx = ctx → overlaps (t.pair f.a).toNat (t.reg f.b).toNat x.va.toNat 256 = false) ∧
    (∀ f : Rab, One (.tlbinv f) s c w l →
      (∀ k, tlbinvFault f s r = some k → Traps (.tlbinv f) s c l k) ∧
      ∀ s1, Committed s r s1 → tlbinvFault f s r = none →
        let k := (t.reg f.b).toNat
        let hit := onPage (k % 4) (k / 2 ^ 16) (t.pair f.a).toNat
        let u := invalidateTlb s1 (k % 4) (k / 2 ^ 16) (t.pair f.a).toNat
        OneThread (.tlbinv f) s c w l u goes ∧
          (∀ e ∈ u.tlb, e ∈ s1.tlb ∧ hit e.ctx e.va e.size = false) ∧
          (∀ x ∈ u.icache, x ∈ s1.icache ∧ hit x.ctx (BitVec.ofNat 64 x.page) x.size = false) ∧
          ∀ x ∈ u.l1, hit x.ctx x.va x.page = true → x.owned = true ∨ (x.dirty ≠ 0 ∧ x.marked = true)) ∧
    ∀ f : R2, One (.bist f) s c w l →
      (∀ k, bistFault f s r = some k → Traps (.bist f) s c l k) ∧
      ∀ s1, Committed s r s1 → bistFault f s r = none →
        OneThread (.bist f) s c w l
          (({ s1 with serial := s1.serial + 1 } : State).setDie (dieOf (s.teamCore c.team)) fun d =>
            { d with bists := d.bists ++ [(r, s1.serial, t.reg f.a)] })
          fun a b => goes a b ∧ b.out.length = a.out.length + 1) ∧
  ∀ (s : State) (r : TRef) (y : Ctx) (w : Crew) (v : DWord), s.ctx? (s.teamCtx r.team) = some y →
    s.crew? r.cref = some w → r.lane < 64 →
    let back := fun (x : Creg) (m : DWord) => readCreg (writeCreg s r x v) r x = v &&& m
    (∀ x ∈ [Creg.epc, .ptroot, .taskspill, .saveaddr, .preemptl, .fqperiod, .hfsrc, .hfdst, .pubtab, .eyeaddr],
      back x (BitVec.allOnes 64)) ∧
    (∀ n, n < 8 → back (.prog n) (BitVec.allOnes 64)) ∧ (∀ x ∈ [Creg.estat, .hflen, .pubcnt], back x 0xFFFFFFFF) ∧
    (∀ x ∈ [Creg.preempt, .hfgo], back x 0) ∧
    ∀ n, n < 7 → s.due.rails = [] → s.teamCore r.team < 256 →
      (((applyRails (writeCreg s r (.rail n) v)).die (dieOf (s.teamCore r.team))).rails.getD n 0).toInt =
        max (-20) (min 20 (v.setWidth 8).toInt)

/-! ## Tasks and what the instructions of launches do (R350 to R356) -/

/-- R45, R211 and R350 to R356: `TSPAWN` appends its record to the core's queue in the class of its flags, `TDONE` ends the thread
of a task as `EXIT` does, `LAUNCH` hands its packet to the coordinator, `PUBLISH` puts its window in line, each after the early
commit of its task and its release; `PROG` adds one to its counter, or to the count a task holds with its buffer, `SUBPOL`
replaces the launch's policy word, and `SUBQ` writes the description of a store's entry. What the rules refuse traps.
What in it the model chose: assumptions 21, 30, 33. -/
def Obligations.TaskAndHostInstructions : Prop :=
  ∀ (s : State) (c : CRef) (w : Crew) (l : Nat),
    let r : TRef := ⟨c.team, c.crew, l⟩
    let t := w.thread l
    let core := s.teamCore c.team
    let ctx := s.teamCtx c.team
    let goes := fun (i : Instr) (u : State) => OneThread i s c w l u fun a b => Goes s a b ∧ SameRegs a b
    let awaits := fun (i : Instr) (u : State) =>
      OneThread i s c w l u fun a b => Goes s a b ∧ SameRegs a b ∧ b.out.length = a.out.length + 1
    let blocked := s.buffering c.team = none ∧ s.relBlocked c = true
    let trapsAt := fun (i : Instr) (u : State) (k : Cause) =>
      exec i s = .next (finishTraps { u with cur := { s.cur with lanes := [], traps := [(r, k)] } })
    (∀ (f : R1), let a := t.pair f.a
      One (.tspawn f) s c w l →
      (a.toNat % 64 ≠ 0 → Traps (.tspawn f) s c l { cls := 5, code := 1, detail := f.a.toNat, addr := a }) ∧
      (a.toNat % 64 = 0 → s.isDet c.team = true → Traps (.tspawn f) s c l { cls := 5, code := 12 }) ∧
      (a.toNat % 64 = 0 → s.isDet c.team = false → blocked → Waits (.tspawn f) s) ∧
      ∀ s1 s3 s4 q, a.toNat % 64 = 0 → s.isDet c.team = false → Committed s r s1 → s1.relBlocked c = false →
        let s2 := release s1 c t.pc (laneBit l)
        queueEntry s2 c.team (s2.originOf r) t.pc a = (s3, q) → q.record = a ∧
          (appendTask s3 core q = (s4, true) → goes (.tspawn f) s4) ∧
          ((s3.core core).tasks.length < 256 →
            appendTask s3 core q = (s3.setCore core fun k => { k with tasks := k.tasks ++ [q] }, true)) ∧
          (appendTask s3 core q = (s4, false) → trapsAt (.tspawn f) s4 { cls := 13, code := 6, addr := a })) ∧
    (∀ (f : R0) (tm : Team), One (.tdone f) s c w l → s.team? c.team = some tm →
      (tm.task = none → Traps (.tdone f) s c l { cls := 13, code := 1 }) ∧
      (tm.task.isSome → Yields (.tdone f) s fun u => ∃ w', u.crew? c = some w' ∧ (w'.thread l).exited = true ∧
        SameRegs t (w'.thread l) ∧ w'.retired = w.retired + 1 ∧
        (∀ k, (w'.maskReg k).m = (w.maskReg k).m &&& ~~~laneBit l ∧ (w'.maskReg k).a = (w.maskReg k).a &&& ~~~laneBit l) ∧
        (∀ k, k < 12 → (c, k) ∈ u.due.masks) ∧ (∀ n, n < 16 → (c.team, n) ∈ u.due.bars) ∧
        (tm.array = none → u.mem = s.mem ∧ (∀ d, d ≠ c → u.crew? d = s.crew? d) ∧ ∀ x, x ≠ l → w'.thread x = w.thread x))) ∧
    (∀ (f : R2), let a := t.pair f.a
      One (.launch f) s c w l →
      (2 ^ 52 ≤ a.toNat → Traps (.launch f) s c l { cls := 5, code := 3, detail := f.a.toNat, addr := a }) ∧
      (a.toNat < 2 ^ 52 → a.toNat % 128 ≠ 0 → Traps (.launch f) s c l { cls := 13, code := 3, addr := a }) ∧
      (a.toNat < 2 ^ 52 → a.toNat % 128 = 0 → blocked → Waits (.launch f) s) ∧
      ∀ s1 s3 b, a.toNat < 2 ^ 52 → a.toNat % 128 = 0 → Committed s r s1 → s1.relBlocked c = false →
        let s2 := release s1 c t.pc (laneBit l)
        sourceBusy s2 c.team t.sup .phys a.toNat 128 = false → engineRead s2 c.team t.sup .phys a.toNat 128 = (s3, .ok b) →
        (t.sup = true ∨ pk b 68 2 = ctx → awaits (.launch f)
          { s3 with serial := s3.serial + 1, packets := s3.packets ++ [(b, some (r, s3.serial))] }) ∧
        (t.sup = false → pk b 68 2 ≠ ctx → trapsAt (.launch f) s3 { cls := 13, code := 4, addr := a })) ∧
    (∀ (f : R1) (y : Ctx), let n := (t.reg f.a).toNat
      One (.publish f) s c w l → s.ctx? ctx = some y →
      (y.pubcnt.toNat ≤ n → Traps (.publish f) s c l { cls := 5, code := 4, detail := f.a.toNat }) ∧
      (n < y.pubcnt.toNat → blocked → Waits (.publish f) s) ∧
      ∀ s1, n < y.pubcnt.toNat → Committed s r s1 → s1.relBlocked c = false →
        let s2 := release s1 c t.pc (laneBit l)
        awaits (.publish f) { s2 with serial := s2.serial + 1, publications := s2.publications ++
          [⟨ctx, n, r, s2.originOf r, s2.serial, t.sup, t.pc, s.time, s.cycle, none⟩] }) ∧
    (∀ f : R1, One (.prog f) s c w l →
      (s.buffering c.team = none → goes (.prog f) (s.setCtx ctx fun y => { y with
        prog := y.prog.mapIdx fun i v => if i = f.a.toNat then v + 1 else v })) ∧
      ∀ k, s.buffering c.team = some k → ∃ u, goes (.prog f) u ∧ u.ctxs = s.ctxs ∧ u.mem = s.mem ∧
        ∃ k', u.buffering c.team = some k' ∧ k'.buffer = k.buffer ∧
          ∀ i, i < 8 → k'.progress.getD i 0 = k.progress.getD i 0 + if i = f.a.toNat then 1 else 0) ∧
    (∀ (f : R1) (tm : Team), One (.subpol f) s c w l → s.team? c.team = some tm →
      let p := t.reg f.a
      (policyBad p = false → goes (.subpol f) (s.setLaunch tm.launch fun la =>
        { la with policy := if la.det then p &&& ~~~1 else p, dropped := false })) ∧
      (policyBad p = true → Traps (.subpol f) s c l { cls := 2, code := 4, detail := 13 })) ∧
    ∀ (f : R2) (id : Nat) (la : Launch), One (.subq f) s c w l → s.teamLaunch? c.team = some (id, la) →
      let n := (t.reg f.a).toNat
      let v : DWord := match Tbl.at? (s.core core).weevil.store n with
        | some e => if e.ctx = la.ctx ∧ e.code = la.code ∧ e.policy = la.policy then subqWord e else 0
        | none => 0
      (n < 64 → OneThread (.subq f) s c w l s fun a b => Goes s a b ∧ SetsPair a b f.d v) ∧
      (64 ≤ n → Traps (.subq f) s c l { cls := 5, code := 4, detail := f.a.toNat })

/-! ## What a core does between issues -/

/-- R131, R133, R408, R107, R53 to R56, R62, R65, R120, R112, R264 and R269: a write-back registers a dirty word at its home, or
leaves its failure pending; a release completes and leaves no word that its crew dirtied; a walk caches its translation; waits
expire; demotion, yield and idle steps; a deferred copy starts; lines and bank words arrive with memory's contents. An event that
is not due changes nothing. What in it the model chose: assumptions 1, 62, 64, 75. -/
def Obligations.CoreEvents : Prop :=
  (∀ (s : State) (core pa start : Nat) (x : L1Word),
    (s.l1.filter fun y => y.dirty != 0 && y.core == core && if start ≤ 1 then y.pa / 64 == pa / 64 else y.pa == pa) = [x] →
    x.pa = pa → s.l1Word? core pa = some x → s.fenced [x] = [] → s.owedWords [x] = [] → s.dead pa = false →
    (s.isBusy .phys pa 4 = true → exec (.l1WriteBack core pa start) s = .next s) ∧
    (s.isBusy .phys pa 4 = false → x.marked = false → s.shut pa = false → s.flaws = [] →
      Yields (.l1WriteBack core pa start) s fun t =>
        t.mem = Mem.writeBytes s.mem pa (leBytes 4 (mergeWord x.dirty x.val (s.homeWord pa)).toNat) ∧ t.crews = s.crews ∧
        (start ≤ 1 → ∀ y ∈ t.l1, y.core = core → y.pa / 64 ≠ pa / 64) ∧
        ∀ y, t.l1Word? core pa = some y → y.dirty = 0 ∧ y.owned = true) ∧
    ∀ u f, s.isBusy .phys pa 4 = false → x.marked = true → (s.team? x.crew.team).isSome →
      translate s (.core core) x.ctx x.va x.sup .write = (u, .error f) → Yields (.l1WriteBack core pa start) s fun t =>
        t.mem = s.mem ∧ t.l1Word? core pa = none ∧ Pends t x.crew.team 7 f.code) ∧
  (∀ (s : State) (c : CRef) (w : Crew) (f : DWord × DWord), s.crew? c = some w → w.fence = some f →
    (s.relBlocked c = true → exec (.releaseCompletion c) s = .next s) ∧
    (s.relBlocked c = false → exec (.releaseCompletion c) s = .next (release s c f.1 f.2) ∧
      let t := release s c f.1 f.2
      t.crew? c = some { w with fence := none } ∧
        ∀ x ∈ t.l1, x.core = s.teamCore c.team → c ∈ x.writers → x.dirty = 0)) ∧
  (∀ (s : State) (die ctx : Nat) (va : DWord), va.toNat < 2 ^ 52 → (∀ x ∈ s.tlb, x.covers (.die die) ctx va.toNat = false) →
    (∀ f, walk s ctx va.toNat = .error f → exec (.pageWalk die ctx va) s = .next s) ∧
    ∀ e, walk s ctx va.toNat = .ok e →
      let e' := { e with at_ := .die die }
      exec (.pageWalk die ctx va) s = .next (tlbInsert s e') ∧ e' ∈ (tlbInsert s e').tlb) ∧
  (∀ (s : State) (c : CRef) (w : Crew) (l n deadline : Nat) (d : Reg6), s.crew? c = some w → l < 64 → n < 12 →
    (w.thread l).wait = .maskTimed n d deadline →
    (s.isDet c.team = true ∨ s.time < deadline → exec (.waitmtTimeout ⟨c.team, c.crew, l⟩) s = .next s) ∧
    (s.isDet c.team = false → deadline ≤ s.time → s.due = Due.none → s.traces = [] →
      Yields (.waitmtTimeout ⟨c.team, c.crew, l⟩) s fun t => ∃ w', t.crew? c = some w' ∧ t.cycle = s.cycle + 1 ∧
        (w'.thread l).wait = .none ∧ SetsReg (w.thread l) (w'.thread l) d 1 ∧ (w'.maskReg n).a.getLsbD l = false)) ∧
  (∀ (s : State) (core : Nat),
    (s.idleCoroutines core = false → exec (.deterministicIdleStep core) s = .next s) ∧
    (s.idleCoroutines core = true → Yields (.deterministicIdleStep core) s fun t =>
      (t.core core).steps = (s.core core).steps + 1 ∧ t.mem = s.mem ∧
      ∀ r ∈ s.timedWaits core, ∀ n d deadline, (s.thread r).wait = .maskTimed n d deadline →
        deadline ≤ (s.core core).steps + 1 → (t.thread r).wait = .none ∧ (t.thread r).reg d = 1)) ∧
  (∀ (s : State) (core : Nat) (c : CRef) (w : Crew), (s.core core).running = some c → s.crew? c = some w →
    (w.quietCount < 4096 ∨ w.quietOpen = true → exec (.deterministicYield core) s = .next s) ∧
    (4096 ≤ w.quietCount → w.quietOpen = false → Yields (.deterministicYield core) s fun t =>
      t.crew? c = some { w with switchPoint := true, quietCount := 0, quietMarks := [] } ∧ t = { s with crews := t.crews })) ∧
  (∀ (s : State) (c : CRef) (w : Crew) (l : Nat), s.crew? c = some w → l < 64 →
    (s.isDet c.team = true ∨ (w.thread l).spin.empty < 8 → exec (.spinDemotion ⟨c.team, c.crew, l⟩) s = .next s) ∧
    (s.isDet c.team = false → 8 ≤ (w.thread l).spin.empty → Yields (.spinDemotion ⟨c.team, c.crew, l⟩) s fun t =>
      t = { s with crews := t.crews } ∧ (t.thread ⟨c.team, c.crew, l⟩).spin.demoted = true ∧
        SameRegs (w.thread l) (t.thread ⟨c.team, c.crew, l⟩))) ∧
  (∀ (s : State) (r : TRef) (x : Word) (i : Instr), (∃ f, i = .cpy f ∨ i = .cpyg f ∨ i = .cpys f) →
    (s.issuesAlone r = false → exec (.copyDeferredStart r) s = .next s) ∧
    (s.issuesAlone r = true → s.fetched r = .instr x i →
      exec (.copyDeferredStart r) s = exec i { s with cur := groupAt (s.teamCore r.team) (s.thread r).pc [r] none } ∧
        Yields (.copyDeferredStart r) s fun _ => True)) ∧
  (∀ (s : State) (core ctx : Nat) (va : DWord) (sup : Bool),
    let base := BitVec.ofNat 64 (va.toNat / 256 * 256)
    ((s.line? core ctx va sup).isSome → exec (.instructionLineFill core ctx va sup) s = .next s) ∧
    ∀ s1 pa, s.line? core ctx va sup = none → translate s (.core core) ctx base sup .fetch = (s1, .ok pa) →
      s1.deadRange pa 256 = false → s.flaws = [] → Yields (.instructionLineFill core ctx va sup) s fun t => t.mem = s.mem ∧
        t.crews = s.crews ∧ ∃ x ∈ t.icache, x.core = core ∧ x.ctx = ctx ∧ x.va = base ∧ x.words = wordsOf (s.homeBytes pa 256)) ∧
  ∀ (s : State) (core launch bank word : Nat) (la : Launch), s.launch? launch = some la →
    ((s.bankHeld core launch bank word).isSome → exec (.constantCacheFill core launch bank word) s = .next s) ∧
    ∀ s1 v, s.bankHeld core launch bank word = none → bankRead s core la.ctx true la bank word = (s1, .ok v) →
      Yields (.constantCacheFill core launch bank word) s fun t =>
        t = { s1 with consts := t.consts } ∧ t.bankHeld core launch bank word = some v

/-! ## Launches, teams and tasks (R216 to R236, R410, R411, R441) -/

/-- R221 to R223, R229, R31, R71, R227, R236: a packet gets its status and an accepted launch waits; the first launch in order
admits its next team, every thread at the entry with its state zero, or restores a team with its threads as they were, unless a
task of higher class goes first; a team that has ended leaves and is counted; a launch whose teams have retired completes with
counter and notice, and not before. What in it the model chose: assumptions 25, 32, 34, 45, 69, 75. -/
def Obligations.LaunchLifecycle : Prop :=
  (∀ (s : State) (b : List Byte), b.length = 128 →
    let k := packetStatus s b (launchOf b)
    let tag := BitVec.ofNat 64 (pk b 88 8)
    Yields (.launchPacket b true) s fun t => t.host = s.host ++ [.launchStatus tag k] ∧ t.mem = s.mem ∧
      t.launches = if k = 0 then s.launches ++ [(s.serial, { launchOf b with
        accepted := s.time, order := s.serial, fromHost := true })] else s.launches) ∧
  (∀ (s : State) (b0 b : List Byte) (c : CRef) (w : Crew) (l id : Nat) (rest : List (List Byte × Option (TRef × Nat))),
    s.packets = (b, some (⟨c.team, c.crew, l⟩, id)) :: rest → s.crew? c = some w → l < 64 →
    let k := packetStatus s b (launchOf b)
    Yields (.launchPacket b0 false) s fun t => t.packets = rest ∧ t.host = s.host ∧
      t.launches = (if k = 0 then s.launches ++ [(s.serial, { launchOf b with
        accepted := s.time, order := s.serial, fromHost := false })] else s.launches) ∧
      (t.thread ⟨c.team, c.crew, l⟩).out = (w.thread l).out.map fun o =>
        if o.id = id then { o with vals := some [BitVec.ofNat 32 k] } else o) ∧
  (∀ (s : State) (id : Nat) (la : Launch) (rest : List (Nat × Launch)), s.pendingLaunches = (id, la) :: rest →
    s.launch? id = some la →
    let taskFirst := s.taskFirst (effClass la.cls la.accepted s.time)
    (∀ core, (∀ i ∈ s.images, i.data.launch ≠ id) → la.coop = false → placeNext s id la [] = some [core] →
      (taskFirst = true → exec .teamAdmission s = .next s) ∧
      (taskFirst = false → s.team? s.serial = none → (∀ n, s.crew? ⟨s.serial, n⟩ = none) → Yields .teamAdmission s fun t =>
        t.mem = s.mem ∧ (t.launch? id).map (·.next) = some (la.next + 1) ∧
        (∃ tm, t.team? s.serial = some tm ∧ tm.launch = id ∧ tm.index = la.next ∧ tm.core = core ∧ tm.crews = la.crews ∧
          tm.handlers = la.handlers ∧ tm.scratch = [] ∧ tm.task = none ∧ tm.deferred = []) ∧
        (∀ x ∈ t.l1, x.core = core → x.owned = true ∨ x.valid = x.dirty) ∧
        ∀ n, n < la.crews → ∃ w, t.crew? ⟨s.serial, n⟩ = some w ∧ w.k = Vector.replicate 64 0 ∧ w.retired = 0 ∧
          ∀ l, l < 64 → (w.thread l).pc = la.entry ∧ (w.thread l).g = Vector.replicate 64 0 ∧ (w.thread l).p = 1 ∧
            (w.thread l).sup = false ∧ (w.thread l).exited = false ∧ (w.thread l).wait = .none ∧ (w.thread l).lane = [])) ∧
    ∀ u, (∃ i ∈ s.images, i.data.launch = id) → restoreFirst s id la [] = some u →
      exec .teamRestore s = .next (if taskFirst then s else u)) ∧
  (∀ (s : State) (i : Image) (core : Nat), s.traces = [] → s.team? i.team = none →
    (∀ n, s.crew? ⟨i.team, n⟩ = none) → let u := restoreOne s i core
    let det := (s.launch? i.data.launch).any (·.det)
    (∃ tm, u.team? i.team = some tm ∧ tm = { i.data with core := core, rank := tm.rank }) ∧
    (∀ x ∈ u.images, x.id ≠ i.id) ∧ ∀ n w, Tbl.at? i.crews ⟨i.team, n⟩ = some w → ∃ w', u.crew? ⟨i.team, n⟩ = some w' ∧
      w'.k = w.k ∧ w'.mask = w.mask ∧ w'.retired = w.retired ∧ ∀ l, l < 64 → SameRegs (w.thread l) (w'.thread l) ∧
        (w'.thread l).pc = (w.thread l).pc ∧ (w'.thread l).wait =
          if det then (w.thread l).wait.shift (· + (s.core core).steps) else (w.thread l).wait) ∧
  (∀ (s : State) (team : Nat) (tm : Team) (la : Launch), Idle s team tm → tm.task = none → s.launch? tm.launch = some la →
    Yields (.teamRetirement team) s fun t => Gone t team ∧ t.mem = s.mem ∧
      t.launch? tm.launch = some { la with retired := la.retired + 1 }) ∧
  ∀ (s : State) (id : Nat) (la : Launch), s.launch? id = some la →
    (la.done = true ∨ la.next < la.total ∨ la.retired < la.total ∨ completionWaits s la = true →
      exec (.launchCompletion id) s = .next s) ∧
    ∀ s1 pa, la.done = false → la.total ≤ la.next → la.total ≤ la.retired → la.det = false → la.atoms = [] →
      completionWaits s la = false → (∀ x ∈ s.l1, x.owned = true → x.dirty = 0) → s.flaws = [] →
      la.counter = 0 ∨ (translate s (.die 0) la.ctx la.counter false .write = (s1, .ok pa) ∧ s1.deadRange pa 8 = false) →
      Yields (.launchCompletion id) s fun t =>
        (t.launch? id).map (·.done) = some true ∧ t.host = s.host ++ (if la.notify then [.completion la.tag] else []) ∧
        t.mem = (if la.counter = 0 then s.mem else Mem.writeBytes s.mem pa (leBytes 8 (s.homeN pa 8 + 1))) ∧
        (∀ x ∈ t.clu, x.1.1 ≠ id) ∧ ∀ x ∈ t.chip, x.1.1 ≠ id

/-- R42 to R44, R228 to R230, R350, R351: a core takes the next task of its queue when it fits and no launch team of its class or a
higher goes first, and starts its threads at the record's entry; a record that breaks R42 is not run and its fault pends on the
spawner; a spilled entry returns to the queue; a task retires by commit, decrement of its successor's counter and append of the
successor. R232 to R234, R411 and R441: a request names teams; a named team is taken with all it holds, an aborted task goes back
to its queue, a team whose image finds no place goes on. What in it the model chose: assumptions 25, 30, 31, 43, 57, 69, 89, 98, 101 to 103. -/
def Obligations.TasksAndPreemption : Prop :=
  (∀ (s : State) (core src : Nat) (q : QTask) (la : Launch), nextTask s core = some (src, q) → s.launch? q.launch = some la →
    let busy := virtBusy s (dieOf core) q.ctx q.origin.sup .read q.record.toNat 64
    (busy = true → exec (.taskAdmission core) s = .next s) ∧
    ∀ s1 k, busy = false → readRecordOf s core q = (s1, some k) →
      (k.valid = false → (s.team? q.spawner).isSome → Yields (.taskAdmission core) s fun t =>
        (t.core src).tasks = (s.core src).tasks.erase q ∧ Pends t q.spawner 13 5) ∧
      (k.valid = true → (∃ a, s1.admission = some a ∧ effClass q.cls q.time s.time ≤ a.cls) ∨
        s1.fits core (taskNeed la q.launch k) = false → exec (.taskAdmission core) s = .next s1) ∧
      (k.valid = true → (∀ a, s1.admission = some a → a.cls < effClass q.cls q.time s.time) →
        s1.fits core (taskNeed la q.launch k) = true → s.team? s.serial = none → (∀ n, s.crew? ⟨s.serial, n⟩ = none) →
        Yields (.taskAdmission core) s fun t => (t.core src).tasks = (s.core src).tasks.erase q ∧ t.mem = s.mem ∧
          (∃ tm x, t.team? s.serial = some tm ∧ tm.core = core ∧ tm.launch = q.launch ∧ tm.task = some x ∧ x.record = q.record ∧
            x.arg = k.arg ∧ x.buffer = [] ∧ x.committed = false ∧ tm.x = k.x ∧ tm.y = k.y ∧ tm.z = k.z) ∧
          ∀ n, n ≤ k.flags.toNat % 16 → ∃ w, t.crew? ⟨s.serial, n⟩ = some w ∧ ∀ l, l < 64 → (w.thread l).pc = k.entry ∧
            (w.thread l).g = Vector.replicate 64 0 ∧ (w.thread l).exited = false)) ∧
  (∀ (s s1 s2 : State) (core base n removed : Nat) (q : QTask) (rest : List QTask) (e : List Byte),
    (s.core core).spilled = q :: rest → (s.core core).tasks.length < 256 → spillRing s q.ctx core = some (base, n) →
    readWord64 s (dieOf core) q.ctx (base + 8) = (s1, some removed) →
    readVirt s1 (dieOf core) q.ctx true (base + 64 + 16 * (removed % n)) 16 = (s2, .ok e) →
    Yields (.spillReturn core) s fun t => (t.core core).spilled = rest ∧ (t.core core).tasks =
      (s.core core).tasks ++ [{ q with record := BitVec.ofNat 64 (pk e 0 8), cls := pk e 8 1 % 4 }]) ∧
  (∀ (s : State) (team : Nat) (tm : Team) (k : Task), Idle s team tm → tm.task = some k → tm.abort = false →
    let stages := fun (n : Nat) (t : State) => (t.team? team).bind (·.task) = some { k with stage := n }
    let pc := match tm.lastEnd with | some e => e.2.2 | none => 0
    let lanes := match tm.lastEnd with | some e => laneBit e.2.1.lane | none => 0
    let busy := virtBusy s (dieOf tm.core) (s.teamCtx team) false .read k.successor.toNat 8
    (k.stage = 0 → k.committed = true → Yields (.taskRetirement team) s (stages 1)) ∧
    (∀ u, k.stage = 0 → s.commitBlocked team = false → commitTask s team pc lanes = (u, none) → exec (.taskRetirement team) s =
      .next ((releaseTeam u team tm).setTask team fun k => { k with stage := 1 })) ∧
    (∀ u f, k.stage = 0 → s.commitBlocked team = false → commitTask s team pc lanes = (u, some f) →
      exec (.taskRetirement team) s = .next (u.defer team f)) ∧
    (k.stage = 0 → s.commitBlocked team = true → exec (.taskRetirement team) s = .next s) ∧
    (k.stage = 1 → k.successor = 0 → Yields (.taskRetirement team) s (stages 3)) ∧
    (k.stage = 1 → k.successor ≠ 0 → successorBlocked s team tm k = true →
      exec (.taskRetirement team) s = .next s) ∧
    (∀ u, k.stage = 1 → k.successor ≠ 0 → successorBlocked s team tm k = false →
      (∀ last, decrementSuccessor s team tm k = (u, .ok last) → exec (.taskRetirement team) s =
        .next (u.setTask team fun k => { k with stage := if last then 2 else 3 })) ∧
      ∀ f, decrementSuccessor s team tm k = (u, .error f) → tm.lastEnd.isSome →
        Yields (.taskRetirement team) s fun t => Pends t team 13 17) ∧
    (k.stage = 2 → busy = true → exec (.taskRetirement team) s = .next s) ∧
    (∀ u, k.stage = 2 → busy = false →
      (appendSuccessor s team tm k = (u, true) →
        exec (.taskRetirement team) s = .next (u.setTask team fun k => { k with stage := 3 })) ∧
      (appendSuccessor s team tm k = (u, false) → tm.lastEnd.isSome →
        Yields (.taskRetirement team) s fun t => Pends t team 13 18)) ∧
    (3 ≤ k.stage → Yields (.taskRetirement team) s fun t => Gone t team ∧ t.mem = s.mem)) ∧
  (∀ (s : State) (ctx writer team : Nat),
    let names := fun (i : Instr) (abort : Bool) (ts : List Nat) => Yields i s fun t => t = { s with teams := t.teams } ∧
      ∀ x ∈ ts, ∀ tm, s.team? x = some tm → ∃ tm', t.team? x = some tm' ∧ tm'.preempt = true ∧
        (abort = true → tm'.abort = true) ∧ tm'.scratch = tm.scratch ∧ tm'.task = tm.task
    let index := BitVec.ofNat 64 (team % 2 ^ 32)
    names (.preemptTeam ctx writer team) false (preemptTargets s ctx writer index) ∧
    names (.preemptLaunch ctx writer) false ((namedLaunches s ctx writer).flatMap fun x => namedTeams s x none) ∧
    (preemptReserved s ctx writer (BitVec.ofNat 64 (2 ^ 62 + team % 2 ^ 32)) = false →
      names (.abortRequest ctx writer team) true (preemptTargets s ctx writer index))) ∧
  (∀ (s : State) (team : Nat) (tm : Team) (k : Task), s.team? team = some tm → saveReady s team tm = true → tm.abort = true →
    tm.abortable = true → tm.task = some k → (s.teams.map (·.1)).Nodup → Yields (.teamImageSave team) s fun t =>
      Gone t team ∧ t.mem = s.mem ∧
      (t.core tm.core).tasks = { k.queued with time := s.time, launch := tm.launch } :: (s.core tm.core).tasks) ∧
  ∀ (s : State) (team : Nat) (tm : Team), s.team? team = some tm →
    let ctx := s.teamCtx team
    let shared := match carried s team tm with | some a => a.size | none => 0
    let size := imageSize tm (s.copiesOf team tm.core).length shared true
    let left := fun (x : Wait) => if s.isDet team then x.shift (· - (s.core tm.core).steps) else x
    (saveReady s team tm = false → exec (.teamImageSave team) s = .next s) ∧
    (saveReady s team tm = true → tm.abort = false → s.traces = [] → (s.teams.map (·.1)).Nodup →
      (∀ x ∈ s.l1, x.crew.team = team ∨ (∃ c ∈ x.writers, c.team = team) → x.dirty = 0) →
      (∀ c w, (c, w) ∈ s.crews → c.team = team → w.fence = none ∧ ∀ l, l < 64 → (w.thread l).trap = none) →
      (∀ s2 a, findSlot s ctx tm.core size = (s2, .error a) → Yields (.teamImageSave team) s fun t =>
        t.images = s.images ∧ t.team? team = some { tm with preempt := false, preemptLate := false, abort := false }) ∧
      ∀ s2 s3 u slot va, findSlot s ctx tm.core size = (s2, .ok (slot, va)) → checkWritable s2 ctx tm.core va size = (s3, none) →
        setSlotBit s3 ctx tm.core slot true = (u, true) → Yields (.teamImageSave team) s fun t => Gone t team ∧
          t.mem = (writeVirt u (dieOf tm.core) ctx true va (imageBytes u team tm (carried u team tm) true)).1.mem ∧
          ∃ im, t.images = s.images ++ [im] ∧ im.team = team ∧ im.slot = slot ∧ im.data = { tm with
            preempt := false, preemptLate := false, abort := false } ∧ im.copies = s.copiesOf team tm.core ∧
            ∀ c w, s.crew? c = some w → c.team = team → ∃ w', Tbl.at? im.crews c = some w' ∧ w'.k = w.k ∧
              ∀ l, l < 64 → w'.thread l = { w.thread l with wait := left (w.thread l).wait })

/-! ## The host link, the control registers of a die, code search (R198 to R215, R242 to R245, R390 to R392, R434, R435) -/

/-- R242 and R435: a fetch starts from its registers and asks the host; arriving data is written, unless an earlier engine has still
to write there, and counted when it is complete; an error or 1 ms of silence leaves the fault of class 8 pending, and an
abandoned fetch is counted. R244 and R434: a publication sends its data and, once that is accepted, its counter; it waits for
earlier engines, and 1 ms after it was sent without acceptance it fails. R360, R391, R392, R390: periods, rail offsets, eye scans and self-tests take effect.
What in it the model chose: assumptions 25, 35, 49, 50, 72, 75. -/
def Obligations.LinkAndDieEvents : Prop :=
  (∀ (s : State) (ctx : Nat) (r : TRef) (y : Ctx), s.ctx? ctx = some y →
    (fetchOk y = false ∨ s.recallBlocked (y.fetchWords s ctx) none = true → exec (.hostFetchStart ctx r) s = .next s) ∧
    (fetchOk y = true → s.recallBlocked (y.fetchWords s ctx) none = false → y.fetches = [] →
      Yields (.hostFetchStart ctx r) s fun t =>
      t.host = s.host ++ [.readRequest y.hfsrc y.hflen.toNat] ∧ ((∀ x ∈ s.l1, x.owned = true → x.dirty = 0) → t.mem = s.mem) ∧
      ∃ f, t.ctx? ctx = some { y with fetches := [f] } ∧ f.src = y.hfsrc ∧ f.dst = y.hfdst ∧ f.length = y.hflen.toNat ∧
        f.written = 0 ∧ f.requested = true ∧ f.failed = false ∧
        f.marks = y.fetchWords s ctx)) ∧
  (∀ (s : State) (ctx : Nat) (y : Ctx) (f : Fetch) (rest : List Fetch) (tm : Team), s.ctx? ctx = some y → y.fetches = f :: rest →
    let count := fun (t : State) (b : Bool) => ∃ y', t.ctx? ctx = some y' ∧ y'.fetches.length = rest.length ∧
      y'.hfdone.toNat % 2 ^ 63 = (y.hfdone.toNat + 1) % 2 ^ 63 ∧ y'.hfdone.getLsbD 63 = b
    (f.failed = false → exec (.hostFetchAbandon ctx) s = .next s) ∧
    (f.failed = true → Yields (.hostFetchAbandon ctx) s fun t => count t true ∧ t.mem = s.mem) ∧
    (f.requested = true → f.failed = false →
      let words := fun (n : Nat) => engineWords s 0 ctx (f.dst.toNat + f.written) (min n (f.length - f.written))
      (∀ bytes, s.heldEarlier ⟨f.cycle, f.core, f.id⟩ (words bytes.length) = true →
        exec (.hostReadData ctx bytes false) s = .next s) ∧
      (∀ s1 bytes pa, bytes.length = 64 → f.written + 64 = f.length →
        s.heldEarlier ⟨f.cycle, f.core, f.id⟩ (words 64) = false → s1.shut pa = false → s.flaws = [] →
        translate s (.die 0) ctx (BitVec.ofNat 64 (f.dst.toNat + f.written)) true .write = (s1, .ok pa) →
        Yields (.hostReadData ctx bytes false) s fun t => count t false ∧ t.mem = Mem.writeBytes s.mem pa bytes) ∧
      (s.time < f.since + 1000000 → exec (.hostFetchTimeout ctx) s = .next s) ∧
      (s.team? f.team = some tm → (∀ bytes, Yields (.hostReadData ctx bytes true) s fun t => Pends t f.team 8 7) ∧
        (f.since + 1000000 ≤ s.time → Yields (.hostFetchTimeout ctx) s fun t => Pends t f.team 8 7)))) ∧
  (∀ (s : State) (ctx window : Nat) (p : Publication) (tm : Team), s.publication? ctx window = some p →
    let at_ := windowAt s ctx window
    let read := linkRead s ctx true p.rank at_ 32
    (∀ s1, p.sent = none → read = (s1, .waits) → exec (.publicationWrite ctx window) s = .next s1) ∧
    (∀ s1 cls code detail va, p.sent = none → s.team? p.thread.team = some tm → read = (s1, .failed cls code detail va) →
      Yields (.publicationWrite ctx window) s fun t =>
        t.publications = s.publications.erase p ∧ Pends t p.thread.team cls code) ∧
    (∀ s1 s2 d data, p.sent = none → read = (s1, .got d) →
      let descriptor := Window.ofBytes d
      linkRead s1 ctx p.sup p.rank descriptor.base descriptor.length = (s2, .got data) →
      let counter := descriptor.host + BitVec.ofNat 64 descriptor.length
      let sent := { p with sent := some (s.time, descriptor.host, counter, descriptor.version + 1) }
      Yields (.publicationWrite ctx window) s fun t => t.host = s.host ++ [.write descriptor.host data] ∧ t.mem = s.mem ∧
        t.publications = s.publications.map fun q => if q = p then sent else q) ∧
    (p.sent = none → exec (.publicationTimeout ctx window) s = .next s) ∧
    ∀ time host counter version, p.sent = some (time, host, counter, version) →
      let busy := virtBusy s 0 ctx true .write (at_ + 16) 8
      (busy = true → exec (.publicationWrite ctx window) s = .next s) ∧
      (∀ u, busy = false → writeVirt s 0 ctx true (at_ + 16) (leBytes 8 version) = (u, .ok ()) →
        Yields (.publicationWrite ctx window) s fun t => t.publications = u.publications.erase p ∧ t.mem = u.mem ∧
          t.host = u.host ++ [.write counter (leBytes 8 version)]) ∧
      (s.time < time + 1000000 → exec (.publicationTimeout ctx window) s = .next s) ∧
      (s.team? p.thread.team = some tm → time + 1000000 ≤ s.time → Yields (.publicationTimeout ctx window) s fun t =>
        t.publications = s.publications.erase p ∧ Pends t p.thread.team 8 8)) ∧
  (∀ (s : State) (job : BitVec 16) (j : Job) (period : Word), s.job? job = some j →
    (period.toNat < 256 → exec (.setFabricPeriod job period) s = .next s) ∧
    (256 ≤ period.toNat → Yields (.setFabricPeriod job period) s fun t => t.job? job = some { j with period := period })) ∧
  ∀ (s : State) (die : Nat), die < 4 →
    let d := s.die die
    (∀ rail step, rail < 7 → s.due.rails = [] → Yields (.railOffsetWrite die rail step) s fun t =>
      t = { s with due := t.due } ∧ ((applyRails t).die die).rails.getD rail 0 = clampStep step ∧
      (clampStep step).toInt = max (-20) (min 20 step.toInt) ∧
      ∀ x, x ≠ rail → ((applyRails t).die die).rails.getD x 0 = d.rails.getD x 0) ∧
    (∀ ctx, let words := engineWords s die ctx d.eyeaddr.toNat 4096
      (d.scan.isSome ∨ s.recallBlocked words none = true → exec (.eyeScanStart die ctx) s = .next s) ∧
      (d.scan = none → s.recallBlocked words none = false → Yields (.eyeScanStart die ctx) s fun t =>
        t.die die = { d with scan := some ⟨d.eyesel, d.eyeaddr, ctx, s.serial, s.cycle, 64 * die, words⟩ } ∧
        ((∀ x ∈ s.l1, x.owned = true → x.dirty = 0) → t.mem = s.mem))) ∧
    (∀ x u, d.scan = some x →
      (s.heldEarlier ⟨x.cycle, x.core, x.id⟩ x.marks = true → exec (.eyeScanComplete die) s = .next s) ∧
      (s.heldEarlier ⟨x.cycle, x.core, x.id⟩ x.marks = false →
        writeVirt s die x.ctx true x.addr.toNat (eyeBytes s.fresh) = (u, .ok ()) →
        Yields (.eyeScanComplete die) s fun t => t.die die = { d with scan := none } ∧ t.mem = u.mem)) ∧
    ∀ r id k rest, d.bists = (r, id, k) :: rest →
      let test := k.toNat % 256
      let target := k.toNat / 256 % 256
      (bistRefused s r.team (s.teamCore r.team) test target = true → Yields (.bistComplete die) s fun t =>
        t.die die = { d with bists := rest } ∧ t.mem = s.mem ∧ ∀ w, s.crew? r.cref = some w → r.lane < 64 →
          (t.thread r).out = (w.thread r.lane).out.map fun o => if o.id = id then { o with vals := some [2] } else o) ∧
      (bistRefused s r.team (s.teamCore r.team) test target = false → Yields (.bistComplete die) s fun t =>
        (t.die die).bists = rest ∧ (t.die die).bistres.toNat % 2 ^ 16 = target * 256 + test ∧
        ((t.die die).bistres.toNat / 2 ^ 32 = 0 → (t.die die).bistfail = 0) ∧ (s.flaws = [] → t.mem = s.mem))

/-- R199 to R203 and R238: the counts are read and cleared and the best window is studied; in a slot that a port leaves, a candidate
that the samples admit is installed in probation, or a search without one leaves the window barren. R205, R206 and R213: threads
at an installed window execute its words or the candidate's and stand after it. R207, R208 and R459 to R462: comparisons promote,
discard or withdraw; promoted entries are copied; a withdrawal leaves no store with the candidate and its fault on the teams that
used it. What in it the model chose: assumptions 58 to 61. -/
def Obligations.CodeSearch : Prop :=
  (∀ (s : State) (core : Nat),
    let w := (s.core core).weevil
    (s.cycle < w.lastRead + 2 ^ 20 → exec (.weevilWindowSelect core) s = .next s) ∧
    (w.lastRead + 2 ^ 20 ≤ s.cycle → Yields (.weevilWindowSelect core) s fun t =>
      let v := (t.core core).weevil
      v.counts = [] ∧ v.lastRead = s.cycle ∧ (∀ x, w.study = some x → v.study = some x) ∧
      (∀ n ∈ w.counts, (studyAt s core w n).isSome = true → w.study = none →
        ∃ m ∈ w.counts, n.2 ≤ m.2 ∧ v.study = studyAt s core w m)) ∧
    ∀ x, w.study = some x →
      (s.searchSlot core = false ∨ (w.idle < 2 ^ 24 ∧ noCandidate x w.samples = false) →
        exec (.windowBarren core) s = .next s) ∧
      (∀ words exact id, (s.searchSlot core = false ∨ candidateFits x w.samples words exact = false →
          exec (.candidateInstall core words exact id) s = .next s) ∧
        (s.searchSlot core = true → candidateFits x w.samples words exact = true → s.freshId id = true →
          w.holds x.ctx x.code x.window = false → Yields (.candidateInstall core words exact id) s fun t => t.mem = s.mem ∧
            ∃ n e, Tbl.at? (t.core core).weevil.store n = some e ∧ e.cand = id ∧ e.words = words ∧ e.orig = x.words ∧
              e.window = x.window ∧ e.promoted = false ∧ e.exact = exact)) ∧
      (s.searchSlot core = true → w.samples.length = 64 → w.holds x.ctx x.code x.window = false →
        2 ^ 24 ≤ w.idle ∨ noCandidate x w.samples = true → Yields (.windowBarren core) s fun t =>
          (t.core core).weevil = { w with study := none, idle := 0, barren := w.barren ++ [(x.ctx, x.window)] })) ∧
  (∀ (s : State) (c : CRef) (w : Crew) (l n lid : Nat) (la : Launch) (e : SubEntry), s.crew? c = some w → l < 64 →
    s.cur.lanes = [(c, laneBit l)] → s.cur.traps = [] → (w.thread l).late = none → s.traces = [] → s.trials = [] →
    s.teamLaunch? c.team = some (lid, la) → Tbl.at? (s.core s.cur.core).weevil.store n = some e →
    entryUsable s la (w.thread l).pc e = true → s.banksMissing s.cur.core lid e = [] →
    let bank := s.bankAs s.cur.core lid
    let alone := match treatment (s.core s.cur.core).weevil la.dropped e (liveIns e.orig w bank (w.thread l)) with
      | .alone _ => true
      | _ => false
    let words := if alone then e.words else e.orig
    let x := windowRun w.kReg w.taintK bank (w.thread l) words
    Yields (.windowExecution n) s fun t => ∃ w', t.crew? c = some w' ∧ SameRegs x (w'.thread l) ∧
      (w'.thread l).pc = (w.thread l).pc + BitVec.ofNat 64 (4 * e.orig.length) ∧
      (w'.thread l).readyAt = s.cycle + 8 * words.length ∧ w'.k = w.k ∧
      w'.retired = w.retired + BitVec.ofNat 64 e.orig.length ∧ (∀ y, y ≠ l → w'.thread y = w.thread y) ∧ t.mem = s.mem) ∧
  (∀ (s : State) (core n : Nat) (p : Pending) (rest : List Pending) (e : SubEntry),
    let w := (s.core core).weevil
    w.pending = p :: rest →
    (w.store.find? fun x => x.2.cand == p.entry.cand && x.2.window == p.entry.window) = some (n, e) →
    let ran := weevilRun p.live p.entry.words
    let same := leftG p.entry.orig ran = p.results ∧ leftP p.entry.orig ran = p.preds
    let seen := addSeen (operandsOf e.orig) p.live e.seen
    let enough := 2 ^ (e.policy.toNat / 2 ^ 8 % 16) ≤ e.equal + 1 ∧
      coverageMet (e.policy.toNat / 4 % 4) (operandsOf e.orig) seen = true
    let late := 16 * 2 ^ (e.policy.toNat / 2 ^ 8 % 16) ≤ e.equal + 1
    let leaves := fun (q : List (Nat × SubEntry) → Prop) => Yields (.dualRunComparison core) s fun t =>
      (t.core core).weevil.pending = rest ∧ q (t.core core).weevil.store
    (s.slotLeft core = false → exec (.dualRunComparison core) s = .next s) ∧ (s.slotLeft core = true →
      (same → e.promoted = true → leaves fun st => (n, { e with seen := seen }) ∈ st) ∧
      (same → e.promoted = false → enough → leaves fun st => (n, { e with
        seen := seen, equal := e.equal + 1, promoted := true, count := 0 }) ∈ st) ∧
      (same → e.promoted = false → ¬ enough → ¬ late → leaves fun st => (n, { e with
        seen := seen, equal := e.equal + 1 }) ∈ st) ∧
      (same → e.promoted = false → ¬ enough → late → leaves fun st => ∀ x ∈ st, x.1 ≠ n) ∧
      (¬ same → e.promoted = false → leaves fun st => ∀ x ∈ st, x.1 ≠ n) ∧
      (¬ same → e.promoted = true → Yields (.dualRunComparison core) s fun t =>
        (t.core core).weevil.pending = rest ∧
        if (∃ y, s.ctx? e.ctx = some y ∧ e.cand ∈ y.withdrawn) ∨ ∃ x ∈ s.withdrawals, x.cand = e.cand then
          t.withdrawals = s.withdrawals ∧ (t.core core).weevil.store = w.store
        else t.withdrawals = s.withdrawals ++ [⟨e.cand, e.ctx, e.code, e.window, s.time⟩] ∧
          ∀ x ∈ (t.core core).weevil.store, x.2.cand ≠ e.cand))) ∧
  (∀ (s : State) (source target cand n : Nat) (e : SubEntry),
    ((s.core source).weevil.store.find? fun x => x.2.cand == cand) = some (n, e) →
    (s.replicates source target e = false ∨ s.replicationSlot source = false →
      exec (.entryReplication source target cand) s = .next s) ∧
    (s.replicates source target e = true → s.replicationSlot source = true → Yields (.entryReplication source target cand) s
      fun t => ∃ k, (k, { e with count := 0, use := s.cycle }) ∈ (t.core target).weevil.store)) ∧
  ∀ (s : State) (cand : Nat) (x : Withdrawal), (s.withdrawals.find? fun y => y.cand == cand) = some x →
    Yields (.candidateWithdrawal cand) s fun t => (∀ k ∈ t.cores, ∀ e ∈ k.2.weevil.store, e.2.cand ≠ cand) ∧
      (∀ y ∈ t.withdrawals, y.cand ≠ cand) ∧
      ∀ team tm la, s.images = [] → s.team? team = some tm → s.launch? tm.launch = some la → la.ctx = x.ctx →
        tm.used cand = true → (s.teams.map (·.1)).Nodup → if tm.abortable then (t.team? team).map (·.abort) = some true else
          ∃ tm' d, t.team? team = some tm' ∧ d ∈ tm'.deferred ∧ d.cls = 11 ∧ d.code = 1 ∧ d.detail = cand

/-! ## Debug and management (R374 to R398, R473 to R479) -/

/-- R374 to R377: stops, resumes and breakpoints of teams; a stop writes its dump. R378, R381 and R382: traces begin, end and
recover. R383 and R384: trials and samples are started, counted and reported. A command that names no launch is answered with
status 5, one with a value outside its range with 2. What in it the model chose: assumptions 25, 37 to 39, 43, 44, 50, 75. -/
def Obligations.DebugCommands : Prop :=
  (∀ (s : State) (seq ctx : Nat) (tag dump : DWord) (team : Option Nat) (memory : Bool),
    let ts := chosenTeams s (taggedLaunches s ctx tag) team
    (ts = [] → Answers (.stop seq ctx tag team dump memory) s 2 seq 5 [] (fun t => t.teams = s.teams) ∧
      Answers (.resume seq ctx tag team) s 3 seq 5 [] fun t => t.teams = s.teams) ∧
    (ts ≠ [] → Answers (.stop seq ctx tag team dump memory) s 2 seq 0 [] (fun t => t.crews = s.crews ∧ t.mem = s.mem ∧
      ∀ x ∈ ts, ∀ tm, s.team? x = some tm → tm.stopped = false →
        (t.team? x).map (·.stopWanted) = some (some (some dump, memory))) ∧
      Answers (.resume seq ctx tag team) s 3 seq 0 [] fun t => t.mem = s.mem ∧ ∀ x ∈ ts, ∀ tm, s.team? x = some tm →
        ∃ tm', t.team? x = some tm' ∧ tm'.stopped = false ∧ tm'.stopWanted = none ∧ tm'.breakHit = none)) ∧
  (∀ (s : State) (team : Nat) (tm : Team), s.team? team = some tm →
    (stopReady s team tm = false → exec (.teamStop team) s = .next s) ∧
    (stopReady s team tm = true → s.traces = [] → Yields (.teamStop team) s fun t => t.crews = s.crews ∧
      t.mem = (match (dumpAt s tm).1 with
        | none => s.mem
        | some a => (writeVirt s (dieOf tm.core) (s.teamCtx team) true a.toNat
            (imageBytes s team tm none (dumpAt s tm).2)).1.mem) ∧
      t.team? team = some { tm with stopped := true, stopWanted := none, breakHit := none })) ∧
  (∀ (s : State) (launch number offset : Nat) (dump : DWord) (la : Launch), s.launch? launch = some la →
    (4 ≤ number → ∀ o, exec (.setBreakpoint launch number o dump) s = .next s) ∧
    (number < 4 → offset % 2 = 0 → Yields (.setBreakpoint launch number (some offset) dump) s fun t =>
      (t.launch? launch).bind (fun x => Tbl.at? x.breakpoints number) = some (offset, dump) ∧ t.teams = s.teams) ∧
    (number < 4 → Yields (.setBreakpoint launch number none dump) s fun t =>
      t.launch? launch = some { la with breakpoints := Tbl.del la.breakpoints number } ∧ t.teams = s.teams)) ∧
  (∀ (s : State) (seq ctx : Nat) (tag : DWord), taggedLaunches s ctx tag = [] →
    (∀ team base size, Answers (.traceOn seq ctx tag team base size) s 4 seq 5 [] fun t => t.traces = s.traces) ∧
    (∀ team, Answers (.traceOff seq ctx tag team) s 5 seq 5 [] fun t => t.traces = s.traces) ∧
    (∀ lo hi delay duration result, Answers (.causalTrial seq ctx tag lo hi delay duration result) s 6 seq 5 [] fun t =>
      t.trials = s.trials) ∧
    ∀ period lo g result, Answers (.sampling seq ctx tag period lo g result) s 7 seq 5 [] fun t =>
      t.samplings = s.samplings) ∧
  (∀ (s : State) (seq ctx id : Nat) (tag : DWord) (more : List Nat), taggedLaunches s ctx tag = id :: more →
    (∀ team base size, let ok := base.toNat % 4096 = 0 ∧ base.toNat < 2 ^ 52 ∧ size % 4096 = 0 ∧ 65536 ≤ size ∧ size ≤ 2 ^ 30
      (¬ ok → Answers (.traceOn seq ctx tag team base size) s 4 seq 2 [] fun t => t.traces = s.traces) ∧
      (ok → (∀ x ∈ s.teams, x.2.launch ≠ id) → Answers (.traceOn seq ctx tag team base size) s 4 seq 0 [] fun t =>
        t.mem = s.mem ∧ ∃ x ∈ t.traces, x.launch = id ∧ x.team = team ∧ x.base = base ∧ x.size = size)) ∧
    (∀ team, (∃ x ∈ s.traces, x.launch = id ∧ x.team = team) → Answers (.traceOff seq ctx tag team) s 5 seq 0 [] fun t =>
      ∀ x ∈ t.traces, x ∈ s.traces ∧ ¬ (x.launch = id ∧ x.team = team)) ∧
    (∀ lo hi delay duration result,
      let ok := 1 ≤ delay ∧ delay ≤ 64 ∧ lo ≤ hi ∧ result.toNat % 8 = 0 ∧ result.toNat < 2 ^ 52
      (¬ ok → Answers (.causalTrial seq ctx tag lo hi delay duration result) s 6 seq 2 [] fun t => t.trials = s.trials) ∧
      (ok → (∃ x ∈ s.trials, x.launch = id) → Answers (.causalTrial seq ctx tag lo hi delay duration result) s 6 seq 1 []
        fun t => t.trials = s.trials) ∧
      (ok → (∀ x ∈ s.trials, x.launch ≠ id) → Answers (.causalTrial seq ctx tag lo hi delay duration result) s 6 seq 0 []
        fun t => ∃ x, t.trials = s.trials ++ [x] ∧ x.launch = id ∧ x.lo = lo ∧ x.hi = hi ∧ x.delay = delay ∧
          x.start = s.time ∧ x.duration = duration ∧ x.inside = 0 ∧ x.outside = 0)) ∧
    ∀ period lo g result,
      let ok := 8 ≤ period ∧ period ≤ 20 ∧ 2 ≤ g ∧ g ≤ 16 ∧ result.toNat % 4 = 0 ∧ result.toNat < 2 ^ 52
      (¬ ok → Answers (.sampling seq ctx tag period lo g result) s 7 seq 2 [] fun t => t.samplings = s.samplings) ∧
      (ok → (∃ x ∈ s.samplings, x.launch = id) → Answers (.sampling seq ctx tag period lo g result) s 7 seq 1 [] fun t =>
        t.samplings = s.samplings) ∧
      (ok → (∀ x ∈ s.samplings, x.launch ≠ id) → Answers (.sampling seq ctx tag period lo g result) s 7 seq 0 [] fun t =>
        t.samplings = s.samplings ++ [⟨id, period, lo, g, result, [], [], []⟩])) ∧
  (∀ (s : State) (core : Nat), (∀ x ∈ s.traces, Tbl.atD x.lost core 0 = 0) →
    exec (.traceRecovery core) s = .next (s.setCore core fun k => { k with tracePending := 0 })) ∧
  (∀ (s : State) (core : Nat) (x : Trace), s.traces = [x] → Tbl.atD x.lost core 0 ≠ 0 →
    let s0 := s.setCore core fun k => { k with tracePending := 0 }
    let y := putRecord s0 x.launch x.team core (eventBytes 8 0 0 0 s.time (Tbl.atD x.lost core 0) 0)
    let put := y.recordCount x.launch x.team core ≠ s.recordCount x.launch x.team core
    (¬ put → exec (.traceRecovery core) s = .next y) ∧
    (put → ∀ z, y.trace? x.launch x.team = some z → exec (.traceRecovery core) s =
      .next (syncGroup (y.setTrace { z with lost := Tbl.put z.lost core 0 }) x core false))) ∧
  (∀ (s : State) (launch : Nat) (x : Trial) (la : Launch) (y : Ctx), (s.trials.find? fun y => y.launch == launch) = some x →
    s.launch? launch = some la → s.ctx? la.ctx = some y →
    (s.time < x.start + x.duration → exec (.causalTrialEnd launch) s = .next s) ∧
    (x.start + x.duration ≤ s.time → Yields (.causalTrialEnd launch) s fun t => (∀ y ∈ t.trials, y.launch ≠ launch) ∧
      t.mem = (writeVirt s 0 la.ctx true x.result.toNat (trialBytes x s.time y.prog.toList)).1.mem)) ∧
  (∀ (s : State) (core p : Nat) (r : TRef) (x : Sampling) (la : Launch), s.samplings = [x] →
    (s.cycle < Tbl.atD x.lastTick core 0 + 2 ^ x.shift → exec (.sampleTick core) s = .next s) ∧
    (Tbl.atD x.lastTick core 0 + 2 ^ x.shift ≤ s.cycle → s.launch? x.launch = some la →
      ((sampleThreads s core x.launch).find? fun t => Tbl.atD x.places core 0 ≤ t.1) = some (p, r) →
      let key := (dieOf core, bucketOf x la.code ((s.thread r).sampledPc s.cycle), sampleReason s r)
      Yields (.sampleTick core) s fun t => ∃ y, t = { s with samplings := [y] } ∧ Tbl.atD y.places core 0 = p + 1 ∧
        Tbl.atD y.counts key 0 = min (2 ^ 32 - 1) (Tbl.atD x.counts key 0 + 1) ∧
        ∀ k, k ≠ key → Tbl.atD y.counts k 0 = Tbl.atD x.counts k 0)) ∧
  ∀ (s : State) (launch die bucket reason n : Nat) (x : Sampling) (la : Launch),
    (s.samplings.find? fun y => y.launch == launch) = some x → s.launch? launch = some la →
    x.counts = [((die, bucket, reason), n)] →
    let va := x.result.toNat + 4 * (16 * bucket + reason)
    let busy := deviceAtomWaits s die la.ctx true (BitVec.ofNat 64 va) 4
    (busy = true → exec (.histogramFlush launch) s = .next s) ∧
    ∀ s1 pa, busy = false → translate s (.die die) la.ctx (BitVec.ofNat 64 va) true .write = (s1, .ok pa) →
      (∀ w ∈ s.l1, w.owned = true → w.dirty = 0) → s.flaws = [] → s1.deadRange pa 4 = false →
      Yields (.histogramFlush launch) s fun t => (∀ y ∈ t.samplings, y.launch ≠ launch) ∧
        t.mem = Mem.writeBytes s.mem pa (leBytes 4 (s.homeN pa 4 + n))

/-- R386 to R398, R178 to R182, R26, R18, R246: the management commands. Each answers the request with its status and data; what a
command refuses changes nothing. A defect map names a spare only for a disabled core of its pair of clusters; the capability table
opens with its header record. What in it the model chose: assumptions 52, 53, 72, 91, 92. -/
def Obligations.ManagementCommands : Prop :=
  (∀ (s : State) (seq offset length : Nat),
    (length ≤ 4080 → offset + length ≤ 0x100000 →
      Answers (.readCapabilityTable seq offset length) s 1 seq 0 (s.homeBytes offset length) fun t => t.mem = s.mem) ∧
    (4080 < length ∨ 0x100000 < offset + length →
      Answers (.readCapabilityTable seq offset length) s 1 seq 2 [] fun t => t.mem = s.mem) ∧
    s.homeBytes 0 8 = [10, 0, 1, 0, 0x54, 0x46, 0x4B, 0x34] ∧
    ∀ command, Answers (.unknownCommand seq command) s command seq (if command ∈ commands then 2 else 0xFFFF) []
        (fun t => t.mem = s.mem) ∧
      ∀ status data, (HostMsg.reply command seq status data).frame =
        leBytes 2 command ++ leBytes 2 seq ++ leBytes 4 data.length ++ [0, 0, 0, 0, 0, 0] ++ leBytes 2 status ++ data) ∧
  (∀ (s : State) (seq core : Nat),
    (core < 256 → Answers (.coreResume seq core) s 8 seq 0 [] fun t =>
      t.core core = { s.core core with halted := false, halting := false }) ∧
    (256 ≤ core → Answers (.coreResume seq core) s 8 seq 5 [] fun t => t.cores = s.cores)) ∧
  (∀ die spare core, spareFills die spare = some core →
    16 * spare ≤ core ∧ core < 16 * spare + 16 ∧ (spare < 4 → coreDisabled die core = true)) ∧
  (∀ (s : State) (seq die : Nat), die < 4 →
    Answers (.readDefectMap seq die) s 16 seq 0 ((upto 64).map (defectMapByte die)) (fun t => t.mem = s.mem) ∧
    Answers (.readAgeing seq die) s 19 seq 0 (leBytes 8 (s.die die).age.toNat) (fun t => t.mem = s.mem) ∧
    (∀ rail step, rail < 7 → s.due.rails = [] → Answers (.setRailOffset seq die rail step) s 17 seq 0 [] fun t =>
      (((applyRails t).die die).rails.getD rail 0).toInt = max (-20) (min 20 step.toInt)) ∧
    ∀ kind port lane result, (kind = 0 ∧ port < 24 ∧ lane < 2) ∨ (kind = 1 ∧ port < 2 ∧ lane < 64) → result.toNat % 4096 = 0 →
      let x := s.takeFree
      let held := x.2.recallBlocked (scanWords x.2 die (x.1.toNat % 4096) result) none
      ((s.die die).scan = none → held = false → Answers (.eyeScan seq die kind port lane result) s 18 seq 0 [] fun t =>
        ∃ x, (t.die die).scan = some x ∧ x.addr = result ∧ x.sel = BitVec.ofNat 32 (kind * 2 ^ 15 + port * 2 ^ 6 + lane)) ∧
      ((s.die die).scan ≠ none ∨ held = true → Answers (.eyeScan seq die kind port lane result) s 18 seq 1 [] fun t =>
        t.dies = s.dies)) ∧
  (∀ (s : State) (seq : Nat) (nonce : List Byte),
    (nonce.length ≠ 32 → Answers (.attest seq nonce) s 32 seq 2 [] fun t => t.mem = s.mem) ∧
    (nonce.length = 32 → ∃ own, own.length = 2820 ∧
      Answers (.attest seq nonce) s 32 seq 0
        (leBytes 8 s.time ++ leBytes 1 s.modl.lifecycle ++ [1, 0, 0, 0, 0, 0, 0] ++ nonce ++ shake256 s.modl.firmware ++
          shake256 (capTable s.resets s.modl.lifecycle s.modl.tableAges s.modl.firmware).1 ++
          shake256 ((upto 4).flatMap fun d => (upto 64).map (defectMapByte d)) ++ own) fun t => t.mem = s.mem)) ∧
  (∀ (s : State) (seq new : Nat) (a : List Byte),
    let unchanged := fun (t : State) => t.modl = s.modl ∧ t.mem = s.mem
    let ages := (upto 4).map fun d => (s.die d).age
    let refused : List HostMsg := match (capTable (s.resets + 1) new ages s.modl.firmware).2 with
      | some off => [.notice 0x8004 [BitVec.ofNat 64 off]]
      | none => []
    (lifecyclePermits s.modl.lifecycle new = false → Answers (.changeLifecycleState seq new a) s 33 seq 2 [] unchanged) ∧
    (lifecyclePermits s.modl.lifecycle new = true →
      (Config.authorisationVerifies a new = false → Answers (.changeLifecycleState seq new a) s 33 seq 3 [] unchanged) ∧
      (Config.authorisationVerifies a new = true → (∃ x ∈ s.launches, x.2.done = false) →
        Answers (.changeLifecycleState seq new a) s 33 seq 1 [] unchanged) ∧
      (Config.authorisationVerifies a new = true → (∀ x ∈ s.launches, x.2.done = true) →
        Yields (.changeLifecycleState seq new a) s fun t => t.host = s.host ++ refused ++ [.reply 33 seq 0 []] ∧
          t.modl.lifecycle = new ∧ t.mem = [] ∧ t.resets = s.resets + 1))) ∧
  (∀ (s : State) (seq address length : Nat),
    (inHole address = true ∨ inHole (address + length - 1) = true ∨ length = 0 →
      Answers (.installFirmware seq address length) s 34 seq 2 [] fun t => t.modl = s.modl) ∧
    (inHole address = false → inHole (address + length - 1) = false → length ≠ 0 →
      let shut := s.shut address || s.shut (address + length - 1)
      (shut = true → Answers (.installFirmware seq address length) s 34 seq 1 [] fun t => t.modl = s.modl) ∧
      (shut = false → if s.deadRange address length = false ∧ Config.firmwareVerifies (s.homeBytes address length) = true then
        Answers (.installFirmware seq address length) s 34 seq 0 [] fun t =>
          t.modl = { s.modl with nextFirmware := some (s.homeBytes address length) }
      else Answers (.installFirmware seq address length) s 34 seq 3 [] fun t => t.modl = s.modl))) ∧
  (∀ (s : State) (seq ctx : Nat),
    (∀ root save spill,
      (ctx < 4096 → s.ctx? ctx = none → Answers (.createLaunchContext seq ctx root save spill) s 35 seq 0 []
        fun t => t.ctx? ctx = some { Ctx.reset with ptroot := root, saveaddr := save, taskspill := spill }) ∧
      (4096 ≤ ctx ∨ s.ctx? ctx ≠ none → Answers (.createLaunchContext seq ctx root save spill) s 35 seq 2 []
        fun t => t.ctxs = s.ctxs)) ∧
    (s.ctx? ctx = none → Answers (.destroyLaunchContext seq ctx) s 36 seq 5 [] fun t => t.ctxs = s.ctxs) ∧
    ∀ y, s.ctx? ctx = some y →
      ((∀ x ∈ s.launches, x.2.ctx = ctx → x.2.done = true) → y.fetches = [] → (s.ctxs.map (·.1)).Nodup →
        Answers (.destroyLaunchContext seq ctx) s 36 seq 0 [] fun t => t.ctx? ctx = none) ∧
      ((∃ x ∈ s.launches, x.2.ctx = ctx ∧ x.2.done = false) ∨ y.fetches ≠ [] →
        Answers (.destroyLaunchContext seq ctx) s 36 seq 1 [] fun t => t.ctxs = s.ctxs)) ∧
  (∀ (s : State) (seq die tier offset length : Nat) (data : List Byte), die < 4 → tier < 2 →
    let pa := die * 2 ^ 40 + tier * 2 ^ 39 + offset
    let limit := (if tier = 0 then 48 else 192) * 2 ^ 30
    (data.length ≤ 4048 → offset + data.length ≤ limit → 0x110000 ≤ pa →
      (s.shut pa = false → s.flaws = [] → Answers (.writePhysicalMemory seq die tier offset data) s 37 seq 0 [] fun t =>
        t.mem = Mem.writeBytes s.mem pa data) ∧
      (s.shut pa = true → Answers (.writePhysicalMemory seq die tier offset data) s 37 seq 1 [] fun t => t.mem = s.mem)) ∧
    (4048 < data.length ∨ limit < offset + data.length ∨ pa < 0x110000 →
      Answers (.writePhysicalMemory seq die tier offset data) s 37 seq 2 [] fun t => t.mem = s.mem) ∧
    (length ≤ 4080 → offset + length ≤ limit →
      (s.shut pa = false → Answers (.readPhysicalMemory seq die tier offset length) s 38 seq 0 (s.homeBytes pa length) fun t =>
        t.mem = s.mem) ∧
      (s.shut pa = true → Answers (.readPhysicalMemory seq die tier offset length) s 38 seq 1 [] fun t => t.mem = s.mem)) ∧
    (4080 < length ∨ limit < offset + length →
      Answers (.readPhysicalMemory seq die tier offset length) s 38 seq 2 [] fun t => t.mem = s.mem)) ∧
  (∀ (s : State) (seq number : Nat) (source : Option Nat), number < 65536 → (∀ p, source = some p → p < 24) →
    let same := s.modl.identified = true ∧ s.modl.number.toNat = number ∧ s.modl.timeSource = source
    (¬ same → Answers (.setFabricIdentity seq number source) s 48 seq 0 [] fun t =>
      t.modl = { s.modl with identified := true, number := BitVec.ofNat 16 number, timeSource := source, locked := source.isNone }) ∧
    (same → Answers (.setFabricIdentity seq number source) s 48 seq 0 (leBytes 8 s.modl.locked.toNat) fun t =>
      t.modl = s.modl)) ∧
  ∀ (s : State) (seq job : Nat), 0 < job → job < 65536 →
    let n := BitVec.ofNat 16 job
    let same := fun (t : State) => t.fabric = s.fabric
    (s.job? n = none → s.fabric.jobs.length < 64 → Answers (.openJobSlot seq job) s 49 seq 0 [] fun t =>
      ∃ j, t.job? n = some j ∧ j.routes = [] ∧ j.treeSet = false ∧ ∀ i, j.counters.getD i ⟨0, 0, 0⟩ = ⟨0, 0, 0⟩) ∧
    (s.job? n = none → 64 ≤ s.fabric.jobs.length → Answers (.openJobSlot seq job) s 49 seq 4 [] same) ∧
    (s.job? n = none → Answers (.closeJobSlot seq job) s 50 seq 5 [] same ∧
      (∀ es, Answers (.loadRouteTable seq job es) s 51 seq 5 [] same) ∧
      ∀ root parent children, Answers (.setWaveTree seq job root parent children) s 52 seq 5 [] same) ∧
    ∀ j, s.job? n = some j →
      Answers (.openJobSlot seq job) s 49 seq 2 [] same ∧
      ((∀ x ∈ s.launches, x.2.job = n → x.2.done = true) → Answers (.closeJobSlot seq job) s 50 seq 0 [] fun t =>
        t.job? n = none) ∧
      ((∃ x ∈ s.launches, x.2.job = n ∧ x.2.done = false) → Answers (.closeJobSlot seq job) s 50 seq 1 [] same) ∧
      (∀ es, (badRoutes s.modl.number j es = false → Answers (.loadRouteTable seq job es) s 51 seq 0 [] fun t =>
          t.job? n = some { j with routes := es }) ∧
        (badRoutes s.modl.number j es = true → Answers (.loadRouteTable seq job es) s 51 seq 2 [] same)) ∧
      ∀ root parent children,
        let ok := root = holdsRoot s.modl.number j.routes ∧ (root = true ∨ parent < 96)
        (ok → Answers (.setWaveTree seq job root parent children) s 52 seq 0 [] fun t =>
          t.job? n = some { j with treeSet := true, root := root, parent := parent, childPorts := children }) ∧
        (¬ ok → Answers (.setWaveTree seq job root parent children) s 52 seq 2 [] same)

/-- R13, R26, R28, R29, R395, R399 and R473 to R479: the warm reset of a die ends the launches on it, moves its counts and wipes
its memory, and its readmission and the opening of its tiers follow; scrubbing leaves and logs an uncorrectable sector; the
hourly log, ageing, clock, beacons and flits; a timestamp ahead of its source stands still; a module reset leaves the state after
reset with what fuses and firmware hold. What in it the model chose: assumptions 52 to 55, 85, 107. -/
def Obligations.DeviceMaintenance : Prop :=
  (∀ (s : State) (die : Nat),
    (die = 0 ∨ 4 ≤ die ∨ (s.die die).inReset = true → exec (.dieReset die) s = .next s) ∧
    (0 < die → die < 4 → (s.die die).inReset = false → s.anyReset = true →
      exec (.dieReset die) s = .next (s.setDie die fun d => { d with resetDue := true })) ∧
    (0 < die → die < 4 → s.anyReset = false → Yields (.dieReset die) s fun t =>
      (t.die die).inReset = true ∧ (t.die die).closed = true ∧ .notice 0x8002 [BitVec.ofNat 64 die] ∈ t.host ∧
        (∀ x ∈ t.mem, homeDie x.1 ≠ die) ∧ (∀ x ∈ t.tlb, x.at_.dieNo ≠ die) ∧ (∀ x ∈ t.chip, x.1.2 ≠ die) ∧
        (∀ x ∈ t.l1, dieOf x.core ≠ die ∧ homeDie x.pa ≠ die) ∧
        (∀ n j, s.job? n = some j → ∃ j', t.job? n = some j' ∧
          (∀ i, i < 96 → i / 24 = die → j'.counters.getD i ⟨0, 0, 0⟩ = ⟨0, 0, 0⟩) ∧
          (j'.counters.getD 0 ⟨0, 0, 0⟩).i = (upto 24).foldl (fun a k => a + (j.counters.getD (24 * die + k) ⟨0, 0, 0⟩).i)
            (j.counters.getD 0 ⟨0, 0, 0⟩).i) ∧
        ∀ id la, s.launch? id = some la → la.done = false → onDie s die id = true → (∀ x ∈ t.teams, x.2.launch ≠ id))) ∧
  (∀ (s : State) (die : Nat),
    let d := s.die die
    (d.inReset = false → exec (.dieReadmission die) s = .next s) ∧
    (d.inReset = true → (∀ e, e < 4 → (s.die e).resetDue = false) → Yields (.dieReadmission die) s fun t =>
      (t.die die).inReset = false ∧ t.host = s.host ++ [.notice 0x8003 [BitVec.ofNat 64 die]]) ∧
    (∀ e, d.inReset = true → e < 4 → (s.die e).resetDue = true → (∀ x, x < e → (s.die x).resetDue = false) →
      Yields (.dieReadmission die) s fun t => (t.die e).inReset = true ∧ (t.die e).resetDue = false ∧
        .notice 0x8003 [BitVec.ofNat 64 die] ∈ t.host ∧ .notice 0x8002 [BitVec.ofNat 64 e] ∈ t.host) ∧
    (d.closed = false ∨ d.inReset = true ∨ (∃ x ∈ s.launches, x.2.done = false ∧ x.2.order < d.admitFrom) →
      exec (.tierReopen die) s = .next s) ∧
    (d.closed = true → d.inReset = false → (∀ x ∈ s.launches, x.2.done = false → d.admitFrom ≤ x.2.order) →
      Yields (.tierReopen die) s fun t => t.die die = { d with closed := false } ∧ t.mem = s.mem)) ∧
  (∀ (s : State) (pa : Nat),
    let c := controllerOf pa
    let x := s.scrubAt c
    let due := inHole pa = false ∧ s.shut pa = false ∧ x.2 = sectorOffset pa ∧ x.1 * dayNs ≤ s.time
    let moved : State := { s with scrubs := Tbl.put s.scrubs c (scrubNext c x) }
    (¬ due → ∀ a b, exec (.scrub pa a b) s = .next s) ∧
    (due → s.poison.contains (pa / 64) = false →
      exec (.scrub pa false false) s = .next moved ∧
      (Yields (.scrub pa true false) s fun t => t = { moved with dies := t.dies } ∧
        (t.die (homeDie pa)).corrected.getD (tierOf pa) 0 =
          if (s.die (homeDie pa)).corrected.length ≤ tierOf pa then 0
          else (s.die (homeDie pa)).corrected.getD (tierOf pa) 0 + 1)) ∧
    (due → Mem.wf s.mem = true → ∀ a b, b = true ∨ s.poison.contains (pa / 64) = true →
      Yields (.scrub pa a b) s fun t => t.scrubs = moved.scrubs ∧ t.dies = s.dies ∧
        pa / 64 ∈ t.poison ∧ t.homeN 0x100000 8 = (s.homeN 0x100000 8 + 1) % 2 ^ 64)) ∧
  (∀ s : State, (∀ d, d < 4 → ∀ n ∈ (s.die d).corrected, n = 0) → Yields (.hourlyErrorLog []) s fun t => t.mem = s.mem) ∧
  (∀ (s : State) (met : List (Nat × Nat × Nat)), Yields (.hourlyErrorLog met) s fun t =>
    ∀ d, d < 4 → ∀ p, p < 4 → (t.die d).corrected.getD p 0 = 0) ∧
  (∀ s : State, Yields .ageingUpdate s fun t => t.mem = s.mem ∧ ∀ d, d < 4 →
    if s.time < (s.die d).ageAt + 3600000000000 then t.die d = s.die d
    else (t.die d).ageAt = s.time ∧ ∃ n, (t.die d).age = Config.ageHours d n ++ ((s.die d).age.setWidth 32 + 1)) ∧
  (∀ (s : State) (mhz : Nat), 1 ≤ mhz → mhz ≤ 2700 → exec (.clockThrottle mhz) s = .next { s with
    modl := { s.modl with clock := mhz } }) ∧
  (∀ (s : State) (mhz : Nat), Yields (.clockThrottle mhz) s fun t => t.modl.clock ≤ 2700) ∧
  (∀ (s : State) (stamp hops : Nat),
    let ahead := s.time - stamp
    (s.modl.timeSource ≠ none → s.modl.locked = true ∨ ahead ≤ 10000000 → exec (.timingBeacon ⟨stamp, hops⟩) s = .next { s with
      time := max s.time stamp
      modl := { s.modl with ahead := ahead, locked := decide (ahead ≤ min 1000 (250 * hops)) } }) ∧
    (s.modl.timeSource ≠ none → s.modl.locked = false → 10000000 < ahead → exec (.timingBeacon ⟨stamp, hops⟩) s = .next { s with
      time := stamp, modl := { s.modl with ahead := 0, locked := true } }) ∧
    (s.modl.timeSource = none → exec (.timingBeacon ⟨stamp, hops⟩) s = .next s) ∧
    (s.modl.timeSource ≠ none → exec .beaconSend s = .next s) ∧
    (s.modl.timeSource = none → Yields .beaconSend s fun t =>
      t.fabric.egress = s.fabric.egress ++ [(9, [BitVec.ofNat 64 s.time])] ∧ t.mem = s.mem) ∧
    (∀ n, let ns := (s.modl.frac + 1000 * n) / s.modl.clock
      (s.passCycles n).cycle = s.cycle + n ∧
      (s.passCycles n).time = if ns ≤ s.modl.ahead then s.time else s.time + ns - s.modl.ahead) ∧
    ∀ a b good, exec (.d2dFlit a b good) s = .next s) ∧
  ∀ s : State, Yields .moduleReset s fun t => t.mem = [] ∧ t.crews = [] ∧ t.launches = [] ∧ t.ctxs = [] ∧ t.l1 = [] ∧
    t.icache = [] ∧ t.tlb = [] ∧ t.fabric = Fabric.reset ∧ t.modl.lifecycle = s.modl.lifecycle ∧
    t.modl.firmware = s.modl.nextFirmware.getD s.modl.firmware ∧ t.resets = s.resets + 1

/-! ## Steps, encodings, reset -/

/-- A step runs the instruction that is decoded: with an issue scheduled and nothing more urgent, the group that the core takes
executes the instruction that the word at its PC decodes to, once all its threads may fetch it and the bank words it reads are
held; a code of a dictionary run executes the code, then the word it stands for; a scheduled event is itself executed, and
scheduled cycles pass (assumption 1 names the schedule, which is the model's). -/
def Obligations.StepRunsDecoded : Prop :=
  ∀ s : State,
    (∀ core rest, s.cur.code = none → s.urgent = [] → s.agenda = .issue core :: rest →
      let v := { s with agenda := rest }
      ∀ g r more l, v.nextGroup core = some g → g.refs = r :: more → v.breakpointAt g = none →
        v.windowAt g.core g.launch g.pc = none → (∀ q ∈ g.refs, v.fetched q ≠ .missing) →
        v.line? (v.teamCore r.team) (v.teamCtx r.team) (v.thread r).pc (v.thread r).sup = some l →
        let pc := (v.thread r).pc
        let x := l.words.getD (pc.toNat % 256 / 4) 0
        let held := fun (i : Instr) => ∀ q ∈ g.refs, v.bankToFill q (bankNeeds i (v.thread q)) = none
        (∀ i, markAt l.words pc ≠ .run → decodeWord x = .ok i → held i →
          step s = issued (v.withGroup g none) (wordPipe x) (exec i (v.withGroup g none))) ∧
        (∀ e, markAt l.words pc ≠ .run → decodeWord x = .error e →
          step s = issued (v.withGroup g none) (wordPipe x) (exec (.reservedEncoding x) (v.withGroup g none))) ∧
        ∀ w i, let f := codeOf x (pc.toNat % 4 == 2)
          markAt l.words pc = .run → (∀ q ∈ g.refs, codeWord v q f = .word w) → decodeWord w = .ok i → held i →
          step s = exec (.dictCode f) (v.withGroup g (some none))) ∧
    (∀ w i, s.cur.code = some (some w) → decodeWord w = .ok i → step s = issued s (pipeOfWord w) (exec i s)) ∧
    (∀ i rest, s.cur.code = none → s.urgent = [] → s.agenda = .event i :: rest → step s = exec i { s with agenda := rest }) ∧
    ∀ n rest, s.cur.code = none → s.urgent = [] → s.agenda = .tick n :: rest →
      step s = .next (runCycles n { s with agenda := rest })

/-- Words that the spec prints, in its encoding tables and its programs, and the instructions they stand for; a word whose major
opcode is reserved stands for none (R250 to R366). -/
def Obligations.DecodedWords : Prop :=
  decodeWord 0x8A286220 = .ok (.fadd ⟨true, 5, 3, 4, 2⟩) ∧
  decodeWord 0x0228830C = .ok (.div ⟨false, 5, 4, 6, 0, false⟩) ∧
  decodeWord 0x3038FFF8 = .ok (.iaddImm ⟨false, 7, 7, 0x3FF, 0⟩) ∧
  decodeWord 0x3C104018 = .ok (.shrImm ⟨false, 2, 2, 3, 0⟩) ∧
  decodeWord 0x08500081 = .ok (.icmp ⟨false, 1, 2, 0, 1, 0, 1⟩) ∧
  decodeWord 0x28080400 = .ok (.ffmac ⟨false, 1, 0, 1, 0, 0⟩) ∧
  decodeWord 0x18082004 = .ok (.ffmaF32 ⟨false, 1, 1, 0, 2, false⟩) ∧
  decodeWord 0x1218520A = .ok (.cvt ⟨false, 3, 2, 9, 0, 10⟩) ∧
  decodeWord 0x4A0FFFFB = .ok (.movi20 ⟨false, 1, 0xFFFFB⟩) ∧
  decodeWord 0x46140000 = .ok (.movf20 ⟨false, 2, 0xC0000⟩) ∧
  decodeWord 0x16210004 = .ok (.sread ⟨false, 4, 8, 0⟩) ∧
  decodeWord 0x16080488 = .ok (.shflFlip ⟨false, 1, 0, 9, 0⟩) ∧
  decodeWord 0x4C7FFFFD = .ok (.bra ⟨false, 1, 0x3FFFFD⟩) ∧
  decodeWord 0x51F14001 = .ok (.callx ⟨false, 62, 10, 0⟩) ∧
  decodeWord 0x50000003 = .ok (.exit ⟨false, 0⟩) ∧
  decodeWord 0x60190104 = .ok (.ld ⟨false, 3, 8, 0, 2, false, 4⟩) ∧
  decodeWord 0x62214140 = .ok (.st ⟨false, 4, 10, 0, 2, true, 0⟩) ∧
  decodeWord 0x74290110 = .ok (.atom ⟨false, 5, 8, 2, 0, 0⟩) ∧
  decodeWord 0x5C406000 = .ok (.bar ⟨false, 1, 3⟩) ∧
  decodeWord 0x78A18810 = .ok (.cpy ⟨false, 20, 12, 16, 1⟩) ∧
  decodeWord 0x7A086403 = .ok (.mms ⟨false, 1, 3, 8, 0⟩) ∧
  decodeWord 0x7C018000 = .ok (.solve ⟨false, 12⟩) ∧
  decodeWord 0x7C008502 = .ok (.msend ⟨false, 4, 10, 0⟩) ∧
  decodeWord 0x7C110605 = .ok (.ratom ⟨false, 2, 8, 12, 0⟩) ∧
  decodeWord 0x7C00C007 = .ok (.tspawn ⟨false, 6, 0⟩) ∧
  decodeWord 0x7C10C009 = .ok (.launch ⟨false, 2, 6, 0⟩) ∧
  decodeWord 0x7E000900 = .ok (.trap ⟨false, 0x12, 0⟩) ∧
  decodeWord 0x7E210202 = .ok (.crr ⟨false, 4, 0x204, 0⟩) ∧
  decodeWord 0x7E010585 = .ok (.tlbinv ⟨false, 8, 11, 0⟩) ∧
  decodeWord 0x7E000007 = .ok (.halt ⟨false, 0⟩) ∧
  decodeWord 0x50000005 = .ok (.nop ⟨false, 0⟩) ∧
  decodeWord 0x00000000 = .error ⟨1, 25⟩

/-- Every word that the encoder gives a well-formed instruction decodes to that instruction, with every operand. -/
def Obligations.EncodeDecode : Prop := ∀ (i : Instr) (w : Word), i.wf = true → encode i = some w → decodeWord w = .ok i

/-- Every step keeps device memory in its canonical form: cells at strictly rising addresses, none of them zero.
What in it the model chose: assumption 66. -/
def Obligations.MemoryStaysCanonical : Prop := ∀ s t : State, Mem.wf s.mem = true → step s = .next t → Mem.wf t.mem = true

/-- R31, R360 and R399: after reset every memory is canonical and lists nothing, no launch, context, team, job or translation stands;
every register of a thread starts as zero, in user privilege.
What in it the model chose: assumptions 4 to 6, 69. -/
def Obligations.ResetState : Prop :=
  Mem.wf State.reset.mem = true ∧ State.reset.mem = [] ∧ State.reset.launches = [] ∧ State.reset.ctxs = [] ∧
  State.reset.teams = [] ∧ State.reset.crews = [] ∧ State.reset.l1 = [] ∧ State.reset.l2 = [] ∧ State.reset.icache = [] ∧ State.reset.tlb = [] ∧
  State.reset.consts = [] ∧ State.reset.fabric.jobs = [] ∧ State.reset.host = [] ∧
  (∀ die, State.reset.die die = Die.reset) ∧ (∀ core, (State.reset.core core).weevil.store = []) ∧
  ∀ entry cycle, (Thread.start entry cycle).g = Vector.replicate 64 0 ∧ (Thread.start entry cycle).p = 1 ∧
    (Thread.start entry cycle).epc = 0 ∧ (Thread.start entry cycle).estat = 0 ∧ (Thread.start entry cycle).ecause = 0 ∧
    (Thread.start entry cycle).sup = false
end

