-- ==== Sys2Proof/Laws/State.lean ====
section
/-!
SUPPORT. What each update of a record leaves in each field: one lemma per field per update, all true by unfolding.
-/
namespace Sys2Proof.Machine

/-! ## Updates of the machine -/

@[simp] theorem State.setCrew_crews (s : State) (c : CRef) (f : Crew → Crew) : (s.setCrew c f).crews = Tbl.upd s.crews c f := rfl
@[simp] theorem State.setCrew_teams (s : State) (c : CRef) (f : Crew → Crew) : (s.setCrew c f).teams = s.teams := rfl
@[simp] theorem State.setCrew_launches (s : State) (c : CRef) (f : Crew → Crew) : (s.setCrew c f).launches = s.launches := rfl
@[simp] theorem State.setCrew_ctxs (s : State) (c : CRef) (f : Crew → Crew) : (s.setCrew c f).ctxs = s.ctxs := rfl
@[simp] theorem State.setCrew_cores (s : State) (c : CRef) (f : Crew → Crew) : (s.setCrew c f).cores = s.cores := rfl
@[simp] theorem State.setCrew_clusters (s : State) (c : CRef) (f : Crew → Crew) : (s.setCrew c f).clusters = s.clusters := rfl
@[simp] theorem State.setCrew_dies (s : State) (c : CRef) (f : Crew → Crew) : (s.setCrew c f).dies = s.dies := rfl
@[simp] theorem State.setCrew_mem (s : State) (c : CRef) (f : Crew → Crew) : (s.setCrew c f).mem = s.mem := rfl
@[simp] theorem State.setCrew_poison (s : State) (c : CRef) (f : Crew → Crew) : (s.setCrew c f).poison = s.poison := rfl
@[simp] theorem State.setCrew_flaws (s : State) (c : CRef) (f : Crew → Crew) : (s.setCrew c f).flaws = s.flaws := rfl
@[simp] theorem State.setCrew_resets (s : State) (c : CRef) (f : Crew → Crew) : (s.setCrew c f).resets = s.resets := rfl
@[simp] theorem State.setCrew_clu (s : State) (c : CRef) (f : Crew → Crew) : (s.setCrew c f).clu = s.clu := rfl
@[simp] theorem State.setCrew_chip (s : State) (c : CRef) (f : Crew → Crew) : (s.setCrew c f).chip = s.chip := rfl
@[simp] theorem State.setCrew_l1 (s : State) (c : CRef) (f : Crew → Crew) : (s.setCrew c f).l1 = s.l1 := rfl
@[simp] theorem State.setCrew_l2 (s : State) (c : CRef) (f : Crew → Crew) : (s.setCrew c f).l2 = s.l2 := rfl
@[simp] theorem State.setCrew_icache (s : State) (c : CRef) (f : Crew → Crew) : (s.setCrew c f).icache = s.icache := rfl
@[simp] theorem State.setCrew_tlb (s : State) (c : CRef) (f : Crew → Crew) : (s.setCrew c f).tlb = s.tlb := rfl
@[simp] theorem State.setCrew_consts (s : State) (c : CRef) (f : Crew → Crew) : (s.setCrew c f).consts = s.consts := rfl
@[simp] theorem State.setCrew_scales (s : State) (c : CRef) (f : Crew → Crew) : (s.setCrew c f).scales = s.scales := rfl
@[simp] theorem State.setCrew_predictor (s : State) (c : CRef) (f : Crew → Crew) : (s.setCrew c f).predictor = s.predictor := rfl
@[simp] theorem State.setCrew_images (s : State) (c : CRef) (f : Crew → Crew) : (s.setCrew c f).images = s.images := rfl
@[simp] theorem State.setCrew_scrubs (s : State) (c : CRef) (f : Crew → Crew) : (s.setCrew c f).scrubs = s.scrubs := rfl
@[simp] theorem State.setCrew_packets (s : State) (c : CRef) (f : Crew → Crew) : (s.setCrew c f).packets = s.packets := rfl
@[simp] theorem State.setCrew_fabric (s : State) (c : CRef) (f : Crew → Crew) : (s.setCrew c f).fabric = s.fabric := rfl
@[simp] theorem State.setCrew_orphans (s : State) (c : CRef) (f : Crew → Crew) : (s.setCrew c f).orphans = s.orphans := rfl
@[simp] theorem State.setCrew_withdrawals (s : State) (c : CRef) (f : Crew → Crew) : (s.setCrew c f).withdrawals = s.withdrawals := rfl
@[simp] theorem State.setCrew_publications (s : State) (c : CRef) (f : Crew → Crew) : (s.setCrew c f).publications = s.publications := rfl
@[simp] theorem State.setCrew_traces (s : State) (c : CRef) (f : Crew → Crew) : (s.setCrew c f).traces = s.traces := rfl
@[simp] theorem State.setCrew_trials (s : State) (c : CRef) (f : Crew → Crew) : (s.setCrew c f).trials = s.trials := rfl
@[simp] theorem State.setCrew_samplings (s : State) (c : CRef) (f : Crew → Crew) : (s.setCrew c f).samplings = s.samplings := rfl
@[simp] theorem State.setCrew_host (s : State) (c : CRef) (f : Crew → Crew) : (s.setCrew c f).host = s.host := rfl
@[simp] theorem State.setCrew_modl (s : State) (c : CRef) (f : Crew → Crew) : (s.setCrew c f).modl = s.modl := rfl
@[simp] theorem State.setCrew_cycle (s : State) (c : CRef) (f : Crew → Crew) : (s.setCrew c f).cycle = s.cycle := rfl
@[simp] theorem State.setCrew_time (s : State) (c : CRef) (f : Crew → Crew) : (s.setCrew c f).time = s.time := rfl
@[simp] theorem State.setCrew_serial (s : State) (c : CRef) (f : Crew → Crew) : (s.setCrew c f).serial = s.serial := rfl
@[simp] theorem State.setCrew_due (s : State) (c : CRef) (f : Crew → Crew) : (s.setCrew c f).due = s.due := rfl
@[simp] theorem State.setCrew_cur (s : State) (c : CRef) (f : Crew → Crew) : (s.setCrew c f).cur = s.cur := rfl
@[simp] theorem State.setCrew_agenda (s : State) (c : CRef) (f : Crew → Crew) : (s.setCrew c f).agenda = s.agenda := rfl
@[simp] theorem State.setCrew_fresh (s : State) (c : CRef) (f : Crew → Crew) : (s.setCrew c f).fresh = s.fresh := rfl

@[simp] theorem State.setTeam_crews (s : State) (t : Nat) (f : Team → Team) : (s.setTeam t f).crews = s.crews := rfl
@[simp] theorem State.setTeam_teams (s : State) (t : Nat) (f : Team → Team) : (s.setTeam t f).teams = Tbl.upd s.teams t f := rfl
@[simp] theorem State.setTeam_launches (s : State) (t : Nat) (f : Team → Team) : (s.setTeam t f).launches = s.launches := rfl
@[simp] theorem State.setTeam_ctxs (s : State) (t : Nat) (f : Team → Team) : (s.setTeam t f).ctxs = s.ctxs := rfl
@[simp] theorem State.setTeam_cores (s : State) (t : Nat) (f : Team → Team) : (s.setTeam t f).cores = s.cores := rfl
@[simp] theorem State.setTeam_clusters (s : State) (t : Nat) (f : Team → Team) : (s.setTeam t f).clusters = s.clusters := rfl
@[simp] theorem State.setTeam_dies (s : State) (t : Nat) (f : Team → Team) : (s.setTeam t f).dies = s.dies := rfl
@[simp] theorem State.setTeam_mem (s : State) (t : Nat) (f : Team → Team) : (s.setTeam t f).mem = s.mem := rfl
@[simp] theorem State.setTeam_poison (s : State) (t : Nat) (f : Team → Team) : (s.setTeam t f).poison = s.poison := rfl
@[simp] theorem State.setTeam_flaws (s : State) (t : Nat) (f : Team → Team) : (s.setTeam t f).flaws = s.flaws := rfl
@[simp] theorem State.setTeam_resets (s : State) (t : Nat) (f : Team → Team) : (s.setTeam t f).resets = s.resets := rfl
@[simp] theorem State.setTeam_clu (s : State) (t : Nat) (f : Team → Team) : (s.setTeam t f).clu = s.clu := rfl
@[simp] theorem State.setTeam_chip (s : State) (t : Nat) (f : Team → Team) : (s.setTeam t f).chip = s.chip := rfl
@[simp] theorem State.setTeam_l1 (s : State) (t : Nat) (f : Team → Team) : (s.setTeam t f).l1 = s.l1 := rfl
@[simp] theorem State.setTeam_l2 (s : State) (t : Nat) (f : Team → Team) : (s.setTeam t f).l2 = s.l2 := rfl
@[simp] theorem State.setTeam_icache (s : State) (t : Nat) (f : Team → Team) : (s.setTeam t f).icache = s.icache := rfl
@[simp] theorem State.setTeam_tlb (s : State) (t : Nat) (f : Team → Team) : (s.setTeam t f).tlb = s.tlb := rfl
@[simp] theorem State.setTeam_consts (s : State) (t : Nat) (f : Team → Team) : (s.setTeam t f).consts = s.consts := rfl
@[simp] theorem State.setTeam_scales (s : State) (t : Nat) (f : Team → Team) : (s.setTeam t f).scales = s.scales := rfl
@[simp] theorem State.setTeam_predictor (s : State) (t : Nat) (f : Team → Team) : (s.setTeam t f).predictor = s.predictor := rfl
@[simp] theorem State.setTeam_images (s : State) (t : Nat) (f : Team → Team) : (s.setTeam t f).images = s.images := rfl
@[simp] theorem State.setTeam_scrubs (s : State) (t : Nat) (f : Team → Team) : (s.setTeam t f).scrubs = s.scrubs := rfl
@[simp] theorem State.setTeam_packets (s : State) (t : Nat) (f : Team → Team) : (s.setTeam t f).packets = s.packets := rfl
@[simp] theorem State.setTeam_fabric (s : State) (t : Nat) (f : Team → Team) : (s.setTeam t f).fabric = s.fabric := rfl
@[simp] theorem State.setTeam_orphans (s : State) (t : Nat) (f : Team → Team) : (s.setTeam t f).orphans = s.orphans := rfl
@[simp] theorem State.setTeam_withdrawals (s : State) (t : Nat) (f : Team → Team) : (s.setTeam t f).withdrawals = s.withdrawals := rfl
@[simp] theorem State.setTeam_publications (s : State) (t : Nat) (f : Team → Team) : (s.setTeam t f).publications = s.publications := rfl
@[simp] theorem State.setTeam_traces (s : State) (t : Nat) (f : Team → Team) : (s.setTeam t f).traces = s.traces := rfl
@[simp] theorem State.setTeam_trials (s : State) (t : Nat) (f : Team → Team) : (s.setTeam t f).trials = s.trials := rfl
@[simp] theorem State.setTeam_samplings (s : State) (t : Nat) (f : Team → Team) : (s.setTeam t f).samplings = s.samplings := rfl
@[simp] theorem State.setTeam_host (s : State) (t : Nat) (f : Team → Team) : (s.setTeam t f).host = s.host := rfl
@[simp] theorem State.setTeam_modl (s : State) (t : Nat) (f : Team → Team) : (s.setTeam t f).modl = s.modl := rfl
@[simp] theorem State.setTeam_cycle (s : State) (t : Nat) (f : Team → Team) : (s.setTeam t f).cycle = s.cycle := rfl
@[simp] theorem State.setTeam_time (s : State) (t : Nat) (f : Team → Team) : (s.setTeam t f).time = s.time := rfl
@[simp] theorem State.setTeam_serial (s : State) (t : Nat) (f : Team → Team) : (s.setTeam t f).serial = s.serial := rfl
@[simp] theorem State.setTeam_due (s : State) (t : Nat) (f : Team → Team) : (s.setTeam t f).due = s.due := rfl
@[simp] theorem State.setTeam_cur (s : State) (t : Nat) (f : Team → Team) : (s.setTeam t f).cur = s.cur := rfl
@[simp] theorem State.setTeam_agenda (s : State) (t : Nat) (f : Team → Team) : (s.setTeam t f).agenda = s.agenda := rfl
@[simp] theorem State.setTeam_fresh (s : State) (t : Nat) (f : Team → Team) : (s.setTeam t f).fresh = s.fresh := rfl

@[simp] theorem State.setLaunch_crews (s : State) (l : Nat) (f : Launch → Launch) : (s.setLaunch l f).crews = s.crews := rfl
@[simp] theorem State.setLaunch_teams (s : State) (l : Nat) (f : Launch → Launch) : (s.setLaunch l f).teams = s.teams := rfl
@[simp] theorem State.setLaunch_launches (s : State) (l : Nat) (f : Launch → Launch) : (s.setLaunch l f).launches = Tbl.upd s.launches l f := rfl
@[simp] theorem State.setLaunch_ctxs (s : State) (l : Nat) (f : Launch → Launch) : (s.setLaunch l f).ctxs = s.ctxs := rfl
@[simp] theorem State.setLaunch_cores (s : State) (l : Nat) (f : Launch → Launch) : (s.setLaunch l f).cores = s.cores := rfl
@[simp] theorem State.setLaunch_clusters (s : State) (l : Nat) (f : Launch → Launch) : (s.setLaunch l f).clusters = s.clusters := rfl
@[simp] theorem State.setLaunch_dies (s : State) (l : Nat) (f : Launch → Launch) : (s.setLaunch l f).dies = s.dies := rfl
@[simp] theorem State.setLaunch_mem (s : State) (l : Nat) (f : Launch → Launch) : (s.setLaunch l f).mem = s.mem := rfl
@[simp] theorem State.setLaunch_poison (s : State) (l : Nat) (f : Launch → Launch) : (s.setLaunch l f).poison = s.poison := rfl
@[simp] theorem State.setLaunch_flaws (s : State) (l : Nat) (f : Launch → Launch) : (s.setLaunch l f).flaws = s.flaws := rfl
@[simp] theorem State.setLaunch_resets (s : State) (l : Nat) (f : Launch → Launch) : (s.setLaunch l f).resets = s.resets := rfl
@[simp] theorem State.setLaunch_clu (s : State) (l : Nat) (f : Launch → Launch) : (s.setLaunch l f).clu = s.clu := rfl
@[simp] theorem State.setLaunch_chip (s : State) (l : Nat) (f : Launch → Launch) : (s.setLaunch l f).chip = s.chip := rfl
@[simp] theorem State.setLaunch_l1 (s : State) (l : Nat) (f : Launch → Launch) : (s.setLaunch l f).l1 = s.l1 := rfl
@[simp] theorem State.setLaunch_l2 (s : State) (l : Nat) (f : Launch → Launch) : (s.setLaunch l f).l2 = s.l2 := rfl
@[simp] theorem State.setLaunch_icache (s : State) (l : Nat) (f : Launch → Launch) : (s.setLaunch l f).icache = s.icache := rfl
@[simp] theorem State.setLaunch_tlb (s : State) (l : Nat) (f : Launch → Launch) : (s.setLaunch l f).tlb = s.tlb := rfl
@[simp] theorem State.setLaunch_consts (s : State) (l : Nat) (f : Launch → Launch) : (s.setLaunch l f).consts = s.consts := rfl
@[simp] theorem State.setLaunch_scales (s : State) (l : Nat) (f : Launch → Launch) : (s.setLaunch l f).scales = s.scales := rfl
@[simp] theorem State.setLaunch_predictor (s : State) (l : Nat) (f : Launch → Launch) : (s.setLaunch l f).predictor = s.predictor := rfl
@[simp] theorem State.setLaunch_images (s : State) (l : Nat) (f : Launch → Launch) : (s.setLaunch l f).images = s.images := rfl
@[simp] theorem State.setLaunch_scrubs (s : State) (l : Nat) (f : Launch → Launch) : (s.setLaunch l f).scrubs = s.scrubs := rfl
@[simp] theorem State.setLaunch_packets (s : State) (l : Nat) (f : Launch → Launch) : (s.setLaunch l f).packets = s.packets := rfl
@[simp] theorem State.setLaunch_fabric (s : State) (l : Nat) (f : Launch → Launch) : (s.setLaunch l f).fabric = s.fabric := rfl
@[simp] theorem State.setLaunch_orphans (s : State) (l : Nat) (f : Launch → Launch) : (s.setLaunch l f).orphans = s.orphans := rfl
@[simp] theorem State.setLaunch_withdrawals (s : State) (l : Nat) (f : Launch → Launch) : (s.setLaunch l f).withdrawals = s.withdrawals := rfl
@[simp] theorem State.setLaunch_publications (s : State) (l : Nat) (f : Launch → Launch) : (s.setLaunch l f).publications = s.publications := rfl
@[simp] theorem State.setLaunch_traces (s : State) (l : Nat) (f : Launch → Launch) : (s.setLaunch l f).traces = s.traces := rfl
@[simp] theorem State.setLaunch_trials (s : State) (l : Nat) (f : Launch → Launch) : (s.setLaunch l f).trials = s.trials := rfl
@[simp] theorem State.setLaunch_samplings (s : State) (l : Nat) (f : Launch → Launch) : (s.setLaunch l f).samplings = s.samplings := rfl
@[simp] theorem State.setLaunch_host (s : State) (l : Nat) (f : Launch → Launch) : (s.setLaunch l f).host = s.host := rfl
@[simp] theorem State.setLaunch_modl (s : State) (l : Nat) (f : Launch → Launch) : (s.setLaunch l f).modl = s.modl := rfl
@[simp] theorem State.setLaunch_cycle (s : State) (l : Nat) (f : Launch → Launch) : (s.setLaunch l f).cycle = s.cycle := rfl
@[simp] theorem State.setLaunch_time (s : State) (l : Nat) (f : Launch → Launch) : (s.setLaunch l f).time = s.time := rfl
@[simp] theorem State.setLaunch_serial (s : State) (l : Nat) (f : Launch → Launch) : (s.setLaunch l f).serial = s.serial := rfl
@[simp] theorem State.setLaunch_due (s : State) (l : Nat) (f : Launch → Launch) : (s.setLaunch l f).due = s.due := rfl
@[simp] theorem State.setLaunch_cur (s : State) (l : Nat) (f : Launch → Launch) : (s.setLaunch l f).cur = s.cur := rfl
@[simp] theorem State.setLaunch_agenda (s : State) (l : Nat) (f : Launch → Launch) : (s.setLaunch l f).agenda = s.agenda := rfl
@[simp] theorem State.setLaunch_fresh (s : State) (l : Nat) (f : Launch → Launch) : (s.setLaunch l f).fresh = s.fresh := rfl

@[simp] theorem State.setCtx_crews (s : State) (c : Nat) (f : Ctx → Ctx) : (s.setCtx c f).crews = s.crews := rfl
@[simp] theorem State.setCtx_teams (s : State) (c : Nat) (f : Ctx → Ctx) : (s.setCtx c f).teams = s.teams := rfl
@[simp] theorem State.setCtx_launches (s : State) (c : Nat) (f : Ctx → Ctx) : (s.setCtx c f).launches = s.launches := rfl
@[simp] theorem State.setCtx_ctxs (s : State) (c : Nat) (f : Ctx → Ctx) : (s.setCtx c f).ctxs = Tbl.upd s.ctxs c f := rfl
@[simp] theorem State.setCtx_cores (s : State) (c : Nat) (f : Ctx → Ctx) : (s.setCtx c f).cores = s.cores := rfl
@[simp] theorem State.setCtx_clusters (s : State) (c : Nat) (f : Ctx → Ctx) : (s.setCtx c f).clusters = s.clusters := rfl
@[simp] theorem State.setCtx_dies (s : State) (c : Nat) (f : Ctx → Ctx) : (s.setCtx c f).dies = s.dies := rfl
@[simp] theorem State.setCtx_mem (s : State) (c : Nat) (f : Ctx → Ctx) : (s.setCtx c f).mem = s.mem := rfl
@[simp] theorem State.setCtx_poison (s : State) (c : Nat) (f : Ctx → Ctx) : (s.setCtx c f).poison = s.poison := rfl
@[simp] theorem State.setCtx_flaws (s : State) (c : Nat) (f : Ctx → Ctx) : (s.setCtx c f).flaws = s.flaws := rfl
@[simp] theorem State.setCtx_resets (s : State) (c : Nat) (f : Ctx → Ctx) : (s.setCtx c f).resets = s.resets := rfl
@[simp] theorem State.setCtx_clu (s : State) (c : Nat) (f : Ctx → Ctx) : (s.setCtx c f).clu = s.clu := rfl
@[simp] theorem State.setCtx_chip (s : State) (c : Nat) (f : Ctx → Ctx) : (s.setCtx c f).chip = s.chip := rfl
@[simp] theorem State.setCtx_l1 (s : State) (c : Nat) (f : Ctx → Ctx) : (s.setCtx c f).l1 = s.l1 := rfl
@[simp] theorem State.setCtx_l2 (s : State) (c : Nat) (f : Ctx → Ctx) : (s.setCtx c f).l2 = s.l2 := rfl
@[simp] theorem State.setCtx_icache (s : State) (c : Nat) (f : Ctx → Ctx) : (s.setCtx c f).icache = s.icache := rfl
@[simp] theorem State.setCtx_tlb (s : State) (c : Nat) (f : Ctx → Ctx) : (s.setCtx c f).tlb = s.tlb := rfl
@[simp] theorem State.setCtx_consts (s : State) (c : Nat) (f : Ctx → Ctx) : (s.setCtx c f).consts = s.consts := rfl
@[simp] theorem State.setCtx_scales (s : State) (c : Nat) (f : Ctx → Ctx) : (s.setCtx c f).scales = s.scales := rfl
@[simp] theorem State.setCtx_predictor (s : State) (c : Nat) (f : Ctx → Ctx) : (s.setCtx c f).predictor = s.predictor := rfl
@[simp] theorem State.setCtx_images (s : State) (c : Nat) (f : Ctx → Ctx) : (s.setCtx c f).images = s.images := rfl
@[simp] theorem State.setCtx_scrubs (s : State) (c : Nat) (f : Ctx → Ctx) : (s.setCtx c f).scrubs = s.scrubs := rfl
@[simp] theorem State.setCtx_packets (s : State) (c : Nat) (f : Ctx → Ctx) : (s.setCtx c f).packets = s.packets := rfl
@[simp] theorem State.setCtx_fabric (s : State) (c : Nat) (f : Ctx → Ctx) : (s.setCtx c f).fabric = s.fabric := rfl
@[simp] theorem State.setCtx_orphans (s : State) (c : Nat) (f : Ctx → Ctx) : (s.setCtx c f).orphans = s.orphans := rfl
@[simp] theorem State.setCtx_withdrawals (s : State) (c : Nat) (f : Ctx → Ctx) : (s.setCtx c f).withdrawals = s.withdrawals := rfl
@[simp] theorem State.setCtx_publications (s : State) (c : Nat) (f : Ctx → Ctx) : (s.setCtx c f).publications = s.publications := rfl
@[simp] theorem State.setCtx_traces (s : State) (c : Nat) (f : Ctx → Ctx) : (s.setCtx c f).traces = s.traces := rfl
@[simp] theorem State.setCtx_trials (s : State) (c : Nat) (f : Ctx → Ctx) : (s.setCtx c f).trials = s.trials := rfl
@[simp] theorem State.setCtx_samplings (s : State) (c : Nat) (f : Ctx → Ctx) : (s.setCtx c f).samplings = s.samplings := rfl
@[simp] theorem State.setCtx_host (s : State) (c : Nat) (f : Ctx → Ctx) : (s.setCtx c f).host = s.host := rfl
@[simp] theorem State.setCtx_modl (s : State) (c : Nat) (f : Ctx → Ctx) : (s.setCtx c f).modl = s.modl := rfl
@[simp] theorem State.setCtx_cycle (s : State) (c : Nat) (f : Ctx → Ctx) : (s.setCtx c f).cycle = s.cycle := rfl
@[simp] theorem State.setCtx_time (s : State) (c : Nat) (f : Ctx → Ctx) : (s.setCtx c f).time = s.time := rfl
@[simp] theorem State.setCtx_serial (s : State) (c : Nat) (f : Ctx → Ctx) : (s.setCtx c f).serial = s.serial := rfl
@[simp] theorem State.setCtx_due (s : State) (c : Nat) (f : Ctx → Ctx) : (s.setCtx c f).due = s.due := rfl
@[simp] theorem State.setCtx_cur (s : State) (c : Nat) (f : Ctx → Ctx) : (s.setCtx c f).cur = s.cur := rfl
@[simp] theorem State.setCtx_agenda (s : State) (c : Nat) (f : Ctx → Ctx) : (s.setCtx c f).agenda = s.agenda := rfl
@[simp] theorem State.setCtx_fresh (s : State) (c : Nat) (f : Ctx → Ctx) : (s.setCtx c f).fresh = s.fresh := rfl

@[simp] theorem State.setCore_crews (s : State) (c : Nat) (f : Core → Core) : (s.setCore c f).crews = s.crews := rfl
@[simp] theorem State.setCore_teams (s : State) (c : Nat) (f : Core → Core) : (s.setCore c f).teams = s.teams := rfl
@[simp] theorem State.setCore_launches (s : State) (c : Nat) (f : Core → Core) : (s.setCore c f).launches = s.launches := rfl
@[simp] theorem State.setCore_ctxs (s : State) (c : Nat) (f : Core → Core) : (s.setCore c f).ctxs = s.ctxs := rfl
@[simp] theorem State.setCore_cores (s : State) (c : Nat) (f : Core → Core) : (s.setCore c f).cores = Tbl.put s.cores c (f (s.core c)) := rfl
@[simp] theorem State.setCore_clusters (s : State) (c : Nat) (f : Core → Core) : (s.setCore c f).clusters = s.clusters := rfl
@[simp] theorem State.setCore_dies (s : State) (c : Nat) (f : Core → Core) : (s.setCore c f).dies = s.dies := rfl
@[simp] theorem State.setCore_mem (s : State) (c : Nat) (f : Core → Core) : (s.setCore c f).mem = s.mem := rfl
@[simp] theorem State.setCore_poison (s : State) (c : Nat) (f : Core → Core) : (s.setCore c f).poison = s.poison := rfl
@[simp] theorem State.setCore_flaws (s : State) (c : Nat) (f : Core → Core) : (s.setCore c f).flaws = s.flaws := rfl
@[simp] theorem State.setCore_resets (s : State) (c : Nat) (f : Core → Core) : (s.setCore c f).resets = s.resets := rfl
@[simp] theorem State.setCore_clu (s : State) (c : Nat) (f : Core → Core) : (s.setCore c f).clu = s.clu := rfl
@[simp] theorem State.setCore_chip (s : State) (c : Nat) (f : Core → Core) : (s.setCore c f).chip = s.chip := rfl
@[simp] theorem State.setCore_l1 (s : State) (c : Nat) (f : Core → Core) : (s.setCore c f).l1 = s.l1 := rfl
@[simp] theorem State.setCore_l2 (s : State) (c : Nat) (f : Core → Core) : (s.setCore c f).l2 = s.l2 := rfl
@[simp] theorem State.setCore_icache (s : State) (c : Nat) (f : Core → Core) : (s.setCore c f).icache = s.icache := rfl
@[simp] theorem State.setCore_tlb (s : State) (c : Nat) (f : Core → Core) : (s.setCore c f).tlb = s.tlb := rfl
@[simp] theorem State.setCore_consts (s : State) (c : Nat) (f : Core → Core) : (s.setCore c f).consts = s.consts := rfl
@[simp] theorem State.setCore_scales (s : State) (c : Nat) (f : Core → Core) : (s.setCore c f).scales = s.scales := rfl
@[simp] theorem State.setCore_predictor (s : State) (c : Nat) (f : Core → Core) : (s.setCore c f).predictor = s.predictor := rfl
@[simp] theorem State.setCore_images (s : State) (c : Nat) (f : Core → Core) : (s.setCore c f).images = s.images := rfl
@[simp] theorem State.setCore_scrubs (s : State) (c : Nat) (f : Core → Core) : (s.setCore c f).scrubs = s.scrubs := rfl
@[simp] theorem State.setCore_packets (s : State) (c : Nat) (f : Core → Core) : (s.setCore c f).packets = s.packets := rfl
@[simp] theorem State.setCore_fabric (s : State) (c : Nat) (f : Core → Core) : (s.setCore c f).fabric = s.fabric := rfl
@[simp] theorem State.setCore_orphans (s : State) (c : Nat) (f : Core → Core) : (s.setCore c f).orphans = s.orphans := rfl
@[simp] theorem State.setCore_withdrawals (s : State) (c : Nat) (f : Core → Core) : (s.setCore c f).withdrawals = s.withdrawals := rfl
@[simp] theorem State.setCore_publications (s : State) (c : Nat) (f : Core → Core) : (s.setCore c f).publications = s.publications := rfl
@[simp] theorem State.setCore_traces (s : State) (c : Nat) (f : Core → Core) : (s.setCore c f).traces = s.traces := rfl
@[simp] theorem State.setCore_trials (s : State) (c : Nat) (f : Core → Core) : (s.setCore c f).trials = s.trials := rfl
@[simp] theorem State.setCore_samplings (s : State) (c : Nat) (f : Core → Core) : (s.setCore c f).samplings = s.samplings := rfl
@[simp] theorem State.setCore_host (s : State) (c : Nat) (f : Core → Core) : (s.setCore c f).host = s.host := rfl
@[simp] theorem State.setCore_modl (s : State) (c : Nat) (f : Core → Core) : (s.setCore c f).modl = s.modl := rfl
@[simp] theorem State.setCore_cycle (s : State) (c : Nat) (f : Core → Core) : (s.setCore c f).cycle = s.cycle := rfl
@[simp] theorem State.setCore_time (s : State) (c : Nat) (f : Core → Core) : (s.setCore c f).time = s.time := rfl
@[simp] theorem State.setCore_serial (s : State) (c : Nat) (f : Core → Core) : (s.setCore c f).serial = s.serial := rfl
@[simp] theorem State.setCore_due (s : State) (c : Nat) (f : Core → Core) : (s.setCore c f).due = s.due := rfl
@[simp] theorem State.setCore_cur (s : State) (c : Nat) (f : Core → Core) : (s.setCore c f).cur = s.cur := rfl
@[simp] theorem State.setCore_agenda (s : State) (c : Nat) (f : Core → Core) : (s.setCore c f).agenda = s.agenda := rfl
@[simp] theorem State.setCore_fresh (s : State) (c : Nat) (f : Core → Core) : (s.setCore c f).fresh = s.fresh := rfl

@[simp] theorem State.setCluster_crews (s : State) (c : Nat) (f : Cluster → Cluster) : (s.setCluster c f).crews = s.crews := rfl
@[simp] theorem State.setCluster_teams (s : State) (c : Nat) (f : Cluster → Cluster) : (s.setCluster c f).teams = s.teams := rfl
@[simp] theorem State.setCluster_launches (s : State) (c : Nat) (f : Cluster → Cluster) : (s.setCluster c f).launches = s.launches := rfl
@[simp] theorem State.setCluster_ctxs (s : State) (c : Nat) (f : Cluster → Cluster) : (s.setCluster c f).ctxs = s.ctxs := rfl
@[simp] theorem State.setCluster_cores (s : State) (c : Nat) (f : Cluster → Cluster) : (s.setCluster c f).cores = s.cores := rfl
@[simp] theorem State.setCluster_clusters (s : State) (c : Nat) (f : Cluster → Cluster) : (s.setCluster c f).clusters = Tbl.put s.clusters c (f (s.cluster c)) := rfl
@[simp] theorem State.setCluster_dies (s : State) (c : Nat) (f : Cluster → Cluster) : (s.setCluster c f).dies = s.dies := rfl
@[simp] theorem State.setCluster_mem (s : State) (c : Nat) (f : Cluster → Cluster) : (s.setCluster c f).mem = s.mem := rfl
@[simp] theorem State.setCluster_poison (s : State) (c : Nat) (f : Cluster → Cluster) : (s.setCluster c f).poison = s.poison := rfl
@[simp] theorem State.setCluster_flaws (s : State) (c : Nat) (f : Cluster → Cluster) : (s.setCluster c f).flaws = s.flaws := rfl
@[simp] theorem State.setCluster_resets (s : State) (c : Nat) (f : Cluster → Cluster) : (s.setCluster c f).resets = s.resets := rfl
@[simp] theorem State.setCluster_clu (s : State) (c : Nat) (f : Cluster → Cluster) : (s.setCluster c f).clu = s.clu := rfl
@[simp] theorem State.setCluster_chip (s : State) (c : Nat) (f : Cluster → Cluster) : (s.setCluster c f).chip = s.chip := rfl
@[simp] theorem State.setCluster_l1 (s : State) (c : Nat) (f : Cluster → Cluster) : (s.setCluster c f).l1 = s.l1 := rfl
@[simp] theorem State.setCluster_l2 (s : State) (c : Nat) (f : Cluster → Cluster) : (s.setCluster c f).l2 = s.l2 := rfl
@[simp] theorem State.setCluster_icache (s : State) (c : Nat) (f : Cluster → Cluster) : (s.setCluster c f).icache = s.icache := rfl
@[simp] theorem State.setCluster_tlb (s : State) (c : Nat) (f : Cluster → Cluster) : (s.setCluster c f).tlb = s.tlb := rfl
@[simp] theorem State.setCluster_consts (s : State) (c : Nat) (f : Cluster → Cluster) : (s.setCluster c f).consts = s.consts := rfl
@[simp] theorem State.setCluster_scales (s : State) (c : Nat) (f : Cluster → Cluster) : (s.setCluster c f).scales = s.scales := rfl
@[simp] theorem State.setCluster_predictor (s : State) (c : Nat) (f : Cluster → Cluster) : (s.setCluster c f).predictor = s.predictor := rfl
@[simp] theorem State.setCluster_images (s : State) (c : Nat) (f : Cluster → Cluster) : (s.setCluster c f).images = s.images := rfl
@[simp] theorem State.setCluster_scrubs (s : State) (c : Nat) (f : Cluster → Cluster) : (s.setCluster c f).scrubs = s.scrubs := rfl
@[simp] theorem State.setCluster_packets (s : State) (c : Nat) (f : Cluster → Cluster) : (s.setCluster c f).packets = s.packets := rfl
@[simp] theorem State.setCluster_fabric (s : State) (c : Nat) (f : Cluster → Cluster) : (s.setCluster c f).fabric = s.fabric := rfl
@[simp] theorem State.setCluster_orphans (s : State) (c : Nat) (f : Cluster → Cluster) : (s.setCluster c f).orphans = s.orphans := rfl
@[simp] theorem State.setCluster_withdrawals (s : State) (c : Nat) (f : Cluster → Cluster) : (s.setCluster c f).withdrawals = s.withdrawals := rfl
@[simp] theorem State.setCluster_publications (s : State) (c : Nat) (f : Cluster → Cluster) : (s.setCluster c f).publications = s.publications := rfl
@[simp] theorem State.setCluster_traces (s : State) (c : Nat) (f : Cluster → Cluster) : (s.setCluster c f).traces = s.traces := rfl
@[simp] theorem State.setCluster_trials (s : State) (c : Nat) (f : Cluster → Cluster) : (s.setCluster c f).trials = s.trials := rfl
@[simp] theorem State.setCluster_samplings (s : State) (c : Nat) (f : Cluster → Cluster) : (s.setCluster c f).samplings = s.samplings := rfl
@[simp] theorem State.setCluster_host (s : State) (c : Nat) (f : Cluster → Cluster) : (s.setCluster c f).host = s.host := rfl
@[simp] theorem State.setCluster_modl (s : State) (c : Nat) (f : Cluster → Cluster) : (s.setCluster c f).modl = s.modl := rfl
@[simp] theorem State.setCluster_cycle (s : State) (c : Nat) (f : Cluster → Cluster) : (s.setCluster c f).cycle = s.cycle := rfl
@[simp] theorem State.setCluster_time (s : State) (c : Nat) (f : Cluster → Cluster) : (s.setCluster c f).time = s.time := rfl
@[simp] theorem State.setCluster_serial (s : State) (c : Nat) (f : Cluster → Cluster) : (s.setCluster c f).serial = s.serial := rfl
@[simp] theorem State.setCluster_due (s : State) (c : Nat) (f : Cluster → Cluster) : (s.setCluster c f).due = s.due := rfl
@[simp] theorem State.setCluster_cur (s : State) (c : Nat) (f : Cluster → Cluster) : (s.setCluster c f).cur = s.cur := rfl
@[simp] theorem State.setCluster_agenda (s : State) (c : Nat) (f : Cluster → Cluster) : (s.setCluster c f).agenda = s.agenda := rfl
@[simp] theorem State.setCluster_fresh (s : State) (c : Nat) (f : Cluster → Cluster) : (s.setCluster c f).fresh = s.fresh := rfl

@[simp] theorem State.setDie_crews (s : State) (d : Nat) (f : Die → Die) : (s.setDie d f).crews = s.crews := rfl
@[simp] theorem State.setDie_teams (s : State) (d : Nat) (f : Die → Die) : (s.setDie d f).teams = s.teams := rfl
@[simp] theorem State.setDie_launches (s : State) (d : Nat) (f : Die → Die) : (s.setDie d f).launches = s.launches := rfl
@[simp] theorem State.setDie_ctxs (s : State) (d : Nat) (f : Die → Die) : (s.setDie d f).ctxs = s.ctxs := rfl
@[simp] theorem State.setDie_cores (s : State) (d : Nat) (f : Die → Die) : (s.setDie d f).cores = s.cores := rfl
@[simp] theorem State.setDie_clusters (s : State) (d : Nat) (f : Die → Die) : (s.setDie d f).clusters = s.clusters := rfl
@[simp] theorem State.setDie_dies (s : State) (d : Nat) (f : Die → Die) : (s.setDie d f).dies = Tbl.put s.dies d (f (s.die d)) := rfl
@[simp] theorem State.setDie_mem (s : State) (d : Nat) (f : Die → Die) : (s.setDie d f).mem = s.mem := rfl
@[simp] theorem State.setDie_poison (s : State) (d : Nat) (f : Die → Die) : (s.setDie d f).poison = s.poison := rfl
@[simp] theorem State.setDie_flaws (s : State) (d : Nat) (f : Die → Die) : (s.setDie d f).flaws = s.flaws := rfl
@[simp] theorem State.setDie_resets (s : State) (d : Nat) (f : Die → Die) : (s.setDie d f).resets = s.resets := rfl
@[simp] theorem State.setDie_clu (s : State) (d : Nat) (f : Die → Die) : (s.setDie d f).clu = s.clu := rfl
@[simp] theorem State.setDie_chip (s : State) (d : Nat) (f : Die → Die) : (s.setDie d f).chip = s.chip := rfl
@[simp] theorem State.setDie_l1 (s : State) (d : Nat) (f : Die → Die) : (s.setDie d f).l1 = s.l1 := rfl
@[simp] theorem State.setDie_l2 (s : State) (d : Nat) (f : Die → Die) : (s.setDie d f).l2 = s.l2 := rfl
@[simp] theorem State.setDie_icache (s : State) (d : Nat) (f : Die → Die) : (s.setDie d f).icache = s.icache := rfl
@[simp] theorem State.setDie_tlb (s : State) (d : Nat) (f : Die → Die) : (s.setDie d f).tlb = s.tlb := rfl
@[simp] theorem State.setDie_consts (s : State) (d : Nat) (f : Die → Die) : (s.setDie d f).consts = s.consts := rfl
@[simp] theorem State.setDie_scales (s : State) (d : Nat) (f : Die → Die) : (s.setDie d f).scales = s.scales := rfl
@[simp] theorem State.setDie_predictor (s : State) (d : Nat) (f : Die → Die) : (s.setDie d f).predictor = s.predictor := rfl
@[simp] theorem State.setDie_images (s : State) (d : Nat) (f : Die → Die) : (s.setDie d f).images = s.images := rfl
@[simp] theorem State.setDie_scrubs (s : State) (d : Nat) (f : Die → Die) : (s.setDie d f).scrubs = s.scrubs := rfl
@[simp] theorem State.setDie_packets (s : State) (d : Nat) (f : Die → Die) : (s.setDie d f).packets = s.packets := rfl
@[simp] theorem State.setDie_fabric (s : State) (d : Nat) (f : Die → Die) : (s.setDie d f).fabric = s.fabric := rfl
@[simp] theorem State.setDie_orphans (s : State) (d : Nat) (f : Die → Die) : (s.setDie d f).orphans = s.orphans := rfl
@[simp] theorem State.setDie_withdrawals (s : State) (d : Nat) (f : Die → Die) : (s.setDie d f).withdrawals = s.withdrawals := rfl
@[simp] theorem State.setDie_publications (s : State) (d : Nat) (f : Die → Die) : (s.setDie d f).publications = s.publications := rfl
@[simp] theorem State.setDie_traces (s : State) (d : Nat) (f : Die → Die) : (s.setDie d f).traces = s.traces := rfl
@[simp] theorem State.setDie_trials (s : State) (d : Nat) (f : Die → Die) : (s.setDie d f).trials = s.trials := rfl
@[simp] theorem State.setDie_samplings (s : State) (d : Nat) (f : Die → Die) : (s.setDie d f).samplings = s.samplings := rfl
@[simp] theorem State.setDie_host (s : State) (d : Nat) (f : Die → Die) : (s.setDie d f).host = s.host := rfl
@[simp] theorem State.setDie_modl (s : State) (d : Nat) (f : Die → Die) : (s.setDie d f).modl = s.modl := rfl
@[simp] theorem State.setDie_cycle (s : State) (d : Nat) (f : Die → Die) : (s.setDie d f).cycle = s.cycle := rfl
@[simp] theorem State.setDie_time (s : State) (d : Nat) (f : Die → Die) : (s.setDie d f).time = s.time := rfl
@[simp] theorem State.setDie_serial (s : State) (d : Nat) (f : Die → Die) : (s.setDie d f).serial = s.serial := rfl
@[simp] theorem State.setDie_due (s : State) (d : Nat) (f : Die → Die) : (s.setDie d f).due = s.due := rfl
@[simp] theorem State.setDie_cur (s : State) (d : Nat) (f : Die → Die) : (s.setDie d f).cur = s.cur := rfl
@[simp] theorem State.setDie_agenda (s : State) (d : Nat) (f : Die → Die) : (s.setDie d f).agenda = s.agenda := rfl
@[simp] theorem State.setDie_fresh (s : State) (d : Nat) (f : Die → Die) : (s.setDie d f).fresh = s.fresh := rfl

@[simp] theorem State.tell_crews (s : State) (m : HostMsg) : (s.tell m).crews = s.crews := rfl
@[simp] theorem State.tell_teams (s : State) (m : HostMsg) : (s.tell m).teams = s.teams := rfl
@[simp] theorem State.tell_launches (s : State) (m : HostMsg) : (s.tell m).launches = s.launches := rfl
@[simp] theorem State.tell_ctxs (s : State) (m : HostMsg) : (s.tell m).ctxs = s.ctxs := rfl
@[simp] theorem State.tell_cores (s : State) (m : HostMsg) : (s.tell m).cores = s.cores := rfl
@[simp] theorem State.tell_clusters (s : State) (m : HostMsg) : (s.tell m).clusters = s.clusters := rfl
@[simp] theorem State.tell_dies (s : State) (m : HostMsg) : (s.tell m).dies = s.dies := rfl
@[simp] theorem State.tell_mem (s : State) (m : HostMsg) : (s.tell m).mem = s.mem := rfl
@[simp] theorem State.tell_poison (s : State) (m : HostMsg) : (s.tell m).poison = s.poison := rfl
@[simp] theorem State.tell_flaws (s : State) (m : HostMsg) : (s.tell m).flaws = s.flaws := rfl
@[simp] theorem State.tell_resets (s : State) (m : HostMsg) : (s.tell m).resets = s.resets := rfl
@[simp] theorem State.tell_clu (s : State) (m : HostMsg) : (s.tell m).clu = s.clu := rfl
@[simp] theorem State.tell_chip (s : State) (m : HostMsg) : (s.tell m).chip = s.chip := rfl
@[simp] theorem State.tell_l1 (s : State) (m : HostMsg) : (s.tell m).l1 = s.l1 := rfl
@[simp] theorem State.tell_l2 (s : State) (m : HostMsg) : (s.tell m).l2 = s.l2 := rfl
@[simp] theorem State.tell_icache (s : State) (m : HostMsg) : (s.tell m).icache = s.icache := rfl
@[simp] theorem State.tell_tlb (s : State) (m : HostMsg) : (s.tell m).tlb = s.tlb := rfl
@[simp] theorem State.tell_consts (s : State) (m : HostMsg) : (s.tell m).consts = s.consts := rfl
@[simp] theorem State.tell_scales (s : State) (m : HostMsg) : (s.tell m).scales = s.scales := rfl
@[simp] theorem State.tell_predictor (s : State) (m : HostMsg) : (s.tell m).predictor = s.predictor := rfl
@[simp] theorem State.tell_images (s : State) (m : HostMsg) : (s.tell m).images = s.images := rfl
@[simp] theorem State.tell_scrubs (s : State) (m : HostMsg) : (s.tell m).scrubs = s.scrubs := rfl
@[simp] theorem State.tell_packets (s : State) (m : HostMsg) : (s.tell m).packets = s.packets := rfl
@[simp] theorem State.tell_fabric (s : State) (m : HostMsg) : (s.tell m).fabric = s.fabric := rfl
@[simp] theorem State.tell_orphans (s : State) (m : HostMsg) : (s.tell m).orphans = s.orphans := rfl
@[simp] theorem State.tell_withdrawals (s : State) (m : HostMsg) : (s.tell m).withdrawals = s.withdrawals := rfl
@[simp] theorem State.tell_publications (s : State) (m : HostMsg) : (s.tell m).publications = s.publications := rfl
@[simp] theorem State.tell_traces (s : State) (m : HostMsg) : (s.tell m).traces = s.traces := rfl
@[simp] theorem State.tell_trials (s : State) (m : HostMsg) : (s.tell m).trials = s.trials := rfl
@[simp] theorem State.tell_samplings (s : State) (m : HostMsg) : (s.tell m).samplings = s.samplings := rfl
@[simp] theorem State.tell_host (s : State) (m : HostMsg) : (s.tell m).host = s.host ++ [m] := rfl
@[simp] theorem State.tell_modl (s : State) (m : HostMsg) : (s.tell m).modl = s.modl := rfl
@[simp] theorem State.tell_cycle (s : State) (m : HostMsg) : (s.tell m).cycle = s.cycle := rfl
@[simp] theorem State.tell_time (s : State) (m : HostMsg) : (s.tell m).time = s.time := rfl
@[simp] theorem State.tell_serial (s : State) (m : HostMsg) : (s.tell m).serial = s.serial := rfl
@[simp] theorem State.tell_due (s : State) (m : HostMsg) : (s.tell m).due = s.due := rfl
@[simp] theorem State.tell_cur (s : State) (m : HostMsg) : (s.tell m).cur = s.cur := rfl
@[simp] theorem State.tell_agenda (s : State) (m : HostMsg) : (s.tell m).agenda = s.agenda := rfl
@[simp] theorem State.tell_fresh (s : State) (m : HostMsg) : (s.tell m).fresh = s.fresh := rfl

@[simp] theorem State.writeHome_crews (s : State) (pa : Nat) (bs : List Byte) : (s.writeHome pa bs).crews = s.crews := rfl
@[simp] theorem State.writeHome_teams (s : State) (pa : Nat) (bs : List Byte) : (s.writeHome pa bs).teams = s.teams := rfl
@[simp] theorem State.writeHome_launches (s : State) (pa : Nat) (bs : List Byte) : (s.writeHome pa bs).launches = s.launches := rfl
@[simp] theorem State.writeHome_ctxs (s : State) (pa : Nat) (bs : List Byte) : (s.writeHome pa bs).ctxs = s.ctxs := rfl
@[simp] theorem State.writeHome_cores (s : State) (pa : Nat) (bs : List Byte) : (s.writeHome pa bs).cores = s.cores := rfl
@[simp] theorem State.writeHome_clusters (s : State) (pa : Nat) (bs : List Byte) : (s.writeHome pa bs).clusters = s.clusters := rfl
@[simp] theorem State.writeHome_dies (s : State) (pa : Nat) (bs : List Byte) : (s.writeHome pa bs).dies = s.dies := rfl
@[simp] theorem State.writeHome_mem (s : State) (pa : Nat) (bs : List Byte) : (s.writeHome pa bs).mem = Mem.writeBytes s.mem pa bs := rfl
@[simp] theorem State.writeHome_poison (s : State) (pa : Nat) (bs : List Byte) : (s.writeHome pa bs).poison = s.poison := rfl
@[simp] theorem State.writeHome_flaws (s : State) (pa : Nat) (bs : List Byte) : (s.writeHome pa bs).flaws = s.flaws := rfl
@[simp] theorem State.writeHome_resets (s : State) (pa : Nat) (bs : List Byte) : (s.writeHome pa bs).resets = s.resets := rfl
@[simp] theorem State.writeHome_clu (s : State) (pa : Nat) (bs : List Byte) : (s.writeHome pa bs).clu = s.clu := rfl
@[simp] theorem State.writeHome_chip (s : State) (pa : Nat) (bs : List Byte) : (s.writeHome pa bs).chip = s.chip := rfl
@[simp] theorem State.writeHome_l1 (s : State) (pa : Nat) (bs : List Byte) : (s.writeHome pa bs).l1 = s.l1 := rfl
@[simp] theorem State.writeHome_l2 (s : State) (pa : Nat) (bs : List Byte) : (s.writeHome pa bs).l2 = s.l2 := rfl
@[simp] theorem State.writeHome_icache (s : State) (pa : Nat) (bs : List Byte) : (s.writeHome pa bs).icache = s.icache := rfl
@[simp] theorem State.writeHome_tlb (s : State) (pa : Nat) (bs : List Byte) : (s.writeHome pa bs).tlb = s.tlb := rfl
@[simp] theorem State.writeHome_consts (s : State) (pa : Nat) (bs : List Byte) : (s.writeHome pa bs).consts = s.consts := rfl
@[simp] theorem State.writeHome_scales (s : State) (pa : Nat) (bs : List Byte) : (s.writeHome pa bs).scales = s.scales := rfl
@[simp] theorem State.writeHome_predictor (s : State) (pa : Nat) (bs : List Byte) : (s.writeHome pa bs).predictor = s.predictor := rfl
@[simp] theorem State.writeHome_images (s : State) (pa : Nat) (bs : List Byte) : (s.writeHome pa bs).images = s.images := rfl
@[simp] theorem State.writeHome_scrubs (s : State) (pa : Nat) (bs : List Byte) : (s.writeHome pa bs).scrubs = s.scrubs := rfl
@[simp] theorem State.writeHome_packets (s : State) (pa : Nat) (bs : List Byte) : (s.writeHome pa bs).packets = s.packets := rfl
@[simp] theorem State.writeHome_fabric (s : State) (pa : Nat) (bs : List Byte) : (s.writeHome pa bs).fabric = s.fabric := rfl
@[simp] theorem State.writeHome_orphans (s : State) (pa : Nat) (bs : List Byte) : (s.writeHome pa bs).orphans = s.orphans := rfl
@[simp] theorem State.writeHome_withdrawals (s : State) (pa : Nat) (bs : List Byte) : (s.writeHome pa bs).withdrawals = s.withdrawals := rfl
@[simp] theorem State.writeHome_publications (s : State) (pa : Nat) (bs : List Byte) : (s.writeHome pa bs).publications = s.publications := rfl
@[simp] theorem State.writeHome_traces (s : State) (pa : Nat) (bs : List Byte) : (s.writeHome pa bs).traces = s.traces := rfl
@[simp] theorem State.writeHome_trials (s : State) (pa : Nat) (bs : List Byte) : (s.writeHome pa bs).trials = s.trials := rfl
@[simp] theorem State.writeHome_samplings (s : State) (pa : Nat) (bs : List Byte) : (s.writeHome pa bs).samplings = s.samplings := rfl
@[simp] theorem State.writeHome_host (s : State) (pa : Nat) (bs : List Byte) : (s.writeHome pa bs).host = s.host := rfl
@[simp] theorem State.writeHome_modl (s : State) (pa : Nat) (bs : List Byte) : (s.writeHome pa bs).modl = s.modl := rfl
@[simp] theorem State.writeHome_cycle (s : State) (pa : Nat) (bs : List Byte) : (s.writeHome pa bs).cycle = s.cycle := rfl
@[simp] theorem State.writeHome_time (s : State) (pa : Nat) (bs : List Byte) : (s.writeHome pa bs).time = s.time := rfl
@[simp] theorem State.writeHome_serial (s : State) (pa : Nat) (bs : List Byte) : (s.writeHome pa bs).serial = s.serial := rfl
@[simp] theorem State.writeHome_due (s : State) (pa : Nat) (bs : List Byte) : (s.writeHome pa bs).due = s.due := rfl
@[simp] theorem State.writeHome_cur (s : State) (pa : Nat) (bs : List Byte) : (s.writeHome pa bs).cur = s.cur := rfl
@[simp] theorem State.writeHome_agenda (s : State) (pa : Nat) (bs : List Byte) : (s.writeHome pa bs).agenda = s.agenda := rfl
@[simp] theorem State.writeHome_fresh (s : State) (pa : Nat) (bs : List Byte) : (s.writeHome pa bs).fresh = s.fresh := rfl

@[simp] theorem State.setThread_crews (s : State) (r : TRef) (f : Thread → Thread) : (s.setThread r f).crews = Tbl.upd s.crews r.cref (·.setThread r.lane f) := rfl
@[simp] theorem State.setThread_teams (s : State) (r : TRef) (f : Thread → Thread) : (s.setThread r f).teams = s.teams := rfl
@[simp] theorem State.setThread_launches (s : State) (r : TRef) (f : Thread → Thread) : (s.setThread r f).launches = s.launches := rfl
@[simp] theorem State.setThread_ctxs (s : State) (r : TRef) (f : Thread → Thread) : (s.setThread r f).ctxs = s.ctxs := rfl
@[simp] theorem State.setThread_cores (s : State) (r : TRef) (f : Thread → Thread) : (s.setThread r f).cores = s.cores := rfl
@[simp] theorem State.setThread_clusters (s : State) (r : TRef) (f : Thread → Thread) : (s.setThread r f).clusters = s.clusters := rfl
@[simp] theorem State.setThread_dies (s : State) (r : TRef) (f : Thread → Thread) : (s.setThread r f).dies = s.dies := rfl
@[simp] theorem State.setThread_mem (s : State) (r : TRef) (f : Thread → Thread) : (s.setThread r f).mem = s.mem := rfl
@[simp] theorem State.setThread_poison (s : State) (r : TRef) (f : Thread → Thread) : (s.setThread r f).poison = s.poison := rfl
@[simp] theorem State.setThread_flaws (s : State) (r : TRef) (f : Thread → Thread) : (s.setThread r f).flaws = s.flaws := rfl
@[simp] theorem State.setThread_resets (s : State) (r : TRef) (f : Thread → Thread) : (s.setThread r f).resets = s.resets := rfl
@[simp] theorem State.setThread_clu (s : State) (r : TRef) (f : Thread → Thread) : (s.setThread r f).clu = s.clu := rfl
@[simp] theorem State.setThread_chip (s : State) (r : TRef) (f : Thread → Thread) : (s.setThread r f).chip = s.chip := rfl
@[simp] theorem State.setThread_l1 (s : State) (r : TRef) (f : Thread → Thread) : (s.setThread r f).l1 = s.l1 := rfl
@[simp] theorem State.setThread_l2 (s : State) (r : TRef) (f : Thread → Thread) : (s.setThread r f).l2 = s.l2 := rfl
@[simp] theorem State.setThread_icache (s : State) (r : TRef) (f : Thread → Thread) : (s.setThread r f).icache = s.icache := rfl
@[simp] theorem State.setThread_tlb (s : State) (r : TRef) (f : Thread → Thread) : (s.setThread r f).tlb = s.tlb := rfl
@[simp] theorem State.setThread_consts (s : State) (r : TRef) (f : Thread → Thread) : (s.setThread r f).consts = s.consts := rfl
@[simp] theorem State.setThread_scales (s : State) (r : TRef) (f : Thread → Thread) : (s.setThread r f).scales = s.scales := rfl
@[simp] theorem State.setThread_predictor (s : State) (r : TRef) (f : Thread → Thread) : (s.setThread r f).predictor = s.predictor := rfl
@[simp] theorem State.setThread_images (s : State) (r : TRef) (f : Thread → Thread) : (s.setThread r f).images = s.images := rfl
@[simp] theorem State.setThread_scrubs (s : State) (r : TRef) (f : Thread → Thread) : (s.setThread r f).scrubs = s.scrubs := rfl
@[simp] theorem State.setThread_packets (s : State) (r : TRef) (f : Thread → Thread) : (s.setThread r f).packets = s.packets := rfl
@[simp] theorem State.setThread_fabric (s : State) (r : TRef) (f : Thread → Thread) : (s.setThread r f).fabric = s.fabric := rfl
@[simp] theorem State.setThread_orphans (s : State) (r : TRef) (f : Thread → Thread) : (s.setThread r f).orphans = s.orphans := rfl
@[simp] theorem State.setThread_withdrawals (s : State) (r : TRef) (f : Thread → Thread) : (s.setThread r f).withdrawals = s.withdrawals := rfl
@[simp] theorem State.setThread_publications (s : State) (r : TRef) (f : Thread → Thread) : (s.setThread r f).publications = s.publications := rfl
@[simp] theorem State.setThread_traces (s : State) (r : TRef) (f : Thread → Thread) : (s.setThread r f).traces = s.traces := rfl
@[simp] theorem State.setThread_trials (s : State) (r : TRef) (f : Thread → Thread) : (s.setThread r f).trials = s.trials := rfl
@[simp] theorem State.setThread_samplings (s : State) (r : TRef) (f : Thread → Thread) : (s.setThread r f).samplings = s.samplings := rfl
@[simp] theorem State.setThread_host (s : State) (r : TRef) (f : Thread → Thread) : (s.setThread r f).host = s.host := rfl
@[simp] theorem State.setThread_modl (s : State) (r : TRef) (f : Thread → Thread) : (s.setThread r f).modl = s.modl := rfl
@[simp] theorem State.setThread_cycle (s : State) (r : TRef) (f : Thread → Thread) : (s.setThread r f).cycle = s.cycle := rfl
@[simp] theorem State.setThread_time (s : State) (r : TRef) (f : Thread → Thread) : (s.setThread r f).time = s.time := rfl
@[simp] theorem State.setThread_serial (s : State) (r : TRef) (f : Thread → Thread) : (s.setThread r f).serial = s.serial := rfl
@[simp] theorem State.setThread_due (s : State) (r : TRef) (f : Thread → Thread) : (s.setThread r f).due = s.due := rfl
@[simp] theorem State.setThread_cur (s : State) (r : TRef) (f : Thread → Thread) : (s.setThread r f).cur = s.cur := rfl
@[simp] theorem State.setThread_agenda (s : State) (r : TRef) (f : Thread → Thread) : (s.setThread r f).agenda = s.agenda := rfl
@[simp] theorem State.setThread_fresh (s : State) (r : TRef) (f : Thread → Thread) : (s.setThread r f).fresh = s.fresh := rfl

@[simp] theorem State.takeSerial_crews (s : State) : s.takeSerial.2.crews = s.crews := rfl
@[simp] theorem State.takeSerial_teams (s : State) : s.takeSerial.2.teams = s.teams := rfl
@[simp] theorem State.takeSerial_launches (s : State) : s.takeSerial.2.launches = s.launches := rfl
@[simp] theorem State.takeSerial_ctxs (s : State) : s.takeSerial.2.ctxs = s.ctxs := rfl
@[simp] theorem State.takeSerial_cores (s : State) : s.takeSerial.2.cores = s.cores := rfl
@[simp] theorem State.takeSerial_clusters (s : State) : s.takeSerial.2.clusters = s.clusters := rfl
@[simp] theorem State.takeSerial_dies (s : State) : s.takeSerial.2.dies = s.dies := rfl
@[simp] theorem State.takeSerial_mem (s : State) : s.takeSerial.2.mem = s.mem := rfl
@[simp] theorem State.takeSerial_poison (s : State) : s.takeSerial.2.poison = s.poison := rfl
@[simp] theorem State.takeSerial_flaws (s : State) : s.takeSerial.2.flaws = s.flaws := rfl
@[simp] theorem State.takeSerial_resets (s : State) : s.takeSerial.2.resets = s.resets := rfl
@[simp] theorem State.takeSerial_clu (s : State) : s.takeSerial.2.clu = s.clu := rfl
@[simp] theorem State.takeSerial_chip (s : State) : s.takeSerial.2.chip = s.chip := rfl
@[simp] theorem State.takeSerial_l1 (s : State) : s.takeSerial.2.l1 = s.l1 := rfl
@[simp] theorem State.takeSerial_l2 (s : State) : s.takeSerial.2.l2 = s.l2 := rfl
@[simp] theorem State.takeSerial_icache (s : State) : s.takeSerial.2.icache = s.icache := rfl
@[simp] theorem State.takeSerial_tlb (s : State) : s.takeSerial.2.tlb = s.tlb := rfl
@[simp] theorem State.takeSerial_consts (s : State) : s.takeSerial.2.consts = s.consts := rfl
@[simp] theorem State.takeSerial_scales (s : State) : s.takeSerial.2.scales = s.scales := rfl
@[simp] theorem State.takeSerial_predictor (s : State) : s.takeSerial.2.predictor = s.predictor := rfl
@[simp] theorem State.takeSerial_images (s : State) : s.takeSerial.2.images = s.images := rfl
@[simp] theorem State.takeSerial_scrubs (s : State) : s.takeSerial.2.scrubs = s.scrubs := rfl
@[simp] theorem State.takeSerial_packets (s : State) : s.takeSerial.2.packets = s.packets := rfl
@[simp] theorem State.takeSerial_fabric (s : State) : s.takeSerial.2.fabric = s.fabric := rfl
@[simp] theorem State.takeSerial_orphans (s : State) : s.takeSerial.2.orphans = s.orphans := rfl
@[simp] theorem State.takeSerial_withdrawals (s : State) : s.takeSerial.2.withdrawals = s.withdrawals := rfl
@[simp] theorem State.takeSerial_publications (s : State) : s.takeSerial.2.publications = s.publications := rfl
@[simp] theorem State.takeSerial_traces (s : State) : s.takeSerial.2.traces = s.traces := rfl
@[simp] theorem State.takeSerial_trials (s : State) : s.takeSerial.2.trials = s.trials := rfl
@[simp] theorem State.takeSerial_samplings (s : State) : s.takeSerial.2.samplings = s.samplings := rfl
@[simp] theorem State.takeSerial_host (s : State) : s.takeSerial.2.host = s.host := rfl
@[simp] theorem State.takeSerial_modl (s : State) : s.takeSerial.2.modl = s.modl := rfl
@[simp] theorem State.takeSerial_cycle (s : State) : s.takeSerial.2.cycle = s.cycle := rfl
@[simp] theorem State.takeSerial_time (s : State) : s.takeSerial.2.time = s.time := rfl
@[simp] theorem State.takeSerial_due (s : State) : s.takeSerial.2.due = s.due := rfl
@[simp] theorem State.takeSerial_cur (s : State) : s.takeSerial.2.cur = s.cur := rfl
@[simp] theorem State.takeSerial_agenda (s : State) : s.takeSerial.2.agenda = s.agenda := rfl
@[simp] theorem State.takeSerial_fresh (s : State) : s.takeSerial.2.fresh = s.fresh := rfl
@[simp] theorem State.takeSerial_fst (s : State) : s.takeSerial.1 = s.serial := rfl
@[simp] theorem State.takeSerial_serial (s : State) : s.takeSerial.2.serial = s.serial + 1 := rfl

@[simp] theorem State.passCycles_crews (s : State) (n : Nat) : (s.passCycles n).crews = s.crews := rfl
@[simp] theorem State.passCycles_teams (s : State) (n : Nat) : (s.passCycles n).teams = s.teams := rfl
@[simp] theorem State.passCycles_launches (s : State) (n : Nat) : (s.passCycles n).launches = s.launches := rfl
@[simp] theorem State.passCycles_ctxs (s : State) (n : Nat) : (s.passCycles n).ctxs = s.ctxs := rfl
@[simp] theorem State.passCycles_cores (s : State) (n : Nat) : (s.passCycles n).cores = s.cores := rfl
@[simp] theorem State.passCycles_clusters (s : State) (n : Nat) : (s.passCycles n).clusters = s.clusters := rfl
@[simp] theorem State.passCycles_dies (s : State) (n : Nat) : (s.passCycles n).dies = s.dies := rfl
@[simp] theorem State.passCycles_mem (s : State) (n : Nat) : (s.passCycles n).mem = s.mem := rfl
@[simp] theorem State.passCycles_poison (s : State) (n : Nat) : (s.passCycles n).poison = s.poison := rfl
@[simp] theorem State.passCycles_flaws (s : State) (n : Nat) : (s.passCycles n).flaws = s.flaws := rfl
@[simp] theorem State.passCycles_resets (s : State) (n : Nat) : (s.passCycles n).resets = s.resets := rfl
@[simp] theorem State.passCycles_clu (s : State) (n : Nat) : (s.passCycles n).clu = s.clu := rfl
@[simp] theorem State.passCycles_chip (s : State) (n : Nat) : (s.passCycles n).chip = s.chip := rfl
@[simp] theorem State.passCycles_l1 (s : State) (n : Nat) : (s.passCycles n).l1 = s.l1 := rfl
@[simp] theorem State.passCycles_l2 (s : State) (n : Nat) : (s.passCycles n).l2 = s.l2 := rfl
@[simp] theorem State.passCycles_icache (s : State) (n : Nat) : (s.passCycles n).icache = s.icache := rfl
@[simp] theorem State.passCycles_tlb (s : State) (n : Nat) : (s.passCycles n).tlb = s.tlb := rfl
@[simp] theorem State.passCycles_consts (s : State) (n : Nat) : (s.passCycles n).consts = s.consts := rfl
@[simp] theorem State.passCycles_scales (s : State) (n : Nat) : (s.passCycles n).scales = s.scales := rfl
@[simp] theorem State.passCycles_predictor (s : State) (n : Nat) : (s.passCycles n).predictor = s.predictor := rfl
@[simp] theorem State.passCycles_images (s : State) (n : Nat) : (s.passCycles n).images = s.images := rfl
@[simp] theorem State.passCycles_scrubs (s : State) (n : Nat) : (s.passCycles n).scrubs = s.scrubs := rfl
@[simp] theorem State.passCycles_packets (s : State) (n : Nat) : (s.passCycles n).packets = s.packets := rfl
@[simp] theorem State.passCycles_fabric (s : State) (n : Nat) : (s.passCycles n).fabric = s.fabric := rfl
@[simp] theorem State.passCycles_orphans (s : State) (n : Nat) : (s.passCycles n).orphans = s.orphans := rfl
@[simp] theorem State.passCycles_withdrawals (s : State) (n : Nat) : (s.passCycles n).withdrawals = s.withdrawals := rfl
@[simp] theorem State.passCycles_publications (s : State) (n : Nat) : (s.passCycles n).publications = s.publications := rfl
@[simp] theorem State.passCycles_traces (s : State) (n : Nat) : (s.passCycles n).traces = s.traces := rfl
@[simp] theorem State.passCycles_trials (s : State) (n : Nat) : (s.passCycles n).trials = s.trials := rfl
@[simp] theorem State.passCycles_samplings (s : State) (n : Nat) : (s.passCycles n).samplings = s.samplings := rfl
@[simp] theorem State.passCycles_host (s : State) (n : Nat) : (s.passCycles n).host = s.host := rfl
@[simp] theorem State.passCycles_serial (s : State) (n : Nat) : (s.passCycles n).serial = s.serial := rfl
@[simp] theorem State.passCycles_due (s : State) (n : Nat) : (s.passCycles n).due = s.due := rfl
@[simp] theorem State.passCycles_cur (s : State) (n : Nat) : (s.passCycles n).cur = s.cur := rfl
@[simp] theorem State.passCycles_agenda (s : State) (n : Nat) : (s.passCycles n).agenda = s.agenda := rfl
@[simp] theorem State.passCycles_fresh (s : State) (n : Nat) : (s.passCycles n).fresh = s.fresh := rfl
@[simp] theorem State.passCycles_cycle (s : State) (n : Nat) : (s.passCycles n).cycle = s.cycle + n := rfl

/-! ## Updates of a thread -/

@[simp] theorem Thread.setReg_pc (t : Thread) (r : Reg6) (v : Word) : (t.setReg r v).pc = t.pc := rfl
@[simp] theorem Thread.setReg_p (t : Thread) (r : Reg6) (v : Word) : (t.setReg r v).p = t.p := rfl
@[simp] theorem Thread.setReg_sup (t : Thread) (r : Reg6) (v : Word) : (t.setReg r v).sup = t.sup := rfl
@[simp] theorem Thread.setReg_epc (t : Thread) (r : Reg6) (v : Word) : (t.setReg r v).epc = t.epc := rfl
@[simp] theorem Thread.setReg_estat (t : Thread) (r : Reg6) (v : Word) : (t.setReg r v).estat = t.estat := rfl
@[simp] theorem Thread.setReg_ecause (t : Thread) (r : Reg6) (v : Word) : (t.setReg r v).ecause = t.ecause := rfl
@[simp] theorem Thread.setReg_xlit (t : Thread) (r : Reg6) (v : Word) : (t.setReg r v).xlit = t.xlit := rfl
@[simp] theorem Thread.setReg_xmod (t : Thread) (r : Reg6) (v : Word) : (t.setReg r v).xmod = t.xmod := rfl
@[simp] theorem Thread.setReg_chain (t : Thread) (r : Reg6) (v : Word) : (t.setReg r v).chain = t.chain := rfl
@[simp] theorem Thread.setReg_sched (t : Thread) (r : Reg6) (v : Word) : (t.setReg r v).sched = t.sched := rfl
@[simp] theorem Thread.setReg_wait (t : Thread) (r : Reg6) (v : Word) : (t.setReg r v).wait = t.wait := rfl
@[simp] theorem Thread.setReg_exited (t : Thread) (r : Reg6) (v : Word) : (t.setReg r v).exited = t.exited := rfl
@[simp] theorem Thread.setReg_lastIssue (t : Thread) (r : Reg6) (v : Word) : (t.setReg r v).lastIssue = t.lastIssue := rfl
@[simp] theorem Thread.setReg_readyAt (t : Thread) (r : Reg6) (v : Word) : (t.setReg r v).readyAt = t.readyAt := rfl
@[simp] theorem Thread.setReg_rankAt (t : Thread) (r : Reg6) (v : Word) : (t.setReg r v).rankAt = t.rankAt := rfl
@[simp] theorem Thread.setReg_backAt (t : Thread) (r : Reg6) (v : Word) : (t.setReg r v).backAt = t.backAt := rfl
@[simp] theorem Thread.setReg_window (t : Thread) (r : Reg6) (v : Word) : (t.setReg r v).window = t.window := rfl
@[simp] theorem Thread.setReg_spin (t : Thread) (r : Reg6) (v : Word) : (t.setReg r v).spin = t.spin := rfl
@[simp] theorem Thread.setReg_taintG (t : Thread) (r : Reg6) (v : Word) : (t.setReg r v).taintG = t.taintG := rfl
@[simp] theorem Thread.setReg_taintP (t : Thread) (r : Reg6) (v : Word) : (t.setReg r v).taintP = t.taintP := rfl
@[simp] theorem Thread.setReg_taintC (t : Thread) (r : Reg6) (v : Word) : (t.setReg r v).taintC = t.taintC := rfl
@[simp] theorem Thread.setReg_instCand (t : Thread) (r : Reg6) (v : Word) : (t.setReg r v).instCand = t.instCand := rfl
@[simp] theorem Thread.setReg_instWord (t : Thread) (r : Reg6) (v : Word) : (t.setReg r v).instWord = t.instWord := rfl
@[simp] theorem Thread.setReg_lane (t : Thread) (r : Reg6) (v : Word) : (t.setReg r v).lane = t.lane := rfl
@[simp] theorem Thread.setReg_fpAtoms (t : Thread) (r : Reg6) (v : Word) : (t.setReg r v).fpAtoms = t.fpAtoms := rfl
@[simp] theorem Thread.setReg_trap (t : Thread) (r : Reg6) (v : Word) : (t.setReg r v).trap = t.trap := rfl
@[simp] theorem Thread.setReg_pass (t : Thread) (r : Reg6) (v : Word) : (t.setReg r v).pass = t.pass := rfl
@[simp] theorem Thread.setReg_late (t : Thread) (r : Reg6) (v : Word) : (t.setReg r v).late = t.late := rfl
@[simp] theorem Thread.setReg_g (t : Thread) (r : Reg6) (v : Word) : (t.setReg r v).g = t.g.set! r.toNat v := rfl
@[simp] theorem Thread.setPair_pc (t : Thread) (r : Reg6) (v : DWord) : (t.setPair r v).pc = t.pc := rfl
@[simp] theorem Thread.setPair_p (t : Thread) (r : Reg6) (v : DWord) : (t.setPair r v).p = t.p := rfl
@[simp] theorem Thread.setPair_sup (t : Thread) (r : Reg6) (v : DWord) : (t.setPair r v).sup = t.sup := rfl
@[simp] theorem Thread.setPair_epc (t : Thread) (r : Reg6) (v : DWord) : (t.setPair r v).epc = t.epc := rfl
@[simp] theorem Thread.setPair_estat (t : Thread) (r : Reg6) (v : DWord) : (t.setPair r v).estat = t.estat := rfl
@[simp] theorem Thread.setPair_ecause (t : Thread) (r : Reg6) (v : DWord) : (t.setPair r v).ecause = t.ecause := rfl
@[simp] theorem Thread.setPair_xlit (t : Thread) (r : Reg6) (v : DWord) : (t.setPair r v).xlit = t.xlit := rfl
@[simp] theorem Thread.setPair_xmod (t : Thread) (r : Reg6) (v : DWord) : (t.setPair r v).xmod = t.xmod := rfl
@[simp] theorem Thread.setPair_chain (t : Thread) (r : Reg6) (v : DWord) : (t.setPair r v).chain = t.chain := rfl
@[simp] theorem Thread.setPair_sched (t : Thread) (r : Reg6) (v : DWord) : (t.setPair r v).sched = t.sched := rfl
@[simp] theorem Thread.setPair_wait (t : Thread) (r : Reg6) (v : DWord) : (t.setPair r v).wait = t.wait := rfl
@[simp] theorem Thread.setPair_exited (t : Thread) (r : Reg6) (v : DWord) : (t.setPair r v).exited = t.exited := rfl
@[simp] theorem Thread.setPair_lastIssue (t : Thread) (r : Reg6) (v : DWord) : (t.setPair r v).lastIssue = t.lastIssue := rfl
@[simp] theorem Thread.setPair_readyAt (t : Thread) (r : Reg6) (v : DWord) : (t.setPair r v).readyAt = t.readyAt := rfl
@[simp] theorem Thread.setPair_rankAt (t : Thread) (r : Reg6) (v : DWord) : (t.setPair r v).rankAt = t.rankAt := rfl
@[simp] theorem Thread.setPair_backAt (t : Thread) (r : Reg6) (v : DWord) : (t.setPair r v).backAt = t.backAt := rfl
@[simp] theorem Thread.setPair_window (t : Thread) (r : Reg6) (v : DWord) : (t.setPair r v).window = t.window := rfl
@[simp] theorem Thread.setPair_spin (t : Thread) (r : Reg6) (v : DWord) : (t.setPair r v).spin = t.spin := rfl
@[simp] theorem Thread.setPair_taintG (t : Thread) (r : Reg6) (v : DWord) : (t.setPair r v).taintG = t.taintG := rfl
@[simp] theorem Thread.setPair_taintP (t : Thread) (r : Reg6) (v : DWord) : (t.setPair r v).taintP = t.taintP := rfl
@[simp] theorem Thread.setPair_taintC (t : Thread) (r : Reg6) (v : DWord) : (t.setPair r v).taintC = t.taintC := rfl
@[simp] theorem Thread.setPair_instCand (t : Thread) (r : Reg6) (v : DWord) : (t.setPair r v).instCand = t.instCand := rfl
@[simp] theorem Thread.setPair_instWord (t : Thread) (r : Reg6) (v : DWord) : (t.setPair r v).instWord = t.instWord := rfl
@[simp] theorem Thread.setPair_lane (t : Thread) (r : Reg6) (v : DWord) : (t.setPair r v).lane = t.lane := rfl
@[simp] theorem Thread.setPair_fpAtoms (t : Thread) (r : Reg6) (v : DWord) : (t.setPair r v).fpAtoms = t.fpAtoms := rfl
@[simp] theorem Thread.setPair_trap (t : Thread) (r : Reg6) (v : DWord) : (t.setPair r v).trap = t.trap := rfl
@[simp] theorem Thread.setPair_pass (t : Thread) (r : Reg6) (v : DWord) : (t.setPair r v).pass = t.pass := rfl
@[simp] theorem Thread.setPair_late (t : Thread) (r : Reg6) (v : DWord) : (t.setPair r v).late = t.late := rfl
@[simp] theorem Thread.setPred_pc (t : Thread) (p : Pred3) (v : Bool) : (t.setPred p v).pc = t.pc := by
  unfold Thread.setPred; split <;> rfl
@[simp] theorem Thread.setPred_g (t : Thread) (p : Pred3) (v : Bool) : (t.setPred p v).g = t.g := by
  unfold Thread.setPred; split <;> rfl
@[simp] theorem Thread.setPred_sup (t : Thread) (p : Pred3) (v : Bool) : (t.setPred p v).sup = t.sup := by
  unfold Thread.setPred; split <;> rfl
@[simp] theorem Thread.setPred_epc (t : Thread) (p : Pred3) (v : Bool) : (t.setPred p v).epc = t.epc := by
  unfold Thread.setPred; split <;> rfl
@[simp] theorem Thread.setPred_estat (t : Thread) (p : Pred3) (v : Bool) : (t.setPred p v).estat = t.estat := by
  unfold Thread.setPred; split <;> rfl
@[simp] theorem Thread.setPred_ecause (t : Thread) (p : Pred3) (v : Bool) : (t.setPred p v).ecause = t.ecause := by
  unfold Thread.setPred; split <;> rfl
@[simp] theorem Thread.setPred_xlit (t : Thread) (p : Pred3) (v : Bool) : (t.setPred p v).xlit = t.xlit := by
  unfold Thread.setPred; split <;> rfl
@[simp] theorem Thread.setPred_xmod (t : Thread) (p : Pred3) (v : Bool) : (t.setPred p v).xmod = t.xmod := by
  unfold Thread.setPred; split <;> rfl
@[simp] theorem Thread.setPred_chain (t : Thread) (p : Pred3) (v : Bool) : (t.setPred p v).chain = t.chain := by
  unfold Thread.setPred; split <;> rfl
@[simp] theorem Thread.setPred_sched (t : Thread) (p : Pred3) (v : Bool) : (t.setPred p v).sched = t.sched := by
  unfold Thread.setPred; split <;> rfl
@[simp] theorem Thread.setPred_out (t : Thread) (p : Pred3) (v : Bool) : (t.setPred p v).out = t.out := by
  unfold Thread.setPred; split <;> rfl
@[simp] theorem Thread.setPred_wait (t : Thread) (p : Pred3) (v : Bool) : (t.setPred p v).wait = t.wait := by
  unfold Thread.setPred; split <;> rfl
@[simp] theorem Thread.setPred_exited (t : Thread) (p : Pred3) (v : Bool) : (t.setPred p v).exited = t.exited := by
  unfold Thread.setPred; split <;> rfl
@[simp] theorem Thread.setPred_lastIssue (t : Thread) (p : Pred3) (v : Bool) : (t.setPred p v).lastIssue = t.lastIssue := by
  unfold Thread.setPred; split <;> rfl
@[simp] theorem Thread.setPred_readyAt (t : Thread) (p : Pred3) (v : Bool) : (t.setPred p v).readyAt = t.readyAt := by
  unfold Thread.setPred; split <;> rfl
@[simp] theorem Thread.setPred_rankAt (t : Thread) (p : Pred3) (v : Bool) : (t.setPred p v).rankAt = t.rankAt := by
  unfold Thread.setPred; split <;> rfl
@[simp] theorem Thread.setPred_backAt (t : Thread) (p : Pred3) (v : Bool) : (t.setPred p v).backAt = t.backAt := by
  unfold Thread.setPred; split <;> rfl
@[simp] theorem Thread.setPred_window (t : Thread) (p : Pred3) (v : Bool) : (t.setPred p v).window = t.window := by
  unfold Thread.setPred; split <;> rfl
@[simp] theorem Thread.setPred_spin (t : Thread) (p : Pred3) (v : Bool) : (t.setPred p v).spin = t.spin := by
  unfold Thread.setPred; split <;> rfl
@[simp] theorem Thread.setPred_taintG (t : Thread) (p : Pred3) (v : Bool) : (t.setPred p v).taintG = t.taintG := by
  unfold Thread.setPred; split <;> rfl
@[simp] theorem Thread.setPred_taintP (t : Thread) (p : Pred3) (v : Bool) : (t.setPred p v).taintP = t.taintP := by
  unfold Thread.setPred; split <;> rfl
@[simp] theorem Thread.setPred_taintC (t : Thread) (p : Pred3) (v : Bool) : (t.setPred p v).taintC = t.taintC := by
  unfold Thread.setPred; split <;> rfl
@[simp] theorem Thread.setPred_instCand (t : Thread) (p : Pred3) (v : Bool) : (t.setPred p v).instCand = t.instCand := by
  unfold Thread.setPred; split <;> rfl
@[simp] theorem Thread.setPred_instWord (t : Thread) (p : Pred3) (v : Bool) : (t.setPred p v).instWord = t.instWord := by
  unfold Thread.setPred; split <;> rfl
@[simp] theorem Thread.setPred_lane (t : Thread) (p : Pred3) (v : Bool) : (t.setPred p v).lane = t.lane := by
  unfold Thread.setPred; split <;> rfl
@[simp] theorem Thread.setPred_fpAtoms (t : Thread) (p : Pred3) (v : Bool) : (t.setPred p v).fpAtoms = t.fpAtoms := by
  unfold Thread.setPred; split <;> rfl
@[simp] theorem Thread.setPred_trap (t : Thread) (p : Pred3) (v : Bool) : (t.setPred p v).trap = t.trap := by
  unfold Thread.setPred; split <;> rfl
@[simp] theorem Thread.setPred_pass (t : Thread) (p : Pred3) (v : Bool) : (t.setPred p v).pass = t.pass := by
  unfold Thread.setPred; split <;> rfl
@[simp] theorem Thread.setPred_late (t : Thread) (p : Pred3) (v : Bool) : (t.setPred p v).late = t.late := by
  unfold Thread.setPred; split <;> rfl
@[simp] theorem Thread.setRegs_pc (ws : List Word) (t : Thread) (r : Reg6) : (t.setRegs r ws).pc = t.pc := by
  induction ws generalizing t r with | nil => rfl | cons w ws ih => exact ih _ _
@[simp] theorem Thread.setRegs_p (ws : List Word) (t : Thread) (r : Reg6) : (t.setRegs r ws).p = t.p := by
  induction ws generalizing t r with | nil => rfl | cons w ws ih => exact ih _ _
@[simp] theorem Thread.setRegs_sup (ws : List Word) (t : Thread) (r : Reg6) : (t.setRegs r ws).sup = t.sup := by
  induction ws generalizing t r with | nil => rfl | cons w ws ih => exact ih _ _
@[simp] theorem Thread.setRegs_epc (ws : List Word) (t : Thread) (r : Reg6) : (t.setRegs r ws).epc = t.epc := by
  induction ws generalizing t r with | nil => rfl | cons w ws ih => exact ih _ _
@[simp] theorem Thread.setRegs_estat (ws : List Word) (t : Thread) (r : Reg6) : (t.setRegs r ws).estat = t.estat := by
  induction ws generalizing t r with | nil => rfl | cons w ws ih => exact ih _ _
@[simp] theorem Thread.setRegs_ecause (ws : List Word) (t : Thread) (r : Reg6) : (t.setRegs r ws).ecause = t.ecause := by
  induction ws generalizing t r with | nil => rfl | cons w ws ih => exact ih _ _
@[simp] theorem Thread.setRegs_xlit (ws : List Word) (t : Thread) (r : Reg6) : (t.setRegs r ws).xlit = t.xlit := by
  induction ws generalizing t r with | nil => rfl | cons w ws ih => exact ih _ _
@[simp] theorem Thread.setRegs_xmod (ws : List Word) (t : Thread) (r : Reg6) : (t.setRegs r ws).xmod = t.xmod := by
  induction ws generalizing t r with | nil => rfl | cons w ws ih => exact ih _ _
@[simp] theorem Thread.setRegs_chain (ws : List Word) (t : Thread) (r : Reg6) : (t.setRegs r ws).chain = t.chain := by
  induction ws generalizing t r with | nil => rfl | cons w ws ih => exact ih _ _
@[simp] theorem Thread.setRegs_sched (ws : List Word) (t : Thread) (r : Reg6) : (t.setRegs r ws).sched = t.sched := by
  induction ws generalizing t r with | nil => rfl | cons w ws ih => exact ih _ _
@[simp] theorem Thread.setRegs_wait (ws : List Word) (t : Thread) (r : Reg6) : (t.setRegs r ws).wait = t.wait := by
  induction ws generalizing t r with | nil => rfl | cons w ws ih => exact ih _ _
@[simp] theorem Thread.setRegs_exited (ws : List Word) (t : Thread) (r : Reg6) : (t.setRegs r ws).exited = t.exited := by
  induction ws generalizing t r with | nil => rfl | cons w ws ih => exact ih _ _
@[simp] theorem Thread.setRegs_lastIssue (ws : List Word) (t : Thread) (r : Reg6) : (t.setRegs r ws).lastIssue = t.lastIssue := by
  induction ws generalizing t r with | nil => rfl | cons w ws ih => exact ih _ _
@[simp] theorem Thread.setRegs_readyAt (ws : List Word) (t : Thread) (r : Reg6) : (t.setRegs r ws).readyAt = t.readyAt := by
  induction ws generalizing t r with | nil => rfl | cons w ws ih => exact ih _ _
@[simp] theorem Thread.setRegs_rankAt (ws : List Word) (t : Thread) (r : Reg6) : (t.setRegs r ws).rankAt = t.rankAt := by
  induction ws generalizing t r with | nil => rfl | cons w ws ih => exact ih _ _
@[simp] theorem Thread.setRegs_backAt (ws : List Word) (t : Thread) (r : Reg6) : (t.setRegs r ws).backAt = t.backAt := by
  induction ws generalizing t r with | nil => rfl | cons w ws ih => exact ih _ _
@[simp] theorem Thread.setRegs_window (ws : List Word) (t : Thread) (r : Reg6) : (t.setRegs r ws).window = t.window := by
  induction ws generalizing t r with | nil => rfl | cons w ws ih => exact ih _ _
@[simp] theorem Thread.setRegs_spin (ws : List Word) (t : Thread) (r : Reg6) : (t.setRegs r ws).spin = t.spin := by
  induction ws generalizing t r with | nil => rfl | cons w ws ih => exact ih _ _
@[simp] theorem Thread.setRegs_taintG (ws : List Word) (t : Thread) (r : Reg6) : (t.setRegs r ws).taintG = t.taintG := by
  induction ws generalizing t r with | nil => rfl | cons w ws ih => exact ih _ _
@[simp] theorem Thread.setRegs_taintP (ws : List Word) (t : Thread) (r : Reg6) : (t.setRegs r ws).taintP = t.taintP := by
  induction ws generalizing t r with | nil => rfl | cons w ws ih => exact ih _ _
@[simp] theorem Thread.setRegs_taintC (ws : List Word) (t : Thread) (r : Reg6) : (t.setRegs r ws).taintC = t.taintC := by
  induction ws generalizing t r with | nil => rfl | cons w ws ih => exact ih _ _
@[simp] theorem Thread.setRegs_instCand (ws : List Word) (t : Thread) (r : Reg6) : (t.setRegs r ws).instCand = t.instCand := by
  induction ws generalizing t r with | nil => rfl | cons w ws ih => exact ih _ _
@[simp] theorem Thread.setRegs_instWord (ws : List Word) (t : Thread) (r : Reg6) : (t.setRegs r ws).instWord = t.instWord := by
  induction ws generalizing t r with | nil => rfl | cons w ws ih => exact ih _ _
@[simp] theorem Thread.setRegs_lane (ws : List Word) (t : Thread) (r : Reg6) : (t.setRegs r ws).lane = t.lane := by
  induction ws generalizing t r with | nil => rfl | cons w ws ih => exact ih _ _
@[simp] theorem Thread.setRegs_fpAtoms (ws : List Word) (t : Thread) (r : Reg6) : (t.setRegs r ws).fpAtoms = t.fpAtoms := by
  induction ws generalizing t r with | nil => rfl | cons w ws ih => exact ih _ _
@[simp] theorem Thread.setRegs_trap (ws : List Word) (t : Thread) (r : Reg6) : (t.setRegs r ws).trap = t.trap := by
  induction ws generalizing t r with | nil => rfl | cons w ws ih => exact ih _ _
@[simp] theorem Thread.setRegs_pass (ws : List Word) (t : Thread) (r : Reg6) : (t.setRegs r ws).pass = t.pass := by
  induction ws generalizing t r with | nil => rfl | cons w ws ih => exact ih _ _
@[simp] theorem Thread.setRegs_late (ws : List Word) (t : Thread) (r : Reg6) : (t.setRegs r ws).late = t.late := by
  induction ws generalizing t r with | nil => rfl | cons w ws ih => exact ih _ _
@[simp] theorem Thread.forget_pc (t : Thread) (r : Reg6) : (t.forget r).pc = t.pc := rfl
@[simp] theorem Thread.forget_g (t : Thread) (r : Reg6) : (t.forget r).g = t.g := rfl
@[simp] theorem Thread.forget_p (t : Thread) (r : Reg6) : (t.forget r).p = t.p := rfl
@[simp] theorem Thread.forget_sup (t : Thread) (r : Reg6) : (t.forget r).sup = t.sup := rfl
@[simp] theorem Thread.forget_epc (t : Thread) (r : Reg6) : (t.forget r).epc = t.epc := rfl
@[simp] theorem Thread.forget_estat (t : Thread) (r : Reg6) : (t.forget r).estat = t.estat := rfl
@[simp] theorem Thread.forget_ecause (t : Thread) (r : Reg6) : (t.forget r).ecause = t.ecause := rfl
@[simp] theorem Thread.forget_xlit (t : Thread) (r : Reg6) : (t.forget r).xlit = t.xlit := rfl
@[simp] theorem Thread.forget_xmod (t : Thread) (r : Reg6) : (t.forget r).xmod = t.xmod := rfl
@[simp] theorem Thread.forget_chain (t : Thread) (r : Reg6) : (t.forget r).chain = t.chain := rfl
@[simp] theorem Thread.forget_sched (t : Thread) (r : Reg6) : (t.forget r).sched = t.sched := rfl
@[simp] theorem Thread.forget_wait (t : Thread) (r : Reg6) : (t.forget r).wait = t.wait := rfl
@[simp] theorem Thread.forget_exited (t : Thread) (r : Reg6) : (t.forget r).exited = t.exited := rfl
@[simp] theorem Thread.forget_lastIssue (t : Thread) (r : Reg6) : (t.forget r).lastIssue = t.lastIssue := rfl
@[simp] theorem Thread.forget_readyAt (t : Thread) (r : Reg6) : (t.forget r).readyAt = t.readyAt := rfl
@[simp] theorem Thread.forget_rankAt (t : Thread) (r : Reg6) : (t.forget r).rankAt = t.rankAt := rfl
@[simp] theorem Thread.forget_backAt (t : Thread) (r : Reg6) : (t.forget r).backAt = t.backAt := rfl
@[simp] theorem Thread.forget_window (t : Thread) (r : Reg6) : (t.forget r).window = t.window := rfl
@[simp] theorem Thread.forget_spin (t : Thread) (r : Reg6) : (t.forget r).spin = t.spin := rfl
@[simp] theorem Thread.forget_taintG (t : Thread) (r : Reg6) : (t.forget r).taintG = t.taintG := rfl
@[simp] theorem Thread.forget_taintP (t : Thread) (r : Reg6) : (t.forget r).taintP = t.taintP := rfl
@[simp] theorem Thread.forget_taintC (t : Thread) (r : Reg6) : (t.forget r).taintC = t.taintC := rfl
@[simp] theorem Thread.forget_instCand (t : Thread) (r : Reg6) : (t.forget r).instCand = t.instCand := rfl
@[simp] theorem Thread.forget_instWord (t : Thread) (r : Reg6) : (t.forget r).instWord = t.instWord := rfl
@[simp] theorem Thread.forget_lane (t : Thread) (r : Reg6) : (t.forget r).lane = t.lane := rfl
@[simp] theorem Thread.forget_fpAtoms (t : Thread) (r : Reg6) : (t.forget r).fpAtoms = t.fpAtoms := rfl
@[simp] theorem Thread.forget_trap (t : Thread) (r : Reg6) : (t.forget r).trap = t.trap := rfl
@[simp] theorem Thread.forget_pass (t : Thread) (r : Reg6) : (t.forget r).pass = t.pass := rfl
@[simp] theorem Thread.forget_late (t : Thread) (r : Reg6) : (t.forget r).late = t.late := rfl

/-! ## Updates of a crew -/

@[simp] theorem Crew.setThread_slot (c : Crew) (l : Nat) (f : Thread → Thread) : (c.setThread l f).slot = c.slot := rfl
@[simp] theorem Crew.setThread_k (c : Crew) (l : Nat) (f : Thread → Thread) : (c.setThread l f).k = c.k := rfl
@[simp] theorem Crew.setThread_taintK (c : Crew) (l : Nat) (f : Thread → Thread) : (c.setThread l f).taintK = c.taintK := rfl
@[simp] theorem Crew.setThread_mask (c : Crew) (l : Nat) (f : Thread → Thread) : (c.setThread l f).mask = c.mask := rfl
@[simp] theorem Crew.setThread_maskWas (c : Crew) (l : Nat) (f : Thread → Thread) : (c.setThread l f).maskWas = c.maskWas := rfl
@[simp] theorem Crew.setThread_retired (c : Crew) (l : Nat) (f : Thread → Thread) : (c.setThread l f).retired = c.retired := rfl
@[simp] theorem Crew.setThread_quietCount (c : Crew) (l : Nat) (f : Thread → Thread) : (c.setThread l f).quietCount = c.quietCount := rfl
@[simp] theorem Crew.setThread_quietMarks (c : Crew) (l : Nat) (f : Thread → Thread) : (c.setThread l f).quietMarks = c.quietMarks := rfl
@[simp] theorem Crew.setThread_switchPoint (c : Crew) (l : Nat) (f : Thread → Thread) : (c.setThread l f).switchPoint = c.switchPoint := rfl
@[simp] theorem Crew.setThread_handling (c : Crew) (l : Nat) (f : Thread → Thread) : (c.setThread l f).handling = c.handling := rfl
@[simp] theorem Crew.setThread_handlingIface (c : Crew) (l : Nat) (f : Thread → Thread) : (c.setThread l f).handlingIface = c.handlingIface := rfl
@[simp] theorem Crew.setThread_unsent (c : Crew) (l : Nat) (f : Thread → Thread) : (c.setThread l f).unsent = c.unsent := rfl
@[simp] theorem Crew.setThread_fence (c : Crew) (l : Nat) (f : Thread → Thread) : (c.setThread l f).fence = c.fence := rfl
@[simp] theorem Crew.setThread_service (c : Crew) (l : Nat) (f : Thread → Thread) : (c.setThread l f).service = c.service := rfl
@[simp] theorem mapCrew_slot (i : Instr) (m : BitVec 64) (f : Nat → Thread → Thread) (c : Crew) : (mapCrew i m f c).slot = c.slot := rfl
@[simp] theorem mapCrew_k (i : Instr) (m : BitVec 64) (f : Nat → Thread → Thread) (c : Crew) : (mapCrew i m f c).k = c.k := rfl
@[simp] theorem mapCrew_taintK (i : Instr) (m : BitVec 64) (f : Nat → Thread → Thread) (c : Crew) : (mapCrew i m f c).taintK = c.taintK := rfl
@[simp] theorem mapCrew_mask (i : Instr) (m : BitVec 64) (f : Nat → Thread → Thread) (c : Crew) : (mapCrew i m f c).mask = c.mask := rfl
@[simp] theorem mapCrew_maskWas (i : Instr) (m : BitVec 64) (f : Nat → Thread → Thread) (c : Crew) : (mapCrew i m f c).maskWas = c.maskWas := rfl
@[simp] theorem mapCrew_retired (i : Instr) (m : BitVec 64) (f : Nat → Thread → Thread) (c : Crew) : (mapCrew i m f c).retired = c.retired := rfl
@[simp] theorem mapCrew_quietCount (i : Instr) (m : BitVec 64) (f : Nat → Thread → Thread) (c : Crew) : (mapCrew i m f c).quietCount = c.quietCount := rfl
@[simp] theorem mapCrew_quietMarks (i : Instr) (m : BitVec 64) (f : Nat → Thread → Thread) (c : Crew) : (mapCrew i m f c).quietMarks = c.quietMarks := rfl
@[simp] theorem mapCrew_switchPoint (i : Instr) (m : BitVec 64) (f : Nat → Thread → Thread) (c : Crew) : (mapCrew i m f c).switchPoint = c.switchPoint := rfl
@[simp] theorem mapCrew_handling (i : Instr) (m : BitVec 64) (f : Nat → Thread → Thread) (c : Crew) : (mapCrew i m f c).handling = c.handling := rfl
@[simp] theorem mapCrew_handlingIface (i : Instr) (m : BitVec 64) (f : Nat → Thread → Thread) (c : Crew) : (mapCrew i m f c).handlingIface = c.handlingIface := rfl
@[simp] theorem mapCrew_unsent (i : Instr) (m : BitVec 64) (f : Nat → Thread → Thread) (c : Crew) : (mapCrew i m f c).unsent = c.unsent := rfl
@[simp] theorem mapCrew_fence (i : Instr) (m : BitVec 64) (f : Nat → Thread → Thread) (c : Crew) : (mapCrew i m f c).fence = c.fence := rfl
@[simp] theorem mapCrew_service (i : Instr) (m : BitVec 64) (f : Nat → Thread → Thread) (c : Crew) : (mapCrew i m f c).service = c.service := rfl

end Sys2Proof.Machine
end

