-- ==== Sys2Proof/Laws/Registers.lean ====
section
/-!
SUPPORT. Registers, pairs and predicates of a thread: a read after a write, and the other registers.
-/
namespace Sys2Proof.Machine

/-! ## General registers -/

theorem Thread.reg_setReg (t : Thread) (r q : Reg6) (v : Word) : (t.setReg r v).reg q = if q = r then v else t.reg q := by
  have hq : q.toNat < 64 := q.isLt
  have hr : r.toNat < 64 := r.isLt
  have hg : ∀ (g : Vector Word 64), g.getD q.toNat 0 = g[q.toNat] := fun g => by simp [Vector.getD, hq]
  unfold Thread.reg
  rw [hg, hg, Thread.setReg_g]
  by_cases h : q = r
  · subst h; simp
  · have hn : ¬ r.toNat = q.toNat := fun e => h (BitVec.eq_of_toNat_eq e.symm)
    rw [if_neg h]
    exact Vector.getElem_setIfInBounds_ne hq hn

@[simp] theorem Thread.reg_setReg_same (t : Thread) (r : Reg6) (v : Word) : (t.setReg r v).reg r = v := by
  rw [Thread.reg_setReg, if_pos rfl]
theorem Thread.reg_setReg_other (t : Thread) (r q : Reg6) (v : Word) (h : q ≠ r) : (t.setReg r v).reg q = t.reg q := by
  rw [Thread.reg_setReg, if_neg h]

theorem Reg6.next_ne (r : Reg6) : r + 1 ≠ r := by
  intro h; have := congrArg BitVec.toNat h; revert r; decide

theorem Thread.reg_setPair_low (t : Thread) (r : Reg6) (v : DWord) : (t.setPair r v).reg r = v.setWidth 32 := by
  unfold Thread.setPair
  rw [Thread.reg_setReg_other _ _ _ _ (Ne.symm (Reg6.next_ne r)), Thread.reg_setReg_same]
theorem Thread.reg_setPair_high (t : Thread) (r : Reg6) (v : DWord) :
    (t.setPair r v).reg (r + 1) = (v >>> 32).setWidth 32 := by
  unfold Thread.setPair; rw [Thread.reg_setReg_same]
theorem Thread.reg_setPair_other (t : Thread) (r q : Reg6) (v : DWord) (h : q ≠ r) (h' : q ≠ r + 1) :
    (t.setPair r v).reg q = t.reg q := by
  unfold Thread.setPair
  rw [Thread.reg_setReg_other _ _ _ _ h', Thread.reg_setReg_other _ _ _ _ h]

/-- A pair reads back whole. -/
theorem Thread.pair_setPair (t : Thread) (r : Reg6) (v : DWord) : (t.setPair r v).pair r = v := by
  unfold Thread.pair
  rw [Thread.reg_setPair_low, Thread.reg_setPair_high]
  apply BitVec.eq_of_toNat_eq
  have hv := v.isLt
  simp only [BitVec.toNat_ofNat, BitVec.toNat_setWidth, BitVec.toNat_ushiftRight, Nat.shiftRight_eq_div_pow]
  omega

/-! ## Predicates -/

theorem Thread.pred_zero (t : Thread) : t.pred 0 = true := rfl

theorem Thread.pred_setPred (t : Thread) (p q : Pred3) (v : Bool) :
    (t.setPred p v).pred q = if q = p ∧ p ≠ 0 then v else t.pred q := by
  unfold Thread.setPred Thread.pred
  by_cases hp : p = 0
  · simp [hp]
  · rw [if_neg hp]
    have hb : ∀ (w : BitVec 8) (v : Bool) (p q : Pred3), p ≠ 0 →
        ((q == 0 || (if v then w ||| (1#8 <<< p.toNat) else w &&& ~~~(1#8 <<< p.toNat)).getLsbD q.toNat) =
          if q = p then v else (q == 0 || w.getLsbD q.toNat)) := by
      intro w v p q hp
      have hq : q.toNat < 8 := q.isLt
      have hp8 : p.toNat < 8 := p.isLt
      have h1 : (1#8 <<< p.toNat).getLsbD q.toNat = decide (q = p) := by
        revert hp; revert p q; decide
      cases v
      · simp only [Bool.false_eq_true, if_false, BitVec.getLsbD_and, BitVec.getLsbD_not, h1, hq, decide_true, Bool.true_and]
        by_cases h : q = p
        · subst h; simpa using hp
        · simp [h]
      · simp only [if_true, BitVec.getLsbD_or, h1]
        by_cases h : q = p <;> simp [h]
    have := hb t.p v p q hp
    simp only [hp, ne_eq, not_false_eq_true, and_true]
    exact this

/-- A compare leaves its relation in P and the complement in Q, in that order; `p0` reads true whatever is written. -/
theorem Thread.pred_compare (t : Thread) (p q x : Pred3) (c : Bool) :
    (t.compare p q c).pred x = if x = q ∧ q ≠ 0 then !c else if x = p ∧ p ≠ 0 then c else t.pred x := by
  unfold Thread.compare
  rw [Thread.pred_setPred, Thread.pred_setPred]

theorem Thread.compare_reg (t : Thread) (p q : Pred3) (c : Bool) (r : Reg6) : (t.compare p q c).reg r = t.reg r := by
  unfold Thread.compare Thread.reg; simp

end Sys2Proof.Machine
end

