-- ==== Sys2Proof/Laws/Issue.lean ====
section
/-!
SUPPORT. What the issue of one instruction can do, said once: in a group of one crew that nothing holds back, an issue is its
body and the end of the issue; each lane then holds what the body gave it, finished.
-/
namespace Sys2Proof.Machine

/-! ## Tables -/

section
variable {κ β : Type} [DecidableEq κ]

theorem Tbl.at?_put (t : Tbl κ β) (k q : κ) (v : β) : Tbl.at? (Tbl.put t k v) q = if q = k then some v else Tbl.at? t q := by
  induction t with
  | nil =>
    unfold Tbl.put Tbl.at?
    by_cases h : k = q
    · simp [h]
    · simp [h, Ne.symm h, Tbl.at?]
  | cons c t ih =>
    obtain ⟨k', v'⟩ := c
    unfold Tbl.put
    split
    · subst k'
      by_cases h : k = q
      · simp [Tbl.at?, h]
      · simp [Tbl.at?, h, Ne.symm h]
    · rename_i hk
      simp only [Tbl.at?]
      rw [ih]
      by_cases h : k' = q
      · subst q; simp [hk]
      · simp [h]

theorem Tbl.at?_upd (t : Tbl κ β) (k q : κ) (f : β → β) :
    Tbl.at? (Tbl.upd t k f) q = if q = k then (Tbl.at? t k).map f else Tbl.at? t q := by
  unfold Tbl.upd
  split
  · rename_i v hv
    rw [Tbl.at?_put]
    by_cases h : q = k
    · simp [h, hv]
    · simp [h]
  · rename_i hv
    by_cases h : q = k
    · subst q; simp [hv]
    · simp [h]

theorem Tbl.at?_map (t : Tbl κ β) (f : κ → β → β) (k : κ) :
    Tbl.at? (t.map fun x => (x.1, f x.1 x.2)) k = (Tbl.at? t k).map (f k) := by
  induction t with
  | nil => rfl
  | cons c t ih =>
    obtain ⟨k', v'⟩ := c
    simp only [List.map_cons, Tbl.at?]
    by_cases h : k' = k
    · subst k'; simp
    · simp [h, ih]

end

/-! ## Threads of crews -/

theorem Vector.getD_lt {α : Type} {n : Nat} (v : Vector α n) (i : Nat) (d : α) (h : i < n) : v.getD i d = v[i] := by
  simp [Vector.getD, h]
theorem Vector.getD_ge {α : Type} {n : Nat} (v : Vector α n) (i : Nat) (d : α) (h : ¬ i < n) : v.getD i d = d := by
  simp [Vector.getD, h]

theorem Crew.thread_mapIdx (c d : Crew) (f : Nat → Thread → Thread) (n : Nat) (h : d.threads = c.threads.mapIdx f) :
    d.thread n = if n < 64 then f n (c.thread n) else c.thread n := by
  unfold Crew.thread
  rw [h]
  by_cases h : n < 64
  · rw [Vector.getD_lt _ _ _ h, Vector.getD_lt _ _ _ h, if_pos h, Vector.getElem_mapIdx]
  · rw [Vector.getD_ge _ _ _ h, Vector.getD_ge _ _ _ h, if_neg h]

theorem Crew.thread_setThread (c : Crew) (l n : Nat) (f : Thread → Thread) :
    (c.setThread l f).thread n = if n = l ∧ n < 64 then f (c.thread n) else c.thread n := by
  rw [Crew.thread_mapIdx c (c.setThread l f) _ n rfl]
  by_cases h : n < 64 <;> by_cases h' : n = l <;> simp [h, h']

theorem lane_lt (m : BitVec 64) (l : Nat) (h : m.getLsbD l = true) : l < 64 := BitVec.lt_of_getLsbD h

/-- What an action on the lanes of a mask leaves in one lane. -/
theorem thread_mapCrew (i : Instr) (m : BitVec 64) (f : Nat → Thread → Thread) (c : Crew) (l : Nat) :
    (mapCrew i m f c).thread l = if m.getLsbD l && guardOf i (c.thread l) then f l (c.thread l) else c.thread l := by
  rw [Crew.thread_mapIdx c (mapCrew i m f c) _ l rfl]
  by_cases h : l < 64
  · rw [if_pos h]
  · have hm : m.getLsbD l = false := by
      cases hb : m.getLsbD l with
      | false => rfl
      | true => exact absurd (lane_lt m l hb) h
    simp [h, hm]

/-- An action on no lane leaves a crew as it is. -/
theorem mapCrew_zero (i : Instr) (f : Nat → Thread → Thread) (c : Crew) : mapCrew i 0 f c = c := by
  have h : c.threads.mapIdx (fun l t => if (0 : BitVec 64).getLsbD l && guardOf i t then f l t else t) = c.threads := by
    apply Vector.ext; intro n hn; simp
  unfold mapCrew
  rw [h]

/-! ## The group -/

theorem State.thread_of (s : State) (c : CRef) (w : Crew) (l : Nat) (h : s.crew? c = some w) :
    s.thread ⟨c.team, c.crew, l⟩ = w.thread l := by
  unfold State.thread State.thread? TRef.cref
  have : s.crew? ⟨c.team, c.crew⟩ = some w := h
  rw [this]; rfl

theorem maskFor_single (c : CRef) (m : BitVec 64) : maskFor [(c, m)] c = m := by simp [maskFor, Tbl.at?]
theorem maskFor_single_ne (c d : CRef) (m : BitVec 64) (h : d ≠ c) : maskFor [(c, m)] d = 0 := by
  simp [maskFor, Tbl.at?, Ne.symm h]

theorem refs_single (g : Group) (c : CRef) (m : BitVec 64) (h : g.lanes = [(c, m)]) (r : TRef) (hr : r ∈ g.refs) :
    ∃ l, m.getLsbD l = true ∧ r = ⟨c.team, c.crew, l⟩ := by
  unfold Group.refs at hr
  rw [List.mem_filterMap] at hr
  obtain ⟨l, -, hl⟩ := hr
  rw [h] at hl
  simp only [List.find?_cons, List.find?_nil] at hl
  cases hb : m.getLsbD l with
  | true => rw [hb] at hl; simp at hl; exact ⟨l, hb, hl.symm⟩
  | false => rw [hb] at hl; simp at hl

/-- A fold in which no element changes the state. -/
theorem foldl_same {α β : Type} (f : α → β → α) (l : List β) (a : α) (h : ∀ x ∈ l, f a x = a) : l.foldl f a = a := by
  induction l with
  | nil => rfl
  | cons x xs ih =>
    rw [List.foldl_cons, h x (List.mem_cons_self ..)]
    exact ih fun y hy => h y (List.mem_cons_of_mem _ hy)

variable {i : Instr} {s : State} {c : CRef} {w : Crew} {m : BitVec 64}

theorem Ready.refs (h : Ready i s c w m) (r : TRef) (hr : r ∈ s.cur.refs) :
    ∃ l, m.getLsbD l = true ∧ r = ⟨c.team, c.crew, l⟩ ∧ s.thread r = w.thread l := by
  obtain ⟨l, hl, rfl⟩ := refs_single s.cur c m h.lanes r hr
  exact ⟨l, hl, rfl, s.thread_of c w l h.crew⟩

theorem deliver_ready (h : Ready i s c w m) : deliver i s = s := by
  unfold deliver
  apply foldl_same
  intro r hr
  rw [List.mem_flatMap] at hr
  obtain ⟨_, -, hr⟩ := hr
  obtain ⟨l, hl, rfl, -⟩ := h.refs r (List.mem_filter.1 hr).1
  dsimp only
  split
  · rfl
  · rename_i tm htm
    rw [h.deferred tm htm]

theorem lateTraps_ready (h : Ready i s c w m) : lateTraps s = s := by
  unfold lateTraps
  apply foldl_same
  intro r hr
  obtain ⟨l, hl, -, ht⟩ := h.refs r hr
  rw [ht, h.late l hl]

theorem staticChecks_ready (h : Ready i s c w m) : staticChecks i (fun _ _ => none) s = s := by
  have hn : (s.cur.refs.flatMap fun r => (none : Option Cause).toList ++
      if brokenChain i (s.thread r) then [({ cls := 2, code := 6 } : Cause)] else []) = [] := by
    rw [List.flatMap_eq_nil_iff]
    intro r hr
    obtain ⟨l, hl, -, ht⟩ := h.refs r hr
    rw [ht, h.chain l hl]; rfl
  have hf : s.cur.refs.foldl (fun s r =>
      if s.unprivileged i r then { s with cur := s.cur.fault r { cls := 3, code := 1 } } else s) s = s := by
    apply foldl_same
    intro r hr
    obtain ⟨l, hl, -, ht⟩ := h.refs r hr
    have : s.unprivileged i r = false := by
      unfold State.unprivileged
      rw [ht]
      cases hp : i.privileged with
      | false => rfl
      | true => rw [h.mode hp l hl]; rfl
    rw [this]; rfl
  unfold staticChecks
  dsimp only
  rw [hn]
  change (match i with
    | .eret _ => _
    | _ => _) = s
  rw [hf]
  split
  · rename_i f
    have he : (s.cur.refs.any fun r => (s.thread r).estat.toNat / 2 != 0) = false := by
      rw [List.any_eq_false]
      intro r hr
      obtain ⟨l, hl, -, ht⟩ := h.refs r hr
      rw [ht, h.status f rfl l hl]; simp
    rw [he]; rfl
  · rfl

theorem crewGone_ready (h : Ready i s c w m) (hw : i.crewWide = true) : crewGone s = false := by
  unfold crewGone
  have hc : s.curCrew = c := by unfold State.curCrew; rw [h.lanes]
  rw [hc, h.crew]
  dsimp only
  rw [Bool.eq_false_iff]
  intro hb
  rw [List.any_eq_true] at hb
  obtain ⟨l, hl, hx⟩ := hb
  have hl' : l < 64 := List.mem_range.1 hl
  rw [h.whole hw l hl'] at hx
  cases hx

theorem State.mend_sound (s : State) (f : Flaw → Bool) (h : s.flaws = []) : s.mend f = s := by
  unfold State.mend; rw [h]; rfl

/-- An issue that nothing holds back is its body and the end of the issue. -/
theorem issue_ready (h : Ready i s c w m) (body : State → State) (hb : (body s).flaws = []) :
    issue i s body = .next (finish i s (body s)) := by
  unfold issue issueWith
  rw [deliver_ready h, lateTraps_ready h]
  have ht : s.cur.traps.isEmpty = true := by rw [h.traps]; rfl
  have hl : s.cur.lanes.isEmpty = false := by rw [h.lanes]; rfl
  have hg : (i.crewWide && crewGone s) = false := by
    cases hw : i.crewWide with
    | false => rfl
    | true => rw [crewGone_ready h hw]; rfl
  have hf : flawChecks i s = s := by unfold flawChecks; rw [h.sound]; rfl
  simp only [ht, Bool.not_true, Bool.and_false, Bool.false_eq_true, if_false, staticChecks_ready h, hl, hg, hf]
  unfold mendRegs
  rw [State.mend_sound _ _ hb]

theorem enterTraps_nil (s : State) : enterTraps s [] = s := by
  have h : ((upto 16).flatMap fun slot => (upto 64).flatMap fun l => ([] : List (TRef × Cause)).filterMap fun x =>
      if s.slotOf x.1.cref = slot && x.1.lane == l then some x.1 else none) = [] := rfl
  unfold enterTraps
  dsimp only [List.foldl_nil]
  rw [h]; rfl

/-- The end of an issue in which nothing trapped and nobody watches. -/
theorem finish_quiet (i : Instr) (s0 s : State) (ht : s.cur.traps = []) (h1 : s.traces = []) (h2 : s.trials = []) :
    finish i s0 s = { s with
      crews := s.crews.map fun x => (x.1, finishCrew i s.cycle s.cur.len s.cur.effect (s.isDet x.1.team) (maskFor s.cur.lanes x.1)
        (maskFor s.cur.done x.1) ((s0.crew? x.1).getD x.2) x.2)
      cur := Group.none } := by
  have hp : ∀ c, pageLanes [] c = 0 := fun _ => rfl
  have hs : ∀ (c : Crew) (d n : Bool), c.served d 0 n = c := fun _ _ _ => rfl
  unfold finish
  simp only [ht, hp, hs, watchIssue, h1, h2, List.isEmpty_nil, Bool.and_self, if_true, enterTraps_nil]

theorem finishCrew_zero (i : Instr) (cycle : Nat) (len : DWord) (e det : Bool) (c0 c : Crew) :
    finishCrew i cycle len e det 0 0 c0 c = c := by
  unfold finishCrew; simp

/-- The crew's own registers change in an issue (R61). -/
def crewEffect (i : Instr) (c0 c : Crew) : Bool := c0.k != c.k || (i.crewWide && c0.mask != c.mask)

/-- Counting the instructions without an effect leaves everything else of a crew. -/
theorem countQuiet_frame (det eff counts own : Bool) (ex : BitVec 64) (c0 c : Crew) :
    ∃ n ms, Crew.countQuiet det eff counts own ex c0 c = { c with quietCount := n, quietMarks := ms } := by
  unfold Crew.countQuiet
  cases own <;> exact ⟨_, _, rfl⟩

theorem threads_countQuiet (det eff counts own : Bool) (ex : BitVec 64) (c0 c : Crew) :
    (Crew.countQuiet det eff counts own ex c0 c).threads = c.threads := by
  obtain ⟨n, ms, h⟩ := countQuiet_frame det eff counts own ex c0 c
  rw [h]

theorem retired_countQuiet (det eff counts own : Bool) (ex : BitVec 64) (c0 c : Crew) :
    (Crew.countQuiet det eff counts own ex c0 c).retired = c.retired := by
  obtain ⟨n, ms, h⟩ := countQuiet_frame det eff counts own ex c0 c
  rw [h]

/-- What the end of an issue leaves in a lane that executed and goes on. -/
theorem thread_finishCrew (i : Instr) (cycle : Nat) (len : DWord) (e det : Bool) (adv : BitVec 64) (c0 c : Crew) (l : Nat)
    (h : adv.getLsbD l = true) :
    (finishCrew i cycle len e det adv 0 c0 c).thread l =
      finishThread i cycle det (crewEffect i c0 c) (some len) (c0.thread l) (c.thread l) (crossTaint i c0 adv l) := by
  have hn : ¬ (adv ||| 0 = 0) := by
    intro h0
    have : adv = 0 := by simpa using h0
    rw [this] at h; simp at h
  have ho : adv ||| (0 : BitVec 64) = adv := by simp
  unfold finishCrew
  rw [if_neg hn]
  refine (Crew.thread_mapIdx c _ _ l (threads_countQuiet ..)).trans ?_
  rw [if_pos (lane_lt adv l h), if_pos h, ho]
  rfl

/-- What the end of an issue leaves in a lane that took no part. -/
theorem thread_finishCrew_other (i : Instr) (cycle : Nat) (len : DWord) (e det : Bool) (adv : BitVec 64) (c0 c : Crew)
    (l : Nat) (h : adv.getLsbD l = false) : (finishCrew i cycle len e det adv 0 c0 c).thread l = c.thread l := by
  unfold finishCrew
  split
  · rfl
  · refine (Crew.thread_mapIdx c _ _ l (threads_countQuiet ..)).trans ?_
    rw [h]
    simp

/-- A crew that is not served again counts an instruction that some lane executed. -/
theorem retired_finishCrew (i : Instr) (cycle : Nat) (len : DWord) (e det : Bool) (adv done : BitVec 64) (c0 c : Crew)
    (h : adv ||| done ≠ 0) (hs : c0.service = none) :
    (finishCrew i cycle len e det adv done c0 c).retired = c.retired + 1 := by
  unfold finishCrew Crew.serve
  rw [if_neg h, hs]
  exact retired_countQuiet ..

/-- The end of an issue keeps the crew's `k` registers and masks as the instruction left them. -/
theorem finishCrew_keeps (i : Instr) (cycle : Nat) (len : DWord) (e det : Bool) (adv done : BitVec 64) (c0 c : Crew)
    (h : ¬ (adv ||| done = 0)) (hs : c0.service = none) :
    let z := finishCrew i cycle len e det adv done c0 c
    z.k = c.k ∧ z.mask = c.mask ∧ z.retired = c.retired + 1 := by
  have hk : ∀ (eff counts own : Bool) (d : Crew), (Crew.countQuiet det eff counts own (adv ||| done) c0 d).k = d.k ∧
      (Crew.countQuiet det eff counts own (adv ||| done) c0 d).mask = d.mask := by
    intro eff counts own d
    obtain ⟨n, ms, hx⟩ := countQuiet_frame det eff counts own (adv ||| done) c0 d
    rw [hx]
    exact ⟨rfl, rfl⟩
  refine ⟨?_, ?_, retired_finishCrew i cycle len e det adv done c0 c h hs⟩ <;>
    (unfold finishCrew; rw [if_neg h])
  · exact (hk ..).1
  · exact (hk ..).2

/-! ## One thread at the end of its issue -/

/-- What the end of an issue changes in a thread: the PC, the taint, the spin activity, the hints and the issue times. -/
theorem finishThread_eq (i : Instr) (cycle : Nat) (det ce : Bool) (n : DWord) (t0 t : Thread) (k : Bool) :
    ∃ tg tp sp xl xm ra rk, finishThread i cycle det ce (some n) t0 t k =
      { t with pc := t.pc + n, taintG := tg, taintP := tp, spin := sp, xlit := xl, xmod := xm, lastIssue := cycle,
               readyAt := ra, rankAt := rk, pass := false, window := none } := by
  let P : Thread → Prop := fun x => ∃ tg tp sp, x = { t with pc := t.pc + n, taintG := tg, taintP := tp, spin := sp }
  have hG : ∀ (a b : Thread) (x : Bool), P a → P b → P (if x then a else b) := by
    intro a b x ha hb; cases x <;> assumption
  have hS : ∀ (a : Thread), P a → P a.stirred := by
    rintro a ⟨tg, tp, sp, rfl⟩; exact ⟨_, _, _, rfl⟩
  have hT : ∀ (a : Thread), P a → P (t0.taintAfter a i k) := by
    rintro a ⟨tg, tp, sp, rfl⟩; exact ⟨_, _, _, rfl⟩
  have h4 : ∀ (a : Thread), P a → ∃ tg tp sp xl xm ra rk, a.endIssue i cycle =
      { t with pc := t.pc + n, taintG := tg, taintP := tp, spin := sp, xlit := xl, xmod := xm, lastIssue := cycle,
               readyAt := ra, rankAt := rk, pass := false, window := none } := by
    rintro a ⟨tg, tp, sp, rfl⟩
    unfold Thread.endIssue
    split <;> exact ⟨_, _, _, _, _, _, _, rfl⟩
  have h1 : P { t with pc := t.pc + n } := ⟨_, _, _, rfl⟩
  have h2 := hG _ _ (guardOf i t0) (hT _ h1) h1
  have h3 := hG _ _ ((ce && guardOf i t0) || effectOf i t0 t) (hS _ h2) h2
  obtain ⟨tg, tp, sp, xl, xm, ra, rk, h⟩ := h4 _ h3
  unfold finishThread
  dsimp only at h ⊢
  rw [h]
  split
  · split <;> exact ⟨_, _, _, _, _, _, _, rfl⟩
  · exact ⟨_, _, _, _, _, _, _, rfl⟩

/-- The end of a hint's issue keeps the payloads that it set. -/
theorem finishThread_hint (i : Instr) (cycle : Nat) (det ce : Bool) (n : DWord) (t0 t : Thread) (k : Bool)
    (h : i.isHint = true) (hy : ∀ f, i ≠ .yield f) :
    ∃ tg tp sp ra rk, finishThread i cycle det ce (some n) t0 t k =
      { t with pc := t.pc + n, taintG := tg, taintP := tp, spin := sp, lastIssue := cycle, readyAt := ra, rankAt := rk,
               pass := false, window := none } := by
  let P : Thread → Prop := fun x => ∃ tg tp sp, x = { t with pc := t.pc + n, taintG := tg, taintP := tp, spin := sp }
  have hG : ∀ (a b : Thread) (x : Bool), P a → P b → P (if x then a else b) := by
    intro a b x ha hb; cases x <;> assumption
  have hS : ∀ (a : Thread), P a → P a.stirred := by
    rintro a ⟨tg, tp, sp, rfl⟩; exact ⟨_, _, _, rfl⟩
  have hT : ∀ (a : Thread), P a → P (t0.taintAfter a i k) := by
    rintro a ⟨tg, tp, sp, rfl⟩; exact ⟨_, _, _, rfl⟩
  have h4 : ∀ (a : Thread), P a → ∃ tg tp sp ra rk, a.endIssue i cycle =
      { t with pc := t.pc + n, taintG := tg, taintP := tp, spin := sp, lastIssue := cycle, readyAt := ra, rankAt := rk,
               pass := false, window := none } := by
    rintro a ⟨tg, tp, sp, rfl⟩
    unfold Thread.endIssue
    rw [if_pos h]
    exact ⟨_, _, _, _, _, rfl⟩
  have h1 : P { t with pc := t.pc + n } := ⟨_, _, _, rfl⟩
  have h2 := hG _ _ (guardOf i t0) (hT _ h1) h1
  have h3 := hG _ _ ((ce && guardOf i t0) || effectOf i t0 t) (hS _ h2) h2
  obtain ⟨tg, tp, sp, ra, rk, h⟩ := h4 _ h3
  unfold finishThread
  dsimp only at h ⊢
  rw [h]
  split
  · exact absurd rfl (hy _)
  · exact ⟨_, _, _, _, _, rfl⟩

/-! ## Instructions that act on each lane by itself -/

theorem isDet_crews (s : State) (X : Tbl CRef Crew) (t : Nat) : ({ s with crews := X } : State).isDet t = s.isDet t := rfl

/-- The whole effect of an issue that acts on the threads of a crew, each by itself: the crew's lanes are finished, every
other crew and every other part of the machine is as before. -/
theorem issue_map (h : Ready i s c w m) (f : Crew → Nat → Thread → Thread) :
    ∃ t, issue i s (fun s => s.mapLanes i f) = .next t ∧ t = { s with crews := t.crews, cur := Group.none } ∧
      (∀ d, d ≠ c → t.crew? d = s.crew? d) ∧
      t.crew? c = some (finishCrew i s.cycle s.cur.len s.cur.effect (s.isDet c.team) m 0 w (mapCrew i m (f w) w)) := by
  rw [issue_ready h _ h.sound]
  refine ⟨_, rfl, ?_⟩
  rw [finish_quiet i s (s.mapLanes i f) h.traps h.untraced h.untried]
  refine ⟨rfl, fun d hd => ?_, ?_⟩
  · have hm : maskFor s.cur.lanes d = 0 := by rw [h.lanes]; exact maskFor_single_ne c d m hd
    have hz : maskFor s.cur.done d = 0 := by rw [h.done]; rfl
    unfold State.crew? State.mapLanes
    simp only [isDet_crews]
    rw [Tbl.at?_map _ (fun k y => finishCrew i s.cycle s.cur.len s.cur.effect (s.isDet k.team) (maskFor s.cur.lanes k)
      (maskFor s.cur.done k) ((Tbl.at? s.crews k).getD y) y) d,
      Tbl.at?_map _ (fun k y => mapCrew i (maskFor s.cur.lanes k) (f y) y) d, hm, hz]
    cases Tbl.at? s.crews d with
    | none => rfl
    | some y => exact congrArg some (by simp only [Option.getD_some, mapCrew_zero]; exact finishCrew_zero ..)
  · have hm : maskFor s.cur.lanes c = m := by rw [h.lanes]; exact maskFor_single c m
    have hz : maskFor s.cur.done c = 0 := by rw [h.done]; rfl
    have hc : Tbl.at? s.crews c = some w := h.crew
    unfold State.crew? State.mapLanes
    simp only [isDet_crews]
    rw [Tbl.at?_map _ (fun k y => finishCrew i s.cycle s.cur.len s.cur.effect (s.isDet k.team) (maskFor s.cur.lanes k)
      (maskFor s.cur.done k) ((Tbl.at? s.crews k).getD y) y) c,
      Tbl.at?_map _ (fun k y => mapCrew i (maskFor s.cur.lanes k) (f y) y) c, hm, hz, hc]
    rfl

/-- One lane after such an issue: what the instruction gives it where its guard is true, and the PC past the instruction. -/
theorem issue_map_thread (h : Ready i s c w m) (f : Crew → Nat → Thread → Thread) :
    ∃ t, issue i s (fun s => s.mapLanes i f) = .next t ∧ t = { s with crews := t.crews, cur := Group.none } ∧
      (∀ d, d ≠ c → t.crew? d = s.crew? d) ∧ ∃ w', t.crew? c = some w' ∧
      (∀ l, m.getLsbD l = false → w'.thread l = w.thread l) ∧
      ∀ l, m.getLsbD l = true →
        let u := if guardOf i (w.thread l) then f w l (w.thread l) else w.thread l
        ∃ tg tp sp xl xm ra rk, w'.thread l =
          { u with pc := u.pc + s.cur.len, taintG := tg, taintP := tp, spin := sp, xlit := xl, xmod := xm,
                   lastIssue := s.cycle, readyAt := ra, rankAt := rk, pass := false, window := none } := by
  obtain ⟨t, ht, hs, hd, hc⟩ := issue_map h f
  refine ⟨t, ht, hs, hd, _, hc, fun l hl => ?_, fun l hl => ?_⟩
  · rw [thread_finishCrew_other _ _ _ _ _ _ _ _ _ hl, thread_mapCrew, hl]; rfl
  · rw [thread_finishCrew _ _ _ _ _ _ _ _ _ hl, thread_mapCrew, hl, Bool.true_and]
    exact finishThread_eq _ _ _ _ _ _ _ _

end Sys2Proof.Machine
end

