-- ==== Sys2Proof/Laws/Lanes.lean ====
section
/-!
SUPPORT. Instructions that act on each lane by itself: what has to be shown of one thread so that the whole issue is as
`LaneByLane` says.
-/
namespace Sys2Proof.Machine

variable {i : Instr} {s : State} {c : CRef} {w : Crew} {m : BitVec 64}

theorem Ready.nonzero (h : Ready i s c w m) : ¬ (m ||| 0 = 0) := by
  intro h0
  exact h.group (by simpa using h0)

/-- An instruction whose body acts on each lane by `f`, when `f` keeps what it must and gives what `q` says of a thread with
the same registers, predicates and results outstanding. -/
theorem laneByLane_map (f : Crew → Nat → Thread → Thread) (q : Crew → Nat → Thread → Thread → Prop)
    (he : ∀ s, exec i s = issue i s fun s => s.mapLanes i f)
    (hk : ∀ w l t, Kept t (f w l t) ∧ (f w l t).pc = t.pc)
    (hq : ∀ w l t b, b.g = (f w l t).g → b.p = (f w l t).p → b.out = (f w l t).out → q w l t b) :
    LaneByLane i q := by
  intro s c w m h _
  obtain ⟨t, ht, hs, hd, hc⟩ := issue_map h f
  have hf := finishCrew_keeps i s.cycle s.cur.len s.cur.effect (s.isDet c.team) m 0 w (mapCrew i m (f w) w) h.nonzero h.unserved
  refine ⟨t, _, (he s).trans ht, hc, hs, hd, hf.1, hf.2.1, hf.2.2, fun l hl => ?_, fun l hl => ?_⟩
  · rw [thread_finishCrew_other _ _ _ _ _ _ _ _ _ hl, thread_mapCrew, hl]; rfl
  · rw [thread_finishCrew _ _ _ _ _ _ _ _ _ hl, thread_mapCrew, hl, Bool.true_and]
    obtain ⟨tg, tp, sp, xl, xm, ra, rk, hfin⟩ := finishThread_eq i s.cycle _ _ s.cur.len (w.thread l)
      (if guardOf i (w.thread l) then f w l (w.thread l) else w.thread l) (crossTaint i w m l)
    rw [hfin]
    cases hg : guardOf i (w.thread l) with
    | true => exact ⟨(hk w l _).1, congrArg (· + s.cur.len) (hk w l (w.thread l)).2, hq w l _ _ rfl rfl rfl⟩
    | false => exact ⟨⟨rfl, rfl, rfl, rfl, rfl, rfl, rfl, rfl, rfl⟩, rfl, rfl, rfl⟩

theorem reg_of_g (a b : Thread) (h : a.g = b.g) (r : Reg6) : a.reg r = b.reg r := by unfold Thread.reg; rw [h]
theorem pred_of_p (a b : Thread) (h : a.p = b.p) (x : Pred3) : a.pred x = b.pred x := by unfold Thread.pred; rw [h]

theorem kept_setReg (t : Thread) (d : Reg6) (v : Word) : Kept t (t.setReg d v) ∧ (t.setReg d v).pc = t.pc :=
  ⟨⟨rfl, rfl, rfl, rfl, rfl, rfl, rfl, rfl, rfl⟩, rfl⟩
theorem kept_setPair (t : Thread) (d : Reg6) (v : DWord) : Kept t (t.setPair d v) ∧ (t.setPair d v).pc = t.pc :=
  ⟨⟨rfl, rfl, rfl, rfl, rfl, rfl, rfl, rfl, rfl⟩, rfl⟩
theorem kept_compare (t : Thread) (p q : Pred3) (v : Bool) : Kept t (t.compare p q v) ∧ (t.compare p q v).pc = t.pc := by
  unfold Thread.compare Kept; simp

/-- An instruction that writes one register of each lane. -/
theorem writesReg_of (d : Reg6) (v : Thread → Word)
    (he : ∀ s, exec i s = issue i s fun s => s.mapLanes i fun _ _ t => t.setReg d (v t)) : WritesReg i d v := by
  refine laneByLane_map (fun _ _ t => t.setReg d (v t)) _ he (fun _ _ t => kept_setReg t d (v t)) ?_
  intro _ _ t b hg hp _
  exact ⟨fun r => (reg_of_g _ _ hg r).trans (Thread.reg_setReg t d r (v t)), hp⟩

theorem writesPair_of (d : Reg6) (v : Thread → DWord)
    (he : ∀ s, exec i s = issue i s fun s => s.mapLanes i fun _ _ t => t.setPair d (v t)) : WritesPair i d v := by
  refine laneByLane_map (fun _ _ t => t.setPair d (v t)) _ he (fun _ _ t => kept_setPair t d (v t)) ?_
  intro _ _ t b hg hp _
  refine ⟨fun r => (reg_of_g _ _ hg r).trans ?_, hp⟩
  unfold Thread.setPair
  rw [Thread.reg_setReg, Thread.reg_setReg]

theorem writesPreds_of (p q : Pred3) (v : Thread → Bool)
    (he : ∀ s, exec i s = issue i s fun s => s.mapLanes i fun _ _ t => t.compare p q (v t)) : WritesPreds i p q v := by
  refine laneByLane_map (fun _ _ t => t.compare p q (v t)) _ he (fun _ _ t => kept_compare t p q (v t)) ?_
  intro _ _ t b hg hp _
  refine ⟨fun x => (pred_of_p _ _ hp x).trans ?_, hg.trans (by unfold Thread.compare; simp)⟩
  rw [Thread.pred_compare]
  by_cases hx : x = 0
  · subst hx
    have h1 : ¬ (0 = q ∧ q ≠ 0) := fun h => h.2 h.1.symm
    have h2 : ¬ (0 = p ∧ p ≠ 0) := fun h => h.2 h.1.symm
    rw [if_neg h1, if_neg h2]; rfl
  · rw [if_neg hx]
    by_cases h1 : x = q
    · rw [if_pos ⟨h1, h1 ▸ hx⟩, if_pos h1]
    · rw [if_neg (fun h => h1 h.1), if_neg h1]
      by_cases h2 : x = p
      · rw [if_pos ⟨h2, h2 ▸ hx⟩, if_pos h2]
      · rw [if_neg (fun h => h2 h.1), if_neg h2]

/-- The same with the value written another way. -/
theorem WritesReg.congr {d : Reg6} {v v' : Thread → Word} (h : WritesReg i d v) (e : ∀ t, v t = v' t) : WritesReg i d v' := by
  have : v = v' := funext e
  exact this ▸ h
theorem WritesPair.congr {d : Reg6} {v v' : Thread → DWord} (h : WritesPair i d v) (e : ∀ t, v t = v' t) :
    WritesPair i d v' := by
  have : v = v' := funext e
  exact this ▸ h
theorem WritesPreds.congr {p q : Pred3} {v v' : Thread → Bool} (h : WritesPreds i p q v) (e : ∀ t, v t = v' t) :
    WritesPreds i p q v' := by
  have : v = v' := funext e
  exact this ▸ h

end Sys2Proof.Machine
end

