-- ==== Sys2Proof/Laws/Each.lean ====
section
/-!
SUPPORT. Instructions whose body visits the lanes one after the other: when each lane changes only its own thread, the whole
issue is as `LaneByLaneIf` says; a group of one thread visits that thread alone.
-/
namespace Sys2Proof.Machine

variable {i : Instr} {s : State} {c : CRef} {w : Crew} {m : BitVec 64}

/-! ## The lanes of a group -/

/-- The lanes of a mask, in ascending order. -/
def lanesOf (m : BitVec 64) : List Nat := (upto 64).filter fun l => m.getLsbD l

theorem refs_eq (g : Group) (h : g.lanes = [(c, m)]) : g.refs = (lanesOf m).map fun l => ⟨c.team, c.crew, l⟩ := by
  have hf : ∀ l, ([(c, m)] : List (CRef × BitVec 64)).find? (fun x => x.2.getLsbD l) =
      if m.getLsbD l then some (c, m) else none := by
    intro l; cases hb : m.getLsbD l <;> simp [hb]
  unfold Group.refs lanesOf
  rw [h]
  simp only [hf]
  induction upto 64 with
  | nil => rfl
  | cons l ls ih =>
    rw [List.filterMap_cons, List.filter_cons, ih]
    cases m.getLsbD l <;> rfl

theorem mem_lanesOf (l : Nat) : l ∈ lanesOf m ↔ m.getLsbD l = true := by
  unfold lanesOf upto
  rw [List.mem_filter, List.mem_range]
  exact ⟨fun h => h.2, fun h => ⟨lane_lt m l h, h⟩⟩
theorem nodup_lanesOf (m : BitVec 64) : (lanesOf m).Nodup := List.Pairwise.filter _ List.nodup_range

/-- A mask of one lane. -/
theorem lanesOf_one (l : Nat) (h : l < 64) : lanesOf (laneBit l) = [l] := by
  revert l; decide

/-! ## A crew whose lanes act one after the other -/

def actOn (i : Instr) (g : Nat → Thread → Thread) (ls : List Nat) (w : Crew) : Crew :=
  ls.foldl (fun w l => if guardOf i (w.thread l) then w.setThread l (g l) else w) w

theorem actOn_keeps (g : Nat → Thread → Thread) (ls : List Nat) (w : Crew) :
    (actOn i g ls w).k = w.k ∧ (actOn i g ls w).mask = w.mask ∧ (actOn i g ls w).retired = w.retired := by
  induction ls generalizing w with
  | nil => exact ⟨rfl, rfl, rfl⟩
  | cons l ls ih =>
    have h := ih (if guardOf i (w.thread l) then w.setThread l (g l) else w)
    have hk : actOn i g (l :: ls) w = actOn i g ls (if guardOf i (w.thread l) then w.setThread l (g l) else w) := rfl
    rw [hk, h.1, h.2.1, h.2.2]
    cases guardOf i (w.thread l) <;> exact ⟨rfl, rfl, rfl⟩

theorem thread_actOn_other (g : Nat → Thread → Thread) (ls : List Nat) (w : Crew) (n : Nat) (h : n ∉ ls) :
    (actOn i g ls w).thread n = w.thread n := by
  induction ls generalizing w with
  | nil => rfl
  | cons l ls ih =>
    have hn : n ≠ l := fun e => h (e ▸ List.mem_cons_self ..)
    refine (ih _ (fun hm => h (List.mem_cons_of_mem _ hm))).trans ?_
    dsimp only
    cases guardOf i (w.thread l)
    · rfl
    · exact (Crew.thread_setThread w l n (g l)).trans (if_neg fun e => hn e.1)

theorem thread_actOn (g : Nat → Thread → Thread) (ls : List Nat) (w : Crew) (n : Nat) (hn : ls.Nodup) (h : n ∈ ls)
    (h64 : n < 64) : (actOn i g ls w).thread n = if guardOf i (w.thread n) then g n (w.thread n) else w.thread n := by
  induction ls generalizing w with
  | nil => cases h
  | cons l ls ih =>
    have hk : actOn i g (l :: ls) w = actOn i g ls (if guardOf i (w.thread l) then w.setThread l (g l) else w) := rfl
    rw [List.nodup_cons] at hn
    rw [hk]
    by_cases e : n = l
    · subst e
      rw [thread_actOn_other g ls _ n hn.1]
      cases hg : guardOf i (w.thread n)
      · rfl
      · exact (Crew.thread_setThread w n n (g n)).trans (if_pos ⟨rfl, h64⟩)
    · have hm : n ∈ ls := by
        rcases List.mem_cons.1 h with h | h
        · exact absurd h e
        · exact h
      rw [ih _ hn.2 hm]
      have ht : (if guardOf i (w.thread l) then w.setThread l (g l) else w).thread n = w.thread n := by
        cases guardOf i (w.thread l)
        · rfl
        · exact (Crew.thread_setThread w l n (g l)).trans (if_neg fun x => e x.1)
      rw [ht]

/-! ## The fold over the lanes -/

/-- One step of `State.eachLane`. -/
def laneStep (i : Instr) (f : TRef → State → LaneRes) (s : State) (r : TRef) : State :=
  if guardOf i (s.thread r) then
    match f r s with
    | .ok s' => s'
    | .jump s' => { s' with cur := s'.cur.finished r }
    | .stall s' => { s' with cur := s'.cur.drop r }
    | .trap s' k => { s' with cur := s'.cur.fault r k }
  else s

theorem eachLane_eq (f : TRef → State → LaneRes) : s.eachLane i f = s.cur.refs.foldl (laneStep i f) s := rfl

theorem eachLane_fold (f : TRef → State → LaneRes) (g : Nat → Thread → Thread) (ls : List Nat) (X : Tbl CRef Crew) (k : Crew)
    (hX : Tbl.at? X c = some k) (hn : ls.Nodup) (hk : ∀ l ∈ ls, k.thread l = w.thread l) (hr : k.retired = w.retired)
    (hf : ∀ l ∈ ls, ∀ X k, Tbl.at? X c = some k → k.thread l = w.thread l → k.retired = w.retired →
      guardOf i (w.thread l) = true →
      f ⟨c.team, c.crew, l⟩ { s with crews := X } =
        .ok (({ s with crews := X } : State).setThread ⟨c.team, c.crew, l⟩ (g l))) :
    ∃ Y, (ls.map fun l => (⟨c.team, c.crew, l⟩ : TRef)).foldl (laneStep i f) { s with crews := X } = { s with crews := Y } ∧
      Tbl.at? Y c = some (actOn i g ls k) ∧ ∀ d, d ≠ c → Tbl.at? Y d = Tbl.at? X d := by
  induction ls generalizing X k with
  | nil => exact ⟨X, rfl, hX, fun _ _ => rfl⟩
  | cons l ls ih =>
    have ht : ({ s with crews := X } : State).thread ⟨c.team, c.crew, l⟩ = k.thread l := State.thread_of _ c k l hX
    rw [List.nodup_cons] at hn
    have hkl : k.thread l = w.thread l := hk l (List.mem_cons_self ..)
    have hact : ∀ b, guardOf i (k.thread l) = b → actOn i g (l :: ls) k = actOn i g ls (if b then k.setThread l (g l) else k) :=
      fun b hb => by rw [← hb]; rfl
    rw [List.map_cons, List.foldl_cons]
    unfold laneStep
    rw [ht]
    cases hb : guardOf i (k.thread l) with
    | false =>
      rw [hact false hb]
      exact ih X k hX hn.2 (fun x hx => hk x (List.mem_cons_of_mem _ hx)) hr (fun x hx => hf x (List.mem_cons_of_mem _ hx))
    | true =>
      rw [if_pos rfl, hf l (List.mem_cons_self ..) X k hX hkl hr (hkl ▸ hb), hact true hb]
      have hX' : Tbl.at? (Tbl.upd X c fun k => k.setThread l (g l)) c = some (k.setThread l (g l)) := by
        rw [Tbl.at?_upd, if_pos rfl, hX]; rfl
      obtain ⟨Y, h1, h2, h3⟩ := ih _ _ hX' hn.2
        (fun x hx => by
          have hne : ¬ (x = l ∧ x < 64) := fun e => hn.1 (e.1 ▸ hx)
          rw [Crew.thread_setThread, if_neg hne]
          exact hk x (List.mem_cons_of_mem _ hx))
        hr
        (fun x hx => hf x (List.mem_cons_of_mem _ hx))
      refine ⟨Y, h1, h2, fun d hd => ?_⟩
      rw [h3 d hd, Tbl.at?_upd, if_neg hd]

/-- An instruction whose lanes each change only their own thread, by `g`, while `pre` holds. -/
theorem laneByLane_each (pre : State → CRef → Crew → BitVec 64 → Prop) (f : TRef → State → LaneRes)
    (g : State → CRef → Crew → Nat → Thread → Thread) (q : State → CRef → Crew → Nat → Thread → Thread → Prop)
    (he : ∀ s, exec i s = issue i s fun s => s.eachLane i f)
    (hf : ∀ s c w m, pre s c w m → s.crew? c = some w → ∀ l, m.getLsbD l = true → ∀ X k, Tbl.at? X c = some k →
      k.thread l = w.thread l → k.retired = w.retired → guardOf i (w.thread l) = true →
      f ⟨c.team, c.crew, l⟩ { s with crews := X } =
        .ok (({ s with crews := X } : State).setThread ⟨c.team, c.crew, l⟩ (g s c w l)))
    (hk : ∀ s c w l t, Kept t (g s c w l t) ∧ (g s c w l t).pc = t.pc)
    (hq : ∀ s c w m l b, pre s c w m → m.getLsbD l = true → b.g = (g s c w l (w.thread l)).g →
      b.p = (g s c w l (w.thread l)).p → q s c w l (w.thread l) b) :
    LaneByLaneIf i pre q := by
  intro s c w m h hp
  have hcr : Tbl.at? s.crews c = some w := h.crew
  obtain ⟨Y, h1, h2, h3⟩ := eachLane_fold f (g s c w) (lanesOf m) s.crews w hcr (nodup_lanesOf m) (fun _ _ => rfl) rfl
    (fun l hl X k hX ht hr hg => hf s c w m hp h.crew l ((mem_lanesOf l).1 hl) X k hX ht hr hg)
  have hbody : s.eachLane i f = { s with crews := Y } := by
    rw [eachLane_eq, refs_eq s.cur h.lanes]; exact h1
  have hm : maskFor s.cur.lanes c = m := by rw [h.lanes]; exact maskFor_single c m
  have hz : ∀ d, maskFor s.cur.done d = 0 := fun d => by rw [h.done]; rfl
  have hcrew : ∀ d, Tbl.at? (Y.map fun x => (x.1, finishCrew i s.cycle s.cur.len s.cur.effect (s.isDet x.1.team) (maskFor s.cur.lanes x.1)
      (maskFor s.cur.done x.1) ((Tbl.at? s.crews x.1).getD x.2) x.2)) d = (Tbl.at? Y d).map fun y =>
        finishCrew i s.cycle s.cur.len s.cur.effect (s.isDet d.team) (maskFor s.cur.lanes d) 0 ((Tbl.at? s.crews d).getD y) y := by
    intro d
    rw [Tbl.at?_map _ (fun k y => finishCrew i s.cycle s.cur.len s.cur.effect (s.isDet k.team) (maskFor s.cur.lanes k)
      (maskFor s.cur.done k) ((Tbl.at? s.crews k).getD y) y) d, hz d]
  have hfq := finish_quiet i s { s with crews := Y } h.traps h.untraced h.untried
  have hkeep := actOn_keeps (i := i) (g s c w) (lanesOf m) w
  have hfin := finishCrew_keeps i s.cycle s.cur.len s.cur.effect (s.isDet c.team) m 0 w (actOn i (g s c w) (lanesOf m) w) h.nonzero
    h.unserved
  refine ⟨_, finishCrew i s.cycle s.cur.len s.cur.effect (s.isDet c.team) m 0 w (actOn i (g s c w) (lanesOf m) w),
    (he s).trans (issue_ready h _ (by rw [hbody]; exact h.sound)), ?_, ?_, ?_, hfin.1.trans hkeep.1, hfin.2.1.trans hkeep.2.1,
    hfin.2.2.trans (by rw [hkeep.2.2]), fun l hl => ?_, fun l hl => ?_⟩
  · rw [hbody, hfq]
    refine (hcrew c).trans ?_
    rw [h2, hm, hcr]; rfl
  · rw [hbody, hfq]
  · intro d hd
    rw [hbody, hfq]
    refine (hcrew d).trans ?_
    rw [h3 d hd, h.lanes, maskFor_single_ne c d m hd]
    show _ = Tbl.at? s.crews d
    cases Tbl.at? s.crews d with
    | none => rfl
    | some y => exact congrArg some (finishCrew_zero ..)
  · rw [thread_finishCrew_other _ _ _ _ _ _ _ _ _ hl]
    exact thread_actOn_other _ _ _ _ fun hm' => by rw [(mem_lanesOf l).1 hm'] at hl; cases hl
  · rw [thread_finishCrew _ _ _ _ _ _ _ _ _ hl,
      thread_actOn _ _ _ _ (nodup_lanesOf m) ((mem_lanesOf l).2 hl) (lane_lt m l hl)]
    obtain ⟨tg, tp, sp, xl, xm, ra, rk, hft⟩ := finishThread_eq i s.cycle _ _ s.cur.len (w.thread l)
      (if guardOf i (w.thread l) then g s c w l (w.thread l) else w.thread l) (crossTaint i w m l)
    rw [hft]
    cases hg : guardOf i (w.thread l) with
    | true =>
      exact ⟨(hk s c w l _).1, congrArg (· + s.cur.len) (hk s c w l (w.thread l)).2,
        hq s c w m l _ hp hl rfl rfl⟩
    | false => exact ⟨⟨rfl, rfl, rfl, rfl, rfl, rfl, rfl, rfl, rfl⟩, rfl, rfl, rfl⟩

end Sys2Proof.Machine
end

