-- ==== Sys2Proof/Laws/Encode.lean ====
section
/-!
SUPPORT. The fields that a packed word reads back, format by format, for the round trip of encoder and decoder.
-/
namespace Sys2Proof.Laws

theorem bitsAt_toNat (w : Word) (lo n : Nat) : (bitsAt w lo n).toNat = w.toNat / 2 ^ lo % 2 ^ n := by simp [bitsAt]

theorem packG3_toNat (sw : Bool) (mj : BitVec 6) (d : BitVec 6) (a : BitVec 6) (b : BitVec 6) (g : BitVec 3) (mn : BitVec 4) :
    (packG3 sw mj d a b g mn).toNat = sw.toNat * 2147483648 + mj.toNat * 33554432 + d.toNat * 524288 + a.toNat * 8192 + b.toNat * 128 + g.toNat * 16 + mn.toNat := by
  have := sw.toNat_lt; have := mj.isLt; have := d.isLt; have := a.isLt; have := b.isLt; have := g.isLt; have := mn.isLt
  simp only [packG3, BitVec.toNat_ofNat]; omega
@[simp] theorem packG3_sw (sw : Bool) (mj : BitVec 6) (d : BitVec 6) (a : BitVec 6) (b : BitVec 6) (g : BitVec 3) (mn : BitVec 4) :
    bitAt (packG3 sw mj d a b g mn) 31 = sw := by
  have := sw.toNat_lt; have := mj.isLt; have := d.isLt; have := a.isLt; have := b.isLt; have := g.isLt; have := mn.isLt
  unfold bitAt; rw [packG3_toNat]
  cases sw <;> simp only [Nat.reducePow, Bool.toNat_true, Bool.toNat_false, beq_iff_eq, beq_eq_false_iff_ne] <;> omega
@[simp] theorem packG3_mj (sw : Bool) (mj : BitVec 6) (d : BitVec 6) (a : BitVec 6) (b : BitVec 6) (g : BitVec 3) (mn : BitVec 4) :
    bitsAt (packG3 sw mj d a b g mn) 25 6 = mj := by
  have := sw.toNat_lt; have := mj.isLt; have := d.isLt; have := a.isLt; have := b.isLt; have := g.isLt; have := mn.isLt
  apply BitVec.eq_of_toNat_eq; rw [bitsAt_toNat, packG3_toNat]; omega
@[simp] theorem packG3_d (sw : Bool) (mj : BitVec 6) (d : BitVec 6) (a : BitVec 6) (b : BitVec 6) (g : BitVec 3) (mn : BitVec 4) :
    bitsAt (packG3 sw mj d a b g mn) 19 6 = d := by
  have := sw.toNat_lt; have := mj.isLt; have := d.isLt; have := a.isLt; have := b.isLt; have := g.isLt; have := mn.isLt
  apply BitVec.eq_of_toNat_eq; rw [bitsAt_toNat, packG3_toNat]; omega
@[simp] theorem packG3_a (sw : Bool) (mj : BitVec 6) (d : BitVec 6) (a : BitVec 6) (b : BitVec 6) (g : BitVec 3) (mn : BitVec 4) :
    bitsAt (packG3 sw mj d a b g mn) 13 6 = a := by
  have := sw.toNat_lt; have := mj.isLt; have := d.isLt; have := a.isLt; have := b.isLt; have := g.isLt; have := mn.isLt
  apply BitVec.eq_of_toNat_eq; rw [bitsAt_toNat, packG3_toNat]; omega
@[simp] theorem packG3_b (sw : Bool) (mj : BitVec 6) (d : BitVec 6) (a : BitVec 6) (b : BitVec 6) (g : BitVec 3) (mn : BitVec 4) :
    bitsAt (packG3 sw mj d a b g mn) 7 6 = b := by
  have := sw.toNat_lt; have := mj.isLt; have := d.isLt; have := a.isLt; have := b.isLt; have := g.isLt; have := mn.isLt
  apply BitVec.eq_of_toNat_eq; rw [bitsAt_toNat, packG3_toNat]; omega
@[simp] theorem packG3_g (sw : Bool) (mj : BitVec 6) (d : BitVec 6) (a : BitVec 6) (b : BitVec 6) (g : BitVec 3) (mn : BitVec 4) :
    bitsAt (packG3 sw mj d a b g mn) 4 3 = g := by
  have := sw.toNat_lt; have := mj.isLt; have := d.isLt; have := a.isLt; have := b.isLt; have := g.isLt; have := mn.isLt
  apply BitVec.eq_of_toNat_eq; rw [bitsAt_toNat, packG3_toNat]; omega
@[simp] theorem packG3_mn (sw : Bool) (mj : BitVec 6) (d : BitVec 6) (a : BitVec 6) (b : BitVec 6) (g : BitVec 3) (mn : BitVec 4) :
    bitsAt (packG3 sw mj d a b g mn) 0 4 = mn := by
  have := sw.toNat_lt; have := mj.isLt; have := d.isLt; have := a.isLt; have := b.isLt; have := g.isLt; have := mn.isLt
  apply BitVec.eq_of_toNat_eq; rw [bitsAt_toNat, packG3_toNat]; omega
@[simp] theorem packG3_nz_g (sw : Bool) (mj : BitVec 6) (d : BitVec 6) (a : BitVec 6) (b : BitVec 6) (g : BitVec 3) (mn : BitVec 4) :
    nonzeroField (packG3 sw mj d a b g mn) (4, 3) = (g.toNat != 0) := by
  have := sw.toNat_lt; have := mj.isLt; have := d.isLt; have := a.isLt; have := b.isLt; have := g.isLt; have := mn.isLt
  unfold nonzeroField; rw [packG3_toNat]; congr 1; simp only [Nat.reducePow]; omega
@[simp] theorem packG3_nz_b (sw : Bool) (mj : BitVec 6) (d : BitVec 6) (a : BitVec 6) (b : BitVec 6) (g : BitVec 3) (mn : BitVec 4) :
    nonzeroField (packG3 sw mj d a b g mn) (7, 6) = (b.toNat != 0) := by
  have := sw.toNat_lt; have := mj.isLt; have := d.isLt; have := a.isLt; have := b.isLt; have := g.isLt; have := mn.isLt
  unfold nonzeroField; rw [packG3_toNat]; congr 1; simp only [Nat.reducePow]; omega
@[simp] theorem packG3_nz_a (sw : Bool) (mj : BitVec 6) (d : BitVec 6) (a : BitVec 6) (b : BitVec 6) (g : BitVec 3) (mn : BitVec 4) :
    nonzeroField (packG3 sw mj d a b g mn) (13, 6) = (a.toNat != 0) := by
  have := sw.toNat_lt; have := mj.isLt; have := d.isLt; have := a.isLt; have := b.isLt; have := g.isLt; have := mn.isLt
  unfold nonzeroField; rw [packG3_toNat]; congr 1; simp only [Nat.reducePow]; omega
@[simp] theorem packG3_nz_d (sw : Bool) (mj : BitVec 6) (d : BitVec 6) (a : BitVec 6) (b : BitVec 6) (g : BitVec 3) (mn : BitVec 4) :
    nonzeroField (packG3 sw mj d a b g mn) (19, 6) = (d.toNat != 0) := by
  have := sw.toNat_lt; have := mj.isLt; have := d.isLt; have := a.isLt; have := b.isLt; have := g.isLt; have := mn.isLt
  unfold nonzeroField; rw [packG3_toNat]; congr 1; simp only [Nat.reducePow]; omega

theorem packPQ_toNat (sw : Bool) (mj : BitVec 6) (p : BitVec 3) (q : BitVec 3) (a : BitVec 6) (b : BitVec 6) (g : BitVec 3) (mn : BitVec 4) :
    (packPQ sw mj p q a b g mn).toNat = sw.toNat * 2147483648 + mj.toNat * 33554432 + p.toNat * 4194304 + q.toNat * 524288 + a.toNat * 8192 + b.toNat * 128 + g.toNat * 16 + mn.toNat := by
  have := sw.toNat_lt; have := mj.isLt; have := p.isLt; have := q.isLt; have := a.isLt; have := b.isLt; have := g.isLt; have := mn.isLt
  simp only [packPQ, BitVec.toNat_ofNat]; omega
@[simp] theorem packPQ_sw (sw : Bool) (mj : BitVec 6) (p : BitVec 3) (q : BitVec 3) (a : BitVec 6) (b : BitVec 6) (g : BitVec 3) (mn : BitVec 4) :
    bitAt (packPQ sw mj p q a b g mn) 31 = sw := by
  have := sw.toNat_lt; have := mj.isLt; have := p.isLt; have := q.isLt; have := a.isLt; have := b.isLt; have := g.isLt; have := mn.isLt
  unfold bitAt; rw [packPQ_toNat]
  cases sw <;> simp only [Nat.reducePow, Bool.toNat_true, Bool.toNat_false, beq_iff_eq, beq_eq_false_iff_ne] <;> omega
@[simp] theorem packPQ_mj (sw : Bool) (mj : BitVec 6) (p : BitVec 3) (q : BitVec 3) (a : BitVec 6) (b : BitVec 6) (g : BitVec 3) (mn : BitVec 4) :
    bitsAt (packPQ sw mj p q a b g mn) 25 6 = mj := by
  have := sw.toNat_lt; have := mj.isLt; have := p.isLt; have := q.isLt; have := a.isLt; have := b.isLt; have := g.isLt; have := mn.isLt
  apply BitVec.eq_of_toNat_eq; rw [bitsAt_toNat, packPQ_toNat]; omega
@[simp] theorem packPQ_p (sw : Bool) (mj : BitVec 6) (p : BitVec 3) (q : BitVec 3) (a : BitVec 6) (b : BitVec 6) (g : BitVec 3) (mn : BitVec 4) :
    bitsAt (packPQ sw mj p q a b g mn) 22 3 = p := by
  have := sw.toNat_lt; have := mj.isLt; have := p.isLt; have := q.isLt; have := a.isLt; have := b.isLt; have := g.isLt; have := mn.isLt
  apply BitVec.eq_of_toNat_eq; rw [bitsAt_toNat, packPQ_toNat]; omega
@[simp] theorem packPQ_q (sw : Bool) (mj : BitVec 6) (p : BitVec 3) (q : BitVec 3) (a : BitVec 6) (b : BitVec 6) (g : BitVec 3) (mn : BitVec 4) :
    bitsAt (packPQ sw mj p q a b g mn) 19 3 = q := by
  have := sw.toNat_lt; have := mj.isLt; have := p.isLt; have := q.isLt; have := a.isLt; have := b.isLt; have := g.isLt; have := mn.isLt
  apply BitVec.eq_of_toNat_eq; rw [bitsAt_toNat, packPQ_toNat]; omega
@[simp] theorem packPQ_a (sw : Bool) (mj : BitVec 6) (p : BitVec 3) (q : BitVec 3) (a : BitVec 6) (b : BitVec 6) (g : BitVec 3) (mn : BitVec 4) :
    bitsAt (packPQ sw mj p q a b g mn) 13 6 = a := by
  have := sw.toNat_lt; have := mj.isLt; have := p.isLt; have := q.isLt; have := a.isLt; have := b.isLt; have := g.isLt; have := mn.isLt
  apply BitVec.eq_of_toNat_eq; rw [bitsAt_toNat, packPQ_toNat]; omega
@[simp] theorem packPQ_b (sw : Bool) (mj : BitVec 6) (p : BitVec 3) (q : BitVec 3) (a : BitVec 6) (b : BitVec 6) (g : BitVec 3) (mn : BitVec 4) :
    bitsAt (packPQ sw mj p q a b g mn) 7 6 = b := by
  have := sw.toNat_lt; have := mj.isLt; have := p.isLt; have := q.isLt; have := a.isLt; have := b.isLt; have := g.isLt; have := mn.isLt
  apply BitVec.eq_of_toNat_eq; rw [bitsAt_toNat, packPQ_toNat]; omega
@[simp] theorem packPQ_g (sw : Bool) (mj : BitVec 6) (p : BitVec 3) (q : BitVec 3) (a : BitVec 6) (b : BitVec 6) (g : BitVec 3) (mn : BitVec 4) :
    bitsAt (packPQ sw mj p q a b g mn) 4 3 = g := by
  have := sw.toNat_lt; have := mj.isLt; have := p.isLt; have := q.isLt; have := a.isLt; have := b.isLt; have := g.isLt; have := mn.isLt
  apply BitVec.eq_of_toNat_eq; rw [bitsAt_toNat, packPQ_toNat]; omega
@[simp] theorem packPQ_mn (sw : Bool) (mj : BitVec 6) (p : BitVec 3) (q : BitVec 3) (a : BitVec 6) (b : BitVec 6) (g : BitVec 3) (mn : BitVec 4) :
    bitsAt (packPQ sw mj p q a b g mn) 0 4 = mn := by
  have := sw.toNat_lt; have := mj.isLt; have := p.isLt; have := q.isLt; have := a.isLt; have := b.isLt; have := g.isLt; have := mn.isLt
  apply BitVec.eq_of_toNat_eq; rw [bitsAt_toNat, packPQ_toNat]; omega

theorem packPI_toNat (sw : Bool) (mj : BitVec 6) (p : BitVec 3) (q : BitVec 3) (a : BitVec 6) (i : BitVec 10) (g : BitVec 3) :
    (packPI sw mj p q a i g).toNat = sw.toNat * 2147483648 + mj.toNat * 33554432 + p.toNat * 4194304 + q.toNat * 524288 + a.toNat * 8192 + i.toNat * 8 + g.toNat := by
  have := sw.toNat_lt; have := mj.isLt; have := p.isLt; have := q.isLt; have := a.isLt; have := i.isLt; have := g.isLt
  simp only [packPI, BitVec.toNat_ofNat]; omega
@[simp] theorem packPI_sw (sw : Bool) (mj : BitVec 6) (p : BitVec 3) (q : BitVec 3) (a : BitVec 6) (i : BitVec 10) (g : BitVec 3) :
    bitAt (packPI sw mj p q a i g) 31 = sw := by
  have := sw.toNat_lt; have := mj.isLt; have := p.isLt; have := q.isLt; have := a.isLt; have := i.isLt; have := g.isLt
  unfold bitAt; rw [packPI_toNat]
  cases sw <;> simp only [Nat.reducePow, Bool.toNat_true, Bool.toNat_false, beq_iff_eq, beq_eq_false_iff_ne] <;> omega
@[simp] theorem packPI_mj (sw : Bool) (mj : BitVec 6) (p : BitVec 3) (q : BitVec 3) (a : BitVec 6) (i : BitVec 10) (g : BitVec 3) :
    bitsAt (packPI sw mj p q a i g) 25 6 = mj := by
  have := sw.toNat_lt; have := mj.isLt; have := p.isLt; have := q.isLt; have := a.isLt; have := i.isLt; have := g.isLt
  apply BitVec.eq_of_toNat_eq; rw [bitsAt_toNat, packPI_toNat]; omega
@[simp] theorem packPI_p (sw : Bool) (mj : BitVec 6) (p : BitVec 3) (q : BitVec 3) (a : BitVec 6) (i : BitVec 10) (g : BitVec 3) :
    bitsAt (packPI sw mj p q a i g) 22 3 = p := by
  have := sw.toNat_lt; have := mj.isLt; have := p.isLt; have := q.isLt; have := a.isLt; have := i.isLt; have := g.isLt
  apply BitVec.eq_of_toNat_eq; rw [bitsAt_toNat, packPI_toNat]; omega
@[simp] theorem packPI_q (sw : Bool) (mj : BitVec 6) (p : BitVec 3) (q : BitVec 3) (a : BitVec 6) (i : BitVec 10) (g : BitVec 3) :
    bitsAt (packPI sw mj p q a i g) 19 3 = q := by
  have := sw.toNat_lt; have := mj.isLt; have := p.isLt; have := q.isLt; have := a.isLt; have := i.isLt; have := g.isLt
  apply BitVec.eq_of_toNat_eq; rw [bitsAt_toNat, packPI_toNat]; omega
@[simp] theorem packPI_a (sw : Bool) (mj : BitVec 6) (p : BitVec 3) (q : BitVec 3) (a : BitVec 6) (i : BitVec 10) (g : BitVec 3) :
    bitsAt (packPI sw mj p q a i g) 13 6 = a := by
  have := sw.toNat_lt; have := mj.isLt; have := p.isLt; have := q.isLt; have := a.isLt; have := i.isLt; have := g.isLt
  apply BitVec.eq_of_toNat_eq; rw [bitsAt_toNat, packPI_toNat]; omega
@[simp] theorem packPI_i (sw : Bool) (mj : BitVec 6) (p : BitVec 3) (q : BitVec 3) (a : BitVec 6) (i : BitVec 10) (g : BitVec 3) :
    bitsAt (packPI sw mj p q a i g) 3 10 = i := by
  have := sw.toNat_lt; have := mj.isLt; have := p.isLt; have := q.isLt; have := a.isLt; have := i.isLt; have := g.isLt
  apply BitVec.eq_of_toNat_eq; rw [bitsAt_toNat, packPI_toNat]; omega
@[simp] theorem packPI_g (sw : Bool) (mj : BitVec 6) (p : BitVec 3) (q : BitVec 3) (a : BitVec 6) (i : BitVec 10) (g : BitVec 3) :
    bitsAt (packPI sw mj p q a i g) 0 3 = g := by
  have := sw.toNat_lt; have := mj.isLt; have := p.isLt; have := q.isLt; have := a.isLt; have := i.isLt; have := g.isLt
  apply BitVec.eq_of_toNat_eq; rw [bitsAt_toNat, packPI_toNat]; omega

theorem packCv_toNat (sw : Bool) (mj : BitVec 6) (d : BitVec 6) (a : BitVec 6) (t : BitVec 4) (g : BitVec 3) (y : BitVec 4) :
    (packCv sw mj d a t g y).toNat = sw.toNat * 2147483648 + mj.toNat * 33554432 + d.toNat * 524288 + a.toNat * 8192 + t.toNat * 512 + g.toNat * 16 + y.toNat := by
  have := sw.toNat_lt; have := mj.isLt; have := d.isLt; have := a.isLt; have := t.isLt; have := g.isLt; have := y.isLt
  simp only [packCv, BitVec.toNat_ofNat]; omega
@[simp] theorem packCv_sw (sw : Bool) (mj : BitVec 6) (d : BitVec 6) (a : BitVec 6) (t : BitVec 4) (g : BitVec 3) (y : BitVec 4) :
    bitAt (packCv sw mj d a t g y) 31 = sw := by
  have := sw.toNat_lt; have := mj.isLt; have := d.isLt; have := a.isLt; have := t.isLt; have := g.isLt; have := y.isLt
  unfold bitAt; rw [packCv_toNat]
  cases sw <;> simp only [Nat.reducePow, Bool.toNat_true, Bool.toNat_false, beq_iff_eq, beq_eq_false_iff_ne] <;> omega
@[simp] theorem packCv_mj (sw : Bool) (mj : BitVec 6) (d : BitVec 6) (a : BitVec 6) (t : BitVec 4) (g : BitVec 3) (y : BitVec 4) :
    bitsAt (packCv sw mj d a t g y) 25 6 = mj := by
  have := sw.toNat_lt; have := mj.isLt; have := d.isLt; have := a.isLt; have := t.isLt; have := g.isLt; have := y.isLt
  apply BitVec.eq_of_toNat_eq; rw [bitsAt_toNat, packCv_toNat]; omega
@[simp] theorem packCv_d (sw : Bool) (mj : BitVec 6) (d : BitVec 6) (a : BitVec 6) (t : BitVec 4) (g : BitVec 3) (y : BitVec 4) :
    bitsAt (packCv sw mj d a t g y) 19 6 = d := by
  have := sw.toNat_lt; have := mj.isLt; have := d.isLt; have := a.isLt; have := t.isLt; have := g.isLt; have := y.isLt
  apply BitVec.eq_of_toNat_eq; rw [bitsAt_toNat, packCv_toNat]; omega
@[simp] theorem packCv_a (sw : Bool) (mj : BitVec 6) (d : BitVec 6) (a : BitVec 6) (t : BitVec 4) (g : BitVec 3) (y : BitVec 4) :
    bitsAt (packCv sw mj d a t g y) 13 6 = a := by
  have := sw.toNat_lt; have := mj.isLt; have := d.isLt; have := a.isLt; have := t.isLt; have := g.isLt; have := y.isLt
  apply BitVec.eq_of_toNat_eq; rw [bitsAt_toNat, packCv_toNat]; omega
@[simp] theorem packCv_t (sw : Bool) (mj : BitVec 6) (d : BitVec 6) (a : BitVec 6) (t : BitVec 4) (g : BitVec 3) (y : BitVec 4) :
    bitsAt (packCv sw mj d a t g y) 9 4 = t := by
  have := sw.toNat_lt; have := mj.isLt; have := d.isLt; have := a.isLt; have := t.isLt; have := g.isLt; have := y.isLt
  apply BitVec.eq_of_toNat_eq; rw [bitsAt_toNat, packCv_toNat]; omega
@[simp] theorem packCv_g (sw : Bool) (mj : BitVec 6) (d : BitVec 6) (a : BitVec 6) (t : BitVec 4) (g : BitVec 3) (y : BitVec 4) :
    bitsAt (packCv sw mj d a t g y) 4 3 = g := by
  have := sw.toNat_lt; have := mj.isLt; have := d.isLt; have := a.isLt; have := t.isLt; have := g.isLt; have := y.isLt
  apply BitVec.eq_of_toNat_eq; rw [bitsAt_toNat, packCv_toNat]; omega
@[simp] theorem packCv_y (sw : Bool) (mj : BitVec 6) (d : BitVec 6) (a : BitVec 6) (t : BitVec 4) (g : BitVec 3) (y : BitVec 4) :
    bitsAt (packCv sw mj d a t g y) 0 4 = y := by
  have := sw.toNat_lt; have := mj.isLt; have := d.isLt; have := a.isLt; have := t.isLt; have := g.isLt; have := y.isLt
  apply BitVec.eq_of_toNat_eq; rw [bitsAt_toNat, packCv_toNat]; omega
@[simp] theorem packCv_nz7 (sw : Bool) (mj : BitVec 6) (d : BitVec 6) (a : BitVec 6) (t : BitVec 4) (g : BitVec 3) (y : BitVec 4) :
    nonzeroField (packCv sw mj d a t g y) (7, 2) = false := by
  have := sw.toNat_lt; have := mj.isLt; have := d.isLt; have := a.isLt; have := t.isLt; have := g.isLt; have := y.isLt
  unfold nonzeroField; rw [packCv_toNat]; simp only [bne_eq_false_iff_eq, Nat.reducePow]; omega

theorem packCr_toNat (sw : Bool) (mj : BitVec 6) (r : BitVec 6) (x : BitVec 12) (g : BitVec 3) (mn : BitVec 4) :
    (packCr sw mj r x g mn).toNat = sw.toNat * 2147483648 + mj.toNat * 33554432 + r.toNat * 524288 + x.toNat * 128 + g.toNat * 16 + mn.toNat := by
  have := sw.toNat_lt; have := mj.isLt; have := r.isLt; have := x.isLt; have := g.isLt; have := mn.isLt
  simp only [packCr, BitVec.toNat_ofNat]; omega
@[simp] theorem packCr_sw (sw : Bool) (mj : BitVec 6) (r : BitVec 6) (x : BitVec 12) (g : BitVec 3) (mn : BitVec 4) :
    bitAt (packCr sw mj r x g mn) 31 = sw := by
  have := sw.toNat_lt; have := mj.isLt; have := r.isLt; have := x.isLt; have := g.isLt; have := mn.isLt
  unfold bitAt; rw [packCr_toNat]
  cases sw <;> simp only [Nat.reducePow, Bool.toNat_true, Bool.toNat_false, beq_iff_eq, beq_eq_false_iff_ne] <;> omega
@[simp] theorem packCr_mj (sw : Bool) (mj : BitVec 6) (r : BitVec 6) (x : BitVec 12) (g : BitVec 3) (mn : BitVec 4) :
    bitsAt (packCr sw mj r x g mn) 25 6 = mj := by
  have := sw.toNat_lt; have := mj.isLt; have := r.isLt; have := x.isLt; have := g.isLt; have := mn.isLt
  apply BitVec.eq_of_toNat_eq; rw [bitsAt_toNat, packCr_toNat]; omega
@[simp] theorem packCr_r (sw : Bool) (mj : BitVec 6) (r : BitVec 6) (x : BitVec 12) (g : BitVec 3) (mn : BitVec 4) :
    bitsAt (packCr sw mj r x g mn) 19 6 = r := by
  have := sw.toNat_lt; have := mj.isLt; have := r.isLt; have := x.isLt; have := g.isLt; have := mn.isLt
  apply BitVec.eq_of_toNat_eq; rw [bitsAt_toNat, packCr_toNat]; omega
@[simp] theorem packCr_x (sw : Bool) (mj : BitVec 6) (r : BitVec 6) (x : BitVec 12) (g : BitVec 3) (mn : BitVec 4) :
    bitsAt (packCr sw mj r x g mn) 7 12 = x := by
  have := sw.toNat_lt; have := mj.isLt; have := r.isLt; have := x.isLt; have := g.isLt; have := mn.isLt
  apply BitVec.eq_of_toNat_eq; rw [bitsAt_toNat, packCr_toNat]; omega
@[simp] theorem packCr_g (sw : Bool) (mj : BitVec 6) (r : BitVec 6) (x : BitVec 12) (g : BitVec 3) (mn : BitVec 4) :
    bitsAt (packCr sw mj r x g mn) 4 3 = g := by
  have := sw.toNat_lt; have := mj.isLt; have := r.isLt; have := x.isLt; have := g.isLt; have := mn.isLt
  apply BitVec.eq_of_toNat_eq; rw [bitsAt_toNat, packCr_toNat]; omega
@[simp] theorem packCr_mn (sw : Bool) (mj : BitVec 6) (r : BitVec 6) (x : BitVec 12) (g : BitVec 3) (mn : BitVec 4) :
    bitsAt (packCr sw mj r x g mn) 0 4 = mn := by
  have := sw.toNat_lt; have := mj.isLt; have := r.isLt; have := x.isLt; have := g.isLt; have := mn.isLt
  apply BitVec.eq_of_toNat_eq; rw [bitsAt_toNat, packCr_toNat]; omega
@[simp] theorem packCr_nz_d (sw : Bool) (mj : BitVec 6) (r : BitVec 6) (x : BitVec 12) (g : BitVec 3) (mn : BitVec 4) :
    nonzeroField (packCr sw mj r x g mn) (19, 6) = (r.toNat != 0) := by
  have := sw.toNat_lt; have := mj.isLt; have := r.isLt; have := x.isLt; have := g.isLt; have := mn.isLt
  unfold nonzeroField; rw [packCr_toNat]; congr 1; simp only [Nat.reducePow]; omega

theorem packGI_toNat (sw : Bool) (mj : BitVec 6) (d : BitVec 6) (a : BitVec 6) (i : BitVec 10) (g : BitVec 3) :
    (packGI sw mj d a i g).toNat = sw.toNat * 2147483648 + mj.toNat * 33554432 + d.toNat * 524288 + a.toNat * 8192 + i.toNat * 8 + g.toNat := by
  have := sw.toNat_lt; have := mj.isLt; have := d.isLt; have := a.isLt; have := i.isLt; have := g.isLt
  simp only [packGI, BitVec.toNat_ofNat]; omega
@[simp] theorem packGI_sw (sw : Bool) (mj : BitVec 6) (d : BitVec 6) (a : BitVec 6) (i : BitVec 10) (g : BitVec 3) :
    bitAt (packGI sw mj d a i g) 31 = sw := by
  have := sw.toNat_lt; have := mj.isLt; have := d.isLt; have := a.isLt; have := i.isLt; have := g.isLt
  unfold bitAt; rw [packGI_toNat]
  cases sw <;> simp only [Nat.reducePow, Bool.toNat_true, Bool.toNat_false, beq_iff_eq, beq_eq_false_iff_ne] <;> omega
@[simp] theorem packGI_mj (sw : Bool) (mj : BitVec 6) (d : BitVec 6) (a : BitVec 6) (i : BitVec 10) (g : BitVec 3) :
    bitsAt (packGI sw mj d a i g) 25 6 = mj := by
  have := sw.toNat_lt; have := mj.isLt; have := d.isLt; have := a.isLt; have := i.isLt; have := g.isLt
  apply BitVec.eq_of_toNat_eq; rw [bitsAt_toNat, packGI_toNat]; omega
@[simp] theorem packGI_d (sw : Bool) (mj : BitVec 6) (d : BitVec 6) (a : BitVec 6) (i : BitVec 10) (g : BitVec 3) :
    bitsAt (packGI sw mj d a i g) 19 6 = d := by
  have := sw.toNat_lt; have := mj.isLt; have := d.isLt; have := a.isLt; have := i.isLt; have := g.isLt
  apply BitVec.eq_of_toNat_eq; rw [bitsAt_toNat, packGI_toNat]; omega
@[simp] theorem packGI_a (sw : Bool) (mj : BitVec 6) (d : BitVec 6) (a : BitVec 6) (i : BitVec 10) (g : BitVec 3) :
    bitsAt (packGI sw mj d a i g) 13 6 = a := by
  have := sw.toNat_lt; have := mj.isLt; have := d.isLt; have := a.isLt; have := i.isLt; have := g.isLt
  apply BitVec.eq_of_toNat_eq; rw [bitsAt_toNat, packGI_toNat]; omega
@[simp] theorem packGI_i (sw : Bool) (mj : BitVec 6) (d : BitVec 6) (a : BitVec 6) (i : BitVec 10) (g : BitVec 3) :
    bitsAt (packGI sw mj d a i g) 3 10 = i := by
  have := sw.toNat_lt; have := mj.isLt; have := d.isLt; have := a.isLt; have := i.isLt; have := g.isLt
  apply BitVec.eq_of_toNat_eq; rw [bitsAt_toNat, packGI_toNat]; omega
@[simp] theorem packGI_g (sw : Bool) (mj : BitVec 6) (d : BitVec 6) (a : BitVec 6) (i : BitVec 10) (g : BitVec 3) :
    bitsAt (packGI sw mj d a i g) 0 3 = g := by
  have := sw.toNat_lt; have := mj.isLt; have := d.isLt; have := a.isLt; have := i.isLt; have := g.isLt
  apply BitVec.eq_of_toNat_eq; rw [bitsAt_toNat, packGI_toNat]; omega

theorem packGC_toNat (sw : Bool) (mj : BitVec 6) (d : BitVec 6) (a : BitVec 6) (k : BitVec 3) (w : BitVec 7) (g : BitVec 3) :
    (packGC sw mj d a k w g).toNat = sw.toNat * 2147483648 + mj.toNat * 33554432 + d.toNat * 524288 + a.toNat * 8192 + k.toNat * 1024 + w.toNat * 8 + g.toNat := by
  have := sw.toNat_lt; have := mj.isLt; have := d.isLt; have := a.isLt; have := k.isLt; have := w.isLt; have := g.isLt
  simp only [packGC, BitVec.toNat_ofNat]; omega
@[simp] theorem packGC_sw (sw : Bool) (mj : BitVec 6) (d : BitVec 6) (a : BitVec 6) (k : BitVec 3) (w : BitVec 7) (g : BitVec 3) :
    bitAt (packGC sw mj d a k w g) 31 = sw := by
  have := sw.toNat_lt; have := mj.isLt; have := d.isLt; have := a.isLt; have := k.isLt; have := w.isLt; have := g.isLt
  unfold bitAt; rw [packGC_toNat]
  cases sw <;> simp only [Nat.reducePow, Bool.toNat_true, Bool.toNat_false, beq_iff_eq, beq_eq_false_iff_ne] <;> omega
@[simp] theorem packGC_mj (sw : Bool) (mj : BitVec 6) (d : BitVec 6) (a : BitVec 6) (k : BitVec 3) (w : BitVec 7) (g : BitVec 3) :
    bitsAt (packGC sw mj d a k w g) 25 6 = mj := by
  have := sw.toNat_lt; have := mj.isLt; have := d.isLt; have := a.isLt; have := k.isLt; have := w.isLt; have := g.isLt
  apply BitVec.eq_of_toNat_eq; rw [bitsAt_toNat, packGC_toNat]; omega
@[simp] theorem packGC_d (sw : Bool) (mj : BitVec 6) (d : BitVec 6) (a : BitVec 6) (k : BitVec 3) (w : BitVec 7) (g : BitVec 3) :
    bitsAt (packGC sw mj d a k w g) 19 6 = d := by
  have := sw.toNat_lt; have := mj.isLt; have := d.isLt; have := a.isLt; have := k.isLt; have := w.isLt; have := g.isLt
  apply BitVec.eq_of_toNat_eq; rw [bitsAt_toNat, packGC_toNat]; omega
@[simp] theorem packGC_a (sw : Bool) (mj : BitVec 6) (d : BitVec 6) (a : BitVec 6) (k : BitVec 3) (w : BitVec 7) (g : BitVec 3) :
    bitsAt (packGC sw mj d a k w g) 13 6 = a := by
  have := sw.toNat_lt; have := mj.isLt; have := d.isLt; have := a.isLt; have := k.isLt; have := w.isLt; have := g.isLt
  apply BitVec.eq_of_toNat_eq; rw [bitsAt_toNat, packGC_toNat]; omega
@[simp] theorem packGC_k (sw : Bool) (mj : BitVec 6) (d : BitVec 6) (a : BitVec 6) (k : BitVec 3) (w : BitVec 7) (g : BitVec 3) :
    bitsAt (packGC sw mj d a k w g) 10 3 = k := by
  have := sw.toNat_lt; have := mj.isLt; have := d.isLt; have := a.isLt; have := k.isLt; have := w.isLt; have := g.isLt
  apply BitVec.eq_of_toNat_eq; rw [bitsAt_toNat, packGC_toNat]; omega
@[simp] theorem packGC_w (sw : Bool) (mj : BitVec 6) (d : BitVec 6) (a : BitVec 6) (k : BitVec 3) (w : BitVec 7) (g : BitVec 3) :
    bitsAt (packGC sw mj d a k w g) 3 7 = w := by
  have := sw.toNat_lt; have := mj.isLt; have := d.isLt; have := a.isLt; have := k.isLt; have := w.isLt; have := g.isLt
  apply BitVec.eq_of_toNat_eq; rw [bitsAt_toNat, packGC_toNat]; omega
@[simp] theorem packGC_g (sw : Bool) (mj : BitVec 6) (d : BitVec 6) (a : BitVec 6) (k : BitVec 3) (w : BitVec 7) (g : BitVec 3) :
    bitsAt (packGC sw mj d a k w g) 0 3 = g := by
  have := sw.toNat_lt; have := mj.isLt; have := d.isLt; have := a.isLt; have := k.isLt; have := w.isLt; have := g.isLt
  apply BitVec.eq_of_toNat_eq; rw [bitsAt_toNat, packGC_toNat]; omega
@[simp] theorem packGC_nz_a (sw : Bool) (mj : BitVec 6) (d : BitVec 6) (a : BitVec 6) (k : BitVec 3) (w : BitVec 7) (g : BitVec 3) :
    nonzeroField (packGC sw mj d a k w g) (13, 6) = (a.toNat != 0) := by
  have := sw.toNat_lt; have := mj.isLt; have := d.isLt; have := a.isLt; have := k.isLt; have := w.isLt; have := g.isLt
  unfold nonzeroField; rw [packGC_toNat]; congr 1; simp only [Nat.reducePow]; omega

theorem packG4_toNat (sw : Bool) (mj : BitVec 6) (d : BitVec 6) (a : BitVec 6) (b : BitVec 6) (c : BitVec 6) (n : Bool) :
    (packG4 sw mj d a b c n).toNat = sw.toNat * 2147483648 + mj.toNat * 33554432 + d.toNat * 524288 + a.toNat * 8192 + b.toNat * 128 + c.toNat * 2 + n.toNat := by
  have := sw.toNat_lt; have := mj.isLt; have := d.isLt; have := a.isLt; have := b.isLt; have := c.isLt; have := n.toNat_lt
  simp only [packG4, BitVec.toNat_ofNat]; omega
@[simp] theorem packG4_sw (sw : Bool) (mj : BitVec 6) (d : BitVec 6) (a : BitVec 6) (b : BitVec 6) (c : BitVec 6) (n : Bool) :
    bitAt (packG4 sw mj d a b c n) 31 = sw := by
  have := sw.toNat_lt; have := mj.isLt; have := d.isLt; have := a.isLt; have := b.isLt; have := c.isLt; have := n.toNat_lt
  unfold bitAt; rw [packG4_toNat]
  cases sw <;> simp only [Nat.reducePow, Bool.toNat_true, Bool.toNat_false, beq_iff_eq, beq_eq_false_iff_ne] <;> omega
@[simp] theorem packG4_mj (sw : Bool) (mj : BitVec 6) (d : BitVec 6) (a : BitVec 6) (b : BitVec 6) (c : BitVec 6) (n : Bool) :
    bitsAt (packG4 sw mj d a b c n) 25 6 = mj := by
  have := sw.toNat_lt; have := mj.isLt; have := d.isLt; have := a.isLt; have := b.isLt; have := c.isLt; have := n.toNat_lt
  apply BitVec.eq_of_toNat_eq; rw [bitsAt_toNat, packG4_toNat]; omega
@[simp] theorem packG4_d (sw : Bool) (mj : BitVec 6) (d : BitVec 6) (a : BitVec 6) (b : BitVec 6) (c : BitVec 6) (n : Bool) :
    bitsAt (packG4 sw mj d a b c n) 19 6 = d := by
  have := sw.toNat_lt; have := mj.isLt; have := d.isLt; have := a.isLt; have := b.isLt; have := c.isLt; have := n.toNat_lt
  apply BitVec.eq_of_toNat_eq; rw [bitsAt_toNat, packG4_toNat]; omega
@[simp] theorem packG4_a (sw : Bool) (mj : BitVec 6) (d : BitVec 6) (a : BitVec 6) (b : BitVec 6) (c : BitVec 6) (n : Bool) :
    bitsAt (packG4 sw mj d a b c n) 13 6 = a := by
  have := sw.toNat_lt; have := mj.isLt; have := d.isLt; have := a.isLt; have := b.isLt; have := c.isLt; have := n.toNat_lt
  apply BitVec.eq_of_toNat_eq; rw [bitsAt_toNat, packG4_toNat]; omega
@[simp] theorem packG4_b (sw : Bool) (mj : BitVec 6) (d : BitVec 6) (a : BitVec 6) (b : BitVec 6) (c : BitVec 6) (n : Bool) :
    bitsAt (packG4 sw mj d a b c n) 7 6 = b := by
  have := sw.toNat_lt; have := mj.isLt; have := d.isLt; have := a.isLt; have := b.isLt; have := c.isLt; have := n.toNat_lt
  apply BitVec.eq_of_toNat_eq; rw [bitsAt_toNat, packG4_toNat]; omega
@[simp] theorem packG4_c (sw : Bool) (mj : BitVec 6) (d : BitVec 6) (a : BitVec 6) (b : BitVec 6) (c : BitVec 6) (n : Bool) :
    bitsAt (packG4 sw mj d a b c n) 1 6 = c := by
  have := sw.toNat_lt; have := mj.isLt; have := d.isLt; have := a.isLt; have := b.isLt; have := c.isLt; have := n.toNat_lt
  apply BitVec.eq_of_toNat_eq; rw [bitsAt_toNat, packG4_toNat]; omega
@[simp] theorem packG4_n (sw : Bool) (mj : BitVec 6) (d : BitVec 6) (a : BitVec 6) (b : BitVec 6) (c : BitVec 6) (n : Bool) :
    bitAt (packG4 sw mj d a b c n) 0 = n := by
  have := sw.toNat_lt; have := mj.isLt; have := d.isLt; have := a.isLt; have := b.isLt; have := c.isLt; have := n.toNat_lt
  unfold bitAt; rw [packG4_toNat]
  cases n <;> simp only [Nat.reducePow, Bool.toNat_true, Bool.toNat_false, beq_iff_eq, beq_eq_false_iff_ne] <;> omega

theorem packB_toNat (sw : Bool) (mj : BitVec 6) (g : BitVec 3) (o : BitVec 22) :
    (packB sw mj g o).toNat = sw.toNat * 2147483648 + mj.toNat * 33554432 + g.toNat * 4194304 + o.toNat := by
  have := sw.toNat_lt; have := mj.isLt; have := g.isLt; have := o.isLt
  simp only [packB, BitVec.toNat_ofNat]; omega
@[simp] theorem packB_sw (sw : Bool) (mj : BitVec 6) (g : BitVec 3) (o : BitVec 22) :
    bitAt (packB sw mj g o) 31 = sw := by
  have := sw.toNat_lt; have := mj.isLt; have := g.isLt; have := o.isLt
  unfold bitAt; rw [packB_toNat]
  cases sw <;> simp only [Nat.reducePow, Bool.toNat_true, Bool.toNat_false, beq_iff_eq, beq_eq_false_iff_ne] <;> omega
@[simp] theorem packB_mj (sw : Bool) (mj : BitVec 6) (g : BitVec 3) (o : BitVec 22) :
    bitsAt (packB sw mj g o) 25 6 = mj := by
  have := sw.toNat_lt; have := mj.isLt; have := g.isLt; have := o.isLt
  apply BitVec.eq_of_toNat_eq; rw [bitsAt_toNat, packB_toNat]; omega
@[simp] theorem packB_g (sw : Bool) (mj : BitVec 6) (g : BitVec 3) (o : BitVec 22) :
    bitsAt (packB sw mj g o) 22 3 = g := by
  have := sw.toNat_lt; have := mj.isLt; have := g.isLt; have := o.isLt
  apply BitVec.eq_of_toNat_eq; rw [bitsAt_toNat, packB_toNat]; omega
@[simp] theorem packB_o (sw : Bool) (mj : BitVec 6) (g : BitVec 3) (o : BitVec 22) :
    bitsAt (packB sw mj g o) 0 22 = o := by
  have := sw.toNat_lt; have := mj.isLt; have := g.isLt; have := o.isLt
  apply BitVec.eq_of_toNat_eq; rw [bitsAt_toNat, packB_toNat]; omega

theorem packM_toNat (sw : Bool) (mj : BitVec 6) (d : BitVec 6) (a : BitVec 6) (g : BitVec 3) (z : BitVec 3) (r : Bool) (i : BitVec 5) :
    (packM sw mj d a g z r i).toNat = sw.toNat * 2147483648 + mj.toNat * 33554432 + d.toNat * 524288 + a.toNat * 8192 + g.toNat * 1024 + z.toNat * 128 + r.toNat * 64 + i.toNat := by
  have := sw.toNat_lt; have := mj.isLt; have := d.isLt; have := a.isLt; have := g.isLt; have := z.isLt; have := r.toNat_lt; have := i.isLt
  simp only [packM, BitVec.toNat_ofNat]; omega
@[simp] theorem packM_sw (sw : Bool) (mj : BitVec 6) (d : BitVec 6) (a : BitVec 6) (g : BitVec 3) (z : BitVec 3) (r : Bool) (i : BitVec 5) :
    bitAt (packM sw mj d a g z r i) 31 = sw := by
  have := sw.toNat_lt; have := mj.isLt; have := d.isLt; have := a.isLt; have := g.isLt; have := z.isLt; have := r.toNat_lt; have := i.isLt
  unfold bitAt; rw [packM_toNat]
  cases sw <;> simp only [Nat.reducePow, Bool.toNat_true, Bool.toNat_false, beq_iff_eq, beq_eq_false_iff_ne] <;> omega
@[simp] theorem packM_mj (sw : Bool) (mj : BitVec 6) (d : BitVec 6) (a : BitVec 6) (g : BitVec 3) (z : BitVec 3) (r : Bool) (i : BitVec 5) :
    bitsAt (packM sw mj d a g z r i) 25 6 = mj := by
  have := sw.toNat_lt; have := mj.isLt; have := d.isLt; have := a.isLt; have := g.isLt; have := z.isLt; have := r.toNat_lt; have := i.isLt
  apply BitVec.eq_of_toNat_eq; rw [bitsAt_toNat, packM_toNat]; omega
@[simp] theorem packM_d (sw : Bool) (mj : BitVec 6) (d : BitVec 6) (a : BitVec 6) (g : BitVec 3) (z : BitVec 3) (r : Bool) (i : BitVec 5) :
    bitsAt (packM sw mj d a g z r i) 19 6 = d := by
  have := sw.toNat_lt; have := mj.isLt; have := d.isLt; have := a.isLt; have := g.isLt; have := z.isLt; have := r.toNat_lt; have := i.isLt
  apply BitVec.eq_of_toNat_eq; rw [bitsAt_toNat, packM_toNat]; omega
@[simp] theorem packM_a (sw : Bool) (mj : BitVec 6) (d : BitVec 6) (a : BitVec 6) (g : BitVec 3) (z : BitVec 3) (r : Bool) (i : BitVec 5) :
    bitsAt (packM sw mj d a g z r i) 13 6 = a := by
  have := sw.toNat_lt; have := mj.isLt; have := d.isLt; have := a.isLt; have := g.isLt; have := z.isLt; have := r.toNat_lt; have := i.isLt
  apply BitVec.eq_of_toNat_eq; rw [bitsAt_toNat, packM_toNat]; omega
@[simp] theorem packM_g (sw : Bool) (mj : BitVec 6) (d : BitVec 6) (a : BitVec 6) (g : BitVec 3) (z : BitVec 3) (r : Bool) (i : BitVec 5) :
    bitsAt (packM sw mj d a g z r i) 10 3 = g := by
  have := sw.toNat_lt; have := mj.isLt; have := d.isLt; have := a.isLt; have := g.isLt; have := z.isLt; have := r.toNat_lt; have := i.isLt
  apply BitVec.eq_of_toNat_eq; rw [bitsAt_toNat, packM_toNat]; omega
@[simp] theorem packM_z (sw : Bool) (mj : BitVec 6) (d : BitVec 6) (a : BitVec 6) (g : BitVec 3) (z : BitVec 3) (r : Bool) (i : BitVec 5) :
    bitsAt (packM sw mj d a g z r i) 7 3 = z := by
  have := sw.toNat_lt; have := mj.isLt; have := d.isLt; have := a.isLt; have := g.isLt; have := z.isLt; have := r.toNat_lt; have := i.isLt
  apply BitVec.eq_of_toNat_eq; rw [bitsAt_toNat, packM_toNat]; omega
@[simp] theorem packM_r (sw : Bool) (mj : BitVec 6) (d : BitVec 6) (a : BitVec 6) (g : BitVec 3) (z : BitVec 3) (r : Bool) (i : BitVec 5) :
    bitAt (packM sw mj d a g z r i) 6 = r := by
  have := sw.toNat_lt; have := mj.isLt; have := d.isLt; have := a.isLt; have := g.isLt; have := z.isLt; have := r.toNat_lt; have := i.isLt
  unfold bitAt; rw [packM_toNat]
  cases r <;> simp only [Nat.reducePow, Bool.toNat_true, Bool.toNat_false, beq_iff_eq, beq_eq_false_iff_ne] <;> omega
@[simp] theorem packM_i (sw : Bool) (mj : BitVec 6) (d : BitVec 6) (a : BitVec 6) (g : BitVec 3) (z : BitVec 3) (r : Bool) (i : BitVec 5) :
    bitsAt (packM sw mj d a g z r i) 0 5 = i := by
  have := sw.toNat_lt; have := mj.isLt; have := d.isLt; have := a.isLt; have := g.isLt; have := z.isLt; have := r.toNat_lt; have := i.isLt
  apply BitVec.eq_of_toNat_eq; rw [bitsAt_toNat, packM_toNat]; omega
@[simp] theorem packM_nz5 (sw : Bool) (mj : BitVec 6) (d : BitVec 6) (a : BitVec 6) (g : BitVec 3) (z : BitVec 3) (r : Bool) (i : BitVec 5) :
    nonzeroField (packM sw mj d a g z r i) (5, 1) = false := by
  have := sw.toNat_lt; have := mj.isLt; have := d.isLt; have := a.isLt; have := g.isLt; have := z.isLt; have := r.toNat_lt; have := i.isLt
  unfold nonzeroField; rw [packM_toNat]; simp only [bne_eq_false_iff_eq, Nat.reducePow]; omega

theorem packAT_toNat (sw : Bool) (mj : BitVec 6) (d : BitVec 6) (a : BitVec 6) (b : BitVec 6) (o : BitVec 2) (r : Bool) (p : BitVec 4) :
    (packAT sw mj d a b o r p).toNat = sw.toNat * 2147483648 + mj.toNat * 33554432 + d.toNat * 524288 + a.toNat * 8192 + b.toNat * 128 + o.toNat * 32 + r.toNat * 16 + p.toNat := by
  have := sw.toNat_lt; have := mj.isLt; have := d.isLt; have := a.isLt; have := b.isLt; have := o.isLt; have := r.toNat_lt; have := p.isLt
  simp only [packAT, BitVec.toNat_ofNat]; omega
@[simp] theorem packAT_sw (sw : Bool) (mj : BitVec 6) (d : BitVec 6) (a : BitVec 6) (b : BitVec 6) (o : BitVec 2) (r : Bool) (p : BitVec 4) :
    bitAt (packAT sw mj d a b o r p) 31 = sw := by
  have := sw.toNat_lt; have := mj.isLt; have := d.isLt; have := a.isLt; have := b.isLt; have := o.isLt; have := r.toNat_lt; have := p.isLt
  unfold bitAt; rw [packAT_toNat]
  cases sw <;> simp only [Nat.reducePow, Bool.toNat_true, Bool.toNat_false, beq_iff_eq, beq_eq_false_iff_ne] <;> omega
@[simp] theorem packAT_mj (sw : Bool) (mj : BitVec 6) (d : BitVec 6) (a : BitVec 6) (b : BitVec 6) (o : BitVec 2) (r : Bool) (p : BitVec 4) :
    bitsAt (packAT sw mj d a b o r p) 25 6 = mj := by
  have := sw.toNat_lt; have := mj.isLt; have := d.isLt; have := a.isLt; have := b.isLt; have := o.isLt; have := r.toNat_lt; have := p.isLt
  apply BitVec.eq_of_toNat_eq; rw [bitsAt_toNat, packAT_toNat]; omega
@[simp] theorem packAT_d (sw : Bool) (mj : BitVec 6) (d : BitVec 6) (a : BitVec 6) (b : BitVec 6) (o : BitVec 2) (r : Bool) (p : BitVec 4) :
    bitsAt (packAT sw mj d a b o r p) 19 6 = d := by
  have := sw.toNat_lt; have := mj.isLt; have := d.isLt; have := a.isLt; have := b.isLt; have := o.isLt; have := r.toNat_lt; have := p.isLt
  apply BitVec.eq_of_toNat_eq; rw [bitsAt_toNat, packAT_toNat]; omega
@[simp] theorem packAT_a (sw : Bool) (mj : BitVec 6) (d : BitVec 6) (a : BitVec 6) (b : BitVec 6) (o : BitVec 2) (r : Bool) (p : BitVec 4) :
    bitsAt (packAT sw mj d a b o r p) 13 6 = a := by
  have := sw.toNat_lt; have := mj.isLt; have := d.isLt; have := a.isLt; have := b.isLt; have := o.isLt; have := r.toNat_lt; have := p.isLt
  apply BitVec.eq_of_toNat_eq; rw [bitsAt_toNat, packAT_toNat]; omega
@[simp] theorem packAT_b (sw : Bool) (mj : BitVec 6) (d : BitVec 6) (a : BitVec 6) (b : BitVec 6) (o : BitVec 2) (r : Bool) (p : BitVec 4) :
    bitsAt (packAT sw mj d a b o r p) 7 6 = b := by
  have := sw.toNat_lt; have := mj.isLt; have := d.isLt; have := a.isLt; have := b.isLt; have := o.isLt; have := r.toNat_lt; have := p.isLt
  apply BitVec.eq_of_toNat_eq; rw [bitsAt_toNat, packAT_toNat]; omega
@[simp] theorem packAT_o (sw : Bool) (mj : BitVec 6) (d : BitVec 6) (a : BitVec 6) (b : BitVec 6) (o : BitVec 2) (r : Bool) (p : BitVec 4) :
    bitsAt (packAT sw mj d a b o r p) 5 2 = o := by
  have := sw.toNat_lt; have := mj.isLt; have := d.isLt; have := a.isLt; have := b.isLt; have := o.isLt; have := r.toNat_lt; have := p.isLt
  apply BitVec.eq_of_toNat_eq; rw [bitsAt_toNat, packAT_toNat]; omega
@[simp] theorem packAT_r (sw : Bool) (mj : BitVec 6) (d : BitVec 6) (a : BitVec 6) (b : BitVec 6) (o : BitVec 2) (r : Bool) (p : BitVec 4) :
    bitAt (packAT sw mj d a b o r p) 4 = r := by
  have := sw.toNat_lt; have := mj.isLt; have := d.isLt; have := a.isLt; have := b.isLt; have := o.isLt; have := r.toNat_lt; have := p.isLt
  unfold bitAt; rw [packAT_toNat]
  cases r <;> simp only [Nat.reducePow, Bool.toNat_true, Bool.toNat_false, beq_iff_eq, beq_eq_false_iff_ne] <;> omega
@[simp] theorem packAT_p (sw : Bool) (mj : BitVec 6) (d : BitVec 6) (a : BitVec 6) (b : BitVec 6) (o : BitVec 2) (r : Bool) (p : BitVec 4) :
    bitsAt (packAT sw mj d a b o r p) 0 4 = p := by
  have := sw.toNat_lt; have := mj.isLt; have := d.isLt; have := a.isLt; have := b.isLt; have := o.isLt; have := r.toNat_lt; have := p.isLt
  apply BitVec.eq_of_toNat_eq; rw [bitsAt_toNat, packAT_toNat]; omega
@[simp] theorem packAT_nz_d (sw : Bool) (mj : BitVec 6) (d : BitVec 6) (a : BitVec 6) (b : BitVec 6) (o : BitVec 2) (r : Bool) (p : BitVec 4) :
    nonzeroField (packAT sw mj d a b o r p) (19, 6) = (d.toNat != 0) := by
  have := sw.toNat_lt; have := mj.isLt; have := d.isLt; have := a.isLt; have := b.isLt; have := o.isLt; have := r.toNat_lt; have := p.isLt
  unfold nonzeroField; rw [packAT_toNat]; congr 1; simp only [Nat.reducePow]; omega

theorem packH_toNat (sw : Bool) (mj : BitVec 6) (p : BitVec 25) :
    (packH sw mj p).toNat = sw.toNat * 2147483648 + mj.toNat * 33554432 + p.toNat := by
  have := sw.toNat_lt; have := mj.isLt; have := p.isLt
  simp only [packH, BitVec.toNat_ofNat]; omega
@[simp] theorem packH_sw (sw : Bool) (mj : BitVec 6) (p : BitVec 25) :
    bitAt (packH sw mj p) 31 = sw := by
  have := sw.toNat_lt; have := mj.isLt; have := p.isLt
  unfold bitAt; rw [packH_toNat]
  cases sw <;> simp only [Nat.reducePow, Bool.toNat_true, Bool.toNat_false, beq_iff_eq, beq_eq_false_iff_ne] <;> omega
@[simp] theorem packH_mj (sw : Bool) (mj : BitVec 6) (p : BitVec 25) :
    bitsAt (packH sw mj p) 25 6 = mj := by
  have := sw.toNat_lt; have := mj.isLt; have := p.isLt
  apply BitVec.eq_of_toNat_eq; rw [bitsAt_toNat, packH_toNat]; omega
@[simp] theorem packH_p (sw : Bool) (mj : BitVec 6) (p : BitVec 25) :
    bitsAt (packH sw mj p) 0 25 = p := by
  have := sw.toNat_lt; have := mj.isLt; have := p.isLt
  apply BitVec.eq_of_toNat_eq; rw [bitsAt_toNat, packH_toNat]; omega

theorem packXM_toNat (sw : Bool) (mj : BitVec 6) (r : Bool) (o : BitVec 2) (t : Bool) (c : Bool) (l : BitVec 2) (e : Bool) (g : BitVec 3) :
    (packXM sw mj r o t c l e g).toNat = sw.toNat * 2147483648 + mj.toNat * 33554432 + r.toNat * 16777216 + o.toNat * 4194304 + t.toNat * 2097152 + c.toNat * 1048576 + l.toNat * 262144 + e.toNat * 131072 + g.toNat * 16384 := by
  have := sw.toNat_lt; have := mj.isLt; have := r.toNat_lt; have := o.isLt; have := t.toNat_lt; have := c.toNat_lt; have := l.isLt; have := e.toNat_lt; have := g.isLt
  simp only [packXM, BitVec.toNat_ofNat]; omega
@[simp] theorem packXM_sw (sw : Bool) (mj : BitVec 6) (r : Bool) (o : BitVec 2) (t : Bool) (c : Bool) (l : BitVec 2) (e : Bool) (g : BitVec 3) :
    bitAt (packXM sw mj r o t c l e g) 31 = sw := by
  have := sw.toNat_lt; have := mj.isLt; have := r.toNat_lt; have := o.isLt; have := t.toNat_lt; have := c.toNat_lt; have := l.isLt; have := e.toNat_lt; have := g.isLt
  unfold bitAt; rw [packXM_toNat]
  cases sw <;> simp only [Nat.reducePow, Bool.toNat_true, Bool.toNat_false, beq_iff_eq, beq_eq_false_iff_ne] <;> omega
@[simp] theorem packXM_mj (sw : Bool) (mj : BitVec 6) (r : Bool) (o : BitVec 2) (t : Bool) (c : Bool) (l : BitVec 2) (e : Bool) (g : BitVec 3) :
    bitsAt (packXM sw mj r o t c l e g) 25 6 = mj := by
  have := sw.toNat_lt; have := mj.isLt; have := r.toNat_lt; have := o.isLt; have := t.toNat_lt; have := c.toNat_lt; have := l.isLt; have := e.toNat_lt; have := g.isLt
  apply BitVec.eq_of_toNat_eq; rw [bitsAt_toNat, packXM_toNat]; omega
@[simp] theorem packXM_r (sw : Bool) (mj : BitVec 6) (r : Bool) (o : BitVec 2) (t : Bool) (c : Bool) (l : BitVec 2) (e : Bool) (g : BitVec 3) :
    bitAt (packXM sw mj r o t c l e g) 24 = r := by
  have := sw.toNat_lt; have := mj.isLt; have := r.toNat_lt; have := o.isLt; have := t.toNat_lt; have := c.toNat_lt; have := l.isLt; have := e.toNat_lt; have := g.isLt
  unfold bitAt; rw [packXM_toNat]
  cases r <;> simp only [Nat.reducePow, Bool.toNat_true, Bool.toNat_false, beq_iff_eq, beq_eq_false_iff_ne] <;> omega
@[simp] theorem packXM_o (sw : Bool) (mj : BitVec 6) (r : Bool) (o : BitVec 2) (t : Bool) (c : Bool) (l : BitVec 2) (e : Bool) (g : BitVec 3) :
    bitsAt (packXM sw mj r o t c l e g) 22 2 = o := by
  have := sw.toNat_lt; have := mj.isLt; have := r.toNat_lt; have := o.isLt; have := t.toNat_lt; have := c.toNat_lt; have := l.isLt; have := e.toNat_lt; have := g.isLt
  apply BitVec.eq_of_toNat_eq; rw [bitsAt_toNat, packXM_toNat]; omega
@[simp] theorem packXM_t (sw : Bool) (mj : BitVec 6) (r : Bool) (o : BitVec 2) (t : Bool) (c : Bool) (l : BitVec 2) (e : Bool) (g : BitVec 3) :
    bitAt (packXM sw mj r o t c l e g) 21 = t := by
  have := sw.toNat_lt; have := mj.isLt; have := r.toNat_lt; have := o.isLt; have := t.toNat_lt; have := c.toNat_lt; have := l.isLt; have := e.toNat_lt; have := g.isLt
  unfold bitAt; rw [packXM_toNat]
  cases t <;> simp only [Nat.reducePow, Bool.toNat_true, Bool.toNat_false, beq_iff_eq, beq_eq_false_iff_ne] <;> omega
@[simp] theorem packXM_c (sw : Bool) (mj : BitVec 6) (r : Bool) (o : BitVec 2) (t : Bool) (c : Bool) (l : BitVec 2) (e : Bool) (g : BitVec 3) :
    bitAt (packXM sw mj r o t c l e g) 20 = c := by
  have := sw.toNat_lt; have := mj.isLt; have := r.toNat_lt; have := o.isLt; have := t.toNat_lt; have := c.toNat_lt; have := l.isLt; have := e.toNat_lt; have := g.isLt
  unfold bitAt; rw [packXM_toNat]
  cases c <;> simp only [Nat.reducePow, Bool.toNat_true, Bool.toNat_false, beq_iff_eq, beq_eq_false_iff_ne] <;> omega
@[simp] theorem packXM_l (sw : Bool) (mj : BitVec 6) (r : Bool) (o : BitVec 2) (t : Bool) (c : Bool) (l : BitVec 2) (e : Bool) (g : BitVec 3) :
    bitsAt (packXM sw mj r o t c l e g) 18 2 = l := by
  have := sw.toNat_lt; have := mj.isLt; have := r.toNat_lt; have := o.isLt; have := t.toNat_lt; have := c.toNat_lt; have := l.isLt; have := e.toNat_lt; have := g.isLt
  apply BitVec.eq_of_toNat_eq; rw [bitsAt_toNat, packXM_toNat]; omega
@[simp] theorem packXM_e (sw : Bool) (mj : BitVec 6) (r : Bool) (o : BitVec 2) (t : Bool) (c : Bool) (l : BitVec 2) (e : Bool) (g : BitVec 3) :
    bitAt (packXM sw mj r o t c l e g) 17 = e := by
  have := sw.toNat_lt; have := mj.isLt; have := r.toNat_lt; have := o.isLt; have := t.toNat_lt; have := c.toNat_lt; have := l.isLt; have := e.toNat_lt; have := g.isLt
  unfold bitAt; rw [packXM_toNat]
  cases e <;> simp only [Nat.reducePow, Bool.toNat_true, Bool.toNat_false, beq_iff_eq, beq_eq_false_iff_ne] <;> omega
@[simp] theorem packXM_g (sw : Bool) (mj : BitVec 6) (r : Bool) (o : BitVec 2) (t : Bool) (c : Bool) (l : BitVec 2) (e : Bool) (g : BitVec 3) :
    bitsAt (packXM sw mj r o t c l e g) 14 3 = g := by
  have := sw.toNat_lt; have := mj.isLt; have := r.toNat_lt; have := o.isLt; have := t.toNat_lt; have := c.toNat_lt; have := l.isLt; have := e.toNat_lt; have := g.isLt
  apply BitVec.eq_of_toNat_eq; rw [bitsAt_toNat, packXM_toNat]; omega
@[simp] theorem packXM_nz0 (sw : Bool) (mj : BitVec 6) (r : Bool) (o : BitVec 2) (t : Bool) (c : Bool) (l : BitVec 2) (e : Bool) (g : BitVec 3) :
    nonzeroField (packXM sw mj r o t c l e g) (0, 14) = false := by
  have := sw.toNat_lt; have := mj.isLt; have := r.toNat_lt; have := o.isLt; have := t.toNat_lt; have := c.toNat_lt; have := l.isLt; have := e.toNat_lt; have := g.isLt
  unfold nonzeroField; rw [packXM_toNat]; simp only [bne_eq_false_iff_eq, Nat.reducePow]; omega

theorem packG3_u0 (sw : Bool) (mj : BitVec 6) (d a b : Reg6) (g : Pred3) (mn : BitVec 4) :
    bitAt (packG3 sw mj d a b g mn) 0 = (mn.toNat % 2 == 1) := by
  have := sw.toNat_lt; have := mj.isLt; have := d.isLt; have := a.isLt; have := b.isLt; have := g.isLt; have := mn.isLt
  unfold bitAt; rw [packG3_toNat, Bool.eq_iff_iff]; simp only [beq_iff_eq, Nat.reducePow]; omega
theorem packG3_u1 (sw : Bool) (mj : BitVec 6) (d a b : Reg6) (g : Pred3) (mn : BitVec 4) :
    bitAt (packG3 sw mj d a b g mn) 1 = (mn.toNat / 2 % 2 == 1) := by
  have := sw.toNat_lt; have := mj.isLt; have := d.isLt; have := a.isLt; have := b.isLt; have := g.isLt; have := mn.isLt
  unfold bitAt; rw [packG3_toNat, Bool.eq_iff_iff]; simp only [beq_iff_eq, Nat.reducePow]; omega
theorem fcmpMinor_toNat (t : Bool) (r : BitVec 2) : (fcmpMinor t r).toNat = t.toNat * 4 + r.toNat := by
  have := t.toNat_lt; have := r.isLt
  simp only [fcmpMinor, BitVec.toNat_ofNat]; omega
theorem fcmpMinor_lt (t : Bool) (r : BitVec 2) : (fcmpMinor t r).toNat < 8 := by
  have := t.toNat_lt; have := r.isLt
  rw [fcmpMinor_toNat]; omega
theorem readPQf_pack (f : PQf) (mj : BitVec 6) :
    readPQf (packPQ f.sw mj f.p f.q f.a f.b f.g (fcmpMinor f.t f.r)) = f := by
  obtain ⟨sw, p, q, a, b, g, t, r⟩ := f
  have := sw.toNat_lt; have := mj.isLt; have := p.isLt; have := q.isLt; have := a.isLt; have := b.isLt
  have := g.isLt; have := t.toNat_lt; have := r.isLt
  have h1 : bitAt (packPQ sw mj p q a b g (fcmpMinor t r)) 2 = t := by
    unfold bitAt; rw [packPQ_toNat, fcmpMinor_toNat]
    cases t <;> simp only [Nat.reducePow, Bool.toNat_true, Bool.toNat_false, beq_iff_eq, beq_eq_false_iff_ne] <;> omega
  have h2 : bitsAt (packPQ sw mj p q a b g (fcmpMinor t r)) 0 2 = r := by
    apply BitVec.eq_of_toNat_eq; rw [bitsAt_toNat, packPQ_toNat, fcmpMinor_toNat]; omega
  simp [readPQf, h1, h2]
theorem nz_HD (sw : Bool) (n : BitVec 4) : nonzeroField (packH sw 43#6 (n.setWidth 25)) (4, 21) = false := by
  have := sw.toNat_lt; have := n.isLt
  unfold nonzeroField; rw [packH_toNat]; simp only [bne_eq_false_iff_eq, Nat.reducePow, BitVec.toNat_setWidth]
  simp only [BitVec.reduceToNat]; omega
theorem nz_HS (sw : Bool) (n : BitVec 2) : nonzeroField (packH sw 44#6 (n.setWidth 25)) (2, 23) = false := by
  have := sw.toNat_lt; have := n.isLt
  unfold nonzeroField; rw [packH_toNat]; simp only [bne_eq_false_iff_eq, Nat.reducePow, BitVec.toNat_setWidth]
  simp only [BitVec.reduceToNat]; omega


theorem packH_low (sw : Bool) (mj : BitVec 6) (p : BitVec 25) (n : Nat) (hn : n ≤ 25) :
    bitsAt (packH sw mj p) 0 n = BitVec.ofNat n p.toNat := by
  have := sw.toNat_lt; have := mj.isLt; have := p.isLt
  apply BitVec.eq_of_toNat_eq
  rw [bitsAt_toNat, packH_toNat, BitVec.toNat_ofNat, Nat.pow_zero, Nat.div_one]
  have h : 2 ^ n ∣ 33554432 := by
    have : (33554432 : Nat) = 2 ^ 25 := by decide
    rw [this]; exact Nat.pow_dvd_pow 2 hn
  obtain ⟨k, hk⟩ := h
  have : sw.toNat * 2147483648 + mj.toNat * 33554432 + p.toNat = p.toNat + 2 ^ n * (k * (sw.toNat * 64 + mj.toNat)) := by
    rw [← Nat.mul_assoc, ← hk]; omega
  rw [this, Nat.add_mul_mod_self_left]

theorem readHD_pack (f : HD) (mj : BitVec 6) : readHD (packH f.sw mj (f.n.setWidth 25)) = f := by
  obtain ⟨sw, n⟩ := f
  have := n.isLt
  simp only [readHD, packH_sw, packH_low _ _ _ 4 (by decide)]
  congr 1
  apply BitVec.eq_of_toNat_eq; simp only [BitVec.toNat_ofNat, BitVec.toNat_setWidth]; omega
theorem readHS_pack (f : HS) (mj : BitVec 6) : readHS (packH f.sw mj (f.l.setWidth 25)) = f := by
  obtain ⟨sw, l⟩ := f
  have := l.isLt
  simp only [readHS, packH_sw, packH_low _ _ _ 2 (by decide)]
  congr 1
  apply BitVec.eq_of_toNat_eq; simp only [BitVec.toNat_ofNat, BitVec.toNat_setWidth]; omega

theorem packMV_toNat (sw : Bool) (mj : BitVec 5) (d : Reg6) (i : BitVec 20) :
    (packMV sw mj d i).toNat = sw.toNat * 2147483648 + mj.toNat * 67108864 + i.toNat / 524288 * 33554432 +
      d.toNat * 524288 + i.toNat % 524288 := by
  have := sw.toNat_lt; have := mj.isLt; have := d.isLt; have := i.isLt
  simp only [packMV, BitVec.toNat_ofNat]; omega
theorem packMV_major (sw : Bool) (mj : BitVec 5) (d : Reg6) (i : BitVec 20) :
    majorOf (packMV sw mj d i) = mj.toNat * 2 + i.toNat / 524288 := by
  have := sw.toNat_lt; have := mj.isLt; have := d.isLt; have := i.isLt
  unfold majorOf; rw [bitsAt_toNat, packMV_toNat]; omega
@[simp] theorem readMV20_pack (f : MV20) (mj : BitVec 5) : readMV20 (packMV f.sw mj f.d f.i) = f := by
  obtain ⟨sw, d, i⟩ := f
  have := sw.toNat_lt; have := mj.isLt; have := d.isLt; have := i.isLt
  have h1 : bitAt (packMV sw mj d i) 31 = sw := by
    have hq : i.toNat / 524288 < 2 := by omega
    have hr : i.toNat % 524288 < 524288 := by omega
    unfold bitAt; rw [packMV_toNat]
    generalize i.toNat / 524288 = q at *
    generalize i.toNat % 524288 = r at *
    cases sw <;> simp only [Nat.reducePow, Bool.toNat_true, Bool.toNat_false, beq_iff_eq, beq_eq_false_iff_ne] <;> omega
  have h2 : bitsAt (packMV sw mj d i) 19 6 = d := by
    apply BitVec.eq_of_toNat_eq; rw [bitsAt_toNat, packMV_toNat]; omega
  have h3 : (bitAt (packMV sw mj d i) 25).toNat = i.toNat / 524288 := by
    have h : bitAt (packMV sw mj d i) 25 = (i.toNat / 524288 == 1) := by
      unfold bitAt; rw [packMV_toNat, Bool.eq_iff_iff]; simp only [beq_iff_eq]; omega
    rw [h]
    rcases (show i.toNat / 524288 = 0 ∨ i.toNat / 524288 = 1 by omega) with h | h <;> rw [h] <;> rfl
  have h4 : BitVec.ofNat 20 (i.toNat / 524288 * 524288 + (packMV sw mj d i).toNat % 524288) = i := by
    apply BitVec.eq_of_toNat_eq; rw [packMV_toNat, BitVec.toNat_ofNat]; omega
  simp only [readMV20, h1, h2, h3, h4]

/-- The checks pass when the zero fields are zero and the instruction is well-formed. -/
theorem checkFields_ok {i : Instr} {w : Word} (hz : (zeroFields i).filter (nonzeroField w) = [])
    (hp : prefOrder i w = []) (h : i.wf = true) : checkFields i w = .ok i := by
  simp only [Instr.wf, Bool.and_eq_true, List.isEmpty_iff] at h
  simp only [checkFields, hz, hp, h.1, h.2, List.nil_append]

theorem decode_of_shape {i : Instr} {w : Word} (hs : decodeShape (majorOf w) w = .ok i)
    (hz : (zeroFields i).filter (nonzeroField w) = []) (hp : prefOrder i w = []) (h : i.wf = true) :
    decodeWord w = .ok i := by
  unfold decodeWord; rw [hs]; exact checkFields_ok hz hp h

theorem packBar_toNat (sw : Bool) (p : Pred3) (n : BitVec 4) :
    (packBar sw p n).toNat = sw.toNat * 2147483648 + 46 * 33554432 + p.toNat * 4194304 + n.toNat * 8192 := by
  have := sw.toNat_lt; have := p.isLt; have := n.isLt
  simp only [packBar, BitVec.toNat_ofNat]; omega
theorem decode_packBar (f : BarF) : decodeWord (packBar f.sw f.p f.n) = .ok (.bar f) := by
  obtain ⟨sw, p, n⟩ := f
  have := sw.toNat_lt; have := p.isLt; have := n.isLt
  have hm : majorOf (packBar sw p n) = 46 := by unfold majorOf; rw [bitsAt_toNat, packBar_toNat]; omega
  have hn : minorOf (packBar sw p n) = 0 := by unfold minorOf; rw [bitsAt_toNat, packBar_toNat]; omega
  have h1 : bitAt (packBar sw p n) 31 = sw := by
    unfold bitAt; rw [packBar_toNat]
    cases sw <;> simp only [Nat.reducePow, Bool.toNat_true, Bool.toNat_false, beq_iff_eq, beq_eq_false_iff_ne] <;> omega
  have h2 : bitsAt (packBar sw p n) 22 3 = p := by
    apply BitVec.eq_of_toNat_eq; rw [bitsAt_toNat, packBar_toNat]; omega
  have h3 : bitsAt (packBar sw p n) 13 4 = n := by
    apply BitVec.eq_of_toNat_eq; rw [bitsAt_toNat, packBar_toNat]; omega
  have z1 : nonzeroField (packBar sw p n) (4, 3) = false := by
    unfold nonzeroField; rw [packBar_toNat]; simp only [bne_eq_false_iff_eq, Nat.reducePow]; omega
  have z2 : nonzeroField (packBar sw p n) (7, 6) = false := by
    unfold nonzeroField; rw [packBar_toNat]; simp only [bne_eq_false_iff_eq, Nat.reducePow]; omega
  have z3 : nonzeroField (packBar sw p n) (17, 2) = false := by
    unfold nonzeroField; rw [packBar_toNat]; simp only [bne_eq_false_iff_eq, Nat.reducePow]; omega
  have z4 : nonzeroField (packBar sw p n) (19, 3) = false := by
    unfold nonzeroField; rw [packBar_toNat]; simp only [bne_eq_false_iff_eq, Nat.reducePow]; omega
  have hz : (zeroFields (.bar ⟨sw, p, n⟩)).filter (nonzeroField (packBar sw p n)) = [] := by
    simp [zeroFields, z1, z2, z3, z4]
  have hs : decodeShape (majorOf (packBar sw p n)) (packBar sw p n) = .ok (.bar ⟨sw, p, n⟩) := by
    rw [hm]; simp [decodeShape, decodeMajor46, hn, readBarF, h1, h2, h3]
  exact decode_of_shape hs hz rfl rfl

/-! ## One lemma for each record of fields: it reads back from its packing. -/

theorem readR3_pack (f : R3) (mj : BitVec 6) (mn : BitVec 4) : readR3 (packG3 f.sw mj f.d f.a f.b f.g mn) = f := by
  simp only [readR3, packG3_sw, packG3_d, packG3_a, packG3_b, packG3_g]
theorem readR2_pack (f : R2) (mj : BitVec 6) (mn : BitVec 4) : readR2 (packG3 f.sw mj f.d f.a 0#6 f.g mn) = f := by
  simp only [readR2, packG3_sw, packG3_d, packG3_a, packG3_b, packG3_g]
theorem zeroR2 (f : R2) (mj : BitVec 6) (mn : BitVec 4) : (zB).filter (nonzeroField (packG3 f.sw mj f.d f.a 0#6 f.g mn)) = [] := by
  simp [zB, packG3_nz_g, packG3_nz_b, packG3_nz_a, packG3_nz_d]
theorem readR1_pack (f : R1) (mj : BitVec 6) (mn : BitVec 4) : readR1 (packG3 f.sw mj 0#6 f.a 0#6 f.g mn) = f := by
  simp only [readR1, packG3_sw, packG3_d, packG3_a, packG3_b, packG3_g]
theorem zeroR1 (f : R1) (mj : BitVec 6) (mn : BitVec 4) : (zBD).filter (nonzeroField (packG3 f.sw mj 0#6 f.a 0#6 f.g mn)) = [] := by
  simp [zBD, packG3_nz_g, packG3_nz_b, packG3_nz_a, packG3_nz_d]
theorem readR0_pack (f : R0) (mj : BitVec 6) (mn : BitVec 4) : readR0 (packG3 f.sw mj 0#6 0#6 0#6 f.g mn) = f := by
  simp only [readR0, packG3_sw, packG3_d, packG3_a, packG3_b, packG3_g]
theorem zeroR0 (f : R0) (mj : BitVec 6) (mn : BitVec 4) : (zBAD).filter (nonzeroField (packG3 f.sw mj 0#6 0#6 0#6 f.g mn)) = [] := by
  simp [zBAD, packG3_nz_g, packG3_nz_b, packG3_nz_a, packG3_nz_d]
theorem readRd_pack (f : Rd) (mj : BitVec 6) (mn : BitVec 4) : readRd (packG3 f.sw mj f.d 0#6 0#6 f.g mn) = f := by
  simp only [readRd, packG3_sw, packG3_d, packG3_a, packG3_b, packG3_g]
theorem zeroRd (f : Rd) (mj : BitVec 6) (mn : BitVec 4) : (zBA).filter (nonzeroField (packG3 f.sw mj f.d 0#6 0#6 f.g mn)) = [] := by
  simp [zBA, packG3_nz_g, packG3_nz_b, packG3_nz_a, packG3_nz_d]
theorem readRab_pack (f : Rab) (mj : BitVec 6) (mn : BitVec 4) : readRab (packG3 f.sw mj 0#6 f.a f.b f.g mn) = f := by
  simp only [readRab, packG3_sw, packG3_d, packG3_a, packG3_b, packG3_g]
theorem zeroRab (f : Rab) (mj : BitVec 6) (mn : BitVec 4) : (zD).filter (nonzeroField (packG3 f.sw mj 0#6 f.a f.b f.g mn)) = [] := by
  simp [zD, packG3_nz_g, packG3_nz_b, packG3_nz_a, packG3_nz_d]
theorem readRs_pack (f : Rs) (mj : BitVec 6) (mn : BitVec 4) : readRs (packG3 f.sw mj 0#6 0#6 0#6 0#3 mn) = f := by
  simp only [readRs, packG3_sw, packG3_d, packG3_a, packG3_b, packG3_g]
theorem zeroRs (f : Rs) (mj : BitVec 6) (mn : BitVec 4) : (zGBAD).filter (nonzeroField (packG3 f.sw mj 0#6 0#6 0#6 0#3 mn)) = [] := by
  simp [zGBAD, packG3_nz_g, packG3_nz_b, packG3_nz_a, packG3_nz_d]
theorem readRsa_pack (f : Rsa) (mj : BitVec 6) (mn : BitVec 4) : readRsa (packG3 f.sw mj 0#6 f.a 0#6 0#3 mn) = f := by
  simp only [readRsa, packG3_sw, packG3_d, packG3_a, packG3_b, packG3_g]
theorem zeroRsa (f : Rsa) (mj : BitVec 6) (mn : BitVec 4) : (zGBD).filter (nonzeroField (packG3 f.sw mj 0#6 f.a 0#6 0#3 mn)) = [] := by
  simp [zGBD, packG3_nz_g, packG3_nz_b, packG3_nz_a, packG3_nz_d]
theorem readPQi_pack (f : PQi) (mj : BitVec 6) : readPQi (packPI f.sw mj f.p f.q f.a f.i f.g) = f := by
  simp only [readPQi, packPI_sw, packPI_p, packPI_q, packPI_a, packPI_i, packPI_g]
theorem readCv_pack (f : Cv) (mj : BitVec 6) : readCv (packCv f.sw mj f.d f.a f.t f.g f.y) = f := by
  simp only [readCv, packCv_sw, packCv_d, packCv_a, packCv_t, packCv_g, packCv_y]
theorem zeroCv (f : Cv) (mj : BitVec 6) : ([(7, 2)]).filter (nonzeroField (packCv f.sw mj f.d f.a f.t f.g f.y)) = [] := by
  simp [packCv_nz7]
theorem readGI_pack (f : GI) (mj : BitVec 6) : readGI (packGI f.sw mj f.d f.a f.i f.g) = f := by
  simp only [readGI, packGI_sw, packGI_d, packGI_a, packGI_i, packGI_g]
theorem readGC_pack (f : GC) (mj : BitVec 6) : readGC (packGC f.sw mj f.d f.a f.k f.w f.g) = f := by
  simp only [readGC, packGC_sw, packGC_d, packGC_a, packGC_k, packGC_w, packGC_g]
theorem readGCd_pack (f : GCd) (mj : BitVec 6) : readGCd (packGC f.sw mj f.d 0#6 f.k f.w f.g) = f := by
  simp only [readGCd, packGC_sw, packGC_d, packGC_a, packGC_k, packGC_w, packGC_g]
theorem zeroGCd (f : GCd) (mj : BitVec 6) : ([(13, 6)]).filter (nonzeroField (packGC f.sw mj f.d 0#6 f.k f.w f.g)) = [] := by
  simp [packGC_nz_a]
theorem readG4_pack (f : G4) (mj : BitVec 6) : readG4 (packG4 f.sw mj f.d f.a f.b f.c f.n) = f := by
  simp only [readG4, packG4_sw, packG4_d, packG4_a, packG4_b, packG4_c, packG4_n]
theorem readBr_pack (f : Br) (mj : BitVec 6) : readBr (packB f.sw mj f.g f.o) = f := by
  simp only [readBr, packB_sw, packB_g, packB_o]
theorem readMemF_pack (f : MemF) (mj : BitVec 6) : readMemF (packM f.sw mj f.d f.a f.g f.z f.r f.i) = f := by
  simp only [readMemF, packM_sw, packM_d, packM_a, packM_g, packM_z, packM_r, packM_i]
theorem zeroMemF (f : MemF) (mj : BitVec 6) : ([(5, 1)]).filter (nonzeroField (packM f.sw mj f.d f.a f.g f.z f.r f.i)) = [] := by
  simp [packM_nz5]
theorem readPrefF_pack (f : PrefF) (mj : BitVec 6) : readPrefF (packM f.sw mj f.t f.a f.g f.z false f.i) = f := by
  simp only [readPrefF, packM_sw, packM_d, packM_a, packM_g, packM_z, packM_r, packM_i]
theorem zeroPrefF (f : PrefF) (mj : BitVec 6) : ([(5, 1)]).filter (nonzeroField (packM f.sw mj f.t f.a f.g f.z false f.i)) = [] := by
  simp [packM_nz5]
theorem readHX_pack (f : HX) (mj : BitVec 6) : readHX (packH f.sw mj f.p) = f := by
  simp only [readHX, packH_sw, packH_p]
theorem readHM_pack (f : HM) (mj : BitVec 6) : readHM (packXM f.sw mj f.r f.o f.t f.c f.l f.e f.g) = f := by
  simp only [readHM, packXM_sw, packXM_r, packXM_o, packXM_t, packXM_c, packXM_l, packXM_e, packXM_g]
theorem zeroHM (f : HM) (mj : BitVec 6) : ([(0, 14)]).filter (nonzeroField (packXM f.sw mj f.r f.o f.t f.c f.l f.e f.g)) = [] := by
  simp [packXM_nz0]
theorem readTrapF_pack (f : TrapF) (mj : BitVec 6) (mn : BitVec 4) : readTrapF (packCr f.sw mj 0#6 f.n f.g mn) = f := by
  simp only [readTrapF, packCr_sw, packCr_r, packCr_x, packCr_g]
theorem zeroTrapF (f : TrapF) (mj : BitVec 6) (mn : BitVec 4) : (zD).filter (nonzeroField (packCr f.sw mj 0#6 f.n f.g mn)) = [] := by
  simp [zD, packCr_nz_d]
theorem readCrF_pack (f : CrF) (mj : BitVec 6) (mn : BitVec 4) : readCrF (packCr f.sw mj f.r f.x f.g mn) = f := by
  simp only [readCrF, packCr_sw, packCr_r, packCr_x, packCr_g]
theorem readR3u0_pack (sw : Bool) (mj : BitVec 6) (d a b : Reg6) (g : Pred3) (mn : BitVec 4) (u : Bool)
    (h : (mn.toNat % 2 == 1) = u) : readR3u 0 (packG3 sw mj d a b g mn) = ⟨sw, d, a, b, g, u⟩ := by
  simp only [readR3u, packG3_sw, packG3_d, packG3_a, packG3_b, packG3_g, packG3_u0, h]
theorem readR3u1_pack (sw : Bool) (mj : BitVec 6) (d a b : Reg6) (g : Pred3) (mn : BitVec 4) (u : Bool)
    (h : (mn.toNat / 2 % 2 == 1) = u) : readR3u 1 (packG3 sw mj d a b g mn) = ⟨sw, d, a, b, g, u⟩ := by
  simp only [readR3u, packG3_sw, packG3_d, packG3_a, packG3_b, packG3_g, packG3_u1, h]
theorem majorOf_of {w : Word} {mj : BitVec 6} (h : bitsAt w 25 6 = mj) : majorOf w = mj.toNat := congrArg BitVec.toNat h
theorem minorOf_of {w : Word} {mn : BitVec 4} (h : bitsAt w 0 4 = mn) : minorOf w = mn.toNat := congrArg BitVec.toNat h
/-- A word of a major with one meaning. -/
theorem shape_one {R : Type} {c : R → Instr} {w : Word} {f : R} (read : Word → R) (m : Nat) (hm : majorOf w = m)
    (hd : ∀ w, decodeShape m w = .ok (c (read w))) (hr : read w = f) : decodeShape (majorOf w) w = .ok (c f) := by
  rw [hm, hd, hr]
/-- A word of a major that its minor divides. -/
theorem shape_minor {R : Type} {c : R → Instr} {w : Word} {f : R} (D : Nat → Word → Except EncFault Instr) (read : Word → R)
    (m n : Nat) (hm : majorOf w = m) (hn : minorOf w = n) (hs : ∀ w, decodeShape m w = D (minorOf w) w)
    (hd : ∀ w, D n w = .ok (c (read w))) (hr : read w = f) : decodeShape (majorOf w) w = .ok (c f) := by
  rw [hm, hs, hn, hd, hr]

end Sys2Proof.Laws
end

