-- ==== Sys2Proof/Laws/Integer.lean ====
section
/-!
SUPPORT. The integer results in the machine's own words: sums, differences and products wrap as those of bit vectors, and
saturation clamps the exact result.
-/
namespace Sys2Proof.Machine

theorem rdInt_signed {n : Nat} (x : BitVec n) : rdInt false x = x.toInt := rfl
theorem rdInt_unsigned {n : Nat} (x : BitVec n) : rdInt true x = (x.toNat : Int) := rfl

theorem ofInt_rdInt {n : Nat} (u : Bool) (x : BitVec n) : BitVec.ofInt n (rdInt u x) = x := by
  cases u
  · exact BitVec.ofInt_toInt
  · exact BitVec.eq_of_toNat_eq (by simp [rdInt, BitVec.toNat_ofInt, Int.toNat_emod, Nat.mod_eq_of_lt x.isLt])

/-- Without saturation a sum is that of bit vectors, whatever the signedness (R85). -/
theorem addInt_wrap {n : Nat} (u : Bool) (x y : BitVec n) : addInt n u false x y = x + y := by
  unfold addInt intResult
  simp only [Bool.false_eq_true, if_false, BitVec.ofInt_add, ofInt_rdInt]
theorem subInt_wrap {n : Nat} (u : Bool) (x y : BitVec n) : subInt n u false x y = x - y := by
  unfold subInt intResult
  simp only [Bool.false_eq_true, if_false, Int.sub_eq_add_neg, BitVec.ofInt_add, BitVec.ofInt_neg, ofInt_rdInt]
  rw [← BitVec.sub_eq_add_neg]
theorem mulInt_wrap {n : Nat} (u : Bool) (x y : BitVec n) : mulInt n u false x y = x * y := by
  unfold mulInt intResult
  simp only [Bool.false_eq_true, if_false, BitVec.ofInt_mul, ofInt_rdInt]

theorem clampInt_eq (v lo hi : Int) (h : lo ≤ hi) : clampInt v lo hi = max lo (min hi v) := by
  unfold clampInt
  split
  · omega
  · split <;> omega

/-- The catalogue's rewrite is exact: with no hint, a multiply by 2^n is a shift left by n (R202). -/
theorem semImulImm_eq_semShlImm {f : GI} {t : Thread} {n : Nat} (hn : n < 9) (hi : f.i = 1#10 <<< n) (hl : t.xlit = none)
    (hm : t.xmod = none) : semImulImm f t = semShlImm { f with i := BitVec.ofNat 10 n } t := by
  have hs : ∀ n : Nat, n < 9 →
      (1#10 <<< n).signExtend 32 = 1#32 <<< n ∧ ((BitVec.ofNat 10 n).setWidth 32).toNat = n := by decide
  obtain ⟨h1, h2⟩ := hs n hn
  have h : ∀ x : Word, x * 1#32 <<< n = shlBy x ((BitVec.ofNat 10 n).setWidth 32) := by
    intro x
    unfold shlBy
    rw [h2, if_neg (by omega)]
    simpa [BitVec.twoPow] using BitVec.mul_twoPow_eq_shiftLeft x n
  simp only [semImulImm, semShlImm, Thread.un, Thread.imm, Thread.satur, hl, hm, hi, h1, h, mulInt_wrap, if_true]
  rfl

end Sys2Proof.Machine
end

