-- ==== Sys2Proof/Laws/Memory.lean ====
section
/-!
SUPPORT. The laws of sparse memories: every operation keeps the canonical form, a read after a write gives the byte written,
and every other address reads as before.
-/
namespace Sys2Proof.Machine

/-! ## The canonical form -/

theorem Mem.wfFrom_cons (lo : Option Nat) (k : Nat) (v : Byte) (t : Mem) :
    Mem.wfFrom lo ((k, v) :: t) = true ↔ (∀ l, lo = some l → l < k) ∧ v ≠ 0 ∧ Mem.wfFrom (some k) t = true := by
  cases lo <;> simp [Mem.wfFrom, and_assoc]

/-- A lower bound may be taken lower. -/
theorem Mem.wfFrom_mono (m : Mem) (a b : Option Nat) (h : ∀ x, a = some x → ∃ y, b = some y ∧ x ≤ y)
    (hm : Mem.wfFrom b m = true) : Mem.wfFrom a m = true := by
  cases m with
  | nil => rfl
  | cons c t =>
    obtain ⟨k, v⟩ := c
    rw [Mem.wfFrom_cons] at hm ⊢
    refine ⟨fun l hl => ?_, hm.2⟩
    obtain ⟨y, hy, hle⟩ := h l hl
    exact Nat.lt_of_le_of_lt hle (hm.1 y hy)

/-- An address below every cell reads as zero. -/
theorem Mem.read_below (m : Mem) (l a : Nat) (hm : Mem.wfFrom (some l) m = true) (h : a ≤ l) : Mem.read m a = 0 := by
  induction m generalizing l with
  | nil => rfl
  | cons c t ih =>
    obtain ⟨k, v⟩ := c
    rw [Mem.wfFrom_cons] at hm
    have hk := hm.1 l rfl
    have hne : k ≠ a := by omega
    simp only [Mem.read, hne, if_false]
    exact ih k hm.2.2 (by omega)

theorem Mem.write_wfFrom (m : Mem) (lo : Option Nat) (a : Nat) (b : Byte) (hm : Mem.wfFrom lo m = true)
    (ha : ∀ l, lo = some l → l < a) : Mem.wfFrom lo (Mem.write m a b) = true := by
  induction m generalizing lo with
  | nil =>
    unfold Mem.write
    split
    · rfl
    · rw [Mem.wfFrom_cons]; exact ⟨ha, ‹_›, rfl⟩
  | cons c t ih =>
    obtain ⟨k, v⟩ := c
    have hc := (Mem.wfFrom_cons lo k v t).1 hm
    unfold Mem.write
    split
    · split
      · exact hm
      · rw [Mem.wfFrom_cons]
        refine ⟨ha, ‹_›, (Mem.wfFrom_cons _ _ _ _).2 ⟨?_, hc.2⟩⟩
        intro l hl; cases hl; assumption
    · split
      · subst a
        split
        · exact Mem.wfFrom_mono t lo (some k) (fun x hx => ⟨k, rfl, Nat.le_of_lt (hc.1 x hx)⟩) hc.2.2
        · exact (Mem.wfFrom_cons _ _ _ _).2 ⟨hc.1, ‹_›, hc.2.2⟩
      · rw [Mem.wfFrom_cons]
        refine ⟨hc.1, hc.2.1, ih (some k) hc.2.2 ?_⟩
        intro l hl; cases hl; omega

/-- A write keeps the canonical form. -/
theorem Mem.write_wf (m : Mem) (a : Nat) (b : Byte) (hm : Mem.wf m = true) : Mem.wf (Mem.write m a b) = true :=
  Mem.write_wfFrom m none a b hm (fun _ h => by cases h)

theorem Mem.writeBytes_wf (bs : List Byte) (m : Mem) (a : Nat) (hm : Mem.wf m = true) :
    Mem.wf (Mem.writeBytes m a bs) = true := by
  induction bs generalizing m a with
  | nil => exact hm
  | cons b bs ih => exact ih _ _ (Mem.write_wf m a b hm)

theorem Mem.writeN_wf (m : Mem) (a n v : Nat) (hm : Mem.wf m = true) : Mem.wf (Mem.writeN m a n v) = true :=
  Mem.writeBytes_wf _ m a hm

theorem Mem.keep_wfFrom (m : Mem) (lo : Option Nat) (p : Nat → Bool) (hm : Mem.wfFrom lo m = true) :
    Mem.wfFrom lo (Mem.keep m p) = true := by
  induction m generalizing lo with
  | nil => rfl
  | cons c t ih =>
    obtain ⟨k, v⟩ := c
    have hc := (Mem.wfFrom_cons lo k v t).1 hm
    unfold Mem.keep
    rw [List.filter_cons]
    split
    · exact (Mem.wfFrom_cons _ _ _ _).2 ⟨hc.1, hc.2.1, ih _ hc.2.2⟩
    · exact Mem.wfFrom_mono _ lo (some k) (fun x hx => ⟨k, rfl, Nat.le_of_lt (hc.1 x hx)⟩) (ih _ hc.2.2)

theorem Mem.keep_wf (m : Mem) (p : Nat → Bool) (hm : Mem.wf m = true) : Mem.wf (Mem.keep m p) = true :=
  Mem.keep_wfFrom m none p hm

/-! ## Reads and writes -/

theorem Mem.read_write_from (m : Mem) (lo : Option Nat) (a x : Nat) (b : Byte) (hm : Mem.wfFrom lo m = true) :
    Mem.read (Mem.write m a b) x = if x = a then b else Mem.read m x := by
  induction m generalizing lo with
  | nil =>
    unfold Mem.write
    split
    · subst b; split <;> rfl
    · simp only [Mem.read]
      by_cases h : a = x
      · simp [h]
      · simp [h, Ne.symm h]
  | cons c t ih =>
    obtain ⟨k, v⟩ := c
    have hc := (Mem.wfFrom_cons lo k v t).1 hm
    unfold Mem.write
    split
    · rename_i hak
      have h0 : Mem.read t a = 0 := Mem.read_below t k a hc.2.2 (by omega)
      split
      · subst b
        split
        · subst x; simp [Mem.read, h0, show k ≠ a by omega]
        · rfl
      · by_cases h : a = x
        · simp [Mem.read, h]
        · simp [Mem.read, h, Ne.symm h]
    · split
      · subst a
        have h0 : Mem.read t k = 0 := Mem.read_below t k k hc.2.2 (Nat.le_refl _)
        split
        · subst b
          split
          · subst x; exact h0
          · simp [Mem.read, show k ≠ x by omega]
        · by_cases h : k = x
          · simp [Mem.read, h]
          · simp [Mem.read, h, Ne.symm h]
      · simp only [Mem.read]
        rw [ih (some k) hc.2.2]
        by_cases h : k = x
        · subst x; simp [show ¬ k = a by omega]
        · simp [h]

/-- A read after a write of one byte. -/
theorem Mem.read_write (m : Mem) (a x : Nat) (b : Byte) (hm : Mem.wf m = true) :
    Mem.read (Mem.write m a b) x = if x = a then b else Mem.read m x :=
  Mem.read_write_from m none a x b hm

theorem Mem.read_write_same (m : Mem) (a : Nat) (b : Byte) (hm : Mem.wf m = true) : Mem.read (Mem.write m a b) a = b := by
  rw [Mem.read_write m a a b hm, if_pos rfl]

theorem Mem.read_write_other (m : Mem) (a x : Nat) (b : Byte) (hm : Mem.wf m = true) (h : x ≠ a) :
    Mem.read (Mem.write m a b) x = Mem.read m x := by
  rw [Mem.read_write m a x b hm, if_neg h]

/-- A write of several bytes leaves every address outside them alone. -/
theorem Mem.read_writeBytes_other (bs : List Byte) (m : Mem) (a x : Nat) (hm : Mem.wf m = true)
    (h : x < a ∨ a + bs.length ≤ x) : Mem.read (Mem.writeBytes m a bs) x = Mem.read m x := by
  induction bs generalizing m a with
  | nil => rfl
  | cons b bs ih =>
    have hl : (b :: bs).length = bs.length + 1 := rfl
    rw [Mem.writeBytes, ih _ _ (Mem.write_wf m a b hm) (by omega), Mem.read_write_other m a x b hm (by omega)]

/-- Each byte of a write of several bytes reads back. -/
theorem Mem.read_writeBytes_same (bs : List Byte) (m : Mem) (a i : Nat) (hm : Mem.wf m = true) (h : i < bs.length) :
    Mem.read (Mem.writeBytes m a bs) (a + i) = bs.getD i 0 := by
  induction bs generalizing m a i with
  | nil => exact absurd h (Nat.not_lt_zero _)
  | cons b bs ih =>
    have hw := Mem.write_wf m a b hm
    cases i with
    | zero =>
      exact (Mem.read_writeBytes_other bs _ (a + 1) a hw (Or.inl (Nat.lt_succ_self a))).trans
        (Mem.read_write_same m a b hm)
    | succ i =>
      have hl : (b :: bs).length = bs.length + 1 := rfl
      rw [Mem.writeBytes, show a + (i + 1) = a + 1 + i by omega, ih _ _ _ hw (by omega)]
      rfl

/-! ## Operations of the machine on memory -/

theorem State.writeHome_wf (s : State) (pa : Nat) (bs : List Byte) (h : Mem.wf s.mem = true) :
    Mem.wf (s.writeHome pa bs).mem = true := Mem.writeBytes_wf bs s.mem pa h

/-- A property that every step of a fold keeps holds at its end. -/
theorem foldl_keeps {α β : Type} (P : α → Prop) (f : α → β → α) (hf : ∀ a x, P a → P (f a x)) (l : List β) (a : α) (h : P a) :
    P (l.foldl f a) := by
  induction l generalizing a with
  | nil => exact h
  | cons x l ih => exact ih _ (hf a x h)

theorem logEntry_wf (s : State) (kind die place count addr : Nat) (h : Mem.wf s.mem = true) :
    Mem.wf (logEntry s kind die place count addr).mem = true :=
  State.writeHome_wf _ _ _ (State.writeHome_wf _ _ _ h)

/-! What passes through the L2 keeps physical memory canonical; where no storage holds an error it changes the L2, the poison
and the free values only. -/

theorem l2DropSector_wf (v : L2Line) (s : State) (i : Nat) (h : Mem.wf s.mem = true) :
    Mem.wf (l2DropSector v s i).mem = true := by
  have h1 : ∀ b : Bool, Mem.wf (if b then { s with flaws := s.flaws.filter (· != .l2 (8 * v.line + i)) } else s).mem = true := by
    intro b; cases b <;> exact h
  unfold l2DropSector
  dsimp only
  split
  · exact h1 _
  · split
    · exact h1 _
    · exact logEntry_wf _ _ _ _ _ _ (h1 _)

theorem l2Drop_wf (s : State) (v : L2Line) (h : Mem.wf s.mem = true) : Mem.wf (l2Drop s v).mem = true :=
  foldl_keeps (fun s : State => Mem.wf s.mem = true) _ (fun _ _ ha => l2DropSector_wf _ _ _ ha) _ _ h

theorem l2Fit_wf (line fuel : Nat) (s : State) (h : Mem.wf s.mem = true) : Mem.wf (l2Fit line fuel s).mem = true := by
  induction fuel generalizing s with
  | zero => exact h
  | succ fuel ih =>
    unfold l2Fit
    dsimp only
    repeat' split
    all_goals first | exact h | exact ih _ (l2Drop_wf _ _ h)

theorem l2Touch_wf (s : State) (pa : Nat) (dirty whole : Bool) (h : Mem.wf s.mem = true) :
    Mem.wf (l2Touch s pa dirty whole).mem = true := by
  unfold l2Touch
  dsimp only
  repeat' split
  all_goals first | exact h | exact l2Fit_wf _ _ _ h

theorem l2Write_wf (s : State) (pa n : Nat) (h : Mem.wf s.mem = true) : Mem.wf (l2Write s pa n).mem = true :=
  foldl_keeps (fun s : State => Mem.wf s.mem = true) _ (fun _ _ ha => l2Touch_wf _ _ _ _ ha) _ _ h

/-- Only the L2, the poison and the free values of a machine without errors differ. -/
def L2Only (s t : State) : Prop := ∃ l p n, t = { s with l2 := l, poison := p, fresh := n }

theorem L2Only.refl (s : State) : L2Only s s := ⟨s.l2, s.poison, s.fresh, rfl⟩
theorem L2Only.trans {s t u : State} (h : L2Only s t) (h' : L2Only t u) : L2Only s u := by
  obtain ⟨l, p, n, rfl⟩ := h
  obtain ⟨l', p', n', rfl⟩ := h'
  exact ⟨l', p', n', rfl⟩
theorem L2Only.flaws {s t : State} (h : L2Only s t) : t.flaws = s.flaws := by obtain ⟨l, p, n, rfl⟩ := h; rfl

/-- A fold of steps that only change the L2 only changes the L2. -/
theorem foldl_l2Only {β : Type} (f : State → β → State) (hf : ∀ a x, a.flaws = [] → L2Only a (f a x)) (l : List β) (s : State)
    (h : s.flaws = []) : L2Only s (l.foldl f s) := by
  induction l generalizing s with
  | nil => exact .refl s
  | cons x l ih => exact (hf s x h).trans (ih _ ((hf s x h).flaws.trans h))

theorem l2Drop_sound (s : State) (v : L2Line) (h : s.flaws = []) : L2Only s (l2Drop s v) := by
  refine L2Only.trans (t := { s with l2 := s.l2.filter (·.line != v.line) }) ⟨_, s.poison, s.fresh, rfl⟩ ?_
  refine foldl_l2Only _ (fun a i ha => ?_) _ _ h
  unfold l2DropSector
  rw [ha]
  cases v.dirty.getLsbD i with
  | false => exact .refl a
  | true => exact ⟨a.l2, a.poison.filter (· != 8 * v.line + i), a.fresh, rfl⟩

theorem l2Fit_sound (line fuel : Nat) (s : State) (h : s.flaws = []) : L2Only s (l2Fit line fuel s) := by
  induction fuel generalizing s with
  | zero => exact .refl s
  | succ fuel ih =>
    unfold l2Fit
    dsimp only
    split
    · exact .refl s
    · split
      · rename_i v _
        have h1 : L2Only s s.takeFree.2 := ⟨s.l2, s.poison, s.fresh + 1, rfl⟩
        have h2 := l2Drop_sound s.takeFree.2 v h
        exact (h1.trans h2).trans (ih _ (h2.flaws.trans h))
      · exact .refl s

theorem l2Touch_sound (s : State) (pa : Nat) (dirty whole : Bool) (h : s.flaws = []) :
    L2Only s (l2Touch s pa dirty whole) := by
  have hw : (if whole then { s with flaws := s.flaws.filter (· != .l2 (pa / 64)) } else s) = s := by
    cases s; simp only at h; subst h; cases whole <;> rfl
  unfold l2Touch
  dsimp only
  rw [hw]
  split
  · exact .refl s
  · have h1 : ∀ X : List L2Line, L2Only s { s with l2 := X } := fun X => ⟨X, s.poison, s.fresh, rfl⟩
    repeat' split
    all_goals first | exact h1 _ | exact (h1 _).trans (l2Fit_sound _ _ _ h)

theorem l2Read_sound (s : State) (pa n : Nat) (h : s.flaws = []) : L2Only s (l2Read s pa n) :=
  foldl_l2Only _ (fun _ _ ha => l2Touch_sound _ _ _ _ ha) _ _ h
theorem l2Write_sound (s : State) (pa n : Nat) (h : s.flaws = []) : L2Only s (l2Write s pa n) :=
  foldl_l2Only _ (fun _ _ ha => l2Touch_sound _ _ _ _ ha) _ _ h

theorem engineWrite_wf (s : State) (pa : Nat) (bs : List Byte) (h : Mem.wf s.mem = true) :
    Mem.wf (engineWrite s pa bs).mem = true := l2Write_wf _ _ _ (Mem.writeBytes_wf bs s.mem pa h)
theorem registerWord_wf (s : State) (w : L1Word) (pa : Nat) (h : Mem.wf s.mem = true) :
    Mem.wf (registerWord s w pa).mem = true := l2Write_wf _ _ _ (Mem.writeBytes_wf _ s.mem pa h)
theorem dropWord_mem (s : State) (w : L1Word) : (dropWord s w).mem = s.mem := rfl
theorem acquireCore_mem (s : State) (core : Nat) : (acquireCore s core).mem = s.mem := rfl

/-- A translation changes nothing but the TLBs, and takes free values. -/
theorem tlbInsert_state (s : State) (e : TlbEntry) : ∃ l n, tlbInsert s e = { s with tlb := l, fresh := n } := by
  unfold tlbInsert
  dsimp only
  split
  · exact ⟨_, s.fresh, rfl⟩
  · exact ⟨_, s.fresh + 1, rfl⟩
theorem lookupFrom_state (s : State) (ctx va : Nat) (as : List TlbAt) :
    ∃ l n, (lookupFrom s ctx va as).1 = { s with tlb := l, fresh := n } := by
  induction as with
  | nil => exact ⟨s.tlb, s.fresh, rfl⟩
  | cons a as ih =>
    obtain ⟨l, n, h⟩ := ih
    unfold lookupFrom
    split
    · exact ⟨s.tlb, s.fresh, rfl⟩
    · split <;> rename_i e <;> rw [e] at h <;> simp only at h <;> subst h
      · obtain ⟨l', n', h'⟩ := tlbInsert_state { s with tlb := l, fresh := n } { ‹TlbEntry› with at_ := a }
        exact ⟨l', n', h'⟩
      · exact ⟨l, n, rfl⟩
theorem translate_state (s : State) (a : TlbAt) (ctx : Nat) (va : DWord) (sup : Bool) (k : AccKind) :
    ∃ l n, (translate s a ctx va sup k).1 = { s with tlb := l, fresh := n } := by
  unfold translate
  split
  · exact ⟨s.tlb, s.fresh, rfl⟩
  · have h := lookupFrom_state s ctx va.toNat a.path
    unfold lookup
    split <;> rename_i e <;> rw [e] at h <;> exact h
theorem translateRange_state (fuel : Nat) (s : State) (a : TlbAt) (ctx : Nat) (sup : Bool) (k : AccKind) (va n : Nat) :
    ∃ l m, (translateRange s a ctx sup k fuel va n).1 = { s with tlb := l, fresh := m } := by
  induction fuel generalizing s va n with
  | zero => exact ⟨s.tlb, s.fresh, rfl⟩
  | succ fuel ih =>
    unfold translateRange
    split
    · exact ⟨s.tlb, s.fresh, rfl⟩
    · obtain ⟨l, m, h⟩ := translate_state s a ctx (BitVec.ofNat 64 va) sup k
      split <;> rename_i e <;> rw [e] at h
      · exact ⟨l, m, h⟩
      · rename_i s' pa
        obtain ⟨l', m', h'⟩ := ih s' (va + min n (4096 - va % 4096)) (n - min n (4096 - va % 4096))
        simp only at h
        subst h
        dsimp only
        split <;> rename_i e' <;> rw [e'] at h' <;> exact ⟨l', m', h'⟩
theorem translate_mem (s : State) (a : TlbAt) (ctx : Nat) (va : DWord) (sup : Bool) (k : AccKind) :
    (translate s a ctx va sup k).1.mem = s.mem := by
  obtain ⟨l, n, h⟩ := translate_state s a ctx va sup k
  rw [h]

theorem writeBackWord_wf (s : State) (w : L1Word) (h : Mem.wf s.mem = true) : Mem.wf (writeBackWord s w).1.mem = true := by
  unfold writeBackWord
  split
  · have ht := translate_mem s (.core w.core) w.ctx w.va w.sup .write
    split
    · rename_i e; rw [e] at ht; rw [dropWord_mem, ht]; exact h
    · rename_i s' pa e
      rw [e] at ht
      have hs : Mem.wf s'.mem = true := by rw [← h, ← ht]
      split
      · exact hs
      · have h' := registerWord_wf s' w pa hs
        dsimp only
        split
        · exact h'
        · exact h'
  · split
    · exact h
    · exact registerWord_wf s w w.pa h

/-- A write to a place keeps physical memory canonical. -/
theorem State.writePlace_wf (s : State) (p : Place) (a : Nat) (bs : List Byte) (h : Mem.wf s.mem = true) :
    Mem.wf (s.writePlace p a bs).mem = true := by
  have hm : ∀ (s : State) (hit : Flaw → Bool), (s.mend hit).mem = s.mem := fun s hit => by unfold State.mend; split <;> rfl
  cases p
  case phys => exact engineWrite_wf s a bs h
  case task =>
    show Mem.wf (State.mend _ _).mem = true
    rw [hm]
    unfold State.setPlace
    dsimp only
    repeat' split
    all_goals exact h
  all_goals
    show Mem.wf (State.mend _ _).mem = true
    rw [hm]
    exact h

end Sys2Proof.Machine
end

