-- ==== Sys2Proof/Laws/One.lean ====
section
/-!
SUPPORT. A group of one thread: what its issue leaves when its lane executes, jumps, waits or traps; the end of the issue
touches no other crew and no other part of the machine.
-/
namespace Sys2Proof.Machine

variable {i : Instr} {s s' : State} {c : CRef} {w : Crew} {l : Nat}

theorem One.refs (h : One i s c w l) : s.cur.refs = [⟨c.team, c.crew, l⟩] := by
  rw [refs_eq s.cur h.ready.lanes, lanesOf_one l h.lane]; rfl
theorem One.thread (h : One i s c w l) : s.thread ⟨c.team, c.crew, l⟩ = w.thread l := State.thread_of s c w l h.ready.crew

theorem laneBit_self (l : Nat) (h : l < 64) : (laneBit l).getLsbD l = true := by revert l; decide
theorem laneBit_other (l n : Nat) (h : l < 64) (hn : n ≠ l) : (laneBit l).getLsbD n = false := by
  cases hb : (laneBit l).getLsbD n with
  | false => rfl
  | true =>
    have : n ∈ lanesOf (laneBit l) := (mem_lanesOf n).2 hb
    rw [lanesOf_one l h, List.mem_singleton] at this
    exact absurd this hn

/-- The lane of a group of one thread. -/
theorem eachLane_one (h : One i s c w l) (f : TRef → State → LaneRes) :
    s.eachLane i f = match f ⟨c.team, c.crew, l⟩ s with
      | .ok s' => s'
      | .jump s' => { s' with cur := s'.cur.finished ⟨c.team, c.crew, l⟩ }
      | .stall s' => { s' with cur := s'.cur.drop ⟨c.team, c.crew, l⟩ }
      | .trap s' k => { s' with cur := s'.cur.fault ⟨c.team, c.crew, l⟩ k } := by
  rw [eachLane_eq, h.refs, List.foldl_cons, List.foldl_nil]
  unfold laneStep
  rw [h.thread, h.guarded, if_pos rfl]
  all_goals (cases f ⟨c.team, c.crew, l⟩ s <;> rfl)

/-- Without its one thread a group is empty. -/
theorem drop_one (h : One i s c w l) : (s.cur.drop ⟨c.team, c.crew, l⟩).lanes = [] := by
  have hz : laneBit l &&& ~~~laneBit l = 0 := BitVec.and_not_self _
  unfold Group.drop TRef.cref
  rw [h.ready.lanes]
  simp [hz]

/-! ## The end of an issue of one crew -/

/-- What an issue has made of the machine when it ends without a trap: its lanes are the bits `adv` and `done` of one crew. -/
theorem finish_crews (i : Instr) (s s' : State) (c : CRef) (w : Crew) (adv done : BitVec 64) (hw : s.crew? c = some w)
    (ht : s'.cur.traps = []) (h1 : s'.traces = []) (h2 : s'.trials = [])
    (ha : maskFor s'.cur.lanes c = adv) (hd : maskFor s'.cur.done c = done)
    (hna : ∀ d, d ≠ c → maskFor s'.cur.lanes d = 0) (hnd : ∀ d, d ≠ c → maskFor s'.cur.done d = 0) :
    finish i s s' = { s' with crews := (finish i s s').crews, cur := Group.none } ∧
      (∀ d, d ≠ c → (finish i s s').crew? d = s'.crew? d) ∧
      (finish i s s').crew? c = (s'.crew? c).map fun y =>
        finishCrew i s'.cycle s'.cur.len s'.cur.effect (s'.isDet c.team) adv done w y := by
  have hcrew : ∀ d, Tbl.at? (s'.crews.map fun x => (x.1, finishCrew i s'.cycle s'.cur.len s'.cur.effect
      (s'.isDet x.1.team) (maskFor s'.cur.lanes x.1) (maskFor s'.cur.done x.1) ((s.crew? x.1).getD x.2) x.2)) d = (Tbl.at? s'.crews d).map fun y =>
        finishCrew i s'.cycle s'.cur.len s'.cur.effect (s'.isDet d.team) (maskFor s'.cur.lanes d) (maskFor s'.cur.done d)
          ((s.crew? d).getD y) y := by
    intro d
    rw [Tbl.at?_map _ (fun k y => finishCrew i s'.cycle s'.cur.len s'.cur.effect (s'.isDet k.team) (maskFor s'.cur.lanes k)
      (maskFor s'.cur.done k) ((s.crew? k).getD y) y) d]
  rw [finish_quiet i s s' ht h1 h2]
  refine ⟨rfl, fun d hd' => ?_, ?_⟩
  · refine (hcrew d).trans ?_
    rw [hna d hd', hnd d hd']
    show _ = Tbl.at? s'.crews d
    cases Tbl.at? s'.crews d with
    | none => rfl
    | some y => exact congrArg some (finishCrew_zero ..)
  · refine (hcrew c).trans ?_
    rw [ha, hd, hw]
    rfl

theorem map_finishCrew_zero (i : Instr) (cycle : Nat) (len : DWord) (e : Bool) (d : CRef → Bool) (g : CRef → Crew → Crew)
    (k : CRef → Crew → Crew) (t : Tbl CRef Crew) :
    t.map (fun x => (x.1, k x.1 (finishCrew i cycle len e (d x.1) 0 0 (g x.1 x.2) x.2))) = t.map fun x => (x.1, k x.1 x.2) := by
  simp only [finishCrew_zero]

/-- The end of an issue in which no lane executed. -/
theorem finish_none (i : Instr) (s s' : State) (hl : s'.cur.lanes = []) (hd : s'.cur.done = []) (h1 : s'.traces = [])
    (h2 : s'.trials = []) : finish i s s' = finishTraps s' := by
  have hm : ∀ d : CRef, maskFor ([] : List (CRef × BitVec 64)) d = 0 := fun _ => rfl
  have hz : ((0 : BitVec 64) ||| 0 != 0) = false := rfl
  unfold finish watchIssue finishTraps
  simp only [hl, hd, hm, hz, h1, h2, List.isEmpty_nil, Bool.and_self, if_true]
  rw [map_finishCrew_zero i s'.cycle s'.cur.len s'.cur.effect (fun x => s'.isDet x.team) (fun k y => (s.crew? k).getD y)
    (fun k y => y.served (s'.isDet k.team) (pageLanes s'.cur.traps k) false)]

/-- Without a trap the end of such an issue changes nothing but the group. -/
theorem finishTraps_nil (s : State) (h : s.cur.traps = []) : finishTraps s = { s with cur := Group.none } := by
  have hm : s.crews.map (fun x => (x.1, x.2.served (s.isDet x.1.team) (pageLanes [] x.1) false)) = s.crews :=
    (List.map_congr_left fun _ _ => rfl).trans (List.map_id _)
  unfold finishTraps
  rw [h]
  simp only [enterTraps_nil, hm]

/-! ## The outcomes of one thread -/

/-- The thread executes and is finished. -/
theorem oneThread_fin (h : One i s c w l) (f : TRef → State → LaneRes) (he : ∃ body, exec i s = issue i s body ∧ body s = s.eachLane i f)
    (hf : f ⟨c.team, c.crew, l⟩ s = .ok s') (hl : s'.cur.lanes = s.cur.lanes) (hd : s'.cur.done = s.cur.done)
    (ht : s'.cur.traps = s.cur.traps) (hk : s'.cur.code = s.cur.code) (h1 : s'.traces = s.traces) (h2 : s'.trials = s.trials)
    (h3 : s'.flaws = s.flaws)
    (y : Crew) (hy : s'.crew? c = some y) (yk : y.k = w.k) (ym : y.mask = w.mask)
    (yr : y.retired = w.retired) (yt : ∀ n, n ≠ l → y.thread n = w.thread n) (q : Thread → Thread → Prop)
    (hq : ∀ det ce, q (w.thread l)
      (finishThread i s'.cycle det ce (some s.cur.len) (w.thread l) (y.thread l) (crossTaint i w (laneBit l) l))) :
    OneThread i s c w l s' q := by
  obtain ⟨r1, r2, r3⟩ := finish_crews i s s' c w (laneBit l) 0 h.ready.crew (ht.trans h.ready.traps)
    (h1.trans h.ready.untraced) (h2.trans h.ready.untried) (by rw [hl, h.ready.lanes, maskFor_single])
    (by rw [hd, h.ready.done]; rfl) (fun d hn => by rw [hl, h.ready.lanes, maskFor_single_ne _ _ _ hn])
    (fun d _ => by rw [hd, h.ready.done]; rfl)
  have hlen : s'.cur.len = s.cur.len := by unfold Group.len; rw [hk]
  have hfin := finishCrew_keeps i s'.cycle s'.cur.len s'.cur.effect (s'.isDet c.team) (laneBit l) 0 w y h.ready.nonzero
    h.ready.unserved
  rw [hy] at r3
  refine ⟨finish i s s', _, ?_, r3, r1, r2, hfin.1.trans yk, hfin.2.1.trans ym,
    by rw [hfin.2.2, yr], fun n hn => ?_, ?_⟩
  · obtain ⟨body, he, hb⟩ := he
    have hfl : (body s).flaws = [] := by rw [hb, eachLane_one h, hf]; exact h3.trans h.ready.sound
    rw [he, issue_ready h.ready _ hfl, hb, eachLane_one h, hf]
  · rw [thread_finishCrew_other _ _ _ _ _ _ _ _ _ (laneBit_other l n h.lane hn), yt n hn]
  · rw [thread_finishCrew _ _ _ _ _ _ _ _ _ (laneBit_self l h.lane), hlen]
    exact hq _ _

/-- The thread executes and goes on. -/
theorem oneThread_ok (h : One i s c w l) (f : TRef → State → LaneRes) (he : ∃ body, exec i s = issue i s body ∧ body s = s.eachLane i f)
    (hf : f ⟨c.team, c.crew, l⟩ s = .ok s') (hl : s'.cur.lanes = s.cur.lanes) (hd : s'.cur.done = s.cur.done)
    (ht : s'.cur.traps = s.cur.traps) (hk : s'.cur.code = s.cur.code) (h1 : s'.traces = s.traces) (h2 : s'.trials = s.trials)
    (h3 : s'.flaws = s.flaws)
    (y : Crew) (hy : s'.crew? c = some y) (yk : y.k = w.k) (ym : y.mask = w.mask)
    (yr : y.retired = w.retired) (yt : ∀ n, n ≠ l → y.thread n = w.thread n) (q : Thread → Thread → Prop)
    (hq : ∀ b tg tp sp xl xm li ra rk, b =
        { y.thread l with pc := (y.thread l).pc + s.cur.len, taintG := tg, taintP := tp, spin := sp, xlit := xl, xmod := xm,
                          lastIssue := li, readyAt := ra, rankAt := rk, pass := false, window := none } → q (w.thread l) b) :
    OneThread i s c w l s' q := by
  refine oneThread_fin h f he hf hl hd ht hk h1 h2 h3 y hy yk ym yr yt q fun det ce => ?_
  obtain ⟨tg, tp, sp, xl, xm, ra, rk, hb⟩ := finishThread_eq i s'.cycle det ce s.cur.len (w.thread l) (y.thread l)
    (crossTaint i w (laneBit l) l)
  exact hq _ tg tp sp xl xm _ ra rk hb

/-- What the end of an issue leaves in a lane that set its own PC. -/
theorem thread_finishCrew_done (i : Instr) (cycle : Nat) (len : DWord) (e det : Bool) (done : BitVec 64) (c0 c : Crew)
    (l : Nat) (h : done.getLsbD l = true) :
    (finishCrew i cycle len e det 0 done c0 c).thread l =
      finishThread i cycle det (crewEffect i c0 c) none (c0.thread l) (c.thread l) (crossTaint i c0 done l) := by
  have ho : (0 : BitVec 64) ||| done = done := by simp
  have hn : ¬ ((0 : BitVec 64) ||| done = 0) := by
    intro h0; rw [ho] at h0; rw [h0] at h; simp at h
  unfold finishCrew
  rw [if_neg hn]
  refine (Crew.thread_mapIdx c _ _ l (threads_countQuiet ..)).trans ?_
  rw [if_pos (lane_lt done l h), ho]
  simp [h, crewEffect]
theorem thread_finishCrew_done_other (i : Instr) (cycle : Nat) (len : DWord) (e det : Bool) (done : BitVec 64) (c0 c : Crew)
    (l : Nat) (h : done.getLsbD l = false) : (finishCrew i cycle len e det 0 done c0 c).thread l = c.thread l := by
  unfold finishCrew
  split
  · rfl
  · refine (Crew.thread_mapIdx c _ _ l (threads_countQuiet ..)).trans ?_
    simp [h]

/-- The end of an issue in a thread that set its own PC is that of one that advances by 0. -/
theorem finishThread_none (i : Instr) (cycle : Nat) (det ce : Bool) (t0 t : Thread) (k : Bool) :
    finishThread i cycle det ce none t0 t k = finishThread i cycle det ce (some 0) t0 t k := by
  have h : ({ t with pc := t.pc + 0 } : Thread) = t := by simp
  unfold finishThread
  simp only [h]

/-- The thread executes and sets its own PC. -/
theorem oneThread_jump (h : One i s c w l) (f : TRef → State → LaneRes) (he : ∃ body, exec i s = issue i s body ∧ body s = s.eachLane i f)
    (hf : f ⟨c.team, c.crew, l⟩ s = .jump s') (hc : s'.cur = s.cur) (h1 : s'.traces = s.traces) (h2 : s'.trials = s.trials)
    (h3 : s'.flaws = s.flaws)
    (y : Crew) (hy : s'.crew? c = some y) (yk : y.k = w.k) (ym : y.mask = w.mask)
    (yr : y.retired = w.retired) (yt : ∀ n, n ≠ l → y.thread n = w.thread n) (q : Thread → Thread → Prop)
    (hq : ∀ b tg tp sp xl xm li ra rk, b =
        { y.thread l with taintG := tg, taintP := tp, spin := sp, xlit := xl, xmod := xm, lastIssue := li, readyAt := ra, rankAt := rk, pass := false, window := none } → q (w.thread l) b) :
    OneThread i s c w l s' q := by
  let g : Group := s'.cur.finished ⟨c.team, c.crew, l⟩
  have hgl : g.lanes = [] := by show (s'.cur.drop _).lanes = []; rw [hc]; exact drop_one h
  have hgd : g.done = [(c, laneBit l)] := by
    show addLane s'.cur.done _ = _
    rw [hc, h.ready.done]
    unfold addLane maskFor TRef.cref
    simp [Tbl.put, Tbl.at?]
  have hgt : g.traps = [] := by show s'.cur.traps = []; rw [hc]; exact h.ready.traps
  obtain ⟨r1, r2, r3⟩ := finish_crews i s { s' with cur := g } c w 0 (laneBit l) h.ready.crew hgt
    (h1.trans h.ready.untraced) (h2.trans h.ready.untried) (by show maskFor g.lanes c = 0; rw [hgl]; rfl)
    (by show maskFor g.done c = _; rw [hgd, maskFor_single]) (fun d hn => by show maskFor g.lanes d = 0; rw [hgl]; rfl)
    (fun d hn => by show maskFor g.done d = 0; rw [hgd, maskFor_single_ne _ _ _ hn])
  have hnz : ¬ ((0 : BitVec 64) ||| laneBit l = 0) := by
    intro h0; exact h.ready.group (by simpa using h0)
  have hfin : ∀ cy len e d, let z := finishCrew i cy len e d 0 (laneBit l) w y
      z.k = y.k ∧ z.mask = y.mask ∧ z.retired = y.retired + 1 :=
    fun cy len e d => finishCrew_keeps i cy len e d 0 (laneBit l) w y hnz h.ready.unserved
  have hy' : ({ s' with cur := g } : State).crew? c = some y := hy
  rw [hy'] at r3
  refine ⟨finish i s { s' with cur := g }, _, ?_, r3, r1, r2, (hfin _ _ _ _).1.trans yk,
    (hfin _ _ _ _).2.1.trans ym, by rw [(hfin _ _ _ _).2.2, yr], fun n hn => ?_, ?_⟩
  · obtain ⟨body, he, hb⟩ := he
    have hfl : (body s).flaws = [] := by rw [hb, eachLane_one h, hf]; exact h3.trans h.ready.sound
    rw [he, issue_ready h.ready _ hfl, hb, eachLane_one h, hf]
  · rw [thread_finishCrew_done_other _ _ _ _ _ _ _ _ _ (laneBit_other l n h.lane hn), yt n hn]
  · rw [thread_finishCrew_done _ _ _ _ _ _ _ _ _ (laneBit_self l h.lane), finishThread_none]
    obtain ⟨tg, tp, sp, xl, xm, ra, rk, hb⟩ := finishThread_eq i s'.cycle _ _ 0 (w.thread l) (y.thread l)
      (crossTaint i w (laneBit l) l)
    have h0 : (y.thread l).pc + 0 = (y.thread l).pc := BitVec.add_zero _
    rw [h0] at hb
    exact hq _ tg tp sp xl xm s'.cycle ra rk hb

/-- A crew after a change of one of its threads. -/
theorem setThread_crew (u : State) (c : CRef) (w : Crew) (l : Nat) (g : Thread → Thread) (hu : u.crew? c = some w) :
    (u.setThread ⟨c.team, c.crew, l⟩ g).crew? c = some (w.setThread l g) := by
  have hu' : Tbl.at? u.crews c = some w := hu
  show Tbl.at? (Tbl.upd u.crews c fun k => k.setThread l g) c = _
  rw [Tbl.at?_upd, if_pos rfl, hu']; rfl
theorem setThread_other (u : State) (c d : CRef) (l : Nat) (g : Thread → Thread) (hd : d ≠ c) :
    (u.setThread ⟨c.team, c.crew, l⟩ g).crew? d = u.crew? d := by
  show Tbl.at? (Tbl.upd u.crews c fun k => k.setThread l g) d = _
  rw [Tbl.at?_upd, if_neg hd]; rfl

/-- The threads of the crew itself are no part of what `OneThread` says of the rest of the machine. -/
theorem oneThread_crews {u : State} {g : Thread → Thread} {q : Thread → Thread → Prop}
    (h : OneThread i s c w l (u.setThread ⟨c.team, c.crew, l⟩ g) q) : OneThread i s c w l u q := by
  obtain ⟨t, w', he, hw, ht, ho, hr⟩ := h
  exact ⟨t, w', he, hw, ht, fun d hd => (ho d hd).trans (setThread_other u c d l g hd), hr⟩

/-- The thread executes: it becomes `g` of itself, the rest of the machine `u`. -/
theorem oneThread_set (h : One i s c w l) (f : TRef → State → LaneRes) (he : ∃ body, exec i s = issue i s body ∧ body s = s.eachLane i f)
    (u : State) (g : Thread → Thread) (hf : f ⟨c.team, c.crew, l⟩ s = .ok (u.setThread ⟨c.team, c.crew, l⟩ g))
    (hu : u.crews = s.crews) (hc : u.cur = s.cur) (h1 : u.traces = s.traces) (h2 : u.trials = s.trials)
    (h3 : u.flaws = s.flaws)
    (q : Thread → Thread → Prop)
    (hq : ∀ b tg tp sp xl xm li ra rk, b =
        { g (w.thread l) with pc := (g (w.thread l)).pc + s.cur.len, taintG := tg, taintP := tp, spin := sp, xlit := xl,
                              xmod := xm, lastIssue := li, readyAt := ra, rankAt := rk, pass := false, window := none } → q (w.thread l) b) :
    OneThread i s c w l u q := by
  have hw : u.crew? c = some w := by unfold State.crew?; rw [hu]; exact h.ready.crew
  have hg : (w.setThread l g).thread l = g (w.thread l) := by rw [Crew.thread_setThread, if_pos ⟨rfl, h.lane⟩]
  refine oneThread_crews (oneThread_ok h f he hf (congrArg Group.lanes hc) (congrArg Group.done hc) (congrArg Group.traps hc)
    (congrArg Group.code hc) h1 h2 h3 _ (setThread_crew u c w l g hw) rfl rfl rfl
    (fun n hn => by rw [Crew.thread_setThread, if_neg (fun e => hn e.1)]) q ?_)
  rw [hg]
  exact hq

/-- The same for a thread that sets its own PC. -/
theorem oneThread_jumps (h : One i s c w l) (f : TRef → State → LaneRes) (he : ∃ body, exec i s = issue i s body ∧ body s = s.eachLane i f)
    (u : State) (g : Thread → Thread) (hf : f ⟨c.team, c.crew, l⟩ s = .jump (u.setThread ⟨c.team, c.crew, l⟩ g))
    (hu : u.crews = s.crews) (hc : u.cur = s.cur) (h1 : u.traces = s.traces) (h2 : u.trials = s.trials)
    (h3 : u.flaws = s.flaws)
    (q : Thread → Thread → Prop)
    (hq : ∀ b tg tp sp xl xm li ra rk, b =
        { g (w.thread l) with taintG := tg, taintP := tp, spin := sp, xlit := xl, xmod := xm, lastIssue := li,
                              readyAt := ra, rankAt := rk, pass := false, window := none } → q (w.thread l) b) :
    OneThread i s c w l u q := by
  have hw : u.crew? c = some w := by unfold State.crew?; rw [hu]; exact h.ready.crew
  have hg : (w.setThread l g).thread l = g (w.thread l) := by rw [Crew.thread_setThread, if_pos ⟨rfl, h.lane⟩]
  refine oneThread_crews (oneThread_jump h f he hf hc h1 h2 h3 _ (setThread_crew u c w l g hw) rfl rfl rfl
    (fun n hn => by rw [Crew.thread_setThread, if_neg (fun e => hn e.1)]) q ?_)
  rw [hg]
  exact hq

/-- The thread traps. -/
theorem traps_of (h : One i s c w l) (f : TRef → State → LaneRes) (he : ∃ body, exec i s = issue i s body ∧ body s = s.eachLane i f)
    (k : Cause) (hf : f ⟨c.team, c.crew, l⟩ s = .trap s k) : Traps i s c l k := by
  unfold Traps
  obtain ⟨body, he, hb⟩ := he
  have hfl : (body s).flaws = [] := by rw [hb, eachLane_one h, hf]; exact h.ready.sound
  rw [he, issue_ready h.ready _ hfl, hb, eachLane_one h, hf]
  dsimp only
  rw [finish_none i s { s with cur := s.cur.fault ⟨c.team, c.crew, l⟩ k } (drop_one h) h.ready.done h.ready.untraced
    h.ready.untried]
  have : s.cur.fault ⟨c.team, c.crew, l⟩ k = { s.cur with lanes := [], traps := [(⟨c.team, c.crew, l⟩, k)] } := by
    unfold Group.fault
    rw [show s.cur.drop ⟨c.team, c.crew, l⟩ = { s.cur with lanes := [] } by
      conv => lhs; unfold Group.drop
      exact congrArg (fun x => ({ s.cur with lanes := x } : Group)) (drop_one h)]
    rw [h.ready.traps]; rfl
  rw [this]

/-- The thread waits. -/
theorem waits_of (h : One i s c w l) (f : TRef → State → LaneRes) (he : ∃ body, exec i s = issue i s body ∧ body s = s.eachLane i f)
    (hf : f ⟨c.team, c.crew, l⟩ s = .stall s) : Waits i s := by
  unfold Waits
  obtain ⟨body, he, hb⟩ := he
  have hfl : (body s).flaws = [] := by rw [hb, eachLane_one h, hf]; exact h.ready.sound
  rw [he, issue_ready h.ready _ hfl, hb, eachLane_one h, hf]
  dsimp only
  rw [finish_none i s { s with cur := s.cur.drop ⟨c.team, c.crew, l⟩ } (drop_one h) h.ready.done h.ready.untraced
    h.ready.untried]
  exact congrArg _ (finishTraps_nil { s with cur := s.cur.drop ⟨c.team, c.crew, l⟩ } h.ready.traps)

/-! ## A quiet memory system -/

theorem Tbl.upd_same {κ β : Type} [DecidableEq κ] (t : Tbl κ β) (k : κ) (f : β → β)
    (h : ∀ v, Tbl.at? t k = some v → f v = v) : Tbl.upd t k f = t := by
  have hp : ∀ (t : Tbl κ β) v, Tbl.at? t k = some v → Tbl.put t k v = t := by
    intro t
    induction t with
    | nil => intro v hv; cases hv
    | cons x xs ih =>
      intro v hv
      obtain ⟨k', v'⟩ := x
      unfold Tbl.at? at hv
      unfold Tbl.put
      split
      · rename_i hk; rw [if_pos hk] at hv; cases hv; rw [hk]
      · rename_i hk; rw [if_neg hk] at hv; rw [ih v hv]
  unfold Tbl.upd
  split
  · rename_i v hv; rw [h v hv, hp t v hv]
  · rfl

theorem Quiet.busy (h : Quiet s c w) (p : Place) (a n : Nat) : s.isBusy p a n = false := by
  unfold State.isBusy; rw [h.engines]; rfl

theorem Quiet.dirtied (h : Quiet s c w) : s.dirtied c = [] := by
  unfold State.dirtied
  dsimp only
  rw [List.filter_eq_nil_iff]
  intro x hx hb
  simp only [Bool.and_eq_true, beq_iff_eq, bne_iff_ne, List.contains_iff_mem] at hb
  exact hb.1.2 (h.clean x hx hb.1.1 hb.2)

/-- No pending release holds back no words. -/
theorem tied_nil (s : State) : s.tied [] = [] := by
  have ho : s.owedWords [] = [] := by unfold State.owedWords; simp
  have hf : s.fenced [] = [] := by unfold State.fenced; rw [ho]; rfl
  unfold State.tied
  cases s.crews.length with
  | zero => rfl
  | succ n => unfold State.ties; rw [hf]; rfl

theorem tieBlocked_nil (s : State) : s.tieBlocked [] = false := by
  unfold State.tieBlocked; rw [tied_nil]; rfl

/-- Writing back no words changes nothing. -/
theorem writeBackAll_nil (s : State) : writeBackAll s [] = (s, []) := by
  have ho : s.owedWords [] = [] := by unfold State.owedWords; simp
  have hl : logUnmet s [] = s := rfl
  unfold writeBackAll
  rw [ho]
  rfl

theorem Quiet.relBlocked (h : Quiet s c w) : s.relBlocked c = false := by
  unfold State.relBlocked
  rw [h.dirtied, tieBlocked_nil]; rfl

/-- A release of a crew with nothing to write back. -/
theorem Quiet.release (h : Quiet s c w) (hc : s.crew? c = some w) (pc lanes : DWord) : release s c pc lanes = s := by
  unfold Machine.release
  rw [h.dirtied, tied_nil]
  change releaseNow s c pc lanes = s
  have hr : ∀ l, reportWriteBacks s 0 (some (c, pc)) l [] [] = s := fun _ => rfl
  unfold releaseNow
  rw [h.dirtied, writeBackAll_nil]
  dsimp only
  rw [hr]
  unfold State.setCrew
  rw [Tbl.upd_same]
  intro v hv
  have : v = w := by have := hv.symm.trans hc; cases this; rfl
  subst this
  rw [← h.unfenced]

theorem Quiet.afterRelease (h : Quiet s c w) (hc : s.crew? c = some w) (l : Nat) (f : State → LaneRes) :
    afterRelease s ⟨c.team, c.crew, l⟩ f = f s := by
  unfold Machine.afterRelease
  have hr : (⟨c.team, c.crew, l⟩ : TRef).cref = c := rfl
  rw [hr, h.relBlocked, h.release hc]
  simp
theorem Quiet.afterFence (h : Quiet s c w) (hc : s.crew? c = some w) (l : Nat) (f : State → LaneRes) :
    afterFence s ⟨c.team, c.crew, l⟩ f = f s := by
  unfold Machine.afterFence
  have hr : (⟨c.team, c.crew, l⟩ : TRef).cref = c := rfl
  rw [hr, hc]
  dsimp only
  rw [h.unfenced]
theorem Quiet.afterCommit (h : Quiet s c w) (l : Nat) (f : State → LaneRes) :
    afterCommit s ⟨c.team, c.crew, l⟩ f = f s := by
  have := h.direct
  unfold Machine.afterCommit earlyCommit State.commitBlocked
  dsimp only
  rw [this]; rfl

end Sys2Proof.Machine
end

