-- ==== Sys2Proof/Laws/PerInstr.lean ====
section
/-!
SUPPORT. The family RoundTrip: decoding the word of a well-formed instruction gives the instruction back, for each
constructor. Operations that have no word of their own meet it because the encoder gives them none.
-/
namespace Sys2Proof.Laws.RoundTrip

/-- Decoding the encoder's word of a well-formed instruction gives that instruction. -/
def Statement (i : Instr) : Prop := ∀ w, i.wf = true → encode i = some w → decodeWord w = .ok i

theorem iadd (f : R3u) : Statement (.iadd f) := fun w hw h => by
  obtain rfl := Option.some.inj h
  obtain ⟨sw, d, a, b, g, u⟩ := f
  cases u
  · exact decode_of_shape (shape_minor decodeMajor1 (readR3u 0) 1 0 (majorOf_of (packG3_mj ..)) (minorOf_of (packG3_mn ..)) (fun _ => rfl) (fun _ => rfl) (readR3u0_pack sw 1#6 d a b g _ false (by simp [bitNat]))) rfl rfl hw
  · exact decode_of_shape (shape_minor decodeMajor1 (readR3u 0) 1 1 (majorOf_of (packG3_mj ..)) (minorOf_of (packG3_mn ..)) (fun _ => rfl) (fun _ => rfl) (readR3u0_pack sw 1#6 d a b g _ true (by simp [bitNat]))) rfl rfl hw
theorem isub (f : R3u) : Statement (.isub f) := fun w hw h => by
  obtain rfl := Option.some.inj h
  obtain ⟨sw, d, a, b, g, u⟩ := f
  cases u
  · exact decode_of_shape (shape_minor decodeMajor1 (readR3u 0) 1 2 (majorOf_of (packG3_mj ..)) (minorOf_of (packG3_mn ..)) (fun _ => rfl) (fun _ => rfl) (readR3u0_pack sw 1#6 d a b g _ false (by simp [bitNat]))) rfl rfl hw
  · exact decode_of_shape (shape_minor decodeMajor1 (readR3u 0) 1 3 (majorOf_of (packG3_mj ..)) (minorOf_of (packG3_mn ..)) (fun _ => rfl) (fun _ => rfl) (readR3u0_pack sw 1#6 d a b g _ true (by simp [bitNat]))) rfl rfl hw
theorem imul (f : R3u) : Statement (.imul f) := fun w hw h => by
  obtain rfl := Option.some.inj h
  obtain ⟨sw, d, a, b, g, u⟩ := f
  cases u
  · exact decode_of_shape (shape_minor decodeMajor1 (readR3u 0) 1 4 (majorOf_of (packG3_mj ..)) (minorOf_of (packG3_mn ..)) (fun _ => rfl) (fun _ => rfl) (readR3u0_pack sw 1#6 d a b g _ false (by simp [bitNat]))) rfl rfl hw
  · exact decode_of_shape (shape_minor decodeMajor1 (readR3u 0) 1 5 (majorOf_of (packG3_mj ..)) (minorOf_of (packG3_mn ..)) (fun _ => rfl) (fun _ => rfl) (readR3u0_pack sw 1#6 d a b g _ true (by simp [bitNat]))) rfl rfl hw
theorem imulh (f : R3u) : Statement (.imulh f) := fun w hw h => by
  obtain rfl := Option.some.inj h
  obtain ⟨sw, d, a, b, g, u⟩ := f
  cases u
  · exact decode_of_shape (shape_minor decodeMajor1 (readR3u 0) 1 6 (majorOf_of (packG3_mj ..)) (minorOf_of (packG3_mn ..)) (fun _ => rfl) (fun _ => rfl) (readR3u0_pack sw 1#6 d a b g _ false (by simp [bitNat]))) rfl rfl hw
  · exact decode_of_shape (shape_minor decodeMajor1 (readR3u 0) 1 7 (majorOf_of (packG3_mj ..)) (minorOf_of (packG3_mn ..)) (fun _ => rfl) (fun _ => rfl) (readR3u0_pack sw 1#6 d a b g _ true (by simp [bitNat]))) rfl rfl hw
theorem imin (f : R3u) : Statement (.imin f) := fun w hw h => by
  obtain rfl := Option.some.inj h
  obtain ⟨sw, d, a, b, g, u⟩ := f
  cases u
  · exact decode_of_shape (shape_minor decodeMajor1 (readR3u 1) 1 8 (majorOf_of (packG3_mj ..)) (minorOf_of (packG3_mn ..)) (fun _ => rfl) (fun _ => rfl) (readR3u1_pack sw 1#6 d a b g _ false (by simp [bitNat]))) rfl rfl hw
  · exact decode_of_shape (shape_minor decodeMajor1 (readR3u 1) 1 10 (majorOf_of (packG3_mj ..)) (minorOf_of (packG3_mn ..)) (fun _ => rfl) (fun _ => rfl) (readR3u1_pack sw 1#6 d a b g _ true (by simp [bitNat]))) rfl rfl hw
theorem imax (f : R3u) : Statement (.imax f) := fun w hw h => by
  obtain rfl := Option.some.inj h
  obtain ⟨sw, d, a, b, g, u⟩ := f
  cases u
  · exact decode_of_shape (shape_minor decodeMajor1 (readR3u 1) 1 9 (majorOf_of (packG3_mj ..)) (minorOf_of (packG3_mn ..)) (fun _ => rfl) (fun _ => rfl) (readR3u1_pack sw 1#6 d a b g _ false (by simp [bitNat]))) rfl rfl hw
  · exact decode_of_shape (shape_minor decodeMajor1 (readR3u 1) 1 11 (majorOf_of (packG3_mj ..)) (minorOf_of (packG3_mn ..)) (fun _ => rfl) (fun _ => rfl) (readR3u1_pack sw 1#6 d a b g _ true (by simp [bitNat]))) rfl rfl hw
theorem div (f : R3u) : Statement (.div f) := fun w hw h => by
  obtain rfl := Option.some.inj h
  obtain ⟨sw, d, a, b, g, u⟩ := f
  cases u
  · exact decode_of_shape (shape_minor decodeMajor1 (readR3u 0) 1 12 (majorOf_of (packG3_mj ..)) (minorOf_of (packG3_mn ..)) (fun _ => rfl) (fun _ => rfl) (readR3u0_pack sw 1#6 d a b g _ false (by simp [bitNat]))) rfl rfl hw
  · exact decode_of_shape (shape_minor decodeMajor1 (readR3u 0) 1 13 (majorOf_of (packG3_mj ..)) (minorOf_of (packG3_mn ..)) (fun _ => rfl) (fun _ => rfl) (readR3u0_pack sw 1#6 d a b g _ true (by simp [bitNat]))) rfl rfl hw
theorem rem (f : R3u) : Statement (.rem f) := fun w hw h => by
  obtain rfl := Option.some.inj h
  obtain ⟨sw, d, a, b, g, u⟩ := f
  cases u
  · exact decode_of_shape (shape_minor decodeMajor1 (readR3u 0) 1 14 (majorOf_of (packG3_mj ..)) (minorOf_of (packG3_mn ..)) (fun _ => rfl) (fun _ => rfl) (readR3u0_pack sw 1#6 d a b g _ false (by simp [bitNat]))) rfl rfl hw
  · exact decode_of_shape (shape_minor decodeMajor1 (readR3u 0) 1 15 (majorOf_of (packG3_mj ..)) (minorOf_of (packG3_mn ..)) (fun _ => rfl) (fun _ => rfl) (readR3u0_pack sw 1#6 d a b g _ true (by simp [bitNat]))) rfl rfl hw
theorem iadd64 (f : R3u) : Statement (.iadd64 f) := fun w hw h => by
  obtain rfl := Option.some.inj h
  obtain ⟨sw, d, a, b, g, u⟩ := f
  cases u
  · exact decode_of_shape (shape_minor decodeMajor2 (readR3u 0) 2 0 (majorOf_of (packG3_mj ..)) (minorOf_of (packG3_mn ..)) (fun _ => rfl) (fun _ => rfl) (readR3u0_pack sw 2#6 d a b g _ false (by simp [bitNat]))) rfl rfl hw
  · exact decode_of_shape (shape_minor decodeMajor2 (readR3u 0) 2 1 (majorOf_of (packG3_mj ..)) (minorOf_of (packG3_mn ..)) (fun _ => rfl) (fun _ => rfl) (readR3u0_pack sw 2#6 d a b g _ true (by simp [bitNat]))) rfl rfl hw
theorem isub64 (f : R3u) : Statement (.isub64 f) := fun w hw h => by
  obtain rfl := Option.some.inj h
  obtain ⟨sw, d, a, b, g, u⟩ := f
  cases u
  · exact decode_of_shape (shape_minor decodeMajor2 (readR3u 0) 2 2 (majorOf_of (packG3_mj ..)) (minorOf_of (packG3_mn ..)) (fun _ => rfl) (fun _ => rfl) (readR3u0_pack sw 2#6 d a b g _ false (by simp [bitNat]))) rfl rfl hw
  · exact decode_of_shape (shape_minor decodeMajor2 (readR3u 0) 2 3 (majorOf_of (packG3_mj ..)) (minorOf_of (packG3_mn ..)) (fun _ => rfl) (fun _ => rfl) (readR3u0_pack sw 2#6 d a b g _ true (by simp [bitNat]))) rfl rfl hw
theorem imul64 (f : R3u) : Statement (.imul64 f) := fun w hw h => by
  obtain rfl := Option.some.inj h
  obtain ⟨sw, d, a, b, g, u⟩ := f
  cases u
  · exact decode_of_shape (shape_minor decodeMajor2 (readR3u 0) 2 4 (majorOf_of (packG3_mj ..)) (minorOf_of (packG3_mn ..)) (fun _ => rfl) (fun _ => rfl) (readR3u0_pack sw 2#6 d a b g _ false (by simp [bitNat]))) rfl rfl hw
  · exact decode_of_shape (shape_minor decodeMajor2 (readR3u 0) 2 5 (majorOf_of (packG3_mj ..)) (minorOf_of (packG3_mn ..)) (fun _ => rfl) (fun _ => rfl) (readR3u0_pack sw 2#6 d a b g _ true (by simp [bitNat]))) rfl rfl hw
theorem imulh64 (f : R3u) : Statement (.imulh64 f) := fun w hw h => by
  obtain rfl := Option.some.inj h
  obtain ⟨sw, d, a, b, g, u⟩ := f
  cases u
  · exact decode_of_shape (shape_minor decodeMajor2 (readR3u 0) 2 6 (majorOf_of (packG3_mj ..)) (minorOf_of (packG3_mn ..)) (fun _ => rfl) (fun _ => rfl) (readR3u0_pack sw 2#6 d a b g _ false (by simp [bitNat]))) rfl rfl hw
  · exact decode_of_shape (shape_minor decodeMajor2 (readR3u 0) 2 7 (majorOf_of (packG3_mj ..)) (minorOf_of (packG3_mn ..)) (fun _ => rfl) (fun _ => rfl) (readR3u0_pack sw 2#6 d a b g _ true (by simp [bitNat]))) rfl rfl hw
theorem imin64 (f : R3u) : Statement (.imin64 f) := fun w hw h => by
  obtain rfl := Option.some.inj h
  obtain ⟨sw, d, a, b, g, u⟩ := f
  cases u
  · exact decode_of_shape (shape_minor decodeMajor2 (readR3u 1) 2 8 (majorOf_of (packG3_mj ..)) (minorOf_of (packG3_mn ..)) (fun _ => rfl) (fun _ => rfl) (readR3u1_pack sw 2#6 d a b g _ false (by simp [bitNat]))) rfl rfl hw
  · exact decode_of_shape (shape_minor decodeMajor2 (readR3u 1) 2 10 (majorOf_of (packG3_mj ..)) (minorOf_of (packG3_mn ..)) (fun _ => rfl) (fun _ => rfl) (readR3u1_pack sw 2#6 d a b g _ true (by simp [bitNat]))) rfl rfl hw
theorem imax64 (f : R3u) : Statement (.imax64 f) := fun w hw h => by
  obtain rfl := Option.some.inj h
  obtain ⟨sw, d, a, b, g, u⟩ := f
  cases u
  · exact decode_of_shape (shape_minor decodeMajor2 (readR3u 1) 2 9 (majorOf_of (packG3_mj ..)) (minorOf_of (packG3_mn ..)) (fun _ => rfl) (fun _ => rfl) (readR3u1_pack sw 2#6 d a b g _ false (by simp [bitNat]))) rfl rfl hw
  · exact decode_of_shape (shape_minor decodeMajor2 (readR3u 1) 2 11 (majorOf_of (packG3_mj ..)) (minorOf_of (packG3_mn ..)) (fun _ => rfl) (fun _ => rfl) (readR3u1_pack sw 2#6 d a b g _ true (by simp [bitNat]))) rfl rfl hw
theorem div64 (f : R3u) : Statement (.div64 f) := fun w hw h => by
  obtain rfl := Option.some.inj h
  obtain ⟨sw, d, a, b, g, u⟩ := f
  cases u
  · exact decode_of_shape (shape_minor decodeMajor2 (readR3u 0) 2 12 (majorOf_of (packG3_mj ..)) (minorOf_of (packG3_mn ..)) (fun _ => rfl) (fun _ => rfl) (readR3u0_pack sw 2#6 d a b g _ false (by simp [bitNat]))) rfl rfl hw
  · exact decode_of_shape (shape_minor decodeMajor2 (readR3u 0) 2 13 (majorOf_of (packG3_mj ..)) (minorOf_of (packG3_mn ..)) (fun _ => rfl) (fun _ => rfl) (readR3u0_pack sw 2#6 d a b g _ true (by simp [bitNat]))) rfl rfl hw
theorem rem64 (f : R3u) : Statement (.rem64 f) := fun w hw h => by
  obtain rfl := Option.some.inj h
  obtain ⟨sw, d, a, b, g, u⟩ := f
  cases u
  · exact decode_of_shape (shape_minor decodeMajor2 (readR3u 0) 2 14 (majorOf_of (packG3_mj ..)) (minorOf_of (packG3_mn ..)) (fun _ => rfl) (fun _ => rfl) (readR3u0_pack sw 2#6 d a b g _ false (by simp [bitNat]))) rfl rfl hw
  · exact decode_of_shape (shape_minor decodeMajor2 (readR3u 0) 2 15 (majorOf_of (packG3_mj ..)) (minorOf_of (packG3_mn ..)) (fun _ => rfl) (fun _ => rfl) (readR3u0_pack sw 2#6 d a b g _ true (by simp [bitNat]))) rfl rfl hw
theorem andR (f : R3) : Statement (.andR f) := fun w hw h => by
  obtain rfl := Option.some.inj h
  exact decode_of_shape (shape_minor decodeMajor3 readR3 3 0 (majorOf_of (packG3_mj ..)) (minorOf_of (packG3_mn ..)) (fun _ => rfl) (fun _ => rfl) (readR3_pack f 3#6 0#4)) rfl rfl hw
theorem orR (f : R3) : Statement (.orR f) := fun w hw h => by
  obtain rfl := Option.some.inj h
  exact decode_of_shape (shape_minor decodeMajor3 readR3 3 1 (majorOf_of (packG3_mj ..)) (minorOf_of (packG3_mn ..)) (fun _ => rfl) (fun _ => rfl) (readR3_pack f 3#6 1#4)) rfl rfl hw
theorem xorR (f : R3) : Statement (.xorR f) := fun w hw h => by
  obtain rfl := Option.some.inj h
  exact decode_of_shape (shape_minor decodeMajor3 readR3 3 2 (majorOf_of (packG3_mj ..)) (minorOf_of (packG3_mn ..)) (fun _ => rfl) (fun _ => rfl) (readR3_pack f 3#6 2#4)) rfl rfl hw
theorem andn (f : R3) : Statement (.andn f) := fun w hw h => by
  obtain rfl := Option.some.inj h
  exact decode_of_shape (shape_minor decodeMajor3 readR3 3 3 (majorOf_of (packG3_mj ..)) (minorOf_of (packG3_mn ..)) (fun _ => rfl) (fun _ => rfl) (readR3_pack f 3#6 3#4)) rfl rfl hw
theorem shl (f : R3) : Statement (.shl f) := fun w hw h => by
  obtain rfl := Option.some.inj h
  exact decode_of_shape (shape_minor decodeMajor3 readR3 3 4 (majorOf_of (packG3_mj ..)) (minorOf_of (packG3_mn ..)) (fun _ => rfl) (fun _ => rfl) (readR3_pack f 3#6 4#4)) rfl rfl hw
theorem shr (f : R3) : Statement (.shr f) := fun w hw h => by
  obtain rfl := Option.some.inj h
  exact decode_of_shape (shape_minor decodeMajor3 readR3 3 5 (majorOf_of (packG3_mj ..)) (minorOf_of (packG3_mn ..)) (fun _ => rfl) (fun _ => rfl) (readR3_pack f 3#6 5#4)) rfl rfl hw
theorem sar (f : R3) : Statement (.sar f) := fun w hw h => by
  obtain rfl := Option.some.inj h
  exact decode_of_shape (shape_minor decodeMajor3 readR3 3 6 (majorOf_of (packG3_mj ..)) (minorOf_of (packG3_mn ..)) (fun _ => rfl) (fun _ => rfl) (readR3_pack f 3#6 6#4)) rfl rfl hw
theorem rol (f : R3) : Statement (.rol f) := fun w hw h => by
  obtain rfl := Option.some.inj h
  exact decode_of_shape (shape_minor decodeMajor3 readR3 3 7 (majorOf_of (packG3_mj ..)) (minorOf_of (packG3_mn ..)) (fun _ => rfl) (fun _ => rfl) (readR3_pack f 3#6 7#4)) rfl rfl hw
theorem popc (f : R2) : Statement (.popc f) := fun w hw h => by
  obtain rfl := Option.some.inj h
  exact decode_of_shape (shape_minor decodeMajor3 readR2 3 8 (majorOf_of (packG3_mj ..)) (minorOf_of (packG3_mn ..)) (fun _ => rfl) (fun _ => rfl) (readR2_pack f 3#6 8#4)) (zeroR2 f 3#6 8#4) rfl hw
theorem clz (f : R2) : Statement (.clz f) := fun w hw h => by
  obtain rfl := Option.some.inj h
  exact decode_of_shape (shape_minor decodeMajor3 readR2 3 9 (majorOf_of (packG3_mj ..)) (minorOf_of (packG3_mn ..)) (fun _ => rfl) (fun _ => rfl) (readR2_pack f 3#6 9#4)) (zeroR2 f 3#6 9#4) rfl hw
theorem brev (f : R2) : Statement (.brev f) := fun w hw h => by
  obtain rfl := Option.some.inj h
  exact decode_of_shape (shape_minor decodeMajor3 readR2 3 10 (majorOf_of (packG3_mj ..)) (minorOf_of (packG3_mn ..)) (fun _ => rfl) (fun _ => rfl) (readR2_pack f 3#6 10#4)) (zeroR2 f 3#6 10#4) rfl hw
theorem shlW64 (f : R3) : Statement (.shlW64 f) := fun w hw h => by
  obtain rfl := Option.some.inj h
  exact decode_of_shape (shape_minor decodeMajor3 readR3 3 11 (majorOf_of (packG3_mj ..)) (minorOf_of (packG3_mn ..)) (fun _ => rfl) (fun _ => rfl) (readR3_pack f 3#6 11#4)) rfl rfl hw
theorem shrW64 (f : R3) : Statement (.shrW64 f) := fun w hw h => by
  obtain rfl := Option.some.inj h
  exact decode_of_shape (shape_minor decodeMajor3 readR3 3 12 (majorOf_of (packG3_mj ..)) (minorOf_of (packG3_mn ..)) (fun _ => rfl) (fun _ => rfl) (readR3_pack f 3#6 12#4)) rfl rfl hw
theorem sarI64 (f : R3) : Statement (.sarI64 f) := fun w hw h => by
  obtain rfl := Option.some.inj h
  exact decode_of_shape (shape_minor decodeMajor3 readR3 3 13 (majorOf_of (packG3_mj ..)) (minorOf_of (packG3_mn ..)) (fun _ => rfl) (fun _ => rfl) (readR3_pack f 3#6 13#4)) rfl rfl hw
theorem iaddImm (f : GI) : Statement (.iaddImm f) := fun w hw h => by
  obtain rfl := Option.some.inj h
  exact decode_of_shape (shape_one readGI 24 (majorOf_of (packGI_mj ..)) (fun _ => rfl) (readGI_pack f 24#6)) rfl rfl hw
theorem imulImm (f : GI) : Statement (.imulImm f) := fun w hw h => by
  obtain rfl := Option.some.inj h
  exact decode_of_shape (shape_one readGI 25 (majorOf_of (packGI_mj ..)) (fun _ => rfl) (readGI_pack f 25#6)) rfl rfl hw
theorem andImm (f : GI) : Statement (.andImm f) := fun w hw h => by
  obtain rfl := Option.some.inj h
  exact decode_of_shape (shape_one readGI 26 (majorOf_of (packGI_mj ..)) (fun _ => rfl) (readGI_pack f 26#6)) rfl rfl hw
theorem orImm (f : GI) : Statement (.orImm f) := fun w hw h => by
  obtain rfl := Option.some.inj h
  exact decode_of_shape (shape_one readGI 27 (majorOf_of (packGI_mj ..)) (fun _ => rfl) (readGI_pack f 27#6)) rfl rfl hw
theorem xorImm (f : GI) : Statement (.xorImm f) := fun w hw h => by
  obtain rfl := Option.some.inj h
  exact decode_of_shape (shape_one readGI 28 (majorOf_of (packGI_mj ..)) (fun _ => rfl) (readGI_pack f 28#6)) rfl rfl hw
theorem shlImm (f : GI) : Statement (.shlImm f) := fun w hw h => by
  obtain rfl := Option.some.inj h
  exact decode_of_shape (shape_one readGI 29 (majorOf_of (packGI_mj ..)) (fun _ => rfl) (readGI_pack f 29#6)) rfl rfl hw
theorem shrImm (f : GI) : Statement (.shrImm f) := fun w hw h => by
  obtain rfl := Option.some.inj h
  exact decode_of_shape (shape_one readGI 30 (majorOf_of (packGI_mj ..)) (fun _ => rfl) (readGI_pack f 30#6)) rfl rfl hw
theorem sarImm (f : GI) : Statement (.sarImm f) := fun w hw h => by
  obtain rfl := Option.some.inj h
  exact decode_of_shape (shape_one readGI 31 (majorOf_of (packGI_mj ..)) (fun _ => rfl) (readGI_pack f 31#6)) rfl rfl hw
theorem icmp (f : PQm) : Statement (.icmp f) := fun w hw h => by
  obtain rfl := Option.some.inj h
  have hs : decodeShape (majorOf (packPQ f.sw 4#6 f.p f.q f.a f.b f.g f.m)) (packPQ f.sw 4#6 f.p f.q f.a f.b f.g f.m) = .ok (.icmp f) := by
    have hm : majorOf (packPQ f.sw 4#6 f.p f.q f.a f.b f.g f.m) = 4 := by simp [majorOf]
    rw [hm]
    have hm := hw; simp only [Instr.wf, Instr.badValues, geAt, Bool.and_eq_true, List.isEmpty_iff] at hm
    have h10 : f.m.toNat < 10 := by
      rcases Nat.lt_or_ge f.m.toNat 10 with h | h
      · exact h
      · simp [Nat.not_lt.mpr h] at hm
    simp [decodeShape, minorOf, decodeIcmp, readPQm, h10]
  exact decode_of_shape hs (rfl) (rfl) hw
theorem testW32 (f : PQ) : Statement (.testW32 f) := fun w hw h => by
  obtain rfl := Option.some.inj h
  have hs : decodeShape (majorOf (packPQ f.sw 4#6 f.p f.q f.a f.b f.g 10#4)) (packPQ f.sw 4#6 f.p f.q f.a f.b f.g 10#4) = .ok (.testW32 f) := by
    have hm : majorOf (packPQ f.sw 4#6 f.p f.q f.a f.b f.g 10#4) = 4 := by simp [majorOf]
    rw [hm]
    simp [decodeShape, minorOf, decodeIcmp, readPQ]
  exact decode_of_shape hs (rfl) (rfl) hw
theorem icmpEqImm (f : PQi) : Statement (.icmpEqImm f) := fun w hw h => by
  obtain rfl := Option.some.inj h
  exact decode_of_shape (shape_one readPQi 32 (majorOf_of (packPI_mj ..)) (fun _ => rfl) (readPQi_pack f 32#6)) rfl rfl hw
theorem icmpLtImm (f : PQi) : Statement (.icmpLtImm f) := fun w hw h => by
  obtain rfl := Option.some.inj h
  exact decode_of_shape (shape_one readPQi 33 (majorOf_of (packPI_mj ..)) (fun _ => rfl) (readPQi_pack f 33#6)) rfl rfl hw
theorem fadd (f : R3) : Statement (.fadd f) := fun w hw h => by
  obtain rfl := Option.some.inj h
  exact decode_of_shape (shape_minor decodeMajor5 readR3 5 0 (majorOf_of (packG3_mj ..)) (minorOf_of (packG3_mn ..)) (fun _ => rfl) (fun _ => rfl) (readR3_pack f 5#6 0#4)) rfl rfl hw
theorem fsub (f : R3) : Statement (.fsub f) := fun w hw h => by
  obtain rfl := Option.some.inj h
  exact decode_of_shape (shape_minor decodeMajor5 readR3 5 1 (majorOf_of (packG3_mj ..)) (minorOf_of (packG3_mn ..)) (fun _ => rfl) (fun _ => rfl) (readR3_pack f 5#6 1#4)) rfl rfl hw
theorem fmul (f : R3) : Statement (.fmul f) := fun w hw h => by
  obtain rfl := Option.some.inj h
  exact decode_of_shape (shape_minor decodeMajor5 readR3 5 2 (majorOf_of (packG3_mj ..)) (minorOf_of (packG3_mn ..)) (fun _ => rfl) (fun _ => rfl) (readR3_pack f 5#6 2#4)) rfl rfl hw
theorem fdiv (f : R3) : Statement (.fdiv f) := fun w hw h => by
  obtain rfl := Option.some.inj h
  exact decode_of_shape (shape_minor decodeMajor5 readR3 5 3 (majorOf_of (packG3_mj ..)) (minorOf_of (packG3_mn ..)) (fun _ => rfl) (fun _ => rfl) (readR3_pack f 5#6 3#4)) rfl rfl hw
theorem fsqrt (f : R2) : Statement (.fsqrt f) := fun w hw h => by
  obtain rfl := Option.some.inj h
  exact decode_of_shape (shape_minor decodeMajor5 readR2 5 4 (majorOf_of (packG3_mj ..)) (minorOf_of (packG3_mn ..)) (fun _ => rfl) (fun _ => rfl) (readR2_pack f 5#6 4#4)) (zeroR2 f 5#6 4#4) rfl hw
theorem fmin (f : R3) : Statement (.fmin f) := fun w hw h => by
  obtain rfl := Option.some.inj h
  exact decode_of_shape (shape_minor decodeMajor5 readR3 5 5 (majorOf_of (packG3_mj ..)) (minorOf_of (packG3_mn ..)) (fun _ => rfl) (fun _ => rfl) (readR3_pack f 5#6 5#4)) rfl rfl hw
theorem fmax (f : R3) : Statement (.fmax f) := fun w hw h => by
  obtain rfl := Option.some.inj h
  exact decode_of_shape (shape_minor decodeMajor5 readR3 5 6 (majorOf_of (packG3_mj ..)) (minorOf_of (packG3_mn ..)) (fun _ => rfl) (fun _ => rfl) (readR3_pack f 5#6 6#4)) rfl rfl hw
theorem fabs (f : R2) : Statement (.fabs f) := fun w hw h => by
  obtain rfl := Option.some.inj h
  exact decode_of_shape (shape_minor decodeMajor5 readR2 5 7 (majorOf_of (packG3_mj ..)) (minorOf_of (packG3_mn ..)) (fun _ => rfl) (fun _ => rfl) (readR2_pack f 5#6 7#4)) (zeroR2 f 5#6 7#4) rfl hw
theorem fneg (f : R2) : Statement (.fneg f) := fun w hw h => by
  obtain rfl := Option.some.inj h
  exact decode_of_shape (shape_minor decodeMajor5 readR2 5 8 (majorOf_of (packG3_mj ..)) (minorOf_of (packG3_mn ..)) (fun _ => rfl) (fun _ => rfl) (readR2_pack f 5#6 8#4)) (zeroR2 f 5#6 8#4) rfl hw
theorem fcpys (f : R3) : Statement (.fcpys f) := fun w hw h => by
  obtain rfl := Option.some.inj h
  exact decode_of_shape (shape_minor decodeMajor5 readR3 5 9 (majorOf_of (packG3_mj ..)) (minorOf_of (packG3_mn ..)) (fun _ => rfl) (fun _ => rfl) (readR3_pack f 5#6 9#4)) rfl rfl hw
theorem frnd (f : R2) : Statement (.frnd f) := fun w hw h => by
  obtain rfl := Option.some.inj h
  exact decode_of_shape (shape_minor decodeMajor5 readR2 5 10 (majorOf_of (packG3_mj ..)) (minorOf_of (packG3_mn ..)) (fun _ => rfl) (fun _ => rfl) (readR2_pack f 5#6 10#4)) (zeroR2 f 5#6 10#4) rfl hw
theorem fclass (f : R2) : Statement (.fclass f) := fun w hw h => by
  obtain rfl := Option.some.inj h
  exact decode_of_shape (shape_minor decodeMajor5 readR2 5 11 (majorOf_of (packG3_mj ..)) (minorOf_of (packG3_mn ..)) (fun _ => rfl) (fun _ => rfl) (readR2_pack f 5#6 11#4)) (zeroR2 f 5#6 11#4) rfl hw
theorem faddF64 (f : R3) : Statement (.faddF64 f) := fun w hw h => by
  obtain rfl := Option.some.inj h
  exact decode_of_shape (shape_minor decodeMajor6 readR3 6 0 (majorOf_of (packG3_mj ..)) (minorOf_of (packG3_mn ..)) (fun _ => rfl) (fun _ => rfl) (readR3_pack f 6#6 0#4)) rfl rfl hw
theorem fsubF64 (f : R3) : Statement (.fsubF64 f) := fun w hw h => by
  obtain rfl := Option.some.inj h
  exact decode_of_shape (shape_minor decodeMajor6 readR3 6 1 (majorOf_of (packG3_mj ..)) (minorOf_of (packG3_mn ..)) (fun _ => rfl) (fun _ => rfl) (readR3_pack f 6#6 1#4)) rfl rfl hw
theorem fmulF64 (f : R3) : Statement (.fmulF64 f) := fun w hw h => by
  obtain rfl := Option.some.inj h
  exact decode_of_shape (shape_minor decodeMajor6 readR3 6 2 (majorOf_of (packG3_mj ..)) (minorOf_of (packG3_mn ..)) (fun _ => rfl) (fun _ => rfl) (readR3_pack f 6#6 2#4)) rfl rfl hw
theorem fdivF64 (f : R3) : Statement (.fdivF64 f) := fun w hw h => by
  obtain rfl := Option.some.inj h
  exact decode_of_shape (shape_minor decodeMajor6 readR3 6 3 (majorOf_of (packG3_mj ..)) (minorOf_of (packG3_mn ..)) (fun _ => rfl) (fun _ => rfl) (readR3_pack f 6#6 3#4)) rfl rfl hw
theorem fsqrtF64 (f : R2) : Statement (.fsqrtF64 f) := fun w hw h => by
  obtain rfl := Option.some.inj h
  exact decode_of_shape (shape_minor decodeMajor6 readR2 6 4 (majorOf_of (packG3_mj ..)) (minorOf_of (packG3_mn ..)) (fun _ => rfl) (fun _ => rfl) (readR2_pack f 6#6 4#4)) (zeroR2 f 6#6 4#4) rfl hw
theorem fminF64 (f : R3) : Statement (.fminF64 f) := fun w hw h => by
  obtain rfl := Option.some.inj h
  exact decode_of_shape (shape_minor decodeMajor6 readR3 6 5 (majorOf_of (packG3_mj ..)) (minorOf_of (packG3_mn ..)) (fun _ => rfl) (fun _ => rfl) (readR3_pack f 6#6 5#4)) rfl rfl hw
theorem fmaxF64 (f : R3) : Statement (.fmaxF64 f) := fun w hw h => by
  obtain rfl := Option.some.inj h
  exact decode_of_shape (shape_minor decodeMajor6 readR3 6 6 (majorOf_of (packG3_mj ..)) (minorOf_of (packG3_mn ..)) (fun _ => rfl) (fun _ => rfl) (readR3_pack f 6#6 6#4)) rfl rfl hw
theorem fabsF64 (f : R2) : Statement (.fabsF64 f) := fun w hw h => by
  obtain rfl := Option.some.inj h
  exact decode_of_shape (shape_minor decodeMajor6 readR2 6 7 (majorOf_of (packG3_mj ..)) (minorOf_of (packG3_mn ..)) (fun _ => rfl) (fun _ => rfl) (readR2_pack f 6#6 7#4)) (zeroR2 f 6#6 7#4) rfl hw
theorem fnegF64 (f : R2) : Statement (.fnegF64 f) := fun w hw h => by
  obtain rfl := Option.some.inj h
  exact decode_of_shape (shape_minor decodeMajor6 readR2 6 8 (majorOf_of (packG3_mj ..)) (minorOf_of (packG3_mn ..)) (fun _ => rfl) (fun _ => rfl) (readR2_pack f 6#6 8#4)) (zeroR2 f 6#6 8#4) rfl hw
theorem fcpysF64 (f : R3) : Statement (.fcpysF64 f) := fun w hw h => by
  obtain rfl := Option.some.inj h
  exact decode_of_shape (shape_minor decodeMajor6 readR3 6 9 (majorOf_of (packG3_mj ..)) (minorOf_of (packG3_mn ..)) (fun _ => rfl) (fun _ => rfl) (readR3_pack f 6#6 9#4)) rfl rfl hw
theorem frndF64 (f : R2) : Statement (.frndF64 f) := fun w hw h => by
  obtain rfl := Option.some.inj h
  exact decode_of_shape (shape_minor decodeMajor6 readR2 6 10 (majorOf_of (packG3_mj ..)) (minorOf_of (packG3_mn ..)) (fun _ => rfl) (fun _ => rfl) (readR2_pack f 6#6 10#4)) (zeroR2 f 6#6 10#4) rfl hw
theorem fclassF64 (f : R2) : Statement (.fclassF64 f) := fun w hw h => by
  obtain rfl := Option.some.inj h
  exact decode_of_shape (shape_minor decodeMajor6 readR2 6 11 (majorOf_of (packG3_mj ..)) (minorOf_of (packG3_mn ..)) (fun _ => rfl) (fun _ => rfl) (readR2_pack f 6#6 11#4)) (zeroR2 f 6#6 11#4) rfl hw
theorem haddF16 (f : R3) : Statement (.haddF16 f) := fun w hw h => by
  obtain rfl := Option.some.inj h
  exact decode_of_shape (shape_minor decodeMajor7 readR3 7 0 (majorOf_of (packG3_mj ..)) (minorOf_of (packG3_mn ..)) (fun _ => rfl) (fun _ => rfl) (readR3_pack f 7#6 0#4)) rfl rfl hw
theorem hsubF16 (f : R3) : Statement (.hsubF16 f) := fun w hw h => by
  obtain rfl := Option.some.inj h
  exact decode_of_shape (shape_minor decodeMajor7 readR3 7 1 (majorOf_of (packG3_mj ..)) (minorOf_of (packG3_mn ..)) (fun _ => rfl) (fun _ => rfl) (readR3_pack f 7#6 1#4)) rfl rfl hw
theorem hmulF16 (f : R3) : Statement (.hmulF16 f) := fun w hw h => by
  obtain rfl := Option.some.inj h
  exact decode_of_shape (shape_minor decodeMajor7 readR3 7 2 (majorOf_of (packG3_mj ..)) (minorOf_of (packG3_mn ..)) (fun _ => rfl) (fun _ => rfl) (readR3_pack f 7#6 2#4)) rfl rfl hw
theorem hminF16 (f : R3) : Statement (.hminF16 f) := fun w hw h => by
  obtain rfl := Option.some.inj h
  exact decode_of_shape (shape_minor decodeMajor7 readR3 7 3 (majorOf_of (packG3_mj ..)) (minorOf_of (packG3_mn ..)) (fun _ => rfl) (fun _ => rfl) (readR3_pack f 7#6 3#4)) rfl rfl hw
theorem hmaxF16 (f : R3) : Statement (.hmaxF16 f) := fun w hw h => by
  obtain rfl := Option.some.inj h
  exact decode_of_shape (shape_minor decodeMajor7 readR3 7 4 (majorOf_of (packG3_mj ..)) (minorOf_of (packG3_mn ..)) (fun _ => rfl) (fun _ => rfl) (readR3_pack f 7#6 4#4)) rfl rfl hw
theorem haddBf16 (f : R3) : Statement (.haddBf16 f) := fun w hw h => by
  obtain rfl := Option.some.inj h
  exact decode_of_shape (shape_minor decodeMajor7 readR3 7 5 (majorOf_of (packG3_mj ..)) (minorOf_of (packG3_mn ..)) (fun _ => rfl) (fun _ => rfl) (readR3_pack f 7#6 5#4)) rfl rfl hw
theorem hsubBf16 (f : R3) : Statement (.hsubBf16 f) := fun w hw h => by
  obtain rfl := Option.some.inj h
  exact decode_of_shape (shape_minor decodeMajor7 readR3 7 6 (majorOf_of (packG3_mj ..)) (minorOf_of (packG3_mn ..)) (fun _ => rfl) (fun _ => rfl) (readR3_pack f 7#6 6#4)) rfl rfl hw
theorem hmulBf16 (f : R3) : Statement (.hmulBf16 f) := fun w hw h => by
  obtain rfl := Option.some.inj h
  exact decode_of_shape (shape_minor decodeMajor7 readR3 7 7 (majorOf_of (packG3_mj ..)) (minorOf_of (packG3_mn ..)) (fun _ => rfl) (fun _ => rfl) (readR3_pack f 7#6 7#4)) rfl rfl hw
theorem hminBf16 (f : R3) : Statement (.hminBf16 f) := fun w hw h => by
  obtain rfl := Option.some.inj h
  exact decode_of_shape (shape_minor decodeMajor7 readR3 7 8 (majorOf_of (packG3_mj ..)) (minorOf_of (packG3_mn ..)) (fun _ => rfl) (fun _ => rfl) (readR3_pack f 7#6 8#4)) rfl rfl hw
theorem hmaxBf16 (f : R3) : Statement (.hmaxBf16 f) := fun w hw h => by
  obtain rfl := Option.some.inj h
  exact decode_of_shape (shape_minor decodeMajor7 readR3 7 9 (majorOf_of (packG3_mj ..)) (minorOf_of (packG3_mn ..)) (fun _ => rfl) (fun _ => rfl) (readR3_pack f 7#6 9#4)) rfl rfl hw
theorem fcmp (f : PQf) : Statement (.fcmp f) := fun w hw h => by
  obtain rfl := Option.some.inj h
  have hs : decodeShape (majorOf (packPQ f.sw 8#6 f.p f.q f.a f.b f.g (fcmpMinor f.t f.r))) (packPQ f.sw 8#6 f.p f.q f.a f.b f.g (fcmpMinor f.t f.r)) = .ok (.fcmp f) := by
    have hm : majorOf (packPQ f.sw 8#6 f.p f.q f.a f.b f.g (fcmpMinor f.t f.r)) = 8 := by simp [majorOf]
    rw [hm]
    simp only [decodeShape, minorOf, packPQ_mn, fcmpMinor_lt, if_true, readPQf_pack]
  exact decode_of_shape hs (rfl) (rfl) hw
theorem cvt (f : Cv) : Statement (.cvt f) := fun w hw h => by
  obtain rfl := Option.some.inj h
  exact decode_of_shape (shape_one readCv 9 (majorOf_of (packCv_mj ..)) (fun _ => rfl) (readCv_pack f 9#6)) (zeroCv f 9#6) rfl hw
theorem recipF32 (f : R2) : Statement (.recipF32 f) := fun w hw h => by
  obtain rfl := Option.some.inj h
  exact decode_of_shape (shape_minor decodeMajor10 readR2 10 0 (majorOf_of (packG3_mj ..)) (minorOf_of (packG3_mn ..)) (fun _ => rfl) (fun _ => rfl) (readR2_pack f 10#6 0#4)) (zeroR2 f 10#6 0#4) rfl hw
theorem rrootF32 (f : R2) : Statement (.rrootF32 f) := fun w hw h => by
  obtain rfl := Option.some.inj h
  exact decode_of_shape (shape_minor decodeMajor10 readR2 10 1 (majorOf_of (packG3_mj ..)) (minorOf_of (packG3_mn ..)) (fun _ => rfl) (fun _ => rfl) (readR2_pack f 10#6 1#4)) (zeroR2 f 10#6 1#4) rfl hw
theorem exp2 (f : R2) : Statement (.exp2 f) := fun w hw h => by
  obtain rfl := Option.some.inj h
  exact decode_of_shape (shape_minor decodeMajor10 readR2 10 2 (majorOf_of (packG3_mj ..)) (minorOf_of (packG3_mn ..)) (fun _ => rfl) (fun _ => rfl) (readR2_pack f 10#6 2#4)) (zeroR2 f 10#6 2#4) rfl hw
theorem log2 (f : R2) : Statement (.log2 f) := fun w hw h => by
  obtain rfl := Option.some.inj h
  exact decode_of_shape (shape_minor decodeMajor10 readR2 10 3 (majorOf_of (packG3_mj ..)) (minorOf_of (packG3_mn ..)) (fun _ => rfl) (fun _ => rfl) (readR2_pack f 10#6 3#4)) (zeroR2 f 10#6 3#4) rfl hw
theorem sin (f : R2) : Statement (.sin f) := fun w hw h => by
  obtain rfl := Option.some.inj h
  exact decode_of_shape (shape_minor decodeMajor10 readR2 10 4 (majorOf_of (packG3_mj ..)) (minorOf_of (packG3_mn ..)) (fun _ => rfl) (fun _ => rfl) (readR2_pack f 10#6 4#4)) (zeroR2 f 10#6 4#4) rfl hw
theorem cos (f : R2) : Statement (.cos f) := fun w hw h => by
  obtain rfl := Option.some.inj h
  exact decode_of_shape (shape_minor decodeMajor10 readR2 10 5 (majorOf_of (packG3_mj ..)) (minorOf_of (packG3_mn ..)) (fun _ => rfl) (fun _ => rfl) (readR2_pack f 10#6 5#4)) (zeroR2 f 10#6 5#4) rfl hw
theorem tanh (f : R2) : Statement (.tanh f) := fun w hw h => by
  obtain rfl := Option.some.inj h
  exact decode_of_shape (shape_minor decodeMajor10 readR2 10 6 (majorOf_of (packG3_mj ..)) (minorOf_of (packG3_mn ..)) (fun _ => rfl) (fun _ => rfl) (readR2_pack f 10#6 6#4)) (zeroR2 f 10#6 6#4) rfl hw
theorem recipF64 (f : R2) : Statement (.recipF64 f) := fun w hw h => by
  obtain rfl := Option.some.inj h
  exact decode_of_shape (shape_minor decodeMajor10 readR2 10 7 (majorOf_of (packG3_mj ..)) (minorOf_of (packG3_mn ..)) (fun _ => rfl) (fun _ => rfl) (readR2_pack f 10#6 7#4)) (zeroR2 f 10#6 7#4) rfl hw
theorem rrootF64 (f : R2) : Statement (.rrootF64 f) := fun w hw h => by
  obtain rfl := Option.some.inj h
  exact decode_of_shape (shape_minor decodeMajor10 readR2 10 8 (majorOf_of (packG3_mj ..)) (minorOf_of (packG3_mn ..)) (fun _ => rfl) (fun _ => rfl) (readR2_pack f 10#6 8#4)) (zeroR2 f 10#6 8#4) rfl hw
theorem mov (f : R2) : Statement (.mov f) := fun w hw h => by
  obtain rfl := Option.some.inj h
  exact decode_of_shape (shape_minor decodeMajor11 readR2 11 0 (majorOf_of (packG3_mj ..)) (minorOf_of (packG3_mn ..)) (fun _ => rfl) (fun _ => rfl) (readR2_pack f 11#6 0#4)) (zeroR2 f 11#6 0#4) rfl hw
theorem movD (f : R2) : Statement (.movD f) := fun w hw h => by
  obtain rfl := Option.some.inj h
  exact decode_of_shape (shape_minor decodeMajor11 readR2 11 1 (majorOf_of (packG3_mj ..)) (minorOf_of (packG3_mn ..)) (fun _ => rfl) (fun _ => rfl) (readR2_pack f 11#6 1#4)) (zeroR2 f 11#6 1#4) rfl hw
theorem movFromK (f : R2) : Statement (.movFromK f) := fun w hw h => by
  obtain rfl := Option.some.inj h
  exact decode_of_shape (shape_minor decodeMajor11 readR2 11 2 (majorOf_of (packG3_mj ..)) (minorOf_of (packG3_mn ..)) (fun _ => rfl) (fun _ => rfl) (readR2_pack f 11#6 2#4)) (zeroR2 f 11#6 2#4) rfl hw
theorem movToK (f : R2) : Statement (.movToK f) := fun w hw h => by
  obtain rfl := Option.some.inj h
  exact decode_of_shape (shape_minor decodeMajor11 readR2 11 3 (majorOf_of (packG3_mj ..)) (minorOf_of (packG3_mn ..)) (fun _ => rfl) (fun _ => rfl) (readR2_pack f 11#6 3#4)) (zeroR2 f 11#6 3#4) rfl hw
theorem sread (f : R2) : Statement (.sread f) := fun w hw h => by
  obtain rfl := Option.some.inj h
  exact decode_of_shape (shape_minor decodeMajor11 readR2 11 4 (majorOf_of (packG3_mj ..)) (minorOf_of (packG3_mn ..)) (fun _ => rfl) (fun _ => rfl) (readR2_pack f 11#6 4#4)) (zeroR2 f 11#6 4#4) rfl hw
theorem shflPick (f : R3) : Statement (.shflPick f) := fun w hw h => by
  obtain rfl := Option.some.inj h
  exact decode_of_shape (shape_minor decodeMajor11 readR3 11 5 (majorOf_of (packG3_mj ..)) (minorOf_of (packG3_mn ..)) (fun _ => rfl) (fun _ => rfl) (readR3_pack f 11#6 5#4)) rfl rfl hw
theorem shflRot (f : R3) : Statement (.shflRot f) := fun w hw h => by
  obtain rfl := Option.some.inj h
  exact decode_of_shape (shape_minor decodeMajor11 readR3 11 6 (majorOf_of (packG3_mj ..)) (minorOf_of (packG3_mn ..)) (fun _ => rfl) (fun _ => rfl) (readR3_pack f 11#6 6#4)) rfl rfl hw
theorem shflSeg (f : R3) : Statement (.shflSeg f) := fun w hw h => by
  obtain rfl := Option.some.inj h
  exact decode_of_shape (shape_minor decodeMajor11 readR3 11 7 (majorOf_of (packG3_mj ..)) (minorOf_of (packG3_mn ..)) (fun _ => rfl) (fun _ => rfl) (readR3_pack f 11#6 7#4)) rfl rfl hw
theorem shflFlip (f : R3) : Statement (.shflFlip f) := fun w hw h => by
  obtain rfl := Option.some.inj h
  exact decode_of_shape (shape_minor decodeMajor11 readR3 11 8 (majorOf_of (packG3_mj ..)) (minorOf_of (packG3_mn ..)) (fun _ => rfl) (fun _ => rfl) (readR3_pack f 11#6 8#4)) rfl rfl hw
theorem voteEvery (f : R2) : Statement (.voteEvery f) := fun w hw h => by
  obtain rfl := Option.some.inj h
  exact decode_of_shape (shape_minor decodeMajor11 readR2 11 9 (majorOf_of (packG3_mj ..)) (minorOf_of (packG3_mn ..)) (fun _ => rfl) (fun _ => rfl) (readR2_pack f 11#6 9#4)) (zeroR2 f 11#6 9#4) rfl hw
theorem voteSome (f : R2) : Statement (.voteSome f) := fun w hw h => by
  obtain rfl := Option.some.inj h
  exact decode_of_shape (shape_minor decodeMajor11 readR2 11 10 (majorOf_of (packG3_mj ..)) (minorOf_of (packG3_mn ..)) (fun _ => rfl) (fun _ => rfl) (readR2_pack f 11#6 10#4)) (zeroR2 f 11#6 10#4) rfl hw
theorem voteMap (f : R2) : Statement (.voteMap f) := fun w hw h => by
  obtain rfl := Option.some.inj h
  exact decode_of_shape (shape_minor decodeMajor11 readR2 11 11 (majorOf_of (packG3_mj ..)) (minorOf_of (packG3_mn ..)) (fun _ => rfl) (fun _ => rfl) (readR2_pack f 11#6 11#4)) (zeroR2 f 11#6 11#4) rfl hw
theorem voteFsum (f : R2) : Statement (.voteFsum f) := fun w hw h => by
  obtain rfl := Option.some.inj h
  exact decode_of_shape (shape_minor decodeMajor11 readR2 11 12 (majorOf_of (packG3_mj ..)) (minorOf_of (packG3_mn ..)) (fun _ => rfl) (fun _ => rfl) (readR2_pack f 11#6 12#4)) (zeroR2 f 11#6 12#4) rfl hw
theorem voteIsum (f : R2) : Statement (.voteIsum f) := fun w hw h => by
  obtain rfl := Option.some.inj h
  exact decode_of_shape (shape_minor decodeMajor11 readR2 11 13 (majorOf_of (packG3_mj ..)) (minorOf_of (packG3_mn ..)) (fun _ => rfl) (fun _ => rfl) (readR2_pack f 11#6 13#4)) (zeroR2 f 11#6 13#4) rfl hw
theorem ffmaF32 (f : G4) : Statement (.ffmaF32 f) := fun w hw h => by
  obtain rfl := Option.some.inj h
  exact decode_of_shape (shape_one readG4 12 (majorOf_of (packG4_mj ..)) (fun _ => rfl) (readG4_pack f 12#6)) rfl rfl hw
theorem ffmaF64 (f : G4) : Statement (.ffmaF64 f) := fun w hw h => by
  obtain rfl := Option.some.inj h
  exact decode_of_shape (shape_one readG4 13 (majorOf_of (packG4_mj ..)) (fun _ => rfl) (readG4_pack f 13#6)) rfl rfl hw
theorem hfmaF16 (f : G4) : Statement (.hfmaF16 f) := fun w hw h => by
  obtain rfl := Option.some.inj h
  exact decode_of_shape (shape_one readG4 14 (majorOf_of (packG4_mj ..)) (fun _ => rfl) (readG4_pack f 14#6)) rfl rfl hw
theorem hfmaBf16 (f : G4) : Statement (.hfmaBf16 f) := fun w hw h => by
  obtain rfl := Option.some.inj h
  exact decode_of_shape (shape_one readG4 15 (majorOf_of (packG4_mj ..)) (fun _ => rfl) (readG4_pack f 15#6)) rfl rfl hw
theorem imadI32 (f : G4) : Statement (.imadI32 f) := fun w hw h => by
  obtain rfl := Option.some.inj h
  exact decode_of_shape (shape_one readG4 16 (majorOf_of (packG4_mj ..)) (fun _ => rfl) (readG4_pack f 16#6)) rfl rfl hw
theorem imadW32 (f : G4) : Statement (.imadW32 f) := fun w hw h => by
  obtain rfl := Option.some.inj h
  exact decode_of_shape (shape_one readG4 17 (majorOf_of (packG4_mj ..)) (fun _ => rfl) (readG4_pack f 17#6)) rfl rfl hw
theorem faddBank (f : GC) : Statement (.faddBank f) := fun w hw h => by
  obtain rfl := Option.some.inj h
  exact decode_of_shape (shape_one readGC 18 (majorOf_of (packGC_mj ..)) (fun _ => rfl) (readGC_pack f 18#6)) rfl rfl hw
theorem fmulBank (f : GC) : Statement (.fmulBank f) := fun w hw h => by
  obtain rfl := Option.some.inj h
  exact decode_of_shape (shape_one readGC 19 (majorOf_of (packGC_mj ..)) (fun _ => rfl) (readGC_pack f 19#6)) rfl rfl hw
theorem ffmac (f : GC) : Statement (.ffmac f) := fun w hw h => by
  obtain rfl := Option.some.inj h
  exact decode_of_shape (shape_one readGC 20 (majorOf_of (packGC_mj ..)) (fun _ => rfl) (readGC_pack f 20#6)) rfl rfl hw
theorem iaddBank (f : GC) : Statement (.iaddBank f) := fun w hw h => by
  obtain rfl := Option.some.inj h
  exact decode_of_shape (shape_one readGC 21 (majorOf_of (packGC_mj ..)) (fun _ => rfl) (readGC_pack f 21#6)) rfl rfl hw
theorem movBank (f : GCd) : Statement (.movBank f) := fun w hw h => by
  obtain rfl := Option.some.inj h
  exact decode_of_shape (shape_one readGCd 22 (majorOf_of (packGC_mj ..)) (fun _ => rfl) (readGCd_pack f 22#6)) (zeroGCd f 22#6) rfl hw
theorem movf20 (f : MV20) : Statement (.movf20 f) := fun w hw h => by
  obtain rfl := Option.some.inj h
  have hs : decodeShape (majorOf (packMV f.sw 17#5 f.d f.i)) (packMV f.sw 17#5 f.d f.i) = .ok (.movf20 f) := by
    rw [packMV_major]; have := f.i.isLt
    rcases (show f.i.toNat / 524288 = 0 ∨ f.i.toNat / 524288 = 1 by omega) with h | h <;> simp [h, decodeShape]
  exact decode_of_shape hs rfl rfl hw
theorem movi20 (f : MV20) : Statement (.movi20 f) := fun w hw h => by
  obtain rfl := Option.some.inj h
  have hs : decodeShape (majorOf (packMV f.sw 18#5 f.d f.i)) (packMV f.sw 18#5 f.d f.i) = .ok (.movi20 f) := by
    rw [packMV_major]; have := f.i.isLt
    rcases (show f.i.toNat / 524288 = 0 ∨ f.i.toNat / 524288 = 1 by omega) with h | h <;> simp [h, decodeShape]
  exact decode_of_shape hs rfl rfl hw
theorem bra (f : Br) : Statement (.bra f) := fun w hw h => by
  obtain rfl := Option.some.inj h
  exact decode_of_shape (shape_one readBr 38 (majorOf_of (packB_mj ..)) (fun _ => rfl) (readBr_pack f 38#6)) rfl rfl hw
theorem call (f : Br) : Statement (.call f) := fun w hw h => by
  obtain rfl := Option.some.inj h
  exact decode_of_shape (shape_one readBr 39 (majorOf_of (packB_mj ..)) (fun _ => rfl) (readBr_pack f 39#6)) rfl rfl hw
theorem brx (f : R1) : Statement (.brx f) := fun w hw h => by
  obtain rfl := Option.some.inj h
  exact decode_of_shape (shape_minor decodeMajor40 readR1 40 0 (majorOf_of (packG3_mj ..)) (minorOf_of (packG3_mn ..)) (fun _ => rfl) (fun _ => rfl) (readR1_pack f 40#6 0#4)) (zeroR1 f 40#6 0#4) rfl hw
theorem callx (f : R2) : Statement (.callx f) := fun w hw h => by
  obtain rfl := Option.some.inj h
  exact decode_of_shape (shape_minor decodeMajor40 readR2 40 1 (majorOf_of (packG3_mj ..)) (minorOf_of (packG3_mn ..)) (fun _ => rfl) (fun _ => rfl) (readR2_pack f 40#6 1#4)) (zeroR2 f 40#6 1#4) rfl hw
theorem ret (f : R1) : Statement (.ret f) := fun w hw h => by
  obtain rfl := Option.some.inj h
  exact decode_of_shape (shape_minor decodeMajor40 readR1 40 2 (majorOf_of (packG3_mj ..)) (minorOf_of (packG3_mn ..)) (fun _ => rfl) (fun _ => rfl) (readR1_pack f 40#6 2#4)) (zeroR1 f 40#6 2#4) rfl hw
theorem exit (f : R0) : Statement (.exit f) := fun w hw h => by
  obtain rfl := Option.some.inj h
  exact decode_of_shape (shape_minor decodeMajor40 readR0 40 3 (majorOf_of (packG3_mj ..)) (minorOf_of (packG3_mn ..)) (fun _ => rfl) (fun _ => rfl) (readR0_pack f 40#6 3#4)) (zeroR0 f 40#6 3#4) rfl hw
theorem yield (f : R0) : Statement (.yield f) := fun w hw h => by
  obtain rfl := Option.some.inj h
  exact decode_of_shape (shape_minor decodeMajor40 readR0 40 4 (majorOf_of (packG3_mj ..)) (minorOf_of (packG3_mn ..)) (fun _ => rfl) (fun _ => rfl) (readR0_pack f 40#6 4#4)) (zeroR0 f 40#6 4#4) rfl hw
theorem nop (f : R0) : Statement (.nop f) := fun w hw h => by
  obtain rfl := Option.some.inj h
  exact decode_of_shape (shape_minor decodeMajor40 readR0 40 5 (majorOf_of (packG3_mj ..)) (minorOf_of (packG3_mn ..)) (fun _ => rfl) (fun _ => rfl) (readR0_pack f 40#6 5#4)) (zeroR0 f 40#6 5#4) rfl hw
theorem xlit (f : HX) : Statement (.xlit f) := fun w hw h => by
  obtain rfl := Option.some.inj h
  exact decode_of_shape (shape_one readHX 41 (majorOf_of (packH_mj ..)) (fun _ => rfl) (readHX_pack f 41#6)) rfl rfl hw
theorem xmod (f : HM) : Statement (.xmod f) := fun w hw h => by
  obtain rfl := Option.some.inj h
  exact decode_of_shape (shape_one readHM 42 (majorOf_of (packXM_mj ..)) (fun _ => rfl) (readHM_pack f 42#6)) (zeroHM f 42#6) rfl hw
theorem dict (f : HD) : Statement (.dict f) := fun w hw h => by
  obtain rfl := Option.some.inj h
  have hs : decodeShape (majorOf (packH f.sw 43#6 (f.n.setWidth 25))) (packH f.sw 43#6 (f.n.setWidth 25)) = .ok (.dict f) := by
    have hm : majorOf (packH f.sw 43#6 (f.n.setWidth 25)) = 43 := by simp [majorOf]
    rw [hm]
    simp [decodeShape, readHD_pack]
  exact decode_of_shape hs (by simp [zeroFields, nz_HD]) (rfl) hw
theorem sched (f : HS) : Statement (.sched f) := fun w hw h => by
  obtain rfl := Option.some.inj h
  have hs : decodeShape (majorOf (packH f.sw 44#6 (f.l.setWidth 25))) (packH f.sw 44#6 (f.l.setWidth 25)) = .ok (.sched f) := by
    have hm : majorOf (packH f.sw 44#6 (f.l.setWidth 25)) = 44 := by simp [majorOf]
    rw [hm]
    simp [decodeShape, readHS_pack]
  exact decode_of_shape hs (by simp [zeroFields, nz_HS]) (rfl) hw
theorem dictCode (f : CodeF) : Statement (.dictCode f) := fun _ _ h => by cases h
theorem join (f : R1) : Statement (.join f) := fun w hw h => by
  obtain rfl := Option.some.inj h
  exact decode_of_shape (shape_minor decodeMajor45 readR1 45 0 (majorOf_of (packG3_mj ..)) (minorOf_of (packG3_mn ..)) (fun _ => rfl) (fun _ => rfl) (readR1_pack f 45#6 0#4)) (zeroR1 f 45#6 0#4) rfl hw
theorem leave (f : R1) : Statement (.leave f) := fun w hw h => by
  obtain rfl := Option.some.inj h
  exact decode_of_shape (shape_minor decodeMajor45 readR1 45 1 (majorOf_of (packG3_mj ..)) (minorOf_of (packG3_mn ..)) (fun _ => rfl) (fun _ => rfl) (readR1_pack f 45#6 1#4)) (zeroR1 f 45#6 1#4) rfl hw
theorem waitm (f : R1) : Statement (.waitm f) := fun w hw h => by
  obtain rfl := Option.some.inj h
  exact decode_of_shape (shape_minor decodeMajor45 readR1 45 2 (majorOf_of (packG3_mj ..)) (minorOf_of (packG3_mn ..)) (fun _ => rfl) (fun _ => rfl) (readR1_pack f 45#6 2#4)) (zeroR1 f 45#6 2#4) rfl hw
theorem waitmt (f : R3) : Statement (.waitmt f) := fun w hw h => by
  obtain rfl := Option.some.inj h
  exact decode_of_shape (shape_minor decodeMajor45 readR3 45 3 (majorOf_of (packG3_mj ..)) (minorOf_of (packG3_mn ..)) (fun _ => rfl) (fun _ => rfl) (readR3_pack f 45#6 3#4)) rfl rfl hw
theorem mand (f : R3) : Statement (.mand f) := fun w hw h => by
  obtain rfl := Option.some.inj h
  exact decode_of_shape (shape_minor decodeMajor45 readR3 45 4 (majorOf_of (packG3_mj ..)) (minorOf_of (packG3_mn ..)) (fun _ => rfl) (fun _ => rfl) (readR3_pack f 45#6 4#4)) rfl rfl hw
theorem mor (f : R3) : Statement (.mor f) := fun w hw h => by
  obtain rfl := Option.some.inj h
  exact decode_of_shape (shape_minor decodeMajor45 readR3 45 5 (majorOf_of (packG3_mj ..)) (minorOf_of (packG3_mn ..)) (fun _ => rfl) (fun _ => rfl) (readR3_pack f 45#6 5#4)) rfl rfl hw
theorem mxor (f : R3) : Statement (.mxor f) := fun w hw h => by
  obtain rfl := Option.some.inj h
  exact decode_of_shape (shape_minor decodeMajor45 readR3 45 6 (majorOf_of (packG3_mj ..)) (minorOf_of (packG3_mn ..)) (fun _ => rfl) (fun _ => rfl) (readR3_pack f 45#6 6#4)) rfl rfl hw
theorem mandn (f : R3) : Statement (.mandn f) := fun w hw h => by
  obtain rfl := Option.some.inj h
  exact decode_of_shape (shape_minor decodeMajor45 readR3 45 7 (majorOf_of (packG3_mj ..)) (minorOf_of (packG3_mn ..)) (fun _ => rfl) (fun _ => rfl) (readR3_pack f 45#6 7#4)) rfl rfl hw
theorem mmov (f : R2) : Statement (.mmov f) := fun w hw h => by
  obtain rfl := Option.some.inj h
  exact decode_of_shape (shape_minor decodeMajor45 readR2 45 8 (majorOf_of (packG3_mj ..)) (minorOf_of (packG3_mn ..)) (fun _ => rfl) (fun _ => rfl) (readR2_pack f 45#6 8#4)) (zeroR2 f 45#6 8#4) rfl hw
theorem mset (f : R2) : Statement (.mset f) := fun w hw h => by
  obtain rfl := Option.some.inj h
  exact decode_of_shape (shape_minor decodeMajor45 readR2 45 9 (majorOf_of (packG3_mj ..)) (minorOf_of (packG3_mn ..)) (fun _ => rfl) (fun _ => rfl) (readR2_pack f 45#6 9#4)) (zeroR2 f 45#6 9#4) rfl hw
theorem mget (f : R3) : Statement (.mget f) := fun w hw h => by
  obtain rfl := Option.some.inj h
  exact decode_of_shape (shape_minor decodeMajor45 readR3 45 10 (majorOf_of (packG3_mj ..)) (minorOf_of (packG3_mn ..)) (fun _ => rfl) (fun _ => rfl) (readR3_pack f 45#6 10#4)) rfl rfl hw
theorem bar (f : BarF) : Statement (.bar f) := fun w _ h => by
  cases h; exact decode_packBar f
theorem tbinit (f : Rab) : Statement (.tbinit f) := fun w hw h => by
  obtain rfl := Option.some.inj h
  exact decode_of_shape (shape_minor decodeMajor46 readRab 46 1 (majorOf_of (packG3_mj ..)) (minorOf_of (packG3_mn ..)) (fun _ => rfl) (fun _ => rfl) (readRab_pack f 46#6 1#4)) (zeroRab f 46#6 1#4) rfl hw
theorem tbarrive (f : R2) : Statement (.tbarrive f) := fun w hw h => by
  obtain rfl := Option.some.inj h
  exact decode_of_shape (shape_minor decodeMajor46 readR2 46 2 (majorOf_of (packG3_mj ..)) (minorOf_of (packG3_mn ..)) (fun _ => rfl) (fun _ => rfl) (readR2_pack f 46#6 2#4)) (zeroR2 f 46#6 2#4) rfl hw
theorem tbwait (f : Rab) : Statement (.tbwait f) := fun w hw h => by
  obtain rfl := Option.some.inj h
  exact decode_of_shape (shape_minor decodeMajor46 readRab 46 3 (majorOf_of (packG3_mj ..)) (minorOf_of (packG3_mn ..)) (fun _ => rfl) (fun _ => rfl) (readRab_pack f 46#6 3#4)) (zeroRab f 46#6 3#4) rfl hw
theorem fenceRel (f : R0) : Statement (.fenceRel f) := fun w hw h => by
  obtain rfl := Option.some.inj h
  exact decode_of_shape (shape_minor decodeMajor46 readR0 46 4 (majorOf_of (packG3_mj ..)) (minorOf_of (packG3_mn ..)) (fun _ => rfl) (fun _ => rfl) (readR0_pack f 46#6 4#4)) (zeroR0 f 46#6 4#4) rfl hw
theorem fenceAcq (f : R0) : Statement (.fenceAcq f) := fun w hw h => by
  obtain rfl := Option.some.inj h
  exact decode_of_shape (shape_minor decodeMajor46 readR0 46 5 (majorOf_of (packG3_mj ..)) (minorOf_of (packG3_mn ..)) (fun _ => rfl) (fun _ => rfl) (readR0_pack f 46#6 5#4)) (zeroR0 f 46#6 5#4) rfl hw
theorem fenceAr (f : R0) : Statement (.fenceAr f) := fun w hw h => by
  obtain rfl := Option.some.inj h
  exact decode_of_shape (shape_minor decodeMajor46 readR0 46 6 (majorOf_of (packG3_mj ..)) (minorOf_of (packG3_mn ..)) (fun _ => rfl) (fun _ => rfl) (readR0_pack f 46#6 6#4)) (zeroR0 f 46#6 6#4) rfl hw
theorem tagwany (f : R2) : Statement (.tagwany f) := fun w hw h => by
  obtain rfl := Option.some.inj h
  exact decode_of_shape (shape_minor decodeMajor46 readR2 46 7 (majorOf_of (packG3_mj ..)) (minorOf_of (packG3_mn ..)) (fun _ => rfl) (fun _ => rfl) (readR2_pack f 46#6 7#4)) (zeroR2 f 46#6 7#4) rfl hw
theorem tagwall (f : R1) : Statement (.tagwall f) := fun w hw h => by
  obtain rfl := Option.some.inj h
  exact decode_of_shape (shape_minor decodeMajor46 readR1 46 8 (majorOf_of (packG3_mj ..)) (minorOf_of (packG3_mn ..)) (fun _ => rfl) (fun _ => rfl) (readR1_pack f 46#6 8#4)) (zeroR1 f 46#6 8#4) rfl hw
theorem tagfirst (f : R2) : Statement (.tagfirst f) := fun w hw h => by
  obtain rfl := Option.some.inj h
  exact decode_of_shape (shape_minor decodeMajor46 readR2 46 9 (majorOf_of (packG3_mj ..)) (minorOf_of (packG3_mn ..)) (fun _ => rfl) (fun _ => rfl) (readR2_pack f 46#6 9#4)) (zeroR2 f 46#6 9#4) rfl hw
theorem pref (f : PrefF) : Statement (.pref f) := fun w hw h => by
  obtain rfl := Option.some.inj h
  exact decode_of_shape (shape_one readPrefF 47 (majorOf_of (packM_mj ..)) (fun _ => rfl) (readPrefF_pack f 47#6)) (zeroPrefF f 47#6) (by simp [prefOrder]) hw
theorem ld (f : MemF) : Statement (.ld f) := fun w hw h => by
  obtain rfl := Option.some.inj h
  exact decode_of_shape (shape_one readMemF 48 (majorOf_of (packM_mj ..)) (fun _ => rfl) (readMemF_pack f 48#6)) (zeroMemF f 48#6) rfl hw
theorem st (f : MemF) : Statement (.st f) := fun w hw h => by
  obtain rfl := Option.some.inj h
  exact decode_of_shape (shape_one readMemF 49 (majorOf_of (packM_mj ..)) (fun _ => rfl) (readMemF_pack f 49#6)) (zeroMemF f 49#6) rfl hw
theorem ldl (f : MemF) : Statement (.ldl f) := fun w hw h => by
  obtain rfl := Option.some.inj h
  exact decode_of_shape (shape_one readMemF 50 (majorOf_of (packM_mj ..)) (fun _ => rfl) (readMemF_pack f 50#6)) (zeroMemF f 50#6) rfl hw
theorem stl (f : MemF) : Statement (.stl f) := fun w hw h => by
  obtain rfl := Option.some.inj h
  exact decode_of_shape (shape_one readMemF 51 (majorOf_of (packM_mj ..)) (fun _ => rfl) (readMemF_pack f 51#6)) (zeroMemF f 51#6) rfl hw
theorem lds (f : MemF) : Statement (.lds f) := fun w hw h => by
  obtain rfl := Option.some.inj h
  exact decode_of_shape (shape_one readMemF 52 (majorOf_of (packM_mj ..)) (fun _ => rfl) (readMemF_pack f 52#6)) (zeroMemF f 52#6) rfl hw
theorem sts (f : MemF) : Statement (.sts f) := fun w hw h => by
  obtain rfl := Option.some.inj h
  exact decode_of_shape (shape_one readMemF 53 (majorOf_of (packM_mj ..)) (fun _ => rfl) (readMemF_pack f 53#6)) (zeroMemF f 53#6) rfl hw
theorem ldc (f : MemF) : Statement (.ldc f) := fun w hw h => by
  obtain rfl := Option.some.inj h
  exact decode_of_shape (shape_one readMemF 54 (majorOf_of (packM_mj ..)) (fun _ => rfl) (readMemF_pack f 54#6)) (zeroMemF f 54#6) rfl hw
theorem stc (f : MemF) : Statement (.stc f) := fun w hw h => by
  obtain rfl := Option.some.inj h
  exact decode_of_shape (shape_one readMemF 55 (majorOf_of (packM_mj ..)) (fun _ => rfl) (readMemF_pack f 55#6)) (zeroMemF f 55#6) rfl hw
theorem ldx (f : MemF) : Statement (.ldx f) := fun w hw h => by
  obtain rfl := Option.some.inj h
  exact decode_of_shape (shape_one readMemF 56 (majorOf_of (packM_mj ..)) (fun _ => rfl) (readMemF_pack f 56#6)) (zeroMemF f 56#6) rfl hw
theorem stx (f : MemF) : Statement (.stx f) := fun w hw h => by
  obtain rfl := Option.some.inj h
  exact decode_of_shape (shape_one readMemF 57 (majorOf_of (packM_mj ..)) (fun _ => rfl) (readMemF_pack f 57#6)) (zeroMemF f 57#6) rfl hw
theorem atom (f : AtF) : Statement (.atom f) := fun w hw h => by
  obtain rfl := Option.some.inj h
  have hs : decodeShape (majorOf (packAT f.sw 58#6 f.d f.a f.b f.o true f.p)) (packAT f.sw 58#6 f.d f.a f.b f.o true f.p) = .ok (.atom f) := by
    have hm : majorOf (packAT f.sw 58#6 f.d f.a f.b f.o true f.p) = 58 := by simp [majorOf]
    rw [hm]
    simp [decodeShape, readAtF]
  exact decode_of_shape hs (rfl) (rfl) hw
theorem red (f : RedF) : Statement (.red f) := fun w hw h => by
  obtain rfl := Option.some.inj h
  have hs : decodeShape (majorOf (packAT f.sw 58#6 0#6 f.a f.b f.o false f.p)) (packAT f.sw 58#6 0#6 f.a f.b f.o false f.p) = .ok (.red f) := by
    have hm : majorOf (packAT f.sw 58#6 0#6 f.a f.b f.o false f.p) = 58 := by simp [majorOf]
    rw [hm]
    simp [decodeShape, readRedF]
  exact decode_of_shape hs (by simp [zeroFields, zD]) (rfl) hw
theorem atoms (f : AtX) : Statement (.atoms f) := fun w hw h => by
  obtain rfl := Option.some.inj h
  have hs : decodeShape (majorOf (packAT f.sw 59#6 f.d f.a f.b 1#2 true f.p)) (packAT f.sw 59#6 f.d f.a f.b 1#2 true f.p) = .ok (.atoms f) := by
    have hm : majorOf (packAT f.sw 59#6 f.d f.a f.b 1#2 true f.p) = 59 := by simp [majorOf]
    rw [hm]
    simp [decodeShape, decodeAtX, readAtX]
  exact decode_of_shape hs (rfl) (rfl) hw
theorem atomc (f : AtX) : Statement (.atomc f) := fun w hw h => by
  obtain rfl := Option.some.inj h
  have hs : decodeShape (majorOf (packAT f.sw 59#6 f.d f.a f.b 2#2 true f.p)) (packAT f.sw 59#6 f.d f.a f.b 2#2 true f.p) = .ok (.atomc f) := by
    have hm : majorOf (packAT f.sw 59#6 f.d f.a f.b 2#2 true f.p) = 59 := by simp [majorOf]
    rw [hm]
    simp [decodeShape, decodeAtX, readAtX]
  exact decode_of_shape hs (rfl) (rfl) hw
theorem atomx (f : AtX) : Statement (.atomx f) := fun w hw h => by
  obtain rfl := Option.some.inj h
  have hs : decodeShape (majorOf (packAT f.sw 59#6 f.d f.a f.b 3#2 true f.p)) (packAT f.sw 59#6 f.d f.a f.b 3#2 true f.p) = .ok (.atomx f) := by
    have hm : majorOf (packAT f.sw 59#6 f.d f.a f.b 3#2 true f.p) = 59 := by simp [majorOf]
    rw [hm]
    simp [decodeShape, decodeAtX, readAtX]
  exact decode_of_shape hs (rfl) (rfl) hw
theorem reds (f : RedX) : Statement (.reds f) := fun w hw h => by
  obtain rfl := Option.some.inj h
  have hs : decodeShape (majorOf (packAT f.sw 59#6 0#6 f.a f.b 1#2 false f.p)) (packAT f.sw 59#6 0#6 f.a f.b 1#2 false f.p) = .ok (.reds f) := by
    have hm : majorOf (packAT f.sw 59#6 0#6 f.a f.b 1#2 false f.p) = 59 := by simp [majorOf]
    rw [hm]
    simp [decodeShape, decodeAtX, readRedX]
  exact decode_of_shape hs (by simp [zeroFields, zD]) (rfl) hw
theorem redc (f : RedX) : Statement (.redc f) := fun w hw h => by
  obtain rfl := Option.some.inj h
  have hs : decodeShape (majorOf (packAT f.sw 59#6 0#6 f.a f.b 2#2 false f.p)) (packAT f.sw 59#6 0#6 f.a f.b 2#2 false f.p) = .ok (.redc f) := by
    have hm : majorOf (packAT f.sw 59#6 0#6 f.a f.b 2#2 false f.p) = 59 := by simp [majorOf]
    rw [hm]
    simp [decodeShape, decodeAtX, readRedX]
  exact decode_of_shape hs (by simp [zeroFields, zD]) (rfl) hw
theorem redx (f : RedX) : Statement (.redx f) := fun w hw h => by
  obtain rfl := Option.some.inj h
  have hs : decodeShape (majorOf (packAT f.sw 59#6 0#6 f.a f.b 3#2 false f.p)) (packAT f.sw 59#6 0#6 f.a f.b 3#2 false f.p) = .ok (.redx f) := by
    have hm : majorOf (packAT f.sw 59#6 0#6 f.a f.b 3#2 false f.p) = 59 := by simp [majorOf]
    rw [hm]
    simp [decodeShape, decodeAtX, readRedX]
  exact decode_of_shape hs (by simp [zeroFields, zD]) (rfl) hw
theorem cpy (f : R3) : Statement (.cpy f) := fun w hw h => by
  obtain rfl := Option.some.inj h
  exact decode_of_shape (shape_minor decodeMajor60 readR3 60 0 (majorOf_of (packG3_mj ..)) (minorOf_of (packG3_mn ..)) (fun _ => rfl) (fun _ => rfl) (readR3_pack f 60#6 0#4)) rfl rfl hw
theorem cpyg (f : R3) : Statement (.cpyg f) := fun w hw h => by
  obtain rfl := Option.some.inj h
  exact decode_of_shape (shape_minor decodeMajor60 readR3 60 1 (majorOf_of (packG3_mj ..)) (minorOf_of (packG3_mn ..)) (fun _ => rfl) (fun _ => rfl) (readR3_pack f 60#6 1#4)) rfl rfl hw
theorem cpys (f : R3) : Statement (.cpys f) := fun w hw h => by
  obtain rfl := Option.some.inj h
  exact decode_of_shape (shape_minor decodeMajor60 readR3 60 2 (majorOf_of (packG3_mj ..)) (minorOf_of (packG3_mn ..)) (fun _ => rfl) (fun _ => rfl) (readR3_pack f 60#6 2#4)) rfl rfl hw
theorem tcfg (f : R1) : Statement (.tcfg f) := fun w hw h => by
  obtain rfl := Option.some.inj h
  exact decode_of_shape (shape_minor decodeMajor61 readR1 61 0 (majorOf_of (packG3_mj ..)) (minorOf_of (packG3_mn ..)) (fun _ => rfl) (fun _ => rfl) (readR1_pack f 61#6 0#4)) (zeroR1 f 61#6 0#4) rfl hw
theorem wld (f : Rab) : Statement (.wld f) := fun w hw h => by
  obtain rfl := Option.some.inj h
  exact decode_of_shape (shape_minor decodeMajor61 readRab 61 1 (majorOf_of (packG3_mj ..)) (minorOf_of (packG3_mn ..)) (fun _ => rfl) (fun _ => rfl) (readRab_pack f 61#6 1#4)) (zeroRab f 61#6 1#4) rfl hw
theorem wswap (f : R0) : Statement (.wswap f) := fun w hw h => by
  obtain rfl := Option.some.inj h
  exact decode_of_shape (shape_minor decodeMajor61 readR0 61 2 (majorOf_of (packG3_mj ..)) (minorOf_of (packG3_mn ..)) (fun _ => rfl) (fun _ => rfl) (readR0_pack f 61#6 2#4)) (zeroR0 f 61#6 2#4) rfl hw
theorem mms (f : R3) : Statement (.mms f) := fun w hw h => by
  obtain rfl := Option.some.inj h
  exact decode_of_shape (shape_minor decodeMajor61 readR3 61 3 (majorOf_of (packG3_mj ..)) (minorOf_of (packG3_mn ..)) (fun _ => rfl) (fun _ => rfl) (readR3_pack f 61#6 3#4)) rfl rfl hw
theorem ast (f : R3) : Statement (.ast f) := fun w hw h => by
  obtain rfl := Option.some.inj h
  exact decode_of_shape (shape_minor decodeMajor61 readR3 61 4 (majorOf_of (packG3_mj ..)) (minorOf_of (packG3_mn ..)) (fun _ => rfl) (fun _ => rfl) (readR3_pack f 61#6 4#4)) rfl rfl hw
theorem ald (f : R2) : Statement (.ald f) := fun w hw h => by
  obtain rfl := Option.some.inj h
  exact decode_of_shape (shape_minor decodeMajor61 readR2 61 5 (majorOf_of (packG3_mj ..)) (minorOf_of (packG3_mn ..)) (fun _ => rfl) (fun _ => rfl) (readR2_pack f 61#6 5#4)) (zeroR2 f 61#6 5#4) rfl hw
theorem azero (f : Rd) : Statement (.azero f) := fun w hw h => by
  obtain rfl := Option.some.inj h
  exact decode_of_shape (shape_minor decodeMajor61 readRd 61 6 (majorOf_of (packG3_mj ..)) (minorOf_of (packG3_mn ..)) (fun _ => rfl) (fun _ => rfl) (readRd_pack f 61#6 6#4)) (zeroRd f 61#6 6#4) rfl hw
theorem scld (f : R3) : Statement (.scld f) := fun w hw h => by
  obtain rfl := Option.some.inj h
  exact decode_of_shape (shape_minor decodeMajor61 readR3 61 7 (majorOf_of (packG3_mj ..)) (minorOf_of (packG3_mn ..)) (fun _ => rfl) (fun _ => rfl) (readR3_pack f 61#6 7#4)) rfl rfl hw
theorem batonPass (f : Rs) : Statement (.batonPass f) := fun w hw h => by
  obtain rfl := Option.some.inj h
  exact decode_of_shape (shape_minor decodeMajor61 readRs 61 8 (majorOf_of (packG3_mj ..)) (minorOf_of (packG3_mn ..)) (fun _ => rfl) (fun _ => rfl) (readRs_pack f 61#6 8#4)) (zeroRs f 61#6 8#4) rfl hw
theorem batonWait (f : Rs) : Statement (.batonWait f) := fun w hw h => by
  obtain rfl := Option.some.inj h
  exact decode_of_shape (shape_minor decodeMajor61 readRs 61 9 (majorOf_of (packG3_mj ..)) (minorOf_of (packG3_mn ..)) (fun _ => rfl) (fun _ => rfl) (readRs_pack f 61#6 9#4)) (zeroRs f 61#6 9#4) rfl hw
theorem solve (f : Rsa) : Statement (.solve f) := fun w hw h => by
  obtain rfl := Option.some.inj h
  exact decode_of_shape (shape_minor decodeMajor62 readRsa 62 0 (majorOf_of (packG3_mj ..)) (minorOf_of (packG3_mn ..)) (fun _ => rfl) (fun _ => rfl) (readRsa_pack f 62#6 0#4)) (zeroRsa f 62#6 0#4) rfl hw
theorem solend (f : Rs) : Statement (.solend f) := fun w hw h => by
  obtain rfl := Option.some.inj h
  exact decode_of_shape (shape_minor decodeMajor62 readRs 62 1 (majorOf_of (packG3_mj ..)) (minorOf_of (packG3_mn ..)) (fun _ => rfl) (fun _ => rfl) (readRs_pack f 62#6 1#4)) (zeroRs f 62#6 1#4) rfl hw
theorem msend (f : Rab) : Statement (.msend f) := fun w hw h => by
  obtain rfl := Option.some.inj h
  exact decode_of_shape (shape_minor decodeMajor62 readRab 62 2 (majorOf_of (packG3_mj ..)) (minorOf_of (packG3_mn ..)) (fun _ => rfl) (fun _ => rfl) (readRab_pack f 62#6 2#4)) (zeroRab f 62#6 2#4) rfl hw
theorem rput (f : Rab) : Statement (.rput f) := fun w hw h => by
  obtain rfl := Option.some.inj h
  exact decode_of_shape (shape_minor decodeMajor62 readRab 62 3 (majorOf_of (packG3_mj ..)) (minorOf_of (packG3_mn ..)) (fun _ => rfl) (fun _ => rfl) (readRab_pack f 62#6 3#4)) (zeroRab f 62#6 3#4) rfl hw
theorem rget (f : R2) : Statement (.rget f) := fun w hw h => by
  obtain rfl := Option.some.inj h
  exact decode_of_shape (shape_minor decodeMajor62 readR2 62 4 (majorOf_of (packG3_mj ..)) (minorOf_of (packG3_mn ..)) (fun _ => rfl) (fun _ => rfl) (readR2_pack f 62#6 4#4)) (zeroR2 f 62#6 4#4) rfl hw
theorem ratom (f : R3) : Statement (.ratom f) := fun w hw h => by
  obtain rfl := Option.some.inj h
  exact decode_of_shape (shape_minor decodeMajor62 readR3 62 5 (majorOf_of (packG3_mj ..)) (minorOf_of (packG3_mn ..)) (fun _ => rfl) (fun _ => rfl) (readR3_pack f 62#6 5#4)) rfl rfl hw
theorem waitq (f : Rd) : Statement (.waitq f) := fun w hw h => by
  obtain rfl := Option.some.inj h
  exact decode_of_shape (shape_minor decodeMajor62 readRd 62 6 (majorOf_of (packG3_mj ..)) (minorOf_of (packG3_mn ..)) (fun _ => rfl) (fun _ => rfl) (readRd_pack f 62#6 6#4)) (zeroRd f 62#6 6#4) rfl hw
theorem tspawn (f : R1) : Statement (.tspawn f) := fun w hw h => by
  obtain rfl := Option.some.inj h
  exact decode_of_shape (shape_minor decodeMajor62 readR1 62 7 (majorOf_of (packG3_mj ..)) (minorOf_of (packG3_mn ..)) (fun _ => rfl) (fun _ => rfl) (readR1_pack f 62#6 7#4)) (zeroR1 f 62#6 7#4) rfl hw
theorem tdone (f : R0) : Statement (.tdone f) := fun w hw h => by
  obtain rfl := Option.some.inj h
  exact decode_of_shape (shape_minor decodeMajor62 readR0 62 8 (majorOf_of (packG3_mj ..)) (minorOf_of (packG3_mn ..)) (fun _ => rfl) (fun _ => rfl) (readR0_pack f 62#6 8#4)) (zeroR0 f 62#6 8#4) rfl hw
theorem launch (f : R2) : Statement (.launch f) := fun w hw h => by
  obtain rfl := Option.some.inj h
  exact decode_of_shape (shape_minor decodeMajor62 readR2 62 9 (majorOf_of (packG3_mj ..)) (minorOf_of (packG3_mn ..)) (fun _ => rfl) (fun _ => rfl) (readR2_pack f 62#6 9#4)) (zeroR2 f 62#6 9#4) rfl hw
theorem publish (f : R1) : Statement (.publish f) := fun w hw h => by
  obtain rfl := Option.some.inj h
  exact decode_of_shape (shape_minor decodeMajor62 readR1 62 10 (majorOf_of (packG3_mj ..)) (minorOf_of (packG3_mn ..)) (fun _ => rfl) (fun _ => rfl) (readR1_pack f 62#6 10#4)) (zeroR1 f 62#6 10#4) rfl hw
theorem prog (f : R1) : Statement (.prog f) := fun w hw h => by
  obtain rfl := Option.some.inj h
  exact decode_of_shape (shape_minor decodeMajor62 readR1 62 11 (majorOf_of (packG3_mj ..)) (minorOf_of (packG3_mn ..)) (fun _ => rfl) (fun _ => rfl) (readR1_pack f 62#6 11#4)) (zeroR1 f 62#6 11#4) rfl hw
theorem subpol (f : R1) : Statement (.subpol f) := fun w hw h => by
  obtain rfl := Option.some.inj h
  exact decode_of_shape (shape_minor decodeMajor62 readR1 62 12 (majorOf_of (packG3_mj ..)) (minorOf_of (packG3_mn ..)) (fun _ => rfl) (fun _ => rfl) (readR1_pack f 62#6 12#4)) (zeroR1 f 62#6 12#4) rfl hw
theorem subq (f : R2) : Statement (.subq f) := fun w hw h => by
  obtain rfl := Option.some.inj h
  exact decode_of_shape (shape_minor decodeMajor62 readR2 62 13 (majorOf_of (packG3_mj ..)) (minorOf_of (packG3_mn ..)) (fun _ => rfl) (fun _ => rfl) (readR2_pack f 62#6 13#4)) (zeroR2 f 62#6 13#4) rfl hw
theorem trap (f : TrapF) : Statement (.trap f) := fun w hw h => by
  obtain rfl := Option.some.inj h
  exact decode_of_shape (shape_minor decodeMajor63 readTrapF 63 0 (majorOf_of (packCr_mj ..)) (minorOf_of (packCr_mn ..)) (fun _ => rfl) (fun _ => rfl) (readTrapF_pack f 63#6 0#4)) (zeroTrapF f 63#6 0#4) rfl hw
theorem eret (f : R0) : Statement (.eret f) := fun w hw h => by
  obtain rfl := Option.some.inj h
  exact decode_of_shape (shape_minor decodeMajor63 readR0 63 1 (majorOf_of (packG3_mj ..)) (minorOf_of (packG3_mn ..)) (fun _ => rfl) (fun _ => rfl) (readR0_pack f 63#6 1#4)) (zeroR0 f 63#6 1#4) rfl hw
theorem crr (f : CrF) : Statement (.crr f) := fun w hw h => by
  obtain rfl := Option.some.inj h
  exact decode_of_shape (shape_minor decodeMajor63 readCrF 63 2 (majorOf_of (packCr_mj ..)) (minorOf_of (packCr_mn ..)) (fun _ => rfl) (fun _ => rfl) (readCrF_pack f 63#6 2#4)) rfl rfl hw
theorem crw (f : CrF) : Statement (.crw f) := fun w hw h => by
  obtain rfl := Option.some.inj h
  exact decode_of_shape (shape_minor decodeMajor63 readCrF 63 3 (majorOf_of (packCr_mj ..)) (minorOf_of (packCr_mn ..)) (fun _ => rfl) (fun _ => rfl) (readCrF_pack f 63#6 3#4)) rfl rfl hw
theorem icinv (f : Rab) : Statement (.icinv f) := fun w hw h => by
  obtain rfl := Option.some.inj h
  exact decode_of_shape (shape_minor decodeMajor63 readRab 63 4 (majorOf_of (packG3_mj ..)) (minorOf_of (packG3_mn ..)) (fun _ => rfl) (fun _ => rfl) (readRab_pack f 63#6 4#4)) (zeroRab f 63#6 4#4) rfl hw
theorem tlbinv (f : Rab) : Statement (.tlbinv f) := fun w hw h => by
  obtain rfl := Option.some.inj h
  exact decode_of_shape (shape_minor decodeMajor63 readRab 63 5 (majorOf_of (packG3_mj ..)) (minorOf_of (packG3_mn ..)) (fun _ => rfl) (fun _ => rfl) (readRab_pack f 63#6 5#4)) (zeroRab f 63#6 5#4) rfl hw
theorem bist (f : R2) : Statement (.bist f) := fun w hw h => by
  obtain rfl := Option.some.inj h
  exact decode_of_shape (shape_minor decodeMajor63 readR2 63 6 (majorOf_of (packG3_mj ..)) (minorOf_of (packG3_mn ..)) (fun _ => rfl) (fun _ => rfl) (readR2_pack f 63#6 6#4)) (zeroR2 f 63#6 6#4) rfl hw
theorem halt (f : R0) : Statement (.halt f) := fun w hw h => by
  obtain rfl := Option.some.inj h
  exact decode_of_shape (shape_minor decodeMajor63 readR0 63 7 (majorOf_of (packG3_mj ..)) (minorOf_of (packG3_mn ..)) (fun _ => rfl) (fun _ => rfl) (readR0_pack f 63#6 7#4)) (zeroR0 f 63#6 7#4) rfl hw
theorem hostFetchStart (ctx : Nat) (r : TRef) : Statement (.hostFetchStart ctx r) := fun _ _ h => by cases h
theorem hostFetchAbandon (ctx : Nat) : Statement (.hostFetchAbandon ctx) := fun _ _ h => by cases h
theorem preemptTeam (ctx writer team : Nat) : Statement (.preemptTeam ctx writer team) := fun _ _ h => by cases h
theorem preemptLaunch (ctx writer : Nat) : Statement (.preemptLaunch ctx writer) := fun _ _ h => by cases h
theorem abortRequest (ctx writer team : Nat) : Statement (.abortRequest ctx writer team) := fun _ _ h => by cases h
theorem setFabricPeriod (job : BitVec 16) (period : Word) : Statement (.setFabricPeriod job period) := fun _ _ h => by cases h
theorem railOffsetWrite (die rail : Nat) (step : BitVec 8) : Statement (.railOffsetWrite die rail step) := fun _ _ h => by cases h
theorem eyeScanStart (die ctx : Nat) : Statement (.eyeScanStart die ctx) := fun _ _ h => by cases h
theorem eyeScanComplete (die : Nat) : Statement (.eyeScanComplete die) := fun _ _ h => by cases h
theorem bistComplete (die : Nat) : Statement (.bistComplete die) := fun _ _ h => by cases h
theorem launchPacket (bytes : List Byte) (host : Bool) : Statement (.launchPacket bytes host) := fun _ _ h => by cases h
theorem teamAdmission : Statement (.teamAdmission ) := fun _ _ h => by cases h
theorem teamRestore : Statement (.teamRestore ) := fun _ _ h => by cases h
theorem teamRetirement (team : Nat) : Statement (.teamRetirement team) := fun _ _ h => by cases h
theorem launchCompletion (launch : Nat) : Statement (.launchCompletion launch) := fun _ _ h => by cases h
theorem taskAdmission (core : Nat) : Statement (.taskAdmission core) := fun _ _ h => by cases h
theorem spillReturn (core : Nat) : Statement (.spillReturn core) := fun _ _ h => by cases h
theorem taskRetirement (team : Nat) : Statement (.taskRetirement team) := fun _ _ h => by cases h
theorem teamImageSave (team : Nat) : Statement (.teamImageSave team) := fun _ _ h => by cases h
theorem resultReturn (r : TRef) (n : Nat) : Statement (.resultReturn r n) := fun _ _ h => by cases h
theorem l1WriteBack (core pa start : Nat) : Statement (.l1WriteBack core pa start) := fun _ _ h => by cases h
theorem releaseCompletion (c : CRef) : Statement (.releaseCompletion c) := fun _ _ h => by cases h
theorem pageWalk (die ctx : Nat) (va : DWord) : Statement (.pageWalk die ctx va) := fun _ _ h => by cases h
theorem supervisorTrapEntry (r : TRef) : Statement (.supervisorTrapEntry r) := fun _ _ h => by cases h
theorem waitmtTimeout (r : TRef) : Statement (.waitmtTimeout r) := fun _ _ h => by cases h
theorem deterministicIdleStep (core : Nat) : Statement (.deterministicIdleStep core) := fun _ _ h => by cases h
theorem deterministicYield (core : Nat) : Statement (.deterministicYield core) := fun _ _ h => by cases h
theorem spinDemotion (r : TRef) : Statement (.spinDemotion r) := fun _ _ h => by cases h
theorem copyDeferredStart (r : TRef) : Statement (.copyDeferredStart r) := fun _ _ h => by cases h
theorem copyChunk (cluster : Nat) : Statement (.copyChunk cluster) := fun _ _ h => by cases h
theorem matrixInstructionStart (team id : Nat) : Statement (.matrixInstructionStart team id) := fun _ _ h => by cases h
theorem matrixInstructionComplete (team id : Nat) : Statement (.matrixInstructionComplete team id) := fun _ _ h => by cases h
theorem scaleCacheFill (team id : Nat) : Statement (.scaleCacheFill team id) := fun _ _ h => by cases h
theorem solveStep (team : Nat) : Statement (.solveStep team) := fun _ _ h => by cases h
theorem solendStep (team : Nat) : Statement (.solendStep team) := fun _ _ h => by cases h
theorem messageInjection (id : Nat) : Statement (.messageInjection id) := fun _ _ h => by cases h
theorem activeMessageArrival (m : Msg) (e : Envelope) (dest : Nat) (bad : Bool) : Statement (.activeMessageArrival m e dest bad) := fun _ _ h => by cases h
theorem remotePutArrival (m : Msg) (e : Envelope) (dest : Nat) (bad : Bool) : Statement (.remotePutArrival m e dest bad) := fun _ _ h => by cases h
theorem remoteGetArrival (m : Msg) (e : Envelope) (dest : Nat) (bad : Bool) : Statement (.remoteGetArrival m e dest bad) := fun _ _ h => by cases h
theorem remoteAtomicArrival (m : Msg) (e : Envelope) (dest : Nat) (bad ret : Bool) : Statement (.remoteAtomicArrival m e dest bad ret) := fun _ _ h => by cases h
theorem replyArrival (m : Msg) (e : Envelope) (dest : Nat) (bad : Bool) : Statement (.replyArrival m e dest bad) := fun _ _ h => by cases h
theorem handlerStart (team crew : Nat) : Statement (.handlerStart team crew) := fun _ _ h => by cases h
theorem handlerRetirement (team crew : Nat) : Statement (.handlerRetirement team crew) := fun _ _ h => by cases h
theorem acknowledgement (iface : Nat) (seq : Word) : Statement (.acknowledgement iface seq) := fun _ _ h => by cases h
theorem attemptTimeout (id : Nat) : Statement (.attemptTimeout id) := fun _ _ h => by cases h
theorem lossQuery (id : Nat) : Statement (.lossQuery id) := fun _ _ h => by cases h
theorem lossQueryArrival (m : Msg) (e : Envelope) (dest : Nat) : Statement (.lossQueryArrival m e dest) := fun _ _ h => by cases h
theorem lossQueryAnswer (iface : Nat) (seq : Word) (received : Bool) : Statement (.lossQueryAnswer iface seq received) := fun _ _ h => by cases h
theorem queryTimeout (id : Nat) : Statement (.queryTimeout id) := fun _ _ h => by cases h
theorem lossNotice (iface : Nat) (seq : Word) (code : Nat) : Statement (.lossNotice iface seq code) := fun _ _ h => by cases h
theorem failureNotice (iface : Nat) (seq : Word) (cls code detail : Nat) : Statement (.failureNotice iface seq cls code detail) := fun _ _ h => by cases h
theorem waveStart (job : BitVec 16) : Statement (.waveStart job) := fun _ _ h => by cases h
theorem passRequest (job : BitVec 16) (number pass iface : Nat) : Statement (.passRequest job number pass iface) := fun _ _ h => by cases h
theorem passComplete (job : BitVec 16) : Statement (.passComplete job) := fun _ _ h => by cases h
theorem verdict (job : BitVec 16) (number kind : Nat) (sums : Sums) (die : Nat) : Statement (.verdict job number kind sums die) := fun _ _ h => by cases h
theorem waveIncomplete (job : BitVec 16) : Statement (.waveIncomplete job) := fun _ _ h => by cases h
theorem timingBeacon (beacon : Beacon) : Statement (.timingBeacon beacon) := fun _ _ h => by cases h
theorem beaconSend : Statement (.beaconSend ) := fun _ _ h => by cases h
theorem d2dFlit (source target : Nat) (good : Bool) : Statement (.d2dFlit source target good) := fun _ _ h => by cases h
theorem weevilWindowSelect (core : Nat) : Statement (.weevilWindowSelect core) := fun _ _ h => by cases h
theorem candidateInstall (core : Nat) (words : List Word) (exact : Bool) (id : Nat) : Statement (.candidateInstall core words exact id) := fun _ _ h => by cases h
theorem windowBarren (core : Nat) : Statement (.windowBarren core) := fun _ _ h => by cases h
theorem windowExecution (entry : Nat) : Statement (.windowExecution entry) := fun _ _ h => by cases h
theorem dualRunComparison (core : Nat) : Statement (.dualRunComparison core) := fun _ _ h => by cases h
theorem entryReplication (source target cand : Nat) : Statement (.entryReplication source target cand) := fun _ _ h => by cases h
theorem candidateWithdrawal (cand : Nat) : Statement (.candidateWithdrawal cand) := fun _ _ h => by cases h
theorem teamStop (team : Nat) : Statement (.teamStop team) := fun _ _ h => by cases h
theorem traceRecovery (core : Nat) : Statement (.traceRecovery core) := fun _ _ h => by cases h
theorem sampleTick (core : Nat) : Statement (.sampleTick core) := fun _ _ h => by cases h
theorem histogramFlush (launch : Nat) : Statement (.histogramFlush launch) := fun _ _ h => by cases h
theorem causalTrialEnd (launch : Nat) : Statement (.causalTrialEnd launch) := fun _ _ h => by cases h
theorem hostReadData (ctx : Nat) (bytes : List Byte) (error : Bool) : Statement (.hostReadData ctx bytes error) := fun _ _ h => by cases h
theorem hostFetchTimeout (ctx : Nat) : Statement (.hostFetchTimeout ctx) := fun _ _ h => by cases h
theorem publicationWrite (ctx window : Nat) : Statement (.publicationWrite ctx window) := fun _ _ h => by cases h
theorem publicationTimeout (ctx window : Nat) : Statement (.publicationTimeout ctx window) := fun _ _ h => by cases h
theorem readCapabilityTable (seq offset length : Nat) : Statement (.readCapabilityTable seq offset length) := fun _ _ h => by cases h
theorem stop (seq ctx : Nat) (tag : DWord) (team : Option Nat) (dump : DWord) (memory : Bool) : Statement (.stop seq ctx tag team dump memory) := fun _ _ h => by cases h
theorem resume (seq ctx : Nat) (tag : DWord) (team : Option Nat) : Statement (.resume seq ctx tag team) := fun _ _ h => by cases h
theorem traceOn (seq ctx : Nat) (tag : DWord) (team : Option Nat) (base : DWord) (size : Nat) : Statement (.traceOn seq ctx tag team base size) := fun _ _ h => by cases h
theorem traceOff (seq ctx : Nat) (tag : DWord) (team : Option Nat) : Statement (.traceOff seq ctx tag team) := fun _ _ h => by cases h
theorem causalTrial (seq ctx : Nat) (tag : DWord) (lo hi delay duration : Nat) (result : DWord) : Statement (.causalTrial seq ctx tag lo hi delay duration result) := fun _ _ h => by cases h
theorem sampling (seq ctx : Nat) (tag : DWord) (period lo g : Nat) (result : DWord) : Statement (.sampling seq ctx tag period lo g result) := fun _ _ h => by cases h
theorem coreResume (seq core : Nat) : Statement (.coreResume seq core) := fun _ _ h => by cases h
theorem readDefectMap (seq die : Nat) : Statement (.readDefectMap seq die) := fun _ _ h => by cases h
theorem setRailOffset (seq die rail : Nat) (step : BitVec 8) : Statement (.setRailOffset seq die rail step) := fun _ _ h => by cases h
theorem eyeScan (seq die kind port lane : Nat) (result : DWord) : Statement (.eyeScan seq die kind port lane result) := fun _ _ h => by cases h
theorem readAgeing (seq die : Nat) : Statement (.readAgeing seq die) := fun _ _ h => by cases h
theorem attest (seq : Nat) (nonce : List Byte) : Statement (.attest seq nonce) := fun _ _ h => by cases h
theorem changeLifecycleState (seq new : Nat) (authorisation : List Byte) : Statement (.changeLifecycleState seq new authorisation) := fun _ _ h => by cases h
theorem installFirmware (seq address length : Nat) : Statement (.installFirmware seq address length) := fun _ _ h => by cases h
theorem createLaunchContext (seq ctx : Nat) (ptroot saveaddr taskspill : DWord) : Statement (.createLaunchContext seq ctx ptroot saveaddr taskspill) := fun _ _ h => by cases h
theorem destroyLaunchContext (seq ctx : Nat) : Statement (.destroyLaunchContext seq ctx) := fun _ _ h => by cases h
theorem writePhysicalMemory (seq die tier offset : Nat) (data : List Byte) : Statement (.writePhysicalMemory seq die tier offset data) := fun _ _ h => by cases h
theorem readPhysicalMemory (seq die tier offset length : Nat) : Statement (.readPhysicalMemory seq die tier offset length) := fun _ _ h => by cases h
theorem setFabricIdentity (seq number : Nat) (source : Option Nat) : Statement (.setFabricIdentity seq number source) := fun _ _ h => by cases h
theorem openJobSlot (seq job : Nat) : Statement (.openJobSlot seq job) := fun _ _ h => by cases h
theorem closeJobSlot (seq job : Nat) : Statement (.closeJobSlot seq job) := fun _ _ h => by cases h
theorem loadRouteTable (seq job : Nat) (entries : List RouteEntry) : Statement (.loadRouteTable seq job entries) := fun _ _ h => by cases h
theorem setWaveTree (seq job : Nat) (root : Bool) (parent : Nat) (children : BitVec 96) : Statement (.setWaveTree seq job root parent children) := fun _ _ h => by cases h
theorem unknownCommand (seq command : Nat) : Statement (.unknownCommand seq command) := fun _ _ h => by cases h
theorem dieReset (die : Nat) : Statement (.dieReset die) := fun _ _ h => by cases h
theorem dieReadmission (die : Nat) : Statement (.dieReadmission die) := fun _ _ h => by cases h
theorem tierReopen (die : Nat) : Statement (.tierReopen die) := fun _ _ h => by cases h
theorem moduleReset : Statement (.moduleReset ) := fun _ _ h => by cases h
theorem scrub (pa : Nat) (corrected uncorrectable : Bool) : Statement (.scrub pa corrected uncorrectable) := fun _ _ h => by cases h
theorem hourlyErrorLog (met : List (Nat × Nat × Nat)) : Statement (.hourlyErrorLog met) := fun _ _ h => by cases h
theorem ageingUpdate : Statement (.ageingUpdate ) := fun _ _ h => by cases h
theorem clockThrottle (mhz : Nat) : Statement (.clockThrottle mhz) := fun _ _ h => by cases h
theorem reservedEncoding (w : Word) : Statement (.reservedEncoding w) := fun _ _ h => by cases h
theorem instructionLineFill (core ctx : Nat) (va : DWord) (sup : Bool) : Statement (.instructionLineFill core ctx va sup) := fun _ _ h => by cases h
theorem constantCacheFill (core launch bank word : Nat) : Statement (.constantCacheFill core launch bank word) := fun _ _ h => by cases h
theorem childPortSum (job : BitVec 16) (number pass port : Nat) (q : Sums) : Statement (.childPortSum job number pass port q) := fun _ _ h => by cases h
theorem fabricFlit (port : Nat) : Statement (.fabricFlit port) := fun _ _ h => by cases h
theorem setBreakpoint (launch number : Nat) (offset : Option Nat) (dump : DWord) : Statement (.setBreakpoint launch number offset dump) := fun _ _ h => by cases h

end Sys2Proof.Laws.RoundTrip
end

