-- ==== Sys2Proof/Tests/Slice0.lean ====
section
/-!
SUPPORT. Tests: words written out from the spec's encodings and what they decode to, ill-formed terms that the checks refuse,
small effects, and for each statement a concrete state and operands that meet its hypotheses.
-/
namespace Sys2Proof.Tests
open Sys2Proof Sys2Proof.Machine

set_option maxRecDepth 4000

/-! ## A small machine -/

/-- A thread at the start of a line, and one in supervisor privilege. -/
def th0 : Thread := Thread.start 0x10000 0
def thS : Thread := { th0 with sup := true }
def crewOf (t : Thread) : Crew := { Crew.start 0 0x10000 0 with threads := Vector.replicate 64 t }
def c0 : CRef := ⟨0, 0⟩
def r0 : TRef := ⟨0, 0, 0⟩
/-- A 2 MiB page at address 0x200000 that user threads may read, write and execute, in the TLBs of core 0, cluster 0 and die 0. -/
def page : TlbEntry := ⟨.core 0, 1, 0x200000, 0x200000, 0x40000000, true, true, true, 2⟩
def pageC : TlbEntry := { page with at_ := .cluster 0 }
def pageD : TlbEntry := { page with at_ := .die 0 }
def team0 : Team := { placedTeam 0 with laneSize := 1024 }
/-- One crew of equal threads on core 0 in context 1, of which the lanes `m` are the group. -/
def small (t : Thread) (m : BitVec 64) : State :=
  { State.reset with
    crews := [(c0, crewOf t)], teams := [(0, team0)], launches := [(0, placedLaunch)], ctxs := [(1, { Ctx.reset with ptroot := 0x1000000 })]
    tlb := [page, pageC, pageD], clu := [((0, 0), ⟨0, 4096, []⟩)], chip := [((0, 0), ⟨0, 4096, []⟩)]
    cur := { Group.none with lanes := [(c0, m)] } }
/-- The same group with another team, and a thread with general registers set. -/
def withTeam (tm : Team) (s : State) : State := { s with teams := [(0, tm)] }
def withRegs (l : List (Reg6 × Word)) (t : Thread) : Thread := l.foldl (fun t x => t.setReg x.1 x.2) t

def origin0 : Origin := ⟨1, 0, 0, 0, 0, false, false, false⟩
/-- A host fetch that has yet to write the words `marks`; a word of core 0's L1 that crew 0 made dirty. -/
def fetch0 (failed : Bool) (marks : List Nat) : Fetch :=
  { id := 2, src := 0, dst := 0x200000, length := 64, written := 0, requested := true, since := 0, failed := failed, team := 0,
    origin := origin0, pc := 0x10000, time := 0, cycle := 0, core := 0, marks := marks }
def dirtyWord : L1Word := ⟨0, 0x40000040, 7, 15, 15, false, false, [c0], c0, 0, false, false, 0x200040, 1, 0x10000, 0, 2 ^ 30⟩
/-- The release of crew 0 waits for a word that an engine has yet to write. -/
def behind (s : State) : State :=
  { s with l1 := [dirtyWord], ctxs := [(1, { Ctx.reset with ptroot := 0x1000000, fetches := [fetch0 false [0x10000010]] })] }

theorem crewOf_thread (t : Thread) (l : Nat) (h : l < 64) : (crewOf t).thread l = t := by
  show (Vector.replicate 64 t).getD l _ = t
  simp [Vector.getD, h]

theorem ready_on (i : Instr) (s : State) (t : Thread) (w : Crew) (m : BitVec 64) (tm : Team) {pc : DWord} (h1 : s.crews = [(c0, w)])
    (h2 : s.teams = [(0, tm)]) (h3 : s.cur = { Group.none with pc := pc, lanes := [(c0, m)] }) (h4 : m ≠ 0) (h5 : tm.deferred = [])
    (h6 : t.late = none) (h7 : brokenChain i t = false) (h8 : i.privileged = true → t.sup = true) (h9 : t.exited = false)
    (h10 : s.traces = []) (h11 : s.trials = []) (h12 : w.threads = Vector.replicate 64 t)
    (h14 : w.service = none := by rfl) (h15 : s.flaws = [] := by rfl) (h16 : (∀ f, i ≠ .eret f) ∨ t.estat = 0 ∨ t.estat = 1 := by exact .inr (.inl rfl)) : Ready i s c0 w m := by
  have ht : ∀ l, l < 64 → w.thread l = t := fun l h => by
    show w.threads.getD l _ = t
    rw [h12]; simp [Vector.getD, h]
  constructor
  · simp [State.crew?, h1, Tbl.at?]
  · rw [h3]
  · exact h4
  · rw [h3]; rfl
  · rw [h3]; rfl
  · intro u hu
    have : u = tm := by simpa [State.team?, h2, Tbl.at?, c0] using hu.symm
    subst this; unfold duePending; rw [h5]
  · intro l hl; rw [ht l (BitVec.lt_of_getLsbD hl), h6]
  · intro l hl; rw [ht l (BitVec.lt_of_getLsbD hl), h7]
  · intro hp l hl; rw [ht l (BitVec.lt_of_getLsbD hl), h8 hp]
  · intro f e l hl; rw [ht l (BitVec.lt_of_getLsbD hl)]; rcases h16 with h | h | h <;> first | exact absurd e (h f) | rw [h] <;> rfl
  · intro _ l hl; rw [ht l hl, h9]
  · exact h14
  · exact h15
  · exact h10
  · exact h11

/-- Nothing keeps the whole crew of the small machine from an instruction that is not privileged. -/
theorem ready_all (i : Instr) (h : i.privileged = false) : Ready i (small th0 (BitVec.allOnes 64)) c0 (crewOf th0) (BitVec.allOnes 64) :=
  ready_on i _ th0 _ _ _ rfl rfl rfl (by decide) rfl rfl rfl (fun e => by rw [h] at e; cases e) rfl rfl rfl rfl

theorem one_on (i : Instr) (s : State) (t : Thread) (w : Crew) (tm : Team) {pc : DWord} (h1 : s.crews = [(c0, w)]) (h2 : s.teams = [(0, tm)])
    (h3 : s.cur = { Group.none with pc := pc, lanes := [(c0, 1)] }) (h5 : tm.deferred = []) (h6 : t.late = none)
    (h7 : brokenChain i t = false) (h8 : i.privileged = true → t.sup = true) (h9 : t.exited = false)
    (h10 : s.traces = []) (h11 : s.trials = []) (h12 : w.threads = Vector.replicate 64 t) (h13 : guardOf i t = true)
    (h14 : w.service = none := by rfl) (h15 : s.flaws = [] := by rfl) (h16 : (∀ f, i ≠ .eret f) ∨ t.estat = 0 ∨ t.estat = 1 := by exact .inr (.inl rfl)) : One i s c0 w 0 :=
  ⟨by decide, ready_on i s t w 1 tm h1 h2 h3 (by decide) h5 h6 h7 h8 h9 h10 h11 h12 h14 h15 h16, by
    have : w.thread 0 = t := by
      show w.threads.getD 0 _ = t
      rw [h12]; rfl
    rw [this]; exact h13⟩

/-- Lane 0 of the small machine, with the thread `t`, executes an instruction whose guard is true. -/
theorem one_small (i : Instr) (t : Thread) (h6 : t.late = none) (h7 : brokenChain i t = false)
    (h8 : i.privileged = true → t.sup = true) (h9 : t.exited = false) (h13 : guardOf i t = true)
    (h16 : (∀ f, i ≠ .eret f) ∨ t.estat = 0 ∨ t.estat = 1 := by exact .inr (.inl rfl)) : One i (small t 1) c0 (crewOf t) 0 :=
  one_on i _ t _ _ rfl rfl rfl rfl h6 h7 h8 h9 rfl rfl rfl h13 (h16 := h16)

theorem quiet_on (s : State) (w : Crew) (tm : Team) (h1 : s.engineUnits = []) (h2 : s.teams = [(0, tm)])
    (h4 : s.l1 = []) (h5 : w.fence = none) (h6 : tm.task = none) : Quiet s c0 w :=
  ⟨h1, (fun x hx => by rw [h4] at hx; cases hx), h5, by simp [State.buffering, State.team?, h2, Tbl.at?, c0, h6]⟩

/-- Ends part 1 of the tests. An inductive type joins the environment only when all proofs before it have been checked, so the
checks of one part are over before those of the next begin; without these the waiting checks fill the memory. -/
inductive Part1 where | ended

/-! ## Witnesses: the hypotheses of the statements can be met -/

/-- Every lane of the small machine is ready for an instruction. -/
def ReadyFor (i : Instr) : Prop := Ready i (small th0 (BitVec.allOnes 64)) c0 (crewOf th0) (BitVec.allOnes 64)

theorem witness_IntegerSumsAndProducts :
  (∀ f : R3u, ReadyFor (.iadd f) ∧ ReadyFor (.isub f) ∧ ReadyFor (.imul f) ∧ ReadyFor (.iadd64 f) ∧ ReadyFor
    (.isub64 f) ∧ ReadyFor (.imul64 f)) :=
  fun _ => ⟨ready_all _ rfl, ready_all _ rfl, ready_all _ rfl, ready_all _ rfl, ready_all _ rfl, ready_all _
    rfl⟩

theorem witness_IntegerHighMinMaxQuotient :
  (∀ f : R3u, ReadyFor (.imulh f) ∧ ReadyFor (.imulh64 f) ∧ ReadyFor (.imin f) ∧ ReadyFor (.imin64 f) ∧ ReadyFor
    (.imax f) ∧ ReadyFor (.imax64 f) ∧ ReadyFor (.div f) ∧ ReadyFor (.div64 f) ∧ ReadyFor (.rem f) ∧ ReadyFor
    (.rem64 f)) ∧ (7#32 ≠ 0 ∧ ¬ (false = false ∧ 5#32 = 0x80000000 ∧ 7#32 = 0xFFFFFFFF)) :=
  ⟨fun _ => ⟨ready_all _ rfl, ready_all _ rfl, ready_all _ rfl, ready_all _ rfl, ready_all _ rfl, ready_all _
    rfl, ready_all _ rfl, ready_all _ rfl, ready_all _ rfl, ready_all _ rfl⟩, by decide⟩

theorem witness_LogicAndShifts :
  (∀ f : R3, ReadyFor (.andR f) ∧ ReadyFor (.orR f) ∧ ReadyFor (.xorR f) ∧ ReadyFor (.andn f) ∧ ReadyFor (.shl
    f) ∧ ReadyFor (.shr f) ∧ ReadyFor (.sar f) ∧ ReadyFor (.rol f) ∧ ReadyFor (.shlW64 f) ∧ ReadyFor (.shrW64 f)
    ∧ ReadyFor (.sarI64 f)) ∧ (∀ f : R2, ReadyFor (.popc f) ∧ ReadyFor (.clz f) ∧ ReadyFor (.brev f)) :=
  ⟨fun _ => ⟨ready_all _ rfl, ready_all _ rfl, ready_all _ rfl, ready_all _ rfl, ready_all _ rfl, ready_all _
    rfl, ready_all _ rfl, ready_all _ rfl, ready_all _ rfl, ready_all _ rfl, ready_all _ rfl⟩, fun _ =>
    ⟨ready_all _ rfl, ready_all _ rfl, ready_all _ rfl⟩⟩

theorem witness_ImmediatesAndMultiplyAdd :
  (∀ f : GI, ReadyFor (.iaddImm f) ∧ ReadyFor (.imulImm f) ∧ ReadyFor (.andImm f) ∧ ReadyFor (.orImm f) ∧
    ReadyFor (.xorImm f) ∧ ReadyFor (.shlImm f) ∧ ReadyFor (.shrImm f) ∧ ReadyFor (.sarImm f)) ∧ (∀ f : G4,
    ReadyFor (.imadI32 f) ∧ ReadyFor (.imadW32 f)) :=
  ⟨fun _ => ⟨ready_all _ rfl, ready_all _ rfl, ready_all _ rfl, ready_all _ rfl, ready_all _ rfl, ready_all _
    rfl, ready_all _ rfl, ready_all _ rfl⟩, fun _ => ⟨ready_all _ rfl, ready_all _ rfl⟩⟩

theorem witness_IntegerCompares :
  (∀ f : PQm, ReadyFor (.icmp f)) ∧ (∀ f : PQ, ReadyFor (.testW32 f)) ∧ (∀ f : PQi, ReadyFor (.icmpEqImm f) ∧
    ReadyFor (.icmpLtImm f)) ∧ (9#4).toNat ≤ 9 :=
  ⟨fun _ => ready_all _ rfl, fun _ => ready_all _ rfl, fun _ => ⟨ready_all _ rfl, ready_all _ rfl⟩, by decide⟩

theorem witness_SingleFloatResults :
  (∀ f : R3, ReadyFor (.fadd f) ∧ ReadyFor (.fsub f) ∧ ReadyFor (.fmul f) ∧ ReadyFor (.fdiv f) ∧ ReadyFor (.fmin
    f) ∧ ReadyFor (.fmax f) ∧ ReadyFor (.fcpys f)) ∧ (∀ f : R2, ReadyFor (.fsqrt f) ∧ ReadyFor (.frnd f) ∧
    ReadyFor (.fclass f) ∧ ReadyFor (.fabs f) ∧ ReadyFor (.fneg f)) :=
  ⟨fun _ => ⟨ready_all _ rfl, ready_all _ rfl, ready_all _ rfl, ready_all _ rfl, ready_all _ rfl, ready_all _
    rfl, ready_all _ rfl⟩, fun _ => ⟨ready_all _ rfl, ready_all _ rfl, ready_all _ rfl, ready_all _ rfl,
    ready_all _ rfl⟩⟩

theorem witness_DoubleFloatResults :
  (∀ f : R3, ReadyFor (.faddF64 f) ∧ ReadyFor (.fsubF64 f) ∧ ReadyFor (.fmulF64 f) ∧ ReadyFor (.fdivF64 f) ∧
    ReadyFor (.fminF64 f) ∧ ReadyFor (.fmaxF64 f) ∧ ReadyFor (.fcpysF64 f)) ∧ (∀ f : R2, ReadyFor (.fsqrtF64 f)
    ∧ ReadyFor (.frndF64 f) ∧ ReadyFor (.fclassF64 f) ∧ ReadyFor (.fabsF64 f) ∧ ReadyFor (.fnegF64 f)) :=
  ⟨fun _ => ⟨ready_all _ rfl, ready_all _ rfl, ready_all _ rfl, ready_all _ rfl, ready_all _ rfl, ready_all _
    rfl, ready_all _ rfl⟩, fun _ => ⟨ready_all _ rfl, ready_all _ rfl, ready_all _ rfl, ready_all _ rfl,
    ready_all _ rfl⟩⟩

theorem witness_PackedHalfAndFused :
  (∀ f : R3, ReadyFor (.haddF16 f) ∧ ReadyFor (.hsubF16 f) ∧ ReadyFor (.hmulF16 f) ∧ ReadyFor (.hminF16 f) ∧
    ReadyFor (.hmaxF16 f) ∧ ReadyFor (.haddBf16 f) ∧ ReadyFor (.hsubBf16 f) ∧ ReadyFor (.hmulBf16 f) ∧ ReadyFor
    (.hminBf16 f) ∧ ReadyFor (.hmaxBf16 f)) ∧ (∀ f : G4, ReadyFor (.hfmaF16 f) ∧ ReadyFor (.hfmaBf16 f) ∧
    ReadyFor (.ffmaF32 f) ∧ ReadyFor (.ffmaF64 f)) :=
  ⟨fun _ => ⟨ready_all _ rfl, ready_all _ rfl, ready_all _ rfl, ready_all _ rfl, ready_all _ rfl, ready_all _
    rfl, ready_all _ rfl, ready_all _ rfl, ready_all _ rfl, ready_all _ rfl⟩, fun _ => ⟨ready_all _ rfl,
    ready_all _ rfl, ready_all _ rfl, ready_all _ rfl⟩⟩

theorem witness_FloatComparesAndConversion :
  (∀ f : PQf, ReadyFor (.fcmp f)) ∧ (∀ f : Cv, ReadyFor (.cvt f)) ∧ ((⟨false, 1, 2, 4, 6, 0, false, 1⟩ : PQf).t
    = false ∧ (⟨false, 1, 2, 4, 6, 0, true, 1⟩ : PQf).t = true ∧ wideCode 0 = false ∧ wideCode 3 = true) :=
  ⟨fun _ => ready_all _ rfl, fun _ => ready_all _ rfl, by decide⟩

theorem witness_SpecialFunctionResults :
  (∀ f : R2, ReadyFor (.recipF32 f) ∧ ReadyFor (.rrootF32 f) ∧ ReadyFor (.exp2 f) ∧ ReadyFor (.log2 f) ∧
    ReadyFor (.sin f) ∧ ReadyFor (.cos f) ∧ ReadyFor (.tanh f) ∧ ReadyFor (.recipF64 f) ∧ ReadyFor (.rrootF64
    f)) ∧ guardOf (.sin ⟨false, 1, 2, 0⟩) th0 = true :=
  ⟨fun _ => ⟨ready_all _ rfl, ready_all _ rfl, ready_all _ rfl, ready_all _ rfl, ready_all _ rfl, ready_all _
    rfl, ready_all _ rfl, ready_all _ rfl, ready_all _ rfl⟩, by decide⟩

theorem witness_MovesOfLanes :
  (∀ f : R2, ReadyFor (.mov f) ∧ ReadyFor (.movD f) ∧ ReadyFor (.movFromK f)) ∧ (∀ f : MV20, ReadyFor (.movf20
    f) ∧ ReadyFor (.movi20 f)) :=
  ⟨fun _ => ⟨ready_all _ rfl, ready_all _ rfl, ready_all _ rfl⟩, fun _ => ⟨ready_all _ rfl, ready_all _ rfl⟩⟩

theorem witness_CrewRegisterWrite :
  (∀ f : R2, ReadyFor (.movToK f)) ∧ guardOf (.movToK ⟨false, 1, 2, 1⟩) th0 = false ∧ guardOf (.movToK ⟨false,
    1, 2, 0⟩) th0 = true :=
  ⟨fun _ => ready_all _ rfl, by decide⟩

theorem witness_SpecialRegisters :
  (∀ f : R2, ReadyFor (.sread f)) ∧ ((small th0 (BitVec.allOnes 64)).teamLaunch? 0).isSome :=
  ⟨fun _ => ready_all _ rfl, rfl⟩

theorem witness_LaneExchange :
  (∀ f : R3, ReadyFor (.shflPick f) ∧ ReadyFor (.shflRot f) ∧ ReadyFor (.shflSeg f) ∧ ReadyFor (.shflFlip f)) :=
  fun _ => ⟨ready_all _ rfl, ready_all _ rfl, ready_all _ rfl, ready_all _ rfl⟩

theorem witness_Votes :
  (∀ f : R2, ReadyFor (.voteEvery f) ∧ ReadyFor (.voteSome f) ∧ ReadyFor (.voteMap f) ∧ ReadyFor (.voteIsum f) ∧
    ReadyFor (.voteFsum f)) :=
  fun _ => ⟨ready_all _ rfl, ready_all _ rfl, ready_all _ rfl, ready_all _ rfl, ready_all _ rfl⟩

/-- Bank 2 words 0 to 127 are read at launch 0: word 5 of bank 2 is held as 77. -/
def sBank : State := { small th0 (BitVec.allOnes 64) with consts := [⟨0, 0, 2, 5, 77⟩] }

theorem witness_BankOperands :
    Ready (.faddBank ⟨false, 1, 3, 2, 5, 0⟩) sBank c0 (crewOf th0) (BitVec.allOnes 64) ∧
    Ready (.fmulBank ⟨false, 1, 3, 2, 5, 0⟩) sBank c0 (crewOf th0) (BitVec.allOnes 64) ∧
    Ready (.ffmac ⟨false, 1, 3, 2, 5, 0⟩) sBank c0 (crewOf th0) (BitVec.allOnes 64) ∧
    Ready (.iaddBank ⟨false, 1, 3, 2, 5, 0⟩) sBank c0 (crewOf th0) (BitVec.allOnes 64) ∧
    Ready (.movBank ⟨false, 1, 2, 5, 0⟩) sBank c0 (crewOf th0) (BitVec.allOnes 64) ∧
    ∀ l, (BitVec.allOnes 64).getLsbD l = true → ∃ id la, sBank.teamLaunch? 0 = some (id, la) ∧
      sBank.bankHeld (sBank.teamCore 0) id 2 (((crewOf th0).thread l).bankWord 5) = some 77 := by
  have h : ∀ i : Instr, i.privileged = false → Ready i sBank c0 (crewOf th0) (BitVec.allOnes 64) := fun i h =>
    ready_on i _ th0 _ _ _ rfl rfl rfl (by decide) rfl rfl rfl (fun e => by rw [h] at e; cases e) rfl rfl rfl rfl
  refine ⟨h _ rfl, h _ rfl, h _ rfl, h _ rfl, h _ rfl, fun l hl => ⟨0, placedLaunch, rfl, ?_⟩⟩
  rw [crewOf_thread _ _ (BitVec.lt_of_getLsbD hl)]
  rfl

/-- The line at 0x10000 begins with an `XLIT` and a dictionary run of one word at 0x10008. -/
def lineWords : List Word := 0x52000CCD :: 0x50000005 :: 0x56000000 :: 0x10051005 :: List.replicate 60 0x50000005
def sLine (t : Thread) : State := { small t 1 with icache := [⟨0, 1, 0x10000, true, 0x40000000, 2 ^ 30, lineWords⟩] }
def toward (a : Word) : Thread := withRegs [(8, a)] th0

theorem one_line (i : Instr) (a : Word) (h : i.privileged = false) (hg : guardOf i (toward a) = true) :
    One i (sLine (toward a)) c0 (crewOf (toward a)) 0 :=
  one_on i _ (toward a) _ _ rfl rfl rfl rfl rfl rfl (fun e => by rw [h] at e; cases e) rfl rfl rfl rfl hg

theorem witness_Branches :
    (One (.bra ⟨false, 0, 0x40⟩) (sLine (toward 0)) c0 (crewOf (toward 0)) 0 ∧
      One (.call ⟨false, 0, 0x40⟩) (sLine (toward 0)) c0 (crewOf (toward 0)) 0 ∧
      targetFault (sLine (toward 0)) r0 (0x10000 + 4 + 4 * (0x40#22).signExtend 64) false = none) ∧
    (One (.brx ⟨false, 8, 0⟩) (sLine (toward 0x10008)) c0 (crewOf (toward 0x10008)) 0 ∧
      One (.ret ⟨false, 8, 0⟩) (sLine (toward 0x10008)) c0 (crewOf (toward 0x10008)) 0 ∧
      One (.callx ⟨false, 62, 8, 0⟩) (sLine (toward 0x10008)) c0 (crewOf (toward 0x10008)) 0 ∧
      targetFault (sLine (toward 0x10008)) r0 ((toward 0x10008).pair 8) false = none) ∧
    (∀ a, One (.brx ⟨false, 8, 0⟩) (sLine (toward a)) c0 (crewOf (toward a)) 0) ∧
    ((let peek := fun a => peekLine (sLine (toward 0)) 0 1 a false
      peek 0x1000C = some lineWords ∧ peek 0x1000E = some lineWords ∧ peek 0x10012 = some lineWords ∧ peek 0x10004 = some lineWords) ∧ markAt lineWords 0x1000C = .run ∧
        markAt lineWords 0x1000E = .run ∧ markAt lineWords 0x10012 = .plain ∧ markAt lineWords 0x10004 = .expected) ∧
    Ready (.bra ⟨false, 1, 0⟩) (small th0 1) c0 (crewOf th0) 1 ∧ guardOf (.bra ⟨false, 1, 0⟩) th0 = false := by
  refine ⟨⟨one_line _ _ rfl rfl, one_line _ _ rfl rfl, by decide⟩,
    ⟨one_line _ _ rfl rfl, one_line _ _ rfl rfl, one_line _ _ rfl rfl, by decide⟩,
    fun a => one_line _ _ rfl rfl, ⟨⟨rfl, rfl, rfl, rfl⟩, by decide, by decide, by decide, by decide⟩,
    ready_on _ _ th0 _ _ _ rfl rfl rfl (by decide) rfl rfl rfl (fun e => nomatch e) rfl rfl rfl rfl, rfl⟩
theorem witness_HintsAndNop :
    (One (.xlit ⟨false, 5⟩) (small th0 1) c0 (crewOf th0) 0 ∧ xlitFault (small th0 1) r0 5 = none) ∧
    (One (.xmod ⟨false, false, 0, false, false, 0, false, 0⟩) (small th0 1) c0 (crewOf th0) 0 ∧ th0.pc.toNat % 256 ≠ 252) ∧
    (One (.dict ⟨false, 15⟩) (small th0 1) c0 (crewOf th0) 0 ∧ th0.pc.toNat % 256 / 4 + (15#4).toNat + 1 ≤ 63) ∧
    One (.sched ⟨false, 2⟩) (small th0 1) c0 (crewOf th0) 0 ∧ ReadyFor (.nop ⟨false, 0⟩) ∧
    (One (.yield ⟨false, 0⟩) (small th0 1) c0 (crewOf th0) 0 ∧ (small th0 1).isDet 0 = false) ∧
    (∃ v, (small th0 1).cur.refs = [r0] ∧ codeWord (small th0 1) r0 ⟨false, 0, 1023⟩ = .word v) := by
  refine ⟨⟨one_small _ _ rfl rfl (fun e => nomatch e) rfl rfl, by decide⟩,
    ⟨one_small _ _ rfl rfl (fun e => nomatch e) rfl rfl, by decide⟩,
    ⟨one_small _ _ rfl rfl (fun e => nomatch e) rfl rfl, by decide⟩,
    one_small _ _ rfl rfl (fun e => nomatch e) rfl rfl, ready_all _ rfl,
    ⟨one_small _ _ rfl rfl (fun e => nomatch e) rfl rfl, rfl⟩, _, by decide, rfl⟩

/-- A crew of equal threads with mask registers and crew registers set. -/
def crewM (t : Thread) (m : MaskReg) (k : List (Reg6 × Word)) : Crew :=
  { crewOf t with mask := Vector.replicate 12 m, k := k.foldl (fun v x => v.set! x.1.toNat x.2) (Vector.replicate 64 0) }
def smallM (t : Thread) (x : BitVec 64) (m : MaskReg) (k : List (Reg6 × Word)) : State :=
  { small t x with crews := [(c0, crewM t m k)] }

theorem one_m (i : Instr) (t : Thread) (m : MaskReg) (k : List (Reg6 × Word)) (h6 : t.late = none) (h7 : brokenChain i t = false)
    (h8 : i.privileged = false) (h9 : t.exited = false) (h13 : guardOf i t = true) (h16 : (∀ f, i ≠ .eret f) ∨ t.estat = 0 ∨ t.estat = 1 := by exact .inr (.inl rfl)) :
    One i (smallM t 1 m k) c0 (crewM t m k) 0 :=
  one_on i _ t _ _ rfl rfl rfl rfl h6 h7 (fun e => by rw [h8] at e; cases e) h9 rfl rfl rfl h13 (h16 := h16)
theorem whole_m (i : Instr) (t : Thread) (m : MaskReg) (k : List (Reg6 × Word)) (h6 : t.late = none) (h7 : brokenChain i t = false)
    (h8 : i.privileged = false) (h9 : t.exited = false) (h13 : guardOf i t = true) (h16 : (∀ f, i ≠ .eret f) ∨ t.estat = 0 ∨ t.estat = 1 := by exact .inr (.inl rfl)) :
    Whole i (smallM t (BitVec.allOnes 64) m k) c0 (crewM t m k) :=
  ⟨ready_on i _ t _ _ _ rfl rfl rfl (by decide) rfl h6 h7 (fun e => by rw [h8] at e; cases e) h9 rfl rfl rfl (h16 := h16), 0, by decide, h13⟩

/-- Mask registers: lane 0 no member; a member, last to arrive; a member among two. -/
def mOut : MaskReg := ⟨6, 0, false⟩
def mLast : MaskReg := ⟨3, 2, false⟩
def mPart : MaskReg := ⟨3, 0, false⟩

theorem witness_MaskRendezvous :
    (∀ m k, (∀ f : R1, f.g = 0 → One (.join f) (smallM th0 1 m k) c0 (crewM th0 m k) 0 ∧
        One (.leave f) (smallM th0 1 m k) c0 (crewM th0 m k) 0 ∧ One (.waitm f) (smallM th0 1 m k) c0 (crewM th0 m k) 0) ∧
      (∀ (f : R3) (v : Word), f.g = 0 → One (.waitmt f) (smallM (withRegs [(3, v)] th0) 1 m k) c0 (crewM (withRegs [(3, v)] th0) m k) 0) ∧
      (smallM th0 1 m k).relBlocked c0 = false ∧ (behind (smallM th0 1 m k)).relBlocked c0 = true ∧
      (∀ f : R1, f.g = 0 → One (.waitm f) (behind (smallM th0 1 m k)) c0 (crewM th0 m k) 0) ∧
      (smallM th0 1 m k).crew? c0 = some (crewM th0 m k) ∧ (crewM th0 m k).maskReg 11 = m ∧
      ({ smallM th0 1 m k with due := { Due.none with masks := [(c0, 11)] } } : State).due.masks = [(c0, 11)]) ∧
    (let s := smallM { th0 with wait := .maskTimed 11 4 7 } 1 mPart [];
      s.time = 0 ∧ s.isDet 0 = false ∧ ((crewM { th0 with wait := .maskTimed 11 4 7 } mPart []).thread 63).wait = .maskTimed 11 4 7) ∧
    (11#6).toNat < 12 ∧ th0.wait = .none ∧ mOut.m.getLsbD 0 = false ∧ mLast.m.getLsbD 0 = true ∧ mPart.m.getLsbD 0 = true ∧
    ({ mLast with a := mLast.a ||| laneBit 0 } : MaskReg).complete = true ∧
    ({ mPart with a := mPart.a ||| laneBit 0 } : MaskReg).complete = false ∧
    (withRegs [(3, 0)] th0).reg 3 = 0 ∧ (withRegs [(3, 9)] th0).reg 3 ≠ 0 := by
  refine ⟨fun m k => ⟨fun f h => ?_, fun f v h => ?_, rfl, rfl, fun f h => ?_, rfl, rfl, rfl⟩, by decide, by decide⟩
  · obtain ⟨sw, a, g⟩ := f; cases h
    exact ⟨one_m _ _ _ _ rfl rfl rfl rfl rfl, one_m _ _ _ _ rfl rfl rfl rfl rfl, one_m _ _ _ _ rfl rfl rfl rfl rfl⟩
  · obtain ⟨sw, d, a, b, g⟩ := f; cases h
    exact one_m _ _ _ _ rfl rfl rfl rfl rfl
  · obtain ⟨sw, a, g⟩ := f; cases h
    exact one_on _ _ th0 _ _ rfl rfl rfl rfl rfl rfl (fun e => nomatch e) rfl rfl rfl rfl rfl

theorem witness_MaskLogic :
    (∀ i ∈ [Instr.mand ⟨false, 11, 2, 3, 0⟩, .mor ⟨false, 11, 2, 3, 0⟩, .mxor ⟨false, 11, 2, 3, 0⟩, .mandn ⟨false, 11, 2, 3, 0⟩,
      .mmov ⟨false, 11, 2, 0⟩, .mset ⟨false, 11, 2, 0⟩],
      Whole i (smallM th0 (BitVec.allOnes 64) mPart []) c0 (crewM th0 mPart [])) ∧
    (11#6).toNat < 12 ∧ (∀ l, ((crewM th0 mPart []).thread l).wait = .none) ∧ ∀ f : R3, ReadyFor (.mget f) := by
  refine ⟨fun i hi => ?_, by decide, fun l => ?_, fun f => ready_all _ rfl⟩
  · simp only [List.mem_cons, List.not_mem_nil, or_false] at hi
    rcases hi with rfl | rfl | rfl | rfl | rfl | rfl <;> exact whole_m _ _ _ _ rfl rfl rfl rfl rfl
  · by_cases h : l < 64
    · show ((crewOf th0).thread l).wait = .none
      rw [crewOf_thread th0 l h]; rfl
    · show ((Vector.replicate 64 th0).getD l (Thread.start 0 0)).wait = .none
      simp [Vector.getD, h]; rfl

def barF : BarF := ⟨false, 1, 15⟩
def atBar : Thread := { th0 with wait := .bar 15 1 }
def handlersOnly : Team := { team0 with crews := 0, handlers := 1 }
theorem one_bar15 (s : State) (tm : Team) (h1 : s.crews = [(c0, crewOf th0)]) (h2 : s.teams = [(0, tm)])
    (h3 : s.cur = { Group.none with lanes := [(c0, 1)] }) (h5 : tm.deferred = []) (h10 : s.traces = []) (h11 : s.trials = [])
    (h15 : s.flaws = []) : One (.bar barF) s c0 (crewOf th0) 0 :=
  one_on _ s th0 _ tm h1 h2 h3 h5 rfl rfl (fun e => nomatch e) rfl h10 h11 rfl rfl rfl h15

theorem witness_TeamBarrier :
    (One (.bar barF) (small th0 1) c0 (crewOf th0) 0 ∧ (small th0 1).team? 0 = some team0 ∧ c0.crew < team0.crews ∧
      (small th0 1).relBlocked c0 = false) ∧
    (One (.bar barF) (behind (small th0 1)) c0 (crewOf th0) 0 ∧ (behind (small th0 1)).relBlocked c0 = true) ∧
    (let s := withTeam handlersOnly (small th0 1);
      One (.bar barF) s c0 (crewOf th0) 0 ∧ s.team? 0 = some handlersOnly ∧ handlersOnly.crews ≤ c0.crew) ∧
    (let all := fun s : State => (s.liveCrews 0).all fun x => (s.crew? ⟨0, x⟩).any fun w => w.atBar 15;
      all (small th0 1) = false ∧ all (small atBar 1) = true ∧ (small atBar 1).liveCrews 0 ≠ [] ∧ (15 : Nat) < 16) ∧
    atBar.wait = .bar 15 1 ∧
    ({ small th0 1 with due := { Due.none with bars := [(0, 15)] } } : State).due.bars = [(0, 15)] :=
  ⟨⟨one_bar15 _ _ rfl rfl rfl rfl rfl rfl rfl, rfl, by decide, by decide⟩,
    ⟨one_bar15 _ _ rfl rfl rfl rfl rfl rfl rfl, by decide⟩, ⟨one_bar15 _ _ rfl rfl rfl rfl rfl rfl rfl, rfl, by decide⟩,
    by decide, rfl, rfl⟩

/-- A team with the matrix array, whose baton crew 0 holds. -/
def teamArray : Team := { team0 with array := some Matrix.start }
/-- Crew 0 with one thread left; the crew after it is whole. -/
def wLast : Crew := (crewOf { th0 with exited := true }).setThread 0 fun _ => th0
def teamTwo : Team := { teamArray with crews := 2 }
def sLast : State := { withTeam teamTwo (small th0 1) with crews := [(c0, wLast), (⟨0, 1⟩, crewOf th0)] }

theorem lane0 {l : Nat} (h : (laneBit 0).getLsbD l = true) : l = 0 := by
  have := BitVec.lt_of_getLsbD h
  revert h; revert l; decide

theorem wLast_thread (l : Nat) (h : l < 64) (h0 : l ≠ 0) : (wLast.thread l).exited = true := by
  rw [wLast, Crew.thread_setThread, if_neg fun e => h0 e.1, crewOf_thread _ _ h]

theorem witness_ThreadExit :
    (One (.exit ⟨false, 0⟩) (small th0 1) c0 (crewOf th0) 0 ∧ (small th0 1).team? 0 = some team0 ∧ team0.array = none ∧
      c0.crew < team0.crews ∧ (crewOf th0).slot < 16) ∧
    One (.exit ⟨false, 0⟩) sLast c0 wLast 0 ∧ sLast.team? 0 = some teamTwo ∧
    (teamTwo.array.isSome ∧ teamTwo.baton = c0.crew ∧ ∀ n, n < 64 → n ≠ 0 → (wLast.thread n).exited = true) ∧
    sLast.relBlocked c0 = false ∧ (1 : Nat) ≠ c0.crew ∧ FollowsAlive sLast 0 teamTwo.crews 0 1 := by
  refine ⟨⟨one_small _ _ rfl rfl (fun e => nomatch e) rfl rfl, rfl, rfl, by decide, by decide⟩, ⟨by decide, ?_, by decide⟩, rfl,
    ⟨rfl, rfl, wLast_thread⟩, by decide, by decide, 0, by decide, by decide, by decide, fun i h => absurd h (Nat.not_lt_zero i)⟩
  exact { crew := rfl, lanes := rfl, group := by decide, done := rfl, traps := rfl
          deferred := fun tm h => by cases h; rfl
          late := fun l h => by rw [lane0 h]; rfl
          chain := fun l h => by rw [lane0 h]; rfl
          mode := (nomatch ·), status := (fun _ e => nomatch e), whole := (nomatch ·), unserved := rfl, sound := rfl, untraced := rfl, untried := rfl }

/-- Cluster memory with bytes of a transaction barrier at 32. -/
def sBar (t : Thread) (x : BitVec 64) (b : TBar) : State :=
  { small t x with clu := [((0, 0), ⟨0, 4096, Mem.writeBytes [] 32 (leBytes 16 b.toNat)⟩)] }
def barT : Thread := withRegs [(2, 32), (3, 5), (4, 1)] th0
theorem one_bar (i : Instr) (b : TBar) (h8 : i.privileged = false) (h13 : guardOf i barT = true) :
    One i (sBar barT 1 b) c0 (crewOf barT) 0 :=
  one_on i _ barT _ _ rfl rfl rfl rfl rfl rfl (fun e => by rw [h8] at e; cases e) rfl rfl rfl rfl h13

/-- An arrival of lane 0 at the barrier. -/
def arr0 : Arrival := ⟨r0, 1, .cluster 0 0, 32, 0, laneBit 0, 0x10000, 0x10000, none⟩

theorem witness_TransactionBarriers :
    (∀ b : TBar, One (.tbinit ⟨false, 2, 3, 0⟩) (sBar barT 1 b) c0 (crewOf barT) 0 ∧
      One (.tbarrive ⟨false, 5, 2, 0⟩) (sBar barT 1 b) c0 (crewOf barT) 0 ∧
      One (.tbwait ⟨false, 2, 4, 0⟩) (sBar barT 1 b) c0 (crewOf barT) 0 ∧ Fenced (sBar barT 1 b) c0 (sBar barT 1 b) ∧
      (sBar barT 1 b).relBlocked c0 = false ∧ (∀ n, (sBar barT 1 b).logFull r0 n = false) ∧
      (sBar barT 1 b).isBusy (.cluster 0 0) 32 16 = false ∧ (sBar barT 1 b).crew? arr0.thread.cref = some (crewOf barT)) ∧
    (sBar barT 1 ⟨5, 0, 0, 0, 1⟩).levelPlace r0 .clu = .cluster 0 0 ∧
    (∀ b ∈ [(⟨5, 0, 0, 1, 2⟩ : TBar), ⟨5, 0, 0, 0, 1⟩, ⟨5, 0, 3, 0, 1⟩, ⟨5, 0, 0, 0, 0⟩],
      (sBar barT 1 b).tbar (.cluster 0 0) 32 = b ∧ Mem.wf ((sBar barT 1 b).placeMem (.cluster 0 0)) = true ∧
      32 + 16 ≤ (sBar barT 1 b).placeSize (.cluster 0 0)) ∧
    (barT.reg 2).toNat = 32 ∧ 32 % 16 = 0 ∧ 0 < (barT.reg 3).toNat ∧ (barT.reg 3).toNat < 2 ^ 24 ∧
    (barT.reg 4).toNat % 16 = 1 ∧ arr0.place ≠ .phys ∧ arr0.thread.lane < 64 ∧
    ({ sBar barT 1 ⟨5, 0, 0, 0, 1⟩ with due := { Due.none with arrivals := [arr0] } } : State).due.arrivals = [arr0] :=
  ⟨fun b => ⟨one_bar _ b rfl rfl, one_bar _ b rfl rfl, one_bar _ b rfl rfl, rfl, rfl, fun _ => rfl, rfl, rfl⟩,
    by decide, by decide, by decide⟩

/-- A team of 16 tags, of which tags 3 and 5 are set; crew register pairs that name tags. -/
def teamTags : Team := { team0 with tags := 0x28 }
def sTags (k : List (Reg6 × Word)) : State := withTeam teamTags (smallM th0 (BitVec.allOnes 64) mPart k)
theorem ready_tags (i : Instr) (k : List (Reg6 × Word)) (h8 : i.privileged = false) :
    Ready i (sTags k) c0 (crewM th0 mPart k) (BitVec.allOnes 64) :=
  ready_on i _ th0 _ _ _ rfl rfl rfl (by decide) rfl rfl rfl (fun e => by rw [h8] at e; cases e) rfl rfl rfl rfl
theorem leads_m (i : Instr) (m : MaskReg) (k : List (Reg6 × Word)) (h13 : guardOf i th0 = true) : Leads i (crewM th0 m k) 0 :=
  ⟨by decide, h13, fun n h => absurd h (Nat.not_lt_zero n)⟩

def lowPair (v : Word) : DWord := 0#32 ++ v

theorem witness_TagWaits :
    (∀ k, (Ready (.tagwall ⟨false, 4, 0⟩) (sTags k) c0 (crewM th0 mPart k) (BitVec.allOnes 64) ∧
        Leads (.tagwall ⟨false, 4, 0⟩) (crewM th0 mPart k) 0) ∧
      (Ready (.tagwany ⟨false, 2, 4, 0⟩) (sTags k) c0 (crewM th0 mPart k) (BitVec.allOnes 64) ∧
        Leads (.tagwany ⟨false, 2, 4, 0⟩) (crewM th0 mPart k) 0) ∧
      (Ready (.tagfirst ⟨false, 2, 4, 0⟩) (sTags k) c0 (crewM th0 mPart k) (BitVec.allOnes 64) ∧
        Leads (.tagfirst ⟨false, 2, 4, 0⟩) (crewM th0 mPart k) 0) ∧
      (sTags k).tags 0 = 0x28 ∧ (sTags k).tagCount 0 = 16 ∧ ∀ n, (sTags k).logFull r0 n = false) ∧
    (∀ n ∈ [0, 0x28, 0xFFFF, 0x8001], (crewM th0 mPart [(4, BitVec.ofNat 32 n)]).kReg 4 = BitVec.ofNat 32 n ∧
      (crewM th0 mPart [(4, BitVec.ofNat 32 n)]).kReg (4 + 1) = 0 ∧ (lowPair (BitVec.ofNat 32 n)).toNat < 2 ^ 16) ∧
    ({ crewM th0 mPart [] with taintK := 0x10 } : Crew).taintK.getLsbD (4#6).toNat = true ∧
    lowPair 0x28 &&& 0x28 = lowPair 0x28 ∧ lowPair 0xFFFF &&& 0x28 ≠ lowPair 0xFFFF ∧ lowPair 0xFFFF &&& 0x28 ≠ 0 ∧
    lowPair 0x8001 ≠ 0 ∧ lowPair 0x8001 &&& 0x28 = 0 ∧ lowPair 0 = 0 :=
  ⟨fun k => ⟨⟨ready_tags _ k rfl, leads_m _ _ k rfl⟩, ⟨ready_tags _ k rfl, leads_m _ _ k rfl⟩, ⟨ready_tags _ k rfl, leads_m _ _ k rfl⟩,
    rfl, rfl, fun _ => rfl⟩, by decide, by decide, by decide⟩

/-- A crew of a team whose array it holds; of one whose baton another crew holds; of one with two crews. -/
def sArray (tm : Team) : State := withTeam tm (small th0 (BitVec.allOnes 64))
def sTwo : State := { sArray teamTwo with crews := [(c0, crewOf th0), (⟨0, 1⟩, crewOf { th0 with wait := .baton })] }

theorem witness_FencesAndBaton :
    One (.fenceRel ⟨false, 0⟩) (small th0 1) c0 (crewOf th0) 0 ∧ (crewOf th0).fence = none ∧
    One (.fenceAcq ⟨false, 0⟩) (small th0 1) c0 (crewOf th0) 0 ∧
    (One (.fenceAr ⟨false, 0⟩) (small th0 1) c0 (crewOf th0) 0 ∧ (small th0 1).relBlocked c0 = false) ∧
    (One (.fenceAr ⟨false, 0⟩) (behind (small th0 1)) c0 (crewOf th0) 0 ∧ (behind (small th0 1)).relBlocked c0 = true) ∧
    (∀ tm ∈ [teamArray, { teamArray with baton := 1 }, team0],
      (sArray tm).team? 0 = some tm ∧ Ready (.batonWait ⟨false⟩) (sArray tm) c0 (crewOf th0) (BitVec.allOnes 64) ∧
      Ready (.batonPass ⟨false⟩) (sArray tm) c0 (crewOf th0) (BitVec.allOnes 64) ∧ (sArray tm).relBlocked c0 = false) ∧
    (teamArray.array.isSome ∧ teamArray.baton = c0.crew ∧ ({ teamArray with baton := 1 } : Team).baton ≠ c0.crew ∧ team0.array = none) ∧
    (Ready (.batonPass ⟨false⟩) (behind (sArray teamArray)) c0 (crewOf th0) (BitVec.allOnes 64) ∧
      (behind (sArray teamArray)).relBlocked c0 = true) ∧
    FollowsAlive (sArray teamArray) 0 teamArray.crews 0 0 ∧
    (FollowsAlive sTwo 0 teamTwo.crews 0 1 ∧ Ready (.batonPass ⟨false⟩) sTwo c0 (crewOf th0) (BitVec.allOnes 64) ∧
      (sTwo.thread ⟨0, 1, 63⟩).wait = .baton) ∧
    ∀ l, l < 64 → ((crewOf th0).thread l).wait ≠ .baton := by
  refine ⟨one_small _ _ rfl rfl (fun e => nomatch e) rfl rfl, rfl, one_small _ _ rfl rfl (fun e => nomatch e) rfl rfl,
    ⟨one_small _ _ rfl rfl (fun e => nomatch e) rfl rfl, rfl⟩,
    ⟨one_on _ _ th0 _ team0 rfl rfl rfl rfl rfl rfl (fun e => nomatch e) rfl rfl rfl rfl rfl, by decide⟩, fun tm h => ?_, by decide,
    ⟨ready_on _ _ th0 _ _ teamArray rfl rfl rfl (by decide) rfl rfl rfl (fun e => nomatch e) rfl rfl rfl rfl, by decide⟩,
    ⟨0, by decide, by decide, by decide, fun i h => absurd h (Nat.not_lt_zero i)⟩,
    ⟨⟨0, by decide, by decide, by decide, fun i h => absurd h (Nat.not_lt_zero i)⟩, ?_, by decide⟩, fun l h => ?_⟩
  · simp only [List.mem_cons, List.not_mem_nil, or_false] at h
    rcases h with rfl | rfl | rfl <;>
      exact ⟨rfl, ready_on _ _ th0 _ _ _ rfl rfl rfl (by decide) rfl rfl rfl (fun e => nomatch e) rfl rfl rfl rfl,
        ready_on _ _ th0 _ _ _ rfl rfl rfl (by decide) rfl rfl rfl (fun e => nomatch e) rfl rfl rfl rfl, rfl⟩
  · have ht : ∀ l, l < 64 → (crewOf th0).thread l = th0 := fun l h => crewOf_thread _ _ h
    exact { crew := rfl, lanes := rfl, group := by decide, done := rfl, traps := rfl
            deferred := fun tm h => by cases h; rfl
            late := fun l h => by rw [ht l (BitVec.lt_of_getLsbD h)]; rfl
            chain := fun l h => by rw [ht l (BitVec.lt_of_getLsbD h)]; rfl
            mode := (nomatch ·), status := (fun _ e => nomatch e), whole := fun _ l h => by rw [ht l h]; rfl
            unserved := rfl, sound := rfl, untraced := rfl, untried := rfl }
  · rw [crewOf_thread _ _ h]; decide

/-- A layout record at 0x200200: two rows of sixteen 32-bit elements of a tensor at 0x200100. -/
def recordBytesOf (base : Nat) : List Byte :=
  leBytes 8 base ++ leBytes 8 (0x0F * 2 ^ 56 + 16) ++ leBytes 8 (2 ^ 56 + 4 * 2 ^ 32 + 4) ++ leBytes 8 1 ++ leBytes 8 1 ++
    [0, 0, 2, 4] ++ leBytes 4 0 ++ leBytes 4 0 ++ leBytes 4 0 ++ leBytes 8 0
/-- A copy of one chunk of cluster 0, of a tensor at an address, which has yet to write some units. -/
def oneCopy (base : Nat) (marks : List (Nat × Place × Nat)) : Copy :=
  { id := 1, kind := .cpy, team := 0, issuer := r0, sup := false, pc := 0x10000, time := 0, cycle := 0, core := 0,
    layout := Layout.ofBytes (recordBytesOf base), origin := [0, 0, 0, 0], toTensor := false, dense := 1, denseOff := 0x40,
    targets := [], multicast := false, indices := [], tag := if marks = [] then some 2 else none, barrier := 32, span := 128,
    chunk := 0, marks := marks }
def withCopies (l : List Copy) (s : State) : State :=
  { s with clusters := [(0, { Cluster.reset with queues := [l, [], [], []] })] }
/-- An engine has yet to write: word 0x200040 of the page; the last sectors of the levels. A sector of the page is in error. -/
def claimed (s : State) : State :=
  { s with ctxs := [(1, { Ctx.reset with ptroot := 0x1000000, fetches := [fetch0 false [0x10000010]] })] }
def claimedLevels (s : State) : State :=
  withCopies [oneCopy 0x200100 [(0, .scratch 0, 63), (0, .cluster 0 0, 63), (0, .chip 0 0, 63)]] s
def poisoned (s : State) : State := { s with poison := [0x1000001] }
def cached (s : State) : State := { s with l1 := [{ dirtyWord with dirty := 0, writers := [] }] }
/-- The team is a task's that has not committed. -/
def entry0 : QTask := { record := 0x200040, cls := 0, time := 0, ctx := 1, launch := 0, spawner := 0, origin := origin0, pc := 0x10000 }
def taskOf (stage : Nat) (succ : DWord) (committed : Bool) : Task :=
  { record := 0x200040, entry := 0x210000, arg := 0, tile := (0, 0, 0), flags := 0, successor := succ, queued := entry0, buffer := [],
    capacity := 1, committed := committed, early := false, progress := [], escapes := [], stage := stage }
def teamTask (k : Task) : Team := { team0 with task := some k, lastEnd := none }
def buffered (s : State) : State := withTeam (teamTask (taskOf 0 0 false)) s

/-- A thread whose pair `g8.d` is an address, with data in `g4` and `g5`, and one whose `XMOD` chooses cache policy 2. -/
def at8 (lo hi : Word) : Thread := withRegs [(8, lo), (9, hi), (4, 0x11223344), (5, 7)] th0
def streaming : Thread := { at8 0x200040 0 with xmod := some ⟨false, false, 0, false, true, 2, false, 0⟩ }
def wordAt8 (r : Bool) : MemF := ⟨false, 4, 8, 0, 2, r, 0⟩

theorem one_at8 (i : Instr) (lo hi : Word) (h8 : i.privileged = false) (h13 : guardOf i (at8 lo hi) = true) :
    One i (small (at8 lo hi) 1) c0 (crewOf (at8 lo hi)) 0 :=
  one_small _ _ rfl rfl (fun e => by rw [h8] at e; cases e) rfl h13
theorem quiet_small (t : Thread) (x : BitVec 64) : Quiet (small t x) c0 (crewOf t) := quiet_on _ _ _ rfl rfl rfl rfl rfl
theorem page_at8 (t : Thread) (k : AccKind) : translate (small t 1) (.core 0) 1 0x200040 false k = (small t 1, .ok 0x40000040) := by
  cases k <;> rfl

/-- The thread with an address, in machines that differ from the small one outside its crew and its group. -/
theorem one_in (i : Instr) (t : Thread) (s : State) (tm : Team) (h1 : s.crews = [(c0, crewOf t)]) (h2 : s.teams = [(0, tm)])
    (h3 : s.cur = { Group.none with lanes := [(c0, 1)] }) (h5 : tm.deferred = []) (h6 : t.late = none) (h7 : brokenChain i t = false)
    (h8 : i.privileged = false) (h9 : t.exited = false) (h10 : s.traces = []) (h11 : s.trials = []) (h13 : guardOf i t = true)
    (h15 : s.flaws = []) (h16 : (∀ f, i ≠ .eret f) ∨ t.estat = 0 ∨ t.estat = 1 := by exact .inr (.inl rfl)) : One i s c0 (crewOf t) 0 :=
  one_on i s t _ tm h1 h2 h3 h5 h6 h7 (fun e => by rw [h8] at e; cases e) h9 h10 h11 rfl h13 rfl h15 h16

def gT : Thread := at8 0x200040 0
def eT : Thread := at8 0xFFC 0
theorem one_gT (i : Instr) (s : State) (tm : Team) (h1 : s.crews = [(c0, crewOf gT)]) (h2 : s.teams = [(0, tm)])
    (h3 : s.cur = { Group.none with lanes := [(c0, 1)] }) (h5 : tm.deferred = []) (h8 : i.privileged = false) (h10 : s.traces = [])
    (h11 : s.trials = []) (h13 : guardOf i gT = true) (h7 : brokenChain i gT = false) (h15 : s.flaws = []) :
    One i s c0 (crewOf gT) 0 := one_in i gT s tm h1 h2 h3 h5 rfl h7 h8 rfl h10 h11 h13 h15
theorem one_eT (i : Instr) (s : State) (tm : Team) (h1 : s.crews = [(c0, crewOf eT)]) (h2 : s.teams = [(0, tm)])
    (h3 : s.cur = { Group.none with lanes := [(c0, 1)] }) (h5 : tm.deferred = []) (h8 : i.privileged = false) (h10 : s.traces = [])
    (h11 : s.trials = []) (h13 : guardOf i eT = true) (h7 : brokenChain i eT = false) (h15 : s.flaws = []) :
    One i s c0 (crewOf eT) 0 := one_in i eT s tm h1 h2 h3 h5 rfl h7 h8 rfl h10 h11 h13 h15

/-- The state in which a load reads, and whether the bytes are in the L1, claimed by an engine, in error. -/
def LoadAt (s : State) (hit busy dead : Bool) : Prop :=
  (∀ r, One (.ld (wordAt8 r)) s c0 (crewOf gT) 0) ∧ translate s (.core 0) 1 0x200040 false .read = (s, .ok 0x40000040) ∧
    s.l1Hit 0 0x40000040 4 = hit ∧ s.isBusy .phys 0x40000040 4 = busy ∧ s.deadRange 0x40000040 4 = dead

theorem witness_LoadsTakeTheirBytes :
    (let s := small gT 1;
      LoadAt s false false false ∧ LoadAt (cached s) true false false ∧ LoadAt (claimed s) false true false ∧
        LoadAt (poisoned s) false false true ∧ LoadAt (buffered s) false false false) ∧
    (effAddr gT .glob 8 2 0 = 0x200040 ∧ accessCode .glob 0x200040 4 (2 ^ 52) = none) ∧
    (∀ r, One (.ldl (wordAt8 r)) (small (at8 0x3FC 0) 1) c0 (crewOf (at8 0x3FC 0)) 0 ∧
      (∀ s ∈ [small eT 1, claimedLevels (small eT 1)], One (.lds (wordAt8 r)) s c0 (crewOf eT) 0 ∧
        One (.ldc (wordAt8 r)) s c0 (crewOf eT) 0 ∧ One (.ldx (wordAt8 r)) s c0 (crewOf eT) 0)) ∧
    accessCode .lane (effAddr (at8 0x3FC 0) .lane 8 2 0) 4 ((small (at8 0x3FC 0) 1).levelSize r0 .lane) = none ∧
    (let s := small eT 1;
      ∀ l ∈ [Level.scr, .clu, .chip], accessCode l (effAddr eT l 8 2 0) 4 (s.levelSize r0 l) = none ∧
        s.isBusy (s.levelPlace r0 l) 0xFFC 4 = false ∧ (claimedLevels s).isBusy ((claimedLevels s).levelPlace r0 l) 0xFFC 4 = true) := by
  refine ⟨⟨?_, ?_, ?_, ?_, ?_⟩, by decide, fun r => ⟨one_at8 _ _ _ rfl rfl, fun s h => ?_⟩, by decide, by decide⟩
  iterate 5 exact ⟨fun _ => one_gT _ _ _ rfl rfl rfl rfl rfl rfl rfl rfl rfl rfl, rfl, by decide, by decide, by decide⟩
  simp only [List.mem_cons, List.not_mem_nil, or_false] at h
  rcases h with rfl | rfl <;>
    exact ⟨one_eT _ _ _ rfl rfl rfl rfl rfl rfl rfl rfl rfl rfl, one_eT _ _ _ rfl rfl rfl rfl rfl rfl rfl rfl rfl rfl,
      one_eT _ _ _ rfl rfl rfl rfl rfl rfl rfl rfl rfl rfl⟩

theorem witness_GlobalStores :
    (∀ r, One (.st (wordAt8 r)) (small gT 1) c0 (crewOf gT) 0) ∧
    One (.st (wordAt8 false)) (small streaming 1) c0 (crewOf streaming) 0 ∧
    (∀ t, Quiet (small t 1) c0 (crewOf t) ∧ (small t 1).buffering 0 = none ∧ makeRoom (small t 1) 0 0x40000040 = (small t 1, true) ∧
      translate (small t 1) (.core 0) 1 0x200040 false .write = (small t 1, .ok 0x40000040)) ∧
    hasTaint (.st (wordAt8 false)) gT = false ∧ hasTaint (.st (wordAt8 false)) streaming = false ∧
    effAddr gT .glob 8 2 0 = 0x200040 ∧ effAddr streaming .glob 8 2 0 = 0x200040 ∧
    accessCode .glob 0x200040 4 (2 ^ 52) = none ∧ 0x40000040 % 16 = 0x200040 % 16 ∧ 0x100000 ≤ 0x40000040 ∧
    gT.policy < 2 ∧ 2 ≤ streaming.policy ∧ HasRoom (small gT 1) 0 0x40000040 ∧ (small streaming 1).shut 0x40000040 = false ∧
    Mem.wf (small streaming 1).mem = true ∧ (small streaming 1).l1 = [] ∧
    (One (.st (wordAt8 false)) (buffered (small gT 1)) c0 (crewOf gT) 0 ∧
      translate (buffered (small gT 1)) (.core 0) 1 0x200040 false .write = (buffered (small gT 1), .ok 0x40000040) ∧
      ∃ k k', (buffered (small gT 1)).buffering 0 = some k ∧ k.escapes.length ≤ 64 ∧
        k.store? .phys 0x40000040 0x200040 false ((buffered (small gT 1)).pageSize (.core 0) 1 0x200040) (storeBytes gT 4 2) = some k') :=
  ⟨fun r => one_at8 _ _ _ rfl rfl, one_small _ _ rfl rfl (fun e => nomatch e) rfl rfl,
    fun t => ⟨quiet_small t 1, rfl, rfl, page_at8 t _⟩, by decide, by decide, by decide, by decide, by decide, by decide, by decide,
    by decide, by decide, .inr (by decide), by decide, rfl, rfl,
    one_gT _ _ _ rfl rfl rfl rfl rfl rfl rfl rfl rfl rfl, rfl, _, _, rfl, by decide, rfl⟩

theorem witness_LevelStores :
    (4#3).toNat ≤ 4 ∧ (∀ t, Fenced (small t 1) c0 (small t 1) ∧ (small t 1).logFull r0 0 = false) ∧
    One (.stl (wordAt8 false)) (small (at8 0x3FC 0) 1) c0 (crewOf (at8 0x3FC 0)) 0 ∧
    accessCode .lane (effAddr (at8 0x3FC 0) .lane 8 2 0) 4 ((small (at8 0x3FC 0) 1).levelSize r0 .lane) = none ∧
    hasTaint (.stl (wordAt8 false)) (at8 0x3FC 0) = false ∧ Mem.wf (at8 0x3FC 0).lane = true ∧
    (∀ x ∈ [Instr.sts (wordAt8 false), .stc (wordAt8 false), .stx (wordAt8 false)],
      One x (small eT 1) c0 (crewOf eT) 0 ∧ One x (claimedLevels (small eT 1)) c0 (crewOf eT) 0 ∧
      One x (buffered (small eT 1)) c0 (crewOf eT) 0 ∧ hasTaint x eT = false) ∧
    (let s := small eT 1;
      ∀ l ∈ [Level.scr, .clu, .chip], accessCode l (effAddr eT l 8 2 0) 4 (s.levelSize r0 l) = none ∧
        Mem.wf (s.placeMem (s.levelPlace r0 l)) = true ∧ s.isBusy (s.levelPlace r0 l) 0xFFC 4 = false ∧
        (claimedLevels s).isBusy ((claimedLevels s).levelPlace r0 l) 0xFFC 4 = true ∧ effAddr eT l 8 2 0 = 0xFFC) ∧
    (small eT 1).buffering 0 = none ∧ (claimedLevels (small eT 1)).buffering 0 = none ∧
    ∃ k, (buffered (small eT 1)).buffering 0 = some k ∧ k.escapes.length ≤ 64 ∧
      ∀ l ∈ [Level.clu, .chip], (k.store? ((buffered (small eT 1)).levelPlace r0 l) 0xFFC 0xFFC false
        ((buffered (small eT 1)).pageSize (.core 0) 1 0xFFC) (storeBytes eT 4 2)).isSome := by
  refine ⟨by decide, fun t => ⟨rfl, rfl⟩, one_at8 _ _ _ rfl rfl, by decide, by decide, rfl, fun x h => ?_, by decide, rfl, rfl, _, rfl,
    by decide, by decide⟩
  simp only [List.mem_cons, List.not_mem_nil, or_false] at h
  rcases h with rfl | rfl | rfl <;>
    exact ⟨one_eT _ _ _ rfl rfl rfl rfl rfl rfl rfl rfl rfl rfl, one_eT _ _ _ rfl rfl rfl rfl rfl rfl rfl rfl rfl rfl,
      one_eT _ _ _ rfl rfl rfl rfl rfl rfl rfl rfl rfl rfl, by decide⟩

theorem witness_RefusedAccessesAndPrefetch :
    (∀ lo hi, One (.ld (wordAt8 false)) (small (at8 lo hi) 1) c0 (crewOf (at8 lo hi)) 0 ∧
      One (.sts (wordAt8 false)) (small (at8 lo hi) 1) c0 (crewOf (at8 lo hi)) 0 ∧
      One (.pref ⟨false, 0, 8, 0, 2, 0⟩) (small (at8 lo hi) 1) c0 (crewOf (at8 lo hi)) 0) ∧
    (effAddr (at8 0x200041 0) .glob 8 2 0).toNat % 4 ≠ 0 ∧
    (Level.scr ≠ .glob ∧ (effAddr (at8 0x1000 0) .scr 8 2 0).toNat % 4 = 0 ∧
      (small (at8 0x1000 0) 1).levelSize r0 .scr < (effAddr (at8 0x1000 0) .scr 8 2 0).toNat + 4) ∧
    ((effAddr (at8 0 0x100000) .glob 8 2 0).toNat % 4 = 0 ∧ 2 ^ 52 ≤ (effAddr (at8 0 0x100000) .glob 8 2 0).toNat) ∧
    One (.pref ⟨false, 0, 8, 0, 2, 0⟩) (small streaming 1) c0 (crewOf streaming) 0 ∧ 2 ≤ streaming.policy ∧
    translate (small gT 1) (.core 0) 1 0x200040 false .read = (small gT 1, .ok 0x40000040) ∧ effAddr gT .glob 8 2 0 = 0x200040 ∧
    gT.policy < 2 ∧ (small gT 1).dead 0x40000040 = false ∧ makeRoom (small gT 1) 0 0x40000040 = (small gT 1, true) ∧
    HasRoom (small gT 1) 0 0x40000040 ∧ (small gT 1).isBusy .phys 0x40000040 64 = false :=
  ⟨fun _ _ => ⟨one_at8 _ _ _ rfl rfl, one_at8 _ _ _ rfl rfl, one_at8 _ _ _ rfl rfl⟩, by decide, by decide, by decide,
    one_small _ _ rfl rfl (fun e => nomatch e) rfl rfl, by decide, page_at8 _ _, by decide, by decide, by decide, rfl,
    .inr (by decide), by decide⟩

theorem witness_Atomics :
    (∀ lo, One (.atom ⟨false, 2, 8, 4, 0, 0⟩) (small (at8 lo 0) 1) c0 (crewOf (at8 lo 0)) 0 ∧
      One (.red ⟨false, 8, 4, 0, 0⟩) (small (at8 lo 0) 1) c0 (crewOf (at8 lo 0)) 0 ∧
      One (.atoms ⟨false, 2, 8, 4, 0⟩) (small (at8 lo 0) 1) c0 (crewOf (at8 lo 0)) 0 ∧
      One (.atomc ⟨false, 2, 8, 4, 0⟩) (small (at8 lo 0) 1) c0 (crewOf (at8 lo 0)) 0 ∧
      One (.atomx ⟨false, 2, 8, 4, 0⟩) (small (at8 lo 0) 1) c0 (crewOf (at8 lo 0)) 0 ∧
      One (.reds ⟨false, 8, 4, 0⟩) (small (at8 lo 0) 1) c0 (crewOf (at8 lo 0)) 0 ∧
      One (.redc ⟨false, 8, 4, 0⟩) (small (at8 lo 0) 1) c0 (crewOf (at8 lo 0)) 0 ∧
      One (.redx ⟨false, 8, 4, 0⟩) (small (at8 lo 0) 1) c0 (crewOf (at8 lo 0)) 0) ∧
    (∀ t, Quiet (small t 1) c0 (crewOf t) ∧ (small t 1).l1 = [] ∧ (small t 1).isDet 0 = false ∧ (small t 1).buffering 0 = none ∧
      translate (small t 1) (.core 0) 1 0x200040 false .write = (small t 1, .ok 0x40000040)) ∧
    gT.pair 8 = 0x200040 ∧ accessCode .glob 0x200040 4 (2 ^ 52) = none ∧ (small gT 1).deadRange 0x40000040 4 = false ∧
    0x40000040 % 16 = 0x200040 % 16 ∧ 0x100000 ≤ 0x40000040 ∧ Mem.wf (small gT 1).mem = true ∧
    hasTaint (.atom ⟨false, 2, 8, 4, 0, 0⟩) gT = false ∧ hasTaint (.reds ⟨false, 8, 4, 0⟩) eT = false ∧
    (HasRoom (small gT 1) 0 0x40000040 ∧
    ∀ l ∈ [Level.scr, .clu, .chip], accessCode l ((eT.reg 8).setWidth 64) 4 ((small eT 1).levelSize r0 l) = none ∧
      (small eT 1).isBusy ((small eT 1).levelPlace r0 l) 0xFFC 4 = false) :=
  ⟨fun _ => ⟨one_at8 _ _ _ rfl rfl, one_at8 _ _ _ rfl rfl, one_at8 _ _ _ rfl rfl, one_at8 _ _ _ rfl rfl, one_at8 _ _ _ rfl rfl,
    one_at8 _ _ _ rfl rfl, one_at8 _ _ _ rfl rfl, one_at8 _ _ _ rfl rfl⟩,
    fun t => ⟨quiet_small t 1, rfl, rfl, rfl, page_at8 t _⟩, by decide, by decide, by decide, by decide, by decide, by decide,
    by decide, by decide, .inr (by decide), by decide⟩

def teamCopy : Team := { team0 with tags := 0xFFFF }
/-- Copy operands: control word, index list word, list place; dense offset, barrier, record address. -/
def copyT (ctl : Word) : Thread :=
  withRegs [(20, ctl), (21, 0x201), (22, 0x100), (12, 0x40), (13, 32), (14, 0x200200)] th0
def sCopy (ctl : Word) : State :=
  withTeam teamCopy { small (copyT ctl) 1 with mem := Mem.writeBytes [] 0x40000200 (recordBytesOf 0x200100) }
def copyF : R3 := ⟨false, 20, 12, 16, 0⟩
def onTag : Word := 0x80000042
def onBar : Word := 0x80000080

theorem one_copy (i : Instr) (ctl : Word) (h8 : i.privileged = false) (h13 : guardOf i (copyT ctl) = true) :
    One i (sCopy ctl) c0 (crewOf (copyT ctl)) 0 :=
  one_on i _ _ _ _ rfl rfl rfl rfl rfl rfl (fun e => by rw [h8] at e; cases e) rfl rfl rfl rfl h13

/-- What the statement asks of a copy of a kind with a control word. -/
def CopyMet (k : CopyKind) (ctl : Word) (ix : List Nat) : Prop :=
  let s := sCopy ctl
  let o := copyOps k copyF (copyT ctl)
  let b := recordBytesOf 0x200100
  readRecord s r0 o = .got s b ∧ copyCodes s r0 copyF o (some (Layout.ofBytes b)) = [] ∧ Committed s r0 s ∧
    s.relBlocked c0 = false ∧ release s c0 (s.thread r0).pc (laneBit 0) = s ∧ listBusy s r0 o = false ∧ readList s r0 o = (s, .ok ix) ∧
    boxBeyond s 0 (Layout.ofBytes b) (copyRuns k (Layout.ofBytes b) o.toTensor o.origin ix) = false ∧
    s.teamClass 0 < (s.cluster 0).queues.length ∧ (s.team? 0).isSome

/-- Ends part 2 of the tests. -/
inductive Part2 where | ended

theorem witness_CopiesEnterTheirQueue :
    (∀ ctl, One (.cpy copyF) (sCopy ctl) c0 (crewOf (copyT ctl)) 0 ∧ One (.cpyg copyF) (sCopy ctl) c0 (crewOf (copyT ctl)) 0 ∧
      One (.cpys copyF) (sCopy ctl) c0 (crewOf (copyT ctl)) 0) ∧
    (CopyMet .cpy onTag [] ∧ CopyMet .cpyg onTag [0, 0] ∧ CopyMet .cpys onTag [0, 0] ∧ CopyMet .cpy onBar []) ∧
    (copyOps .cpy copyF (copyT onTag)).onBarrier (some (Layout.ofBytes (recordBytesOf 0x200100))) = false ∧
    (copyOps .cpy copyF (copyT onBar)).onBarrier (some (Layout.ofBytes (recordBytesOf 0x200100))) = true ∧
    Mem.wf ((sCopy onBar).placeMem ((sCopy onBar).spacePlace 0 2)) = true ∧
    32 + 16 ≤ (sCopy onBar).placeSize ((sCopy onBar).spacePlace 0 2) ∧
    (let s := sCopy onBar
      let c := copyOf s r0 (copyOps .cpy copyF (copyT onBar)) (Layout.ofBytes (recordBytesOf 0x200100)) [] 0
      barrierCopies s 0 < Config.barrierCopies ∧
        (s.tbar (s.spacePlace 0 2) 32).sectors + markCount c.marks < 2 ^ 28 ∧ 0 < markCount c.marks) := by
  refine ⟨fun ctl => ⟨one_copy _ _ rfl rfl, one_copy _ _ rfl rfl, one_copy _ _ rfl rfl⟩,
    ⟨?_, ?_, ?_, ?_⟩, by decide, by decide, by decide, by decide, by decide⟩
  all_goals exact ⟨rfl, by decide, ⟨rfl, rfl⟩, rfl, rfl, by decide, rfl, by decide, by decide, rfl⟩

def sService (c : Copy) : State := { withCopies [c] (small th0 1) with cycle := 1 }
/-- Copies of two chunks and of one; one that completes on a barrier, and one from where no page is. -/
def twoChunks : Copy := { oneCopy 0x200100 [] with layout := Layout.ofBytes (recordBytesOf 0x200100), span := 4096 }
def toBarrier : Copy := oneCopy 0x200100 [(0, .scratch 0, 1)]
def Served (c : Copy) (fails : Bool) : Prop :=
  ∃ e, pickCopy (sService c) ((sService c).cluster 0) 8 = (e, some (0, c)) ∧
    (planChunk ((sService c).setCluster 0 fun _ => e) c c.groups).2.2.isSome = fails

theorem witness_CopyService :
    (pickCopy (small th0 1) ((small th0 1).cluster 0) 8).2 = none ∧
    (∀ c ∈ [oneCopy 0x200100 [], toBarrier, twoChunks], Served c false) ∧ Served (oneCopy 0x600100 []) true ∧
    (oneCopy 0x200100 []).chunks ≤ (oneCopy 0x200100 []).chunk + 1 ∧ twoChunks.chunk + 1 < twoChunks.chunks ∧
    (toBarrier.tag = none ∧ 0 < markCount toBarrier.marks ∧ (sService toBarrier).spacePlace 0 2 ≠ .phys ∧
      32 + 16 ≤ (sService toBarrier).placeSize ((sService toBarrier).spacePlace 0 2) ∧
      Mem.wf ((sService toBarrier).placeMem ((sService toBarrier).spacePlace 0 2)) = true) ∧
    (oneCopy 0x200100 []).tag = some 2 ∧ ∀ c, (sService c).team? 0 = some team0 := by
  refine ⟨by decide, fun c h => ?_, ?_, by decide, by decide, by decide, rfl, fun _ => rfl⟩
  · simp only [List.mem_cons, List.not_mem_nil, or_false] at h
    rcases h with rfl | rfl | rfl <;> (refine ⟨_, rfl, ?_⟩; decide)
  · refine ⟨_, rfl, ?_⟩
    decide

/-- The team with the array and a scratchpad of 64 KiB; crew registers 4 to 7. -/
def teamMat (m : Matrix) : Team := { team0 with array := some m, scratchSize := 65536 }
def sMat (m : Matrix) (k : List (Reg6 × Word)) : State := withTeam (teamMat m) (smallM th0 (BitVec.allOnes 64) mPart k)
/-- The whole crew issues `i`, lane 0 its lowest lane with a true guard. -/
def Issued (i : Instr) (s : State) (w : Crew) : Prop := Ready i s c0 w (BitVec.allOnes 64) ∧ Leads i w 0
theorem issued_mat (i : Instr) (tm : Team) (k : List (Reg6 × Word)) (h5 : tm.deferred = []) (h8 : i.privileged = false)
    (h13 : guardOf i th0 = true) : Issued i (withTeam tm (smallM th0 (BitVec.allOnes 64) mPart k)) (crewM th0 mPart k) :=
  ⟨ready_on i _ th0 _ _ tm rfl rfl rfl (by decide) h5 rfl rfl (fun e => by rw [h8] at e; cases e) rfl rfl rfl rfl, leads_m _ _ _ h13⟩
def matK : List (Reg6 × Word) := [(2, 0x007F7F7F), (6, 3), (10, 0x80)]
def crewMat : Crew := crewM th0 mPart matK
def fullMat : Matrix := { Matrix.start with queue := List.replicate Config.matrixQueue default }

theorem witness_MatrixInstructionsQueue :
    (∀ m, (sMat m matK).team? 0 = some (teamMat m) ∧ (teamMat m).array = some m ∧ (teamMat m).baton = c0.crew ∧
      (sMat m matK).spaceSize 0 1 = 65536) ∧
    (Matrix.start.discard = false ∧ Matrix.start.queue.length < Config.matrixQueue ∧ fullMat.discard = false ∧
      Config.matrixQueue ≤ fullMat.queue.length ∧ ({ Matrix.start with discard := true } : Matrix).discard = true) ∧
    (∀ m, (∀ i ∈ [Instr.tcfg ⟨false, 2, 0⟩, .wld ⟨false, 4, 6, 0⟩, .wswap ⟨false, 0⟩, .mms ⟨false, 1, 4, 6, 0⟩, .ast ⟨false, 1, 4, 7, 0⟩,
      .ald ⟨false, 1, 4, 0⟩, .azero ⟨false, 3, 0⟩, .scld ⟨false, 63, 4, 8, 0⟩], Issued i (sMat m matK) crewMat) ∧
      Issued (.tcfg ⟨false, 10, 0⟩) (sMat m matK) crewMat) ∧
    (cfgBad (crewMat.kPair 2) = false ∧ cfgBad (crewMat.kPair 10) = true) ∧
    ((crewMat.kReg 4).toNat % 256 = 0 ∧ (crewMat.kReg 4).toNat + blockBytes (bits (crewMat.kReg 6).toNat 2 0) 128 false ≤ 65536 ∧
      bits (crewMat.kReg 6).toNat 2 0 ≠ 7 ∧ bits (crewMat.kReg 6).toNat 31 9 = 0 ∧ bits (crewMat.kReg 6).toNat 8 3 = 0) ∧
    (cfgModeB Matrix.start.issued = false ∧ blockBytes (bits (crewMat.kReg 6).toNat 2 0) (cfgRows Matrix.start.issued) false ≤ 65536 ∧
      bits (crewMat.kReg 6).toNat 31 14 = 0 ∧ bits (crewMat.kReg 6).toNat 13 8 = 0 ∧
      128 * bits (crewMat.kReg 6).toNat 7 3 < cfgDepth Matrix.start.issued) ∧
    (astExtent (cfgRows Matrix.start.issued) (cfgCols Matrix.start.issued) 7 ≤ 65536 ∧ matBfp 7 = false ∧ crewMat.taintK = 0 ∧
      hasTaint (.ast ⟨false, 1, 4, 7, 0⟩) th0 = false ∧ (sMat Matrix.start matK).logFull r0 1 = false ∧
      hasTaint (.ast ⟨false, 1, 4, 7, 0⟩) { th0 with taintC := true } = true) ∧
    4 * cfgRows Matrix.start.issued * cfgCols Matrix.start.issued ≤ 65536 ∧
    ((crewMat.kPair 8).toNat % 64 = 0 ∧ (crewMat.kPair 8).toNat < 2 ^ 52) ∧
    (∀ tm ∈ [team0, { teamMat Matrix.start with baton := 1 }], ∀ i ∈ [Instr.wswap ⟨false, 0⟩, .azero ⟨false, 3, 0⟩],
      Issued i (withTeam tm (smallM th0 (BitVec.allOnes 64) mPart matK)) crewMat) ∧
    (team0.array = none ∧ (teamMat Matrix.start).array.isSome ∧ (1 : Nat) ≠ c0.crew) := by
  refine ⟨fun m => ⟨rfl, rfl, rfl, rfl⟩, by decide, fun m => ⟨fun i h => ?_, issued_mat _ _ _ rfl rfl rfl⟩, by decide, by decide, by decide,
    by decide, by decide, by decide, fun tm ht i h => ?_, by decide⟩
  · simp only [List.mem_cons, List.not_mem_nil, or_false] at h
    rcases h with rfl | rfl | rfl | rfl | rfl | rfl | rfl | rfl <;> exact issued_mat _ _ _ rfl rfl rfl
  · simp only [List.mem_cons, List.not_mem_nil, or_false] at h ht
    rcases ht with rfl | rfl <;> rcases h with rfl | rfl <;> exact issued_mat _ _ _ rfl rfl rfl

/-- An array whose queue holds one instruction. -/
def matInstr (op : MatOp) (started stalled : Bool) (cfg : DWord) : MatInstr :=
  { id := 9, op := op, crew := 0, lane := 0, sup := false, pc := 0x10000, time := 0, cycle := 0, cfg := cfg, started := started,
    stalled := stalled, overtaken := 0, plane := Plane.start, lines := [] }
def holding (i : MatInstr) : Matrix :=
  { Matrix.start with queue := [i], bindings := List.replicate 64 (0x200000, 0xFFFFFFFF) }
/-- A pass over one row in mode B of a block floating point format, which lacks its exponent. -/
def lacking : MatInstr := matInstr (.mms 1 0 2 0) false true (2 ^ 32)

def passOf (ctl : Word) (cfg : DWord) : MatInstr := matInstr (.mms 1 0 ctl 0) false false cfg

theorem witness_MatrixEffects :
    (∀ op ∈ [MatOp.tcfg 0x007F7F7F, .wld 0 3 0, .wswap, .azero 3, .ald 1 0, .ast 1 0 7 0 false, .scld 63 5 0x200000],
      let i := matInstr op false false 0x007F7F7F
      let j := matInstr op true false 0x007F7F7F
      (sMat (holding i) []).array? 0 = some (holding i) ∧ ((holding i).queue.find? fun x => x.id == i.id) = some i ∧
      (holding i).startable i = true ∧ i.op.isMms = false ∧ ((holding j).queue.find? fun x => x.id == j.id) = some j ∧
      (holding j).startable j = false ∧ completable (sMat (holding i) []) 0 (holding i) i = false ∧
      completable (sMat (holding j) []) 0 (holding j) j = true ∧ j.spoilt (sMat (holding j) []) 0 = false ∧ (holding j).tiles.length = 4) ∧
    (let j := matInstr (.mms 3 0 3 0) true false 0x007F7F7F;
      completable (sMat (holding j) []) 0 (holding j) j = true ∧ matBfp (bits (3#32).toNat 2 0) = false ∧
      j.spoilt (sMat (holding j) []) 0 = false ∧ matBfp j.plane.format = false ∧ bits (3#32).toNat 2 0 ≠ 7 ∧
      (let s : State := { sMat (holding j) [] with flaws := [.place (.scratch 0) 0] }; j.spoilt s 0 = true ∧
        completable s 0 (holding j) j = true)) ∧
    ((holding (passOf 3 0x007F7F7F)).startable (passOf 3 0x007F7F7F) = true ∧
      neededBlocks 0x007F7F7F (holding (passOf 3 0x007F7F7F)).act 3 0 = []) ∧
    (let m := holding (passOf 2 (2 ^ 32));
      m.startable (passOf 2 (2 ^ 32)) = true ∧ outOfTable m (neededBlocks (2 ^ 32) m.act 2 0) = none ∧
      outOfTable { m with bindings := List.replicate 64 (0x200000, 0) } (neededBlocks (2 ^ 32) m.act 2 0) ≠ none) ∧
    (let s := sMat (holding lacking) [];
      s.array? 0 = some (holding lacking) ∧
      ((holding lacking).queue.find? fun x => x.id == lacking.id && x.stalled) = some lacking ∧
      missingBlock lacking (neededBlocks lacking.cfg lacking.plane 2 0) = some (false, 0, 0) ∧
      scaleHit s (s.teamCore 0) 0 0 = none ∧ scaleHit { s with scales := [⟨0, 0, 0, List.replicate 64 127, 0⟩] } 0 0 0 ≠ none ∧
      (∃ bs, engineRead s 0 lacking.sup .phys ((holding lacking).table 0 + 64 * 0) 64 = (s, .ok bs)) ∧
      (∃ f, (engineRead (sMat { holding lacking with bindings := List.replicate 64 (0x600000, 5) } []) 0 lacking.sup .phys 0x600000 64).2 =
        .error f) ∧
      outOfTable (holding lacking) (neededBlocks lacking.cfg lacking.plane 2 0) = none) := by
  refine ⟨?_, by decide, ⟨by decide, rfl⟩, by decide, rfl, rfl, by decide, rfl, by decide, ⟨_, rfl⟩, ⟨_, rfl⟩, by decide⟩
  intro op h
  simp only [List.mem_cons, List.not_mem_nil, or_false] at h
  rcases h with rfl | rfl | rfl | rfl | rfl | rfl | rfl <;>
    exact ⟨rfl, rfl, by decide, rfl, rfl, by decide, by decide, by decide, by decide, by decide⟩

/-- A code object at 0x200000 whose code holds a `SOLVE` at 0x200100 and its `SOLEND` after it; the team's region. -/
def codeMem : Mem :=
  Mem.writeBytes (Mem.writeBytes [] 0x40000000 (leBytes 4 0x4A424F58 ++ leBytes 8 0 ++ leBytes 4 512 ++ leBytes 8 256))
    0x40000100 (leBytes 4 0x7C018000 ++ leBytes 4 0x7C000001)
def atPc (pc : DWord) (t : Thread) : Thread := { t with pc := pc }
def sCode (pc : DWord) (z : Solve) : State :=
  { small (atPc pc th0) (BitVec.allOnes 64) with
    mem := codeMem, launches := [(0, { placedLaunch with code := 0x200000 })], teams := [(0, { team0 with solve := z })]
    cur := { Group.none with pc := pc, lanes := [(c0, BitVec.allOnes 64)] } }

theorem ready_region (i : Instr) (pc : DWord) (z : Solve) (s : State) (h1 : s.crews = [(c0, crewOf (atPc pc th0))])
    (h2 : s.teams = [(0, { team0 with solve := z })]) (h3 : s.cur = { Group.none with pc := pc, lanes := [(c0, BitVec.allOnes 64)] })
    (h8 : i.privileged = false) (h7 : brokenChain i (atPc pc th0) = false) (h10 : s.traces = []) (h11 : s.trials = [])
    (h15 : s.flaws = []) : Ready i s c0 (crewOf (atPc pc th0)) (BitVec.allOnes 64) :=
  ready_on i s _ _ _ _ h1 h2 h3 (by decide) rfl rfl h7 (fun e => by rw [h8] at e; cases e) rfl h10 h11 rfl rfl h15

theorem witness_RegionArrival :
    (let s := sCode 0x200100 Solve.start; let w := crewOf (atPc 0x200100 th0);
      Ready (.solve ⟨false, 12⟩) s c0 w (BitVec.allOnes 64) ∧ s.relBlocked c0 = false ∧ (∀ n, s.logFull r0 n = false) ∧
      (∀ l, l < 64 → hasTaint (.solve ⟨false, 12⟩) (w.thread l) = false) ∧ w.taintK = 0 ∧
      (let v : Crew := { w with taintK := laneBit 12 }; let s' := { s with crews := [(c0, v)] }
        Ready (.solve ⟨false, 12⟩) s' c0 v (BitVec.allOnes 64) ∧ v.taintK.getLsbD 12 = true ∧ ∀ n, s'.logFull r0 n = false) ∧
      solveCode s c0 false 0x200100 (findEnd s r0 0x200100) = none ∧
      Ready (.solve ⟨false, 12⟩) (behind s) c0 w (BitVec.allOnes 64) ∧ (behind s).relBlocked c0 = true ∧
      solveCode (behind s) c0 false 0x200100 (findEnd (behind s) r0 0x200100) = none ∧
      Ready (.solend ⟨false⟩) s c0 w (BitVec.allOnes 64) ∧ solveCode s c0 true 0x200100 none = some 2) ∧
    (let z := { Solve.start with active := true, endPc := 0x200104 };
      Ready (.solend ⟨false⟩) (sCode 0x200104 z) c0 (crewOf (atPc 0x200104 th0)) (BitVec.allOnes 64) ∧
      (sCode 0x200104 z).relBlocked c0 = false ∧ solveCode (sCode 0x200104 z) c0 true 0x200104 none = none) :=
  ⟨⟨ready_region _ _ Solve.start _ rfl rfl rfl rfl rfl rfl rfl rfl, rfl, fun _ => rfl,
      fun l h => by rw [crewOf_thread _ _ h]; rfl, rfl,
      ⟨ready_on _ _ (atPc 0x200100 th0) _ _ _ rfl rfl rfl (by decide) rfl rfl rfl (fun e => nomatch e) rfl rfl rfl rfl, by decide,
        fun _ => rfl⟩, by decide,
      ready_region _ _ Solve.start _ rfl rfl rfl rfl rfl rfl rfl rfl, by decide, by decide,
      ready_region _ _ Solve.start _ rfl rfl rfl rfl rfl rfl rfl rfl, by decide⟩,
    ready_region _ _ _ _ rfl rfl rfl rfl rfl rfl rfl rfl, rfl, by decide⟩

/-- A control block at 0 of one binary64 tile at 256, its history at 512; the tile holds `v`. -/
def blockMem (thresh ceil v : Nat) : Mem :=
  Mem.writeBytes (Mem.writeBytes [] 0 (leBytes 8 thresh ++ leBytes 8 0 ++ leBytes 8 0 ++ leBytes 4 ceil ++ leBytes 4 0 ++
    leBytes 4 0xC0000001 ++ leBytes 12 0 ++ leBytes 4 512)) 256 (leBytes 8 v)
def sSolve (isEnd : Bool) (thresh ceil v : Nat) (z : Solve) : State :=
  { small { th0 with wait := .region isEnd 4 0x10000 0x10000 none } 1 with
    teams := [(0, { team0 with scratch := blockMem thresh ceil v, solve := z })] }
def regionOf (thresh : DWord) (ceil : Nat) : Solve :=
  { Solve.start with active := true, thresh := thresh, ceil := ceil, history := 512, tiles := [0xC0000001, 0, 0, 0] }

/-- Another team of the core, whose step became ready earlier. -/
def afterOther (s : State) : State :=
  { s with
    teams := s.teams ++ [(1, team0)], crews := s.crews ++ [(⟨1, 0⟩, crewOf { th0 with wait := .region false 4 0x10000 0x10000 none })]
    cores := [(0, { Core.reset with mixing := [1, 0] })] }

/-- Ends part 3 of the tests. -/
inductive Part3 where | ended

theorem witness_SolveSteps :
    (let s := sSolve false (0x3FE0 * 2 ^ 48) 5 0 Solve.start;
      s.traces = [] ∧ Mem.wf (blockMem (0x3FE0 * 2 ^ 48) 5 0) = true ∧ ((crewOf th0).kReg 4).toNat = 0 ∧
      s.mixes 0 = true ∧ s.regionReady 0 false = some (0, 4, 0x10000) ∧ s.spoilt (.scratch 0) 0 64 = false ∧
      (∃ b, solveBlock s 0 0 = some b ∧ solveBusy s 0 b = false ∧ partSpoilt s 0 b [none] = false ∧
        solveBusy (withCopies [oneCopy 0x200100 [(0, .scratch 0, 0)]] s) 0 b = true) ∧
      (afterOther s).mixes 0 = false ∧ (small th0 1).regionReady 0 false = none ∧
      solveBlock (sSolve false 0 0 0 Solve.start) 0 0 = none) ∧
    (∀ v ∈ [0, 0x3FF0 * 2 ^ 48, 0x7FF0 * 2 ^ 48], ∀ ceil ∈ [1, 5],
      let z := regionOf 0x3FE0000000000000 ceil
      let s := sSolve true (0x3FE0 * 2 ^ 48) ceil v z
      s.solve 0 = z ∧ s.mixes 0 = true ∧ Mem.wf (blockMem (0x3FE0 * 2 ^ 48) ceil v) = true ∧
      s.regionReady 0 true = some (0, 4, 0x10000) ∧ solveBusy s 0 z = false ∧ partSpoilt s 0 z [some 0, none] = false ∧
      partSpoilt { s with flaws := [.place (.scratch 0) 4] } 0 z [some 0, none] = true ∧
      let x := values z (readPart s 0 z (some 0))
      let f := subAll (values z (readPart s 0 z none)) x
      let r := Fmt.f64.sqrt 0 (orderedDot (f.zip f))
      if v = 0 then (Fmt.f64.val r).cmp (Fmt.f64.val z.thresh.toNat) = some .lt
      else (Fmt.f64.val r).cmp (Fmt.f64.val z.thresh.toNat) ≠ some .lt ∧
        if v = 0x7FF0 * 2 ^ 48 then Fmt.f64.val r = .nan ∨ Fmt.f64.val r = .inf false
        else Fmt.f64.val r ≠ .nan ∧ Fmt.f64.val r ≠ .inf false ∧
          if ceil = 1 then z.k + 1 = z.ceil else z.k + 1 ≠ z.ceil ∧ z.k = 0 ∧ (solendStepOf s 0).2 = .mixed) := by
  refine ⟨⟨rfl, by decide, by decide, by decide, by decide, by decide, ⟨_, rfl, by decide, by decide, by decide⟩, by decide, by decide,
    by decide⟩, ?_⟩
  intro v hv ceil hc
  simp only [List.mem_cons, List.not_mem_nil, or_false] at hv hc
  rcases hv with rfl | rfl | rfl <;> rcases hc with rfl | rfl <;> decide

/-- A job with one route to module 3, in which the small machine's team has rank 0. -/
def job7 : Job :=
  { number := 7, counters := Vector.replicate 96 ⟨0, 0, 0⟩, routes := [⟨0, 0, 0, 0⟩, ⟨1, 9, 3, 1⟩], treeSet := true, root := true,
    parent := 0, childPorts := 2, period := 1000, wave := none, lastWave := 0, lastStart := 0, lastPass1 := 0, lastVerdict := 0,
    lastKind := 0, lastSums := noSums, reached := 0, repaired := false }
def launch7 : Launch := { placedLaunch with job := 7, ringCap := 4 }
def withJob (j : Job) (s : State) : State :=
  { s with launches := [(0, launch7)], fabric := { s.fabric with jobs := [j] }, consts := [⟨0, 0, 7, 0, 0x10000⟩, ⟨0, 0, 7, 1, 0⟩] }
def sendT (ctl : Word) : Thread := withRegs [(8, 5), (9, ctl), (10, 0x200040), (12, 0)] th0
def sFab (ctl : Word) : State := withJob job7 (small (sendT ctl) 1)
theorem one_fab (i : Instr) (ctl : Word) (h8 : i.privileged = false) (h13 : guardOf i (sendT ctl) = true) :
    One i (sFab ctl) c0 (crewOf (sendT ctl)) 0 :=
  one_on i _ _ _ _ rfl rfl rfl rfl rfl rfl (fun e => by rw [h8] at e; cases e) rfl rfl rfl rfl h13
def SendMet (i : Instr) (f : SendF) (ctl : Word) : Prop :=
  One i (sFab ctl) c0 (crewOf (sendT ctl)) 0 ∧ f.encoding (sendT ctl) = none ∧ sendCodes (sFab ctl) r0 f = [] ∧
    job7.route? ((sendT ctl).reg f.a) = some ⟨1, 9, 3, 1⟩

def msendF : SendF := ⟨0, 0, 8, 12⟩
/-- The launch in deterministic mode, or of no job; an empty handler entry; a crew with a message on its way to the interface. -/
def withLaunch (l : Launch) (s : State) : State := { s with launches := [(0, l)] }
def noHandler (s : State) : State := { s with consts := [⟨0, 0, 7, 0, 0⟩, ⟨0, 0, 7, 1, 0⟩] }
def wUnsent (t : Thread) : Crew := { crewOf t with unsent := 1 }

theorem witness_FabricInstructions :
    (∀ ctl, (sFab ctl).team? 0 = some team0 ∧ (sFab ctl).teamLaunch? 0 = some (0, launch7) ∧ (sFab ctl).job? launch7.job = some job7 ∧
      launch7.job ≠ 0 ∧ Committed (sFab ctl) r0 (sFab ctl) ∧ (sFab ctl).relBlocked c0 = false ∧ (sFab ctl).buffering 0 = none ∧
      release (sFab ctl) c0 (sendT ctl).pc (laneBit 0) = sFab ctl) ∧
    (∃ bs, SendMet (.msend ⟨false, 8, 12, 0⟩) msendF 0x100 ∧ SendMet (.rput ⟨false, 8, 12, 0⟩) ⟨1, 0, 8, 12⟩ 0x100 ∧
      sourceBusy (sFab 0x100) 0 false (.scratch 0) 0 4 = false ∧ engineRead (sFab 0x100) 0 false (.scratch 0) 0 4 = (sFab 0x100, .ok bs) ∧
      handlerEntry (sFab 0x100) r0 0 = .got 0x10000 ∧ handlerEntry (noHandler (sFab 0x100)) r0 0 = .got 0) ∧
    One (.msend ⟨false, 8, 12, 0⟩) (noHandler (sFab 0x100)) c0 (crewOf (sendT 0x100)) 0 ∧ sendCodes (noHandler (sFab 0x100)) r0 msendF = [] ∧
    SendMet (.rget ⟨false, 16, 8, 0⟩) ⟨2, 16, 8, 0⟩ 0x100 ∧ SendMet (.ratom ⟨false, 16, 8, 12, 0⟩) ⟨3, 16, 8, 12⟩ 0x10 ∧
    (One (.msend ⟨false, 8, 12, 0⟩) (behind (sFab 0x100)) c0 (crewOf (sendT 0x100)) 0 ∧ (behind (sFab 0x100)).relBlocked c0 = true ∧
      sendCodes (behind (sFab 0x100)) r0 msendF = [] ∧ (behind (sFab 0x100)).buffering 0 = none) ∧
    (∃ k b, (⟨3, 16, 8, 12⟩ : SendF).encoding (sendT 0) = some (k, b)) ∧
    (∃ x, One (.msend ⟨false, 8, 12, 0⟩) (sFab 0x8000) c0 (crewOf (sendT 0x8000)) 0 ∧ msendF.encoding (sendT 0x8000) = none ∧
      lowestCode (sendCodes (sFab 0x8000) r0 msendF) = some x) ∧
    (One (.waitq ⟨false, 4, 0⟩) (sFab 0) c0 (crewOf (sendT 0)) 0 ∧ (sFab 0).isDet 0 = false ∧ (crewOf (sendT 0)).unsent = 0 ∧
      (wUnsent (sendT 0)).unsent ≠ 0 ∧
      One (.waitq ⟨false, 4, 0⟩) { sFab 0 with crews := [(c0, wUnsent (sendT 0))] } c0 (wUnsent (sendT 0)) 0) ∧
    ∀ l ∈ [{ launch7 with det := true }, placedLaunch], One (.waitq ⟨false, 4, 0⟩) (withLaunch l (sFab 0)) c0 (crewOf (sendT 0)) 0 ∧
      (withLaunch l (sFab 0)).teamLaunch? 0 = some (0, l) ∧ ((withLaunch l (sFab 0)).isDet 0 = true ∨ l.job = 0) := by
  have one : ∀ (i : Instr) (ctl : Word) (s : State) (w : Crew), s.crews = [(c0, w)] → s.teams = [(0, team0)] →
      s.cur = { Group.none with lanes := [(c0, 1)] } → s.traces = [] → s.trials = [] → w.threads = Vector.replicate 64 (sendT ctl) →
      w.service = none → s.flaws = [] → i.privileged = false → brokenChain i (sendT ctl) = false → guardOf i (sendT ctl) = true →
      One i s c0 w 0 := fun i ctl s w h1 h2 h3 h10 h11 h12 h14 h15 h8 h7 h13 =>
    one_on i s (sendT ctl) w team0 h1 h2 h3 rfl rfl h7 (fun e => by rw [h8] at e; cases e) rfl h10 h11 h12 h13 h14 h15
  refine ⟨fun ctl => ⟨rfl, rfl, rfl, by decide, ⟨rfl, rfl⟩, rfl, rfl, (quiet_on (sFab ctl) (crewOf (sendT ctl)) team0 rfl rfl rfl rfl rfl).release rfl _ _⟩,
    ⟨_, ⟨one_fab _ _ rfl rfl, by decide, by decide, by decide⟩,
      ⟨one_fab _ _ rfl rfl, by decide, by decide, by decide⟩, by decide, rfl, rfl, rfl⟩,
    one _ 0x100 _ _ rfl rfl rfl rfl rfl rfl rfl rfl rfl rfl rfl, by decide,
    ⟨one_fab _ _ rfl rfl, by decide, by decide, by decide⟩,
    ⟨one_fab _ _ rfl rfl, by decide, by decide, by decide⟩,
    ⟨one _ 0x100 _ _ rfl rfl rfl rfl rfl rfl rfl rfl rfl rfl rfl, by decide, by decide, rfl⟩, ⟨_, _, rfl⟩,
    ⟨_, one_fab _ _ rfl rfl, by decide, rfl⟩,
    ⟨one_fab _ _ rfl rfl, rfl, rfl, by decide, one _ 0 _ _ rfl rfl rfl rfl rfl rfl rfl rfl rfl rfl rfl⟩, fun l h => ?_⟩
  simp only [List.mem_cons, List.not_mem_nil, or_false] at h
  rcases h with rfl | rfl
  · exact ⟨one _ 0 _ _ rfl rfl rfl rfl rfl rfl rfl rfl rfl rfl rfl, rfl, .inl rfl⟩
  · exact ⟨one _ 0 _ _ rfl rfl rfl rfl rfl rfl rfl rfl rfl rfl rfl, rfl, .inr rfl⟩

/-- One message of the team to module 3, and the machine that keeps it. -/
def msgTo (cls : Nat) (ws : List Word) : Msg := ⟨cls, 7, 0, 5, 0, 1, 0x200040, 0, ws⟩
def sentOf (injected : Bool) (attempts queries : Nat) : Sent :=
  { id := 4, msg := msgTo 1 [9], iface := 95, destMod := 3, team := 0, sender := some r0, out := none, pc := 0x10000,
    origin := ⟨1, 0, 0, 0, 0, false, false, false⟩, consumes := none, injected := injected, sequence := 6, attempts := attempts,
    lastAttempt := 0, queries := queries, acked := false, settled := false }
def sSent (x : Sent) : State :=
  { withJob job7 (small th0 1) with
    time := 128000, fabric := { Fabric.reset with jobs := [job7], sent := [x] } }

theorem routed_port : ∃ s1 y, (sSent (sentOf false 0 0)).routed (sentOf false 0 0) = (s1, y) ∧ y.iface < 96 ∧
    ∀ d, ((sSent (sentOf false 0 0)).die d).inReset = false := by
  refine ⟨_, _, rfl, ?_, fun d => rfl⟩
  show 24 * 3 + (sSent (sentOf false 0 0)).takeFree.1.toNat % 24 < 96
  omega

theorem witness_FabricSenderEvents :
    (∀ x ∈ [sentOf false 0 0, sentOf true 3 0, sentOf true 4 3, sentOf true 4 4], (sSent x).sentById x.id = some x ∧ x.iface < 96 ∧
      x.acked = false ∧ x.settled = false ∧ x.lastAttempt + 128000 ≤ (sSent x).time ∧ x.msg.cls ≠ 4 ∧
      ((sSent x).job? x.msg.job).isSome ∧ x.destMod ≠ (sSent x).modl.number ∧ (sSent x).team? x.team = some team0) ∧
    (sSent (sentOf false 0 0)).time < ({ sentOf false 0 0 with lastAttempt := 1 } : Sent).lastAttempt + 128000 ∧
    (∃ s1 y, (sSent (sentOf false 0 0)).routed (sentOf false 0 0) = (s1, y) ∧ y.iface < 96 ∧ ∀ d, ((sSent (sentOf false 0 0)).die d).inReset = false) ∧
    (∀ x, (sSent x).sentSpoilt x = false) ∧
    (∃ e, (sSent (sentOf false 0 0)).job? 7 = some job7 ∧ job7.route? (sentOf false 0 0).msg.dest = some e) ∧
    (∀ q, (sSent (sentOf true 4 q)).sentBy 95 6 = some (sentOf true 4 q)) ∧
    (let x := { sentOf true 1 0 with destMod := 0 };
      let s := { sSent x with fabric := { (sSent x).fabric with accepted := [((sSent x).modl.number, 95, 6)] } };
      s.sentBy 95 6 = some x ∧ (s.modl.number, x.iface, x.sequence) ∈ s.fabric.accepted) ∧ team0.deferred = [] := by
  refine ⟨fun x hx => ?_, by decide, routed_port, fun x => rfl, ⟨_, rfl, rfl⟩, fun q => rfl, by decide, rfl⟩
  simp only [List.mem_cons, List.not_mem_nil, or_false] at hx
  rcases hx with rfl | rfl | rfl | rfl <;> exact ⟨rfl, by decide, rfl, rfl, by decide, by decide, rfl, by decide, rfl⟩

/-- An attempt from module 3 that arrives at interface 5. -/
def env3 : Envelope := ⟨1, 6, 3, 95, 1⟩
def sArr : State := withJob job7 (small th0 1)
/-- A request whose reply is awaited, a reply to it, and a team with a handler crew and a waiting message. -/
def asked : Sent := { sentOf true 1 0 with out := some 8, destMod := 3 }
def reply : Msg := { msgTo 4 [9] with address := identity ⟨0, 6, 0, 95, 1⟩ }
def sReply : State :=
  { sArr with
    fabric := { sArr.fabric with sent := [asked] }, crews := [(c0, crewOf { th0 with out := [⟨8, [some 3], none⟩] })] }
def inMsg : InMsg := ⟨msgTo 0 [9], 5, env3⟩
def sHand : State :=
  { sArr with
    teams := [(0, { team0 with handlers := 1, incoming := [inMsg] })], crews := [(⟨0, 1⟩, crewOf { th0 with exited := true })] }
def wDone : Crew := { crewOf { th0 with exited := true } with handling := some (msgTo 0 [9]), handlingIface := 5 }

theorem plan_arr (c : Nat) (k : AccKind)
    (hk : translateRange sArr (.die (5 / 24)) 1 false k 4 0x200040 4 = (sArr, .ok [(0x40000040, 4)])) :
    remotePlan sArr 1 (msgTo c [9]) 5 4 k = (sArr, .ok [(0x40000040, 4)]) := by
  unfold remotePlan
  have : (msgTo c [9]).address.toNat = 0x200040 := rfl
  rw [this, hk]
  have h1 : sArr.deadRange 0x40000040 4 = false := by decide
  have h2 : sArr.shut 0x40000040 = false := by decide
  simp [h1, h2]

/-- A put to where no page is. -/
def putNowhere : Msg := { msgTo 1 [9] with address := 0x600000 }
theorem plan_nowhere : ∃ s1 x, remotePlan sArr 1 putNowhere 5 4 .write = (s1, .error x) ∧ s1 = { sArr with tlb := s1.tlb, fresh := s1.fresh } :=
  ⟨_, _, rfl, rfl⟩

theorem witness_FabricArrivals :
    (∀ k ∈ [0, 1, 2, 3], arrives sArr (msgTo k [9]) env3 5 k = true ∧ arrives sArr (msgTo k [9]) env3 96 k = false ∧
      sArr.reached (msgTo k [9]) = true ∧ sArr.reached { msgTo k [9] with timestamp := 1 } = false) ∧ env3.modNum ≠ sArr.modl.number ∧
    (sArr.rankHolder (msgTo 0 [9]) = some (0, launch7, 0) ∧ sArr.standing 0 launch7 0 = .resident 0 ∧ sArr.team? 0 = some team0 ∧
      team0.ring = [] ∧ team0.incoming.length < Config.incomingQueue) ∧
    (∀ c, sArr.remoteCtx (msgTo c [9]) = some 1 ∧ remotePlan sArr 1 (msgTo c [9]) 5 4 .read = (sArr, .ok [(0x40000040, 4)]) ∧
      remotePlan sArr 1 (msgTo c [9]) 5 4 .write = (sArr, .ok [(0x40000040, 4)])) ∧
    (arrives sArr putNowhere env3 5 1 = true ∧ sArr.remoteCtx putNowhere = some 1 ∧
      ∃ s1 x, remotePlan sArr 1 putNowhere 5 4 .write = (s1, .error x) ∧ s1 = { sArr with tlb := s1.tlb, fresh := s1.fresh }) ∧
    sArr.isBusy .phys 0x40000040 4 = false ∧ sArr.flaws = [] ∧ sArr.l1 = [] ∧ sArr.deadRange 0x40000040 4 = false ∧
    (arrives sReply reply env3 5 4 = true ∧ sReply.requestOf reply = some asked ∧ asked.sender = some r0 ∧ asked.out = some 8 ∧
      sReply.crew? r0.cref = some (crewOf { th0 with out := [⟨8, [some 3], none⟩] }) ∧
      (((crewOf { th0 with out := [⟨8, [some 3], none⟩] }).thread 0).out.find? fun x => x.id == 8) = some ⟨8, [some 3], none⟩) ∧
    (sArr.identified env3 ∉ sArr.fabric.accepted ∧ sArr.wasLost env3 = false ∧ env3.iface < 96) :=
  ⟨by decide, by decide, ⟨rfl, by decide, rfl, rfl, by decide⟩, fun c => ⟨rfl, plan_arr c _ rfl, plan_arr c _ rfl⟩,
    ⟨by decide, rfl, plan_nowhere⟩, by decide, rfl, rfl, by decide, ⟨by decide, by decide, rfl, rfl, rfl, by decide⟩, by decide⟩

theorem witness_FabricArrivals_handlers :
    sHand.flaws = [] ∧ (let tm := { team0 with handlers := 1, incoming := [inMsg] };
      sHand.team? 0 = some tm ∧ sHand.teamLaunch? 0 = some (0, launch7) ∧ freeHandler sHand 0 1 = true ∧ tm.held = false ∧
      (∃ w, sHand.crew? ⟨0, 1⟩ = some w) ∧ sHand.bankHeld tm.core tm.launch 7 0 = some 0x10000 ∧
      sHand.bankHeld tm.core tm.launch 7 1 = some 0 ∧ sHand.reached inMsg.msg = true ∧
      sHand.reached { inMsg.msg with timestamp := 1 } = false) ∧
    (let s : State := { sArr with crews := [(c0, wDone)] };
      s.crew? c0 = some wDone ∧ wDone.handling = some (msgTo 0 [9]) ∧ wDone.handlingIface = 5 ∧
      wDone.unsent = 0 ∧ (wDone.allThread fun t => t.exited && t.trap.isNone) = true ∧ s.relBlocked c0 = false ∧
      (behind s).relBlocked c0 = true) :=
  ⟨rfl, ⟨rfl, rfl, by decide, rfl, ⟨_, rfl⟩, rfl, rfl, by decide, by decide⟩, rfl, rfl, rfl, rfl, by decide, by decide, by decide⟩

/-- A wave whose second pass is complete, and a thread that waits for a verdict. -/
def wave2 : Wave := ⟨1, 2, 0, BitVec.allOnes 96, [], noSums, some noSums, false, false, none⟩
def waveOpen : Wave := ⟨1, 1, 0, 0, [1], noSums, none, false, false, none⟩
def waiting : Thread := { th0 with wait := .quiet 4 (some (0, 0)) }
def sWave (j : Job) : State := { withJob j (small waiting 1) with time := 1000000 }

theorem witness_WaveEvents :
    ((sWave job7).job? 7 = some job7 ∧ job7.treeSet = true ∧ job7.root = true ∧ job7.wave = none ∧ job7.lastWave = 0 ∧ job7.reached = 0) ∧
    (let j := { job7 with lastWave := 1, lastStart := 1000000 };
      ¬ ((j.lastWave = 0 ∧ j.reached = 0) ∨ j.lastStart + j.period.toNat ≤ (sWave j).time)) ∧
    (let j := { job7 with root := false };
      (sWave j).job? 7 = some j ∧ j.treeSet = true ∧ j.wave = none ∧ ((sWave j).die (95 / 24)).inReset = false ∧ j.lastPass1 = 0 ∧
      laterWave 1 2 = true) ∧
    (∀ w root, (sWave { job7 with root := root, wave := some w }).job? 7 = some { job7 with root := root, wave := some w }) ∧
    (waveOpen.pass = 1 ∧ waveOpen.taken.getLsbD 95 = false ∧ 1 ∈ waveOpen.children ∧ waveOpen.result = none ∧
      ((sWave job7).die (95 / 24)).inReset = false ∧ waveOpen.requested + 1000000 ≤ (sWave job7).time ∧
      (sWave job7).time < ({ waveOpen with requested := 1 } : Wave).requested + 1000000 ∧
      (sWave job7).time < ({ wave2 with requested := 1 } : Wave).requested + 1000000 ∧
      wave2.requested + 1000000 ≤ (sWave job7).time) ∧
    (wave2.taken = BitVec.allOnes 96 ∧ wave2.children = [] ∧ wave2.broken = false ∧ wave2.finished = false ∧ wave2.result = none ∧
      wave2.first = some noSums ∧ ({ wave2 with first := none } : Wave).first = none) ∧
    (∀ j ∈ [{ job7 with root := false }, { job7 with root := false, reached := 15, lastVerdict := 4 },
        { job7 with wave := some { wave2 with number := 5, result := some (0, noSums) } }],
      (sWave j).job? 7 = some j ∧ j.treeSet = true ∧ (j.reached = 0 ∨ (j.reached = 15 ∧ laterWave j.lastVerdict 5 = true)) ∧
      (j.root = false ∨ ∃ w, j.wave = some w ∧ w.number = 5 ∧ w.result = some (0, noSums))) ∧
    (let j := { job7 with root := false };
      (sWave j).crew? c0 = some (crewOf waiting) ∧ (sWave j).teamLaunch? 0 = some (0, launch7) ∧ dieOf ((sWave j).teamCore 0) = 0 ∧
      ((crewOf waiting).thread 63).wait = .quiet 4 (some (0, 0)) ∧ laterWave 0 5 = true ∧ laterWave 5 5 = false) := by
  refine ⟨by decide, by decide, by decide, fun _ _ => rfl, by decide, by decide, fun j h => ?_, rfl, rfl, rfl, by decide⟩
  simp only [List.mem_cons, List.not_mem_nil, or_false] at h
  rcases h with rfl | rfl | rfl
  · exact ⟨rfl, rfl, .inl rfl, .inl rfl⟩
  · exact ⟨rfl, rfl, .inr (by decide), .inl rfl⟩
  · exact ⟨rfl, rfl, .inl rfl, .inr ⟨_, rfl, rfl, rfl⟩⟩

/-- A context block at 0x200000 with a ring of four records at 0x204000 and frames at 0x208000, of which `n` are written. -/
def blockAt (n : Nat) : Mem :=
  Mem.writeBytes [] 0x40000000 (leBytes 8 0x210000 ++ leBytes 8 0x204000 ++ leBytes 4 4 ++ leBytes 4 0 ++ leBytes 8 n ++
    leBytes 8 0 ++ leBytes 8 0x208000)
def trapped : Cause := { cls := 5, code := 1 }
def wTrap (t : Thread) : Crew := (crewOf t).setThread 0 fun t => { t with trap := some trapped }
def sTrap (t : Thread) (save : DWord) (n : Nat) : State :=
  { small t 1 with crews := [(c0, wTrap t)], ctxs := [(1, { Ctx.reset with ptroot := 0x1000000, saveaddr := save })], mem := blockAt n }

theorem witness_ExceptionEntry :
    (∀ n, n < 64 → n ≠ 0 → ((wTrap th0).thread n).trap = none) ∧
    (∀ t ∈ [th0, thS], ∀ save n, (sTrap t save n).crew? c0 = some (wTrap t) ∧ ((wTrap t).thread 0).trap = some trapped ∧
      ((wTrap t).thread 0).out = [] ∧ (sTrap t save n).orphans = [] ∧ (sTrap t save n).traces = []) ∧
    th0.sup = false ∧ thS.sup = true ∧ th0.drained = some th0 ∧
    ({ th0 with out := [⟨8, [some 3], none⟩] } : Thread).drained = none ∧
    (∃ b, entryPlan (sTrap th0 0x200000 3) r0 [r0] = (sTrap th0 0x200000 3, .ok b) ∧ b.written - b.consumed < b.entries) ∧
    (∃ b, entryPlan (sTrap th0 0x200000 4) r0 [r0] = (sTrap th0 0x200000 4, .ok b) ∧ b.entries ≤ b.written - b.consumed) ∧
    ∃ f, entryPlan (sTrap th0 0x600000 0) r0 [r0] = (sTrap th0 0x600000 0, .error (f, 0x600000)) := by
  refine ⟨fun n h hn => ?_, fun t ht save n => ?_, rfl, rfl, rfl, rfl, ⟨_, rfl, by decide⟩, ⟨_, rfl, by decide⟩, _, rfl⟩
  · rw [wTrap, Crew.thread_setThread, if_neg fun e => hn e.1, crewOf_thread _ _ h]; rfl
  · simp only [List.mem_cons, List.not_mem_nil, or_false] at ht
    rcases ht with rfl | rfl <;> exact ⟨rfl, rfl, rfl, rfl, rfl⟩

def testing (t : Thread) : Thread := withRegs [(3, 1)] t
def backTo (pc : DWord) (estat : Word) : Thread := { thS with epc := pc, estat := estat }
def sUser (lo hi : Word) : State := { small th0 1 with consts := [⟨0, 0, 7, 512, lo⟩, ⟨0, 0, 7, 513, hi⟩] }
theorem one_priv (i : Instr) (t : Thread) (h6 : t.late = none) (h7 : brokenChain i t = false) (h8 : t.sup = true) (h9 : t.exited = false)
    (h13 : guardOf i t = true) (h16 : (∀ f, i ≠ .eret f) ∨ t.estat = 0 ∨ t.estat = 1 := by exact .inr (.inl rfl)) : One i (small t 1) c0 (crewOf t) 0 :=
  one_small i t h6 h7 (fun _ => h8) h9 h13 h16

/-- The team is a task's whose buffer holds a byte of a word that an engine has yet to write: its commit waits. -/
def stuckTask : Task := { taskOf 0 0 false with buffer := [⟨.phys, 0x1000001, [(0, 5)], [⟨[0], 0x200040, false, false, 2 ^ 30⟩]⟩] }
def stuck (s : State) : State := withTeam (teamTask stuckTask) (claimed s)

/-- Ends part 4 of the tests. -/
inductive Part4 where | ended

theorem witness_TrapsAndReturns :
    (∀ lo hi, ∀ n ∈ [(2047 : BitVec 12), 4095, 2048], One (.trap ⟨false, n, 0⟩) (sUser lo hi) c0 (crewOf th0) 0) ∧
    One (.trap ⟨false, 5, 0⟩) (small thS 1) c0 (crewOf thS) 0 ∧ thS.sup = true ∧
    (2047#12).toNat < 2048 ∧ 2048 ≤ (4095#12).toNat ∧ (4095#12).toNat ≠ 2048 ∧ th0.sup = false ∧
    (bankOperand (sUser 0x10000 0) r0 7 512 = .held 0x10000 ∧ bankOperand (sUser 0x10000 0) r0 7 513 = .held 0 ∧
      (0#32 ++ 0x10000#32 : BitVec (32 + 32)) ≠ 0) ∧
    (bankOperand (sUser 0 0) r0 7 512 = .held 0 ∧ bankOperand (sUser 0 0) r0 7 513 = .held 0) ∧
    (One (.eret ⟨false, 0⟩) (small (backTo 0x10000 1) 1) c0 (crewOf (backTo 0x10000 1)) 0 ∧
      (backTo 0x10000 1).estat.toNat < 2 ∧ targetFault (small (backTo 0x10000 1) 1) r0 0x10000 true = none) ∧
    (One (.nop ⟨false, 0⟩) (small (backTo 0x10000 2) 1) c0 (crewOf (backTo 0x10000 2)) 0 ∧ (backTo 0x10000 2).sup = true ∧
      2 ≤ (backTo 0x10000 2).estat.toNat ∧ (backTo 0x10000 2).xlit = none ∧ (backTo 0x10000 2).xmod = none) ∧
    (One (.eret ⟨false, 0⟩) (small (backTo 0x10001 0) 1) c0 (crewOf (backTo 0x10001 0)) 0 ∧
      targetFault (small (backTo 0x10001 0) 1) r0 0x10001 true = some 3) ∧
    (One (.halt ⟨false, 0⟩) (small thS 1) c0 (crewOf thS) 0 ∧ Committed (small thS 1) r0 (small thS 1)) ∧
    (One (.halt ⟨false, 0⟩) (stuck (small thS 1)) c0 (crewOf thS) 0 ∧ (stuck (small thS 1)).commitBlocked 0 = true) ∧
    (let s := fun t : Thread => { small t 1 with cores := [(0, { Core.reset with halting := true })] };
      ((s th0).core 0).halting = true ∧ (s th0).unfinished 0 = false ∧
        (s { th0 with out := [⟨8, [some 3], none⟩] }).unfinished 0 = true) ∧
    (One (.nop ⟨false, 0⟩) (small (testing th0) 1) c0 (crewOf (testing th0)) 0 ∧ (small (testing th0) 1).team? 0 = some team0 ∧ team0.deferred = [] ∧
      (testing th0).xlit = none ∧ (testing th0).xmod = none ∧ (∃ e, decodeWord 0 = .error e) ∧ shownBeside 0 (small (testing th0) 1) r0 = none ∧
      cregFault ⟨false, 4, 0x10, 0⟩ (small (testing th0) 1) r0 = none ∧ crwFault ⟨false, 4, 0x10, 0⟩ (small (testing th0) 1) r0 = none ∧
      tlbinvFault ⟨false, 8, 4, 0⟩ (small (testing th0) 1) r0 = none ∧ bistFault ⟨false, 2, 3, 0⟩ (small (testing th0) 1) r0 = none ∧
      (small (testing th0) 1).modl.lifecycle ≠ 0) :=
  ⟨fun _ _ n h => by
      simp only [List.mem_cons, List.not_mem_nil, or_false] at h
      rcases h with rfl | rfl | rfl <;> exact one_on _ _ th0 _ _ rfl rfl rfl rfl rfl rfl (fun e => nomatch e) rfl rfl rfl rfl rfl,
    one_priv _ _ rfl rfl rfl rfl rfl, rfl, by decide, by decide, by decide, rfl,
    ⟨rfl, rfl, by decide⟩, ⟨rfl, rfl⟩, ⟨one_priv _ _ rfl rfl rfl rfl rfl (.inr (.inr rfl)), by decide, by decide⟩,
    ⟨one_small _ _ rfl rfl (fun e => nomatch e) rfl rfl (.inl fun _ e => nomatch e), rfl, by decide, rfl, rfl⟩, ⟨one_priv _ _ rfl rfl rfl rfl rfl, by decide⟩,
    ⟨one_priv _ _ rfl rfl rfl rfl rfl, rfl, rfl⟩,
    ⟨one_on _ _ thS _ _ rfl rfl rfl rfl rfl rfl (fun _ => rfl) rfl rfl rfl rfl rfl, by decide⟩, by decide,
    one_small _ _ rfl rfl (fun e => nomatch e) rfl rfl, rfl, rfl, rfl, rfl, ⟨_, rfl⟩, by decide, rfl, rfl, rfl, rfl, by decide⟩

/-- A supervisor thread of which one register names a reserved value; a fetch that is within its registers' limits. -/
def thS8 (v : Word) : Thread := withRegs [(8, 0x200000), (4, v)] thS
def sFetchable (n : Nat) (t : Thread) : State :=
  { small t 1 with ctxs := [(1, { Ctx.reset with ptroot := 0x1000000, hflen := BitVec.ofNat 32 n })] }

theorem witness_ControlRegisters :
    (∀ x, One (.crr ⟨false, 4, x, 0⟩) (small thS 1) c0 (crewOf thS) 0 ∧ One (.crw ⟨false, 4, x, 0⟩) (small thS 1) c0 (crewOf thS) 0) ∧
    Creg.ofIndex (thS.crIndex 0x10) = some .epc ∧ (4#6 : Reg6).getLsbD 0 = false ∧
    (cregFault ⟨false, 5, 0x10, 0⟩ (small thS 1) r0).isSome ∧ (crwFault ⟨false, 5, 0x10, 0⟩ (small thS 1) r0).isSome ∧
    One (.crr ⟨false, 5, 0x10, 0⟩) (small thS 1) c0 (crewOf thS) 0 ∧ One (.crw ⟨false, 5, 0x10, 0⟩) (small thS 1) c0 (crewOf thS) 0 ∧
    Creg.ofIndex (thS.crIndex 0x416) = some (.rail 6) ∧ crwFault ⟨false, 4, 0x10, 0⟩ (small thS 1) r0 = none ∧
    (Committed (small thS 1) r0 (small thS 1) ∧ (small thS 1).relBlocked c0 = false) ∧
    (One (.crw ⟨false, 4, 0x10, 0⟩) (behind (small thS 1)) c0 (crewOf thS) 0 ∧ (behind (small thS 1)).relBlocked c0 = true ∧
      crwFault ⟨false, 4, 0x10, 0⟩ (behind (small thS 1)) r0 = none ∧ (behind (small thS 1)).buffering 0 = none) ∧
    (∀ n ∈ [0, 64], let s := sFetchable n (thS8 1);
      One (.crw ⟨false, 4, 0x203, 0⟩) s c0 (crewOf (thS8 1)) 0 ∧ Creg.ofIndex ((thS8 1).crIndex 0x203) = some .hfgo ∧
      crwFault ⟨false, 4, 0x203, 0⟩ s r0 = none ∧ cregValue ⟨false, 4, 0x203, 0⟩ (thS8 1) .hfgo = 1 ∧
      ∃ y, s.ctx? (s.teamCtx 0) = some y ∧ (fetchOk y = true ↔ n = 64)) ∧
    One (.icinv ⟨false, 8, 10, 0⟩) (small thS 1) c0 (crewOf thS) 0 ∧
    (One (.tlbinv ⟨false, 8, 11, 0⟩) (small thS 1) c0 (crewOf thS) 0 ∧ tlbinvFault ⟨false, 8, 11, 0⟩ (small thS 1) r0 = none ∧
      One (.tlbinv ⟨false, 8, 4, 0⟩) (small (thS8 3) 1) c0 (crewOf (thS8 3)) 0 ∧
      (tlbinvFault ⟨false, 8, 4, 0⟩ (small (thS8 3) 1) r0).isSome) ∧
    (One (.bist ⟨false, 2, 3, 0⟩) (small (testing thS) 1) c0 (crewOf (testing thS)) 0 ∧
      bistFault ⟨false, 2, 3, 0⟩ (small (testing thS) 1) r0 = none ∧
      One (.bist ⟨false, 2, 4, 0⟩) (small (thS8 0xFF) 1) c0 (crewOf (thS8 0xFF)) 0 ∧
      (bistFault ⟨false, 2, 4, 0⟩ (small (thS8 0xFF) 1) r0).isSome) ∧
    (small thS 1).ctx? ((small thS 1).teamCtx 0) = some { Ctx.reset with ptroot := 0x1000000 } := by
  refine ⟨fun _ => ⟨one_priv _ _ rfl rfl rfl rfl rfl, one_priv _ _ rfl rfl rfl rfl rfl⟩, by decide, by decide, by decide, by decide,
    one_priv _ _ rfl rfl rfl rfl rfl, one_priv _ _ rfl rfl rfl rfl rfl, by decide, by decide, ⟨⟨rfl, rfl⟩, rfl⟩,
    ⟨one_on _ _ thS _ team0 rfl rfl rfl rfl rfl rfl (fun _ => rfl) rfl rfl rfl rfl rfl, by decide, by decide, rfl⟩, fun n h => ?_,
    one_priv _ _ rfl rfl rfl rfl rfl, ⟨one_priv _ _ rfl rfl rfl rfl rfl, by decide, one_priv _ _ rfl rfl rfl rfl rfl, by decide⟩,
    ⟨one_priv _ _ rfl rfl rfl rfl rfl, by decide, one_priv _ _ rfl rfl rfl rfl rfl, by decide⟩, rfl⟩
  simp only [List.mem_cons, List.not_mem_nil, or_false] at h
  rcases h with rfl | rfl <;>
    exact ⟨one_on _ _ (thS8 1) _ team0 rfl rfl rfl rfl rfl rfl (fun _ => rfl) rfl rfl rfl rfl rfl, by decide, by decide, by decide, _, rfl,
      by decide⟩

def at8sup (lo hi : Word) : Thread := { at8 lo hi with sup := true }
/-- A user thread whose packet names another context; a context with four windows. -/
def windows : Ctx := { Ctx.reset with ptroot := 0x1000000, pubcnt := 4 }
def sWindows (t : Thread) : State := { small t 1 with ctxs := [(1, windows)] }
/-- The spawner's core has a full queue, and its context no spill ring. -/
def fullQueue (s : State) : State := { s with cores := [(0, { Core.reset with tasks := List.replicate 256 entry0 })] }
def Behind (i : Instr) (t : Thread) : Prop :=
  One i (behind (small t 1)) c0 (crewOf t) 0 ∧ (behind (small t 1)).buffering 0 = none ∧ (behind (small t 1)).relBlocked c0 = true

theorem witness_TaskAndHostInstructions :
    (∀ t, Committed (small t 1) r0 (small t 1) ∧ (small t 1).relBlocked c0 = false ∧ release (small t 1) c0 t.pc (laneBit 0) = small t 1) ∧
    ((∀ n, One (.tspawn ⟨false, 8, 0⟩) (small (at8 n 0) 1) c0 (crewOf (at8 n 0)) 0) ∧ Behind (.tspawn ⟨false, 8, 0⟩) gT ∧
      (gT.pair 8).toNat % 64 = 0 ∧ ((at8 0x200044 0).pair 8).toNat % 64 ≠ 0 ∧
      (One (.tspawn ⟨false, 8, 0⟩) (withLaunch { placedLaunch with det := true } (small gT 1)) c0 (crewOf gT) 0 ∧
        (withLaunch { placedLaunch with det := true } (small gT 1)).isDet 0 = true) ∧
      (small gT 1).isDet 0 = false ∧ ((small gT 1).core 0).tasks.length < 256 ∧
      queueEntry (small gT 1) 0 ((small gT 1).originOf r0) 0x10000 0x200040 = (small gT 1, entry0) ∧
      (∃ s4, appendTask (small gT 1) 0 entry0 = (s4, true)) ∧ ∃ s4, appendTask (fullQueue (small gT 1)) 0 entry0 = (s4, false)) ∧
    (let s := withTeam (teamTask (taskOf 0 0 false)) (small th0 1);
      One (.tdone ⟨false, 0⟩) s c0 (crewOf th0) 0 ∧ s.team? 0 = some (teamTask (taskOf 0 0 false)) ∧
      (teamTask (taskOf 0 0 false)).array = none ∧ One (.tdone ⟨false, 0⟩) (small th0 1) c0 (crewOf th0) 0 ∧
      (small th0 1).team? 0 = some team0 ∧ team0.task = none) ∧
    (∃ b, (∀ n, One (.launch ⟨false, 2, 8, 0⟩) (small (at8sup n 0) 1) c0 (crewOf (at8sup n 0)) 0) ∧
      One (.launch ⟨false, 2, 8, 0⟩) (small (at8 0x200080 0) 1) c0 (crewOf (at8 0x200080 0)) 0 ∧
      Behind (.launch ⟨false, 2, 8, 0⟩) (at8 0x200080 0) ∧
      ((at8sup 0x200080 0).pair 8).toNat % 128 = 0 ∧ ((at8sup 0x200040 0).pair 8).toNat % 128 ≠ 0 ∧
      sourceBusy (small (at8sup 0x200080 0) 1) 0 true .phys 0x200080 128 = false ∧
      engineRead (small (at8sup 0x200080 0) 1) 0 true .phys 0x200080 128 = (small (at8sup 0x200080 0) 1, .ok b) ∧
      sourceBusy (small (at8 0x200080 0) 1) 0 false .phys 0x200080 128 = false ∧
      engineRead (small (at8 0x200080 0) 1) 0 false .phys 0x200080 128 = (small (at8 0x200080 0) 1, .ok b) ∧ pk b 68 2 ≠ 1 ∧
      One (.launch ⟨false, 2, 8, 0⟩) (small (at8 0 0x100000) 1) c0 (crewOf (at8 0 0x100000)) 0 ∧
      2 ^ 52 ≤ ((at8 0 0x100000).pair 8).toNat ∧ ((at8sup 0x200080 0).pair 8).toNat < 2 ^ 52 ∧
      ((at8sup 0x200040 0).pair 8).toNat < 2 ^ 52) ∧
    ((∀ n, One (.publish ⟨false, 8, 0⟩) (sWindows (at8 n 0)) c0 (crewOf (at8 n 0)) 0 ∧ (sWindows (at8 n 0)).ctx? 1 = some windows ∧
        Committed (sWindows (at8 n 0)) r0 (sWindows (at8 n 0)) ∧ (sWindows (at8 n 0)).relBlocked c0 = false) ∧
      ((at8 3 0).reg 8).toNat < windows.pubcnt.toNat ∧ windows.pubcnt.toNat ≤ ((at8 4 0).reg 8).toNat) ∧
    (One (.prog ⟨false, 7, 0⟩) (small th0 1) c0 (crewOf th0) 0 ∧ (small th0 1).buffering 0 = none ∧
      One (.prog ⟨false, 7, 0⟩) (buffered (small th0 1)) c0 (crewOf th0) 0 ∧ ∃ k, (buffered (small th0 1)).buffering 0 = some k) ∧
    ((∀ n, One (.subpol ⟨false, 8, 0⟩) (small (at8 n 0) 1) c0 (crewOf (at8 n 0)) 0) ∧ policyBad ((at8 0x800 0).reg 8) = false ∧
      policyBad ((at8 0x10000 0).reg 8) = true) ∧
    (∀ n, One (.subq ⟨false, 4, 8, 0⟩) (small (at8 n 0) 1) c0 (crewOf (at8 n 0)) 0 ∧
      (small (at8 n 0) 1).teamLaunch? 0 = some (0, placedLaunch)) ∧ ((at8 63 0).reg 8).toNat < 64 ∧ 64 ≤ ((at8 64 0).reg 8).toNat :=
  ⟨fun t => ⟨⟨rfl, rfl⟩, rfl, (quiet_small t 1).release rfl _ _⟩,
    ⟨fun n => one_at8 _ _ _ rfl rfl, ⟨one_gT _ _ team0 rfl rfl rfl rfl rfl rfl rfl rfl rfl rfl, rfl, by decide⟩, by decide, by decide,
      ⟨one_gT _ _ team0 rfl rfl rfl rfl rfl rfl rfl rfl rfl rfl, rfl⟩, rfl, by decide, rfl, ⟨_, rfl⟩,
      ⟨_, Prod.ext rfl (by decide)⟩⟩,
    ⟨one_on _ _ th0 _ _ rfl rfl rfl rfl rfl rfl (fun e => nomatch e) rfl rfl rfl rfl rfl, rfl, rfl,
      one_small _ _ rfl rfl (fun e => nomatch e) rfl rfl, rfl, rfl⟩,
    ⟨_, fun n => one_priv _ _ rfl rfl rfl rfl rfl, one_at8 _ _ _ rfl rfl,
      ⟨one_in _ _ _ team0 rfl rfl rfl rfl rfl rfl rfl rfl rfl rfl rfl rfl, rfl, by decide⟩, by decide, by decide, by decide, rfl, by decide,
      rfl, by decide, one_at8 _ _ _ rfl rfl, by decide, by decide, by decide⟩,
    ⟨fun n => ⟨one_in _ _ _ team0 rfl rfl rfl rfl rfl rfl rfl rfl rfl rfl rfl rfl, rfl, ⟨rfl, rfl⟩, rfl⟩, by decide, by decide⟩,
    ⟨one_small _ _ rfl rfl (fun e => nomatch e) rfl rfl, rfl,
      one_in _ _ _ _ rfl rfl rfl rfl rfl rfl rfl rfl rfl rfl rfl rfl, _, rfl⟩,
    ⟨fun n => one_at8 _ _ _ rfl rfl, by decide, by decide⟩, fun n => ⟨one_at8 _ _ _ rfl rfl, rfl⟩, by decide, by decide⟩

/-- A dirty word of crew 0 in core 0's L1, with an open `FENCE.REL` of the crew. -/
def sDirty : State := { small th0 1 with l1 := [dirtyWord], crews := [(c0, { crewOf th0 with fence := some (0x10000, 1) })] }
def withThread (t : Thread) (s : State) : State := { s with crews := [(c0, crewOf t)] }
def timed : Thread := { th0 with wait := .maskTimed 11 4 0 }
def sDet (t : Thread) : State := { small t 1 with launches := [(0, { placedLaunch with det := true })] }
/-- A table tree at 0x40100000 in which 0x600000 is a 2 MiB page. -/
def sTables : State :=
  { small th0 1 with
    ctxs := [(1, { Ctx.reset with ptroot := 0x40100000 })]
    mem := Mem.writeBytes (Mem.writeBytes (Mem.writeBytes [] 0x40100000 (leBytes 8 0x40110001)) 0x40110000 (leBytes 8 0x40120001))
      0x40120018 (leBytes 8 (0x40000000 + 0x187)) }
def onLine (i : Word) : State := { small th0 1 with icache := [⟨0, 1, 0x10000, true, 0x40000000, 2 ^ 30, i :: List.replicate 63 0x50000005⟩] }

theorem walk_sTables : ∃ e, walk sTables 1 0x600000 = .ok e := by
  have h : (walk sTables 1 0x600000).isOk = true := by decide
  generalize walk sTables 1 0x600000 = w at h
  cases w with
  | error f => simp [Except.isOk, Except.toBool] at h
  | ok e => exact ⟨e, rfl⟩
def sWord (w : L1Word) : State := { small th0 1 with l1 := [w] }
def unmapped : L1Word := { dirtyWord with marked := true, va := 0x600000 }
def sYield (n : Nat) : State :=
  { small th0 1 with crews := [(c0, { crewOf th0 with quietCount := n })], cores := [(0, { Core.reset with running := some c0 })] }

/-- Ends part 5 of the tests. -/
inductive Part5 where | ended

theorem witness_CoreEvents :
    ((∀ w ∈ [dirtyWord, unmapped], ∀ start, ((sWord w).l1.filter fun y => y.dirty != 0 && y.core == 0 &&
        if start ≤ 1 then y.pa / 64 == 0x40000040 / 64 else y.pa == 0x40000040) = [w] ∧ w.pa = 0x40000040 ∧
        (sWord w).l1Word? 0 0x40000040 = some w ∧ (sWord w).fenced [w] = [] ∧ (sWord w).owedWords [w] = [] ∧
        (sWord w).dead 0x40000040 = false ∧ (sWord w).flaws = []) ∧
      (behind (small th0 1)).l1Word? 0 0x40000040 = some dirtyWord ∧ (behind (small th0 1)).fenced [dirtyWord] = [] ∧
      (behind (small th0 1)).owedWords [dirtyWord] = [] ∧ (behind (small th0 1)).isBusy .phys 0x40000040 4 = true ∧
      (sWord dirtyWord).isBusy .phys 0x40000040 4 = false ∧ dirtyWord.marked = false ∧ (sWord dirtyWord).shut 0x40000040 = false ∧
      unmapped.marked = true ∧ ((sWord unmapped).team? unmapped.crew.team).isSome ∧
      ∃ f, (translate (sWord unmapped) (.core 0) 1 0x600000 false .write).2 = .error f) ∧
    (sDirty.crew? c0 = some { crewOf th0 with fence := some (0x10000, 1) } ∧ sDirty.relBlocked c0 = false ∧
      ({ behind sDirty with l1 := [dirtyWord] } : State).relBlocked c0 = true) ∧
    ((0x600000#64).toNat < 2 ^ 52 ∧ (∀ x ∈ sTables.tlb, x.covers (.die 0) 1 0x600000 = false) ∧
      (∃ e, walk sTables 1 0x600000 = .ok e) ∧ ∃ f, walk (small th0 1) 1 0x600000 = .error f) ∧
    ((small timed 1).crew? c0 = some (crewOf timed) ∧ ((crewOf timed).thread 63).wait = .maskTimed 11 4 0 ∧
      (small timed 1).isDet 0 = false ∧ 0 ≤ (small timed 1).time ∧ (small timed 1).time < 1 ∧ (small timed 1).due = Due.none ∧
      (small timed 1).traces = [] ∧ (sDet timed).isDet 0 = true) ∧
    ((sDet timed).idleCoroutines 0 = true ∧ r0 ∈ (sDet timed).timedWaits 0 ∧ ((sDet timed).thread r0).wait = .maskTimed 11 4 0 ∧
      0 ≤ ((sDet timed).core 0).steps + 1 ∧ (small th0 1).idleCoroutines 0 = false) ∧
    (∀ n, ((sYield n).core 0).running = some c0 ∧ (sYield n).crew? c0 = some { crewOf th0 with quietCount := n } ∧
      (crewOf th0).quietOpen = false ∧ ({ crewOf th0 with quietMarks := [(5, 1)] } : Crew).quietMarks ≠ []) ∧
    (8 ≤ ((crewOf { th0 with spin := ⟨[⟨0x10040, 8, true⟩], false, some 0x10040⟩ }).thread 0).spin.empty ∧ ((crewOf th0).thread 0).spin.empty < 8) ∧
    (∃ f, (onLine 0x78A18810).issuesAlone r0 = true ∧ (onLine 0x78A18810).fetched r0 = .instr 0x78A18810 (.cpy f) ∧
      ({ small { th0 with exited := true } 1 with cores := [] } : State).issuesAlone r0 = false) ∧
    ((small th0 1).line? 0 1 0x200100 false = none ∧ ((onLine 0).line? 0 1 0x10000 false).isSome = true ∧
      translate (small th0 1) (.core 0) 1 (BitVec.ofNat 64 (0x200100 / 256 * 256)) false .fetch = (small th0 1, .ok 0x40000100) ∧
      (small th0 1).deadRange 0x40000100 256 = false ∧ (small th0 1).flaws = []) ∧
    ∃ v, (small th0 1).launch? 0 = some placedLaunch ∧ (small th0 1).bankHeld 0 0 0 0 = none ∧ (sBank.bankHeld 0 0 2 5).isSome = true ∧
      bankRead (small th0 1) 0 1 true { placedLaunch with c0 := 0x200000 } 0 0 = (small th0 1, .ok v) := by
  refine ⟨⟨fun w h start => ?_, by decide, by decide, by decide, by decide, by decide, rfl, by decide, rfl, by decide, _, rfl⟩,
    ⟨rfl, by decide, by decide⟩, ⟨by decide, by decide, walk_sTables, _, rfl⟩,
    ⟨rfl, by decide, rfl, by decide, by decide, rfl, rfl, rfl⟩,
    ⟨by decide, by decide, by decide, by decide, by decide⟩, fun n => ⟨rfl, rfl, rfl, by decide⟩, by decide, ⟨_, by decide, rfl, by decide⟩,
    ⟨by decide, by decide, rfl, by decide, rfl⟩, _, rfl, rfl, rfl, rfl⟩
  simp only [List.mem_cons, List.not_mem_nil, or_false] at h
  rcases h with rfl | rfl <;> exact ⟨by by_cases h : start ≤ 1 <;> simp [h, sWord, unmapped, dirtyWord], rfl, rfl, rfl, rfl, rfl, rfl⟩

/-- A packet of one crew of one team on core 0. -/
def goodPacket : List Byte :=
  leBytes 8 0x10000 ++ leBytes 8 0x10000 ++ leBytes 8 0x200000 ++ List.replicate 32 0 ++ leBytes 4 0x800 ++ List.replicate 6 0 ++ leBytes 2 0 ++
    leBytes 2 1 ++ leBytes 2 0 ++ leBytes 4 0x100000 ++ leBytes 4 16 ++ List.replicate 16 0 ++ leBytes 32 1
def ended : Thread := { th0 with exited := true }
def sOf (l : Launch) : State := { small th0 1 with launches := [(0, l)], crews := [], teams := [], clu := [], chip := [] }
def image0 : Image := { (default : Image) with id := 3, ctx := 1, team := 7, data := team0, crews := [(⟨7, 0⟩, crewOf th0)] }
def sImage : State := { sOf placedLaunch with images := [image0] }

/-- A launch with a team still to admit; a task of a class queued on core 0. -/
def openLaunch : Launch := { placedLaunch with next := 0 }
def queueing (cls : Nat) (s : State) : State :=
  { s with cores := [(0, { Core.reset with tasks := [{ entry0 with cls := cls }] })] }

theorem witness_LaunchLifecycle :
    (goodPacket.length = 128 ∧ packetStatus (small th0 1) goodPacket (launchOf goodPacket) = 0 ∧
      packetStatus (small th0 1) (List.replicate 128 0) (launchOf (List.replicate 128 0)) ≠ 0) ∧
    (let s : State := { small th0 1 with packets := [(goodPacket, some (r0, 5))] };
      s.packets = (goodPacket, some (⟨c0.team, c0.crew, 0⟩, 5)) :: [] ∧ s.crew? c0 = some (crewOf th0)) ∧
    (let s := sOf openLaunch;
      s.pendingLaunches = [(0, openLaunch)] ∧ s.launch? 0 = some openLaunch ∧ (∀ i ∈ s.images, i.data.launch ≠ 0) ∧
      openLaunch.coop = false ∧ placeNext s 0 openLaunch [] = some [0] ∧
      s.taskFirst (effClass openLaunch.cls openLaunch.accepted s.time) = false ∧ s.team? s.serial = none ∧
      (∀ n, s.crew? ⟨s.serial, n⟩ = none) ∧
      (queueing 3 s).taskFirst (effClass openLaunch.cls openLaunch.accepted s.time) = true ∧
      placeNext (queueing 3 s) 0 openLaunch [] = some [0]) ∧
    (sImage.pendingLaunches = [(0, placedLaunch)] ∧ sImage.launch? 0 = some placedLaunch ∧ (∃ i ∈ sImage.images, i.data.launch = 0) ∧
      ∃ u, restoreFirst sImage 0 placedLaunch [] = some u) ∧
    (sImage.traces = [] ∧ sImage.team? image0.team = none ∧ (∀ n, sImage.crew? ⟨image0.team, n⟩ = none) ∧
      Tbl.at? image0.crews ⟨image0.team, 0⟩ = some (crewOf th0)) ∧
    (Idle (small ended 1) 0 team0 ∧ team0.task = none ∧ (small ended 1).launch? team0.launch = some placedLaunch) ∧
    (let l := { placedLaunch with retired := 1 };
      (sOf l).launch? 0 = some l ∧ l.done = false ∧ l.total ≤ l.next ∧ l.total ≤ l.retired ∧ l.det = false ∧ l.atoms = [] ∧
      l.counter = 0 ∧ completionWaits (sOf l) l = false ∧ (sOf l).flaws = [] ∧ (sOf l).l1 = [] ∧ placedLaunch.retired < placedLaunch.total ∧ openLaunch.next < openLaunch.total) ∧
    let l := { placedLaunch with retired := 1, counter := 0x200040 };
      (sOf l).launch? 0 = some l ∧ translate (sOf l) (.die 0) l.ctx l.counter false .write = (sOf l, .ok 0x40000040) ∧
        (sOf l).deadRange 0x40000040 8 = false ∧ completionWaits (sOf l) l = false ∧ completionWaits (claimed (sOf l)) l = true :=
  ⟨⟨by decide, by decide, by decide⟩, ⟨rfl, rfl⟩,
    ⟨by decide, rfl, fun i hi => (nomatch hi), rfl, by decide, by decide, rfl, fun _ => rfl, by decide, by decide⟩,
    ⟨by decide, rfl, ⟨image0, by decide, rfl⟩, Option.isSome_iff_exists.mp (by decide)⟩, ⟨rfl, rfl, fun _ => rfl, rfl⟩,
    ⟨⟨rfl, by decide, by decide, rfl, rfl, rfl, fun x hx => (nomatch hx), by decide⟩, rfl, rfl⟩,
    ⟨rfl, rfl, by decide, by decide, rfl, rfl, rfl, rfl, rfl, rfl, by decide, by decide⟩, rfl, rfl, by decide, by decide, by decide⟩

def sQueue : State := queueing 0 (sOf placedLaunch)
/-- A spill ring of 16 entries at 0x200000, whose oldest entry is a record at 0x200040. -/
def sSpilled : State :=
  { small th0 1 with
    ctxs := [(1, { Ctx.reset with ptroot := 0x1000000, taskspill := 0x200004 })]
    cores := [(0, { Core.reset with spilled := [entry0] })], mem := Mem.writeBytes [] 0x40000040 (leBytes 8 0x200040) }
def sTask (k : Task) : State := withTeam (teamTask k) (small ended 1)
def aborted : Team := { teamTask (taskOf 0 0 false) with abort := true }
def wanted : Team := { team0 with preempt := true }
/-- A context block at 0x200000 with four image slots of 256 KiB. -/
def sSave : State :=
  { small th0 1 with
    teams := [(0, wanted)], ctxs := [(1, { Ctx.reset with ptroot := 0x1000000, saveaddr := 0x200000 })]
    mem := Mem.writeBytes [] 0x40000030 (leBytes 4 4 ++ leBytes 4 4) }

theorem idle_task (k : Task) : Idle (sTask k) 0 (teamTask k) :=
  ⟨rfl, rfl, rfl, rfl, rfl, rfl, fun x hx => (nomatch hx), by show [(0 : Nat)].Nodup; decide⟩

theorem ok_of {α β : Type} (x : Except α β) (v : β) (h : x.toOption = some v) : x = .ok v := by
  cases x with
  | error e => simp [Except.toOption] at h
  | ok y => simpa [Except.toOption] using h

theorem sSave_bit : ∃ u, setSlotBit sSave 1 0 0 true = (u, true) := ⟨_, Prod.ext rfl (by decide)⟩
set_option maxRecDepth 200000 in
theorem sSave_slot : findSlot sSave 1 0 108800 = (sSave, .ok (0, 0x210000)) :=
  Prod.ext (by decide) (ok_of _ _ (by decide))
theorem sSave_space : checkWritable sSave 1 0 0x210000 108800 = (sSave, none) := Prod.ext (by decide) (by decide)
/-- A record with a reserved flag; a record in a word that an engine has yet to write. -/
def sBadRecord : State := { sQueue with mem := Mem.writeBytes [] 0x4000005C (leBytes 4 0xFFFFFFFF) }
def bigLaunch : Launch := { placedLaunch with scratch := 2 ^ 30 }
/-- A task in its second stage with a successor: where no page is; whose counter's word, or whose record's, an engine has yet to write. -/
def successor (stage : Nat) (a : DWord) : Task := taskOf stage a true
theorem no_successor : ∃ u f, decrementSuccessor (sTask (successor 1 0x600000)) 0 (teamTask (successor 1 0x600000)) (successor 1 0x600000) =
    (u, .error f) := ⟨_, _, rfl⟩
theorem no_record : ∃ u, appendSuccessor (sTask (successor 2 0x600000)) 0 (teamTask (successor 2 0x600000)) (successor 2 0x600000) =
    (u, false) := ⟨_, Prod.ext rfl (by decide)⟩

theorem witness_TasksAndPreemption :
    (∃ k, nextTask sQueue 0 = some (0, entry0) ∧ sQueue.launch? entry0.launch = some placedLaunch ∧
      virtBusy sQueue 0 1 false .read 0x200040 64 = false ∧ virtBusy (claimed sQueue) 0 1 false .read 0x200040 64 = true ∧
      readRecordOf sQueue 0 entry0 = (sQueue, some k) ∧ k.valid = true ∧ sQueue.admission.isNone = true ∧
      sQueue.fits 0 (taskNeed placedLaunch entry0.launch k) = true ∧ sQueue.fits 0 (taskNeed bigLaunch entry0.launch k) = false ∧
      sQueue.team? sQueue.serial = none ∧ ∀ n, sQueue.crew? ⟨sQueue.serial, n⟩ = none) ∧
    ((queueing 0 (sOf openLaunch)).admission.map (·.cls) = some 0 ∧ effClass 0 0 0 ≤ 0 ∧
      (queueing 3 (sOf openLaunch)).admission.map (·.cls) = some 0 ∧ 0 < effClass 3 0 0) ∧
    (∃ k, readRecordOf sBadRecord 0 entry0 = (sBadRecord, some k) ∧ k.valid = false) ∧
    ((withTeam team0 sBadRecord).team? entry0.spawner).isSome ∧
    (∃ e, (sSpilled.core 0).spilled = [entry0] ∧ (sSpilled.core 0).tasks.length < 256 ∧
      spillRing sSpilled entry0.ctx 0 = some (0x200000, 16) ∧ readWord64 sSpilled 0 entry0.ctx (0x200000 + 8) = (sSpilled, some 0) ∧
      readVirt sSpilled 0 entry0.ctx true (0x200000 + 64 + 16 * (0 % 16)) 16 = (sSpilled, .ok e)) ∧
    (∀ k, Idle (sTask k) 0 (teamTask k) ∧ (teamTask k).task = some k ∧ (teamTask k).abort = false) ∧
    ((taskOf 0 0 true).stage = 0 ∧ (taskOf 0 0 true).committed = true) ∧
    (let k := taskOf 0 0 false; (sTask k).commitBlocked 0 = false ∧ (∃ u, commitTask (sTask k) 0 0 = (u, none)) ∧
      (stuck (sTask k)).commitBlocked 0 = true ∧
      let v := { k with buffer := [⟨.phys, 0x1000001, [(0, 5)], [⟨[0], 0x600000, false, true, 2 ^ 30⟩]⟩] };
      (sTask v).commitBlocked 0 = false ∧ ∃ f, (commitTask (sTask v) 0 0).2 = some f) ∧
    ((taskOf 1 0 true).stage = 1 ∧ (taskOf 1 0 true).successor = 0) ∧
    (let k := successor 1 0x200038;
      (k.stage = 1 ∧ k.successor ≠ 0) ∧ successorBlocked (sTask k) 0 (teamTask k) k = false ∧
        successorBlocked (claimed (sTask k)) 0 (teamTask k) k = true ∧
        ∃ u last, decrementSuccessor (sTask k) 0 (teamTask k) k = (u, .ok last)) ∧
    (∃ u f, decrementSuccessor (sTask (successor 1 0x600000)) 0 (teamTask (successor 1 0x600000)) (successor 1 0x600000) =
      (u, .error f)) ∧
    (let k := successor 2 0x200040;
      k.stage = 2 ∧ virtBusy (sTask k) 0 1 false .read 0x200040 8 = false ∧ virtBusy (claimed (sTask k)) 0 1 false .read 0x200040 8 = true ∧
        ∃ u, appendSuccessor (sTask k) 0 (teamTask k) k = (u, true)) ∧
    (∃ u, appendSuccessor (sTask (successor 2 0x600000)) 0 (teamTask (successor 2 0x600000)) (successor 2 0x600000) = (u, false)) ∧
    3 ≤ (taskOf 3 0 true).stage ∧
    (let s := withTeam (teamTask (taskOf 0 0 false)) (small th0 1);
      0 ∈ preemptTargets s 1 0 0 ∧ preemptReserved s 1 0 (BitVec.ofNat 64 (2 ^ 62)) = false ∧ s.team? 0 = some (teamTask (taskOf 0 0 false))) ∧
    (let s := withTeam aborted (small th0 1);
      s.team? 0 = some aborted ∧ saveReady s 0 aborted = true ∧ aborted.abort = true ∧ aborted.abortable = true ∧
      aborted.task = some (taskOf 0 0 false) ∧ (s.teams.map (·.1)).Nodup) ∧
    (saveReady (small th0 1) 0 team0 = false ∧ (∃ a, (findSlot (withTeam wanted (small th0 1)) 1 0 1024).2 = .error a) ∧
      saveReady (withTeam wanted (small th0 1)) 0 wanted = true) ∧
    ∃ u, sSave.team? 0 = some wanted ∧ saveReady sSave 0 wanted = true ∧ wanted.abort = false ∧ sSave.traces = [] ∧
      (sSave.teams.map (·.1)).Nodup ∧ (∀ x ∈ sSave.l1, x.crew.team = 0 ∨ (∃ c ∈ x.writers, c.team = 0) → x.dirty = 0) ∧
      (∀ c w, (c, w) ∈ sSave.crews → c.team = 0 → w.fence = none ∧ ∀ l, l < 64 → (w.thread l).trap = none) ∧
      (let shared := match carried sSave 0 wanted with | some a => a.size | none => 0;
      let size := imageSize wanted (sSave.copiesOf 0 wanted.core).length shared true;
      findSlot sSave (sSave.teamCtx 0) wanted.core size = (sSave, .ok (0, 0x210000)) ∧
      checkWritable sSave (sSave.teamCtx 0) wanted.core 0x210000 size = (sSave, none)) ∧
      setSlotBit sSave (sSave.teamCtx 0) wanted.core 0 true = (u, true) := by
  refine ⟨⟨_, by decide, rfl, by decide, by decide, rfl, by decide, by decide, by decide, by decide, rfl, fun _ => rfl⟩, by decide,
    ⟨_, rfl, by decide⟩, by decide,
    ⟨_, rfl, by decide, by decide, Prod.ext (by decide) (by decide), rfl⟩, fun k => ⟨idle_task k, rfl, rfl⟩, ⟨rfl, rfl⟩,
    ⟨rfl, ⟨_, rfl⟩, by decide, by decide, _, rfl⟩, ⟨rfl, rfl⟩, ⟨⟨rfl, by decide⟩, by decide, by decide, _, _, rfl⟩, no_successor,
    ⟨rfl, by decide, by decide, _, Prod.ext rfl (by decide)⟩, no_record, by decide, ⟨by decide, by decide, rfl⟩,
    ⟨rfl, by decide, rfl, rfl, rfl, by decide⟩, ⟨by decide, ⟨_, rfl⟩, by decide⟩,
    sSave_bit.choose, rfl, by decide, rfl, rfl, by decide, fun x hx => (nomatch hx), fun c w h _ => ?_,
    ⟨?_, ?_⟩, sSave_bit.choose_spec⟩
  · simp only [sSave, small, List.mem_singleton, Prod.mk.injEq] at h
    rw [h.2]
    exact ⟨rfl, fun l hl => by rw [crewOf_thread _ _ hl]; rfl⟩
  · exact sSave_slot
  · exact sSave_space

def fetching : Ctx := { Ctx.reset with ptroot := 0x1000000, hflen := 64 }
def sFetch (failed : Bool) : State := { small th0 1 with ctxs := [(1, { fetching with fetches := [fetch0 failed []] })], time := 1000000 }
/-- A window of 64 bytes at 0x200100, described at 0x200000. -/
def descriptor0 : List Byte := leBytes 8 0x200100 ++ leBytes 8 0x1000 ++ leBytes 8 5 ++ leBytes 8 64
def pub0 : Publication := ⟨1, 0, r0, origin0, 0, false, 0x10000, 0, 1, none⟩
def sPub : State :=
  { small th0 1 with
    ctxs := [(1, { Ctx.reset with ptroot := 0x1000000, pubtab := 0x200000, pubcnt := 1 })], publications := [pub0], time := 1000000, cycle := 2
    mem := Mem.writeBytes [] 0x40000000 descriptor0 }
def withDie (d : Die) (s : State) : State := { s with dies := [(0, d)] }
/-- A scan of which word 0x200040 is still to be written. -/
def scan0 : EyeScan := ⟨0, 0x200000, 1, 3, 0, 0, [0x10000010]⟩
def sScan : State := withDie { Die.reset with scan := some scan0 } (small th0 1)

theorem got_of {x : State × LinkRes} {s : State} {bs : List Byte} (h1 : x.1 = s)
    (h2 : (match x.2 with | .got b => some b | _ => none) = some bs) : x = (s, .got bs) := by
  obtain ⟨a, b⟩ := x
  cases b <;> simp_all

theorem sPub_descriptor : linkRead sPub 1 true pub0.rank (windowAt sPub 1 0) 32 = (sPub, .got descriptor0) :=
  got_of (by decide) (by decide)
theorem sPub_data : linkRead sPub 1 false pub0.rank 0x200100 64 = (sPub, .got (List.replicate 64 0)) :=
  got_of (by decide) (by decide)
/-- The window's descriptor stands in words that an earlier engine has yet to write, or in no page. -/
def sPubBusy : State := { sPub with ctxs := [(1, { Ctx.reset with ptroot := 0x1000000, pubtab := 0x200000, pubcnt := 1,
                                                                    fetches := [fetch0 false [0x10000000, 0x10000004]] })] }
def sPubLost : State := { sPub with ctxs := [(1, { Ctx.reset with ptroot := 0x1000000, pubtab := 0x600000, pubcnt := 1 })] }
/-- The data has been sent at time 0; the counter's version is 6. -/
def pubSent : Publication := { pub0 with sent := some (0, 0x1000, 0x1040, 6) }
def sPubSent : State := { sPub with publications := [pubSent] }
theorem sPub_version : ∃ u, writeVirt sPubSent 0 1 true (windowAt sPubSent 1 0 + 16) (leBytes 8 6) = (u, .ok ()) :=
  ⟨_, Prod.ext rfl (ok_of _ _ (by decide))⟩
set_option maxRecDepth 100000 in
theorem sScan_writes : ∃ u, writeVirt sScan 0 1 true 0x200000 (eyeBytes sScan.fresh) = (u, .ok ()) :=
  ⟨_, Prod.ext rfl (ok_of _ _ (by decide))⟩

theorem witness_LinkAndDieEvents :
    (∃ s : State, s.ctx? 1 = some fetching ∧ fetchOk fetching = true ∧ fetching.fetches = [] ∧ (∀ x ∈ s.l1, x.owned = true → x.dirty = 0) ∧
      fetchOk { fetching with hflen := 3 } = false ∧ s.recallBlocked (fetching.fetchWords s 1) none = false) ∧
    (∀ b, (sFetch b).ctx? 1 = some { fetching with fetches := [fetch0 b []] } ∧ (fetch0 b []).failed = b ∧ (fetch0 b []).requested = true) ∧
    ((List.replicate 64 (0 : Byte)).length = 64 ∧ (fetch0 false []).written + 64 = (fetch0 false []).length ∧
      (sFetch false).shut 0x40000000 = false ∧ (sFetch false).flaws = [] ∧ (sFetch false).heldEarlier ⟨0, 0, 2⟩ (engineWords (sFetch false) 0 1 0x200000 64) = false ∧
      (withCopies [oneCopy 0x200100 [(0, .phys, 0x10000000)]] (sFetch false)).heldEarlier ⟨0, 0, 2⟩
        (engineWords (withCopies [oneCopy 0x200100 [(0, .phys, 0x10000000)]] (sFetch false)) 0 1 0x200000 64) = true ∧
      translate (sFetch false) (.die 0) 1 (BitVec.ofNat 64 ((fetch0 false []).dst.toNat + (fetch0 false []).written)) true .write =
        (sFetch false, .ok 0x40000000) ∧
      (sFetch false).team? (fetch0 false []).team = some team0 ∧ (fetch0 false []).since + 1000000 ≤ (sFetch false).time) ∧
    (small th0 1).time < (fetch0 false []).since + 1000000 ∧
    (∃ u, sPub.publication? 1 0 = some pub0 ∧ linkRead sPub 1 true pub0.rank (windowAt sPub 1 0) 32 = (sPub, .got descriptor0) ∧
      linkRead sPub 1 pub0.sup pub0.rank (Window.ofBytes descriptor0).base (Window.ofBytes descriptor0).length =
        (sPub, .got (List.replicate 64 0)) ∧ pub0.sent = none ∧
      sPubSent.publication? 1 0 = some pubSent ∧ pubSent.sent = some (0, 0x1000, 0x1040, 6) ∧ sPubSent.time = 1000000 ∧
      ({ sPubSent with time := 5 } : State).time < 0 + 1000000 ∧ virtBusy sPubSent 0 1 true .write (windowAt sPubSent 1 0 + 16) 8 = false ∧
      virtBusy { sPubBusy with publications := [pubSent] } 0 1 true .write (windowAt sPubSent 1 0 + 16) 8 = true ∧
      writeVirt sPubSent 0 1 true (windowAt sPubSent 1 0 + 16) (leBytes 8 6) = (u, .ok ())) ∧
    (sPubBusy.publication? 1 0 = some pub0 ∧ (linkRead sPubBusy 1 true pub0.rank (windowAt sPubBusy 1 0) 32).2 = .waits) ∧
    (sPubLost.publication? 1 0 = some pub0 ∧
      ∃ cls code detail va, (linkRead sPubLost 1 true pub0.rank (windowAt sPubLost 1 0) 32).2 = .failed cls code detail va) ∧
    sPub.team? pub0.thread.team = some team0 ∧
    ((withJob job7 (small th0 1)).job? 7 = some job7 ∧ 256 ≤ (256#32).toNat ∧ (255#32).toNat < 256) ∧
    (((small th0 1).die 0).scan = none ∧ (small th0 1).due.rails = [] ∧
      (small th0 1).recallBlocked (engineWords (small th0 1) 0 1 ((small th0 1).die 0).eyeaddr.toNat 4096) none = false) ∧
    (sScan.heldEarlier ⟨0, 0, 3⟩ scan0.marks = false ∧ (claimed { sScan with dies := [(0, { Die.reset with scan := some { scan0 with cycle := 9 } })] }).heldEarlier ⟨9, 0, 3⟩ scan0.marks = true) ∧
    (∃ u, (sScan.die 0).scan = some scan0 ∧
      writeVirt sScan 0 1 true (0x200000#64).toNat (eyeBytes sScan.fresh) = (u, .ok ())) ∧
    let s := withDie { Die.reset with bists := [(r0, 0, 0x0C01)] } (small th0 1)
    (s.die 0).bists = (r0, 0, 0x0C01) :: [] ∧ s.crew? r0.cref = some (crewOf th0) ∧
      bistRefused s r0.team (s.teamCore r0.team) ((0x0C01#32).toNat % 256) ((0x0C01#32).toNat / 256 % 256) = false ∧
      bistRefused { s with teams := s.teams ++ [(1, team0)] } r0.team (s.teamCore r0.team) 1 12 = true :=
  ⟨⟨{ small th0 1 with ctxs := [(1, fetching)] }, rfl, by decide, rfl, fun x hx => (nomatch hx), by decide, by decide⟩, fun b => ⟨rfl, rfl, rfl⟩,
    ⟨by decide, rfl, by decide, rfl, by decide, by decide, rfl, rfl, by decide⟩, by decide,
    ⟨sPub_version.choose, by decide, sPub_descriptor, sPub_data, rfl, by decide, rfl, rfl, by decide, by decide, by decide,
      sPub_version.choose_spec⟩, ⟨by decide, rfl⟩,
    ⟨by decide, _, _, _, _, rfl⟩, rfl, by decide, ⟨rfl, rfl, by decide⟩, ⟨by decide, by decide⟩, ⟨sScan_writes.choose, rfl, sScan_writes.choose_spec⟩,
    rfl, rfl, by decide, by decide⟩

/-- Three subtractions of 1 from g7, and one of 3. -/
def slow : List Word := [0x3038FFF8, 0x3038FFF8, 0x3038FFF8]
def fast : List Word := [0x3038FFE8]
def study0 : Study := ⟨1, 0x10000, 0x6849, 0x10000, slow⟩
def liveG7 (v : Word) : LiveIns := ⟨[(7, v)], [], [], []⟩
def substitute : Launch := { placedLaunch with policy := 0x6849 }
def entryOf (promoted : Bool) (words : List Word) (equal : Nat) (seen : BitVec 13) : SubEntry :=
  { cand := 9, ctx := 1, code := 0x10000, policy := 0x6849, window := 0x10000, orig := slow, words := words, promoted := promoted,
    exact := false, count := 0, equal := equal, seen := [seen], use := 0 }
def withWeevil (w : Weevil) (s : State) : State :=
  { s with cores := [(0, { Core.reset with weevil := w })], launches := [(0, substitute)], cycle := 2 ^ 20 }
def weevil0 : Weevil := Core.reset.weevil
def sWindow (e : SubEntry) : State := withWeevil { weevil0 with store := [(0, e)] } (small th0 1)
def pending0 (e : SubEntry) (v : Word) : Pending := ⟨e, 0, liveG7 20, [(7, v)], []⟩
/-- A comparison waits on core 0, of whose ports one is left where no thread is to issue. -/
def sCompare (e : SubEntry) (v : Word) (t : Thread) : State :=
  withWeevil { weevil0 with store := [(0, e)], pending := [pending0 e v] } (small t 1)

theorem fast_fits : candidateFits study0 (List.replicate 64 (liveG7 20)) fast false = true := by decide
/-- A window under study with all its samples. -/
def studying : Weevil := { weevil0 with study := some study0, samples := List.replicate 64 (liveG7 20) }
/-- A promoted entry on core 1, of a window that a team of core 0 runs. -/
def sReplica (t : Thread) : State :=
  { small t 1 with
    launches := [(0, substitute)], cores := [(1, { Core.reset with weevil := { weevil0 with store := [(0, entryOf true fast 0 8)] } })] }

theorem witness_CodeSearch :
    (let s := withWeevil { weevil0 with counts := [((0, 0x10000), 2 ^ 14)] } (onLine 0x3038FFF8);
      (s.core 0).weevil.lastRead + 2 ^ 20 ≤ s.cycle ∧ ({ s with cycle := 5 } : State).cycle < (s.core 0).weevil.lastRead + 2 ^ 20 ∧
      ((0, 0x10000), 2 ^ 14) ∈ (s.core 0).weevil.counts ∧
      (studyAt s 0 (s.core 0).weevil ((0, 0x10000), 2 ^ 14)).isSome = true ∧ (s.core 0).weevil.study = none) ∧
    (let s := fun t => withWeevil studying (small t 1);
      2 ^ 24 ≤ ({ studying with idle := 2 ^ 24 } : Weevil).idle ∧ ((s ended).core 0).weevil = studying ∧ studying.study = some study0 ∧ (s ended).searchSlot 0 = true ∧ (s th0).searchSlot 0 = false ∧
      candidateFits study0 studying.samples fast false = true ∧ candidateFits study0 studying.samples slow false = false ∧
      (s ended).freshId 9 = true ∧ studying.holds study0.ctx study0.code study0.window = false ∧ studying.samples.length = 64) ∧
    (∀ e, e = entryOf true fast 0 8 ∨ e = entryOf false fast 0 0 → (sWindow e).crew? c0 = some (crewOf th0) ∧
      (sWindow e).cur.lanes = [(c0, laneBit 0)] ∧ (sWindow e).cur.traps = [] ∧ ((crewOf th0).thread 0).late = none ∧
      (sWindow e).traces = [] ∧ (sWindow e).trials = [] ∧ (sWindow e).teamLaunch? c0.team = some (0, substitute) ∧
      Tbl.at? ((sWindow e).core (sWindow e).cur.core).weevil.store 0 = some e ∧
      entryUsable (sWindow e) substitute ((crewOf th0).thread 0).pc e = true ∧
      (sWindow e).banksMissing (sWindow e).cur.core 0 e = []) ∧
    (∀ e v t, ((sCompare e v t).core 0).weevil.pending = pending0 e v :: [] ∧
      (((sCompare e v t).core 0).weevil.store.find? fun x =>
        x.2.cand == (pending0 e v).entry.cand && x.2.window == (pending0 e v).entry.window) = some (0, e)) ∧
    ((∀ e v, (sCompare e v ended).slotLeft 0 = true) ∧ (sCompare (entryOf true fast 0 8) 17 th0).slotLeft 0 = false) ∧
    (leftG slow (weevilRun (liveG7 20) fast) = (pending0 (entryOf true fast 0 8) 17).results ∧
      leftP slow (weevilRun (liveG7 20) fast) = (pending0 (entryOf true fast 0 8) 17).preds) ∧
    (leftG slow (weevilRun (liveG7 20) fast) ≠ (pending0 (entryOf true fast 0 8) 18).results) ∧
    (let enough := fun e : SubEntry => 2 ^ (e.policy.toNat / 2 ^ 8 % 16) ≤ e.equal + 1 ∧
        coverageMet (e.policy.toNat / 4 % 4) (operandsOf e.orig) (addSeen (operandsOf e.orig) (liveG7 20) e.seen) = true;
      let late := fun e : SubEntry => 16 * 2 ^ (e.policy.toNat / 2 ^ 8 % 16) ≤ e.equal + 1;
      enough (entryOf false fast 255 16) ∧ (¬ enough (entryOf false fast 0 0) ∧ ¬ late (entryOf false fast 0 0)) ∧
        ¬ enough { entryOf false fast 4095 0 with policy := 0x6845 } ∧ late { entryOf false fast 4095 0 with policy := 0x6845 }) ∧
    (∀ y, (sCompare (entryOf true fast 0 8) 18 ended).ctx? 1 = some y → 9 ∉ y.withdrawn) ∧
    (let e := entryOf true fast 0 8;
      (((sReplica ended).core 1).weevil.store.find? fun x => x.2.cand == 9) = some (0, e) ∧ (sReplica ended).replicates 1 0 e = true ∧
      (sReplica ended).replicationSlot 1 = true ∧ (sReplica ended).replicates 1 1 e = false) ∧
    let s : State := { withTeam { team0 with usedIds := [9] } (small th0 1) with withdrawals := [⟨9, 1, 0x10000, 0x10000, 0⟩] }
    (s.withdrawals.find? fun y => y.cand == 9) = some ⟨9, 1, 0x10000, 0x10000, 0⟩ ∧ s.images = [] ∧
      s.team? 0 = some { team0 with usedIds := [9] } ∧ s.launch? 0 = some placedLaunch ∧ placedLaunch.ctx = 1 ∧
      ({ team0 with usedIds := [9] } : Team).used 9 = true ∧ (s.teams.map (·.1)).Nodup := by
  refine ⟨⟨by decide, by decide, by decide, by decide, rfl⟩, ⟨by decide, rfl, rfl, by decide, by decide, fast_fits, by decide, by decide, by decide, by decide⟩,
    fun e he => ?_, fun e v t => ⟨rfl, ?_⟩, ⟨fun _ _ => rfl, by decide⟩, ⟨by decide, by decide⟩, by decide, by decide, fun y h => ?_, by decide,
    by decide, rfl, rfl, rfl, rfl, by decide, by decide⟩
  · rcases he with rfl | rfl <;> exact ⟨rfl, by decide, rfl, rfl, rfl, rfl, rfl, rfl, by decide, by decide⟩
  · show ([(0, e)].find? fun x => x.2.cand == e.cand && x.2.window == e.window) = some (0, e)
    simp
  · cases h; decide

def trace0 : Trace := ⟨0, none, 0x200000, 65536, [], [], [], []⟩
def sampling0 (counts : List ((Nat × Nat × Nat) × Nat)) : Sampling := ⟨0, 8, 0, 2, 0x200000, counts, [], []⟩
def halting : Team := { team0 with stopWanted := some (none, false) }

def sTrial (x : Trial) : State := { sOf placedLaunch with trials := [x], time := 100 }
def trial0 (d : Nat) : Trial := ⟨0, 0, 8, 1, 0, d, 0x200000, [], 0, 0⟩
def sSampled (counts : List ((Nat × Nat × Nat) × Nat)) : State := { small th0 1 with samplings := [sampling0 counts], cycle := 256 }
/-- Seven records of core 0 lost; the trace has room for their record, or its page is not mapped. -/
def lossy (base : DWord) : Trace := { trace0 with base := base, lost := [(0, 7)] }
def sLossy (base : DWord) : State := { small th0 1 with traces := [lossy base] }
def lossRecord (s : State) (base : DWord) : State :=
  putRecord (s.setCore 0 fun k => { k with tracePending := 0 }) 0 none 0
    (eventBytes 8 0 0 0 s.time (Tbl.atD (lossy base).lost 0 0) 0)

theorem witness_DebugCommands :
    (chosenTeams (small th0 1) (taggedLaunches (small th0 1) 1 5) none = [] ∧
      chosenTeams (small th0 1) (taggedLaunches (small th0 1) 1 0) none ≠ [] ∧
      chosenTeams (small th0 1) (taggedLaunches (small th0 1) 1 0) (some 0) ≠ []) ∧
    (let s := withTeam halting (small th0 1); s.team? 0 = some halting ∧ stopReady s 0 halting = true ∧ s.traces = [] ∧
      stopReady (small th0 1) 0 team0 = false) ∧
    ((small th0 1).launch? 0 = some placedLaunch ∧ 4 ≤ 4 ∧ 3 < 4 ∧ 2 % 2 = 0) ∧
    taggedLaunches (sOf placedLaunch) 1 5 = [] ∧
    (taggedLaunches (sOf placedLaunch) 1 0 = 0 :: [] ∧ (∀ x ∈ (sOf placedLaunch).teams, x.2.launch ≠ 0) ∧
      (sOf placedLaunch).trials = [] ∧ (sOf placedLaunch).samplings = [] ∧
      ((0x200000#64).toNat % 4096 = 0 ∧ (0xFFFFFFFFFF000#64).toNat < 2 ^ 52 ∧ ¬ 0x200800 % 4096 = 0 ∧ ¬ 61440 ≥ 65536 ∧ 2 ^ 30 % 4096 = 0)) ∧
    (let s : State := { sOf placedLaunch with traces := [trace0] };
      taggedLaunches s 1 0 = 0 :: [] ∧ ∃ x ∈ s.traces, x.launch = 0 ∧ x.team = none) ∧
    (taggedLaunches (sTrial (trial0 9)) 1 0 = 0 :: [] ∧ ∃ x ∈ (sTrial (trial0 9)).trials, x.launch = 0) ∧
    (taggedLaunches (sSampled []) 1 0 = 0 :: [] ∧ ∃ x ∈ (sSampled []).samplings, x.launch = 0) ∧
    (∀ x ∈ (sLossy 0x200000).traces, Tbl.atD x.lost 1 0 = 0) ∧
    ((∀ b, (sLossy b).traces = [lossy b] ∧ Tbl.atD (lossy b).lost 0 0 ≠ 0) ∧
      (lossRecord (sLossy 0x200000) 0x200000).recordCount 0 none 0 ≠ (sLossy 0x200000).recordCount 0 none 0 ∧
      ((lossRecord (sLossy 0x200000) 0x200000).trace? 0 none).isSome = true ∧
      (lossRecord (sLossy 0x600000) 0x600000).recordCount 0 none 0 = (sLossy 0x600000).recordCount 0 none 0) ∧
    ((∀ d, ((sTrial (trial0 d)).trials.find? fun y => y.launch == 0) = some (trial0 d) ∧
        (sTrial (trial0 d)).launch? 0 = some placedLaunch ∧ ((sTrial (trial0 d)).ctx? placedLaunch.ctx).isSome = true) ∧
      (trial0 100).start + (trial0 100).duration ≤ (sTrial (trial0 100)).time ∧
      (sTrial (trial0 101)).time < (trial0 101).start + (trial0 101).duration) ∧
    ((sSampled []).samplings = [sampling0 []] ∧
      Tbl.atD (sampling0 []).lastTick 0 0 + 2 ^ (sampling0 []).shift ≤ (sSampled []).cycle ∧
      ({ sSampled [] with cycle := 255 } : State).cycle < Tbl.atD (sampling0 []).lastTick 0 0 + 2 ^ (sampling0 []).shift ∧
      (sSampled []).launch? (sampling0 []).launch = some placedLaunch ∧
      ((sampleThreads (sSampled []) 0 (sampling0 []).launch).find? fun t => Tbl.atD (sampling0 []).places 0 0 ≤ t.1) = some (0, r0)) ∧
    let x := sampling0 [((0, 3, 4), 7)]
    let s := sSampled [((0, 3, 4), 7)]
    (s.samplings.find? fun y => y.launch == 0) = some x ∧ s.launch? 0 = some placedLaunch ∧ x.counts = [((0, 3, 4), 7)] ∧
      deviceAtomWaits s 0 placedLaunch.ctx true (BitVec.ofNat 64 (x.result.toNat + 4 * (16 * 3 + 4))) 4 = false ∧
      translate s (.die 0) placedLaunch.ctx (BitVec.ofNat 64 (x.result.toNat + 4 * (16 * 3 + 4))) true .write = (s, .ok 0x400000D0) ∧
      (∀ w ∈ s.l1, w.owned = true → w.dirty = 0) ∧
      s.flaws = [] ∧ s.deadRange 0x400000D0 4 = false ∧
      deviceAtomWaits { s with ctxs := [(1, { Ctx.reset with ptroot := 0x1000000, fetches := [fetch0 false [0x10000034]] })] } 0
        placedLaunch.ctx true (BitVec.ofNat 64 (x.result.toNat + 4 * (16 * 3 + 4))) 4 = true :=
  ⟨⟨by decide, by decide, by decide⟩, ⟨rfl, by decide, rfl, by decide⟩, ⟨rfl, by decide, by decide, by decide⟩, by decide,
    ⟨by decide, fun x hx => (nomatch hx), rfl, rfl, by decide⟩, ⟨by decide, trace0, by decide, rfl, rfl⟩,
    ⟨by decide, trial0 9, by decide, rfl⟩, ⟨by decide, sampling0 [], by decide, rfl⟩, by decide,
    ⟨fun _ => ⟨rfl, (by decide : 7 ≠ 0)⟩, by decide, by decide, by decide⟩,
    ⟨fun _ => ⟨rfl, rfl, rfl⟩, by decide, by decide⟩, ⟨rfl, by decide, by decide, rfl, by decide⟩,
    rfl, rfl, rfl, by decide, rfl, fun x hx => (nomatch hx), rfl, by decide, by decide⟩

def idleLaunch : Launch := { placedLaunch with done := true }

def sIdle : State := { withJob job7 (small th0 1) with launches := [(0, { launch7 with done := true })] }
def sJobs : State := { State.reset with fabric := { State.reset.fabric with jobs := (upto 64).map fun n => { job7 with number := BitVec.ofNat 16 (100 + n) } } }

/-- Ends part 6 of the tests. -/
inductive Part6 where | ended

theorem witness_ManagementCommands :
    (4080 ≤ 4080 ∧ 0x100000 - 4080 + 4080 ≤ 0x100000 ∧ 4080 < 4081 ∧ 0x100000 < 0x100000 - 4080 + 4081) ∧ (255 < 256 ∧ 256 ≤ 256) ∧
    (3 < 4 ∧ 6 < 7 ∧ (1 < 2 ∧ 63 < 64) ∧ State.reset.due.rails = [] ∧
      State.reset.takeFree.2.recallBlocked (scanWords State.reset.takeFree.2 0 (State.reset.takeFree.1.toNat % 4096) 0x200000) none = false ∧
      (State.reset.die 0).scan = none ∧ (sScan.die 0).scan ≠ none) ∧
    ((List.replicate 32 (0 : Byte)).length = 32 ∧ (List.replicate 31 (0 : Byte)).length ≠ 32) ∧
    (lifecyclePermits (small th0 1).modl.lifecycle 2 = true ∧ lifecyclePermits (small th0 1).modl.lifecycle 4 = false ∧
      (∀ a, Config.authorisationVerifies a 2 = false ∨ Config.authorisationVerifies a 2 = true) ∧
      (∀ x ∈ State.reset.launches, x.2.done = true) ∧ ∃ x ∈ (small th0 1).launches, x.2.done = false) ∧
    (inHole 0x40000000 = false ∧ inHole (0x40000000 + 4096 - 1) = false ∧ 4096 ≠ 0 ∧
      inHole (2 ^ 42) = true ∧ inHole (48 * 2 ^ 30 - 1) = false ∧ inHole (48 * 2 ^ 30) = true) ∧
    (State.reset.ctx? 4095 = none ∧ 4095 < 4096 ∧ (small th0 1).ctx? 1 ≠ none ∧ ∃ y, (sOf idleLaunch).ctx? 1 = some y ∧ y.fetches = [] ∧
      (∀ x ∈ (sOf idleLaunch).launches, x.2.ctx = 1 → x.2.done = true) ∧ ((sOf idleLaunch).ctxs.map (·.1)).Nodup) ∧
    ((∃ y, (small th0 1).ctx? 1 = some y ∧ ∃ x ∈ (small th0 1).launches, x.2.ctx = 1 ∧ x.2.done = false) ∧
      ∃ y, (sFetch false).ctx? 1 = some y ∧ y.fetches ≠ []) ∧
    (State.reset.shut (0 * 2 ^ 40 + 0 * 2 ^ 39 + 0x110000) = false ∧ State.reset.shut (3 * 2 ^ 40 + 1 * 2 ^ 39 + 0) = false ∧
      (withDie { Die.reset with closed := true } (small th0 1)).shut (0 * 2 ^ 40 + 0 * 2 ^ 39 + 0x110000) = true) ∧
    (¬ (State.reset.modl.identified = true ∧ State.reset.modl.number.toNat = 65535 ∧ State.reset.modl.timeSource = some 23) ∧ ∀ p, some 23 = some p → p < 24) ∧
    (let m : Module := { State.reset.modl with identified := true, number := 0xFFFF, timeSource := some 23 }; m.identified = true ∧ m.number.toNat = 65535 ∧ m.timeSource = some 23) ∧
    (State.reset.job? 7 = none ∧ State.reset.fabric.jobs.length < 64 ∧ sJobs.job? 7 = none ∧ 64 ≤ sJobs.fabric.jobs.length) ∧
    ((withJob job7 (small th0 1)).job? 7 = some job7 ∧ badRoutes 0 job7 job7.routes = false ∧ badRoutes 0 job7 [] = true ∧
      true = holdsRoot (withJob job7 (small th0 1)).modl.number job7.routes ∧
      false ≠ holdsRoot (withJob job7 (small th0 1)).modl.number job7.routes) ∧
    ((∀ x ∈ sIdle.launches, x.2.job = 7 → x.2.done = true) ∧
      ∃ x ∈ (withJob job7 (small th0 1)).launches, x.2.job = 7 ∧ x.2.done = false) :=
  ⟨by decide, by decide, by decide, by decide,
    ⟨by decide, by decide, fun a => by cases Config.authorisationVerifies a 2 <;> simp, fun x hx => (nomatch hx), _,
      List.mem_singleton.mpr rfl, rfl⟩, by decide,
    ⟨rfl, by decide, by decide, _, rfl, rfl, fun x hx _ => by rw [List.mem_singleton.mp hx]; rfl, by decide⟩,
    ⟨⟨_, rfl, _, List.mem_singleton.mpr rfl, rfl, rfl⟩, _, rfl, by decide⟩, by decide,
    ⟨by decide, fun p h => by cases h; decide⟩, by decide, ⟨rfl, by decide, by decide, by decide⟩,
    ⟨by decide, by decide, by decide, by decide, by decide⟩,
    fun x hx _ => by rw [List.mem_singleton.mp hx], _, List.mem_singleton.mpr rfl, rfl, rfl⟩
/-- The fuses are free: a spare that they use fills a position of its own pair of clusters. -/
theorem witness_ManagementCommands_spare : ∀ d s, spareFills d s = none ∨ ∃ core, spareFills d s = some core := by
  intro d s; cases spareFills d s <;> simp

theorem witness_DeviceMaintenance :
    (State.reset.anyReset = false ∧ (withDie { Die.reset with inReset := true } (small th0 1)).anyReset = true) ∧
    (let s : State := { withJob job7 (small th0 1) with chip := [((0, 3), ⟨0, 65536, []⟩)] };
      0 < 3 ∧ 3 < 4 ∧ s.anyReset = false ∧ s.job? 7 = some job7 ∧ s.launch? 0 = some launch7 ∧ launch7.done = false ∧ onDie s 3 0 = true) ∧
    (let s := withDie { Die.reset with inReset := true, closed := true } (small th0 1);
      (s.die 0).inReset = true ∧ (∀ e, e < 4 → (s.die e).resetDue = false) ∧
      let u : State := { s with dies := s.dies ++ [(2, { Die.reset with resetDue := true })] };
      (u.die 0).inReset = true ∧ u.anyReset = true ∧ (u.die 2).inReset = false ∧ (u.die 2).resetDue = true ∧ ∀ x, x < 2 → (u.die x).resetDue = false) ∧
    (let s := fun n => withDie { Die.reset with closed := true, admitFrom := n } { small th0 1 with launches := [(0, { placedLaunch with order := 5 })] };
      ((s 5).die 0).closed = true ∧ ((s 5).die 0).inReset = false ∧ (∀ x ∈ (s 5).launches, x.2.done = false → ((s 5).die 0).admitFrom ≤ x.2.order) ∧
      ∃ x ∈ (s 6).launches, x.2.done = false ∧ x.2.order < ((s 6).die 0).admitFrom) ∧
    (let pa := 3 * 2 ^ 40 + 2 ^ 39; let s := small th0 1;
      inHole pa = false ∧ s.shut pa = false ∧ (s.scrubAt (controllerOf pa)).2 = sectorOffset pa ∧ (s.scrubAt (controllerOf pa)).1 * dayNs ≤ s.time ∧
      s.poison.contains (pa / 64) = false ∧ (s.scrubAt (controllerOf (pa + 64))).2 ≠ sectorOffset (pa + 64) ∧
      ({ s with poison := [pa / 64] } : State).poison.contains (pa / 64) = true ∧ Mem.wf s.mem = true) ∧
    (∀ d, d < 4 → ∀ n ∈ (State.reset.die d).corrected, n = 0) ∧ (1 ≤ 1 ∧ 2700 ≤ 2700) ∧
    (State.reset.modl.timeSource = none ∧ { State.reset.modl with timeSource := some 3 : Module }.timeSource ≠ none ∧ { State.reset.modl with locked := true : Module }.locked = true ∧
      State.reset.time - 0 ≤ 10000000 ∧ { State.reset.modl with locked := false : Module }.locked = false ∧
      10000000 < ({ State.reset with time := 10000001 } : State).time - 0) := by
  refine ⟨by decide, ⟨by decide, by decide, by decide, rfl, rfl, rfl, by decide⟩, ⟨by decide, by decide, by decide, by decide, by decide, by decide, by decide⟩, ⟨by decide, by decide, fun x hx _ => ?_, ?_⟩,
    by decide, fun d _ n hn => ?_, by decide, by decide⟩
  · rw [List.mem_singleton.mp hx]; decide
  · exact ⟨_, List.mem_singleton.mpr rfl, rfl, by decide⟩
  · have : State.reset.die d = Die.reset := rfl
    rw [this] at hn
    revert n; decide

/-- The machine that fetches a word next, seen at its issue. -/
def fetching32 (w : Nat) : State := { State.reset.withFetchWord 32 w with agenda := [] }
/-- The small machine at a code that stands for word 2 of its own line, which is its code object's. -/
def atCode : State :=
  { small { th0 with pc := 0x200004 } 0 with
    modl := { State.reset.modl with errataDue := false }, launches := [(0, { placedLaunch with code := 0x200000 })]
    icache := [⟨0, 1, 0x200000, true, 0x40000000, 2 ^ 30, 0x56000000 :: 2 :: List.replicate 62 0x50000005⟩] }
def groupIn (s : State) : Candidate := (s.nextGroup 0).getD ⟨0, 0, 0, [], false⟩
def firstOf (s : State) : TRef := (groupIn s).refs.headD ⟨0, 0, 0⟩
def lineIn (s : State) : ILine := s.icache.headD ⟨0, 0, 0, false, 0, 0, []⟩

/-- Once its issue is scheduled, the core has a group at a line that all its threads may fetch from, and nothing comes before it. -/
def Issues (v : State) (pc : DWord) : Prop :=
  v.cur.code = none ∧ ({ v with agenda := [.issue 0] } : State).urgent = [] ∧ v.nextGroup 0 = some (groupIn v) ∧
    (groupIn v).refs.head? = some (firstOf v) ∧ v.breakpointAt (groupIn v) = none ∧
    v.windowAt (groupIn v).core (groupIn v).launch (groupIn v).pc = none ∧
    (∀ q ∈ (groupIn v).refs, v.fetched q ≠ .missing) ∧
    v.line? (v.teamCore (firstOf v).team) (v.teamCtx (firstOf v).team) (v.thread (firstOf v)).pc (v.thread (firstOf v)).sup =
      some (lineIn v) ∧ (v.thread (firstOf v)).pc = pc
/-- The bank words that an instruction reads are held for every thread of the group. -/
def Held (v : State) (i : Instr) : Prop := ∀ q ∈ (groupIn v).refs, v.bankToFill q (bankNeeds i (v.thread q)) = none

theorem issues_nop : Issues (fetching32 0x50000005) 0x10000 := by
  unfold Issues; exact ⟨rfl, by decide, by decide, by decide, by decide, by decide, by decide, by decide, by decide⟩
theorem issues_reserved : Issues (fetching32 0) 0x10000 := by
  unfold Issues; exact ⟨rfl, by decide, by decide, by decide, by decide, by decide, by decide, by decide, by decide⟩
theorem issues_code : Issues atCode 0x200004 := by
  unfold Issues; exact ⟨rfl, by decide, by decide, by decide, by decide, by decide, by decide, by decide, by decide⟩

theorem witness_StepRunsDecoded :
    (Issues (fetching32 0x50000005) 0x10000 ∧ markAt (lineIn (fetching32 0x50000005)).words 0x10000 ≠ .run ∧
      (lineIn (fetching32 0x50000005)).words.getD 0 0 = 0x50000005 ∧ decodeWord 0x50000005 = .ok (.nop ⟨false, 0⟩) ∧
      Held (fetching32 0x50000005) (.nop ⟨false, 0⟩)) ∧
    (Issues (fetching32 0) 0x10000 ∧ markAt (lineIn (fetching32 0)).words 0x10000 ≠ .run ∧
      (lineIn (fetching32 0)).words.getD 0 1 = 0 ∧ ∃ e, decodeWord 0 = .error e) ∧
    (Issues atCode 0x200004 ∧ markAt (lineIn atCode).words 0x200004 = .run ∧
      (∀ q ∈ (groupIn atCode).refs, codeWord atCode q (codeOf 2 false) = .word 0x50000005) ∧ Held atCode (.nop ⟨false, 0⟩)) ∧
    ({ State.reset with cur := { Group.none with code := some (some 0x50000005) } } : State).cur.code = some (some 0x50000005) ∧
    (let s := fun a => { State.reset with modl := { State.reset.modl with errataDue := false }, agenda := a : State };
      ∀ a, (s a).cur.code = none ∧ (s a).urgent = [] ∧ (s a).agenda = a) :=
  ⟨⟨issues_nop, by decide, by decide, rfl, by unfold Held; decide⟩, ⟨issues_reserved, by decide, by decide, _, rfl⟩,
    ⟨issues_code, by decide, by decide, by unfold Held; decide⟩, rfl, fun _ => ⟨rfl, rfl, rfl⟩⟩

theorem witness_EncodingsAndComparisons :
    (Fmt.e4m3.val 0x7F = .nan ∧ 0x7F < 2 ^ Fmt.e4m3.width) ∧
    (Fmt.f32.val 0x3F800000 ≠ .nan ∧ (∀ b, Fmt.f32.val 0x3F800000 ≠ .inf b) ∧ 0x3F800000 < 2 ^ Fmt.f32.width) ∧
    Fmt.f64.val 0x7FF8000000000000 = .nan ∧ Fmt.f64.val 0 ≠ .nan := by
  refine ⟨by decide, ⟨by decide, fun b => ?_, by decide⟩, by decide, by decide⟩
  cases b <;> decide
theorem witness_SpecialFunctionCorners :
    Fmt.f32.val (0x7F800001#32).toNat = .nan ∧ 1 < Fmt.f32.infCode ∧ 1 < Fmt.f64.infCode := by decide
theorem witness_ValuesOfLoadsStoresAndAtomics : (0#3).toNat ≤ 4 ∧ (4#3).toNat ≤ 4 ∧ ∃ t : Thread, t.reg 63 = 0 := 
  ⟨by decide, by decide, th0, rfl⟩
theorem witness_EncodeDecode : ∃ w, (Instr.fadd ⟨true, 5, 3, 4, 2⟩).wf = true ∧ encode (.fadd ⟨true, 5, 3, 4, 2⟩) = some w :=
  ⟨_, by decide, rfl⟩
theorem witness_MemoryStaysCanonical :
    let s := { State.reset with agenda := [.event .moduleReset] }
    Mem.wf s.mem = true ∧ ∃ t, step s = .next t := ⟨by decide, _, rfl⟩

/-- Ends part 7 of the tests. -/
inductive Part7 where | ended

/-! ## Witnesses for tainted operands, engines at work and lost words -/

/-- A thread with a taint of g2; one that ended after every other of the cycle. -/
def tainted2 : Thread := { th0 with taintG := 4 }
def endedLate : Team := { team0 with lastEnd := some (0, ⟨0, 0, 5⟩, 0x10000) }
def returned : Thread := { th0 with out := [⟨8, [some 3], some [9]⟩] }

theorem witness_SpecialFunctionResults_return :
    (small returned 1).crew? c0 = some (crewOf returned) ∧ ((crewOf returned).thread 0).out[0]? = some ⟨8, [some 3], some [9]⟩ ∧
      ∀ j, j ≠ 0 → ([some (3 : Reg6)] : List (Option Reg6))[j]? ≠ some (some 3) :=
  ⟨rfl, rfl, fun j h => by cases j <;> simp_all⟩

theorem witness_CrewRegisterWrite_tainted :
    Ready (.movToK ⟨false, 1, 2, 0⟩) (small tainted2 (BitVec.allOnes 64)) c0 (crewOf tainted2) (BitVec.allOnes 64) ∧
      Leads (.movToK ⟨false, 1, 2, 0⟩) (crewOf tainted2) 0 ∧ ((crewOf tainted2).thread 0).taintG.getLsbD (2#6).toNat = true ∧
      (small tainted2 (BitVec.allOnes 64)).logFull r0 1 = false :=
  ⟨ready_on _ _ tainted2 _ _ _ rfl rfl rfl (by decide) rfl rfl rfl (fun e => nomatch e) rfl rfl rfl rfl,
    ⟨by decide, rfl, fun n h => absurd h (Nat.not_lt_zero n)⟩, rfl, rfl⟩

theorem witness_ThreadExit_last :
    One (.exit ⟨false, 0⟩) (withTeam endedLate (small th0 1)) c0 (crewOf th0) 0 ∧
      (withTeam endedLate (small th0 1)).team? 0 = some endedLate ∧
      ∀ e, endedLate.lastEnd = some e → 64 * (crewOf th0).slot + 0 < 64 * (withTeam endedLate (small th0 1)).slotOf e.2.1.cref + e.2.1.lane :=
  ⟨one_on _ _ th0 _ endedLate rfl rfl rfl rfl rfl rfl (fun e => nomatch e) rfl rfl rfl rfl rfl, rfl, fun e h => by cases h; decide⟩

theorem witness_TransactionBarriers_task :
    let s := buffered (sBar barT 1 ⟨0, 0, 0, 0, 0⟩)
    One (.tbinit ⟨false, 2, 3, 0⟩) s c0 (crewOf barT) 0 ∧ hasTaint (.tbinit ⟨false, 2, 3, 0⟩) barT = false ∧
      ∃ k, s.buffering 0 = some k ∧ (k.store? (.cluster 0 0) 32 32 false (2 ^ 12) (leBytes 16 5)).isSome = true :=
  ⟨one_on _ _ barT _ (teamTask (taskOf 0 0 false)) rfl rfl rfl rfl rfl rfl (fun e => nomatch e) rfl rfl rfl rfl rfl, by decide, _, rfl,
    by decide⟩

theorem witness_CopiesEnterTheirQueue_free :
    ∀ ctl n u, ({ sCopy ctl with serial := n } : State).recallBlocked u none = false ∧ (sCopy ctl).logFull r0 0 = false :=
  fun _ _ _ => ⟨rfl, rfl⟩

theorem witness_MatrixEffects_busy :
    let s := sMat (holding lacking) []
    lacking.lineBusy s 0 0x200000 = false ∧ { lacking with cycle := 9 }.lineBusy (claimed s) 0 0x200040 = true := by decide

/-- Ends part 8 of the tests. -/
inductive Part8 where | ended

/-! ## Effects -/

/-- A register of lane 0 after it executes one instruction on two operands in g8 and g9. -/
def after (i : Instr) (x y : Word) (d : Reg6) : Option Word :=
  match exec i (small (withRegs [(8, x), (9, y)] th0) 1) with
  | .next s => some ((s.thread r0).reg d)
  | _ => none

-- Each expected value is worked out by hand from the rule named.
theorem test_iadd_wraps : after (.iadd ⟨false, 2, 8, 9, 0, false⟩) 0xFFFFFFFF 2 2 = some 1 := by decide -- R276
theorem test_iadd64_carries : after (.iadd64 ⟨false, 2, 8, 8, 0, true⟩) 0x80000000 1 3 = some 3 := by decide -- R276
theorem test_imulh_unsigned : after (.imulh ⟨false, 2, 8, 9, 0, true⟩) 0xFFFFFFFF 0xFFFFFFFF 2 = some 0xFFFFFFFE := by decide -- R276
theorem test_imulh_signed : after (.imulh ⟨false, 2, 8, 9, 0, false⟩) 0xFFFFFFFF 0xFFFFFFFF 2 = some 0 := by decide -- R276
theorem test_div_truncates : after (.div ⟨false, 2, 8, 9, 0, false⟩) 0xFFFFFFF9 2 2 = some 0xFFFFFFFD := by decide -- R276
theorem test_rem_sign : after (.rem ⟨false, 2, 8, 9, 0, false⟩) 0xFFFFFFF9 2 2 = some 0xFFFFFFFF := by decide -- R276
theorem test_div_by_zero : after (.div ⟨false, 2, 8, 9, 0, true⟩) 7 0 2 = some 0 := by decide -- R86
theorem test_shl_width : after (.shl ⟨false, 2, 8, 9, 0⟩) 1 32 2 = some 0 := by decide -- R87
theorem test_sar_beyond : after (.sar ⟨false, 2, 8, 9, 0⟩) 0x80000000 40 2 = some 0xFFFFFFFF := by decide -- R87
theorem test_rol_modulo : after (.rol ⟨false, 2, 8, 9, 0⟩) 0x80000001 33 2 = some 3 := by decide -- R279
theorem test_clz_zero : after (.clz ⟨false, 2, 8, 0⟩) 0 0 2 = some 32 := by decide -- R279
theorem test_fadd_tenths : after (.fadd ⟨false, 2, 8, 9, 0⟩) 0x3DCCCCCD 0x3E4CCCCD 2 = some 0x3E99999A := by decide -- R282
theorem test_fmul_nan : after (.fmul ⟨false, 2, 8, 9, 0⟩) 0x7F800000 0x80000000 2 = some 0x7FC00000 := by decide -- R75
theorem test_fdiv_third : after (.fdiv ⟨false, 2, 8, 9, 0⟩) 0x3F800000 0x40400000 2 = some 0x3EAAAAAB := by decide -- R282
theorem test_fsqrt_two : after (.fsqrt ⟨false, 2, 8, 0⟩) 0x40000000 0 2 = some 0x3FB504F3 := by decide -- R282
theorem test_ffma_fused : after (.ffmaF32 ⟨false, 2, 8, 8, 9, false⟩) 0x3F800800 0xBF800000 2 = some 0x3A000400 := by decide -- R285
theorem test_movi20_negative : after (.movi20 ⟨false, 2, 0xFFFFB⟩) 0 0 2 = some 0xFFFFFFFB := by decide -- R293
theorem test_false_guard_keeps : after (.iadd ⟨false, 8, 8, 9, 1, false⟩) 5 6 8 = some 5 := by decide -- R49
theorem test_reserved_word_traps :
    (match exec (.reservedEncoding 0) { sTrap th0 0x200000 3 with crews := [(c0, crewOf th0)] } with
      | .next s => [(s.thread r0).pc, (s.thread r0).epc, (s.thread r0).ecause.setWidth 64, (s.thread r0).estat.setWidth 64]
      | _ => []) = [0x210000, 0x10000, 0x02010000, 0] := by decide -- R401, R402, R415
theorem test_code_word : decodeTableWord 16 0x8BFF = some (.dictCode ⟨true, 2, 1023⟩) := by decide -- R261
theorem test_reserved_words :
    decodeTableWord 32 0 = none ∧ decodeTableWord 32 0x0600000E = none ∧ decodeTableWord 32 0x2E000000 = none ∧ decodeTableWord 32 0x5C108008 = none ∧
      decodeTableWord 32 0x7E00000F = none := by decide -- R415
theorem test_fetched_word_runs :
    (match step (State.reset.withFetchWord 32 0x4A0FFFFB) with
      | .next s => (s.crews.head?.map fun c => ((c.2.thread 5).reg 1, (c.2.thread 5).pc))
      | _ => none) = some (0xFFFFFFFB, 0x10004) := by decide -- R293, R412

/-- Ends part 9 of the tests. -/
inductive Part9 where | ended

/-! ## Words written out from the encodings -/

theorem test_decode_majors_01_02_1 : decodeTableWord 32 0x02A45851 = some (.iadd ⟨false, 20, 34, 48, 5, true⟩) ∧
    decodeTableWord 32 0x82A45853 = some (.isub ⟨true, 20, 34, 48, 5, true⟩) ∧
    decodeTableWord 32 0x02A45855 = some (.imul ⟨false, 20, 34, 48, 5, true⟩) ∧
    decodeTableWord 32 0x82A45857 = some (.imulh ⟨true, 20, 34, 48, 5, true⟩) ∧
    decodeTableWord 32 0x02A4585A = some (.imin ⟨false, 20, 34, 48, 5, true⟩) ∧
    decodeTableWord 32 0x82A4585B = some (.imax ⟨true, 20, 34, 48, 5, true⟩) ∧
    decodeTableWord 32 0x02A4585D = some (.div ⟨false, 20, 34, 48, 5, true⟩) ∧
    decodeTableWord 32 0x82A4585F = some (.rem ⟨true, 20, 34, 48, 5, true⟩) ∧
    decodeTableWord 32 0x04A45851 = some (.iadd64 ⟨false, 20, 34, 48, 5, true⟩) ∧
    decodeTableWord 32 0x84A45853 = some (.isub64 ⟨true, 20, 34, 48, 5, true⟩) := by decide

theorem test_decode_majors_02_03_2 : decodeTableWord 32 0x04A45855 = some (.imul64 ⟨false, 20, 34, 48, 5, true⟩) ∧
    decodeTableWord 32 0x84A45857 = some (.imulh64 ⟨true, 20, 34, 48, 5, true⟩) ∧
    decodeTableWord 32 0x04A4585A = some (.imin64 ⟨false, 20, 34, 48, 5, true⟩) ∧
    decodeTableWord 32 0x84A4585B = some (.imax64 ⟨true, 20, 34, 48, 5, true⟩) ∧
    decodeTableWord 32 0x04A4585D = some (.div64 ⟨false, 20, 34, 48, 5, true⟩) ∧
    decodeTableWord 32 0x84A4585F = some (.rem64 ⟨true, 20, 34, 48, 5, true⟩) ∧
    decodeTableWord 32 0x06A45850 = some (.andR ⟨false, 20, 34, 48, 5⟩) ∧
    decodeTableWord 32 0x86A45851 = some (.orR ⟨true, 20, 34, 48, 5⟩) ∧
    decodeTableWord 32 0x06A45852 = some (.xorR ⟨false, 20, 34, 48, 5⟩) ∧
    decodeTableWord 32 0x86A45853 = some (.andn ⟨true, 20, 34, 48, 5⟩) := by decide

theorem test_decode_majors_03_3 : decodeTableWord 32 0x06A45854 = some (.shl ⟨false, 20, 34, 48, 5⟩) ∧
    decodeTableWord 32 0x86A45855 = some (.shr ⟨true, 20, 34, 48, 5⟩) ∧
    decodeTableWord 32 0x06A45856 = some (.sar ⟨false, 20, 34, 48, 5⟩) ∧
    decodeTableWord 32 0x86A45857 = some (.rol ⟨true, 20, 34, 48, 5⟩) ∧
    decodeTableWord 32 0x06A44058 = some (.popc ⟨false, 20, 34, 5⟩) ∧
    decodeTableWord 32 0x86A44059 = some (.clz ⟨true, 20, 34, 5⟩) ∧
    decodeTableWord 32 0x06A4405A = some (.brev ⟨false, 20, 34, 5⟩) ∧
    decodeTableWord 32 0x86A4585B = some (.shlW64 ⟨true, 20, 34, 48, 5⟩) ∧
    decodeTableWord 32 0x06A4585C = some (.shrW64 ⟨false, 20, 34, 48, 5⟩) ∧
    decodeTableWord 32 0x86A4585D = some (.sarI64 ⟨true, 20, 34, 48, 5⟩) := by decide

theorem test_decode_majors_04_05_4 : decodeTableWord 32 0x08F45857 = some (.icmp ⟨false, 3, 6, 34, 48, 5, 7⟩) ∧
    decodeTableWord 32 0x88F4585A = some (.testW32 ⟨true, 3, 6, 34, 48, 5⟩) ∧
    decodeTableWord 32 0x0AA45850 = some (.fadd ⟨false, 20, 34, 48, 5⟩) ∧
    decodeTableWord 32 0x8AA45851 = some (.fsub ⟨true, 20, 34, 48, 5⟩) ∧
    decodeTableWord 32 0x0AA45852 = some (.fmul ⟨false, 20, 34, 48, 5⟩) ∧
    decodeTableWord 32 0x8AA45853 = some (.fdiv ⟨true, 20, 34, 48, 5⟩) ∧
    decodeTableWord 32 0x0AA44054 = some (.fsqrt ⟨false, 20, 34, 5⟩) ∧
    decodeTableWord 32 0x8AA45855 = some (.fmin ⟨true, 20, 34, 48, 5⟩) ∧
    decodeTableWord 32 0x0AA45856 = some (.fmax ⟨false, 20, 34, 48, 5⟩) ∧
    decodeTableWord 32 0x8AA44057 = some (.fabs ⟨true, 20, 34, 5⟩) := by decide

theorem test_decode_majors_05_06_5 : decodeTableWord 32 0x0AA44058 = some (.fneg ⟨false, 20, 34, 5⟩) ∧
    decodeTableWord 32 0x8AA45859 = some (.fcpys ⟨true, 20, 34, 48, 5⟩) ∧
    decodeTableWord 32 0x0AA4405A = some (.frnd ⟨false, 20, 34, 5⟩) ∧
    decodeTableWord 32 0x8AA4405B = some (.fclass ⟨true, 20, 34, 5⟩) ∧
    decodeTableWord 32 0x0CA45850 = some (.faddF64 ⟨false, 20, 34, 48, 5⟩) ∧
    decodeTableWord 32 0x8CA45851 = some (.fsubF64 ⟨true, 20, 34, 48, 5⟩) ∧
    decodeTableWord 32 0x0CA45852 = some (.fmulF64 ⟨false, 20, 34, 48, 5⟩) ∧
    decodeTableWord 32 0x8CA45853 = some (.fdivF64 ⟨true, 20, 34, 48, 5⟩) ∧
    decodeTableWord 32 0x0CA44054 = some (.fsqrtF64 ⟨false, 20, 34, 5⟩) ∧
    decodeTableWord 32 0x8CA45855 = some (.fminF64 ⟨true, 20, 34, 48, 5⟩) := by decide

theorem test_decode_majors_06_07_6 : decodeTableWord 32 0x0CA45856 = some (.fmaxF64 ⟨false, 20, 34, 48, 5⟩) ∧
    decodeTableWord 32 0x8CA44057 = some (.fabsF64 ⟨true, 20, 34, 5⟩) ∧
    decodeTableWord 32 0x0CA44058 = some (.fnegF64 ⟨false, 20, 34, 5⟩) ∧
    decodeTableWord 32 0x8CA45859 = some (.fcpysF64 ⟨true, 20, 34, 48, 5⟩) ∧
    decodeTableWord 32 0x0CA4405A = some (.frndF64 ⟨false, 20, 34, 5⟩) ∧
    decodeTableWord 32 0x8CA4405B = some (.fclassF64 ⟨true, 20, 34, 5⟩) ∧
    decodeTableWord 32 0x0EA45850 = some (.haddF16 ⟨false, 20, 34, 48, 5⟩) ∧
    decodeTableWord 32 0x8EA45851 = some (.hsubF16 ⟨true, 20, 34, 48, 5⟩) ∧
    decodeTableWord 32 0x0EA45852 = some (.hmulF16 ⟨false, 20, 34, 48, 5⟩) ∧
    decodeTableWord 32 0x8EA45853 = some (.hminF16 ⟨true, 20, 34, 48, 5⟩) := by decide

theorem test_decode_majors_07_0a_7 : decodeTableWord 32 0x0EA45854 = some (.hmaxF16 ⟨false, 20, 34, 48, 5⟩) ∧
    decodeTableWord 32 0x8EA45855 = some (.haddBf16 ⟨true, 20, 34, 48, 5⟩) ∧
    decodeTableWord 32 0x0EA45856 = some (.hsubBf16 ⟨false, 20, 34, 48, 5⟩) ∧
    decodeTableWord 32 0x8EA45857 = some (.hmulBf16 ⟨true, 20, 34, 48, 5⟩) ∧
    decodeTableWord 32 0x0EA45858 = some (.hminBf16 ⟨false, 20, 34, 48, 5⟩) ∧
    decodeTableWord 32 0x8EA45859 = some (.hmaxBf16 ⟨true, 20, 34, 48, 5⟩) ∧
    decodeTableWord 32 0x10F45856 = some (.fcmp ⟨false, 3, 6, 34, 48, 5, true, 2⟩) ∧
    decodeTableWord 32 0x92A44C59 = some (.cvt ⟨true, 20, 34, 6, 5, 9⟩) ∧
    decodeTableWord 32 0x14A44050 = some (.recipF32 ⟨false, 20, 34, 5⟩) ∧
    decodeTableWord 32 0x94A44051 = some (.rrootF32 ⟨true, 20, 34, 5⟩) := by decide

theorem test_decode_majors_0a_0b_8 : decodeTableWord 32 0x14A44052 = some (.exp2 ⟨false, 20, 34, 5⟩) ∧
    decodeTableWord 32 0x94A44053 = some (.log2 ⟨true, 20, 34, 5⟩) ∧
    decodeTableWord 32 0x14A44054 = some (.sin ⟨false, 20, 34, 5⟩) ∧
    decodeTableWord 32 0x94A44055 = some (.cos ⟨true, 20, 34, 5⟩) ∧
    decodeTableWord 32 0x14A44056 = some (.tanh ⟨false, 20, 34, 5⟩) ∧
    decodeTableWord 32 0x94A44057 = some (.recipF64 ⟨true, 20, 34, 5⟩) ∧
    decodeTableWord 32 0x14A44058 = some (.rrootF64 ⟨false, 20, 34, 5⟩) ∧
    decodeTableWord 32 0x96A44050 = some (.mov ⟨true, 20, 34, 5⟩) ∧
    decodeTableWord 32 0x16A44051 = some (.movD ⟨false, 20, 34, 5⟩) ∧
    decodeTableWord 32 0x96A44052 = some (.movFromK ⟨true, 20, 34, 5⟩) := by decide

theorem test_decode_majors_0b_9 : decodeTableWord 32 0x16A44053 = some (.movToK ⟨false, 20, 34, 5⟩) ∧
    decodeTableWord 32 0x96A10054 = some (.sread ⟨true, 20, 8, 5⟩) ∧
    decodeTableWord 32 0x16A45855 = some (.shflPick ⟨false, 20, 34, 48, 5⟩) ∧
    decodeTableWord 32 0x96A45856 = some (.shflRot ⟨true, 20, 34, 48, 5⟩) ∧
    decodeTableWord 32 0x16A45857 = some (.shflSeg ⟨false, 20, 34, 48, 5⟩) ∧
    decodeTableWord 32 0x96A45858 = some (.shflFlip ⟨true, 20, 34, 48, 5⟩) ∧
    decodeTableWord 32 0x16A44059 = some (.voteEvery ⟨false, 20, 34, 5⟩) ∧
    decodeTableWord 32 0x96A4405A = some (.voteSome ⟨true, 20, 34, 5⟩) ∧
    decodeTableWord 32 0x16A4405B = some (.voteMap ⟨false, 20, 34, 5⟩) ∧
    decodeTableWord 32 0x96A4405C = some (.voteFsum ⟨true, 20, 34, 5⟩) := by decide

theorem test_decode_majors_0b_14_10 : decodeTableWord 32 0x16A4405D = some (.voteIsum ⟨false, 20, 34, 5⟩) ∧
    decodeTableWord 32 0x98A45819 = some (.ffmaF32 ⟨true, 20, 34, 48, 12, true⟩) ∧
    decodeTableWord 32 0x1AA45819 = some (.ffmaF64 ⟨false, 20, 34, 48, 12, true⟩) ∧
    decodeTableWord 32 0x9CA45819 = some (.hfmaF16 ⟨true, 20, 34, 48, 12, true⟩) ∧
    decodeTableWord 32 0x1EA45819 = some (.hfmaBf16 ⟨false, 20, 34, 48, 12, true⟩) ∧
    decodeTableWord 32 0xA0A45819 = some (.imadI32 ⟨true, 20, 34, 48, 12, true⟩) ∧
    decodeTableWord 32 0x22A45819 = some (.imadW32 ⟨false, 20, 34, 48, 12, true⟩) ∧
    decodeTableWord 32 0xA4A4565D = some (.faddBank ⟨true, 20, 34, 5, 75, 5⟩) ∧
    decodeTableWord 32 0x26A4565D = some (.fmulBank ⟨false, 20, 34, 5, 75, 5⟩) ∧
    decodeTableWord 32 0xA8A4565D = some (.ffmac ⟨true, 20, 34, 5, 75, 5⟩) := by decide

theorem test_decode_majors_15_1f_11 : decodeTableWord 32 0x2AA4565D = some (.iaddBank ⟨false, 20, 34, 5, 75, 5⟩) ∧
    decodeTableWord 32 0xACA0165D = some (.movBank ⟨true, 20, 5, 75, 5⟩) ∧
    decodeTableWord 32 0x30A44AAD = some (.iaddImm ⟨false, 20, 34, 341, 5⟩) ∧
    decodeTableWord 32 0xB2A44AAD = some (.imulImm ⟨true, 20, 34, 341, 5⟩) ∧
    decodeTableWord 32 0x34A44AAD = some (.andImm ⟨false, 20, 34, 341, 5⟩) ∧
    decodeTableWord 32 0xB6A44AAD = some (.orImm ⟨true, 20, 34, 341, 5⟩) ∧
    decodeTableWord 32 0x38A44AAD = some (.xorImm ⟨false, 20, 34, 341, 5⟩) ∧
    decodeTableWord 32 0xBAA44AAD = some (.shlImm ⟨true, 20, 34, 341, 5⟩) ∧
    decodeTableWord 32 0x3CA44AAD = some (.shrImm ⟨false, 20, 34, 341, 5⟩) ∧
    decodeTableWord 32 0xBEA44AAD = some (.sarImm ⟨true, 20, 34, 341, 5⟩) := by decide

theorem test_decode_majors_20_28_12 : decodeTableWord 32 0x40F44AAD = some (.icmpEqImm ⟨false, 3, 6, 34, 341, 5⟩) ∧
    decodeTableWord 32 0xC2F44AAD = some (.icmpLtImm ⟨true, 3, 6, 34, 341, 5⟩) ∧
    decodeTableWord 32 0x46A21B2C = some (.movf20 ⟨false, 20, 662316⟩) ∧
    decodeTableWord 32 0xCAA21B2C = some (.movi20 ⟨true, 20, 662316⟩) ∧
    decodeTableWord 32 0x4D6ABCDE = some (.bra ⟨false, 5, 2800862⟩) ∧
    decodeTableWord 32 0xCF6ABCDE = some (.call ⟨true, 5, 2800862⟩) ∧
    decodeTableWord 32 0x50044050 = some (.brx ⟨false, 34, 5⟩) ∧
    decodeTableWord 32 0xD0A44051 = some (.callx ⟨true, 20, 34, 5⟩) ∧
    decodeTableWord 32 0x50044052 = some (.ret ⟨false, 34, 5⟩) ∧
    decodeTableWord 32 0xD0000053 = some (.exit ⟨true, 5⟩) := by decide

theorem test_decode_majors_28_2d_13 : decodeTableWord 32 0x50000054 = some (.yield ⟨false, 5⟩) ∧
    decodeTableWord 32 0xD0000055 = some (.nop ⟨true, 5⟩) ∧
    decodeTableWord 32 0x5355AA33 = some (.xlit ⟨false, 22391347⟩) ∧
    decodeTableWord 32 0xD5974000 = some (.xmod ⟨true, true, 2, false, true, 1, true, 5⟩) ∧
    decodeTableWord 32 0x5600000B = some (.dict ⟨false, 11⟩) ∧
    decodeTableWord 32 0xD8000002 = some (.sched ⟨true, 2⟩) ∧
    decodeTableWord 32 0xDA012050 = some (.join ⟨true, 9, 5⟩) ∧
    decodeTableWord 32 0x5A012051 = some (.leave ⟨false, 9, 5⟩) ∧
    decodeTableWord 32 0xDA012052 = some (.waitm ⟨true, 9, 5⟩) ∧
    decodeTableWord 32 0x5AA13853 = some (.waitmt ⟨false, 20, 9, 48, 5⟩) := by decide

theorem test_decode_majors_2d_2e_14 : decodeTableWord 32 0xDA2125D4 = some (.mand ⟨true, 4, 9, 11, 5⟩) ∧
    decodeTableWord 32 0x5A2125D5 = some (.mor ⟨false, 4, 9, 11, 5⟩) ∧
    decodeTableWord 32 0xDA2125D6 = some (.mxor ⟨true, 4, 9, 11, 5⟩) ∧
    decodeTableWord 32 0x5A2125D7 = some (.mandn ⟨false, 4, 9, 11, 5⟩) ∧
    decodeTableWord 32 0xDA212058 = some (.mmov ⟨true, 4, 9, 5⟩) ∧
    decodeTableWord 32 0x5A5C4059 = some (.mset ⟨false, 11, 34, 5⟩) ∧
    decodeTableWord 32 0xDAA1215A = some (.mget ⟨true, 20, 9, 2, 5⟩) ∧
    decodeTableWord 32 0x5CC12000 = some (.bar ⟨false, 3, 9⟩) ∧
    decodeTableWord 32 0xDC045851 = some (.tbinit ⟨true, 34, 48, 5⟩) ∧
    decodeTableWord 32 0x5CA44052 = some (.tbarrive ⟨false, 20, 34, 5⟩) := by decide

theorem test_decode_majors_2e_31_15 : decodeTableWord 32 0xDC045853 = some (.tbwait ⟨true, 34, 48, 5⟩) ∧
    decodeTableWord 32 0x5C000054 = some (.fenceRel ⟨false, 5⟩) ∧
    decodeTableWord 32 0xDC000055 = some (.fenceAcq ⟨true, 5⟩) ∧
    decodeTableWord 32 0x5C000056 = some (.fenceAr ⟨false, 5⟩) ∧
    decodeTableWord 32 0xDCA44057 = some (.tagwany ⟨true, 20, 34, 5⟩) ∧
    decodeTableWord 32 0x5C044058 = some (.tagwall ⟨false, 34, 5⟩) ∧
    decodeTableWord 32 0xDCA44059 = some (.tagfirst ⟨true, 20, 34, 5⟩) ∧
    decodeTableWord 32 0x5E0C5515 = some (.pref ⟨false, 1, 34, 5, 2, 21⟩) ∧
    decodeTableWord 32 0xE0A45555 = some (.ld ⟨true, 20, 34, 5, 2, true, 21⟩) ∧
    decodeTableWord 32 0x62A45555 = some (.st ⟨false, 20, 34, 5, 2, true, 21⟩) := by decide

theorem test_decode_majors_32_3a_16 : decodeTableWord 32 0xE4A45555 = some (.ldl ⟨true, 20, 34, 5, 2, true, 21⟩) ∧
    decodeTableWord 32 0x66A45555 = some (.stl ⟨false, 20, 34, 5, 2, true, 21⟩) ∧
    decodeTableWord 32 0xE8A45555 = some (.lds ⟨true, 20, 34, 5, 2, true, 21⟩) ∧
    decodeTableWord 32 0x6AA45555 = some (.sts ⟨false, 20, 34, 5, 2, true, 21⟩) ∧
    decodeTableWord 32 0xECA45555 = some (.ldc ⟨true, 20, 34, 5, 2, true, 21⟩) ∧
    decodeTableWord 32 0x6EA45555 = some (.stc ⟨false, 20, 34, 5, 2, true, 21⟩) ∧
    decodeTableWord 32 0xF0A45555 = some (.ldx ⟨true, 20, 34, 5, 2, true, 21⟩) ∧
    decodeTableWord 32 0x72A45555 = some (.stx ⟨false, 20, 34, 5, 2, true, 21⟩) ∧
    decodeTableWord 32 0xF4A4587A = some (.atom ⟨true, 20, 34, 48, 3, 10⟩) ∧
    decodeTableWord 32 0x74045867 = some (.red ⟨false, 34, 48, 3, 7⟩) := by decide

theorem test_decode_majors_3b_3c_3d_17 : decodeTableWord 32 0xF6A4583A = some (.atoms ⟨true, 20, 34, 48, 10⟩) ∧
    decodeTableWord 32 0x76A4585A = some (.atomc ⟨false, 20, 34, 48, 10⟩) ∧
    decodeTableWord 32 0xF6A4587A = some (.atomx ⟨true, 20, 34, 48, 10⟩) ∧
    decodeTableWord 32 0x76045827 = some (.reds ⟨false, 34, 48, 7⟩) ∧
    decodeTableWord 32 0xF6045847 = some (.redc ⟨true, 34, 48, 7⟩) ∧
    decodeTableWord 32 0x76045867 = some (.redx ⟨false, 34, 48, 7⟩) ∧
    decodeTableWord 32 0xF8A49850 = some (.cpy ⟨true, 20, 36, 48, 5⟩) ∧
    decodeTableWord 32 0x78A49851 = some (.cpyg ⟨false, 20, 36, 48, 5⟩) ∧
    decodeTableWord 32 0xF8A49852 = some (.cpys ⟨true, 20, 36, 48, 5⟩) ∧
    decodeTableWord 32 0x7A044050 = some (.tcfg ⟨false, 34, 5⟩) := by decide

theorem test_decode_majors_3d_3e_18 : decodeTableWord 32 0xFA045851 = some (.wld ⟨true, 34, 48, 5⟩) ∧
    decodeTableWord 32 0x7A000052 = some (.wswap ⟨false, 5⟩) ∧
    decodeTableWord 32 0xFA1C5853 = some (.mms ⟨true, 3, 34, 48, 5⟩) ∧
    decodeTableWord 32 0x7A1C42D4 = some (.ast ⟨false, 3, 34, 5, 5⟩) ∧
    decodeTableWord 32 0xFA144055 = some (.ald ⟨true, 2, 34, 5⟩) ∧
    decodeTableWord 32 0x7A080056 = some (.azero ⟨false, 1, 5⟩) ∧
    decodeTableWord 32 0xFAA45857 = some (.scld ⟨true, 20, 34, 48, 5⟩) ∧
    decodeTableWord 32 0x7A000008 = some (.batonPass ⟨false⟩) ∧
    decodeTableWord 32 0xFA000009 = some (.batonWait ⟨true⟩) ∧
    decodeTableWord 32 0x7C044000 = some (.solve ⟨false, 34⟩) := by decide

theorem test_decode_majors_3e_19 : decodeTableWord 32 0xFC000001 = some (.solend ⟨true⟩) ∧
    decodeTableWord 32 0x7C045852 = some (.msend ⟨false, 34, 48, 5⟩) ∧
    decodeTableWord 32 0xFC049853 = some (.rput ⟨true, 36, 48, 5⟩) ∧
    decodeTableWord 32 0x7CA48054 = some (.rget ⟨false, 20, 36, 5⟩) ∧
    decodeTableWord 32 0xFCA49855 = some (.ratom ⟨true, 20, 36, 48, 5⟩) ∧
    decodeTableWord 32 0x7CA00056 = some (.waitq ⟨false, 20, 5⟩) ∧
    decodeTableWord 32 0xFC044057 = some (.tspawn ⟨true, 34, 5⟩) ∧
    decodeTableWord 32 0x7C000058 = some (.tdone ⟨false, 5⟩) ∧
    decodeTableWord 32 0xFCA44059 = some (.launch ⟨true, 20, 34, 5⟩) ∧
    decodeTableWord 32 0x7C04405A = some (.publish ⟨false, 34, 5⟩) := by decide

theorem test_decode_majors_3e_3f_20 : decodeTableWord 32 0xFC00C05B = some (.prog ⟨true, 6, 5⟩) ∧
    decodeTableWord 32 0x7C04405C = some (.subpol ⟨false, 34, 5⟩) ∧
    decodeTableWord 32 0xFCA4405D = some (.subq ⟨true, 20, 34, 5⟩) ∧
    decodeTableWord 32 0x7E04D5D0 = some (.trap ⟨false, 2475, 5⟩) ∧
    decodeTableWord 32 0xFE000051 = some (.eret ⟨true, 5⟩) ∧
    decodeTableWord 32 0x7E0D5E52 = some (.crr ⟨false, 1, 2748, 5⟩) ∧
    decodeTableWord 32 0xFE0D5E53 = some (.crw ⟨true, 1, 2748, 5⟩) ∧
    decodeTableWord 32 0x7E045854 = some (.icinv ⟨false, 34, 48, 5⟩) ∧
    decodeTableWord 32 0xFE045855 = some (.tlbinv ⟨true, 34, 48, 5⟩) ∧
    decodeTableWord 32 0x7EA44056 = some (.bist ⟨false, 20, 34, 5⟩) := by decide

theorem test_decode_majors_3f_21 : decodeTableWord 32 0xFE000057 = some (.halt ⟨true, 5⟩) := by decide

/-- Words that the spec prints beside its entries. -/
theorem test_printed_words_1 : decodeTableWord 32 0x3038FFE8 = some (.iaddImm ⟨false, 7, 7, 0x3FD, 0⟩) ∧
    decodeTableWord 32 0x10500081 = some (.fcmp ⟨false, 1, 2, 0, 1, 0, false, 1⟩) ∧
    decodeTableWord 32 0x4413DCCC = some (.movf20 ⟨false, 2, 0x3DCCC⟩) ∧
    decodeTableWord 32 0x1610000C = some (.voteFsum ⟨false, 2, 0, 0⟩) ∧
    decodeTableWord 32 0x5007C002 = some (.ret ⟨false, 62, 0⟩) ∧
    decodeTableWord 32 0x68404202 = some (.lds ⟨false, 8, 2, 0, 4, false, 2⟩) ∧
    decodeTableWord 32 0x6630219F = some (.stl ⟨false, 6, 1, 0, 3, false, 0x1F⟩) ∧
    decodeTableWord 32 0x5E090188 = some (.pref ⟨false, 1, 8, 0, 3, 8⟩) ∧
    decodeTableWord 32 0x5C000004 = some (.fenceRel ⟨false, 0⟩) ∧
    decodeTableWord 32 0x7431017E = some (.atom ⟨false, 6, 8, 2, 3, 14⟩) ∧
    decodeTableWord 32 0x74010102 = some (.red ⟨false, 8, 2, 0, 2⟩) ∧
    decodeTableWord 32 0x76292130 = some (.atoms ⟨false, 5, 9, 2, 0⟩) ∧
    decodeTableWord 32 0x5A002000 = some (.join ⟨false, 1, 0⟩) ∧
    decodeTableWord 32 0x5A002001 = some (.leave ⟨false, 1, 0⟩) ∧
    decodeTableWord 32 0x5A002002 = some (.waitm ⟨false, 1, 0⟩) := by decide

theorem test_printed_words_2 : decodeTableWord 32 0x5A102183 = some (.waitmt ⟨false, 2, 1, 3, 0⟩) ∧
    decodeTableWord 32 0x5A084184 = some (.mand ⟨false, 1, 2, 3, 0⟩) ∧
    decodeTableWord 32 0x5A18C009 = some (.mset ⟨false, 3, 6, 0⟩) ∧
    decodeTableWord 32 0x5A20408A = some (.mget ⟨false, 4, 2, 1, 0⟩) ∧
    decodeTableWord 32 0x5C012181 = some (.tbinit ⟨false, 9, 3, 0⟩) ∧
    decodeTableWord 32 0x5C112002 = some (.tbarrive ⟨false, 2, 9, 0⟩) ∧
    decodeTableWord 32 0x5C012103 = some (.tbwait ⟨false, 9, 2, 0⟩) ∧
    decodeTableWord 32 0x5C008008 = some (.tagwall ⟨false, 4, 0⟩) ∧
    decodeTableWord 32 0x5C108007 = some (.tagwany ⟨false, 2, 4, 0⟩) ∧
    decodeTableWord 32 0x7A008000 = some (.tcfg ⟨false, 4, 0⟩) ∧
    decodeTableWord 32 0x7A004301 = some (.wld ⟨false, 2, 6, 0⟩) ∧
    decodeTableWord 32 0x7A000002 = some (.wswap ⟨false, 0⟩) ∧
    decodeTableWord 32 0x7A086384 = some (.ast ⟨false, 1, 3, 7, 0⟩) ∧
    decodeTableWord 32 0x7A10A005 = some (.ald ⟨false, 2, 5, 0⟩) ∧
    decodeTableWord 32 0x7A180006 = some (.azero ⟨false, 3, 0⟩) := by decide

theorem test_printed_words_3 : decodeTableWord 32 0x7A292507 = some (.scld ⟨false, 5, 9, 10, 0⟩) ∧
    decodeTableWord 32 0x7A000008 = some (.batonPass ⟨false⟩) ∧
    decodeTableWord 32 0x7C000001 = some (.solend ⟨false⟩) ∧
    decodeTableWord 32 0x7C010603 = some (.rput ⟨false, 8, 12, 0⟩) ∧
    decodeTableWord 32 0x7C180006 = some (.waitq ⟨false, 3, 0⟩) ∧
    decodeTableWord 32 0x7C000008 = some (.tdone ⟨false, 0⟩) ∧
    decodeTableWord 32 0x7C00A00A = some (.publish ⟨false, 5, 0⟩) ∧
    decodeTableWord 32 0x7C00600B = some (.prog ⟨false, 3, 0⟩) ∧
    decodeTableWord 32 0x7C00E00C = some (.subpol ⟨false, 7, 0⟩) ∧
    decodeTableWord 32 0x7C21200D = some (.subq ⟨false, 4, 9, 0⟩) ∧
    decodeTableWord 32 0x7E000001 = some (.eret ⟨false, 0⟩) ∧
    decodeTableWord 32 0x7E090183 = some (.crw ⟨false, 1, 0x203, 0⟩) ∧
    decodeTableWord 32 0x7E010504 = some (.icinv ⟨false, 8, 10, 0⟩) ∧
    decodeTableWord 32 0x7E106006 = some (.bist ⟨false, 2, 3, 0⟩) := by decide

/-! ## Ill-formed terms, one for each check -/

theorem test_illFormed_1 : (Instr.wf (.icmp ⟨false, 3, 6, 34, 48, 5, 10⟩) = false) ∧
    (Instr.wf (.cvt ⟨false, 20, 34, 6, 5, 14⟩) = false) ∧
    (Instr.wf (.cvt ⟨false, 20, 34, 14, 5, 9⟩) = false) ∧
    (Instr.wf (.sread ⟨false, 20, 12, 5⟩) = false) ∧
    (Instr.wf (.join ⟨false, 12, 5⟩) = false) ∧
    (Instr.wf (.leave ⟨false, 12, 5⟩) = false) ∧
    (Instr.wf (.waitm ⟨false, 12, 5⟩) = false) ∧
    (Instr.wf (.waitmt ⟨false, 20, 12, 48, 5⟩) = false) ∧
    (Instr.wf (.mand ⟨false, 4, 9, 12, 5⟩) = false) ∧
    (Instr.wf (.mand ⟨false, 4, 12, 11, 5⟩) = false) ∧
    (Instr.wf (.mand ⟨false, 12, 9, 11, 5⟩) = false) ∧
    (Instr.wf (.mor ⟨false, 4, 9, 12, 5⟩) = false) ∧
    (Instr.wf (.mor ⟨false, 4, 12, 11, 5⟩) = false) ∧
    (Instr.wf (.mor ⟨false, 12, 9, 11, 5⟩) = false) ∧
    (Instr.wf (.mxor ⟨false, 4, 9, 12, 5⟩) = false) ∧
    (Instr.wf (.mxor ⟨false, 4, 12, 11, 5⟩) = false) := by decide

theorem test_illFormed_2 : (Instr.wf (.mxor ⟨false, 12, 9, 11, 5⟩) = false) ∧
    (Instr.wf (.mandn ⟨false, 4, 9, 12, 5⟩) = false) ∧
    (Instr.wf (.mandn ⟨false, 4, 12, 11, 5⟩) = false) ∧
    (Instr.wf (.mandn ⟨false, 12, 9, 11, 5⟩) = false) ∧
    (Instr.wf (.mmov ⟨false, 4, 12, 5⟩) = false) ∧
    (Instr.wf (.mmov ⟨false, 12, 9, 5⟩) = false) ∧
    (Instr.wf (.mset ⟨false, 12, 34, 5⟩) = false) ∧
    (Instr.wf (.mget ⟨false, 20, 9, 3, 5⟩) = false) ∧
    (Instr.wf (.mget ⟨false, 20, 12, 2, 5⟩) = false) ∧
    (Instr.wf (.pref ⟨false, 1, 34, 5, 7, 21⟩) = false) ∧
    (Instr.wf (.pref ⟨false, 2, 34, 5, 2, 21⟩) = false) ∧
    (Instr.wf (.ld ⟨false, 20, 34, 5, 7, true, 21⟩) = false) ∧
    (Instr.wf (.ldl ⟨false, 20, 34, 5, 7, true, 21⟩) = false) ∧
    (Instr.wf (.lds ⟨false, 20, 34, 5, 7, true, 21⟩) = false) ∧
    (Instr.wf (.ldc ⟨false, 20, 34, 5, 7, true, 21⟩) = false) ∧
    (Instr.wf (.ldx ⟨false, 20, 34, 5, 7, true, 21⟩) = false) := by decide

theorem test_illFormed_3 : (Instr.wf (.st ⟨false, 20, 34, 5, 5, true, 21⟩) = false) ∧
    (Instr.wf (.stl ⟨false, 20, 34, 5, 5, true, 21⟩) = false) ∧
    (Instr.wf (.sts ⟨false, 20, 34, 5, 5, true, 21⟩) = false) ∧
    (Instr.wf (.stc ⟨false, 20, 34, 5, 5, true, 21⟩) = false) ∧
    (Instr.wf (.stx ⟨false, 20, 34, 5, 5, true, 21⟩) = false) ∧
    (Instr.wf (.red ⟨false, 34, 48, 3, 13⟩) = false) ∧
    (Instr.wf (.reds ⟨false, 34, 48, 13⟩) = false) ∧
    (Instr.wf (.redc ⟨false, 34, 48, 13⟩) = false) ∧
    (Instr.wf (.redx ⟨false, 34, 48, 13⟩) = false) ∧
    (Instr.wf (.mms ⟨false, 4, 34, 48, 5⟩) = false) ∧
    (Instr.wf (.ast ⟨false, 3, 34, 8, 5⟩) = false) ∧
    (Instr.wf (.ast ⟨false, 4, 34, 5, 5⟩) = false) ∧
    (Instr.wf (.ald ⟨false, 4, 34, 5⟩) = false) ∧
    (Instr.wf (.azero ⟨false, 4, 5⟩) = false) ∧
    (Instr.wf (.prog ⟨false, 8, 5⟩) = false) ∧
    (Instr.wf (.iadd64 ⟨false, 20, 34, 35, 5, true⟩) = false) := by decide

theorem test_illFormed_4 : (Instr.wf (.iadd64 ⟨false, 20, 35, 48, 5, true⟩) = false) ∧
    (Instr.wf (.iadd64 ⟨false, 21, 34, 48, 5, true⟩) = false) ∧
    (Instr.wf (.isub64 ⟨false, 20, 34, 35, 5, true⟩) = false) ∧
    (Instr.wf (.isub64 ⟨false, 20, 35, 48, 5, true⟩) = false) ∧
    (Instr.wf (.isub64 ⟨false, 21, 34, 48, 5, true⟩) = false) ∧
    (Instr.wf (.imul64 ⟨false, 20, 34, 35, 5, true⟩) = false) ∧
    (Instr.wf (.imul64 ⟨false, 20, 35, 48, 5, true⟩) = false) ∧
    (Instr.wf (.imul64 ⟨false, 21, 34, 48, 5, true⟩) = false) ∧
    (Instr.wf (.imulh64 ⟨false, 20, 34, 35, 5, true⟩) = false) ∧
    (Instr.wf (.imulh64 ⟨false, 20, 35, 48, 5, true⟩) = false) ∧
    (Instr.wf (.imulh64 ⟨false, 21, 34, 48, 5, true⟩) = false) ∧
    (Instr.wf (.imin64 ⟨false, 20, 34, 35, 5, true⟩) = false) ∧
    (Instr.wf (.imin64 ⟨false, 20, 35, 48, 5, true⟩) = false) ∧
    (Instr.wf (.imin64 ⟨false, 21, 34, 48, 5, true⟩) = false) ∧
    (Instr.wf (.imax64 ⟨false, 20, 34, 35, 5, true⟩) = false) ∧
    (Instr.wf (.imax64 ⟨false, 20, 35, 48, 5, true⟩) = false) := by decide

theorem test_illFormed_5 : (Instr.wf (.imax64 ⟨false, 21, 34, 48, 5, true⟩) = false) ∧
    (Instr.wf (.div64 ⟨false, 20, 34, 35, 5, true⟩) = false) ∧
    (Instr.wf (.div64 ⟨false, 20, 35, 48, 5, true⟩) = false) ∧
    (Instr.wf (.div64 ⟨false, 21, 34, 48, 5, true⟩) = false) ∧
    (Instr.wf (.rem64 ⟨false, 20, 34, 35, 5, true⟩) = false) ∧
    (Instr.wf (.rem64 ⟨false, 20, 35, 48, 5, true⟩) = false) ∧
    (Instr.wf (.rem64 ⟨false, 21, 34, 48, 5, true⟩) = false) ∧
    (Instr.wf (.shlW64 ⟨false, 20, 35, 48, 5⟩) = false) ∧
    (Instr.wf (.shlW64 ⟨false, 21, 34, 48, 5⟩) = false) ∧
    (Instr.wf (.shrW64 ⟨false, 20, 35, 48, 5⟩) = false) ∧
    (Instr.wf (.shrW64 ⟨false, 21, 34, 48, 5⟩) = false) ∧
    (Instr.wf (.sarI64 ⟨false, 20, 35, 48, 5⟩) = false) ∧
    (Instr.wf (.sarI64 ⟨false, 21, 34, 48, 5⟩) = false) ∧
    (Instr.wf (.icmp ⟨false, 3, 6, 34, 35, 5, 5⟩) = false) ∧
    (Instr.wf (.icmp ⟨false, 3, 6, 35, 48, 5, 5⟩) = false) ∧
    (Instr.wf (.faddF64 ⟨false, 20, 34, 35, 5⟩) = false) := by decide

theorem test_illFormed_6 : (Instr.wf (.faddF64 ⟨false, 20, 35, 48, 5⟩) = false) ∧
    (Instr.wf (.faddF64 ⟨false, 21, 34, 48, 5⟩) = false) ∧
    (Instr.wf (.fsubF64 ⟨false, 20, 34, 35, 5⟩) = false) ∧
    (Instr.wf (.fsubF64 ⟨false, 20, 35, 48, 5⟩) = false) ∧
    (Instr.wf (.fsubF64 ⟨false, 21, 34, 48, 5⟩) = false) ∧
    (Instr.wf (.fmulF64 ⟨false, 20, 34, 35, 5⟩) = false) ∧
    (Instr.wf (.fmulF64 ⟨false, 20, 35, 48, 5⟩) = false) ∧
    (Instr.wf (.fmulF64 ⟨false, 21, 34, 48, 5⟩) = false) ∧
    (Instr.wf (.fdivF64 ⟨false, 20, 34, 35, 5⟩) = false) ∧
    (Instr.wf (.fdivF64 ⟨false, 20, 35, 48, 5⟩) = false) ∧
    (Instr.wf (.fdivF64 ⟨false, 21, 34, 48, 5⟩) = false) ∧
    (Instr.wf (.fsqrtF64 ⟨false, 20, 35, 5⟩) = false) ∧
    (Instr.wf (.fsqrtF64 ⟨false, 21, 34, 5⟩) = false) ∧
    (Instr.wf (.fminF64 ⟨false, 20, 34, 35, 5⟩) = false) ∧
    (Instr.wf (.fminF64 ⟨false, 20, 35, 48, 5⟩) = false) ∧
    (Instr.wf (.fminF64 ⟨false, 21, 34, 48, 5⟩) = false) := by decide

theorem test_illFormed_7 : (Instr.wf (.fmaxF64 ⟨false, 20, 34, 35, 5⟩) = false) ∧
    (Instr.wf (.fmaxF64 ⟨false, 20, 35, 48, 5⟩) = false) ∧
    (Instr.wf (.fmaxF64 ⟨false, 21, 34, 48, 5⟩) = false) ∧
    (Instr.wf (.fabsF64 ⟨false, 20, 35, 5⟩) = false) ∧
    (Instr.wf (.fabsF64 ⟨false, 21, 34, 5⟩) = false) ∧
    (Instr.wf (.fnegF64 ⟨false, 20, 35, 5⟩) = false) ∧
    (Instr.wf (.fnegF64 ⟨false, 21, 34, 5⟩) = false) ∧
    (Instr.wf (.fcpysF64 ⟨false, 20, 34, 35, 5⟩) = false) ∧
    (Instr.wf (.fcpysF64 ⟨false, 20, 35, 48, 5⟩) = false) ∧
    (Instr.wf (.fcpysF64 ⟨false, 21, 34, 48, 5⟩) = false) ∧
    (Instr.wf (.frndF64 ⟨false, 20, 35, 5⟩) = false) ∧
    (Instr.wf (.frndF64 ⟨false, 21, 34, 5⟩) = false) ∧
    (Instr.wf (.fclassF64 ⟨false, 20, 35, 5⟩) = false) ∧
    (Instr.wf (.fcmp ⟨false, 3, 6, 34, 35, 5, true, 2⟩) = false) ∧
    (Instr.wf (.fcmp ⟨false, 3, 6, 35, 48, 5, true, 2⟩) = false) ∧
    (Instr.wf (.cvt ⟨false, 20, 35, 6, 5, 3⟩) = false) := by decide

theorem test_illFormed_8 : (Instr.wf (.cvt ⟨false, 21, 34, 7, 5, 0⟩) = false) ∧
    (Instr.wf (.recipF64 ⟨false, 20, 35, 5⟩) = false) ∧
    (Instr.wf (.recipF64 ⟨false, 21, 34, 5⟩) = false) ∧
    (Instr.wf (.rrootF64 ⟨false, 20, 35, 5⟩) = false) ∧
    (Instr.wf (.rrootF64 ⟨false, 21, 34, 5⟩) = false) ∧
    (Instr.wf (.movD ⟨false, 20, 35, 5⟩) = false) ∧
    (Instr.wf (.movD ⟨false, 21, 34, 5⟩) = false) ∧
    (Instr.wf (.sread ⟨false, 21, 7, 5⟩) = false) ∧
    (Instr.wf (.sread ⟨false, 21, 8, 5⟩) = false) ∧
    (Instr.wf (.sread ⟨false, 21, 9, 5⟩) = false) ∧
    (Instr.wf (.voteMap ⟨false, 21, 34, 5⟩) = false) ∧
    (Instr.wf (.ffmaF64 ⟨false, 20, 34, 48, 35, true⟩) = false) ∧
    (Instr.wf (.ffmaF64 ⟨false, 20, 34, 35, 12, true⟩) = false) ∧
    (Instr.wf (.ffmaF64 ⟨false, 20, 35, 48, 12, true⟩) = false) ∧
    (Instr.wf (.ffmaF64 ⟨false, 21, 34, 48, 12, true⟩) = false) ∧
    (Instr.wf (.brx ⟨false, 35, 5⟩) = false) := by decide

theorem test_illFormed_9 : (Instr.wf (.callx ⟨false, 20, 35, 5⟩) = false) ∧
    (Instr.wf (.callx ⟨false, 21, 34, 5⟩) = false) ∧
    (Instr.wf (.ret ⟨false, 35, 5⟩) = false) ∧
    (Instr.wf (.mset ⟨false, 11, 35, 5⟩) = false) ∧
    (Instr.wf (.mget ⟨false, 21, 9, 2, 5⟩) = false) ∧
    (Instr.wf (.tagwany ⟨false, 20, 35, 5⟩) = false) ∧
    (Instr.wf (.tagwany ⟨false, 21, 34, 5⟩) = false) ∧
    (Instr.wf (.tagwall ⟨false, 35, 5⟩) = false) ∧
    (Instr.wf (.tagfirst ⟨false, 20, 35, 5⟩) = false) ∧
    (Instr.wf (.pref ⟨false, 1, 35, 5, 2, 21⟩) = false) ∧
    (Instr.wf (.ld ⟨false, 20, 35, 5, 2, true, 21⟩) = false) ∧
    (Instr.wf (.ld ⟨false, 21, 34, 5, 3, true, 21⟩) = false) ∧
    (Instr.wf (.ld ⟨false, 22, 34, 5, 4, true, 21⟩) = false) ∧
    (Instr.wf (.st ⟨false, 20, 35, 5, 2, true, 21⟩) = false) ∧
    (Instr.wf (.st ⟨false, 21, 34, 5, 3, true, 21⟩) = false) ∧
    (Instr.wf (.st ⟨false, 22, 34, 5, 4, true, 21⟩) = false) := by decide

theorem test_illFormed_10 : (Instr.wf (.ldl ⟨false, 21, 34, 5, 3, true, 21⟩) = false) ∧
    (Instr.wf (.ldl ⟨false, 22, 34, 5, 4, true, 21⟩) = false) ∧
    (Instr.wf (.stl ⟨false, 21, 34, 5, 3, true, 21⟩) = false) ∧
    (Instr.wf (.stl ⟨false, 22, 34, 5, 4, true, 21⟩) = false) ∧
    (Instr.wf (.lds ⟨false, 21, 34, 5, 3, true, 21⟩) = false) ∧
    (Instr.wf (.lds ⟨false, 22, 34, 5, 4, true, 21⟩) = false) ∧
    (Instr.wf (.sts ⟨false, 21, 34, 5, 3, true, 21⟩) = false) ∧
    (Instr.wf (.sts ⟨false, 22, 34, 5, 4, true, 21⟩) = false) ∧
    (Instr.wf (.ldc ⟨false, 21, 34, 5, 3, true, 21⟩) = false) ∧
    (Instr.wf (.ldc ⟨false, 22, 34, 5, 4, true, 21⟩) = false) ∧
    (Instr.wf (.stc ⟨false, 21, 34, 5, 3, true, 21⟩) = false) ∧
    (Instr.wf (.stc ⟨false, 22, 34, 5, 4, true, 21⟩) = false) ∧
    (Instr.wf (.ldx ⟨false, 21, 34, 5, 3, true, 21⟩) = false) ∧
    (Instr.wf (.ldx ⟨false, 22, 34, 5, 4, true, 21⟩) = false) ∧
    (Instr.wf (.stx ⟨false, 21, 34, 5, 3, true, 21⟩) = false) ∧
    (Instr.wf (.stx ⟨false, 22, 34, 5, 4, true, 21⟩) = false) := by decide

theorem test_illFormed_11 : (Instr.wf (.atom ⟨false, 20, 35, 48, 3, 10⟩) = false) ∧
    (Instr.wf (.atom ⟨false, 20, 34, 21, 3, 1⟩) = false) ∧
    (Instr.wf (.atom ⟨false, 20, 34, 21, 3, 14⟩) = false) ∧
    (Instr.wf (.atom ⟨false, 20, 34, 22, 3, 15⟩) = false) ∧
    (Instr.wf (.atom ⟨false, 21, 34, 48, 3, 1⟩) = false) ∧
    (Instr.wf (.red ⟨false, 35, 48, 3, 7⟩) = false) ∧
    (Instr.wf (.red ⟨false, 34, 21, 3, 1⟩) = false) ∧
    (Instr.wf (.atoms ⟨false, 20, 34, 21, 1⟩) = false) ∧
    (Instr.wf (.atoms ⟨false, 20, 34, 21, 14⟩) = false) ∧
    (Instr.wf (.atoms ⟨false, 20, 34, 22, 15⟩) = false) ∧
    (Instr.wf (.atoms ⟨false, 21, 34, 48, 1⟩) = false) ∧
    (Instr.wf (.atomc ⟨false, 20, 34, 21, 1⟩) = false) ∧
    (Instr.wf (.atomc ⟨false, 20, 34, 21, 14⟩) = false) ∧
    (Instr.wf (.atomc ⟨false, 20, 34, 22, 15⟩) = false) ∧
    (Instr.wf (.atomc ⟨false, 21, 34, 48, 1⟩) = false) ∧
    (Instr.wf (.atomx ⟨false, 20, 34, 21, 1⟩) = false) := by decide

theorem test_illFormed_12 : (Instr.wf (.atomx ⟨false, 20, 34, 21, 14⟩) = false) ∧
    (Instr.wf (.atomx ⟨false, 20, 34, 22, 15⟩) = false) ∧
    (Instr.wf (.atomx ⟨false, 21, 34, 48, 1⟩) = false) ∧
    (Instr.wf (.reds ⟨false, 34, 21, 1⟩) = false) ∧
    (Instr.wf (.redc ⟨false, 34, 21, 1⟩) = false) ∧
    (Instr.wf (.redx ⟨false, 34, 21, 1⟩) = false) ∧
    (Instr.wf (.cpy ⟨false, 20, 36, 38, 5⟩) = false) ∧
    (Instr.wf (.cpy ⟨false, 20, 38, 48, 5⟩) = false) ∧
    (Instr.wf (.cpyg ⟨false, 20, 36, 38, 5⟩) = false) ∧
    (Instr.wf (.cpyg ⟨false, 20, 38, 48, 5⟩) = false) ∧
    (Instr.wf (.cpyg ⟨false, 22, 36, 48, 5⟩) = false) ∧
    (Instr.wf (.cpys ⟨false, 20, 36, 38, 5⟩) = false) ∧
    (Instr.wf (.cpys ⟨false, 20, 38, 48, 5⟩) = false) ∧
    (Instr.wf (.cpys ⟨false, 22, 36, 48, 5⟩) = false) ∧
    (Instr.wf (.tcfg ⟨false, 35, 5⟩) = false) ∧
    (Instr.wf (.wld ⟨false, 34, 35, 5⟩) = false) := by decide

theorem test_illFormed_13 : (Instr.wf (.mms ⟨false, 3, 34, 35, 5⟩) = false) ∧
    (Instr.wf (.scld ⟨false, 20, 34, 35, 5⟩) = false) ∧
    (Instr.wf (.msend ⟨false, 35, 48, 5⟩) = false) ∧
    (Instr.wf (.rput ⟨false, 38, 48, 5⟩) = false) ∧
    (Instr.wf (.rget ⟨false, 20, 38, 5⟩) = false) ∧
    (Instr.wf (.ratom ⟨false, 20, 38, 48, 5⟩) = false) ∧
    (Instr.wf (.tspawn ⟨false, 35, 5⟩) = false) ∧
    (Instr.wf (.launch ⟨false, 20, 35, 5⟩) = false) ∧
    (Instr.wf (.subq ⟨false, 21, 34, 5⟩) = false) ∧
    (Instr.wf (.icinv ⟨false, 35, 48, 5⟩) = false) ∧
    (Instr.wf (.tlbinv ⟨false, 35, 48, 5⟩) = false) := by decide

end Sys2Proof.Tests
end

section
/-!
The arithmetic statements O2 and O3. What the integer, logic and shift instructions write is a function of the model
(`divInt`, `shlBy`, `leadingZeros`, ...); each of these is first given by an operation on bit vectors, for every width where
the function has one, and `writesReg_of` and `writesPair_of` then carry the equations to the instructions.
-/
namespace Sys2Proof.Machine

/-! ## The value a type reads -/

theorem asInt_eq_rdInt {n : Nat} (u : Bool) (x : BitVec n) : asInt u x = rdInt u x := rfl

theorem rdInt_inj {n : Nat} {u : Bool} {x y : BitVec n} (h : rdInt u x = rdInt u y) : x = y := by
  rw [← ofInt_rdInt u x, h, ofInt_rdInt]

@[simp] theorem rdInt_zero {n : Nat} (u : Bool) : rdInt u (0 : BitVec n) = 0 := by
  cases u
  · exact BitVec.toInt_zero
  · simp [rdInt_unsigned]

theorem rdInt_ne_zero {n : Nat} {u : Bool} {x : BitVec n} (h : x ≠ 0) : rdInt u x ≠ 0 :=
  fun e => h (rdInt_inj (e.trans (rdInt_zero u).symm))

/-! ## High word, smaller and larger (R276) -/

theorem mulHigh_eq {n : Nat} (u : Bool) (x y : BitVec n) :
    mulHigh n u x y = BitVec.ofInt n (asInt u x * asInt u y / 2 ^ n) := by
  rw [mulHigh, Int.natCast_pow, Int.cast_ofNat_Int, asInt_eq_rdInt, asInt_eq_rdInt]

theorem minInt_eq {n : Nat} (u : Bool) (x y : BitVec n) : minInt n u x y = if asInt u x ≤ asInt u y then x else y := by
  simp only [minInt, asInt_eq_rdInt, ← Int.not_lt, ite_not]

/-- Where the values are equal so are the words, so it does not matter which operand a tie gives. -/
theorem maxInt_eq {n : Nat} (u : Bool) (x y : BitVec n) : maxInt n u x y = if asInt u x ≤ asInt u y then y else x := by
  rw [maxInt, asInt_eq_rdInt, asInt_eq_rdInt]
  rcases Int.lt_trichotomy (rdInt u x) (rdInt u y) with h | h | h
  · rw [if_pos h, if_pos (Int.le_of_lt h)]
  · rw [rdInt_inj h, ite_self, ite_self]
  · rw [if_neg (Int.lt_asymm h), if_neg (Int.not_le.mpr h)]

/-! ## Quotient and remainder (R86) -/

theorem divInt_unsigned {n : Nat} (x y : BitVec n) : divInt n true x y = x / y := by
  rw [divInt, rdInt_unsigned, rdInt_unsigned, ← Int.ofNat_tdiv, ← BitVec.toNat_udiv, ← rdInt_unsigned, ofInt_rdInt]

theorem divInt_signed {n : Nat} (x y : BitVec n) : divInt n false x y = x.sdiv y :=
  BitVec.eq_of_toInt_eq (by rw [divInt, BitVec.toInt_ofInt, BitVec.toInt_sdiv, rdInt_signed, rdInt_signed])

theorem remInt_unsigned {n : Nat} (x y : BitVec n) : remInt n true x y = x % y := by
  rw [remInt, rdInt_unsigned, rdInt_unsigned, ← Int.ofNat_tmod, ← BitVec.toNat_umod, ← rdInt_unsigned, ofInt_rdInt]

theorem remInt_signed {n : Nat} (x y : BitVec n) : remInt n false x y = x.srem y := by
  rw [remInt, rdInt_signed, rdInt_signed, ← BitVec.toInt_srem, BitVec.ofInt_toInt]

theorem divInt_eq {n : Nat} (u : Bool) (x y : BitVec n) : divInt n u x y = if u then x / y else x.sdiv y := by
  cases u
  · exact divInt_signed x y
  · exact divInt_unsigned x y

theorem remInt_eq {n : Nat} (u : Bool) (x y : BitVec n) : remInt n u x y = if u then x % y else x.srem y := by
  cases u
  · exact remInt_signed x y
  · exact remInt_unsigned x y

theorem divInt_zero {n : Nat} (u : Bool) (x : BitVec n) : divInt n u x 0 = 0 := by
  rw [divInt, rdInt_zero, Int.tdiv_zero]; rfl

theorem remInt_zero {n : Nat} (u : Bool) (x : BitVec n) : remInt n u x 0 = x := by
  rw [remInt, rdInt_zero, Int.tmod_zero, ofInt_rdInt]

/-- The remainder always fits its type. -/
theorem rdInt_remInt {n : Nat} (u : Bool) (x y : BitVec n) : rdInt u (remInt n u x y) = (rdInt u x).tmod (rdInt u y) := by
  cases u
  · rw [remInt_signed]; exact BitVec.toInt_srem x y
  · rw [remInt_unsigned, rdInt_unsigned, BitVec.toNat_umod]; exact Int.ofNat_tmod ..

/-- The quotient fits its type, the most negative dividend by −1 apart. -/
theorem rdInt_divInt {n : Nat} {u : Bool} {x y : BitVec n} (h : ¬ (u = false ∧ x = BitVec.intMin n ∧ y = -1)) :
    rdInt u (divInt n u x y) = (rdInt u x).tdiv (rdInt u y) := by
  cases u
  · rw [divInt_signed]
    exact BitVec.toInt_sdiv_of_ne_or_ne x y (Decidable.not_and_iff_not_or_not.mp fun e => h ⟨rfl, e⟩)
  · rw [divInt_unsigned, rdInt_unsigned, BitVec.toNat_udiv]; exact Int.ofNat_tdiv ..

/-- R86: the quotient is truncated toward zero, and the remainder, smaller than the divisor, has the sign of the dividend. -/
theorem divInt_remInt_truncate {n : Nat} {u : Bool} {x y : BitVec n} (hy : y ≠ 0)
    (h : ¬ (u = false ∧ x = BitVec.intMin n ∧ y = -1)) :
    asInt u x = asInt u (divInt n u x y) * asInt u y + asInt u (remInt n u x y) ∧
    (asInt u (remInt n u x y)).natAbs < (asInt u y).natAbs ∧
    (0 ≤ asInt u x → 0 ≤ asInt u (remInt n u x y)) ∧ (asInt u x ≤ 0 → asInt u (remInt n u x y) ≤ 0) := by
  simp only [asInt_eq_rdInt, rdInt_divInt h, rdInt_remInt]
  refine ⟨(Int.tdiv_mul_add_tmod _ _).symm, ?_, Int.tmod_nonneg _, fun hx => ?_⟩
  · rw [Int.natAbs_tmod]
    exact Nat.mod_lt _ (Int.natAbs_pos.mpr (rdInt_ne_zero hy))
  · have : 0 ≤ (-rdInt u x).tmod (rdInt u y) := Int.tmod_nonneg _ (Int.neg_nonneg_of_nonpos hx)
    rwa [Int.neg_tmod, Int.neg_nonneg] at this

/-! ## Shifts by a whole count (R87) -/

theorem shlBy_eq {n : Nat} (x : BitVec n) (y : Word) : shlBy x y = x <<< y.toNat :=
  ite_eq_right_iff.mpr fun h => (BitVec.shiftLeft_eq_zero h).symm

theorem shrBy_eq {n : Nat} (x : BitVec n) (y : Word) : shrBy x y = x >>> y.toNat :=
  ite_eq_right_iff.mpr fun h => (BitVec.ushiftRight_eq_zero h).symm

/-- Every bit of an arithmetic shift by the width or more is the sign. -/
theorem sshiftRight_of_width_le {n c : Nat} (x : BitVec n) (h : n ≤ c) : x.sshiftRight c = if x.toInt < 0 then -1 else 0 := by
  cases hs : x.msb
  · have hx : ¬ x.toInt < 0 := Int.not_lt.mpr (BitVec.toInt_nonneg_of_msb_false hs)
    rw [if_neg hx, BitVec.sshiftRight_eq_of_msb_false hs, BitVec.ushiftRight_eq_zero h]; rfl
  · rw [if_pos (BitVec.toInt_neg_of_msb_true hs), BitVec.sshiftRight_eq_of_msb_true hs, BitVec.ushiftRight_eq_zero h,
      BitVec.not_zero]
    exact BitVec.neg_one_eq_allOnes.symm

theorem sarBy_eq {n : Nat} (x : BitVec n) (y : Word) : sarBy x y = x.sshiftRight y.toNat := by
  rw [sarBy]
  rcases Nat.le_total y.toNat n with h | h
  · rw [Nat.min_eq_left h]
  · rw [Nat.min_eq_right h, sshiftRight_of_width_le x h, sshiftRight_of_width_le x (Nat.le_refl n)]

/-- A rotation is already modulo the width. -/
theorem rotateLeft_mod {n : Nat} (x : BitVec n) (c : Nat) :
    x.rotateLeft (c % n) = x <<< (c % n) ||| x >>> (n - c % n) := by
  rw [BitVec.rotateLeft_def, Nat.mod_mod]

/-! ## Bits of a word (R279) -/

/-- The elements of a range before the first that fails `p`. -/
theorem length_takeWhile_range {p : Nat → Bool} {n k : Nat} (hk : k < n) (hp : ∀ i, i < k → p i = true) (h : p k = false) :
    ((List.range n).takeWhile p).length = k := by
  obtain ⟨m, rfl⟩ : ∃ m, n = k + (m + 1) := ⟨n - k - 1, by omega⟩
  rw [List.range_add, List.takeWhile_append_of_pos fun i hi => hp i (List.mem_range.mp hi), List.range_succ_eq_map,
    List.map_cons, List.takeWhile_cons_of_neg (by simp [h]), List.append_nil, List.length_range]

theorem leadingZeros_of_ne_zero {x : Word} (hx : x ≠ 0) : leadingZeros x = BitVec.ofNat 32 (31 - Nat.log2 x.toNat) := by
  have hn : x.toNat ≠ 0 := fun e => hx (BitVec.eq_of_toNat_eq e)
  have hlog : x.toNat.log2 < 32 := (Nat.log2_lt hn).mpr x.isLt
  refine congrArg (BitVec.ofNat 32) (length_takeWhile_range (by omega) (fun i hi => ?_) ?_)
  · have habove : x.toNat < 2 ^ (31 - i) :=
      Nat.lt_of_lt_of_le Nat.lt_log2_self (Nat.pow_le_pow_right Nat.two_pos (by omega))
    rw [BitVec.getLsbD, Nat.testBit_lt_two_pow habove, Bool.not_false]
  · rw [BitVec.getLsbD, show 31 - (31 - x.toNat.log2) = x.toNat.log2 by omega, Nat.testBit_log2 hn, Bool.not_true]

theorem leadingZeros_eq (x : Word) :
    leadingZeros x = if x = 0 then 32 else BitVec.ofNat 32 (31 - Nat.log2 x.toNat) := by
  split
  · next h => rw [h]; decide
  · next h => exact leadingZeros_of_ne_zero h

/-- The first `k` steps of `bitReverse` have gathered the upper `k` bits of the reversed word. -/
theorem bitReverse_fold (x : Word) (k : Nat) (hk : k ≤ 32) :
    (upto k).foldl (fun v i => if x.getLsbD i then v + 2 ^ (31 - i) else v) 0 + x.reverse.toNat % 2 ^ (32 - k) =
      x.reverse.toNat := by
  induction k with
  | zero => simp [upto, Nat.mod_eq_of_lt x.reverse.isLt]
  | succ k ih =>
    have hbit : x.reverse.toNat / 2 ^ (31 - k) % 2 = (x.getLsbD k).toNat := by
      rw [← Nat.toNat_testBit, BitVec.testBit_toNat, BitVec.getLsbD_reverse, BitVec.getMsbD_eq_getLsbD,
        show 32 - 1 - (31 - k) = k by omega, decide_eq_true (show 31 - k < 32 by omega), Bool.true_and]
    have hmod : x.reverse.toNat % 2 ^ (32 - k) = x.reverse.toNat % 2 ^ (31 - k) + 2 ^ (31 - k) * (x.getLsbD k).toNat := by
      rw [show 32 - k = 31 - k + 1 by omega, Nat.mod_pow_succ, hbit]
    rw [upto] at ih ⊢
    rw [List.range_succ, List.foldl_append, List.foldl_cons, List.foldl_nil, show 32 - (k + 1) = 31 - k by omega]
    have hfold := ih (by omega)
    rw [hmod] at hfold
    cases hx : x.getLsbD k with
    | false =>
      rw [hx, Bool.toNat_false] at hfold
      rw [if_neg Bool.false_ne_true]
      omega
    | true =>
      rw [hx, Bool.toNat_true] at hfold
      rw [if_pos rfl]
      omega

theorem bitReverse_eq (x : Word) : bitReverse x = x.reverse := by
  have h := bitReverse_fold x 32 (Nat.le_refl 32)
  rw [Nat.sub_self, Nat.pow_zero, Nat.mod_one, Nat.add_zero] at h
  rw [bitReverse, h, BitVec.ofNat_toNat, BitVec.setWidth_eq]

/-- The payload of an `XLIT` is the upper 22 bits of the immediate that it completes (R258). -/
theorem imm_eq_immediate (t : Thread) (i : BitVec 10) (signed : Bool) : t.imm i signed = immediate t i signed := by
  unfold Thread.imm immediate
  cases t.xlit with
  | none => rfl
  | some p =>
    refine BitVec.eq_of_toNat_eq ?_
    simp only [BitVec.toNat_ofNat, BitVec.toNat_setWidth, BitVec.toNat_append]
    rw [← Nat.shiftLeft_add_eq_or_of_lt i.isLt, Nat.shiftLeft_eq]

/-! ## The instructions -/

/-- An instruction writes `v'` where the model's own result `v` is equal to it. -/
theorem writesReg_of_eq {i : Instr} {d : Reg6} {v v' : Thread → Word} (hv : ∀ t, v t = v' t)
    (he : ∀ s, exec i s = execPure i s fun t => t.setReg d (v t)) : WritesReg i d v' :=
  (writesReg_of d v he).congr hv

theorem writesPair_of_eq {i : Instr} {d : Reg6} {v v' : Thread → DWord} (hv : ∀ t, v t = v' t)
    (he : ∀ s, exec i s = execPure i s fun t => t.setPair d (v t)) : WritesPair i d v' :=
  (writesPair_of d v he).congr hv

/-- Settles O2: each result is the operation that `mulHigh_eq` to `remInt_eq` give; R86 is the truncated division of the
integers, whose quotient and remainder fit the type but for the most negative value by −1. -/
theorem integerHighMinMaxQuotient : Obligations.IntegerHighMinMaxQuotient := by
  unfold Obligations.IntegerHighMinMaxQuotient
  refine ⟨fun f => ⟨?imulh, ?imulh64, ?imin, ?imin64, ?imax, ?imax64, ?div, ?div64, ?rem, ?rem64⟩,
    fun u x => ⟨divInt_zero u x, remInt_zero u x⟩, fun u x => ⟨divInt_zero u x, remInt_zero u x⟩,
    by decide, by decide, by decide, by decide, by decide, by decide,
    fun _ _ _ => divInt_remInt_truncate, fun _ _ _ => divInt_remInt_truncate⟩
  case imulh => exact writesReg_of_eq (fun t => mulHigh_eq f.u (t.reg f.a) (t.reg f.b)) fun _ => rfl
  case imulh64 => exact writesPair_of_eq (fun t => mulHigh_eq f.u (t.pair f.a) (t.pair f.b)) fun _ => rfl
  case imin => exact writesReg_of_eq (fun t => minInt_eq f.u (t.reg f.a) (t.reg f.b)) fun _ => rfl
  case imin64 => exact writesPair_of_eq (fun t => minInt_eq f.u (t.pair f.a) (t.pair f.b)) fun _ => rfl
  case imax => exact writesReg_of_eq (fun t => maxInt_eq f.u (t.reg f.a) (t.reg f.b)) fun _ => rfl
  case imax64 => exact writesPair_of_eq (fun t => maxInt_eq f.u (t.pair f.a) (t.pair f.b)) fun _ => rfl
  case div => exact writesReg_of_eq (fun t => divInt_eq f.u (t.reg f.a) (t.reg f.b)) fun _ => rfl
  case div64 => exact writesPair_of_eq (fun t => divInt_eq f.u (t.pair f.a) (t.pair f.b)) fun _ => rfl
  case rem => exact writesReg_of_eq (fun t => remInt_eq f.u (t.reg f.a) (t.reg f.b)) fun _ => rfl
  case rem64 => exact writesPair_of_eq (fun t => remInt_eq f.u (t.pair f.a) (t.pair f.b)) fun _ => rfl

/-- Settles O3: a count of at least the width shifts every bit out, which is what the model's `shlBy`, `shrBy` and `sarBy`
answer for it; the bit counts and the reversal are those of the whole word. -/
theorem logicAndShifts : Obligations.LogicAndShifts := by
  unfold Obligations.LogicAndShifts
  refine ⟨fun f => ⟨?andR, ?orR, ?xorR, ?andn, ?shl, ?shr, ?sar, ?rol, ?shlW64, ?shrW64, ?sarI64⟩,
    fun f => ⟨?andImm, ?orImm, ?xorImm, ?shlImm, ?shrImm, ?sarImm⟩, fun f => ⟨?popc, ?clz, ?brev⟩,
    fun n c x h => ⟨BitVec.shiftLeft_eq_zero h, BitVec.ushiftRight_eq_zero h, sshiftRight_of_width_le x h⟩⟩
  case andR => exact writesReg_of f.d _ fun _ => rfl
  case orR => exact writesReg_of f.d _ fun _ => rfl
  case xorR => exact writesReg_of f.d _ fun _ => rfl
  case andn => exact writesReg_of f.d _ fun _ => rfl
  case shl => exact writesReg_of_eq (fun t => shlBy_eq (t.reg f.a) (t.reg f.b)) fun _ => rfl
  case shr => exact writesReg_of_eq (fun t => shrBy_eq (t.reg f.a) (t.reg f.b)) fun _ => rfl
  case sar => exact writesReg_of_eq (fun t => sarBy_eq (t.reg f.a) (t.reg f.b)) fun _ => rfl
  case rol => exact writesReg_of_eq (fun t => rotateLeft_mod (t.reg f.a) (t.reg f.b).toNat) fun _ => rfl
  case shlW64 => exact writesPair_of_eq (fun t => shlBy_eq (t.pair f.a) (t.reg f.b)) fun _ => rfl
  case shrW64 => exact writesPair_of_eq (fun t => shrBy_eq (t.pair f.a) (t.reg f.b)) fun _ => rfl
  case sarI64 => exact writesPair_of_eq (fun t => sarBy_eq (t.pair f.a) (t.reg f.b)) fun _ => rfl
  case andImm => exact writesReg_of_eq (fun t => congrArg (t.reg f.a &&& ·) (imm_eq_immediate t f.i false)) fun _ => rfl
  case orImm => exact writesReg_of_eq (fun t => congrArg (t.reg f.a ||| ·) (imm_eq_immediate t f.i false)) fun _ => rfl
  case xorImm => exact writesReg_of_eq (fun t => congrArg (t.reg f.a ^^^ ·) (imm_eq_immediate t f.i false)) fun _ => rfl
  case shlImm => exact writesReg_of_eq (fun t => imm_eq_immediate t f.i false ▸ shlBy_eq (t.reg f.a) _) fun _ => rfl
  case shrImm => exact writesReg_of_eq (fun t => imm_eq_immediate t f.i false ▸ shrBy_eq (t.reg f.a) _) fun _ => rfl
  case sarImm => exact writesReg_of_eq (fun t => imm_eq_immediate t f.i false ▸ sarBy_eq (t.reg f.a) _) fun _ => rfl
  case popc => exact writesReg_of f.d _ fun _ => rfl
  case clz => exact writesReg_of_eq (fun t => leadingZeros_eq (t.reg f.a)) fun _ => rfl
  case brev => exact writesReg_of_eq (fun t => bitReverse_eq (t.reg f.a)) fun _ => rfl

end Sys2Proof.Machine
end

section
/-!
The integer statements O4 and O5. The model's saturation is that of `wrapOr`, and its relations are those of `compared`;
`writesReg_of_eq` and `writesPreds_of_eq` carry these equations to the instructions.
-/
namespace Sys2Proof.Machine

/-! ## Results in the range of a type (R83, R85) -/

theorem intLo_le_intHi (signed : Bool) (n : Nat) : intLo signed n ≤ intHi signed n := by
  cases signed
  · have hpos := Nat.two_pow_pos n
    simp only [intLo, intHi, Bool.false_eq_true, if_false]
    omega
  · have hpos := Nat.two_pow_pos (n - 1)
    simp only [intLo, intHi, if_true]
    omega

theorem intResult_eq_wrapOr (n : Nat) (u sat : Bool) (v : Int) : intResult n u sat v = wrapOr n u sat v := by
  rw [intResult, wrapOr, clampInt_eq _ _ _ (intLo_le_intHi (!u) n)]
  cases sat
  · rfl
  · cases u <;> simp [intLo, intHi]

theorem addInt_eq {n : Nat} (u sat : Bool) (x y : BitVec n) : addInt n u sat x y = wrapOr n u sat (asInt u x + asInt u y) :=
  intResult_eq_wrapOr ..

theorem mulInt_eq {n : Nat} (u sat : Bool) (x y : BitVec n) : mulInt n u sat x y = wrapOr n u sat (asInt u x * asInt u y) :=
  intResult_eq_wrapOr ..

/-! ## Multiply-add (R278) -/

theorem madInt_eq (u n sat : Bool) (x y z : Word) :
    madInt u n sat x y z =
      wrapOr 32 u sat ((if n then -(asInt u x * asInt u y) else asInt u x * asInt u y) + asInt u z) :=
  intResult_eq_wrapOr ..

/-- Without saturation the multiply-add is that of words, in which the signedness of the operands has no part. -/
theorem madInt_wrap (u n : Bool) (x y z : Word) : madInt u n false x y z = (if n then -(x * y) else x * y) + z := by
  unfold madInt intResult
  cases n <;>
    simp only [Bool.false_eq_true, if_false, if_true, BitVec.ofInt_add, BitVec.ofInt_neg, BitVec.ofInt_mul, ofInt_rdInt]

/-- Settles O4: the model's result is `wrapOr` of the exact one, on the operands as the type reads them; the two majors write
the same bits without saturation because both then compute in words. -/
theorem immediatesAndMultiplyAdd : Obligations.ImmediatesAndMultiplyAdd := by
  unfold Obligations.ImmediatesAndMultiplyAdd
  refine ⟨fun f => ⟨?iaddImm, ?imulImm⟩, fun f => ⟨?imadI32, ?imadW32, fun x y z => ?sameBits⟩⟩
  case iaddImm =>
    exact writesReg_of_eq (fun t => imm_eq_immediate t f.i true ▸ addInt_eq false t.satur (t.reg f.a) _) fun _ => rfl
  case imulImm =>
    exact writesReg_of_eq (fun t => imm_eq_immediate t f.i true ▸ mulInt_eq false t.satur (t.reg f.a) _) fun _ => rfl
  case imadI32 =>
    exact writesReg_of_eq (fun t => madInt_eq false f.n t.satur (t.reg f.a) (t.reg f.b) (t.reg f.c)) fun _ => rfl
  case imadW32 =>
    exact writesReg_of_eq (fun t => madInt_eq true f.n t.satur (t.reg f.a) (t.reg f.b) (t.reg f.c)) fun _ => rfl
  case sameBits =>
    calc _ = madInt false f.n false x y z := (madInt_eq ..).symm
      _ = madInt true f.n false x y z := by rw [madInt_wrap, madInt_wrap]
      _ = _ := madInt_eq ..

/-! ## Compares (R280) -/

/-- A compare writes `v'` where the model's own relation `v` is equal to it. -/
theorem writesPreds_of_eq {i : Instr} {p q : Pred3} {v v' : Thread → Bool} (hv : ∀ t, v t = v' t)
    (he : ∀ s, exec i s = execPure i s fun t => t.compare p q (v t)) : WritesPreds i p q v' :=
  (writesPreds_of p q v he).congr hv

/-- The minors 0 to 9 have the relations of R254, each of which is the bit vectors' own. -/
theorem icmpRel_eq_compared {m : BitVec 4} (hm : m.toNat ≤ 9) (x y : Word) (xd yd : DWord) :
    icmpRel m.toNat x y xd yd = compared m x y xd yd := by
  have hminor : m = 0 ∨ m = 1 ∨ m = 2 ∨ m = 3 ∨ m = 4 ∨ m = 5 ∨ m = 6 ∨ m = 7 ∨ m = 8 ∨ m = 9 := by
    revert m; decide
  rcases hminor with rfl | rfl | rfl | rfl | rfl | rfl | rfl | rfl | rfl | rfl <;> rfl

/-- Settles O5: the relation of each minor is the model's `icmpRel`, and `writesPreds_of` gives the order of the two writes. -/
theorem integerCompares : Obligations.IntegerCompares := by
  unfold Obligations.IntegerCompares
  refine ⟨fun f hm => ?icmp, fun f => ?testW32, fun f => ⟨?icmpEqImm, ?icmpLtImm⟩⟩
  case icmp => exact writesPreds_of_eq (fun t => icmpRel_eq_compared hm ..) fun _ => rfl
  case testW32 => exact writesPreds_of_eq (fun t => decide_not.symm) fun _ => rfl
  case icmpEqImm => exact writesPreds_of_eq (fun t => imm_eq_immediate t f.i true ▸ rfl) fun _ => rfl
  case icmpLtImm => exact writesPreds_of_eq (fun t => imm_eq_immediate t f.i true ▸ rfl) fun _ => rfl

end Sys2Proof.Machine
end

section
/-!
The statements O16 and O17 on the lanes of a crew: an action on the lanes may read the whole crew, as it was before any lane
wrote. Lane exchange reads one source lane; a vote reads the list of the lanes whose guard is true (`voteSet`).
-/
namespace Sys2Proof.Machine

variable {i : Instr}

/-! ## Actions that read the crew before -/

/-- In each lane an action on a crew matters only at the thread that stands there. -/
theorem mapCrew_congr {m : BitVec 64} {f g : Nat → Thread → Thread} {w : Crew}
    (h : ∀ l, f l (w.thread l) = g l (w.thread l)) : mapCrew i m f w = mapCrew i m g w := by
  have hthreads : (mapCrew i m f w).threads = (mapCrew i m g w).threads := by
    refine Vector.ext fun l hl => ?_
    have hl' := h l
    rw [Crew.thread, Vector.getD_lt _ _ _ hl] at hl'
    simp only [mapCrew, Vector.getElem_mapIdx, hl']
  exact congrArg (fun ts => { w with threads := ts }) hthreads

theorem mapLanes_congr {s : State} {f g : Crew → Nat → Thread → Thread}
    (h : ∀ w l, f w l (w.thread l) = g w l (w.thread l)) : s.mapLanes i f = s.mapLanes i g := by
  unfold State.mapLanes
  rw [List.map_congr_left fun x _ => congrArg (Prod.mk x.1) (mapCrew_congr (h x.2))]

/-- Two actions that agree where it matters give an instruction the same effect. -/
theorem exec_mapLanes_congr {f g : Crew → Nat → Thread → Thread} (he : ∀ s, exec i s = issue i s fun s => s.mapLanes i f)
    (h : ∀ w l, f w l (w.thread l) = g w l (w.thread l)) (s : State) : exec i s = issue i s fun s => s.mapLanes i g :=
  (he s).trans (congrArg (issue i s) (funext fun _ => mapLanes_congr h))

/-- An instruction that writes one register of each lane with what it finds in the crew. -/
theorem setsReg_of (d : Reg6) (v : Crew → Nat → Thread → Word)
    (he : ∀ s, exec i s = issue i s fun s => s.mapLanes i fun w l t => t.setReg d (v w l t)) :
    LaneByLane i fun w l a b => SetsReg a b d (v w l a) := by
  refine laneByLane_map _ _ he (fun w l t => kept_setReg t d (v w l t)) fun w l t b hg hp _ => ?_
  exact ⟨fun r => (reg_of_g _ _ hg r).trans (Thread.reg_setReg t d r (v w l t)), hp⟩

/-- The same for a pair. -/
theorem setsPair_of (d : Reg6) (v : Crew → Nat → Thread → DWord)
    (he : ∀ s, exec i s = issue i s fun s => s.mapLanes i fun w l t => t.setPair d (v w l t)) :
    LaneByLane i fun w l a b => SetsPair a b d (v w l a) := by
  refine laneByLane_map _ _ he (fun w l t => kept_setPair t d (v w l t)) fun w l t b hg hp _ => ⟨fun r => ?_, hp⟩
  rw [reg_of_g _ _ hg r, Thread.setPair, Thread.reg_setReg, Thread.reg_setReg]

/-- What an instruction does to a lane may be said more weakly. -/
theorem LaneByLane.mono {q q' : Crew → Nat → Thread → Thread → Prop} (h : LaneByLane i q)
    (hq : ∀ w l a b, q w l a b → q' w l a b) : LaneByLane i q' := by
  intro s c w m hr hp
  obtain ⟨t, w', hexec, hcrew, hframe, hother, hk, hmask, hret, hout, hin⟩ := h s c w m hr hp
  refine ⟨t, w', hexec, hcrew, hframe, hother, hk, hmask, hret, hout, fun l hl => ?_⟩
  obtain ⟨hkept, hpc, heff⟩ := hin l hl
  refine ⟨hkept, hpc, ?_⟩
  split
  · next hg => exact hq _ _ _ _ (by rwa [if_pos hg] at heff)
  · next hg => rwa [if_neg hg] at heff

/-! ## Lane exchange (R295) -/

/-- A form of `SHFL` whose source lane, by its own lane and its operand, is `src`. -/
theorem setsReg_of_shflValue (f : R3) (form : Nat) (src : Nat → Nat → Nat) (hsrc : ∀ l x, shflSource form l x = src l x)
    (he : ∀ s, exec i s = issue i s fun s => s.mapLanes i fun w l t => t.setReg f.d (shflValue form f.a f.b w l)) :
    LaneByLane i fun w l a b => SetsReg a b f.d ((w.thread (src l (a.reg f.b).toNat)).reg f.a) :=
  setsReg_of f.d _ (exec_mapLanes_congr he fun w l => by rw [shflValue, hsrc])

/-- The lane that the operand `x` names from lane `l`, within the segment of `z` lanes in which that lane stands. -/
def segmentSource (z l x : Nat) : Nat := l / z * z + (l + x % 64) % z

/-- The segment of a lane begins at a multiple of the size of the segments. -/
theorem shflSource_seg (l x : Nat) :
    shflSource 2 l x = segmentSource (2 ^ min (x / 64 % 8) 6) l x := by
  have hbase : ∀ z, l - l % z = l / z * z := fun z => by
    rw [Nat.sub_eq_iff_eq_add (Nat.mod_le l z), Nat.div_add_mod']
  simp only [shflSource, segmentSource, hbase]

/-- Settles O16: the value that the model's `shflValue` takes is that of the crew before the issue, in the lane `shflSource`. -/
theorem laneExchange : Obligations.LaneExchange := by
  unfold Obligations.LaneExchange
  refine fun f => ⟨?pick, ?rot, ?seg, ?flip⟩
  case pick => exact setsReg_of_shflValue f 0 (fun _ x => x % 64) (fun _ _ => rfl) fun _ => rfl
  case rot => exact setsReg_of_shflValue f 1 (fun l x => (l + x % 64) % 64) (fun _ _ => rfl) fun _ => rfl
  case seg => exact setsReg_of_shflValue f 2 (fun l x => segmentSource (2 ^ min (x / 64 % 8) 6) l x) shflSource_seg fun _ => rfl
  case flip => exact setsReg_of_shflValue f 3 (fun l x => l ^^^ (x % 64)) (fun _ _ => rfl) fun _ => rfl

/-! ## Votes (R296) -/

theorem mem_voteSet {c : Crew} {a : Reg6} {x : Nat × Word} :
    x ∈ voteSet i c a ↔ x.1 < 64 ∧ guardOf i (c.thread x.1) = true ∧ (c.thread x.1).reg a = x.2 := by
  obtain ⟨n, v⟩ := x
  simp only [voteSet, upto, List.mem_filterMap, List.mem_range, Option.ite_none_right_eq_some, Option.some.injEq,
    Prod.mk.injEq]
  constructor
  · rintro ⟨_, hn, hg, rfl, hv⟩
    exact ⟨hn, hg, hv⟩
  · rintro ⟨hn, hg, hv⟩
    exact ⟨n, hn, hg, rfl, hv⟩

theorem forall_mem_voteSet {c : Crew} {a : Reg6} (P : Nat → Word → Prop) :
    (∀ x ∈ voteSet i c a, P x.1 x.2) ↔ ∀ n, n < 64 → guardOf i (c.thread n) = true → P n ((c.thread n).reg a) := by
  constructor
  · intro h n hn hg
    exact h (n, _) (mem_voteSet.mpr ⟨hn, hg, rfl⟩)
  · intro h x hx
    obtain ⟨hn, hg, hv⟩ := mem_voteSet.mp hx
    exact hv ▸ h x.1 hn hg

theorem exists_mem_voteSet {c : Crew} {a : Reg6} (P : Nat → Word → Prop) :
    (∃ x ∈ voteSet i c a, P x.1 x.2) ↔ ∃ n, n < 64 ∧ guardOf i (c.thread n) = true ∧ P n ((c.thread n).reg a) := by
  constructor
  · rintro ⟨x, hx, hp⟩
    obtain ⟨hn, hg, hv⟩ := mem_voteSet.mp hx
    exact ⟨x.1, hn, hg, hv ▸ hp⟩
  · rintro ⟨n, hn, hg, hp⟩
    exact ⟨(n, _), mem_voteSet.mpr ⟨hn, hg, rfl⟩, hp⟩

theorem flag_zero_or_one (b : Bool) : (if b then (1 : Word) else 0) = 0 ∨ (if b then (1 : Word) else 0) = 1 := by
  cases b
  · exact .inl rfl
  · exact .inr rfl

theorem flag_eq_one_iff (b : Bool) : (if b then (1 : Word) else 0) = 1 ↔ b = true := by
  cases b <;> decide

theorem voteEvery_eq_one_iff (g : List (Nat × Word)) : voteEvery g = 1 ↔ ∀ x ∈ g, x.2 ≠ 0 := by
  rw [voteEvery, flag_eq_one_iff, List.all_eq_true]
  simp only [bne_iff_ne]

theorem voteSome_eq_one_iff (g : List (Nat × Word)) : voteSome g = 1 ↔ ∃ x ∈ g, x.2 ≠ 0 := by
  rw [voteSome, flag_eq_one_iff, List.any_eq_true]
  simp only [bne_iff_ne]

theorem getLsbD_laneBit {l n : Nat} (hn : n < 64) : (laneBit l).getLsbD n = true ↔ l = n := by
  rw [laneBit, ← BitVec.twoPow, BitVec.getLsbD_twoPow, Bool.and_eq_true, decide_eq_true_iff, decide_eq_true_iff]
  exact and_iff_right_of_imp fun e => e ▸ hn

/-- A lane's bit is set in the map once its value has been met. -/
theorem getLsbD_foldl_voteMap (g : List (Nat × Word)) (m : DWord) {n : Nat} (hn : n < 64) :
    (g.foldl (fun m x => if x.2 != 0 then m ||| laneBit x.1 else m) m).getLsbD n = true ↔
      m.getLsbD n = true ∨ ∃ x ∈ g, x.1 = n ∧ x.2 ≠ 0 := by
  induction g generalizing m with
  | nil => simp
  | cons x g ih =>
    rw [List.foldl_cons, ih]
    have hstep : (if x.2 != 0 then m ||| laneBit x.1 else m).getLsbD n = true ↔
        m.getLsbD n = true ∨ (x.1 = n ∧ x.2 ≠ 0) := by
      by_cases hx : x.2 = 0
      · simp [hx]
      · rw [if_pos (bne_iff_ne.mpr hx), BitVec.getLsbD_or, Bool.or_eq_true, getLsbD_laneBit hn]
        exact or_congr_right (and_iff_left hx).symm
    rw [hstep, or_assoc]
    simp only [List.mem_cons, exists_eq_or_imp]

theorem getLsbD_voteMap (g : List (Nat × Word)) {n : Nat} (hn : n < 64) :
    (voteMap g).getLsbD n = true ↔ ∃ x ∈ g, x.1 = n ∧ x.2 ≠ 0 :=
  (getLsbD_foldl_voteMap g 0 hn).trans (by simp)

theorem getLsbD_voteMap_voteSet (c : Crew) (a : Reg6) {n : Nat} (hn : n < 64) :
    (voteMap (voteSet i c a)).getLsbD n = true ↔ guardOf i (c.thread n) = true ∧ (c.thread n).reg a ≠ 0 := by
  rw [getLsbD_voteMap _ hn, exists_mem_voteSet fun l v => l = n ∧ v ≠ 0]
  constructor
  · rintro ⟨_, _, hg, rfl, hv⟩
    exact ⟨hg, hv⟩
  · rintro ⟨hg, hv⟩
    exact ⟨n, hn, hg, rfl, hv⟩

/-- A sum of words is that of their values, modulo the size of a word. -/
theorem foldl_add_ofNat {α : Type} (p : α → Bool) (v : α → Word) (ls : List α) (n : Nat) :
    ls.foldl (fun x l => if p l then x + v l else x) (BitVec.ofNat 32 n) =
      BitVec.ofNat 32 (ls.foldl (fun x l => x + if p l then (v l).toNat else 0) n) := by
  induction ls generalizing n with
  | nil => rfl
  | cons l ls ih =>
    rw [List.foldl_cons, List.foldl_cons, ← ih]
    cases p l
    · rfl
    · rw [if_pos rfl, if_pos rfl, BitVec.ofNat_add, BitVec.ofNat_toNat, BitVec.setWidth_eq]

theorem voteIsum_voteSet (c : Crew) (a : Reg6) :
    voteIsum (voteSet i c a) = BitVec.ofNat 32
      ((List.range 64).foldl (fun x n => x + if guardOf i (c.thread n) then ((c.thread n).reg a).toNat else 0) 0) := by
  rw [← foldl_add_ofNat (fun n => guardOf i (c.thread n)) fun n => (c.thread n).reg a, voteIsum, voteSet, List.foldl_filterMap]
  refine congrArg (fun step => (List.range 64).foldl step (0 : Word)) (funext fun x => funext fun n => ?_)
  cases guardOf i (c.thread n) <;> rfl

/-- A table of values at the numbers of a list that `p` chooses. -/
theorem at?_filterMap {β : Type} (p : Nat → Bool) (v : Nat → β) (ls : List Nat) (n : Nat) :
    Tbl.at? (ls.filterMap fun l => if p l then some (l, v l) else none) n =
      if n ∈ ls ∧ p n = true then some (v n) else none := by
  induction ls with
  | nil => simp [Tbl.at?]
  | cons l ls ih =>
    rw [List.filterMap_cons]
    by_cases e : l = n
    · subst e
      cases hp : p l <;> simp [Tbl.at?, ih, hp]
    · cases hp : p l <;> simp [Tbl.at?, ih, e, Ne.symm e]

theorem at?_voteSet (c : Crew) (a : Reg6) {n : Nat} (hn : n < 64) :
    Tbl.at? (voteSet i c a) n = if guardOf i (c.thread n) then some ((c.thread n).reg a) else none := by
  refine (at?_filterMap (fun l => guardOf i (c.thread l)) (fun l => (c.thread l).reg a) (upto 64) n).trans ?_
  simp only [upto, List.mem_range, hn, true_and]

theorem voteFsum_voteSet (mode : BitVec 2) (sat : Bool) (c : Crew) (a : Reg6) :
    voteFsum mode sat (voteSet i c a) = BitVec.ofNat 32 (pairTree (Fmt.f32.add mode sat)
      ((List.range 64).map fun n => if guardOf i (c.thread n) then ((c.thread n).reg a).toNat else 0)) := by
  rw [voteFsum]
  refine congrArg (fun xs => BitVec.ofNat 32 (pairTree (Fmt.f32.add mode sat) xs)) (List.map_congr_left fun n hn => ?_)
  rw [at?_voteSet c a (List.mem_range.mp hn)]
  cases guardOf i (c.thread n) <;> rfl

/-- Settles O17: each vote is a function of `voteSet`, the values of the lanes whose guard is true. -/
theorem votes : Obligations.Votes := by
  unfold Obligations.Votes
  refine fun f => ⟨?every, ?some, ?map, ?isum, ?fsum⟩
  case every =>
    refine (setsReg_of f.d (fun w _ _ => voteEvery (voteSet (.voteEvery f) w f.a)) fun _ => rfl).mono fun w _ a b h => ?_
    exact ⟨_, h, flag_zero_or_one _, (voteEvery_eq_one_iff _).trans (forall_mem_voteSet fun _ v => v ≠ 0)⟩
  case some =>
    refine (setsReg_of f.d (fun w _ _ => voteSome (voteSet (.voteSome f) w f.a)) fun _ => rfl).mono fun w _ a b h => ?_
    exact ⟨_, h, flag_zero_or_one _, (voteSome_eq_one_iff _).trans (exists_mem_voteSet fun _ v => v ≠ 0)⟩
  case map =>
    refine (setsPair_of f.d (fun w _ _ => voteMap (voteSet (.voteMap f) w f.a)) fun _ => rfl).mono fun w _ a b h => ?_
    exact ⟨_, h, fun n hn => getLsbD_voteMap_voteSet w f.a hn⟩
  case isum =>
    exact setsReg_of f.d _ (exec_mapLanes_congr (fun _ => rfl) fun w l => by rw [voteIsum_voteSet])
  case fsum =>
    exact setsReg_of f.d _ (exec_mapLanes_congr (fun _ => rfl) fun w l => by rw [voteFsum_voteSet])

end Sys2Proof.Machine
end
